-- ==== Sys2Proof/Word.lean ====
section
/-!
DEFINITION. The word types of the YB-8412 and their plainest arithmetic: a lane register is 32 bits (R96), a wave
register and a system register 64 bits (R36, R385), memory is addressed in bytes (R6).
-/
namespace Sys2Proof

/-- One byte of memory. -/
abbrev Byte := BitVec 8

/-- A lane register, an instruction word (R96, R167). -/
abbrev Word := BitVec 32

/-- A wave register, a virtual address, a system register, a GT value (R36, R114, R385, R31). -/
abbrev DWord := BitVec 64

/-- The value of a two's complement pattern of `n` bits (R95). -/
def signed (n : Nat) (x : Nat) : Int :=
  let y := x % 2 ^ n
  if 2 * y < 2 ^ n then (y : Int) else (y : Int) - (2 ^ n : Nat)

/-- Bits [hi:lo] of a number, the manual's `x[h:l]` (R10). -/
def bits (x hi lo : Nat) : Nat := x / 2 ^ lo % 2 ^ (hi + 1 - lo)

/-- Bit `i` of a number. -/
def bit (x i : Nat) : Bool := x.testBit i

end Sys2Proof
end

