-- ==== Sys2Proof/Syntax.lean ====
section
/-!
DEFINITION. The syntax of the YB-8412: the names that the encoding's SUB codes stand for (R182), the operand fields of an
extended form (R168, R170, R172, R173), and ONE inductive with a constructor for every row of the opcode table. A row
named _SHORT is the one-word form (R169); every other instruction row is the extended form, which also covers the two
literal lengths where the opcode has a literal slot (R173). The rows from ISSUE_CYCLE on are the part's own steps and
the outside's events; which occurrence is meant stands in the state (`Occ`), as an issue does for a lane instruction.
-/
namespace Sys2Proof

/-- The integer types TY, in code order (R182). -/
inductive IntTy where
  | s32 | z32 | s64 | z64 | s16 | z16 | s8 | z8
  deriving DecidableEq, Repr

/-- The widths WD (R182). -/
inductive Wd where
  | b32 | b64
  deriving DecidableEq, Repr

/-- The floating types FT (R182). -/
inductive FT where
  | f32 | f64 | f16 | bf16
  deriving DecidableEq, Repr

/-- The conversion formats CF (R182). -/
inductive CF where
  | f32 | f64 | f16 | bf16 | e4m3 | e5m2
  deriving DecidableEq, Repr

/-- The memory sizes MS: .Z32/.B32, .S8, .Z8/.B8, .S16, .Z16/.B16, .B64, .B128 (R182, R269). -/
inductive MS where
  | b4 | s1 | b1 | s2 | b2 | b8 | b16
  deriving DecidableEq, Repr

/-- The matrix formats MF (R182). -/
inductive MF where
  | f32 | f64 | f16 | bf16 | e4m3 | e5m2 | s8 | z8 | cb
  deriving DecidableEq, Repr

/-- The relations of compares and compare-branches (R182). -/
inductive Rel where
  | eq | ne | lt | le | gt | ge
  deriving DecidableEq, Repr

/-- Variants of IADD, ISUB, IMAD, IABS, INEG (R183). -/
inductive AddVar where
  | wrap | sat
  deriving DecidableEq, Repr

/-- Variants of IMUL (R183). -/
inductive MulVar where
  | wrap | sat | hi
  deriving DecidableEq, Repr

/-- Scales of LEA (R214). -/
inductive LeaScale where
  | x1 | x2 | x4 | x8 | x16
  deriving DecidableEq, Repr

/-- Variants of VOTE (R232). -/
inductive VoteOp where
  | any | all | ballot
  deriving DecidableEq, Repr

/-- Operations of KOP (R234). -/
inductive KopOp where
  | and | or | xor | andn | not
  deriving DecidableEq, Repr

/-- Operations of REDUCE (R236). -/
inductive RedOp where
  | add | min | max | and | or | xor | fmin | fmax
  deriving DecidableEq, Repr

/-- Operations of SCAN (R237). -/
inductive ScanOp where
  | add | min | max
  deriving DecidableEq, Repr

/-- Operations of ATOM and ATOMS (R277). -/
inductive AtomOp where
  | add | min | max | and | or | xor | xchg
  deriving DecidableEq, Repr

/-- Operations of FATOM and FATOMS (R279). -/
inductive FAtomOp where
  | add | min | max
  deriving DecidableEq, Repr

/-- Kinds of FENCE (R281). -/
inductive FenceKind where
  | full | acq | rel
  deriving DecidableEq, Repr

/-- Value formats of TOPK (R319). -/
inductive TopFmt where
  | f32 | bf16
  deriving DecidableEq, Repr

/-- A hardware-loop level (R78). -/
abbrev Lvl := BitVec 2

/-- The four lengths of R167, with the literal where the form has one. -/
inductive Form where
  | short
  | shortLit (lit : BitVec 64)
  | ext
  | extLit (lit : BitVec 64)
  deriving DecidableEq, Repr

/-- The operand fields of an instruction: the base word's DST and SA (R168), extended word 1 (R170), extended word 2
(R172) and the form. A short form has its defaults here (R169). -/
structure Fields where
  form : Form := .ext
  dst : BitVec 8 := 0
  sa : BitVec 8 := 0
  sb : BitVec 8 := 0
  sc : BitVec 8 := 0
  km : BitVec 3 := 0
  kn : Bool := false
  epa : Bool := false
  epb : Bool := false
  epc : Bool := false
  rnd : BitVec 2 := 0
  hint : BitVec 2 := 0
  scope : BitVec 3 := 0
  mode : BitVec 2 := 0
  w2 : BitVec 32 := 0
  deriving DecidableEq, Repr

/-- An inbound request of a peer module (R157, R442). -/
inductive PeerReq where
  | load (size : Nat)
  | store (data : List (BitVec 8))
  | atomic (op : AtomOp) (ty : IntTy) (b : BitVec 64)
  | cas (ty : IntTy) (cmp new : BitVec 64)
  | fatom (op : FAtomOp) (ft : FT) (b : BitVec 64)
  deriving DecidableEq, Repr

/-- What an event of the part or of the outside is about: an identity, places, numbers and values. Each event names the
fields it uses; the others are zero. -/
structure Occ where
  id : Nat := 0
  core : Nat := 0
  vi : Nat := 0
  wid : Nat := 0
  lane : Nat := 0
  part : Nat := 0
  pass : Nat := 0
  port : Nat := 0
  peer : Nat := 0
  num : Nat := 0
  index : Nat := 0
  n : Nat := 0
  pa : Nat := 0
  len : Nat := 0
  value : BitVec 64 := 0
  cmp : BitVec 64 := 0
  ok : Bool := false
  data : List (BitVec 8) := []
  nums : List Nat := []
  nums2 : List Nat := []
  req : Option PeerReq := none
  deriving DecidableEq, Repr

/-- One constructor for every row of the opcode table. -/
inductive Instr where
  | iaddShort (b : BitVec 6) (a : BitVec 8) (d : BitVec 8)
  | iadd (v : AddVar) (ty : IntTy) (x : Fields)
  | isubShort (b : BitVec 6) (a : BitVec 8) (d : BitVec 8)
  | isub (v : AddVar) (ty : IntTy) (x : Fields)
  | imulShort (b : BitVec 6) (a : BitVec 8) (d : BitVec 8)
  | imul (v : MulVar) (ty : IntTy) (x : Fields)
  | iaddImmShort (i : BitVec 6) (a : BitVec 8) (d : BitVec 8)
  | iaddImm (v : AddVar) (ty : IntTy) (x : Fields)
  | imadShort (b : BitVec 6) (a : BitVec 8) (d : BitVec 8)
  | imad (v : AddVar) (ty : IntTy) (x : Fields)
  | idivShort (b : BitVec 6) (a : BitVec 8) (d : BitVec 8)
  | idiv (ty : IntTy) (x : Fields)
  | iremShort (b : BitVec 6) (a : BitVec 8) (d : BitVec 8)
  | irem (ty : IntTy) (x : Fields)
  | iminShort (b : BitVec 6) (a : BitVec 8) (d : BitVec 8)
  | imin (ty : IntTy) (x : Fields)
  | imaxShort (b : BitVec 6) (a : BitVec 8) (d : BitVec 8)
  | imax (ty : IntTy) (x : Fields)
  | iabsShort (a : BitVec 8) (d : BitVec 8)
  | iabs (v : AddVar) (ty : IntTy) (x : Fields)
  | inegShort (a : BitVec 8) (d : BitVec 8)
  | ineg (v : AddVar) (ty : IntTy) (x : Fields)
  | andShort (b : BitVec 6) (a : BitVec 8) (d : BitVec 8)
  | and (wd : Wd) (x : Fields)
  | orShort (b : BitVec 6) (a : BitVec 8) (d : BitVec 8)
  | or (wd : Wd) (x : Fields)
  | xorShort (b : BitVec 6) (a : BitVec 8) (d : BitVec 8)
  | xor (wd : Wd) (x : Fields)
  | notShort (a : BitVec 8) (d : BitVec 8)
  | not (wd : Wd) (x : Fields)
  | shlShort (c : BitVec 6) (a : BitVec 8) (d : BitVec 8)
  | shl (wd : Wd) (x : Fields)
  | shrShort (c : BitVec 6) (a : BitVec 8) (d : BitVec 8)
  | shr (wd : Wd) (x : Fields)
  | sarShort (c : BitVec 6) (a : BitVec 8) (d : BitVec 8)
  | sar (wd : Wd) (x : Fields)
  | rotShort (c : BitVec 6) (a : BitVec 8) (d : BitVec 8)
  | rot (wd : Wd) (x : Fields)
  | popcShort (a : BitVec 8) (d : BitVec 8)
  | popc (wd : Wd) (x : Fields)
  | clzShort (a : BitVec 8) (d : BitVec 8)
  | clz (wd : Wd) (x : Fields)
  | brevShort (a : BitVec 8) (d : BitVec 8)
  | brev (wd : Wd) (x : Fields)
  | bfx (sx : Bool) (wd : Wd) (x : Fields)
  | bfi (wd : Wd) (x : Fields)
  | icmpShort (b : BitVec 6) (a : BitVec 8) (k : BitVec 8)
  | icmp (r : Rel) (ty : IntTy) (x : Fields)
  | sel (wd : Wd) (x : Fields)
  | leaShort (b : BitVec 6) (a : BitVec 8) (d : BitVec 8)
  | lea (xs : LeaScale) (x : Fields)
  | movShort (b : BitVec 6) (d : BitVec 8)
  | mov (x : Fields)
  | movW (x : Fields)
  | movLo (x : Fields)
  | movHi (x : Fields)
  | movFws (x : Fields)
  | movTws (x : Fields)
  | faddShort (b : BitVec 6) (a : BitVec 8) (d : BitVec 8)
  | fadd (ft : FT) (x : Fields)
  | fsubShort (b : BitVec 6) (a : BitVec 8) (d : BitVec 8)
  | fsub (ft : FT) (x : Fields)
  | fmulShort (b : BitVec 6) (a : BitVec 8) (d : BitVec 8)
  | fmul (ft : FT) (x : Fields)
  | fmaShort (b : BitVec 6) (a : BitVec 8) (d : BitVec 8)
  | fma (ft : FT) (x : Fields)
  | fdivShort (b : BitVec 6) (a : BitVec 8) (d : BitVec 8)
  | fdiv (ft : FT) (x : Fields)
  | fsqrtShort (a : BitVec 8) (d : BitVec 8)
  | fsqrt (ft : FT) (x : Fields)
  | frcpShort (a : BitVec 8) (d : BitVec 8)
  | frcp (ft : FT) (x : Fields)
  | frsqShort (a : BitVec 8) (d : BitVec 8)
  | frsq (ft : FT) (x : Fields)
  | fminShort (b : BitVec 6) (a : BitVec 8) (d : BitVec 8)
  | fmin (ft : FT) (x : Fields)
  | fmaxShort (b : BitVec 6) (a : BitVec 8) (d : BitVec 8)
  | fmax (ft : FT) (x : Fields)
  | fabsShort (a : BitVec 8) (d : BitVec 8)
  | fabs (ft : FT) (x : Fields)
  | fnegShort (a : BitVec 8) (d : BitVec 8)
  | fneg (ft : FT) (x : Fields)
  | fcpsShort (b : BitVec 6) (a : BitVec 8) (d : BitVec 8)
  | fcps (ft : FT) (x : Fields)
  | fcmpShort (b : BitVec 6) (a : BitVec 8) (k : BitVec 8)
  | fcmp (r : Rel) (ft : FT) (x : Fields)
  | fclsShort (a : BitVec 8) (d : BitVec 8)
  | fcls (ft : FT) (x : Fields)
  | frndShort (a : BitVec 8) (d : BitVec 8)
  | frnd (ft : FT) (x : Fields)
  | cvtf (cd : CF) (cs : CF) (x : Fields)
  | cvtfi (cs : CF) (ty : IntTy) (x : Fields)
  | cvtif (cd : CF) (ty : IntTy) (x : Fields)
  | cvtsc (toSc : Bool) (x : Fields)
  | fexpShort (a : BitVec 8) (d : BitVec 8)
  | fexp (b2 : Bool) (x : Fields)
  | flogShort (a : BitVec 8) (d : BitVec 8)
  | flog (b2 : Bool) (x : Fields)
  | fsinShort (a : BitVec 8) (d : BitVec 8)
  | fsin (pi : Bool) (x : Fields)
  | fcosShort (a : BitVec 8) (d : BitVec 8)
  | fcos (pi : Bool) (x : Fields)
  | ftanShort (a : BitVec 8) (d : BitVec 8)
  | ftan (x : Fields)
  | ftanhShort (a : BitVec 8) (d : BitVec 8)
  | ftanh (x : Fields)
  | fatanShort (a : BitVec 8) (d : BitVec 8)
  | fatan (x : Fields)
  | fpack (cf : CF) (x : Fields)
  | shflShort (b : BitVec 6) (a : BitVec 8) (d : BitVec 8)
  | shfl (wd : Wd) (x : Fields)
  | shflupShort (i : BitVec 6) (a : BitVec 8) (d : BitVec 8)
  | shflup (wd : Wd) (x : Fields)
  | shfldnShort (i : BitVec 6) (a : BitVec 8) (d : BitVec 8)
  | shfldn (wd : Wd) (x : Fields)
  | shflxShort (i : BitVec 6) (a : BitVec 8) (d : BitVec 8)
  | shflx (wd : Wd) (x : Fields)
  | bcast (wd : Wd) (x : Fields)
  | vote (op : VoteOp) (x : Fields)
  | kset (w : Bool) (x : Fields)
  | kop (op : KopOp) (x : Fields)
  | kmov (w : Bool) (x : Fields)
  | kpopc (x : Fields)
  | reduce (op : RedOp) (ty : IntTy) (x : Fields)
  | scan (op : ScanOp) (ty : IntTy) (x : Fields)
  | braShort (i : BitVec 22)
  | bra (x : Fields)
  | brc (r : Rel) (ty : IntTy) (x : Fields)
  | callShort (i : BitVec 22)
  | call (x : Fields)
  | callInd (x : Fields)
  | retShort
  | ret (x : Fields)
  | loopShort (l : BitVec 2) (a : BitVec 8) (e : BitVec 8)
  | loop (l : Lvl) (x : Fields)
  | loopI (l : Lvl) (x : Fields)
  | barWvShort
  | barWv (x : Fields)
  | barBlk (x : Fields)
  | sleepShort (a : BitVec 8)
  | sleep (x : Fields)
  | sleepFor (x : Fields)
  | waitFullShort (a : BitVec 8)
  | waitFull (x : Fields)
  | waitEmpty (x : Fields)
  | trapShort (c : BitVec 6)
  | trap (x : Fields)
  | endShort
  | endLane (x : Fields)
  | msignShort (g : BitVec 6)
  | msign (x : Fields)
  | spawn (rng : Bool) (x : Fields)
  | yieldShort
  | yieldNow (x : Fields)
  | cmtWaitShort
  | cmtWait (x : Fields)
  | cmtPos (x : Fields)
  | ldShort (w : BitVec 6) (a : BitVec 8) (d : BitVec 8)
  | ld (ms : MS) (x : Fields)
  | stShort (w : BitVec 6) (a : BitVec 8) (d : BitVec 8)
  | st (ms : MS) (x : Fields)
  | ldsShort (a : BitVec 8) (d : BitVec 8)
  | lds (ms : MS) (x : Fields)
  | stsShort (a : BitVec 8) (d : BitVec 8)
  | sts (ms : MS) (x : Fields)
  | fillShort (a : BitVec 8) (d : BitVec 8)
  | fill (ms : MS) (x : Fields)
  | drainShort (a : BitVec 8) (d : BitVec 8)
  | drain (ms : MS) (x : Fields)
  | seteShort (a : BitVec 8)
  | sete (ms : MS) (x : Fields)
  | pushShort (a : BitVec 8) (d : BitVec 8)
  | push (x : Fields)
  | popShort (a : BitVec 8) (d : BitVec 8)
  | pop (x : Fields)
  | rbwaitShort (a : BitVec 8) (d : BitVec 8)
  | rbwait (x : Fields)
  | rbrdShort (a : BitVec 8) (d : BitVec 8)
  | rbrd (x : Fields)
  | rbaddShort (a : BitVec 8) (d : BitVec 8)
  | rbadd (x : Fields)
  | atom (op : AtomOp) (ty : IntTy) (x : Fields)
  | atoms (op : AtomOp) (ty : IntTy) (x : Fields)
  | cas (ty : IntTy) (x : Fields)
  | cass (ty : IntTy) (x : Fields)
  | fatom (op : FAtomOp) (ft : FT) (x : Fields)
  | fatoms (op : FAtomOp) (ft : FT) (x : Fields)
  | fenceShort
  | fence (k : FenceKind) (x : Fields)
  | take (x : Fields)
  | takeTry (x : Fields)
  | give (x : Fields)
  | acinit (x : Fields)
  | stock (x : Fields)
  | bankreq (x : Fields)
  | prefShort (w : BitVec 6) (a : BitVec 8)
  | pref (x : Fields)
  | ldw (ms : MS) (x : Fields)
  | stw (ms : MS) (x : Fields)
  | flushShort (w : BitVec 6) (a : BitVec 8)
  | flush (x : Fields)
  | mlatb (mf : MF) (x : Fields)
  | mma (mf : MF) (x : Fields)
  | mmas (mf : MF) (x : Fields)
  | mmai (mf : MF) (x : Fields)
  | mcbt (x : Fields)
  | mzero (x : Fields)
  | mrd (x : Fields)
  | mst (x : Fields)
  | mmv (x : Fields)
  | mstat (x : Fields)
  | mstatClr (x : Fields)
  | mwait (x : Fields)
  | mrel (x : Fields)
  | band (x : Fields)
  | ppopc (x : Fields)
  | igath (wd : Wd) (x : Fields)
  | cmpr (wd : Wd) (x : Fields)
  | expd (wd : Wd) (x : Fields)
  | topk (nz : Bool) (f : TopFmt) (x : Fields)
  | tcopy (x : Fields)
  | tgath (x : Fields)
  | tscat (x : Fields)
  | fconv (x : Fields)
  | sred (x : Fields)
  | embag (x : Fields)
  | draw (x : Fields)
  | rpassTile (x : Fields)
  | rpassImm (x : Fields)
  | ordEnter (x : Fields)
  | ordLeave (x : Fields)
  | fli (x : Fields)
  | flw (x : Fields)
  | rayq (x : Fields)
  | rayqApp (x : Fields)
  | sysrd (x : Fields)
  | syswr (x : Fields)
  | sysopIcinv (x : Fields)
  | sysopDcwb (x : Fields)
  | sysopXlinv (x : Fields)
  | sysopXlinvAll (x : Fields)
  | eret (x : Fields)
  /-- Occurrence: core. -/
  | issueCycle
  /-- Occurrence: wid, lane. -/
  | soloFetch
  /-- Occurrence: id. -/
  | destinationFill
  /-- Occurrence: id. -/
  | barrierTimeout
  /-- Occurrence: wid, lane. -/
  | sleepWake
  /-- Occurrence: wid, lane. -/
  | signingTimeout
  /-- Occurrence: wid. -/
  | armingTimeout
  /-- Occurrence: id. -/
  | waveComplete
  /-- Occurrence: vi. -/
  | launch
  /-- Occurrence: vi. -/
  | cancel
  /-- Occurrence: id, core. -/
  | cancelReach
  /-- Occurrence: id. -/
  | launchStart
  /-- Occurrence: core. -/
  | wavePlace
  /-- Occurrence: id. -/
  | spawnDecision
  /-- Occurrence: core. -/
  | packWave
  /-- Occurrence: core. -/
  | packWaitExpire
  /-- Occurrence: vi. -/
  | commit
  /-- Occurrence: id. -/
  | dPageAccess
  /-- Occurrence: vi, n = slice. -/
  | versionShareAbort
  /-- Occurrence: id. -/
  | heldWrite
  /-- Occurrence: id, n = level. -/
  | homeSliceStore
  /-- Occurrence: id. -/
  | remoteScratchpadAccess
  /-- Occurrence: vi, index = cluster, value. -/
  | bankmodeWrite
  /-- Occurrence: index = cluster, n = bank. -/
  | bankSwitchComplete
  /-- Occurrence: id, n = row. -/
  | tileCopyRow
  /-- Occurrence: id. -/
  | lateDelivery
  /-- Occurrence: wid, lane. -/
  | engineQueueTimeout
  /-- Occurrence: id. -/
  | fconvTile
  /-- Occurrence: id. -/
  | sredElement
  /-- Occurrence: id. -/
  | embagBag
  /-- Occurrence: core. -/
  | matrixEntry
  /-- Occurrence: core. -/
  | tableSlotFill
  /-- Occurrence: wid. -/
  | matrixClaimTimeout
  /-- Occurrence: id. -/
  | tillTake
  /-- Occurrence: id. -/
  | tillGive
  /-- Occurrence: id. -/
  | tillAcinit
  /-- Occurrence: id. -/
  | tillStock
  /-- Occurrence: pa = line. -/
  | stocktakeRecall
  /-- Occurrence: id. -/
  | allowanceWaitTimeout
  /-- Occurrence: wid, lane. -/
  | rowBarrierTimeout
  /-- Occurrence: wid, lane. -/
  | commitWaitTimeout
  /-- Occurrence: pass. -/
  | drawAccept
  /-- Occurrence: pass, n = cluster. -/
  | rasterWaveForm
  /-- Occurrence: wid, lane. -/
  | ordEntryTimeout
  /-- Occurrence: wid, lane. -/
  | ordSectionTimeout
  /-- Occurrence: id. -/
  | fliPerform
  /-- Occurrence: id. -/
  | flwPerform
  /-- Occurrence: id. -/
  | rayTraversal
  /-- Occurrence: wid. -/
  | graphicsTimeout
  /-- Occurrence: pass. -/
  | resolvePhase
  /-- Occurrence: pass. -/
  | passClose
  /-- Occurrence: id. -/
  | trapHandlerEntry
  /-- Occurrence: id. -/
  | trapRingTimeout
  /-- Occurrence: id. -/
  | lateRecordTimeout
  /-- Occurrence: id, n = cause. -/
  | lateStoreFault
  /-- Occurrence: id. -/
  | eventRecordTimeout
  /-- Occurrence: part. -/
  | timeSliceEnd
  /-- Occurrence: wid. -/
  | forcedSave
  /-- Occurrence: wid. -/
  | saveComplete
  /-- Occurrence: wid. -/
  | waveRestore
  /-- Occurrence: vi. -/
  | vistop
  /-- Occurrence: part. -/
  | waitCycleScan
  /-- Occurrence: core = sender, index = destination, n = class. -/
  | nocRefusal
  /-- Occurrence: core = sender, index = destination, n = class, ok = the messages are accepted. -/
  | nocReplay
  /-- Occurrence: vi, core, value = address, n = access, ok = at supervisor level. -/
  | translationWalk
  /-- Occurrence: pa = leaf. -/
  | ownerRecall
  /-- Occurrence: pa = leaf. -/
  | reclassifyComplete
  /-- Occurrence: vi, pa, data, ok = in the doorbell page, with pa its offset. -/
  | hostRdmaWrite
  /-- Occurrence: vi, pa, len, ok = in the doorbell page, with pa its offset. -/
  | hostRdmaRead
  /-- Occurrence: vi, pa, ok = compare and swap, cmp, value. -/
  | hostAtomic
  /-- Occurrence: vi, value. -/
  | doorbellCqtail
  /-- Occurrence: vi, value. -/
  | doorbellTqhead
  /-- Occurrence: vi, value. -/
  | doorbellEqhead
  /-- Occurrence: vi, value. -/
  | cqbaseWrite
  /-- Occurrence: vi, value. -/
  | tqbaseWrite
  /-- Occurrence: vi, value. -/
  | eqbaseWrite
  /-- Occurrence: part, value. -/
  | partWrite
  /-- Occurrence: vi, value. -/
  | vshareWrite
  /-- Occurrence: value. -/
  | fatalClear
  /-- Occurrence: num, index, value. -/
  | registerWrite
  /-- Occurrence: peer, pa, req. -/
  | peerInbound
  /-- Occurrence: port. -/
  | keepalive
  /-- Occurrence: port. -/
  | fabricPortDown
  /-- Occurrence: peer. -/
  | peerLost
  /-- Occurrence: peer, value = MODID. -/
  | peerHandshake
  /-- Occurrence: value = offset. -/
  | ptpMessage
  /-- Occurrence: index = stream, value. -/
  | pstreamWrite
  /-- Occurrence: index = stream. -/
  | frameDeadline
  | coldReset
  | warmReset
  /-- Occurrence: vi. -/
  | interfaceReset
  | thermalTrip
  /-- Occurrence: n = row, ok = hot, num = MHz, index = hottest. -/
  | thermalThrottle
  /-- Occurrence: index = rows, num = MHz, n = W. -/
  | powerLimit
  | bootRun
  /-- Occurrence: index, value. -/
  | measextWrite
  /-- Occurrence: num, index, value. -/
  | managementRequest
  /-- Occurrence: data = nonce. -/
  | attestation
  /-- Occurrence: n = temperature bin, nums = droop bins, nums2 = ports retrained, num = corrected errors, index = their slice. -/
  | histogramTick
  | histogramSave
  /-- Occurrence: pa, or with ok the scratchpad word at offset n of core. -/
  | scrub
  /-- Occurrence: wid. -/
  | registerEccError
  /-- Occurrence: n = slice. -/
  | sliceStateError
  | illegalInstruction
  /-- Occurrence: id, ok, data. -/
  | peerAcknowledgement
  /-- Occurrence: peer. -/
  | keepaliveReceived
  /-- Occurrence: port. -/
  | fabricPortUp
  /-- Occurrence: vi. -/
  | queuePairConnected
  /-- Occurrence: vi. -/
  | brokenConnection
  | powerLoss
  /-- Occurrence: vi. -/
  | hostSend
  deriving DecidableEq, Repr

end Sys2Proof
end

