-- ==== Sys2Proof/Machine/Short.lean ====
section
/-!
DEFINITION. The short forms (R169): each short instruction is the SUB 0 variant of its opcode with fixed defaults. `ext` names
the extended twin of an instruction, `fieldsOf` its operand fields.
-/
namespace Sys2Proof.Machine

/-- Short form with SB in F6, SA and DST (R168, R169). -/
def sh3 (b : BitVec 6) (a d : BitVec 8) : Fields := { form := .short, sb := b.setWidth 8, sa := a, dst := d }

/-- Short form whose addend is DST (R183, R184). -/
def sh4 (b : BitVec 6) (a d : BitVec 8) : Fields :=
  { form := .short, sb := b.setWidth 8, sa := a, dst := d, sc := d }

/-- Short form with an I6z in F6 (R169). -/
def shI (i : BitVec 6) (a d : BitVec 8) : Fields := { form := .short, sa := a, dst := d, w2 := i.setWidth 32 }

/-- Short form with an I6s in F6 (R169). -/
def shIs (i : BitVec 6) (a d : BitVec 8) : Fields := { form := .short, sa := a, dst := d, w2 := i.signExtend 32 }

/-- Short form with I22 (R168). -/
def shOff (i : BitVec 22) : Fields := { form := .short, w2 := i.signExtend 32 }

/-- Short LOOP: SA holds the count register and DST the distance E (R246). -/
def shLoop (a e : BitVec 8) : Fields := { form := .short, sa := a, w2 := e.setWidth 32 }

/-- Short form without operands. -/
def sh0 : Fields := { form := .short }

/-- Short full/empty access: it orders at core scope (R169). -/
def shCore (a d : BitVec 8) : Fields := { form := .short, sa := a, dst := d, scope := 2 }

/-- Short FENCE: device scope (R281). -/
def shDevice : Fields := { form := .short, scope := 4 }

/-- The extended twin of a short instruction; any other instruction is its own twin. -/
def ext : Instr → Instr
  | .iaddShort b a d => .iadd .wrap .s32 (sh3 b a d)
  | .isubShort b a d => .isub .wrap .s32 (sh3 b a d)
  | .imulShort b a d => .imul .wrap .s32 (sh3 b a d)
  | .iaddImmShort i a d => .iaddImm .wrap .s32 (shIs i a d)
  | .imadShort b a d => .imad .wrap .s32 (sh4 b a d)
  | .idivShort b a d => .idiv .s32 (sh3 b a d)
  | .iremShort b a d => .irem .s32 (sh3 b a d)
  | .iminShort b a d => .imin .s32 (sh3 b a d)
  | .imaxShort b a d => .imax .s32 (sh3 b a d)
  | .iabsShort a d => .iabs .wrap .s32 (sh3 0 a d)
  | .inegShort a d => .ineg .wrap .s32 (sh3 0 a d)
  | .andShort b a d => .and .b32 (sh3 b a d)
  | .orShort b a d => .or .b32 (sh3 b a d)
  | .xorShort b a d => .xor .b32 (sh3 b a d)
  | .notShort a d => .not .b32 (sh3 0 a d)
  | .shlShort c a d => .shl .b32 (shI c a d)
  | .shrShort c a d => .shr .b32 (shI c a d)
  | .sarShort c a d => .sar .b32 (shI c a d)
  | .rotShort c a d => .rot .b32 (shI c a d)
  | .popcShort a d => .popc .b32 (sh3 0 a d)
  | .clzShort a d => .clz .b32 (sh3 0 a d)
  | .brevShort a d => .brev .b32 (sh3 0 a d)
  | .icmpShort b a k => .icmp .eq .s32 (sh3 b a k)
  | .leaShort b a d => .lea .x1 (sh3 b a d)
  | .movShort b d => .mov (sh3 b 0 d)
  | .faddShort b a d => .fadd .f32 (sh3 b a d)
  | .fsubShort b a d => .fsub .f32 (sh3 b a d)
  | .fmulShort b a d => .fmul .f32 (sh3 b a d)
  | .fmaShort b a d => .fma .f32 (sh4 b a d)
  | .fdivShort b a d => .fdiv .f32 (sh3 b a d)
  | .fsqrtShort a d => .fsqrt .f32 (sh3 0 a d)
  | .frcpShort a d => .frcp .f32 (sh3 0 a d)
  | .frsqShort a d => .frsq .f32 (sh3 0 a d)
  | .fminShort b a d => .fmin .f32 (sh3 b a d)
  | .fmaxShort b a d => .fmax .f32 (sh3 b a d)
  | .fabsShort a d => .fabs .f32 (sh3 0 a d)
  | .fnegShort a d => .fneg .f32 (sh3 0 a d)
  | .fcpsShort b a d => .fcps .f32 (sh3 b a d)
  | .fcmpShort b a k => .fcmp .eq .f32 (sh3 b a k)
  | .fclsShort a d => .fcls .f32 (sh3 0 a d)
  | .frndShort a d => .frnd .f32 (sh3 0 a d)
  | .fexpShort a d => .fexp false (sh3 0 a d)
  | .flogShort a d => .flog false (sh3 0 a d)
  | .fsinShort a d => .fsin false (sh3 0 a d)
  | .fcosShort a d => .fcos false (sh3 0 a d)
  | .ftanShort a d => .ftan (sh3 0 a d)
  | .ftanhShort a d => .ftanh (sh3 0 a d)
  | .fatanShort a d => .fatan (sh3 0 a d)
  | .shflShort b a d => .shfl .b32 (sh3 b a d)
  | .shflupShort i a d => .shflup .b32 (shI i a d)
  | .shfldnShort i a d => .shfldn .b32 (shI i a d)
  | .shflxShort i a d => .shflx .b32 (shI i a d)
  | .braShort i => .bra (shOff i)
  | .callShort i => .call (shOff i)
  | .retShort => .ret sh0
  | .loopShort l a e => .loop l (shLoop a e)
  | .barWvShort => .barWv sh0
  | .sleepShort a => .sleep (sh3 0 a 0)
  | .waitFullShort a => .waitFull (sh3 0 a 0)
  | .trapShort c => .trap (shI c 0 0)
  | .endShort => .endLane sh0
  | .msignShort g => .msign (shI g 0 0)
  | .yieldShort => .yieldNow sh0
  | .cmtWaitShort => .cmtWait sh0
  | .ldShort w a d => .ld .b4 (sh3 w a d)
  | .stShort w a d => .st .b4 (sh3 w a d)
  | .ldsShort a d => .lds .b4 (shCore a d)
  | .stsShort a d => .sts .b4 (shCore a d)
  | .fillShort a d => .fill .b4 (shCore a d)
  | .drainShort a d => .drain .b4 (shCore a d)
  | .seteShort a => .sete .b4 (sh3 0 a 0)
  | .pushShort a d => .push (sh3 0 a d)
  | .popShort a d => .pop (sh3 0 a d)
  | .rbwaitShort a d => .rbwait (sh3 0 a d)
  | .rbrdShort a d => .rbrd (sh3 0 a d)
  | .rbaddShort a d => .rbadd (sh3 0 a d)
  | .fenceShort => .fence .full shDevice
  | .prefShort w a => .pref (sh3 w a 0)
  | .flushShort w a => .flush (sh3 w a 0)
  | i => i

/-- The operand fields of an extended instruction. -/
def fieldsExt : Instr → Fields
  | .iadd _ _ x => x
  | .isub _ _ x => x
  | .imul _ _ x => x
  | .iaddImm _ _ x => x
  | .imad _ _ x => x
  | .idiv _ x => x
  | .irem _ x => x
  | .imin _ x => x
  | .imax _ x => x
  | .iabs _ _ x => x
  | .ineg _ _ x => x
  | .and _ x => x
  | .or _ x => x
  | .xor _ x => x
  | .not _ x => x
  | .shl _ x => x
  | .shr _ x => x
  | .sar _ x => x
  | .rot _ x => x
  | .popc _ x => x
  | .clz _ x => x
  | .brev _ x => x
  | .bfx _ _ x => x
  | .bfi _ x => x
  | .icmp _ _ x => x
  | .sel _ x => x
  | .lea _ x => x
  | .mov x => x
  | .movW x => x
  | .movLo x => x
  | .movHi x => x
  | .movFws x => x
  | .movTws x => x
  | .fadd _ x => x
  | .fsub _ x => x
  | .fmul _ x => x
  | .fma _ x => x
  | .fdiv _ x => x
  | .fsqrt _ x => x
  | .frcp _ x => x
  | .frsq _ x => x
  | .fmin _ x => x
  | .fmax _ x => x
  | .fabs _ x => x
  | .fneg _ x => x
  | .fcps _ x => x
  | .fcmp _ _ x => x
  | .fcls _ x => x
  | .frnd _ x => x
  | .cvtf _ _ x => x
  | .cvtfi _ _ x => x
  | .cvtif _ _ x => x
  | .cvtsc _ x => x
  | .fexp _ x => x
  | .flog _ x => x
  | .fsin _ x => x
  | .fcos _ x => x
  | .ftan x => x
  | .ftanh x => x
  | .fatan x => x
  | .fpack _ x => x
  | .shfl _ x => x
  | .shflup _ x => x
  | .shfldn _ x => x
  | .shflx _ x => x
  | .bcast _ x => x
  | .vote _ x => x
  | .kset _ x => x
  | .kop _ x => x
  | .kmov _ x => x
  | .kpopc x => x
  | .reduce _ _ x => x
  | .scan _ _ x => x
  | .bra x => x
  | .brc _ _ x => x
  | .call x => x
  | .callInd x => x
  | .ret x => x
  | .loop _ x => x
  | .loopI _ x => x
  | .barWv x => x
  | .barBlk x => x
  | .sleep x => x
  | .sleepFor x => x
  | .waitFull x => x
  | .waitEmpty x => x
  | .trap x => x
  | .endLane x => x
  | .msign x => x
  | .spawn _ x => x
  | .yieldNow x => x
  | .cmtWait x => x
  | .cmtPos x => x
  | .ld _ x => x
  | .st _ x => x
  | .lds _ x => x
  | .sts _ x => x
  | .fill _ x => x
  | .drain _ x => x
  | .sete _ x => x
  | .push x => x
  | .pop x => x
  | .rbwait x => x
  | .rbrd x => x
  | .rbadd x => x
  | .atom _ _ x => x
  | .atoms _ _ x => x
  | .cas _ x => x
  | .cass _ x => x
  | .fatom _ _ x => x
  | .fatoms _ _ x => x
  | .fence _ x => x
  | .take x => x
  | .takeTry x => x
  | .give x => x
  | .acinit x => x
  | .stock x => x
  | .bankreq x => x
  | .pref x => x
  | .ldw _ x => x
  | .stw _ x => x
  | .flush x => x
  | .mlatb _ x => x
  | .mma _ x => x
  | .mmas _ x => x
  | .mmai _ x => x
  | .mcbt x => x
  | .mzero x => x
  | .mrd x => x
  | .mst x => x
  | .mmv x => x
  | .mstat x => x
  | .mstatClr x => x
  | .mwait x => x
  | .mrel x => x
  | .band x => x
  | .ppopc x => x
  | .igath _ x => x
  | .cmpr _ x => x
  | .expd _ x => x
  | .topk _ _ x => x
  | .tcopy x => x
  | .tgath x => x
  | .tscat x => x
  | .fconv x => x
  | .sred x => x
  | .embag x => x
  | .draw x => x
  | .rpassTile x => x
  | .rpassImm x => x
  | .ordEnter x => x
  | .ordLeave x => x
  | .fli x => x
  | .flw x => x
  | .rayq x => x
  | .rayqApp x => x
  | .sysrd x => x
  | .syswr x => x
  | .sysopIcinv x => x
  | .sysopDcwb x => x
  | .sysopXlinv x => x
  | .sysopXlinvAll x => x
  | .eret x => x
  | _ => {}

/-- The operand fields of an instruction (R169). -/
def fieldsOf (i : Instr) : Fields := fieldsExt (ext i)

/-- Whether the row is an instruction of a program, and not a step of the part or an outside event. -/
def isLane : Instr → Bool
  | .issueCycle => false
  | .soloFetch => false
  | .destinationFill => false
  | .barrierTimeout => false
  | .sleepWake => false
  | .signingTimeout => false
  | .armingTimeout => false
  | .waveComplete => false
  | .launch => false
  | .cancel => false
  | .cancelReach => false
  | .launchStart => false
  | .wavePlace => false
  | .spawnDecision => false
  | .packWave => false
  | .packWaitExpire => false
  | .commit => false
  | .dPageAccess => false
  | .versionShareAbort => false
  | .heldWrite => false
  | .homeSliceStore => false
  | .remoteScratchpadAccess => false
  | .bankmodeWrite => false
  | .bankSwitchComplete => false
  | .tileCopyRow => false
  | .lateDelivery => false
  | .engineQueueTimeout => false
  | .fconvTile => false
  | .sredElement => false
  | .embagBag => false
  | .matrixEntry => false
  | .tableSlotFill => false
  | .matrixClaimTimeout => false
  | .tillTake => false
  | .tillGive => false
  | .tillAcinit => false
  | .tillStock => false
  | .stocktakeRecall => false
  | .allowanceWaitTimeout => false
  | .rowBarrierTimeout => false
  | .commitWaitTimeout => false
  | .drawAccept => false
  | .rasterWaveForm => false
  | .ordEntryTimeout => false
  | .ordSectionTimeout => false
  | .fliPerform => false
  | .flwPerform => false
  | .rayTraversal => false
  | .graphicsTimeout => false
  | .resolvePhase => false
  | .passClose => false
  | .trapHandlerEntry => false
  | .trapRingTimeout => false
  | .lateRecordTimeout => false
  | .lateStoreFault => false
  | .eventRecordTimeout => false
  | .timeSliceEnd => false
  | .forcedSave => false
  | .saveComplete => false
  | .waveRestore => false
  | .vistop => false
  | .waitCycleScan => false
  | .nocRefusal => false
  | .nocReplay => false
  | .translationWalk => false
  | .ownerRecall => false
  | .reclassifyComplete => false
  | .hostRdmaWrite => false
  | .hostRdmaRead => false
  | .hostAtomic => false
  | .doorbellCqtail => false
  | .doorbellTqhead => false
  | .doorbellEqhead => false
  | .cqbaseWrite => false
  | .tqbaseWrite => false
  | .eqbaseWrite => false
  | .partWrite => false
  | .vshareWrite => false
  | .fatalClear => false
  | .registerWrite => false
  | .peerInbound => false
  | .keepalive => false
  | .fabricPortDown => false
  | .peerLost => false
  | .peerHandshake => false
  | .ptpMessage => false
  | .pstreamWrite => false
  | .frameDeadline => false
  | .coldReset => false
  | .warmReset => false
  | .interfaceReset => false
  | .thermalTrip => false
  | .thermalThrottle => false
  | .powerLimit => false
  | .bootRun => false
  | .measextWrite => false
  | .managementRequest => false
  | .attestation => false
  | .histogramTick => false
  | .histogramSave => false
  | .scrub => false
  | .registerEccError => false
  | .sliceStateError => false
  | .illegalInstruction => false
  | .peerAcknowledgement => false
  | .keepaliveReceived => false
  | .fabricPortUp => false
  | .queuePairConnected => false
  | .brokenConnection => false
  | .powerLoss => false
  | .hostSend => false
  | _ => true

/-- Whether an instruction is one of the short forms. -/
def isShort : Instr → Bool
  | .iaddShort _ _ _ => true
  | .isubShort _ _ _ => true
  | .imulShort _ _ _ => true
  | .iaddImmShort _ _ _ => true
  | .imadShort _ _ _ => true
  | .idivShort _ _ _ => true
  | .iremShort _ _ _ => true
  | .iminShort _ _ _ => true
  | .imaxShort _ _ _ => true
  | .iabsShort _ _ => true
  | .inegShort _ _ => true
  | .andShort _ _ _ => true
  | .orShort _ _ _ => true
  | .xorShort _ _ _ => true
  | .notShort _ _ => true
  | .shlShort _ _ _ => true
  | .shrShort _ _ _ => true
  | .sarShort _ _ _ => true
  | .rotShort _ _ _ => true
  | .popcShort _ _ => true
  | .clzShort _ _ => true
  | .brevShort _ _ => true
  | .icmpShort _ _ _ => true
  | .leaShort _ _ _ => true
  | .movShort _ _ => true
  | .faddShort _ _ _ => true
  | .fsubShort _ _ _ => true
  | .fmulShort _ _ _ => true
  | .fmaShort _ _ _ => true
  | .fdivShort _ _ _ => true
  | .fsqrtShort _ _ => true
  | .frcpShort _ _ => true
  | .frsqShort _ _ => true
  | .fminShort _ _ _ => true
  | .fmaxShort _ _ _ => true
  | .fabsShort _ _ => true
  | .fnegShort _ _ => true
  | .fcpsShort _ _ _ => true
  | .fcmpShort _ _ _ => true
  | .fclsShort _ _ => true
  | .frndShort _ _ => true
  | .fexpShort _ _ => true
  | .flogShort _ _ => true
  | .fsinShort _ _ => true
  | .fcosShort _ _ => true
  | .ftanShort _ _ => true
  | .ftanhShort _ _ => true
  | .fatanShort _ _ => true
  | .shflShort _ _ _ => true
  | .shflupShort _ _ _ => true
  | .shfldnShort _ _ _ => true
  | .shflxShort _ _ _ => true
  | .braShort _ => true
  | .callShort _ => true
  | .retShort => true
  | .loopShort _ _ _ => true
  | .barWvShort => true
  | .sleepShort _ => true
  | .waitFullShort _ => true
  | .trapShort _ => true
  | .endShort => true
  | .msignShort _ => true
  | .yieldShort => true
  | .cmtWaitShort => true
  | .ldShort _ _ _ => true
  | .stShort _ _ _ => true
  | .ldsShort _ _ => true
  | .stsShort _ _ => true
  | .fillShort _ _ => true
  | .drainShort _ _ => true
  | .seteShort _ => true
  | .pushShort _ _ => true
  | .popShort _ _ => true
  | .rbwaitShort _ _ => true
  | .rbrdShort _ _ => true
  | .rbaddShort _ _ => true
  | .fenceShort => true
  | .prefShort _ _ => true
  | .flushShort _ _ => true
  | _ => false

end Sys2Proof.Machine
end

