-- ==== Sys2Proof/Config.lean ====
section
/-!
DEFINITION. What the manual leaves to the individual part, to timing or to the outside: fuse values (R2, R386, R455),
undefined values (R3), the choice among the steps that may come next, promise times (R323), and the two cryptographic
functions the manual names without defining (R455, R458). Every one is opaque: no value of it can be proved.
-/
namespace Sys2Proof.Config

/-- The fixed undefined value of each byte of both memory tiers after a cold reset (R3, R453). -/
opaque coldByte : Nat → Byte

/-- The n-th undefined value the part produces (R3); read with the state's counter. -/
opaque free : Nat → Nat

/-- Which of the steps that may come next comes next, where the manual gives no order; read with the state's counter. -/
opaque pick : Nat → Nat

/-- By how much a command's promise time lies above GT at posting, never negative (R323); read with the state's counter. -/
opaque promise : Nat → Nat

/-- SYS.IDENT.STEP (R386). -/
opaque stepping : BitVec 8

/-- SYS.MESHMAP.COL: the physical column removed from each row (R386). -/
opaque meshCol : BitVec 48

/-- What the fuses of a core's matrix array hold; SYS.MFUSE is made of it (R386). -/
opaque mfuse : Nat → BitVec 31

/-- The key hash in the fuses (R455). -/
opaque keyHash : List Byte

/-- The fused minimum security version (R455). -/
opaque minSvn : Nat

/-- SHAKE256 of a message, with the number of output bytes (R455, R458, R459). -/
opaque shake256 : List Byte → Nat → List Byte

/-- Whether a signature verifies under a public key over a digest, by ML-DSA-65 (R455). -/
opaque mldsaVerify : List Byte → List Byte → List Byte → Bool

/-- The fused secret of the part (R459). -/
opaque partSecret : List Byte

/-- The public key of an ML-DSA-65 key pair, by the seed that the pair is derived from (R459). -/
opaque mldsaPublic : List Byte → List Byte

/-- The signature over a digest by the private key of the pair that a seed gives, by ML-DSA-65 (R459). -/
opaque mldsaSign : List Byte → List Byte → List Byte

/-- The vendor's certificate of the public key, in module storage (R459). -/
opaque certificate : List Byte

/-- The two firmware image slots A and B of module storage (R455). -/
opaque imageSlot : Nat → List Byte

/-- Where the ROM loads the firmware image in the GDDR-7 tier, in units of 128 bytes (R456). -/
opaque imageBase : Nat

/-- The correctly rounded result of a function whose enclosure the model's precision does not decide (R102): the
index of the function, the operand's bits and the rounding mode give the pattern and whether it is inexact. -/
opaque hardCase : Nat → Nat → Nat → Nat × Bool

end Sys2Proof.Config
end

