-- ==== Sys2Proof/Machine/FMap.lean ====
section
/-!
DEFINITION. Sparse tables: a list of (key, value) pairs with rising keys. The scratchpad, the register files, the queues'
entries and memory itself are held so; an unlisted key has the default that the reader of the table names.
-/
namespace Sys2Proof.Machine

/-- A sparse table keyed by a number. -/
abbrev FMap (α : Type) := List (Nat × α)

/-- The value listed at a key. -/
def look {α : Type} : FMap α → Nat → Option α
  | [], _ => none
  | (a, v) :: t, k => if a = k then some v else look t k

/-- The value at a key, or a default. -/
def lookD {α : Type} (m : FMap α) (k : Nat) (d : α) : α := (look m k).getD d

/-- List a value at a key, replacing what is listed there. -/
def put {α : Type} : FMap α → Nat → α → FMap α
  | [], k, v => [(k, v)]
  | (a, w) :: t, k, v =>
    if k < a then (k, v) :: (a, w) :: t else if k = a then (k, v) :: t else (a, w) :: put t k v

/-- Remove a key. -/
def del {α : Type} : FMap α → Nat → FMap α
  | [], _ => []
  | (a, w) :: t, k => if a = k then del t k else (a, w) :: del t k

/-- Change the value at a key, if one is listed. -/
def modKey {α : Type} (m : FMap α) (k : Nat) (f : α → α) : FMap α :=
  match look m k with
  | some v => put m k (f v)
  | none => m

/-- Whether a key is listed. -/
def has {α : Type} (m : FMap α) (k : Nat) : Bool := (look m k).isSome

/-- The keys of a table, rising. -/
def keys {α : Type} (m : FMap α) : List Nat := m.map Prod.fst

/-- The values of a table, by rising key. -/
def vals {α : Type} (m : FMap α) : List α := m.map Prod.snd

/-- The canonical form: keys strictly rising. -/
def rising {α : Type} : FMap α → Bool
  | [] => true
  | [_] => true
  | (a, _) :: (b, w) :: t => decide (a < b) && rising ((b, w) :: t)

/-- The first element of a list that a test accepts, with its place. -/
def findAt {α : Type} (p : α → Bool) : List α → Nat → Option (Nat × α)
  | [], _ => none
  | a :: t, n => if p a then some (n, a) else findAt p t (n + 1)

/-- Change the element at a place of a list. -/
def modAt {α : Type} (f : α → α) : List α → Nat → List α
  | [], _ => []
  | a :: t, 0 => f a :: t
  | a :: t, n + 1 => a :: modAt f t n

/-- Repeat a function over the numbers 0 to n - 1, rising. -/
def foldN {σ : Type} : Nat → (σ → Nat → σ) → σ → σ
  | 0, _, s => s
  | n + 1, f, s => f (foldN n f s) n

/-- The bytes of a number, lowest first: the part is little-endian (R6). -/
def toBytes : Nat → Nat → List Byte
  | 0, _ => []
  | n + 1, x => BitVec.ofNat 8 x :: toBytes n (x / 256)

/-- The number that bytes hold, lowest first (R6). -/
def ofBytes : List Byte → Nat
  | [] => 0
  | b :: t => b.toNat + 256 * ofBytes t

end Sys2Proof.Machine
end

