-- ==== Sys2Proof/Machine/State.lean ====
section
/-!
DEFINITION. The state of the YB-8412 as plain data: everything the manual gives the part (R25), under the names the manual
uses, and a few fields of the model's own, each marked so. Sparse tables list only what differs from the reset value.
-/
namespace Sys2Proof.Machine

/-- Why a step can stop. -/
inductive Fault where
  /-- Raised by step when the module has lost its power and no cold reset has come; safe: nothing runs without power. -/
  | noPower
  deriving DecidableEq, Repr

/-- Why a step can be refused. -/
inductive Refusal where
  /-- Raised by exec for an instruction without a meaning, by its name in the opcode table; safe: nothing is claimed. -/
  | notModelled (mnemonic : String)
  deriving DecidableEq, Repr

/-- A register with a full/empty bit: a lane register, a wave register or a mask (R86). -/
inductive RegRef where
  | v (n : Nat)
  | w (n : Nat)
  | k (n : Nat)
  deriving DecidableEq, Repr

/-- A trap due on a lane: its kind code (R394), the four words of INFO (R392), the program counter of the record when it is
not the lane's own (R397), the engine command it is about (R326), 0 for none, and for a late one the time at which a record of it has waited too
long (R396), 0 for none (the last two the model's own). -/
structure Trap where
  kind : Nat
  i0 : DWord := 0
  i1 : DWord := 0
  i2 : DWord := 0
  i3 : DWord := 0
  pc0 : Option DWord := none
  src : Nat := 0
  due : Nat := 0
  deriving DecidableEq, Repr

/-- What a lane waits for (R241, R268, R395, R402). A time-out is the GT value at which it falls due, 0 for one that never
expires (R387). -/
inductive Wait where
  /-- The lane waits for nothing. -/
  | run
  /-- In BAR, at a barrier instance (R249). -/
  | barrier (bid : Nat)
  /-- In SLEEP, until GT reaches the target (R252). -/
  | sleep (target : Nat)
  /-- In WAIT.FULL (R253). -/
  | full (r : RegRef)
  /-- In WAIT.EMPTY (R253). -/
  | empty (r : RegRef)
  /-- In MSIGN on a sign register, with its time-out; whether its SIGNED bit is recorded (R257, R258). -/
  | sign (g due : Nat) (signed : Bool)
  /-- In SPAWN, until the request is decided (R261). -/
  | spawn (id : Nat)
  /-- In CMT.WAIT, with its time-out as an instant and in ticks (R264). -/
  | commit (due ticks : Nat)
  /-- Held until the access or message with this identity is decided (R268, R287, R442). -/
  | held (id : Nat)
  /-- Held in RBWAIT at a scratchpad word with a target, with its time-out (R276). -/
  | rowBar (word target addr due : Nat) (traps : Bool)
  /-- Held in a posting that waits at step 3, 6 or 9, with its time-out (R321, R322). -/
  | posting (due : Nat)
  /-- Held on a full matrix queue or in MREL; issues again when an entry completes (R295, R301). -/
  | matrix
  /-- Held for a free sign register, in the arming with this identity (R307). -/
  | arming (id : Nat)
  /-- Held in MWAIT, in the order of execution, for resources named as RES, with its time-out (R300). -/
  | claim (order res due : Nat)
  /-- Held in RPASS or DRAW, with its time-out (R346, R351). -/
  | graphics (due : Nat)
  /-- Held in BANKREQ until the switches of these banks of the cluster have ended, then a wave register is written (R292). -/
  | banks (cluster : Nat) (list : List Nat) (dst value : Nat)
  /-- In ORD.ENTER, with its time-out (R357, R359). -/
  | ordEnter (due : Nat)
  /-- In ORD.LEAVE (R357). -/
  | ordLeave
  /-- Held by a returned bank access or a seventeenth store instruction; issues again when room appears (R398, R415). -/
  | room
  /-- Held in SYSRD, SYSWR or SYSOP until earlier accesses are performed (R389, R390); issues again when some are. -/
  | sys
  /-- Held until a page leaves transit (R434); the instruction then issues again. -/
  | page (leaf : Nat)
  /-- Stopped until the trap record with this identity is written (R395). -/
  | record (id : Nat)
  /-- After ERET with DISC, until the issuer restarts (R391, R402). -/
  | restart
  /-- Stopped with its issuer, without a trap (R402 step 1). -/
  | stopped
  deriving DecidableEq, Repr

/-- One word of a loop buffer with its use (R75). -/
structure BufWord where
  word : Word
  age : Nat
  inUse : Bool := false
  deriving DecidableEq, Repr

/-- The pixel-ordered section of a lane (R353 to R360). -/
structure Ord where
  pixel : Word := 0
  seq : Nat := 0
  cover : Nat := 0
  inside : Bool := false
  left : Bool := false
  since : Nat := 0
  due : Nat := 0
  deriving DecidableEq, Repr

/-- A lane (R35, R78, R383, R388). Lane registers that are not listed hold zero; `ve` lists the empty ones with the
identity of the producer that will fill each, 0 for one that faulted (R88). `seen` lists the accesses ordered before its releases,
`rel` those before its release fences, each with the scope of the fence, `cand` those an acquire takes over, with the scope each needs (R148). `ilen` is the length in words of the instruction the lane waits in (the
model's own), `item` the issuer the lane belongs to, 0 for none, `owes` the place of a system-register instruction that the lane completes before
a save (R414). -/
structure Lane where
  present : Bool := true
  ended : Bool := false
  pc : DWord := 0
  v : FMap Word := []
  ve : FMap Nat := []
  ls : FMap DWord := []
  le : FMap DWord := []
  lc : FMap Word := []
  key : DWord := 0
  item : Nat := 0
  level : BitVec 2 := 0
  tpc : DWord := 0
  tsv : DWord := 0
  inh : Bool := false
  disc : Bool := false
  prv : BitVec 2 := 0
  ks0 : DWord := 0
  ks1 : DWord := 0
  wait : Wait := .run
  ilen : Nat := 1
  lastIssue : Nat := 0
  due : List Trap := []
  buf : FMap BufWord := []
  bufAge : Nat := 0
  diverged : Bool := false
  solo : Option (Nat × Nat) := none
  seen : List Nat := []
  rel : List (Nat × Nat) := []
  cand : List (Nat × Nat) := []
  ord : Option Ord := none
  blk : FMap Nat := []
  owes : Option DWord := none
  deriving DecidableEq, Repr

/-- What a wave is (R36, R353, R456). -/
inductive WaveKind where
  | boot | launched | spawned | fragment | resolve
  deriving DecidableEq, Repr

/-- A resident wave (R36, R42, R44). Wave registers and masks not listed hold zero and are full. Key 64 of `w` is the
supervisor w63 (R383). `wsCycle` collects the flags that landed in the current cycle (R112). -/
structure Wave where
  kind : WaveKind := .launched
  vi : Nat := 0
  core : Nat := 0
  slot : Nat := 0
  pos : Nat := 0
  width : Nat := 8
  regs : Nat := 16
  lid : Nat := 0
  widx : Nat := 0
  pass : Nat := 0
  prog : DWord := 0
  key : DWord := 0
  lanes : List Lane := []
  w : FMap DWord := []
  we : FMap Nat := []
  k : FMap DWord := []
  ke : FMap Nat := []
  ws : BitVec 7 := 0
  wsCycle : BitVec 7 := 0
  area : Nat := 0
  areaSize : Nat := 0
  issues : Nat := 0
  lastIssue : Nat := 0
  start : Nat := 0
  pending : Bool := false
  asked : Nat := 0
  yielding : Bool := false
  forced : Bool := false
  lastCan : Nat := 0
  bars : FMap Nat := []
  quads : Nat := 0
  deriving DecidableEq, Repr

/-- One decided issue of a cycle (R68, R73): the wave, the program counter, the lanes of the issue group, whether it is a
solo issue, WS at the start of the cycle (R112), and whether its SPAWN joins the request of the wave's other voted program
counter (R70). -/
structure Issue where
  wid : Nat
  pc : DWord
  lanes : List Nat
  solo : Bool := false
  ws0 : BitVec 7 := 0
  joins : Bool := false
  deriving DecidableEq, Repr

/-- A scratchpad word with its full/empty bit (R131). -/
structure SWord where
  val : Word := 0
  full : Bool := false
  last : Nat := 0
  deriving DecidableEq, Repr

/-- What an access in flight does. -/
inductive Act where
  | load (ms : MS)
  | store
  | atom (op : AtomOp) (ty : IntTy)
  | cas (ty : IntTy)
  | fatom (op : FAtomOp) (ft : FT)
  | fence (k : FenceKind)
  | flush
  | fill
  | sete
  | drain (ms : MS)
  | push
  | pop
  | rbrd
  | rbadd
  deriving DecidableEq, Repr

/-- Where an access in flight is made: a cacheable line, a D page, a peer, the host window, or a bank. -/
inductive Place where
  | line | dpage | peer (p : Nat) | host | bank
  deriving DecidableEq, Repr

/-- An access in flight (R142, R147, R268): one single-copy-atomic piece (R138). The pieces of one lane's access share `instr`
and `lane`, and `head` is the first one's identity, `off` a piece's place in the value. `done` tells that a read was performed,
`vis` is the step of R142 a store has reached, `stamp` orders stores that reached the same step, `before` lists the accesses
ordered before it by a release or a fence, each with the scope of that ordering (R148), `rset` those that come before it if it is a release
as it finds its scratchpad words (R150, R278), `torn` the bytes that overlap in mixed size (R139). A bank access has the key
of its first word in `pa`, its offset in the window in `off`, and `arrived` tells whether it waits at the bank; a peer or host
access has `arrived` set when its message was sent. `waits` tells that its lane is held, `team` lists the
lanes of a wave-level access, `pass` the render pass of a fragment or resolve wave, `parked` a bank access withdrawn by a save (R414), `probe` one that holds its lane until its bank
takes it (R415), `inOrd` one made inside a pixel-ordered section under the blocking policy. -/
structure Op where
  act : Act
  place : Place := .line
  vi : Nat := 0
  wid : Nat := 0
  slot : Nat := 0
  lane : Nat := 0
  core : Nat := 0
  lid : Nat := 0
  item : Nat := 0
  pc : DWord := 0
  key : DWord := 0
  instr : Nat := 0
  opc : Nat := 0
  head : Nat := 0
  addr : Nat := 0
  pa : Nat := 0
  off : Nat := 0
  size : Nat := 0
  total : Nat := 0
  data : Nat := 0
  cmp : Nat := 0
  flags : BitVec 7 := 0
  done : Bool := false
  dst : Option RegRef := none
  dstN : Nat := 0
  mode : Nat := 0
  scope : Nat := 0
  trapPol : Bool := false
  waits : Bool := false
  priv : Bool := false
  level : BitVec 2 := 0
  vis : Nat := 1
  stamp : Nat := 0
  before : List (Nat × Nat) := []
  rset : List (Nat × Nat) := []
  torn : List (Nat × Nat) := []
  team : List Nat := []
  inOrd : Bool := false
  arrived : Bool := false
  order : Nat := 0
  retired : Bool := false
  noPc : Bool := false
  pass : Option Nat := none
  parked : Bool := false
  probe : Bool := false
  deriving DecidableEq, Repr

/-- A result on its way to its destination (R85): the registers to fill, in the lanes given, the lanes that issued a wave-level
producer, and the flags that each lane raises (R112). -/
structure Fill where
  wid : Nat
  lanes : List (Nat × List (Nat × Word)) := []
  wave : List (Nat × DWord) := []
  team : List Nat := []
  flags : List (Nat × BitVec 7) := []
  deriving DecidableEq, Repr

/-- One access that what reads a release is ordered after (R148): the core and the wave of the release, the scope of its ordering, and the
access. -/
structure RelMark where
  core : Nat
  wid : Nat
  scope : Nat
  id : Nat
  deriving DecidableEq, Repr

/-- A barrier instance (R81, R82, R249). -/
structure Barrier where
  isWave : Bool
  wid : Nat := 0
  lid : Nat := 0
  level : Nat := 0
  bx : Nat := 0
  by_ : Nat := 0
  start : Nat := 0
  timeout : Nat := 0
  arrived : List (Nat × Nat) := []
  deriving DecidableEq, Repr

/-- A program descriptor's fields (R39). -/
structure Prog where
  addr : DWord := 0
  entry : DWord := 0
  sdepth : Nat := 0
  scratch : Nat := 0
  regs : Nat := 16
  width : Nat := 8
  deriving DecidableEq, Repr

/-- A command that is accepted and not complete (R406, R407), with the launch of a LAUNCH; a CANCEL's `target` is the identity of the launch
it waits for. `counts` holds the nodes of the completion tree (R49), `reached` the cores that a cancel has reached (R420). -/
structure Job where
  vi : Nat
  num : Nat
  isCancel : Bool := false
  target : Nat := 0
  tag : Nat := 0
  pri : Nat := 0
  supv : Bool := false
  deps : List Nat := []
  accepted : Nat := 0
  prog : Prog := {}
  args : DWord := 0
  keybase : Nat := 0
  intr : Nat := 0
  evt : Nat := 0
  sroom : Nat := 0
  det : Bool := false
  wpc : Nat := 1
  width : Nat := 1
  height : Nat := 1
  x0 : Nat := 0
  y0 : Nat := 0
  sctr : DWord := 0
  sctrPa : Nat := 0
  started : Bool := false
  startOrder : Nat := 0
  counts : FMap Nat := []
  failed : Nat := 0
  cancelAt : Option Nat := none
  reached : List Nat := []
  deriving DecidableEq, Repr

/-- Where the work of an issuer stands. -/
inductive Stage where
  | unplaced | queued | running (wid lane : Nat) | saved | retired
  deriving DecidableEq, Repr

/-- An issuer: a launched wave or a spawned item (R53, R159, R264), from its creation until it is complete. `bars` keeps the counts of
R251 of a launched wave that is not resident, `seen` what the releases of one that retired come after (R148, R250). -/
structure Issuer where
  vi : Nat
  lid : Nat
  core : Nat
  isItem : Bool := false
  widx : Nat := 0
  key : Nat := 0
  cls : Nat := 0
  ord : Nat := 0
  parent : Nat := 0
  depth : Nat := 0
  prog : Prog := {}
  arg : DWord := 0
  rlo : Nat := 0
  rhi : Nat := 0
  wlo : Nat := 0
  whi : Nat := 0
  home : Nat := 0
  enqueued : Nat := 0
  stage : Stage := .unplaced
  committed : Bool := false
  done : Bool := false
  killed : Bool := false
  trapped : List Nat := []
  restart : Bool := false
  records : Nat := 0
  alone : Bool := false
  bars : FMap Nat := []
  seen : List Nat := []
  deriving DecidableEq, Repr

/-- A wave formed and not yet placed (R59, R353). -/
structure Formed where
  kind : WaveKind
  core : Nat
  cluster : Nat := 0
  vi : Nat
  lid : Nat := 0
  pass : Nat := 0
  items : List Nat := []
  order : Nat := 0
  pri : Nat := 0
  lanes : List (Ord × List (Nat × Word)) := []
  wregs : List (Nat × DWord) := []
  key : DWord := 0
  prog : Prog := {}
  level : BitVec 2 := 0
  quads : Nat := 0
  deriving DecidableEq, Repr

/-- What one lane asks of a SPAWN (R259): `gone` when its issuer was stopped before the decision. -/
structure SpawnAsk where
  lane : Nat
  pc : DWord
  item : Nat
  arg : DWord
  key : DWord
  desc : DWord
  rlo : Nat := 0
  rlen : Nat := 0
  wlo : Nat := 0
  wlen : Nat := 0
  dst : Nat
  gone : Bool := false
  deriving DecidableEq, Repr

/-- A SPAWN that is being decided (R260), with the core's cycle in which it issued. -/
structure SpawnReq where
  wid : Nat
  core : Nat
  cycle : Nat
  asks : List SpawnAsk
  deriving DecidableEq, Repr

/-- A line's versions and committed readers (R135, R160): position of an issuer is found by its identity. -/
structure Version where
  line : Nat
  issuer : Nat
  bytes : FMap Byte
  deriving DecidableEq, Repr

/-- A waiting request at a till (R284, R285). -/
structure TillReq where
  id : Nat
  core : Nat
  n : Nat
  deriving DecidableEq, Repr

/-- A counter's state at its home slice (R282, R285, R286). `stock` is a stocktake in progress: the cores still to recall,
and `cause` the request it serves, 0 for the head of the queue. `examine` asks for another look at the queue, `marks` are what a TAKE or a
STOCK is ordered after by the GIVEs and ACINITs decided before it (R155). -/
structure Till where
  till : Nat := 0
  limit : Nat := 0
  stks : Nat := 0
  grants : FMap Nat := []
  queue : List TillReq := []
  byPart : Bool := false
  vi : Nat := 0
  stock : Option (List Nat) := none
  cause : Nat := 0
  examine : Bool := false
  marks : List RelMark := []
  deriving DecidableEq, Repr

/-- The kinds of request on its way to a till (R284, R287 to R289). -/
inductive TillAct where
  | take | tryTake | give | acinit | stock
  deriving DecidableEq, Repr

/-- A request to a till that is not yet decided: `instr` is the issue it comes from, `before` what a GIVE or an ACINIT is ordered after (R155), `gone` tells
that the lane of a STOCK waits for its value no more (R255). -/
structure TillMsg where
  act : TillAct
  line : Nat
  wid : Nat
  lane : Nat
  core : Nat
  vi : Nat
  item : Nat := 0
  n : Nat := 0
  lim : Nat := 0
  dst : Nat := 0
  va : DWord := 0
  dpage : Bool := false
  due : Nat := 0
  queued : Bool := false
  instr : Nat := 0
  before : List (Nat × Nat) := []
  gone : Bool := false
  deriving DecidableEq, Repr

/-- The command kinds of the engines (R327). -/
inductive EngKind where
  | tcopy | tgath | tscat | fconv | sred | embag
  deriving DecidableEq, Repr

/-- A run of destination bytes of one row, tile or element range of a command, as translated at posting (R321 step 7). -/
structure Seg where
  off : Nat
  pa : Nat
  n : Nat
  dpage : Bool := false
  deriving DecidableEq, Repr

/-- A posted engine command (R321 to R342). `blk` holds its block's eight-byte words, `idx` what was read at posting, `segs` the
global destinations of row j at place j, `row` the key of its row barrier, `before` the accesses it is ordered after (R152, R342),
`landed` the rows that landed and are not counted, `done` the rows counted, `at_` the accesses of one word that a row has had, `acc` the
words read for the row under way. An SRED that ends is in a phase above 0, with the cause and the address of its fault in `stopped` and the
flag's place in `flagAt`. `queued` is false while it waits at step 9, when `due` is its time-out and `group` its issue. -/
structure Cmd where
  kind : EngKind
  vi : Nat
  wid : Nat
  lane : Nat
  core : Nat
  item : Nat := 0
  level : BitVec 2 := 0
  slot : Nat := 0
  pc : DWord := 0
  key : DWord := 0
  physical : Bool := false
  slice : Nat := 0
  blkAddr : Nat := 0
  blk : List Nat := []
  idx : List Nat := []
  segs : List (List Seg) := []
  row : Option Nat := none
  before : List Nat := []
  queued : Bool := false
  due : Nat := 0
  group : Nat := 0
  order : Nat := 0
  promise : Nat := 0
  landed : List Nat := []
  done : Nat := 0
  phase : Nat := 0
  late : Bool := false
  flags : BitVec 7 := 0
  statusPa : Nat := 0
  retired : Bool := false
  at_ : FMap Nat := []
  acc : List Nat := []
  stopped : Option (Nat × Nat) := none
  flagAt : Option Seg := none
  ending : Bool := false
  deriving DecidableEq, Repr

/-- A lane held in an engine instruction before step 7 of R321. -/
structure Posting where
  wid : Nat
  lane : Nat
  kind : EngKind
  opc : Nat
  va : Nat
  trapPol : Bool
  group : Nat
  deriving DecidableEq, Repr

/-- What an issue of an engine instruction still owes its DST: lanes held, and the largest promise so far (R321). -/
structure Promise where
  wid : Nat
  dst : Option Nat
  team : List Nat
  left : List Nat
  best : Option Nat := none
  deriving DecidableEq, Repr

/-- A deferred report (R299): the program counter of the instruction that entered the entry, the cause and the words written, and the lane's
level, order key and issuer for its record (R392). -/
structure Report where
  pc : DWord := 0
  cause : Nat := 0
  words : Nat := 0
  level : BitVec 2 := 0
  key : DWord := 0
  item : Nat := 0
  deriving DecidableEq, Repr

/-- A matrix tile (R293, R294): its rows of cells, of which those not held are zero; `pend` entries in the queue write it. A cell of
kind F holds 32 bits, of kind I 48 bits, of kind D its half of a 64-bit value. -/
structure Tile where
  owner : Option Nat := none
  kind : Nat := 0
  pend : Nat := 0
  ovf : Bool := false
  report : Option Report := none
  cells : List (List Nat) := []
  deriving DecidableEq, Repr

/-- The B latch (R293, R302), column by column, with the format and the columns of the last MLATB entered since the claim (R306). -/
structure Latch where
  owner : Option Nat := none
  fmt : Option MF := none
  n : Nat := 0
  b : List (List Nat) := []
  scales : List Nat := []
  nextFmt : Option (MF × Nat) := none
  report : Option Report := none
  deriving DecidableEq, Repr

/-- What a matrix queue entry does (R302 to R311). -/
inductive MatAct where
  | latb (mf : MF)
  /-- Multiply: format of A, the first lane register of A when it is in registers, the address of the strip scales of MMAS. -/
  | mma (mf : MF) (areg scales : Option Nat)
  | mmai (mf : MF) (wrap ovt : Bool) (areg : Option Nat)
  | zero (kind : Nat)
  /-- MRD: lane, tile, column and kind of each cell read. -/
  | rd (cells : List (Nat × Nat × Nat × Nat)) (row0 dst : Nat)
  | st (kind row0 rows : Nat)
  /-- MMV with the tiles whose kind it changed. -/
  | mv (kind row0 rows : Nat) (wipe : List Nat)
  deriving DecidableEq, Repr

/-- An entry of a core's matrix queue (R295, R297, R305). `tile` is the tile it names, `writes` those it marks empty, `res` the resources
it names as RES, `before` the accesses its reads are ordered after (R298), `who` what a report of it says of its instruction, `cycle` and `slot` when it entered and for which slot. -/
structure MatEntry where
  act : MatAct
  id : Nat := 0
  wid : Nat
  vi : Nat := 0
  tile : Nat := 0
  writes : List Nat := []
  res : Nat := 0
  addr : Nat := 0
  stride : Nat := 0
  n : Nat := 0
  who : Report := {}
  before : List Nat := []
  cycle : Nat := 0
  slot : Nat := 0
  deriving DecidableEq, Repr

/-- A table load (R304): the next slot, the slot after the last, and the MLATB.CB entries it comes after. -/
structure TableLoad where
  id : Nat
  wid : Nat
  vi : Nat := 0
  addr : Nat
  next : Nat
  stop : Nat
  after : List Nat
  before : List Nat := []
  who : Report := {}
  deriving DecidableEq, Repr

/-- A sign register (R256) with the wave and the entry it arms; `held` marks a saved arming wave. -/
structure Sign where
  armed : Bool := false
  wid : Nat := 0
  slot : Nat := 0
  set : DWord := 0
  signed : DWord := 0
  entry : Option MatEntry := none
  held : Bool := false
  deriving DecidableEq, Repr

/-- An arming that waits for its sign register, with its reserved queue entry (R307). -/
structure Arming where
  wid : Nat
  g : Nat
  set : DWord
  entry : MatEntry
  due : Nat
  lanes : List Nat
  deriving DecidableEq, Repr

/-- The parts of a core outside its waves and its windows. `leaving` holds waves that are gone while their matrix claims are still
in use (R301), by the identity that owns the claims; `slotLast` the wave that wrote a table slot last (R424); `tokens` the core's copies of the interfaces' token holders (R263); `packed` tells that the packing unit has formed a wave in this cycle (R59). -/
structure Core where
  cycle : Nat := 0
  icache : FMap Word := []
  allow : FMap (Nat × Nat) := []
  tiles : FMap Tile := []
  latch : Latch := {}
  slots : FMap Nat := []
  slotLast : FMap Nat := []
  mq : List MatEntry := []
  loader : List TableLoad := []
  signs : FMap Sign := []
  armings : FMap Arming := []
  packed : Bool := false
  leaving : FMap Wave := []
  tokens : FMap Nat := []
  shadow : List (Nat × Nat × Nat) := []
  soloLast : FMap Nat := []
  counts : List (Nat × Nat) := []
  sels : List Nat := []
  tiles0 : FMap Tile := []
  latch0 : Latch := {}
  deriving DecidableEq, Repr

/-- An accepted DRAW with its primitives as read (R351), and how many of its waves each cluster's engine has formed (R353). -/
structure Draw where
  seq : Nat
  prims : List (List Nat)
  formed : FMap Nat := []
  deriving DecidableEq, Repr

/-- A fragment-list port of one cluster in one pass (R349): the node frames it took, the newest last, and the nodes allocated in that
one. -/
structure Port where
  taken : List Nat := []
  next : Nat := 0
  deriving DecidableEq, Repr

/-- A render pass (R345 to R350). Its lists lie in its store or its pool (R348); `out` holds its outstanding fragments by 64 x wave + lane
(R356), `formedTo` the resolve waves formed per cluster, `opener` the launch it was opened for, `stored` the words of its stores while
they are saved. -/
structure Pass where
  part : Nat
  vi : Nat
  gen : Nat
  imm : Bool
  pri : Nat := 0
  level : BitVec 2 := 0
  frag : Prog := {}
  resv : Prog := {}
  args : DWord := 0
  ctr : Nat := 0
  ctrVa : DWord := 0
  pool : DWord := 0
  flag : DWord := 0
  merge : Nat := 0
  budget : Nat := 1
  samples : Nat := 1
  w : Nat := 1
  h : Nat := 1
  tpages : Nat := 0
  tsoff : Nat := 0
  clusters : List Nat := []
  lastSeq : Option Nat := none
  lastDraw : Bool := false
  draws : List Draw := []
  out : List (Nat × Ord) := []
  ports : FMap Port := []
  pages : Nat := 0
  resolving : Bool := false
  formedTo : FMap Nat := []
  opener : Nat := 0
  stored : Option (FMap SWord) := none
  deriving DecidableEq, Repr

/-- Lanes held in RPASS or DRAW (R346, R351): the address of the descriptor or buffer, the register for the handle, or the DRAW's own
operands; `before` holds the accesses a DRAW's reads come after. -/
structure GfxAsk where
  wid : Nat
  lanes : List Nat
  draw : Bool
  imm : Bool := false
  va : Nat
  dst : Nat := 0
  handle : Nat := 0
  seq : Nat := 0
  n : Nat := 0
  last : Bool := false
  level : BitVec 2 := 0
  pass : Nat := 0
  due : Nat := 0
  before : List Nat := []
  deriving DecidableEq, Repr

/-- A list operation or ray on its way (R361, R364, R367). The operations of one issue share `instr`; `gone` when nobody waits for its
result; `waits` when its lane is held until it is decided, `inside` when the lane may merge (R361). -/
structure GfxReq where
  opc : Nat
  app : Bool := false
  rt : Bool := false
  wid : Nat
  lane : Nat
  core : Nat
  vi : Nat := 0
  pass : Nat := 0
  pixel : Word := 0
  depth : Word := 0
  payload : DWord := 0
  cursor : Word := 0
  dst : Nat := 0
  ray : List Word := []
  base : DWord := 0
  instr : Nat := 0
  pc : DWord := 0
  level : BitVec 2 := 0
  gone : Bool := false
  waits : Bool := false
  inside : Bool := true
  deriving DecidableEq, Repr

/-- A trap record that waits for room, or a lane-less one (R395, R396); `origin` is the wave whose lane a lane-less record is about. -/
structure TrapReq where
  vi : Nat
  wid : Nat := 0
  lanes : List Nat := []
  word0 : DWord := 0
  pc : DWord := 0
  key : DWord := 0
  info : Trap
  due : Nat := 0
  item : Nat := 0
  written : Bool := false
  slot : Nat := 0
  lid : Nat := 0
  lost : Nat := 0
  origin : Nat := 0
  deriving DecidableEq, Repr

/-- An event record that waits for room (R422, R423). -/
structure EventReq where
  vi : Nat
  word0 : DWord
  tagCmd : DWord
  gt : Nat
  detail : DWord
  intr : Bool
  due : Nat
  deriving DecidableEq, Repr

/-- A saved wave (R416 to R419): the wave, its image's slot, its area words, and its matrix state; `asked` since when its restore waits for
its claims (R313). -/
structure Saved where
  wave : Wave
  slot : Nat
  imagePa : Nat := 0
  order : Nat
  area : FMap SWord := []
  tiles : FMap Tile := []
  latch : Option Latch := none
  slots : FMap Nat := []
  wid : Nat
  asked : Option Nat := none
  deriving DecidableEq, Repr

/-- A cached translation (R437): the leaf's value, the page size as a power of two, and the leaf's physical address. -/
structure TlbEntry where
  vi : Nat
  core : Nat
  page : Nat
  bits : Nat
  leaf : DWord
  leafPa : Nat
  used : Nat := 0
  deriving DecidableEq, Repr

/-- A pointer entry of levels 1 to 4 in a core's walk cache (R437): the virtual page it covers, by its lowest bit, and the table it names. -/
structure PtrEntry where
  vi : Nat
  core : Nat
  lo : Nat
  page : Nat
  table : Nat
  deriving DecidableEq, Repr

/-- A store that changed a valid leaf (R432): the leaf, its value before, and whether the leaf became valid with another value; before that
the mark only tells that step 1 of the rule was taken. `cleared` holds the XLINVs performed since, each of an interface's page, by an
address in it, or of all its pages. The model's own. -/
structure LeafMark where
  leafPa : Nat
  val : DWord
  stale : Bool := false
  cleared : List (Nat × Option Nat) := []
  deriving DecidableEq, Repr

/-- A page in transit (R434), by its leaf's address: the owner, the frame, the page as its interface names it, how far the reclassification is,
and GT when the recall reached the owner. -/
structure Transit where
  vi : Nat
  owner : Nat
  pfn : Nat
  bits : Nat
  page : Nat := 0
  recalled : Bool := false
  since : Nat := 0
  deriving DecidableEq, Repr

/-- The replay window of one sender, destination and message class after a refusal (R426): the messages it replays, the refused one first, the
refusals in a row, the cycle at which the back-off ends, and whether the replay has arrived. -/
structure Window where
  msgs : List Nat := []
  refused : Nat := 0
  wait : Nat := 0
  replayed : Bool := false
  deriving DecidableEq, Repr

/-- A presentation stream's progress (R450 to R452): the next frame, the frame last shown, the eight words of its descriptor as read
when the stream was started, IMAGE and SPARE of the frame last shown as its slot held them, and the next RTP sequence number. -/
structure Stream where
  frame : Nat := 0
  last : Option Nat := none
  desc : List Nat := []
  image : Nat := 0
  spare : Nat := 0
  seq : Nat := 0
  deriving DecidableEq, Repr

/-- The holder of a partition (R412). -/
structure Holder where
  vi : Nat
  stop : Nat
  ending : Bool := false
  asked : Nat := 0
  deriving DecidableEq, Repr

/-- Where boot stands (R456). -/
inductive BootPhase where
  | rom | firmware | service | halted
  deriving DecidableEq, Repr

/-- A message the part sends outside (R443, R445, R447, R452, R459): the kind of port and the port, and for a host window its queue pair and
key. Kinds of port: 0 a host port, 1 Tandem or a stream on a fabric port, 2 management, 3 RoCE on a fabric port. `rtp` is the head of a
stream's packet (R450, R451): IPv4 destination, UDP port, payload type, SSRC, sequence number, timestamp, marker, and SAMP, DEPTH and
COLR. -/
structure Msg where
  port : Nat
  dest : Nat
  id : Nat := 0
  kind : Nat
  addr : Nat := 0
  data : List Byte := []
  cage : Nat := 0
  qpn : Nat := 0
  rkey : Nat := 0
  rtp : List Nat := []
  deriving DecidableEq, Repr

/-- A request of the host or a peer, or a write of the part itself, held at its home slice (R153, R166, R436): where it goes, what it does,
the issuers it waits for, and the kind of port, the sender and the port it is answered to. The part's own has port kind 2 and no answer. -/
structure Held where
  pa : Nat
  req : PeerReq
  waits : List Nat := []
  port : Nat := 0
  dest : Nat := 0
  cage : Nat := 0
  deriving DecidableEq, Repr

/-- The state of the part. -/
structure State where
  /-- GT, the global time counter (R31). -/
  gt : Nat := 0
  /-- Whether the current GT tick is being closed: what falls due in it is raised before GT advances. The model's own. -/
  closing : Bool := false
  /-- The counter of free values and free choices. The model's own. -/
  ctr : Nat := 0
  /-- The next fresh identity. The model's own. -/
  nid : Nat := 1
  /-- The issue being executed. The model's own (R68). -/
  cur : Option Issue := none
  /-- The issues of the current cycle still to execute (R69, R73). The model's own. -/
  issues : List Issue := []
  /-- What the current event is about. The model's own. -/
  occ : Occ := {}
  /-- Outside events not yet taken, each with what it is about. The model's own. -/
  inputs : List (Instr × Occ) := []
  /-- Messages sent outside, oldest first. The model's own. -/
  out : List Msg := []
  /-- Both memory tiers by physical address (R119); a byte not listed has not been stored to since the cold reset (R453). -/
  mem : List Host.Cell := []
  /-- Poisoned lines with the bytes stored since (R462). -/
  poison : FMap (List Nat) := []
  /-- System registers by 256 x NUM + INDEX that differ from their reset value (R385). -/
  sys : FMap DWord := []
  /-- Words of SYS.MEASEXT received since the last extend (R458). -/
  measExt : FMap DWord := []
  /-- The copy of the lifetime histograms in module storage (R463). -/
  histSaved : FMap Nat := []
  /-- The lifetime histograms' bins, by 16h + b (R463). -/
  hist : FMap Nat := []
  /-- Corrected errors of the current hour, and seconds counted (R463). -/
  corrected : Nat := 0
  seconds : Nat := 0
  /-- Seconds of GT that are counted, and periods of 10 minutes of GT whose histograms are in module storage (R463). -/
  second : Nat := 0
  tenMinutes : Nat := 0
  /-- Rows whose clock is being lowered for heat (R464). -/
  hot : List Nat := []
  /-- Records of kind 0x34 that were counted and dropped (R462). -/
  unrecorded : Nat := 0
  /-- Consecutive offsets within 50 ns (R449). -/
  ptpRun : Nat := 0
  /-- Presentation streams (R450). -/
  streams : FMap Stream := []
  /-- Fabric ports that are down (R447). -/
  fabricDown : List Nat := []
  /-- GT of the last message each fabric port sent, for its keepalives (R447). -/
  portSent : FMap Nat := []
  /-- Arithmetic clocks of rows below 2.7 GHz, in MHz (R34, R464). -/
  clocks : FMap Nat := []
  /-- GT of the last flit of each peer (R448). -/
  peerHeard : FMap Nat := []
  /-- The port that each peer line's unacknowledged messages went to (R447). -/
  lineport : FMap (Nat × Nat) := []
  /-- Replay windows of the on-die network (R426). -/
  noc : FMap Window := []
  /-- Boot (R456). -/
  boot : BootPhase := .rom
  /-- The identity key pair by its seed, which the ROM derives after each cold or warm reset (R459). -/
  identity : List Byte := []
  /-- Whether the module has power (R453, R463). -/
  power : Bool := true
  /-- Cores (R28) that differ from an empty core. -/
  cores : FMap Core := []
  /-- Resident waves (R28). -/
  waves : FMap Wave := []
  /-- Scratchpad words by core and word (R117, R131). -/
  spad : FMap SWord := []
  /-- FIFO queues by bank of the part, head first, each word with the tag of what its push released, and the last changer (R130, R151). -/
  fifo : FMap (List (Word × Nat) × Nat) := []
  /-- Pending bank switches: the target mode by bank of the part (R128). -/
  switches : FMap Nat := []
  /-- Accesses in flight (R142). -/
  ops : FMap Op := []
  /-- What a reader of a scratchpad word is ordered after, by the word's key, or by the tag of a word in a FIFO (R150, R151). -/
  relAt : FMap (List RelMark) := []
  /-- Results on their way (R85). -/
  fills : FMap Fill := []
  /-- Barrier instances (R81). -/
  barriers : FMap Barrier := []
  /-- Commands accepted and not complete (R406). -/
  jobs : FMap Job := []
  /-- Queues that stopped at an unreadable entry (R406). -/
  cqHeld : List Nat := []
  /-- Issuers (R159). -/
  issuers : FMap Issuer := []
  /-- Waves formed and not placed (R59, R353). -/
  formed : FMap Formed := []
  /-- SPAWN requests (R260). -/
  spawns : FMap SpawnReq := []
  /-- Versions of D-page lines (R135). -/
  versions : List Version := []
  /-- Uncommitted readers of D-page lines, as (line, issuer) (R160). -/
  readers : List (Nat × Nat) := []
  /-- Requests of the host or a peer held at a line (R153, R166). -/
  held : FMap Held := []
  /-- Tills by line (R282). -/
  tills : FMap Till := []
  /-- Requests on their way to tills (R284). -/
  tillMsgs : FMap TillMsg := []
  /-- Engine commands (R322). -/
  cmds : FMap Cmd := []
  /-- Lanes held in postings, and what their issues owe (R321). -/
  postings : FMap Posting := []
  promises : FMap Promise := []
  /-- Render passes by 16 x partition + slot, and their counts of opens (R346). -/
  passes : FMap Pass := []
  opens : FMap Nat := []
  /-- Lanes held in RPASS and DRAW, in the order they came (R346, R351). -/
  gfxAsks : FMap GfxAsk := []
  /-- List operations and rays on their way (R361). -/
  gfx : FMap GfxReq := []
  /-- Trap records waiting (R395, R396). -/
  trapReqs : FMap TrapReq := []
  /-- Event records waiting (R422). -/
  eventReqs : FMap EventReq := []
  /-- Holders of the partitions (R412). -/
  holders : FMap Holder := []
  /-- Saved waves (R416). -/
  saved : FMap Saved := []
  /-- Image slots of interfaces that hold images of killed waves: an interface reset frees them (R417). -/
  dropped : List (Nat × Nat) := []
  /-- Cached translations (R437). -/
  tlb : List TlbEntry := []
  /-- The cores' walk caches (R437). -/
  ptrs : List PtrEntry := []
  /-- Leaves that stores have changed while they were valid (R432). -/
  leaves : List LeafMark := []
  /-- Pages in transit by leaf address (R434). -/
  transit : FMap Transit := []
  /-- What an access of the part itself waits for: a leaf whose page is in transit (R434), or a byte of a line that an engine command owns
  (R436). The model's own. -/
  stall : Option Nat := none
  /-- Wait cycles already reported, as sets of waves (R425). -/
  reported : List (List Nat) := []
  /-- GT of the next examination of each partition (R425). -/
  scanAt : FMap Nat := []
  deriving DecidableEq, Repr

/-- The boot wave at the start of a cold reset (R44, R456, R457). -/
def bootWave : Wave :=
  { kind := .boot, vi := 64, core := 0, slot := 0, pos := 0, width := 8, regs := 32,
    lanes := [{ level := 2 }, { level := 2, v := [(0, 1)] }, { level := 2, v := [(0, 2)] }, { level := 2, v := [(0, 3)] },
              { level := 2, v := [(0, 4)] }, { level := 2, v := [(0, 5)] }, { level := 2, v := [(0, 6)] },
              { level := 2, v := [(0, 7)] }] }

/-- The number and instance key of a system register (R385). -/
def sysKey (num index : Nat) : Nat := num * 256 + index

/-- The part right after a cold reset (R453, R456 step 1): the boot wave alone, BOOTSTAT.COLD set, nothing else listed.
DESIGN CHOICE (log entry 146): "After reset" of BOOTSTAT.COLD (R456) and PWRSTAT.TRIP (R464) is 0, and their meaning says 1 after a cold reset and a
thermal trip; the model holds 1 from that reset on. -/
def State.reset : State :=
  { sys := [(sysKey 0x0400 0xFF, 1)], waves := [(0, bootWave)] }

end Sys2Proof.Machine
end

