-- ==== Sys2Proof/Machine/Desc.lean ====
section
/-!
DEFINITION. What each instruction does with its fields: the operand class of every field (R174), the literal slot (R173),
which word-1 fields and which bits of word 2 it uses (R171, R172), its shared unit (R71), and whether it is lane-local (R72),
wave-level (R202) or a long-latency producer (R85). The checks of R190 and the readiness of R67 are read from it.
-/
namespace Sys2Proof.Machine

/-- The class of an operand field (R174): `v a n` names n lane registers from a multiple of a. -/
inductive Opd where
  | zero
  | v (align count : Nat)
  | w | k | kd | t | lvl
  deriving DecidableEq, Repr

/-- The literal slot of an opcode (R173). -/
inductive LitSlot where
  | no | sb | imm
  deriving DecidableEq, Repr

/-- Use of SCOPE (R171, R267). -/
inductive ScopeUse where
  | no | withMode | always
  deriving DecidableEq, Repr

/-- The shared units (R71). -/
inductive SharedUnit where
  | none | mem | matrix | fu
  deriving DecidableEq, Repr

/-- The description of one instruction. `w2` is the mask of the defined bits of word 2,
`cDst` tells that SC names a destination (R315, R319). -/
structure Desc where
  opc : Nat
  sub : Nat := 0
  dst : Opd := .zero
  dstRead : Bool := false
  dstWrite : Bool := true
  a : Opd := .zero
  b : Opd := .zero
  c : Opd := .zero
  lit : LitSlot := .no
  rnd : Bool := false
  hint : Bool := false
  scope : ScopeUse := .no
  modes : List Nat := [0]
  w2 : BitVec 32 := 0
  epbMem : Bool := false
  cDst : Bool := false
  unit : SharedUnit := .none
  laneLocal : Bool := false
  waveLevel : Bool := false
  long : Bool := false
  deriving DecidableEq, Repr

/-- Registers of an integer type (R96). -/
def tyRegs : IntTy → Nat
  | .s64 => 2 | .z64 => 2 | .s32 => 1 | .z32 => 1 | .s16 => 1 | .z16 => 1 | .s8 => 1 | .z8 => 1

/-- Registers of a width. -/
def wdRegs : Wd → Nat
  | .b32 => 1 | .b64 => 2

/-- Registers of a float type (R96). -/
def ftRegs : FT → Nat
  | .f64 => 2 | .f32 => 1 | .f16 => 1 | .bf16 => 1

/-- Registers of a conversion format (R96). -/
def cfRegs : CF → Nat
  | .f64 => 2 | .f32 => 1 | .f16 => 1 | .bf16 => 1 | .e4m3 => 1 | .e5m2 => 1

/-- Registers of a memory size (R269). -/
def msRegs : MS → Nat
  | .b8 => 2 | .b16 => 4 | .b4 => 1 | .s1 => 1 | .b1 => 1 | .s2 => 1 | .b2 => 1

/-- Bytes of a memory size (R269). -/
def msBytes : MS → Nat
  | .b4 => 4 | .s1 => 1 | .b1 => 1 | .s2 => 2 | .b2 => 2 | .b8 => 8 | .b16 => 16

/-- Code of an integer type (R182). -/
def tyCode : IntTy → Nat
  | .s32 => 0 | .z32 => 1 | .s64 => 2 | .z64 => 3 | .s16 => 4 | .z16 => 5 | .s8 => 6 | .z8 => 7

/-- Code of a width (R182). -/
def wdCode : Wd → Nat
  | .b32 => 0 | .b64 => 1

/-- Code of a float type (R182). -/
def ftCode : FT → Nat
  | .f32 => 0 | .f64 => 1 | .f16 => 2 | .bf16 => 3

/-- Code of a conversion format (R182). -/
def cfCode : CF → Nat
  | .f32 => 0 | .f64 => 1 | .f16 => 2 | .bf16 => 3 | .e4m3 => 4 | .e5m2 => 5

/-- Code of a memory size (R182). -/
def msCode : MS → Nat
  | .b4 => 0 | .s1 => 1 | .b1 => 2 | .s2 => 3 | .b2 => 4 | .b8 => 5 | .b16 => 6

/-- Code of a matrix format (R182). -/
def mfCode : MF → Nat
  | .f32 => 0 | .f64 => 1 | .f16 => 2 | .bf16 => 3 | .e4m3 => 4 | .e5m2 => 5 | .s8 => 6 | .z8 => 7 | .cb => 8

/-- Code of a relation (R182). -/
def relCode : Rel → Nat
  | .eq => 0 | .ne => 1 | .lt => 2 | .le => 3 | .gt => 4 | .ge => 5

/-- Code of an add variant (R183). -/
def addVarCode : AddVar → Nat
  | .wrap => 0 | .sat => 1

/-- Code of a multiply variant (R183). -/
def mulVarCode : MulVar → Nat
  | .wrap => 0 | .sat => 1 | .hi => 2

/-- Code of a LEA scale (R214). -/
def leaCode : LeaScale → Nat
  | .x1 => 0 | .x2 => 1 | .x4 => 2 | .x8 => 3 | .x16 => 4

/-- Code of a vote (R232). -/
def voteCode : VoteOp → Nat
  | .any => 0 | .all => 1 | .ballot => 2

/-- Code of a mask operation (R234). -/
def kopCode : KopOp → Nat
  | .and => 0 | .or => 1 | .xor => 2 | .andn => 3 | .not => 4

/-- Code of a reduction (R236). -/
def redCode : RedOp → Nat
  | .add => 0 | .min => 1 | .max => 2 | .and => 3 | .or => 4 | .xor => 5 | .fmin => 6 | .fmax => 7

/-- Code of a scan (R237). -/
def scanCode : ScanOp → Nat
  | .add => 0 | .min => 1 | .max => 2

/-- Code of an atomic (R277). -/
def atomCode : AtomOp → Nat
  | .add => 0 | .min => 1 | .max => 2 | .and => 3 | .or => 4 | .xor => 5 | .xchg => 6

/-- Code of a float atomic (R279). -/
def fatomCode : FAtomOp → Nat
  | .add => 0 | .min => 1 | .max => 2

/-- Code of a fence (R281). -/
def fenceCode : FenceKind → Nat
  | .full => 0 | .acq => 1 | .rel => 2

/-- Code of a TOPK format (R319). -/
def topCode : TopFmt → Nat
  | .f32 => 0 | .bf16 => 3

/-- Code of a flag-like modifier. -/
def bCode (b : Bool) : Nat := if b then 1 else 0

/-- Registers that a REDUCE value occupies: FMIN and FMAX read their type code as FT (R236). -/
def redRegs (op : RedOp) (ty : IntTy) : Nat :=
  match op with
  | .fmin | .fmax => if tyCode ty = 1 then 2 else 1
  | .add | .min | .max | .and | .or | .xor => tyRegs ty

/-- All bits of word 2: IMM32 (R172). -/
def immMask : BitVec 32 := 0xFFFFFFFF

/-- A lane-register class of n registers, aligned to n (R174). -/
def vn (n : Nat) : Opd := .v n n

/-- The operand of WAIT by OPK (R253). -/
def opkOpd (x : Fields) : Opd :=
  if x.w2 = 0 then .v 1 1 else if x.w2 = 1 then .w else .k

/-- The description of an extended instruction (R183 to R189, and the entry of each). -/
def descExt : Instr → Desc
  | .iadd v ty _ => { opc := 0x01, sub := 8 * addVarCode v + tyCode ty, dst := vn (tyRegs ty), a := vn (tyRegs ty), b := vn (tyRegs ty), laneLocal := true }
  | .isub v ty _ => { opc := 0x02, sub := 8 * addVarCode v + tyCode ty, dst := vn (tyRegs ty), a := vn (tyRegs ty), b := vn (tyRegs ty), laneLocal := true }
  | .imul v ty _ => { opc := 0x03, sub := 8 * mulVarCode v + tyCode ty, dst := vn (tyRegs ty), a := vn (tyRegs ty), b := vn (tyRegs ty), laneLocal := true }
  | .iaddImm v ty _ => { opc := 0x04, sub := 8 * addVarCode v + tyCode ty, dst := vn (tyRegs ty), a := vn (tyRegs ty), lit := .imm, w2 := immMask, laneLocal := true }
  | .imad v ty _ => { opc := 0x05, sub := 8 * addVarCode v + tyCode ty, dst := vn (tyRegs ty), a := vn (tyRegs ty), b := vn (tyRegs ty), c := vn (tyRegs ty), laneLocal := true }
  | .idiv ty _ => { opc := 0x06, sub := tyCode ty, dst := vn (tyRegs ty), a := vn (tyRegs ty), b := vn (tyRegs ty), laneLocal := true }
  | .irem ty _ => { opc := 0x07, sub := tyCode ty, dst := vn (tyRegs ty), a := vn (tyRegs ty), b := vn (tyRegs ty), laneLocal := true }
  | .imin ty _ => { opc := 0x08, sub := tyCode ty, dst := vn (tyRegs ty), a := vn (tyRegs ty), b := vn (tyRegs ty), laneLocal := true }
  | .imax ty _ => { opc := 0x09, sub := tyCode ty, dst := vn (tyRegs ty), a := vn (tyRegs ty), b := vn (tyRegs ty), laneLocal := true }
  | .iabs v ty _ => { opc := 0x0A, sub := 8 * addVarCode v + tyCode ty, dst := vn (tyRegs ty), a := vn (tyRegs ty), laneLocal := true }
  | .ineg v ty _ => { opc := 0x0B, sub := 8 * addVarCode v + tyCode ty, dst := vn (tyRegs ty), a := vn (tyRegs ty), laneLocal := true }
  | .and wd _ => { opc := 0x0C, sub := wdCode wd, dst := vn (wdRegs wd), a := vn (wdRegs wd), b := vn (wdRegs wd), lit := .sb, laneLocal := true }
  | .or wd _ => { opc := 0x0D, sub := wdCode wd, dst := vn (wdRegs wd), a := vn (wdRegs wd), b := vn (wdRegs wd), lit := .sb, laneLocal := true }
  | .xor wd _ => { opc := 0x0E, sub := wdCode wd, dst := vn (wdRegs wd), a := vn (wdRegs wd), b := vn (wdRegs wd), lit := .sb, laneLocal := true }
  | .not wd _ => { opc := 0x0F, sub := wdCode wd, dst := vn (wdRegs wd), a := vn (wdRegs wd), laneLocal := true }
  | .shl wd _ => { opc := 0x10, sub := wdCode wd, dst := vn (wdRegs wd), a := vn (wdRegs wd), b := vn 1, lit := .sb, laneLocal := true }
  | .shr wd _ => { opc := 0x11, sub := wdCode wd, dst := vn (wdRegs wd), a := vn (wdRegs wd), b := vn 1, lit := .sb, laneLocal := true }
  | .sar wd _ => { opc := 0x12, sub := wdCode wd, dst := vn (wdRegs wd), a := vn (wdRegs wd), b := vn 1, lit := .sb, laneLocal := true }
  | .rot wd _ => { opc := 0x13, sub := wdCode wd, dst := vn (wdRegs wd), a := vn (wdRegs wd), b := vn 1, lit := .sb, laneLocal := true }
  | .popc wd _ => { opc := 0x14, sub := wdCode wd, dst := vn 1, a := vn (wdRegs wd), laneLocal := true }
  | .clz wd _ => { opc := 0x15, sub := wdCode wd, dst := vn 1, a := vn (wdRegs wd), laneLocal := true }
  | .brev wd _ => { opc := 0x16, sub := wdCode wd, dst := vn (wdRegs wd), a := vn (wdRegs wd), laneLocal := true }
  | .bfx sx wd _ => { opc := 0x17, sub := 8 * bCode sx + wdCode wd, dst := vn (wdRegs wd), a := vn (wdRegs wd), w2 := 0x3F3F, laneLocal := true }
  | .bfi wd _ => { opc := 0x18, sub := wdCode wd, dst := vn (wdRegs wd), a := vn (wdRegs wd), b := vn (wdRegs wd), w2 := 0x3F3F, laneLocal := true }
  | .icmp r ty _ => { opc := 0x19, sub := 8 * relCode r + tyCode ty, dst := .kd, a := vn (tyRegs ty), b := vn (tyRegs ty), lit := .sb }
  | .sel wd _ => { opc := 0x1A, sub := wdCode wd, dst := vn (wdRegs wd), a := vn (wdRegs wd), b := vn (wdRegs wd), c := .k, lit := .sb, laneLocal := true }
  | .lea xs _ => { opc := 0x1B, sub := leaCode xs, dst := vn 2, a := vn 2, b := vn 1, laneLocal := true }
  | .mov _ => { opc := 0x1C, sub := 0, dst := vn 1, b := vn 1, lit := .sb, laneLocal := true }
  | .movW _ => { opc := 0x1C, sub := 1, dst := .w, b := .w, lit := .sb, waveLevel := true }
  | .movLo _ => { opc := 0x1C, sub := 2, dst := vn 1, b := .w, lit := .sb, laneLocal := true }
  | .movHi _ => { opc := 0x1C, sub := 3, dst := vn 1, b := .w, lit := .sb, laneLocal := true }
  | .movFws _ => { opc := 0x1C, sub := 4, dst := .w, waveLevel := true }
  | .movTws _ => { opc := 0x1C, sub := 5, b := .w, lit := .sb, waveLevel := true }
  | .fadd ft _ => { opc := 0x20, sub := ftCode ft, dst := vn (ftRegs ft), a := vn (ftRegs ft), b := vn (ftRegs ft), lit := .sb, rnd := true, laneLocal := true }
  | .fsub ft _ => { opc := 0x21, sub := ftCode ft, dst := vn (ftRegs ft), a := vn (ftRegs ft), b := vn (ftRegs ft), lit := .sb, rnd := true, laneLocal := true }
  | .fmul ft _ => { opc := 0x22, sub := ftCode ft, dst := vn (ftRegs ft), a := vn (ftRegs ft), b := vn (ftRegs ft), lit := .sb, rnd := true, laneLocal := true }
  | .fma ft _ => { opc := 0x23, sub := ftCode ft, dst := vn (ftRegs ft), a := vn (ftRegs ft), b := vn (ftRegs ft), c := vn (ftRegs ft), lit := .sb, rnd := true, laneLocal := true }
  | .fdiv ft _ => { opc := 0x24, sub := ftCode ft, dst := vn (ftRegs ft), a := vn (ftRegs ft), b := vn (ftRegs ft), rnd := true, unit := .fu, long := true }
  | .fsqrt ft _ => { opc := 0x25, sub := ftCode ft, dst := vn (ftRegs ft), a := vn (ftRegs ft), rnd := true, unit := .fu, long := true }
  | .frcp ft _ => { opc := 0x26, sub := ftCode ft, dst := vn (ftRegs ft), a := vn (ftRegs ft), rnd := true, unit := .fu, long := true }
  | .frsq ft _ => { opc := 0x27, sub := ftCode ft, dst := vn (ftRegs ft), a := vn (ftRegs ft), rnd := true, unit := .fu, long := true }
  | .fmin ft _ => { opc := 0x28, sub := ftCode ft, dst := vn (ftRegs ft), a := vn (ftRegs ft), b := vn (ftRegs ft), lit := .sb, laneLocal := true }
  | .fmax ft _ => { opc := 0x29, sub := ftCode ft, dst := vn (ftRegs ft), a := vn (ftRegs ft), b := vn (ftRegs ft), lit := .sb, laneLocal := true }
  | .fabs ft _ => { opc := 0x2A, sub := ftCode ft, dst := vn (ftRegs ft), a := vn (ftRegs ft), laneLocal := true }
  | .fneg ft _ => { opc := 0x2B, sub := ftCode ft, dst := vn (ftRegs ft), a := vn (ftRegs ft), laneLocal := true }
  | .fcps ft _ => { opc := 0x2C, sub := ftCode ft, dst := vn (ftRegs ft), a := vn (ftRegs ft), b := vn (ftRegs ft), laneLocal := true }
  | .fcmp r ft _ => { opc := 0x2D, sub := 8 * relCode r + ftCode ft, dst := .kd, a := vn (ftRegs ft), b := vn (ftRegs ft), lit := .sb }
  | .fcls ft _ => { opc := 0x2E, sub := ftCode ft, dst := vn 1, a := vn (ftRegs ft), laneLocal := true }
  | .frnd ft _ => { opc := 0x2F, sub := ftCode ft, dst := vn (ftRegs ft), a := vn (ftRegs ft), rnd := true, laneLocal := true }
  | .cvtf cd cs _ => { opc := 0x30, sub := 8 * cfCode cd + cfCode cs, dst := vn (cfRegs cd), a := vn (cfRegs cs), rnd := true, laneLocal := true }
  | .cvtfi cs ty _ => { opc := 0x31, sub := 8 * cfCode cs + tyCode ty, dst := vn (tyRegs ty), a := vn (cfRegs cs), rnd := true, laneLocal := true }
  | .cvtif cd ty _ => { opc := 0x32, sub := 8 * cfCode cd + tyCode ty, dst := vn (cfRegs cd), a := vn (tyRegs ty), rnd := true, laneLocal := true }
  | .cvtsc t _ => { opc := 0x33, sub := bCode t, dst := vn 1, a := vn 1, rnd := true, laneLocal := true }
  | .fexp b _ => { opc := 0x34, sub := 8 * bCode b, dst := vn 1, a := vn 1, rnd := true, unit := .fu, long := true }
  | .flog b _ => { opc := 0x35, sub := 8 * bCode b, dst := vn 1, a := vn 1, rnd := true, unit := .fu, long := true }
  | .fsin b _ => { opc := 0x36, sub := 8 * bCode b, dst := vn 1, a := vn 1, rnd := true, unit := .fu, long := true }
  | .fcos b _ => { opc := 0x37, sub := 8 * bCode b, dst := vn 1, a := vn 1, rnd := true, unit := .fu, long := true }
  | .ftan _ => { opc := 0x38, dst := vn 1, a := vn 1, rnd := true, unit := .fu, long := true }
  | .ftanh _ => { opc := 0x39, dst := vn 1, a := vn 1, rnd := true, unit := .fu, long := true }
  | .fatan _ => { opc := 0x3A, dst := vn 1, a := vn 1, rnd := true, unit := .fu, long := true }
  | .fpack cf _ => { opc := 0x3B, sub := cfCode cf, dst := vn 1, a := vn 1, b := vn 1, c := if cfCode cf < 4 then .zero else vn 1, laneLocal := true }
  | .shfl wd _ => { opc := 0x40, sub := wdCode wd, dst := vn (wdRegs wd), a := vn (wdRegs wd), b := vn 1, long := true }
  | .shflup wd _ => { opc := 0x41, sub := wdCode wd, dst := vn (wdRegs wd), a := vn (wdRegs wd), w2 := 0x3F, long := true }
  | .shfldn wd _ => { opc := 0x42, sub := wdCode wd, dst := vn (wdRegs wd), a := vn (wdRegs wd), w2 := 0x3F, long := true }
  | .shflx wd _ => { opc := 0x43, sub := wdCode wd, dst := vn (wdRegs wd), a := vn (wdRegs wd), w2 := 0x3F, long := true }
  | .bcast wd _ => { opc := 0x44, sub := wdCode wd, dst := vn (wdRegs wd), a := vn (wdRegs wd), w2 := 0x3F, long := true }
  | .vote op _ => { opc := 0x45, sub := voteCode op, dst := .w, a := vn 1, waveLevel := true }
  | .kset w _ => { opc := 0x46, sub := bCode w, dst := .kd, a := if w then .w else vn 1, waveLevel := w }
  | .kop op _ => { opc := 0x47, sub := kopCode op, dst := .kd, a := .k, b := if kopCode op = 4 then .zero else .k, waveLevel := true }
  | .kmov w _ => { opc := 0x48, sub := bCode w, dst := if w then .w else .kd, a := .k, waveLevel := true }
  | .kpopc _ => { opc := 0x49, dst := .w, a := .k, waveLevel := true }
  | .reduce op ty _ => { opc := 0x4A, sub := 8 * redCode op + tyCode ty, dst := .w, a := vn (redRegs op ty), waveLevel := true, long := true }
  | .scan op ty _ => { opc := 0x4B, sub := 8 * scanCode op + tyCode ty, dst := vn (tyRegs ty), a := vn (tyRegs ty), long := true }
  | .bra _ => { opc := 0x50, w2 := immMask, laneLocal := true }
  | .brc r ty _ => { opc := 0x51, sub := 8 * relCode r + tyCode ty, a := vn (tyRegs ty), b := vn (tyRegs ty), w2 := immMask, laneLocal := true }
  | .call _ => { opc := 0x52, sub := 0, w2 := immMask, laneLocal := true }
  | .callInd _ => { opc := 0x52, sub := 1, a := vn 2, laneLocal := true }
  | .ret _ => { opc := 0x53, laneLocal := true }
  | .loop l _ => { opc := 0x54, sub := l.toNat, a := vn 1, w2 := 0xFFFF, laneLocal := true }
  | .loopI l _ => { opc := 0x54, sub := 8 + l.toNat, w2 := immMask, laneLocal := true }
  | .barWv _ => { opc := 0x55, sub := 0, w2 := immMask }
  | .barBlk _ => { opc := 0x55, sub := 1, dst := .lvl, dstWrite := false, w2 := immMask }
  | .sleep _ => { opc := 0x56, a := .w, w2 := 0x7FFFFFFF }
  | .sleepFor _ => { opc := 0x56, w2 := immMask }
  | .waitFull x => { opc := 0x57, sub := 0, a := opkOpd x, w2 := 3 }
  | .waitEmpty x => { opc := 0x57, sub := 1, a := opkOpd x, w2 := 3 }
  | .trap _ => { opc := 0x58, w2 := 0x3F }
  | .endLane _ => { opc := 0x59 }
  | .msign _ => { opc := 0x5A, w2 := 0xF, unit := .matrix }
  | .spawn r _ => { opc := 0x5B, sub := bCode r, dst := vn 1, a := vn 2, b := vn 2, c := .w, w2 := if r then 0xFF else 0, unit := .mem }
  | .yieldNow _ => { opc := 0x5C }
  | .cmtWait _ => { opc := 0x5D, sub := 0, w2 := immMask }
  | .cmtPos _ => { opc := 0x5D, sub := 1, dst := vn 1 }
  | .ld ms _ => { opc := 0x60, sub := msCode ms, dst := vn (msRegs ms), a := vn 1, b := .w, hint := true, scope := .withMode, modes := [0, 1], w2 := immMask, unit := .mem, long := true }
  | .st ms _ => { opc := 0x61, sub := msCode ms, dst := vn (msRegs ms), dstRead := true, dstWrite := false, a := vn 1, b := .w, hint := true, scope := .withMode, modes := [0, 2], w2 := immMask, unit := .mem }
  | .lds ms _ => { opc := 0x62, sub := msCode ms, dst := vn (msRegs ms), a := vn 1, hint := true, scope := .always, modes := [0, 1], w2 := immMask, epbMem := true, unit := .mem, long := true }
  | .sts ms _ => { opc := 0x63, sub := msCode ms, dst := vn (msRegs ms), dstRead := true, dstWrite := false, a := vn 1, hint := true, scope := .always, modes := [0, 2], w2 := immMask, unit := .mem }
  | .fill ms _ => { opc := 0x64, sub := msCode ms, dst := vn (msRegs ms), dstRead := true, dstWrite := false, a := vn 1, hint := true, scope := .always, w2 := immMask, unit := .mem }
  | .drain ms _ => { opc := 0x65, sub := msCode ms, dst := vn (msRegs ms), a := vn 1, hint := true, scope := .always, w2 := immMask, epbMem := true, unit := .mem, long := true }
  | .sete ms _ => { opc := 0x66, sub := msCode ms, a := vn 1, hint := true, w2 := immMask, unit := .mem }
  | .push _ => { opc := 0x67, dst := vn 1, dstRead := true, dstWrite := false, a := vn 1, hint := true, w2 := immMask, unit := .mem }
  | .pop _ => { opc := 0x68, dst := vn 1, a := vn 1, hint := true, w2 := immMask, epbMem := true, unit := .mem, long := true }
  | .rbwait _ => { opc := 0x69, dst := vn 1, dstRead := true, dstWrite := false, a := vn 1, hint := true, w2 := immMask, epbMem := true, unit := .mem }
  | .rbrd _ => { opc := 0x6A, dst := vn 1, a := vn 1, hint := true, w2 := immMask, epbMem := true, unit := .mem, long := true }
  | .rbadd _ => { opc := 0x7B, dst := vn 1, dstRead := true, dstWrite := false, a := vn 1, hint := true, w2 := immMask, epbMem := true, unit := .mem }
  | .atom op ty _ => { opc := 0x6B, sub := 8 * atomCode op + tyCode ty, dst := vn (tyRegs ty), a := vn 1, b := .w, c := vn (tyRegs ty), hint := true, scope := .withMode, modes := [0, 1, 2, 3], w2 := immMask, unit := .mem, long := true }
  | .atoms op ty _ => { opc := 0x6C, sub := 8 * atomCode op + tyCode ty, dst := vn (tyRegs ty), a := vn 1, c := vn (tyRegs ty), hint := true, scope := .withMode, modes := [0, 1, 2, 3], w2 := immMask, epbMem := true, unit := .mem, long := true }
  | .cas ty _ => { opc := 0x6D, sub := tyCode ty, dst := vn (tyRegs ty), dstRead := true, a := vn 1, b := .w, c := vn (tyRegs ty), hint := true, scope := .withMode, modes := [0, 1, 2, 3], w2 := immMask, unit := .mem, long := true }
  | .cass ty _ => { opc := 0x6E, sub := tyCode ty, dst := vn (tyRegs ty), dstRead := true, a := vn 1, c := vn (tyRegs ty), hint := true, scope := .withMode, modes := [0, 1, 2, 3], w2 := immMask, epbMem := true, unit := .mem, long := true }
  | .fatom op ft _ => { opc := 0x6F, sub := 8 * fatomCode op + ftCode ft, dst := vn (ftRegs ft), a := vn 1, b := .w, c := vn (ftRegs ft), hint := true, scope := .withMode, modes := [0, 1, 2, 3], w2 := immMask, unit := .mem, long := true }
  | .fatoms op ft _ => { opc := 0x70, sub := 8 * fatomCode op + ftCode ft, dst := vn (ftRegs ft), a := vn 1, c := vn (ftRegs ft), hint := true, scope := .withMode, modes := [0, 1, 2, 3], w2 := immMask, epbMem := true, unit := .mem, long := true }
  | .fence k _ => { opc := 0x71, sub := fenceCode k, hint := true, scope := .always, unit := .mem }
  | .take _ => { opc := 0x72, sub := 0, dst := vn 1, a := vn 1, b := .w, c := vn 1, hint := true, w2 := immMask, unit := .mem }
  | .takeTry _ => { opc := 0x72, sub := 1, dst := vn 1, a := vn 1, b := .w, c := vn 1, hint := true, w2 := immMask, unit := .mem }
  | .give _ => { opc := 0x73, a := vn 1, b := .w, c := vn 1, hint := true, w2 := immMask, unit := .mem }
  | .acinit _ => { opc := 0x74, dst := vn 1, dstRead := true, dstWrite := false, a := vn 1, b := .w, c := vn 1, hint := true, w2 := immMask, unit := .mem }
  | .stock _ => { opc := 0x75, dst := vn 1, a := vn 1, b := .w, hint := true, w2 := immMask, unit := .mem, long := true }
  | .bankreq _ => { opc := 0x76, dst := .w, a := .w, hint := true, unit := .mem, waveLevel := true }
  | .pref _ => { opc := 0x77, a := vn 1, b := .w, hint := true, w2 := immMask, unit := .mem }
  | .ldw ms _ => { opc := 0x78, sub := msCode ms, dst := .w, b := .w, hint := true, scope := .withMode, modes := [0, 1], w2 := immMask, unit := .mem, waveLevel := true, long := true }
  | .stw ms _ => { opc := 0x79, sub := msCode ms, dst := .w, dstRead := true, dstWrite := false, b := .w, hint := true, scope := .withMode, modes := [0, 2], w2 := immMask, unit := .mem, waveLevel := true }
  | .flush _ => { opc := 0x7A, a := vn 1, b := .w, hint := true, w2 := immMask, unit := .mem }
  | .mlatb mf _ => { opc := 0x80, sub := mfCode mf, a := .w, unit := .matrix, waveLevel := true }
  | .mma mf x => { opc := 0x81, sub := mfCode mf, dst := .t, dstWrite := false, a := .w, b := if x.w2.getLsbD 28 then .k else .zero, w2 := 0x9F00FF00, unit := .matrix, waveLevel := true }
  | .mmas mf x => { opc := 0x82, sub := mfCode mf, dst := .t, dstWrite := false, a := .w, b := if x.w2.getLsbD 28 then .k else .zero, c := .w, w2 := 0x9F00FF00, unit := .matrix, waveLevel := true }
  | .mmai mf x => { opc := 0x83, sub := mfCode mf, dst := .t, dstWrite := false, a := .w, b := if x.w2.getLsbD 28 then .k else .zero, modes := [0, 1], w2 := 0xBF00FF00, unit := .matrix, waveLevel := true }
  | .mcbt _ => { opc := 0x84, a := .w, w2 := 0x1FF, unit := .matrix, waveLevel := true }
  | .mzero _ => { opc := 0x85, dst := .t, dstWrite := false, w2 := 3, unit := .matrix, waveLevel := true }
  | .mrd _ => { opc := 0x86, dst := vn 1, a := vn 1, b := .t, w2 := 0x3F, unit := .matrix, long := true }
  | .mst _ => { opc := 0x87, dst := .t, dstWrite := false, a := .w, w2 := 0x3F3F, unit := .matrix, waveLevel := true }
  | .mmv _ => { opc := 0x88, dst := .t, dstWrite := false, a := .w, w2 := 0x33F3F, unit := .matrix, waveLevel := true }
  | .mstat _ => { opc := 0x89, sub := 0, dst := .w, unit := .matrix, waveLevel := true }
  | .mstatClr _ => { opc := 0x89, sub := 1, dst := .w, w2 := 0xF, unit := .matrix, waveLevel := true }
  | .mwait _ => { opc := 0x8A, w2 := 0x1F, unit := .matrix, waveLevel := true }
  | .mrel _ => { opc := 0x8B, w2 := 0x1F, unit := .matrix, waveLevel := true }
  | .band _ => { opc := 0x90, dst := vn 1, a := vn 1, b := vn 1, c := .w, cDst := true, unit := .fu, long := true }
  | .ppopc _ => { opc := 0x91, dst := vn 1, a := vn 1, b := .w, unit := .fu, long := true }
  | .igath wd _ => { opc := 0x92, sub := wdCode wd, dst := vn 2, a := vn (wdRegs wd), b := vn (wdRegs wd), c := .w, unit := .fu, long := true }
  | .cmpr wd _ => { opc := 0x93, sub := wdCode wd, dst := vn (wdRegs wd), a := vn (wdRegs wd), c := .k, unit := .fu, long := true }
  | .expd wd _ => { opc := 0x94, sub := wdCode wd, dst := vn (wdRegs wd), a := vn (wdRegs wd), c := .k, unit := .fu, long := true }
  | .topk nz f _ => { opc := 0x95, sub := 8 * bCode nz + topCode f, dst := vn 2, a := vn 1, b := vn 1, c := .w, cDst := true, w2 := 0x7F, unit := .fu, long := true }
  | .tcopy _ => { opc := 0x98, dst := .w, a := vn 1, hint := true, w2 := immMask, epbMem := true, unit := .mem }
  | .tgath _ => { opc := 0x99, dst := .w, a := vn 1, hint := true, w2 := immMask, epbMem := true, unit := .mem }
  | .tscat _ => { opc := 0x9A, dst := .w, a := vn 1, hint := true, w2 := immMask, epbMem := true, unit := .mem }
  | .fconv _ => { opc := 0x9B, dst := .w, a := vn 1, hint := true, w2 := immMask, epbMem := true, unit := .mem }
  | .sred _ => { opc := 0x9C, a := vn 1, b := .w, hint := true, w2 := immMask, unit := .mem }
  | .embag _ => { opc := 0x9D, dst := .w, a := vn 1, hint := true, w2 := immMask, epbMem := true, unit := .mem }
  | .draw _ => { opc := 0xA0, dst := .w, dstRead := true, dstWrite := false, a := .w, b := .w, w2 := 0x8001FFFF, unit := .mem, waveLevel := true }
  | .rpassTile _ => { opc := 0xA1, sub := 0, dst := .w, a := .w, unit := .mem, waveLevel := true }
  | .rpassImm _ => { opc := 0xA1, sub := 1, dst := .w, a := .w, unit := .mem, waveLevel := true }
  | .ordEnter _ => { opc := 0xA2, sub := 0, unit := .mem }
  | .ordLeave _ => { opc := 0xA2, sub := 1, unit := .mem }
  | .fli _ => { opc := 0xA3, dst := vn 4, a := vn 1, b := vn 1, c := vn 2, w2 := 0x13F, unit := .mem, long := true }
  | .flw _ => { opc := 0xA4, dst := vn 4, a := vn 1, b := vn 1, w2 := 0x3F, unit := .mem, long := true }
  | .rayq _ => { opc := 0xA5, sub := 0, dst := vn 4, a := .v 4 8, b := .w, unit := .mem }
  | .rayqApp _ => { opc := 0xA5, sub := 1, dst := vn 4, a := .v 4 8, b := .w, c := vn 1, w2 := 0x3F, unit := .mem }
  | .sysrd _ => { opc := 0xB0, dst := vn 2, w2 := 0xFFFFFF }
  | .syswr _ => { opc := 0xB1, a := vn 2, w2 := 0xFFFFFF }
  | .sysopIcinv _ => { opc := 0xB2, sub := 0 }
  | .sysopDcwb _ => { opc := 0xB2, sub := 1 }
  | .sysopXlinv _ => { opc := 0xB2, sub := 2, a := vn 2 }
  | .sysopXlinvAll _ => { opc := 0xB2, sub := 2, w2 := 1 }
  | .eret _ => { opc := 0xB3 }
  | _ => { opc := 0x100 }

/-- The description of an instruction; a short form has that of its extended twin (R169). -/
def descOf (i : Instr) : Desc := descExt (ext i)

/-- The number of 32-bit words of a form (R167). -/
def formWords : Form → Nat
  | .short => 1 | .shortLit _ => 3 | .ext => 3 | .extLit _ => 5

/-- The number of words of an instruction (R167). -/
def wordsOf (i : Instr) : Nat := formWords (fieldsOf i).form

/-- Whether an instruction carries a literal. -/
def hasLit : Form → Bool
  | .short => false | .shortLit _ => true | .ext => false | .extLit _ => true

/-- The literal of a form. -/
def litOf : Form → DWord
  | .short => 0 | .shortLit l => l | .ext => 0 | .extLit l => l

end Sys2Proof.Machine
end

