-- ==== Sys2Proof/Machine/Legal.lean ====
section
/-!
DEFINITION. The patterns that are not instructions (R190), as a test on a parsed instruction: operand classes (R174), unused
fields (R171, R172), unassigned SUB values (R183 to R189) and the limits each entry states on its typed fields. What depends
on the executing wave (declared registers, width, kind of wave) is tested at issue, by `declOk` and the meanings.
-/
namespace Sys2Proof.Machine

/-- Whether a field's value lies in its class (R174). -/
def opdOk (o : Opd) (f : BitVec 8) : Bool :=
  match o with
  | .zero => f == 0
  | .v a n => f.toNat % a == 0 && decide (f.toNat + n ≤ 256)
  | .w => decide (f.toNat < 64)
  | .k => decide (f.toNat < 8)
  | .kd => decide (0 < f.toNat) && decide (f.toNat < 8)
  | .t => decide (f.toNat < 4)
  | .lvl => decide (f.toNat ≤ 4)

/-- Whether a class names a register with a full/empty bit, so that a policy bit may be set for it (R171). -/
def isReg : Opd → Bool
  | .v _ _ => true | .w => true | .k => true | .zero => false | .kd => false | .t => false | .lvl => false

/-- The description of an instruction as its form uses it: a short shift takes its count from F6 (R183, R209). -/
def descForm (i : Instr) : Desc :=
  match i with
  | .shlShort _ _ _ | .shrShort _ _ _ | .sarShort _ _ _ | .rotShort _ _ _ => { descOf i with b := .zero, w2 := 0x3F }
  | _ => descOf i

/-- Assigned SUB values within the types of the syntax (R183 to R189). -/
def subOk : Instr → Bool
  | .iabs _ ty _ => tyCode ty % 2 == 0
  | .ineg _ ty _ => tyCode ty % 2 == 0
  | .fdiv ft _ => decide (ftCode ft < 2)
  | .fsqrt ft _ => decide (ftCode ft < 2)
  | .frcp ft _ => decide (ftCode ft < 2)
  | .frsq ft _ => decide (ftCode ft < 2)
  | .cvtf cd cs _ => cfCode cd != cfCode cs
  | .fpack cf _ => decide (2 ≤ cfCode cf)
  | .reduce op ty _ => decide (redCode op < 6) || decide (tyCode ty < 2)
  | .brc _ ty _ => decide (tyCode ty < 4)
  | .st ms _ => msCode ms != 1 && msCode ms != 3
  | .sts ms _ => msCode ms != 1 && msCode ms != 3
  | .fill ms _ => msCode ms == 0 || msCode ms == 5 || msCode ms == 6
  | .drain ms _ => msCode ms == 0 || msCode ms == 5 || msCode ms == 6
  | .sete ms _ => msCode ms == 0 || msCode ms == 5 || msCode ms == 6
  | .ldw ms _ => msCode ms == 0 || msCode ms == 5
  | .stw ms _ => msCode ms == 0 || msCode ms == 5
  | .atom _ ty _ => decide (tyCode ty < 4)
  | .atoms _ ty _ => decide (tyCode ty < 4)
  | .cas ty _ => decide (tyCode ty < 4)
  | .cass ty _ => decide (tyCode ty < 4)
  | .fatom _ ft _ => decide (ftCode ft < 2)
  | .fatoms _ ft _ => decide (ftCode ft < 2)
  | .mma mf _ => decide (mfCode mf ≤ 5)
  | .mmas mf _ => mfCode mf == 4 || mfCode mf == 5
  | .mmai mf _ => mfCode mf == 6 || mfCode mf == 7
  | _ => true

/-- Bits [hi:lo] of word 2. -/
def w2f (x : Fields) (hi lo : Nat) : Nat := bits x.w2.toNat hi lo

/-- The limits that entries state on their typed fields (R211, R246, R252, R253, R259, R300, R305, R309, R311, R319, R390). -/
def extraOk (i : Instr) : Bool :=
  match ext i with
  | .bfx _ wd x => decide (w2f x 5 0 + w2f x 13 8 + 1 ≤ 32 * wdRegs wd)
  | .bfi wd x => decide (w2f x 5 0 + w2f x 13 8 + 1 ≤ 32 * wdRegs wd)
  | .loop _ x => if isShort i then decide (1 ≤ w2f x 15 0) else decide (3 ≤ w2f x 15 0)
  | .loopI _ x => decide (3 ≤ w2f x 15 0)
  | .sleepFor x => x.w2.getLsbD 31
  | .waitFull x => w2f x 1 0 != 3
  | .waitEmpty x => (w2f x 1 0 == 1 || (w2f x 1 0 == 2 && x.sa != 0)) && !x.epa
  | .spawn r x => !r || (w2f x 7 0 % 4 == 0 && decide (w2f x 7 0 + 8 ≤ 256))
  | .mma _ x => (x.w2.getLsbD 28 || w2f x 27 24 == 0) && (!x.w2.getLsbD 31 || w2f x 15 8 == 0)
  | .mmas _ x => (x.w2.getLsbD 28 || w2f x 27 24 == 0) && (!x.w2.getLsbD 31 || w2f x 15 8 == 0)
  | .mmai _ x => (x.w2.getLsbD 28 || w2f x 27 24 == 0) && (!x.w2.getLsbD 31 || w2f x 15 8 == 0)
  | .mzero x => w2f x 1 0 != 3
  | .mst x => decide (w2f x 5 0 + w2f x 13 8 ≤ 63)
  | .mmv x => decide (w2f x 5 0 + w2f x 13 8 ≤ 63) && w2f x 17 16 != 3
  | .mwait x => w2f x 4 0 != 0
  | .mrel x => w2f x 4 0 != 0
  | .topk _ _ x => decide (1 ≤ w2f x 6 0) && decide (w2f x 6 0 ≤ 64)
  | .sysopXlinvAll x => x.w2 == 1
  | _ => true

/-- Whether word 1 and the form of an extended instruction are as R169 to R173 ask; SEL has extended forms only (R213). -/
def formOk (d : Desc) (x : Fields) : Bool :=
  match x.form with
  | .short => false
  | .ext => true
  | .extLit _ => d.lit == .sb && x.sb == 0 && !x.epb || d.lit == .imm && x.w2 == 0
  | .shortLit _ =>
    d.lit != .no && d.sub == 0 && x.sb == 0 && x.sc == (if d.opc = 0x23 then x.dst else 0) && x.km == 0 && !x.kn &&
    !x.epa && !x.epb && !x.epc && x.rnd == 0 && x.hint == 0 && x.scope == 0 && x.mode == 0 && x.w2 == 0 &&
    d.opc != 0x1A

/-- Whether word 1's modifiers are used as R171 allows. -/
def modOk (d : Desc) (x : Fields) : Bool :=
  (d.rnd || x.rnd == 0) && (d.hint || x.hint == 0) && d.modes.contains x.mode.toNat && decide (x.scope.toNat < 6) &&
  (match d.scope with
   | .no => x.scope == 0
   | .withMode => x.mode != 0 || x.scope == 0
   | .always => true) &&
  !(x.km == 0 && x.kn) && (isReg d.a || !x.epa) && ((isReg d.b && !hasLit x.form) || d.epbMem || !x.epb) && ((isReg d.c && !d.cDst) || !x.epc)

/-- R190 on a parsed instruction: whether it is an instruction of the part. -/
def legal (i : Instr) : Bool :=
  let d := descForm i
  let x := fieldsOf i
  isLane i && subOk i && (isShort i || formOk d x) && modOk d x &&
  opdOk d.dst x.dst && opdOk d.a x.sa && opdOk d.b x.sb && opdOk d.c x.sc &&
  (x.w2 &&& ~~~d.w2) == 0 && extraOk i

/-- Whether a class's lane registers lie below the declared count (R40). -/
def belowDecl (o : Opd) (f : BitVec 8) (n : Nat) : Bool :=
  match o with
  | .v _ c => decide (f.toNat + c ≤ n)
  | _ => true

/-- Element bytes of a matrix format (R302, R305). -/
def mfBytes : MF → Nat
  | .f32 => 4 | .f64 => 8 | .f16 => 2 | .bf16 => 2 | .e4m3 => 1 | .e5m2 => 1 | .s8 => 1 | .z8 => 1 | .cb => 0

/-- Whether every lane register that the instruction names is declared (R40, R259, R305, R367). -/
def declOk (i : Instr) (n : Nat) : Bool :=
  let d := descForm i
  let x := fieldsOf i
  belowDecl d.dst x.dst n && belowDecl d.a x.sa n && (hasLit x.form || belowDecl d.b x.sb n) && belowDecl d.c x.sc n &&
  (match i with
   | .spawn true y => decide (w2f y 7 0 + 8 ≤ n)
   | .mma mf y => y.w2.getLsbD 31 || decide (w2f y 15 8 + 32 * mfBytes mf ≤ n)
   | .mmas mf y => y.w2.getLsbD 31 || decide (w2f y 15 8 + 32 * mfBytes mf ≤ n)
   | .mmai mf y => y.w2.getLsbD 31 || decide (w2f y 15 8 + 32 * mfBytes mf ≤ n)
   | _ => true)

end Sys2Proof.Machine
end

