-- ==== Sys2Proof/Decode.lean ====
section
/-!
DEFINITION. Decoding (R167 to R190). `decode` parses words by OPC, LEN and SUB and rejects by name; `legal` tests the rest of
R190. `encode` is written from the same encoding tables. A later word's bits count on from the first word's.
-/
namespace Sys2Proof

open Machine

/-- Why words are not an instruction (R190). -/
inductive DecodeError where
  | truncated
  | unassignedOpcode
  | badLength
  | unassignedSub
  | reservedField
  deriving DecidableEq, Repr

/-- The IntTy of a code (R182 to R189). -/
def intTyOfCode : Nat → Option IntTy
  | 0 => some .s32
  | 1 => some .z32
  | 2 => some .s64
  | 3 => some .z64
  | 4 => some .s16
  | 5 => some .z16
  | 6 => some .s8
  | 7 => some .z8
  | _ => none

/-- The Wd of a code (R182 to R189). -/
def wdOfCode : Nat → Option Wd
  | 0 => some .b32
  | 1 => some .b64
  | _ => none

/-- The FT of a code (R182 to R189). -/
def fTOfCode : Nat → Option FT
  | 0 => some .f32
  | 1 => some .f64
  | 2 => some .f16
  | 3 => some .bf16
  | _ => none

/-- The CF of a code (R182 to R189). -/
def cFOfCode : Nat → Option CF
  | 0 => some .f32
  | 1 => some .f64
  | 2 => some .f16
  | 3 => some .bf16
  | 4 => some .e4m3
  | 5 => some .e5m2
  | _ => none

/-- The MS of a code (R182 to R189). -/
def mSOfCode : Nat → Option MS
  | 0 => some .b4
  | 1 => some .s1
  | 2 => some .b1
  | 3 => some .s2
  | 4 => some .b2
  | 5 => some .b8
  | 6 => some .b16
  | _ => none

/-- The MF of a code (R182 to R189). -/
def mFOfCode : Nat → Option MF
  | 0 => some .f32
  | 1 => some .f64
  | 2 => some .f16
  | 3 => some .bf16
  | 4 => some .e4m3
  | 5 => some .e5m2
  | 6 => some .s8
  | 7 => some .z8
  | 8 => some .cb
  | _ => none

/-- The Rel of a code (R182 to R189). -/
def relOfCode : Nat → Option Rel
  | 0 => some .eq
  | 1 => some .ne
  | 2 => some .lt
  | 3 => some .le
  | 4 => some .gt
  | 5 => some .ge
  | _ => none

/-- The AddVar of a code (R182 to R189). -/
def addVarOfCode : Nat → Option AddVar
  | 0 => some .wrap
  | 1 => some .sat
  | _ => none

/-- The MulVar of a code (R182 to R189). -/
def mulVarOfCode : Nat → Option MulVar
  | 0 => some .wrap
  | 1 => some .sat
  | 2 => some .hi
  | _ => none

/-- The LeaScale of a code (R182 to R189). -/
def leaScaleOfCode : Nat → Option LeaScale
  | 0 => some .x1
  | 1 => some .x2
  | 2 => some .x4
  | 3 => some .x8
  | 4 => some .x16
  | _ => none

/-- The VoteOp of a code (R182 to R189). -/
def voteOpOfCode : Nat → Option VoteOp
  | 0 => some .any
  | 1 => some .all
  | 2 => some .ballot
  | _ => none

/-- The KopOp of a code (R182 to R189). -/
def kopOpOfCode : Nat → Option KopOp
  | 0 => some .and
  | 1 => some .or
  | 2 => some .xor
  | 3 => some .andn
  | 4 => some .not
  | _ => none

/-- The RedOp of a code (R182 to R189). -/
def redOpOfCode : Nat → Option RedOp
  | 0 => some .add
  | 1 => some .min
  | 2 => some .max
  | 3 => some .and
  | 4 => some .or
  | 5 => some .xor
  | 6 => some .fmin
  | 7 => some .fmax
  | _ => none

/-- The ScanOp of a code (R182 to R189). -/
def scanOpOfCode : Nat → Option ScanOp
  | 0 => some .add
  | 1 => some .min
  | 2 => some .max
  | _ => none

/-- The AtomOp of a code (R182 to R189). -/
def atomOpOfCode : Nat → Option AtomOp
  | 0 => some .add
  | 1 => some .min
  | 2 => some .max
  | 3 => some .and
  | 4 => some .or
  | 5 => some .xor
  | 6 => some .xchg
  | _ => none

/-- The FAtomOp of a code (R182 to R189). -/
def fAtomOpOfCode : Nat → Option FAtomOp
  | 0 => some .add
  | 1 => some .min
  | 2 => some .max
  | _ => none

/-- The FenceKind of a code (R182 to R189). -/
def fenceKindOfCode : Nat → Option FenceKind
  | 0 => some .full
  | 1 => some .acq
  | 2 => some .rel
  | _ => none

/-- The TopFmt of a code (R189). -/
def topFmtOfCode : Nat → Option TopFmt
  | 0 => some .f32
  | 3 => some .bf16
  | _ => none

/-- A Bool of a code. -/
def boolOfCode : Nat → Option Bool
  | 0 => some false
  | 1 => some true
  | _ => none

/-- A loop level of a code (R186). -/
def lvlOfCode (n : Nat) : Option Lvl := if n < 4 then some (BitVec.ofNat 2 n) else none

/-- The instruction of an opcode and a SUB (R183 to R189). -/
def decodeSub (opc sub : Nat) (x : Fields) : Option Instr :=
  match opc with
  | 0x01 => (addVarOfCode (sub / 8)).bind (fun m => (intTyOfCode (sub % 8)).map (fun t => .iadd m t x))
  | 0x02 => (addVarOfCode (sub / 8)).bind (fun m => (intTyOfCode (sub % 8)).map (fun t => .isub m t x))
  | 0x03 => (mulVarOfCode (sub / 8)).bind (fun m => (intTyOfCode (sub % 8)).map (fun t => .imul m t x))
  | 0x04 => (addVarOfCode (sub / 8)).bind (fun m => (intTyOfCode (sub % 8)).map (fun t => .iaddImm m t x))
  | 0x05 => (addVarOfCode (sub / 8)).bind (fun m => (intTyOfCode (sub % 8)).map (fun t => .imad m t x))
  | 0x06 => (intTyOfCode sub).map (fun m => .idiv m x)
  | 0x07 => (intTyOfCode sub).map (fun m => .irem m x)
  | 0x08 => (intTyOfCode sub).map (fun m => .imin m x)
  | 0x09 => (intTyOfCode sub).map (fun m => .imax m x)
  | 0x0A => (addVarOfCode (sub / 8)).bind (fun m => (intTyOfCode (sub % 8)).map (fun t => .iabs m t x))
  | 0x0B => (addVarOfCode (sub / 8)).bind (fun m => (intTyOfCode (sub % 8)).map (fun t => .ineg m t x))
  | 0x0C => (wdOfCode sub).map (fun m => .and m x)
  | 0x0D => (wdOfCode sub).map (fun m => .or m x)
  | 0x0E => (wdOfCode sub).map (fun m => .xor m x)
  | 0x0F => (wdOfCode sub).map (fun m => .not m x)
  | 0x10 => (wdOfCode sub).map (fun m => .shl m x)
  | 0x11 => (wdOfCode sub).map (fun m => .shr m x)
  | 0x12 => (wdOfCode sub).map (fun m => .sar m x)
  | 0x13 => (wdOfCode sub).map (fun m => .rot m x)
  | 0x14 => (wdOfCode sub).map (fun m => .popc m x)
  | 0x15 => (wdOfCode sub).map (fun m => .clz m x)
  | 0x16 => (wdOfCode sub).map (fun m => .brev m x)
  | 0x17 => (boolOfCode (sub / 8)).bind (fun m => (wdOfCode (sub % 8)).map (fun t => .bfx m t x))
  | 0x18 => (wdOfCode sub).map (fun m => .bfi m x)
  | 0x19 => (relOfCode (sub / 8)).bind (fun m => (intTyOfCode (sub % 8)).map (fun t => .icmp m t x))
  | 0x1A => (wdOfCode sub).map (fun m => .sel m x)
  | 0x1B => (leaScaleOfCode sub).map (fun m => .lea m x)
  | 0x1C =>
    match sub with
    | 0 => some (.mov x)
    | 1 => some (.movW x)
    | 2 => some (.movLo x)
    | 3 => some (.movHi x)
    | 4 => some (.movFws x)
    | 5 => some (.movTws x)
    | _ => none
  | 0x20 => (fTOfCode sub).map (fun m => .fadd m x)
  | 0x21 => (fTOfCode sub).map (fun m => .fsub m x)
  | 0x22 => (fTOfCode sub).map (fun m => .fmul m x)
  | 0x23 => (fTOfCode sub).map (fun m => .fma m x)
  | 0x24 => (fTOfCode sub).map (fun m => .fdiv m x)
  | 0x25 => (fTOfCode sub).map (fun m => .fsqrt m x)
  | 0x26 => (fTOfCode sub).map (fun m => .frcp m x)
  | 0x27 => (fTOfCode sub).map (fun m => .frsq m x)
  | 0x28 => (fTOfCode sub).map (fun m => .fmin m x)
  | 0x29 => (fTOfCode sub).map (fun m => .fmax m x)
  | 0x2A => (fTOfCode sub).map (fun m => .fabs m x)
  | 0x2B => (fTOfCode sub).map (fun m => .fneg m x)
  | 0x2C => (fTOfCode sub).map (fun m => .fcps m x)
  | 0x2D => (relOfCode (sub / 8)).bind (fun m => (fTOfCode (sub % 8)).map (fun t => .fcmp m t x))
  | 0x2E => (fTOfCode sub).map (fun m => .fcls m x)
  | 0x2F => (fTOfCode sub).map (fun m => .frnd m x)
  | 0x30 => (cFOfCode (sub / 8)).bind (fun m => (cFOfCode (sub % 8)).map (fun t => .cvtf m t x))
  | 0x31 => (cFOfCode (sub / 8)).bind (fun m => (intTyOfCode (sub % 8)).map (fun t => .cvtfi m t x))
  | 0x32 => (cFOfCode (sub / 8)).bind (fun m => (intTyOfCode (sub % 8)).map (fun t => .cvtif m t x))
  | 0x33 => (boolOfCode sub).map (fun m => .cvtsc m x)
  | 0x34 => if sub % 8 = 0 then (boolOfCode (sub / 8)).map (fun m => .fexp m x) else none
  | 0x35 => if sub % 8 = 0 then (boolOfCode (sub / 8)).map (fun m => .flog m x) else none
  | 0x36 => if sub % 8 = 0 then (boolOfCode (sub / 8)).map (fun m => .fsin m x) else none
  | 0x37 => if sub % 8 = 0 then (boolOfCode (sub / 8)).map (fun m => .fcos m x) else none
  | 0x38 => if sub = 0 then some (.ftan x) else none
  | 0x39 => if sub = 0 then some (.ftanh x) else none
  | 0x3A => if sub = 0 then some (.fatan x) else none
  | 0x3B => (cFOfCode sub).map (fun m => .fpack m x)
  | 0x40 => (wdOfCode sub).map (fun m => .shfl m x)
  | 0x41 => (wdOfCode sub).map (fun m => .shflup m x)
  | 0x42 => (wdOfCode sub).map (fun m => .shfldn m x)
  | 0x43 => (wdOfCode sub).map (fun m => .shflx m x)
  | 0x44 => (wdOfCode sub).map (fun m => .bcast m x)
  | 0x45 => (voteOpOfCode sub).map (fun m => .vote m x)
  | 0x46 => (boolOfCode sub).map (fun m => .kset m x)
  | 0x47 => (kopOpOfCode sub).map (fun m => .kop m x)
  | 0x48 => (boolOfCode sub).map (fun m => .kmov m x)
  | 0x49 => if sub = 0 then some (.kpopc x) else none
  | 0x4A => (redOpOfCode (sub / 8)).bind (fun m => (intTyOfCode (sub % 8)).map (fun t => .reduce m t x))
  | 0x4B => (scanOpOfCode (sub / 8)).bind (fun m => (intTyOfCode (sub % 8)).map (fun t => .scan m t x))
  | 0x50 => if sub = 0 then some (.bra x) else none
  | 0x51 => (relOfCode (sub / 8)).bind (fun m => (intTyOfCode (sub % 8)).map (fun t => .brc m t x))
  | 0x52 =>
    match sub with
    | 0 => some (.call x)
    | 1 => some (.callInd x)
    | _ => none
  | 0x53 => if sub = 0 then some (.ret x) else none
  | 0x54 =>
    match sub / 8 with
    | 0 => (lvlOfCode (sub % 8)).map (fun l => .loop l x)
    | 1 => (lvlOfCode (sub % 8)).map (fun l => .loopI l x)
    | _ => none
  | 0x55 =>
    match sub with
    | 0 => some (.barWv x)
    | 1 => some (.barBlk x)
    | _ => none
  | 0x56 => if sub = 0 then some (if x.w2.getLsbD 31 then .sleepFor x else .sleep x) else none
  | 0x57 =>
    match sub with
    | 0 => some (.waitFull x)
    | 1 => some (.waitEmpty x)
    | _ => none
  | 0x58 => if sub = 0 then some (.trap x) else none
  | 0x59 => if sub = 0 then some (.endLane x) else none
  | 0x5A => if sub = 0 then some (.msign x) else none
  | 0x5B => (boolOfCode sub).map (fun m => .spawn m x)
  | 0x5C => if sub = 0 then some (.yieldNow x) else none
  | 0x5D =>
    match sub with
    | 0 => some (.cmtWait x)
    | 1 => some (.cmtPos x)
    | _ => none
  | 0x60 => (mSOfCode sub).map (fun m => .ld m x)
  | 0x61 => (mSOfCode sub).map (fun m => .st m x)
  | 0x62 => (mSOfCode sub).map (fun m => .lds m x)
  | 0x63 => (mSOfCode sub).map (fun m => .sts m x)
  | 0x64 => (mSOfCode sub).map (fun m => .fill m x)
  | 0x65 => (mSOfCode sub).map (fun m => .drain m x)
  | 0x66 => (mSOfCode sub).map (fun m => .sete m x)
  | 0x67 => if sub = 0 then some (.push x) else none
  | 0x68 => if sub = 0 then some (.pop x) else none
  | 0x69 => if sub = 0 then some (.rbwait x) else none
  | 0x6A => if sub = 0 then some (.rbrd x) else none
  | 0x7B => if sub = 0 then some (.rbadd x) else none
  | 0x6B => (atomOpOfCode (sub / 8)).bind (fun m => (intTyOfCode (sub % 8)).map (fun t => .atom m t x))
  | 0x6C => (atomOpOfCode (sub / 8)).bind (fun m => (intTyOfCode (sub % 8)).map (fun t => .atoms m t x))
  | 0x6D => (intTyOfCode sub).map (fun m => .cas m x)
  | 0x6E => (intTyOfCode sub).map (fun m => .cass m x)
  | 0x6F => (fAtomOpOfCode (sub / 8)).bind (fun m => (fTOfCode (sub % 8)).map (fun t => .fatom m t x))
  | 0x70 => (fAtomOpOfCode (sub / 8)).bind (fun m => (fTOfCode (sub % 8)).map (fun t => .fatoms m t x))
  | 0x71 => (fenceKindOfCode sub).map (fun m => .fence m x)
  | 0x72 =>
    match sub with
    | 0 => some (.take x)
    | 1 => some (.takeTry x)
    | _ => none
  | 0x73 => if sub = 0 then some (.give x) else none
  | 0x74 => if sub = 0 then some (.acinit x) else none
  | 0x75 => if sub = 0 then some (.stock x) else none
  | 0x76 => if sub = 0 then some (.bankreq x) else none
  | 0x77 => if sub = 0 then some (.pref x) else none
  | 0x78 => (mSOfCode sub).map (fun m => .ldw m x)
  | 0x79 => (mSOfCode sub).map (fun m => .stw m x)
  | 0x7A => if sub = 0 then some (.flush x) else none
  | 0x80 => (mFOfCode sub).map (fun m => .mlatb m x)
  | 0x81 => (mFOfCode sub).map (fun m => .mma m x)
  | 0x82 => (mFOfCode sub).map (fun m => .mmas m x)
  | 0x83 => (mFOfCode sub).map (fun m => .mmai m x)
  | 0x84 => if sub = 0 then some (.mcbt x) else none
  | 0x85 => if sub = 0 then some (.mzero x) else none
  | 0x86 => if sub = 0 then some (.mrd x) else none
  | 0x87 => if sub = 0 then some (.mst x) else none
  | 0x88 => if sub = 0 then some (.mmv x) else none
  | 0x89 =>
    match sub with
    | 0 => some (.mstat x)
    | 1 => some (.mstatClr x)
    | _ => none
  | 0x8A => if sub = 0 then some (.mwait x) else none
  | 0x8B => if sub = 0 then some (.mrel x) else none
  | 0x90 => if sub = 0 then some (.band x) else none
  | 0x91 => if sub = 0 then some (.ppopc x) else none
  | 0x92 => (wdOfCode sub).map (fun m => .igath m x)
  | 0x93 => (wdOfCode sub).map (fun m => .cmpr m x)
  | 0x94 => (wdOfCode sub).map (fun m => .expd m x)
  | 0x95 => (boolOfCode (sub / 8)).bind (fun m => (topFmtOfCode (sub % 8)).map (fun t => .topk m t x))
  | 0x98 => if sub = 0 then some (.tcopy x) else none
  | 0x99 => if sub = 0 then some (.tgath x) else none
  | 0x9A => if sub = 0 then some (.tscat x) else none
  | 0x9B => if sub = 0 then some (.fconv x) else none
  | 0x9C => if sub = 0 then some (.sred x) else none
  | 0x9D => if sub = 0 then some (.embag x) else none
  | 0xA0 => if sub = 0 then some (.draw x) else none
  | 0xA1 =>
    match sub with
    | 0 => some (.rpassTile x)
    | 1 => some (.rpassImm x)
    | _ => none
  | 0xA2 =>
    match sub with
    | 0 => some (.ordEnter x)
    | 1 => some (.ordLeave x)
    | _ => none
  | 0xA3 => if sub = 0 then some (.fli x) else none
  | 0xA4 => if sub = 0 then some (.flw x) else none
  | 0xA5 =>
    match sub with
    | 0 => some (.rayq x)
    | 1 => some (.rayqApp x)
    | _ => none
  | 0xB0 => if sub = 0 then some (.sysrd x) else none
  | 0xB1 => if sub = 0 then some (.syswr x) else none
  | 0xB2 =>
    match sub with
    | 0 => some (.sysopIcinv x)
    | 1 => some (.sysopDcwb x)
    | 2 => some (if x.w2.getLsbD 0 then .sysopXlinvAll x else .sysopXlinv x)
    | _ => none
  | 0xB3 => if sub = 0 then some (.eret x) else none
  | _ => none

/-- The one-word instruction of an opcode: F6, SA and DST as the map gives; an unused field must be zero (R169, R183 to
R187). -/
def decodeShort (opc : Nat) (w : Word) : Except DecodeError Instr :=
  let f6 := w.extractLsb' 26 6
  let sa := w.extractLsb' 18 8
  let dst := w.extractLsb' 10 8
  let ok (b : Bool) (i : Instr) : Except DecodeError Instr := if b then .ok i else .error .reservedField
  match opc with
  | 0x01 => .ok (.iaddShort f6 sa dst)
  | 0x02 => .ok (.isubShort f6 sa dst)
  | 0x03 => .ok (.imulShort f6 sa dst)
  | 0x04 => .ok (.iaddImmShort f6 sa dst)
  | 0x05 => .ok (.imadShort f6 sa dst)
  | 0x06 => .ok (.idivShort f6 sa dst)
  | 0x07 => .ok (.iremShort f6 sa dst)
  | 0x08 => .ok (.iminShort f6 sa dst)
  | 0x09 => .ok (.imaxShort f6 sa dst)
  | 0x0A => ok (f6 == 0) (.iabsShort sa dst)
  | 0x0B => ok (f6 == 0) (.inegShort sa dst)
  | 0x0C => .ok (.andShort f6 sa dst)
  | 0x0D => .ok (.orShort f6 sa dst)
  | 0x0E => .ok (.xorShort f6 sa dst)
  | 0x0F => ok (f6 == 0) (.notShort sa dst)
  | 0x10 => .ok (.shlShort f6 sa dst)
  | 0x11 => .ok (.shrShort f6 sa dst)
  | 0x12 => .ok (.sarShort f6 sa dst)
  | 0x13 => .ok (.rotShort f6 sa dst)
  | 0x14 => ok (f6 == 0) (.popcShort sa dst)
  | 0x15 => ok (f6 == 0) (.clzShort sa dst)
  | 0x16 => ok (f6 == 0) (.brevShort sa dst)
  | 0x19 => .ok (.icmpShort f6 sa dst)
  | 0x1B => .ok (.leaShort f6 sa dst)
  | 0x1C => ok (sa == 0) (.movShort f6 dst)
  | 0x20 => .ok (.faddShort f6 sa dst)
  | 0x21 => .ok (.fsubShort f6 sa dst)
  | 0x22 => .ok (.fmulShort f6 sa dst)
  | 0x23 => .ok (.fmaShort f6 sa dst)
  | 0x24 => .ok (.fdivShort f6 sa dst)
  | 0x25 => ok (f6 == 0) (.fsqrtShort sa dst)
  | 0x26 => ok (f6 == 0) (.frcpShort sa dst)
  | 0x27 => ok (f6 == 0) (.frsqShort sa dst)
  | 0x28 => .ok (.fminShort f6 sa dst)
  | 0x29 => .ok (.fmaxShort f6 sa dst)
  | 0x2A => ok (f6 == 0) (.fabsShort sa dst)
  | 0x2B => ok (f6 == 0) (.fnegShort sa dst)
  | 0x2C => .ok (.fcpsShort f6 sa dst)
  | 0x2D => .ok (.fcmpShort f6 sa dst)
  | 0x2E => ok (f6 == 0) (.fclsShort sa dst)
  | 0x2F => ok (f6 == 0) (.frndShort sa dst)
  | 0x34 => ok (f6 == 0) (.fexpShort sa dst)
  | 0x35 => ok (f6 == 0) (.flogShort sa dst)
  | 0x36 => ok (f6 == 0) (.fsinShort sa dst)
  | 0x37 => ok (f6 == 0) (.fcosShort sa dst)
  | 0x38 => ok (f6 == 0) (.ftanShort sa dst)
  | 0x39 => ok (f6 == 0) (.ftanhShort sa dst)
  | 0x3A => ok (f6 == 0) (.fatanShort sa dst)
  | 0x40 => .ok (.shflShort f6 sa dst)
  | 0x41 => .ok (.shflupShort f6 sa dst)
  | 0x42 => .ok (.shfldnShort f6 sa dst)
  | 0x43 => .ok (.shflxShort f6 sa dst)
  | 0x50 => .ok (.braShort (w.extractLsb' 10 22))
  | 0x52 => .ok (.callShort (w.extractLsb' 10 22))
  | 0x53 => ok (f6 == 0 && sa == 0 && dst == 0) (.retShort)
  | 0x54 => ok (w.extractLsb' 28 4 == 0) (.loopShort (w.extractLsb' 26 2) sa dst)
  | 0x55 => ok (f6 == 0 && sa == 0 && dst == 0) (.barWvShort)
  | 0x56 => ok (f6 == 0 && dst == 0) (.sleepShort sa)
  | 0x57 => ok (f6 == 0 && dst == 0) (.waitFullShort sa)
  | 0x58 => ok (sa == 0 && dst == 0) (.trapShort f6)
  | 0x59 => ok (f6 == 0 && sa == 0 && dst == 0) (.endShort)
  | 0x5A => ok (sa == 0 && dst == 0) (.msignShort f6)
  | 0x5C => ok (f6 == 0 && sa == 0 && dst == 0) (.yieldShort)
  | 0x5D => ok (f6 == 0 && sa == 0 && dst == 0) (.cmtWaitShort)
  | 0x60 => .ok (.ldShort f6 sa dst)
  | 0x61 => .ok (.stShort f6 sa dst)
  | 0x62 => ok (f6 == 0) (.ldsShort sa dst)
  | 0x63 => ok (f6 == 0) (.stsShort sa dst)
  | 0x64 => ok (f6 == 0) (.fillShort sa dst)
  | 0x65 => ok (f6 == 0) (.drainShort sa dst)
  | 0x66 => ok (f6 == 0 && dst == 0) (.seteShort sa)
  | 0x67 => ok (f6 == 0) (.pushShort sa dst)
  | 0x68 => ok (f6 == 0) (.popShort sa dst)
  | 0x69 => ok (f6 == 0) (.rbwaitShort sa dst)
  | 0x6A => ok (f6 == 0) (.rbrdShort sa dst)
  | 0x7B => ok (f6 == 0) (.rbaddShort sa dst)
  | 0x71 => ok (f6 == 0 && sa == 0 && dst == 0) (.fenceShort)
  | 0x77 => ok (dst == 0) (.prefShort f6 sa)
  | 0x7A => ok (dst == 0) (.flushShort f6 sa)
  | _ => .error .badLength

/-- Whether an opcode is assigned (R181). -/
def assigned (opc : Nat) : Bool :=
  [0x76, 0x77, 0x78, 0x79, 0x7A, 0x7B].contains opc || (0x01 ≤ opc && opc ≤ 0x1C) || (0x20 ≤ opc && opc ≤ 0x3B) ||
  (0x40 ≤ opc && opc ≤ 0x4B) || (0x50 ≤ opc && opc ≤ 0x5D) || (0x60 ≤ opc && opc ≤ 0x75) || (0x80 ≤ opc && opc ≤ 0x8B) ||
  (0x90 ≤ opc && opc ≤ 0x95) || (0x98 ≤ opc && opc ≤ 0x9D) || (0xA0 ≤ opc && opc ≤ 0xA5) || (0xB0 ≤ opc && opc ≤ 0xB3)

/-- Whether an opcode has a literal slot (R183, R184). -/
def litOpc (opc : Nat) : Bool :=
  [0x04, 0x0C, 0x0D, 0x0E, 0x10, 0x11, 0x12, 0x13, 0x19, 0x1A, 0x1C, 0x20, 0x21, 0x22, 0x23, 0x28, 0x29, 0x2D].contains opc

/-- The fields of extended words 1 and 2 beside the base word's (R168, R170, R172). -/
def extFields (f : Form) (w0 w1 w2 : Word) : Fields :=
  { form := f, dst := w0.extractLsb' 10 8, sa := w0.extractLsb' 18 8, sb := w1.extractLsb' 0 8, sc := w1.extractLsb' 8 8,
    km := w1.extractLsb' 16 3, kn := w1.getLsbD 19, epa := w1.getLsbD 20, epb := w1.getLsbD 21, epc := w1.getLsbD 22,
    scope := w1.extractLsb' 23 3, hint := w1.extractLsb' 26 2, rnd := w1.extractLsb' 28 2, mode := w1.extractLsb' 30 2, w2 := w2 }

/-- The fields of a short form with literal (R169, R173); the addend of FMA is DST (R184). -/
def litFields (l : DWord) (opc : Nat) (w0 : Word) : Fields :=
  { form := .shortLit l, dst := w0.extractLsb' 10 8, sa := w0.extractLsb' 18 8,
    sc := if opc = 0x23 then w0.extractLsb' 10 8 else 0 }

/-- A SUB that no instruction has is rejected. -/
def subOrError : Option Instr → Except DecodeError Instr
  | some i => .ok i
  | none => .error .unassignedSub

/-- The words of a form by LEN (R167). -/
def lenWords (w0 : Word) : Nat :=
  if w0.extractLsb' 0 2 = 0 then 1 else if w0.extractLsb' 0 2 = 3 then 5 else 3

/-- Parse the words of an instruction, the base word first (R167, R181). Total on any words. -/
def decode (ws : List Word) : Except DecodeError Instr :=
  match ws with
  | [] => .error .truncated
  | w0 :: rest =>
    let opc := (w0.extractLsb' 2 8).toNat
    let sub := (w0.extractLsb' 26 6).toNat
    if !assigned opc then .error .unassignedOpcode
    else if w0.extractLsb' 0 2 = 0 then decodeShort opc w0
    else if w0.extractLsb' 0 2 = 2 then
      match rest with
      | w1 :: w2 :: _ => subOrError (decodeSub opc sub (extFields .ext w0 w1 w2))
      | _ => .error .truncated
    else if !litOpc opc then .error .badLength
    else if w0.extractLsb' 0 2 = 1 then
      if opc = 0x1A then .error .badLength
      else match rest with
      | l0 :: l1 :: _ =>
        if sub = 0 then subOrError (decodeSub opc 0 (litFields (l1 ++ l0) opc w0)) else .error .reservedField
      | _ => .error .truncated
    else
      match rest with
      | w1 :: w2 :: l0 :: l1 :: _ => subOrError (decodeSub opc sub (extFields (.extLit (l1 ++ l0)) w0 w1 w2))
      | _ => .error .truncated

/-- The base word (R168). -/
def baseWord (f6 : BitVec 6) (sa dst : BitVec 8) (opc : BitVec 8) (len : BitVec 2) : Word := f6 ++ sa ++ dst ++ opc ++ len

/-- Extended word 1 (R170). -/
def extWord1 (x : Fields) : Word :=
  x.mode ++ x.rnd ++ x.hint ++ x.scope ++ BitVec.ofBool x.epc ++ BitVec.ofBool x.epb ++ BitVec.ofBool x.epa ++
    BitVec.ofBool x.kn ++ x.km ++ x.sc ++ x.sb

/-- The words of an extended instruction in its form (R167). -/
def encodeExt (d : Desc) (x : Fields) : List Word :=
  let opc := BitVec.ofNat 8 d.opc
  let sub := BitVec.ofNat 6 d.sub
  match x.form with
  | .short => []
  | .ext => [baseWord sub x.sa x.dst opc 2, extWord1 x, x.w2]
  | .shortLit l => [baseWord 0 x.sa x.dst opc 1, l.extractLsb' 0 32, l.extractLsb' 32 32]
  | .extLit l => [baseWord sub x.sa x.dst opc 3, extWord1 x, x.w2, l.extractLsb' 0 32, l.extractLsb' 32 32]

/-- The words of an instruction, from the encoding tables; an event has none. -/
def encode : Instr → List Word
  | .iaddShort b a d => [baseWord b a d 0x01 0]
  | .isubShort b a d => [baseWord b a d 0x02 0]
  | .imulShort b a d => [baseWord b a d 0x03 0]
  | .iaddImmShort i a d => [baseWord i a d 0x04 0]
  | .imadShort b a d => [baseWord b a d 0x05 0]
  | .idivShort b a d => [baseWord b a d 0x06 0]
  | .iremShort b a d => [baseWord b a d 0x07 0]
  | .iminShort b a d => [baseWord b a d 0x08 0]
  | .imaxShort b a d => [baseWord b a d 0x09 0]
  | .iabsShort a d => [baseWord 0 a d 0x0A 0]
  | .inegShort a d => [baseWord 0 a d 0x0B 0]
  | .andShort b a d => [baseWord b a d 0x0C 0]
  | .orShort b a d => [baseWord b a d 0x0D 0]
  | .xorShort b a d => [baseWord b a d 0x0E 0]
  | .notShort a d => [baseWord 0 a d 0x0F 0]
  | .shlShort c a d => [baseWord c a d 0x10 0]
  | .shrShort c a d => [baseWord c a d 0x11 0]
  | .sarShort c a d => [baseWord c a d 0x12 0]
  | .rotShort c a d => [baseWord c a d 0x13 0]
  | .popcShort a d => [baseWord 0 a d 0x14 0]
  | .clzShort a d => [baseWord 0 a d 0x15 0]
  | .brevShort a d => [baseWord 0 a d 0x16 0]
  | .icmpShort b a k => [baseWord b a k 0x19 0]
  | .leaShort b a d => [baseWord b a d 0x1B 0]
  | .movShort b d => [baseWord b 0 d 0x1C 0]
  | .faddShort b a d => [baseWord b a d 0x20 0]
  | .fsubShort b a d => [baseWord b a d 0x21 0]
  | .fmulShort b a d => [baseWord b a d 0x22 0]
  | .fmaShort b a d => [baseWord b a d 0x23 0]
  | .fdivShort b a d => [baseWord b a d 0x24 0]
  | .fsqrtShort a d => [baseWord 0 a d 0x25 0]
  | .frcpShort a d => [baseWord 0 a d 0x26 0]
  | .frsqShort a d => [baseWord 0 a d 0x27 0]
  | .fminShort b a d => [baseWord b a d 0x28 0]
  | .fmaxShort b a d => [baseWord b a d 0x29 0]
  | .fabsShort a d => [baseWord 0 a d 0x2A 0]
  | .fnegShort a d => [baseWord 0 a d 0x2B 0]
  | .fcpsShort b a d => [baseWord b a d 0x2C 0]
  | .fcmpShort b a k => [baseWord b a k 0x2D 0]
  | .fclsShort a d => [baseWord 0 a d 0x2E 0]
  | .frndShort a d => [baseWord 0 a d 0x2F 0]
  | .fexpShort a d => [baseWord 0 a d 0x34 0]
  | .flogShort a d => [baseWord 0 a d 0x35 0]
  | .fsinShort a d => [baseWord 0 a d 0x36 0]
  | .fcosShort a d => [baseWord 0 a d 0x37 0]
  | .ftanShort a d => [baseWord 0 a d 0x38 0]
  | .ftanhShort a d => [baseWord 0 a d 0x39 0]
  | .fatanShort a d => [baseWord 0 a d 0x3A 0]
  | .shflShort b a d => [baseWord b a d 0x40 0]
  | .shflupShort i a d => [baseWord i a d 0x41 0]
  | .shfldnShort i a d => [baseWord i a d 0x42 0]
  | .shflxShort i a d => [baseWord i a d 0x43 0]
  | .braShort i => [i ++ (0x50 : BitVec 8) ++ (0 : BitVec 2)]
  | .callShort i => [i ++ (0x52 : BitVec 8) ++ (0 : BitVec 2)]
  | .retShort => [baseWord 0 0 0 0x53 0]
  | .loopShort l a e => [baseWord ((0 : BitVec 4) ++ l) a e 0x54 0]
  | .barWvShort => [baseWord 0 0 0 0x55 0]
  | .sleepShort a => [baseWord 0 a 0 0x56 0]
  | .waitFullShort a => [baseWord 0 a 0 0x57 0]
  | .trapShort c => [baseWord c 0 0 0x58 0]
  | .endShort => [baseWord 0 0 0 0x59 0]
  | .msignShort g => [baseWord g 0 0 0x5A 0]
  | .yieldShort => [baseWord 0 0 0 0x5C 0]
  | .cmtWaitShort => [baseWord 0 0 0 0x5D 0]
  | .ldShort w a d => [baseWord w a d 0x60 0]
  | .stShort w a d => [baseWord w a d 0x61 0]
  | .ldsShort a d => [baseWord 0 a d 0x62 0]
  | .stsShort a d => [baseWord 0 a d 0x63 0]
  | .fillShort a d => [baseWord 0 a d 0x64 0]
  | .drainShort a d => [baseWord 0 a d 0x65 0]
  | .seteShort a => [baseWord 0 a 0 0x66 0]
  | .pushShort a d => [baseWord 0 a d 0x67 0]
  | .popShort a d => [baseWord 0 a d 0x68 0]
  | .rbwaitShort a d => [baseWord 0 a d 0x69 0]
  | .rbrdShort a d => [baseWord 0 a d 0x6A 0]
  | .rbaddShort a d => [baseWord 0 a d 0x7B 0]
  | .fenceShort => [baseWord 0 0 0 0x71 0]
  | .prefShort w a => [baseWord w a 0 0x77 0]
  | .flushShort w a => [baseWord w a 0 0x7A 0]
  | i => if isLane i then encodeExt (descExt i) (fieldsExt i) else []

/-- The words of the bits of the opcode table's numbering: bit 0 is the first word's least significant bit. -/
def wordsOfNat : Nat → Nat → List Word
  | 0, _ => []
  | n + 1, w => BitVec.ofNat 32 w :: wordsOfNat n (w / 2 ^ 32)

/-- The instruction that the decoder reads from an instruction whose bits are w, numbered as the opcode table numbers them;
bits above nbits are zero, up to the longest form of five words. -/
def decodeTableWord (nbits w : Nat) : Option Instr :=
  match decode (wordsOfNat 5 (w % 2 ^ nbits)) with
  | .ok i => if legal i then some i else none
  | .error _ => none

end Sys2Proof
end

