-- ==== Sys2Proof/Machine/Fp.lean ====
section
/-!
DEFINITION. Number formats and exact arithmetic (R90 to R105): a pattern is decoded into an exact value, an operation forms the
exact result, and `roundTo` rounds it once and raises the flags of R98. Exact values are sign, integer and power of two; a
quotient or a root is given by enough leading bits with a last bit that is set when anything was cut off, which rounds alike.
-/
namespace Sys2Proof.Machine

/-- A floating-point format (R90): width, fraction bits, bias, and whether it has infinities. -/
structure Fmt where
  w : Nat
  p : Nat
  bias : Nat
  hasInf : Bool := true
  deriving DecidableEq, Repr

def fp64 : Fmt := { w := 64, p := 52, bias := 1023 }
def fp32 : Fmt := { w := 32, p := 23, bias := 127 }
def bf16 : Fmt := { w := 16, p := 7, bias := 127 }
def fp16 : Fmt := { w := 16, p := 10, bias := 15 }
def e5m2 : Fmt := { w := 8, p := 2, bias := 15 }
def e4m3 : Fmt := { w := 8, p := 3, bias := 7, hasInf := false }

/-- The format of a floating type (R182). -/
def ftFmt : FT → Fmt
  | .f32 => fp32 | .f64 => fp64 | .f16 => fp16 | .bf16 => bf16

/-- The format of a conversion format (R182). -/
def cfFmt : CF → Fmt
  | .f32 => fp32 | .f64 => fp64 | .f16 => fp16 | .bf16 => bf16 | .e4m3 => e4m3 | .e5m2 => e5m2

/-- The rounding modes of RND (R97). -/
inductive Rm where
  | rne | rtz | rdn | rup
  deriving DecidableEq, Repr

/-- The mode that RND names (R97). -/
def rmOf (r : BitVec 2) : Rm :=
  if r = 0 then .rne else if r = 1 then .rtz else if r = 2 then .rdn else .rup

/-- An exact value: a finite one is (-1)^neg x m x 2^e, and a zero keeps its sign (R98). -/
inductive Ex where
  | nan
  | inf (neg : Bool)
  | fin (neg : Bool) (m : Nat) (e : Int)
  deriving DecidableEq, Repr

/-- The flags of WS (R111). -/
def fIX : BitVec 7 := 1
def fUF : BitVec 7 := 2
def fOF : BitVec 7 := 4
def fDZ : BitVec 7 := 8
def fIV : BitVec 7 := 16
def fSAT : BitVec 7 := 32
def fIDZ : BitVec 7 := 64

/-- The all-ones exponent value (R91). -/
def Fmt.eAll (f : Fmt) : Nat := 2 ^ (f.w - 1 - f.p) - 1

/-- The exponent of the smallest normal value (R92). -/
def Fmt.emin (f : Fmt) : Int := 1 - (f.bias : Int)

/-- The exponent of the largest finite values (R92). -/
def Fmt.emax (f : Fmt) : Int := ((f.eAll : Int) - (if f.hasInf then 1 else 0)) - (f.bias : Int)

/-- The largest finite pattern without its sign (R92). -/
def Fmt.top (f : Fmt) : Nat := if f.hasInf then f.eAll * 2 ^ f.p - 1 else f.eAll * 2 ^ f.p + (2 ^ f.p - 2)

/-- The pattern with a sign. -/
def Fmt.sgn (f : Fmt) (neg : Bool) (x : Nat) : Nat := if neg then 2 ^ (f.w - 1) + x else x

/-- The pattern of an infinity, and of the largest value where the format has none (R91, R98). -/
def Fmt.infPat (f : Fmt) (neg : Bool) : Nat := f.sgn neg (if f.hasInf then f.eAll * 2 ^ f.p else f.top)

/-- The one NaN pattern the part produces (R93). -/
def Fmt.nan (f : Fmt) : Nat := f.eAll * 2 ^ f.p + (if f.hasInf then 2 ^ (f.p - 1) else 2 ^ f.p - 1)

/-- The value of a pattern (R91). -/
def Fmt.val (f : Fmt) (x : Nat) : Ex :=
  let neg := bit x (f.w - 1)
  let e := x / 2 ^ f.p % (f.eAll + 1)
  let m := x % 2 ^ f.p
  if f.hasInf ∧ e = f.eAll then (if m = 0 then .inf neg else .nan)
  else if ¬ f.hasInf ∧ e = f.eAll ∧ m = 2 ^ f.p - 1 then .nan
  else if e = 0 then .fin neg m (f.emin - f.p)
  else .fin neg (2 ^ f.p + m) ((e : Int) - f.bias - f.p)

/-- Whether a remainder r of a cut of s bits rounds the magnitude n up (R97). -/
def roundsUp (mode : Rm) (neg : Bool) (n r s : Nat) : Bool :=
  match mode with
  | .rne => decide (2 ^ s < 2 * r) || (2 * r == 2 ^ s && n % 2 == 1)
  | .rtz => false
  | .rdn => neg && r != 0
  | .rup => !neg && r != 0

/-- A magnitude m x 2^e rounded to a multiple of 2^q: the multiple, and whether it is exact. -/
def cutTo (mode : Rm) (neg : Bool) (m : Nat) (e q : Int) : Nat × Bool :=
  if q ≤ e then (m * 2 ^ (e - q).toNat, true)
  else
    let s := (q - e).toNat
    let n := m / 2 ^ s
    let r := m % 2 ^ s
    (if roundsUp mode neg n r s then n + 1 else n, r == 0)

/-- round(x, fmt, mode) with the flags it raises (R98). -/
def roundTo (f : Fmt) (mode : Rm) : Ex → Nat × BitVec 7
  | .nan => (f.nan, 0)
  | .inf neg => (f.infPat neg, if f.hasInf then 0 else fIV)
  | .fin neg m e =>
    if m = 0 then (f.sgn neg 0, 0)
    else
      let lead := e + (Nat.log2 m : Nat)
      let tiny := decide (lead < f.emin)
      let q := (if tiny then f.emin else if f.emax < lead then f.emax else lead) - f.p
      let (n, exact) := cutTo mode neg m e q
      let x := (q - (f.emin - f.p)).toNat * 2 ^ f.p + n
      if f.top < x then
        let big := match mode with
          | .rne => f.infPat neg
          | .rtz => f.sgn neg f.top
          | .rdn => if neg then f.infPat neg else f.top
          | .rup => if neg then f.sgn neg f.top else f.infPat neg
        (if f.hasInf then big else f.sgn neg f.top, fOF ||| fIX)
      else (f.sgn neg x, if exact then 0 else if tiny then fIX ||| fUF else fIX)

/-- The sign of an exact zero sum of addends that are not all zeros of one sign (R99). -/
def zeroSign (mode : Rm) : Bool := mode == .rdn

/-- The exact signed integer of a finite value, in units of 2^e' for e' at most its exponent. -/
def scaled (neg : Bool) (m : Nat) (e e' : Int) : Int :=
  let n : Int := (m * 2 ^ (e - e').toNat : Nat)
  if neg then -n else n

/-- The exact sum, with the flag of opposite infinities (R99, R100). -/
def exAdd (mode : Rm) : Ex → Ex → Ex × BitVec 7
  | .nan, _ => (.nan, 0)
  | _, .nan => (.nan, 0)
  | .inf a, .inf b => if a = b then (.inf a, 0) else (.nan, fIV)
  | .inf a, .fin _ _ _ => (.inf a, 0)
  | .fin _ _ _, .inf b => (.inf b, 0)
  | .fin a m e, .fin b n k =>
    if m = 0 ∧ n = 0 then (.fin (if a = b then a else zeroSign mode) 0 0, 0)
    else if m = 0 then (.fin b n k, 0)
    else if n = 0 then (.fin a m e, 0)
    else
      let l := if e ≤ k then e else k
      let t := scaled a m e l + scaled b n k l
      if t = 0 then (.fin (zeroSign mode) 0 0, 0) else (.fin (decide (t < 0)) t.natAbs l, 0)

/-- The exact product, with the flag of 0 times infinity (R99, R100). -/
def exMul : Ex → Ex → Ex × BitVec 7
  | .nan, _ => (.nan, 0)
  | _, .nan => (.nan, 0)
  | .inf a, .inf b => (.inf (a != b), 0)
  | .inf a, .fin b n _ => if n = 0 then (.nan, fIV) else (.inf (a != b), 0)
  | .fin a m _, .inf b => if m = 0 then (.nan, fIV) else (.inf (a != b), 0)
  | .fin a m e, .fin b n k => (.fin (a != b) (m * n) (e + k), 0)

/-- A value with its sign changed. -/
def exNeg : Ex → Ex
  | .nan => .nan
  | .inf a => .inf (!a)
  | .fin a m e => .fin (!a) m e

/-- The quotient with its special values (R100); 80 leading bits and a last bit for what was cut off. -/
def exDiv : Ex → Ex → Ex × BitVec 7
  | .nan, _ => (.nan, 0)
  | _, .nan => (.nan, 0)
  | .inf _, .inf _ => (.nan, fIV)
  | .inf a, .fin b _ _ => (.inf (a != b), 0)
  | .fin a _ _, .inf b => (.fin (a != b) 0 0, 0)
  | .fin a m e, .fin b n k =>
    if n = 0 then (if m = 0 then (.nan, fIV) else (.inf (a != b), fDZ))
    else if m = 0 then (.fin (a != b) 0 0, 0)
    else
      let sh := 80 + Nat.log2 n - Nat.log2 m
      let q := m * 2 ^ sh / n
      let r := m * 2 ^ sh % n
      (.fin (a != b) (2 * q + (if r = 0 then 0 else 1)) (e - k - sh - 1), 0)

/-- The integer square root, by bits from bit n - 1 down, starting from r. -/
def isqrtFrom (x : Nat) : Nat → Nat → Nat
  | 0, r => r
  | n + 1, r => isqrtFrom x n (if (r + 2 ^ n) * (r + 2 ^ n) ≤ x then r + 2 ^ n else r)

/-- The integer square root. -/
def isqrt (x : Nat) : Nat := isqrtFrom x (Nat.log2 x / 2 + 1) 0

/-- The square root with its special values (R100). -/
def exSqrt : Ex → Ex × BitVec 7
  | .nan => (.nan, 0)
  | .inf false => (.inf false, 0)
  | .inf true => (.nan, fIV)
  | .fin a m e =>
    if m = 0 then (.fin a 0 0, 0)
    else if a then (.nan, fIV)
    else
      let sh : Nat := if e % 2 = 0 then 160 else 161
      let x := m * 2 ^ sh
      let r := isqrt x
      (.fin false (2 * r + (if r * r = x then 0 else 1)) ((e - sh) / 2 - 1), 0)

/-- The reciprocal with its special values (R100). -/
def exRcp : Ex → Ex × BitVec 7
  | .fin a m e => if m = 0 then (.inf a, fDZ) else exDiv (.fin false 1 0) (.fin a m e)
  | x => exDiv (.fin false 1 0) x

/-- The reciprocal square root with its special values (R100). -/
def exRsq : Ex → Ex × BitVec 7
  | .nan => (.nan, 0)
  | .inf false => (.fin false 0 0, 0)
  | .inf true => (.nan, fIV)
  | .fin a m e =>
    if m = 0 then (.inf a, fDZ)
    else if a then (.nan, fIV)
    else
      let e2 := if e % 2 = 0 then e else e - 1
      let m2 := if e % 2 = 0 then m else 2 * m
      let k := 80 + Nat.log2 m2
      let r := isqrt (2 ^ (2 * k) / m2)
      (.fin false (2 * r + (if r * r * m2 = 2 ^ (2 * k) then 0 else 1)) (-(e2 / 2) - k - 1), 0)

/-- Round an exact result once, with the flags of forming it (R100). -/
def finish (f : Fmt) (mode : Rm) (r : Ex × BitVec 7) : Nat × BitVec 7 :=
  let (x, fl) := roundTo f mode r.1
  (x, fl ||| r.2)

def fAdd (f : Fmt) (mode : Rm) (a b : Nat) : Nat × BitVec 7 := finish f mode (exAdd mode (f.val a) (f.val b))
def fSub (f : Fmt) (mode : Rm) (a b : Nat) : Nat × BitVec 7 := finish f mode (exAdd mode (f.val a) (exNeg (f.val b)))
def fMul (f : Fmt) (mode : Rm) (a b : Nat) : Nat × BitVec 7 := finish f mode (exMul (f.val a) (f.val b))
def fDiv (f : Fmt) (mode : Rm) (a b : Nat) : Nat × BitVec 7 := finish f mode (exDiv (f.val a) (f.val b))
def fSqrt (f : Fmt) (mode : Rm) (a : Nat) : Nat × BitVec 7 := finish f mode (exSqrt (f.val a))
def fRcp (f : Fmt) (mode : Rm) (a : Nat) : Nat × BitVec 7 := finish f mode (exRcp (f.val a))
def fRsq (f : Fmt) (mode : Rm) (a : Nat) : Nat × BitVec 7 := finish f mode (exRsq (f.val a))

/-- a x b + c formed exactly; a NaN operand gives NaN without a flag (R100). -/
def exFma (mode : Rm) (a b c : Ex) : Ex × BitVec 7 :=
  if a = .nan ∨ b = .nan ∨ c = .nan then (.nan, 0)
  else
    match exMul a b with
    | (.nan, fl) => (.nan, fl)
    | (p, _) => exAdd mode p c

/-- a x b + c rounded once (R100). -/
def fFma (f : Fmt) (mode : Rm) (a b c : Nat) : Nat × BitVec 7 := finish f mode (exFma mode (f.val a) (f.val b) (f.val c))

/-- Whether one exact number is below another; false when either is NaN. Zeros are equal. -/
def exLt : Ex → Ex → Bool
  | .nan, _ => false
  | _, .nan => false
  | .inf a, .inf b => a && !b
  | .inf a, .fin _ _ _ => a
  | .fin _ _ _, .inf b => !b
  | .fin a m e, .fin b n k =>
    let l := if e ≤ k then e else k
    decide (scaled a m e l < scaled b n k l)

/-- The sign of a value. -/
def exSign : Ex → Bool
  | .nan => false
  | .inf a => a
  | .fin a _ _ => a

/-- Whether a value is NaN. -/
def exNan : Ex → Bool
  | .nan => true
  | .inf _ => false
  | .fin _ _ _ => false

/-- Minimum or maximum of two patterns (R100). -/
def fMinMax (f : Fmt) (max : Bool) (a b : Nat) : Nat :=
  let x := f.val a
  let y := f.val b
  if exNan x ∧ exNan y then f.nan
  else if exNan x then b
  else if exNan y then a
  else
    let below := exLt x y || (!exLt y x && exSign x && !exSign y)
    if below != max then a else b

/-- A relation on exact values, with the flag of an unordered one (R100). -/
def fRel (r : Rel) (x y : Ex) : Bool × BitVec 7 :=
  if exNan x || exNan y then
    match r with
    | .eq => (false, 0)
    | .ne => (true, 0)
    | .lt | .le | .gt | .ge => (false, fIV)
  else
    match r with
    | .eq => (!exLt x y && !exLt y x, 0)
    | .ne => (exLt x y || exLt y x, 0)
    | .lt => (exLt x y, 0)
    | .le => (!exLt y x, 0)
    | .gt => (exLt y x, 0)
    | .ge => (!exLt x y, 0)

/-- A finite value rounded to an integer, and whether that changed it (R101). -/
def toInteger (mode : Rm) (neg : Bool) (m : Nat) (e : Int) : Int × Bool :=
  let (n, exact) := cutTo mode neg m e 0
  (if neg then -(n : Int) else n, !exact)

/-- Convert between formats (R101). -/
def fConvert (fd fs : Fmt) (mode : Rm) (a : Nat) : Nat × BitVec 7 := roundTo fd mode (fs.val a)

/-- The range of an integer type (R95). -/
def tyBits : IntTy → Nat
  | .s32 => 32 | .z32 => 32 | .s64 => 64 | .z64 => 64 | .s16 => 16 | .z16 => 16 | .s8 => 8 | .z8 => 8

def tySigned : IntTy → Bool
  | .s32 => true | .s64 => true | .s16 => true | .s8 => true | .z32 => false | .z64 => false | .z16 => false | .z8 => false

def tyMin (ty : IntTy) : Int := if tySigned ty then -(2 ^ (tyBits ty - 1) : Nat) else 0
def tyMax (ty : IntTy) : Int := if tySigned ty then (2 ^ (tyBits ty - 1) : Nat) - 1 else (2 ^ tyBits ty : Nat) - 1

/-- sat(x, type) (R95). -/
def satTo (ty : IntTy) (x : Int) : Int := if x < tyMin ty then tyMin ty else if tyMax ty < x then tyMax ty else x

/-- The value of a type in the low bits of a number (R95, R96). -/
def tyVal (ty : IntTy) (x : Nat) : Int := if tySigned ty then signed (tyBits ty) x else (x % 2 ^ tyBits ty : Nat)

/-- wrap(x, type) as the registers hold it: 32 bits, or 64 for the wide types, extended by sign or by zeros (R95, R96). -/
def tyPut (ty : IntTy) (x : Int) : Nat :=
  let y := (x % (2 ^ tyBits ty : Nat)).toNat
  if 32 ≤ tyBits ty then y else (tyVal ty y % (2 ^ 32 : Nat)).toNat

/-- wrap(x, type) as 64 bits, extended by sign or by zeros: what a wave register holds (R96). -/
def tyPut64 (ty : IntTy) (x : Int) : Nat := (tyVal ty (x % (2 ^ tyBits ty : Nat)).toNat % (2 ^ 64 : Nat)).toNat

/-- Convert a float to an integer type (R101). -/
def fToInt (fs : Fmt) (ty : IntTy) (mode : Rm) (a : Nat) : Nat × BitVec 7 :=
  match fs.val a with
  | .nan => (0, fIV)
  | .inf neg => (tyPut ty (if neg then tyMin ty else tyMax ty), fIV)
  | .fin neg m e =>
    let (t, changed) := toInteger mode neg m e
    if satTo ty t ≠ t then (tyPut ty (satTo ty t), fIV) else (tyPut ty t, if changed then fIX else 0)

/-- Convert an integer to a float (R101). -/
def fOfInt (fd : Fmt) (mode : Rm) (x : Int) : Nat × BitVec 7 := roundTo fd mode (.fin (decide (x < 0)) x.natAbs 0)

/-- A float rounded to an integral value of its format (R222). -/
def fIntegral (f : Fmt) (mode : Rm) (a : Nat) : Nat × BitVec 7 :=
  match f.val a with
  | .fin neg m e =>
    if 0 ≤ e then (a % 2 ^ f.w, 0)
    else
      let (n, exact) := cutTo mode neg m e 0
      ((roundTo f mode (.fin neg n 0)).1, if exact then 0 else fIX)
  | x => roundTo f mode x

/-- The value of an SC20 scale; none is an invalid scale (R104). -/
def scVal (x : Nat) : Option Ex :=
  let e := bits x 19 12
  if e = 255 then none
  else if e = 0 then some (.fin false 0 0)
  else some (.fin false (4096 + bits x 11 0) ((e : Int) - 127 - 12))

end Sys2Proof.Machine
end

