-- ==== Sys2Proof/Machine/Base.lean ====
section
/-!
DEFINITION. Named access to the parts of the state: cores, waves, lanes and their registers with full/empty bits (R35, R36,
R86, R96, R175, R383), the layout of the logical mesh (R26, R27), and fresh identities and free values of the model.
-/
namespace Sys2Proof.Machine

/-- A fresh identity. -/
def State.fresh (s : State) : Nat × State := (s.nid, { s with nid := s.nid + 1 })

/-- A free value of n bits: nothing constrains it (R3). -/
def State.freeBits (s : State) (n : Nat) : Nat × State := (Config.free s.ctr % 2 ^ n, { s with ctr := s.ctr + 1 })

/-- A choice among n possibilities that the manual leaves open. -/
def State.choose (s : State) (n : Nat) : Nat × State := (Config.pick s.ctr % n, { s with ctr := s.ctr + 1 })

/-- A core; one that is not listed is empty. -/
def State.coreAt (s : State) (c : Nat) : Core := lookD s.cores c {}

/-- Replace a core. -/
def State.setCore (s : State) (c : Nat) (k : Core) : State := { s with cores := put s.cores c k }

/-- Change a core. -/
def State.modCore (s : State) (c : Nat) (f : Core → Core) : State := s.setCore c (f (s.coreAt c))

/-- A resident wave. -/
def State.wave? (s : State) (wid : Nat) : Option Wave := look s.waves wid

/-- A resident wave, or an empty one. -/
def State.waveAt (s : State) (wid : Nat) : Wave := lookD s.waves wid {}

/-- Replace a wave. -/
def State.setWave (s : State) (wid : Nat) (w : Wave) : State := { s with waves := put s.waves wid w }

/-- Change a resident wave. -/
def State.modWave (s : State) (wid : Nat) (f : Wave → Wave) : State := { s with waves := modKey s.waves wid f }

/-- A lane of a wave; one beyond the width is absent. -/
def Wave.lane (w : Wave) (i : Nat) : Lane := w.lanes.getD i { present := false }

/-- Change a lane of a wave. -/
def Wave.modLane (w : Wave) (i : Nat) (f : Lane → Lane) : Wave := { w with lanes := modAt f w.lanes i }

/-- Change a lane. -/
def State.modLane (s : State) (wid i : Nat) (f : Lane → Lane) : State := s.modWave wid (fun w => w.modLane i f)

/-- A lane of a resident wave. -/
def State.laneAt (s : State) (wid i : Nat) : Lane := (s.waveAt wid).lane i

/-- Whether a lane holds work that can go on (R36, R37). -/
def Lane.live (l : Lane) : Bool := l.present && !l.ended

/-- A resident or saved wave, or an empty one. -/
def State.anyWave (s : State) (wid : Nat) : Wave :=
  match s.wave? wid with
  | some w => w
  | none =>
    match look s.saved wid with
    | some x => x.wave
    | none => {}

/-- Whether a lane of a resident or saved wave is still there. -/
def State.liveLane (s : State) (wid lane : Nat) : Bool := ((s.anyWave wid).lane lane).live

/-- Change a lane of a resident or saved wave. -/
def State.modLaneAny (s : State) (wid lane : Nat) (f : Lane → Lane) : State :=
  match s.wave? wid with
  | some _ => s.modLane wid lane f
  | none => { s with saved := modKey s.saved wid (fun x => { x with wave := x.wave.modLane lane f }) }

/-- The lane indices of a wave. -/
def Wave.idx (w : Wave) : List Nat := List.range w.lanes.length

/-- Lane register n (R35, R96). -/
def Lane.rv (l : Lane) (n : Nat) : Word := lookD l.v n 0

/-- The number that c lane registers from n hold, the lowest register lowest (R96, R269). -/
def Lane.read (l : Lane) (n : Nat) : Nat → Nat
  | 0 => 0
  | c + 1 => (l.rv n).toNat + 2 ^ 32 * l.read (n + 1) c

/-- Write one lane register and mark it full (R85). -/
def Lane.wv (l : Lane) (n : Nat) (x : Word) : Lane := { l with v := put l.v n x, ve := del l.ve n }

/-- Write c lane registers from n, full (R96). -/
def Lane.write (l : Lane) (n : Nat) : Nat → Nat → Lane
  | 0, _ => l
  | c + 1, x => (l.wv n (BitVec.ofNat 32 x)).write (n + 1) c (x / 2 ^ 32)

/-- Whether one of c lane registers from n is empty (R96, R177). -/
def Lane.emptyV (l : Lane) (n c : Nat) : Bool := (List.range c).any (fun k => has l.ve (n + k))

/-- Mark c lane registers from n empty, pending a producer (R85). -/
def Lane.setEmpty (l : Lane) (n c id : Nat) : Lane :=
  { l with ve := (List.range c).foldl (fun m k => put m (n + k) id) l.ve }

/-- The key of wave register n for a lane's level: a lane above user level reaches the supervisor w63 (R383). -/
def wKey (level : BitVec 2) (n : Nat) : Nat := if n = 63 ∧ level ≠ 0 then 64 else n

/-- Wave register n at a level. -/
def Wave.rw (w : Wave) (level : BitVec 2) (n : Nat) : DWord := lookD w.w (wKey level n) 0

/-- Write wave register n at a level, full. -/
def Wave.ww (w : Wave) (level : BitVec 2) (n : Nat) (x : DWord) : Wave :=
  { w with w := put w.w (wKey level n) x, we := del w.we (wKey level n) }

/-- Whether wave register n is empty at a level. -/
def Wave.emptyW (w : Wave) (level : BitVec 2) (n : Nat) : Bool := has w.we (wKey level n)

/-- The ones below the wave's width (R175). -/
def Wave.ones (w : Wave) : DWord := BitVec.ofNat 64 (2 ^ w.width - 1)

/-- Mask n; k0 reads as all ones at every lane (R175). -/
def Wave.rk (w : Wave) (n : Nat) : DWord := if n = 0 then w.ones else lookD w.k n 0

/-- Write mask n, full; bits at or above the width are dropped (R175). k0 is never a destination (R174). -/
def Wave.wk (w : Wave) (n : Nat) (x : DWord) : Wave :=
  if n = 0 then w else { w with k := put w.k n (x &&& w.ones), ke := del w.ke n }

/-- Whether mask n is empty; k0 is always full (R175). -/
def Wave.emptyK (w : Wave) (n : Nat) : Bool := n != 0 && has w.ke n

/-- Raise sticky flags, now (R111, R112). -/
def Wave.flag (w : Wave) (f : BitVec 7) : Wave := { w with ws := w.ws ||| f, wsCycle := w.wsCycle ||| f }

/-- Logical x of a core index 15y + x (R385). -/
def coreX (c : Nat) : Nat := c % 15

/-- Logical y of a core index. -/
def coreY (c : Nat) : Nat := c / 15

/-- The cluster of a core (R27). -/
def clusterOf (c : Nat) : Nat := 5 * coreY c + coreX c / 3

/-- A core's position in its cluster (R27). -/
def posInCluster (c : Nat) : Nat := coreX c % 3

/-- The core at a position of a cluster (R27). -/
def coreOfCluster (k p : Nat) : Nat := 15 * (k / 5) + 3 * (k % 5) + p

/-- Word 0 of a lane's trap record without SEQ (R392). -/
def recordWord0 (kind ret noPc disc priv slot core : Nat) : Nat :=
  kind * 2 ^ 56 + ret * 2 ^ 55 + noPc * 2 ^ 54 + disc * 2 ^ 53 + priv * 2 ^ 51 + slot * 2 ^ 44 + coreY core * 2 ^ 40 + coreX core * 2 ^ 36

/-- The home slice of a physical address (R120). -/
def homeSlice (pa : Nat) : Nat :=
  ((((bits pa 12 7 ^^^ bits pa 18 13) ^^^ bits pa 24 19) ^^^ bits pa 30 25) ^^^ bits pa 36 31) ^^^ bits pa 42 37

/-- The channel of a line of the GDDR-7 tier: two channels for each slice, chosen by two bits of the address (R120). -/
def gddrChannel (pa : Nat) : Nat := 2 * homeSlice pa + (bits pa 13 13 ^^^ bits pa 20 20)

/-- The line of a physical address (R120). -/
def lineOf (pa : Nat) : Nat := pa / 128 * 128

/-- The lines that n bytes touch. -/
def linesOf (pa n : Nat) : List Nat :=
  if n = 0 then [] else (List.range ((pa + n - 1) / 128 - pa / 128 + 1)).map (fun k => lineOf pa + 128 * k)

/-- A 64-bit word made of a number. -/
def dw (x : Nat) : DWord := BitVec.ofNat 64 x

/-- Sign extension of a number of n bits to 64 bits (R172, R236). -/
def sx64 (n x : Nat) : Nat := (signed n x % 2 ^ 64).toNat

/-- The signed value of a word. -/
def Word.int (w : Word) : Int := w.toInt

end Sys2Proof.Machine
end

