-- ==== Sys2Proof/Machine/Sys.lean ====
section
/-!
DEFINITION. System registers as data: the map of NUM values with their instances and levels (R385, R404 to R425, R427, R439,
R441, R454, the link registers of R444 to R450), their reset values, and named fields. What a write does beyond storing its
writable bits stands in SysWrite.
-/
namespace Sys2Proof.Machine

/-- What INDEX selects (R385, R454). -/
inductive Inst where
  | part | vi | core | cluster | lane | slice | upTo (n : Nat)
  deriving DecidableEq, Repr

/-- One register of the map: its instance, and the least level that may read and that may write it. -/
structure SysReg where
  inst : Inst
  rd : Nat := 1
  wr : Nat := 1
  deriving DecidableEq, Repr

/-- The assigned NUM values (R385, R404, R405, R406, R411, R412, R417, R422, R425, R426, R427, R439, R441, R454). -/
def sysReg? (num : Nat) : Option SysReg :=
  match num with
  | 0x0000 | 0x0001 => some { inst := .part }
  | 0x0002 => some { inst := .core }
  | 0x0008 => some { inst := .part, wr := 2 }
  | 0x0010 | 0x0011 | 0x0012 | 0x0013 | 0x0018 | 0x0019 | 0x001A => some { inst := .vi }
  | 0x001F => some { inst := .vi, rd := 2, wr := 2 }
  | 0x0030 | 0x0031 => some { inst := .cluster }
  | 0x0200 => some { inst := .upTo 16, rd := 2, wr := 2 }
  | 0x0201 => some { inst := .vi, rd := 2, wr := 2 }
  | 0x0202 => some { inst := .vi, wr := 2 }
  | 0x0203 | 0x0204 | 0x0205 => some { inst := .vi }
  | 0x0206 => some { inst := .part, wr := 2 }
  | 0x0207 => some { inst := .part, rd := 2, wr := 2 }
  | 0x0208 | 0x0209 | 0x020A | 0x020C | 0x020D | 0x020E | 0x020F => some { inst := .vi }
  | 0x0300 => some { inst := .vi }
  | 0x0302 => some { inst := .vi, rd := 2, wr := 2 }
  | 0x0304 | 0x0305 => some { inst := .upTo 64, wr := 2 }
  | 0x0400 => some { inst := .part }
  | 0x0401 => some { inst := .part, rd := 2, wr := 2 }
  | 0x0402 => some { inst := .part, wr := 2 }
  | 0x0404 => some { inst := .part }
  | 0x0408 => some { inst := .upTo 64 }
  | 0x0409 => some { inst := .upTo 64, rd := 2, wr := 2 }
  | 0x0440 => some { inst := .upTo 64 }
  | 0x04C0 | 0x04C1 | 0x04C2 => some { inst := .vi, rd := 2, wr := 2 }
  | 0x04C4 => some { inst := .part, wr := 2 }
  | 0x04C8 => some { inst := .upTo 4, rd := 2, wr := 2 }
  | n =>
    if 0x40 ≤ n ∧ n ≤ 0x4F then some { inst := .core }
    else if 0x80 ≤ n ∧ n ≤ 0x84 then some { inst := .lane }
    else if 0x100 ≤ n ∧ n ≤ 0x12F then some { inst := .core }
    else if 0x410 ≤ n ∧ n ≤ 0x41F then some { inst := .core }
    else if 0x420 ≤ n ∧ n ≤ 0x43F then some { inst := .slice }
    else none

/-- The rows that remain to be fused off, the lowest first, in 7-bit entries: each is one of the 68 rows from `lo` up, with room for those
after it (R33, R386). -/
def fuseRows (x : Nat) : Nat → Nat → Nat → Nat
  | 0, i, _ => if i < 4 then (2 ^ (7 * (4 - i)) - 1) * 2 ^ (7 * i) else 0
  | n + 1, i, lo =>
    let r := lo + x / 128 ^ i % 128 % (68 - n - lo)
    r * 2 ^ (7 * i) + fuseRows x n (i + 1) (r + 1)

/-- SYS.MFUSE of a core (R386): NF, at most 4, and the rows fused off in rising order; an unused entry reads 0x7F. -/
def mfuseOf (x : Nat) : Nat :=
  let nf := bits x 30 28 % 5
  nf * 2 ^ 28 + fuseRows x nf 0 0

/-- The values that registers hold after a reset that reaches them (R386, R387, R411, R425, R426, R464). -/
def sysReset (num index : Nat) : Nat :=
  match num with
  | 0x0000 => 0x8412 * 2 ^ 48 + Config.stepping.toNat * 2 ^ 40 + 0xB4 * 2 ^ 32 + 0x40 * 2 ^ 24 + 0x40 * 2 ^ 16 + 0x3C * 2 ^ 8 + 1
  | 0x0001 => Config.meshCol.toNat
  | 0x0002 => mfuseOf (Config.mfuse index).toNat
  | 0x0011 => 0x3B9ACA00000F4240
  | 0x0202 => 0x000F424000010000
  | 0x0206 => 0x00989680
  | 0x0207 => 0x10
  | 0x0404 => 0x0A8C * 2 ^ 16
  | _ => 0

/-- The value a system register holds. -/
def State.sysAt (s : State) (num index : Nat) : Nat :=
  match look s.sys (sysKey num index) with
  | some v => v.toNat
  | none => sysReset num index % 2 ^ 64

/-- Put a value into a system register. -/
def State.sysPut (s : State) (num index v : Nat) : State := { s with sys := put s.sys (sysKey num index) (dw v) }

/-- Bits [hi:lo] of a system register. -/
def State.sysBits (s : State) (num index hi lo : Nat) : Nat := bits (s.sysAt num index) hi lo

/-- Replace bits [hi:lo] of a number. -/
def setBits (x hi lo v : Nat) : Nat := x - bits x hi lo * 2 ^ lo + v % 2 ^ (hi + 1 - lo) * 2 ^ lo

/-- Replace bits [hi:lo] of a system register. -/
def State.sysSetBits (s : State) (num index hi lo v : Nat) : State :=
  s.sysPut num index (setBits (s.sysAt num index) hi lo v)

/-- SYS.VITIME.BARTO of an interface (R387). -/
def State.barto (s : State) (vi : Nat) : Nat := s.sysBits 0x11 vi 63 32

/-- SYS.VITIME.ORDTO of an interface (R387). -/
def State.ordto (s : State) (vi : Nat) : Nat := s.sysBits 0x11 vi 31 0

/-- When a wait that starts now runs into its interface's default time-out (R82, R387): 0 for never. -/
def State.deadline (s : State) (vi : Nat) : Nat := if s.barto vi = 0 then 0 else s.gt + s.barto vi

/-- Whether a time-out has fallen due. -/
def State.expired (s : State) (due : Nat) : Bool := due != 0 && decide (due ≤ s.gt)

/-- Whether an interface has been stopped (R387, R400). -/
def State.stopped (s : State) (vi : Nat) : Bool := s.sysBits 0x10 vi 5 5 == 1

/-- The partition of an interface, when it is assigned to one (R405). -/
def State.partOf (s : State) (vi : Nat) : Option Nat :=
  if s.sysBits 0x201 vi 63 63 = 1 then some (s.sysBits 0x201 vi 3 0) else none

/-- Whether a core lies in an enabled partition's rectangle (R404). -/
def State.coreInPart (s : State) (p core : Nat) : Bool :=
  let r := s.sysAt 0x200 p
  let x := coreX core
  let y := coreY core
  bits r 63 63 == 1 && decide (bits r 3 0 ≤ x) && decide (x ≤ bits r 3 0 + bits r 11 8) &&
    decide (bits r 7 4 ≤ y) && decide (y ≤ bits r 7 4 + bits r 15 12)

/-- Whether a core lies in an interface's partition (R384). -/
def State.coreOfVi (s : State) (vi core : Nat) : Bool :=
  match s.partOf vi with
  | some p => s.coreInPart p core
  | none => false

/-- The current mode of bank i of a cluster (R125, R126). -/
def State.bankMode (s : State) (cluster i : Nat) : Nat := s.sysBits 0x30 cluster (2 * i + 1) (2 * i)

/-- The bank of the part that holds an offset of a core's window: 24 x cluster + index (R117, R124). -/
def bankOf (core off : Nat) : Nat := 24 * clusterOf core + 8 * posInCluster core + off / 0x30000

/-- The current mode of a bank of the part. -/
def State.modeOf (s : State) (bank : Nat) : Nat := s.bankMode (bank / 24) (bank % 24)

/-- Whether INDEX is accepted by a register, and the instance it names for a lane of an interface and core (R385, R454). -/
def sysIndex (r : SysReg) (vi core index : Nat) : Option Nat :=
  match r.inst with
  | .part => if index = 0xFF then some 0xFF else none
  | .lane => if index = 0xFF then some 0xFF else none
  | .vi => if index = 0xFF then (if vi < 64 then some vi else none) else if index < 64 then some index else none
  | .core => if index = 0xFF then some core else if index < 180 then some index else none
  | .cluster => if index = 0xFF then some (clusterOf core) else if index < 60 then some index else none
  | .slice => if index < 64 then some index else none
  | .upTo n => if index < n then some index else none

/-- Whether supervisor code of an interface may name an instance: its own interface, and the cores and clusters of its own
partition (R384). -/
def State.mayName (s : State) (r : SysReg) (vi i : Nat) : Bool :=
  match r.inst with
  | .vi => i == vi
  | .core => s.coreOfVi vi i
  | .cluster => (List.range 3).all (fun p => s.coreOfVi vi (coreOfCluster i p))
  | .part => true | .lane => true | .slice => true | .upTo _ => true

/-- A sign register as its three 64-bit words show it (R256). -/
def signWord (g : Sign) (w : Nat) : Nat :=
  match w with
  | 0 => bCode g.armed * 2 ^ 63 + g.slot * 2 ^ 58
  | 1 => g.set.toNat
  | _ => g.signed.toNat

/-- What a read of a register that does not belong to a lane returns (R8, R385). -/
def State.sysRead (s : State) (num i : Nat) : Nat :=
  if 0x40 ≤ num ∧ num ≤ 0x4F then
    match (s.coreAt i).shadow[num - 0x40]? with
    | some (_, vi, pc) => 2 ^ 63 + vi * 2 ^ 57 + bits pc 56 2 * 4
    | none => 0
  else if 0x100 ≤ num ∧ num ≤ 0x12F then signWord (lookD (s.coreAt i).signs ((num - 0x100) / 3) {}) ((num - 0x100) % 3)
  else if num = 0x0440 then lookD s.hist i 0
  else if num = 0x0204 ∨ num = 0x0401 ∨ num = 0x0409 then 0
  else s.sysAt num i

/-- What a read of a per-lane register returns (R388). -/
def laneSysRead (l : Lane) (num : Nat) : DWord :=
  match num with
  | 0x80 => l.tpc
  | 0x81 => l.tsv
  | 0x82 => dw (l.level.toNat * 16 + bCode l.inh * 8 + bCode l.disc * 4 + l.prv.toNat)
  | 0x83 => l.ks0
  | _ => l.ks1

/-- What a write of a per-lane register does (R388). -/
def laneSysWrite (l : Lane) (num : Nat) (v : DWord) : Lane :=
  match num with
  | 0x80 => { l with tpc := v &&& 0x01FFFFFFFFFFFFFC }
  | 0x81 => { l with tsv := v }
  | 0x82 => { l with prv := v.setWidth 2 }
  | 0x83 => { l with ks0 := v }
  | _ => { l with ks1 := v }

/-- Add events to a counter, which wraps at 2^48 and then sets OVF (R460). -/
def State.addCount (s : State) (num index n : Nat) : State :=
  let c := s.sysAt num index
  let t := bits c 47 0 + n
  s.sysPut num index (if 2 ^ 48 ≤ t then 2 ^ 63 + t % 2 ^ 48 else bits c 63 63 * 2 ^ 63 + t)

/-- The interface that a selector's filter names (R460). -/
def selVi (e : Nat) : Option Nat := if bits e 61 61 = 1 then some (bits e 60 55) else none

/-- Count events of a core (R460, R461): `f` tells how many an interface filter and the USER filter let through. They are counted by the
selectors as they stood at the start of the cycle, and enter the counters at its end. -/
def State.countWhere (s : State) (core code : Nat) (f : Option Nat → Bool → Nat) : State :=
  let sels := (s.coreAt core).sels
  let new := (List.range sels.length).filterMap (fun k =>
    let e := sels.getD k 0
    let n := f (selVi e) (bit e 62)
    if bits e 63 63 = 1 ∧ bits e 9 0 = code ∧ n ≠ 0 then some (k, n) else none)
  if new.isEmpty then s else s.modCore core (fun c => { c with counts := c.counts ++ new })

/-- Count events of one interface, of a user lane or not. -/
def State.countCore (s : State) (core vi : Nat) (user : Bool) (code n : Nat) : State :=
  s.countWhere core code (fun v u => if (v.isNone || v == some vi) && (!u || user) then n else 0)

/-- The end of a core's cycle for its counters: its events are added to them, and the selectors apply that the cycle has left (R460). -/
def State.turnCounters (s : State) (core : Nat) : State :=
  let s := (s.coreAt core).counts.foldl (fun s (k, n) => s.addCount (0x418 + k) core n) s
  let sels := (List.range 8).map (fun k => s.sysAt (0x410 + k) core)
  s.modCore core (fun c => { c with counts := [], sels := if sels.any (fun e => bit e 63) then sels else [] })

/-- Count an event in the counters of a slice (R460, R461). -/
def State.countSlice (s : State) (slice vi code n : Nat) : State :=
  (List.range 16).foldl (fun s k =>
    let e := s.sysAt (0x420 + k) slice
    if bits e 63 63 = 1 ∧ bits e 9 0 = code ∧ ((selVi e).isNone || selVi e == some vi) = true then s.addCount (0x430 + k) slice n else s) s

/-- Count once in a slice what several interfaces share in (R460, R461). -/
def State.countShared (s : State) (slice : Nat) (vis : List Nat) (code n : Nat) : State :=
  (List.range 16).foldl (fun s k =>
    let e := s.sysAt (0x420 + k) slice
    if bits e 63 63 = 1 ∧ bits e 9 0 = code ∧ (match selVi e with | some v => vis.contains v | none => true) = true then
      s.addCount (0x430 + k) slice n
    else s) s

end Sys2Proof.Machine
end

