-- ==== Sys2Proof/Machine/Mem.lean ====
section
/-!
DEFINITION. Memory as bytes by physical address with a canonical form (R119, R453), the views that agents have of stores not
yet performed (R142, R144), translation with the page classes (R427 to R437, R440), fetch through the instruction cache
(R77, R123, R167), and the checks of scratchpad addresses (R116, R117, R128).
-/
namespace Sys2Proof.Machine

/-- The canonical form of memory: addresses strictly rising. No byte an unlisted address reads as can be listed: an unlisted
byte reads as an undefined value of its own (R453). -/
def Memory.wf (m : List Host.Cell) : Bool := rising m

/-- What a byte of memory reads as (R453): the byte last stored, or one fixed undefined value. -/
def Memory.read (m : List Host.Cell) (pa : Nat) : Byte := lookD m pa (Config.coldByte pa)

/-- Store one byte. -/
def Memory.write (m : List Host.Cell) (pa : Nat) (b : Byte) : List Host.Cell := put m pa b

/-- Store bytes from an address up. -/
def Memory.writes (m : List Host.Cell) (pa : Nat) : List Byte → List Host.Cell
  | [] => m
  | b :: t => Memory.writes (Memory.write m pa b) (pa + 1) t

/-- A byte as performed at the home slices. -/
def State.byteAt (s : State) (pa : Nat) : Byte := Memory.read s.mem pa

/-- n bytes as performed at the home slices, as a little-endian number (R6). -/
def State.numAt (s : State) (pa n : Nat) : Nat := ofBytes ((List.range n).map (fun k => s.byteAt (pa + k)))

/-- The five levels of a walk: level, lowest index bit, index bits (R428). -/
def walkLevels : List (Nat × Nat × Nat) := [(4, 48, 9), (3, 39, 9), (2, 30, 9), (1, 21, 9), (0, 16, 5)]

/-- The entries of a table of 2^n that memory lists, with their values (R428, R429). -/
def State.entriesOf (s : State) (table n : Nat) : List (Nat × Nat) :=
  (s.mem.filter (fun (a, _) => decide (table ≤ a) && decide (a < table + 8 * 2 ^ n) && (a - table) % 8 == 0)).map (fun (a, _) => (a, s.numAt a 8))

/-- Whether a table, or one below it, holds an entry at an address (R428 to R430). -/
def State.underTable (s : State) (pa : Nat) : List (Nat × Nat × Nat) → Nat → Bool
  | [], _ => false
  | (_, _, n) :: rest, table =>
    (s.entriesOf table n).any (fun (a, e) => a == pa || (bits e 2 0 == 1 && s.underTable pa rest (bits e 47 8 * 2 ^ 8)))

/-- Whether a word holds a valid leaf: in a table of an interface that translates, or one that a translation cache has (R427 to R430). -/
def State.leafWord (s : State) (pa : Nat) : Bool :=
  (List.range 8).all (fun k => has s.mem (pa + k)) && bits (s.numAt pa 8) 2 0 == 3 &&
  (s.tlb.any (fun e => e.leafPa == pa) ||
   (List.range 64).any (fun v => bits (s.sysAt 0x300 v) 63 63 == 1 && s.underTable pa walkLevels (bits (s.sysAt 0x300 v) 47 12 * 2 ^ 12)))

/-- What a store that changes a word from its value in `s` makes of the marks (R432): a valid leaf that changes gets a mark, one that took V = 0 and
becomes valid with another value is changed otherwise than the rule allows wherever no XLINV came between. -/
def State.markLeaf (s t : State) (pa : Nat) : State :=
  let (old, new) := (s.numAt pa 8, t.numAt pa 8)
  if s.leafWord pa then
    (if old = new then t else { t with leaves := { leafPa := pa, val := dw old, stale := bit new 0 } :: t.leaves })
  else if t.leaves.any (fun m => m.leafPa == pa && !m.stale) then
    (if bit new 0 then
       { t with leaves := t.leaves.filterMap (fun m =>
           if m.leafPa = pa ∧ m.stale = false then (if m.val = dw new then none else some { m with stale := true }) else some m) }
     else t)
  else t

/-- The marks after a store of n bytes, whose state before was `s`. -/
def State.markLeaves (s : State) (pa n : Nat) (t : State) : State :=
  ((List.range ((pa % 8 + n + 7) / 8)).map (fun k => pa / 8 * 8 + 8 * k)).foldl (fun t a => s.markLeaf t a) t

/-- Store bytes at the home slices; bytes of a poisoned line count toward clearing its poison (R462). -/
def State.storeBytes (s : State) (pa : Nat) (bs : List Byte) : State :=
  let touched := (List.range bs.length).map (fun k => pa + k)
  let poison := s.poison.filterMap (fun (l, got) =>
    let got' := (touched.filter (fun a => lineOf a == l && !got.contains a)) ++ got
    if 128 ≤ got'.length then none else some (l, got'))
  s.markLeaves pa bs.length { s with mem := Memory.writes s.mem pa bs, poison := poison }

/-- Whether a byte of a range lies in a poisoned line (R462). -/
def State.poisoned (s : State) (pa n : Nat) : Bool := (List.range n).any (fun k => has s.poison (lineOf (pa + k)))

/-- Whether a physical address lies in the module's memory (R119). -/
def isMemory (pa : Nat) : Bool := decide (pa < 2 ^ 38) || (decide (2 ^ 40 ≤ pa) && decide (pa < 2 ^ 41))

/-- Whether a physical address lies in the GDDR-7 tier (R119). -/
def isGddr (pa : Nat) : Bool := decide (pa < 2 ^ 38)

/-- Whether a physical address lies in the host window (R440). -/
def isHostPa (pa : Nat) : Bool := decide (2 ^ 46 ≤ pa) && decide (pa < 2 ^ 47)

/-- Whether a physical address lies in a peer's window (R440). -/
def isPeerPa (pa : Nat) : Bool := decide (2 ^ 47 ≤ pa) && decide (pa < 2 ^ 48)

/-- The peer index of a peer address (R440). -/
def peerOf (pa : Nat) : Nat := (pa - 2 ^ 47) / 2 ^ 41

/-- Whether a store in flight covers a byte. -/
def Op.covers (o : Op) (pa : Nat) : Bool := decide (o.pa ≤ pa) && decide (pa < o.pa + o.size)

/-- The byte that a store writes at an address it covers. -/
def Op.byte (o : Op) (pa : Nat) : Byte := BitVec.ofNat 8 (o.data / 2 ^ (8 * (pa - o.pa)))

/-- Whether an operation in flight is a plain store to a line. -/
def Op.isStore (o : Op) : Bool :=
  match o.act with
  | .store => true
  | _ => false

/-- The last of the stores a test admits that cover a byte, by a rank. -/
def lastStore (ops : FMap Op) (pa : Nat) (p : Nat → Op → Bool) (rank : Nat → Op → Nat) : Option (Nat × Op) :=
  ops.foldl (fun best (id, o) =>
    if o.isStore && o.place == .line && o.covers pa && p id o then
      match best with
      | some (i, b) => if rank i b ≤ rank id o then some (id, o) else best
      | none => some (id, o)
    else best) none

/-- The store that a lane's load with identity `id` reads a byte from, when it is not yet performed: the lane's own (step 1
of R142), one in its core's L1 (step 2), one in its cluster's cache (step 3) (R144, R145). -/
def State.pendingStore (s : State) (wid lane core id pa : Nat) : Option (Nat × Op) :=
  match lastStore s.ops pa (fun i o => o.vis == 1 && o.wid == wid && o.lane == lane && decide (i < id)) (fun i _ => i) with
  | some r => some r
  | none =>
    match lastStore s.ops pa (fun i o => o.vis == 2 && o.core == core && !(o.wid == wid && o.lane == lane && decide (id < i)))
        (fun _ o => o.stamp) with
    | some r => some r
    | none =>
      lastStore s.ops pa (fun i o => o.vis == 3 && clusterOf o.core == clusterOf core && !(o.wid == wid && o.lane == lane && decide (id < i)))
        (fun _ o => o.stamp)

/-- A byte as a lane's load sees it (R144). -/
def State.viewByte (s : State) (wid lane core id pa : Nat) : Byte :=
  match s.pendingStore wid lane core id pa with
  | some (_, o) => o.byte pa
  | none => s.byteAt pa

/-- A byte as it stands for an agent of the device: a store to a private page counts once it is in its owner's L1 (R435). -/
def State.deviceByte (s : State) (pa : Nat) : Byte :=
  match lastStore s.ops pa (fun _ o => o.priv && o.vis == 2) (fun _ o => o.stamp) with
  | some (_, o) => o.byte pa
  | none => s.byteAt pa

/-- n bytes as they stand for an agent of the device. -/
def State.deviceNum (s : State) (pa n : Nat) : Nat := ofBytes ((List.range n).map (fun k => s.deviceByte (pa + k)))

/-- What translating an access answers. -/
inductive Xlat where
  /-- The physical address, whether the page is private, and whether it is a D page. -/
  | ok (pa : Nat) (priv dpage : Bool)
  /-- A fault, with the word of INFO that differs from the access's own: the structure's address for kind 0x0A. -/
  | fault (kind info : Nat)
  /-- The page is in transit; the leaf's address. -/
  | wait (leaf : Nat)
  deriving DecidableEq, Repr

/-- Who makes an access (R431, R433). -/
inductive Agent where
  | lane | atomic | engine
  deriving DecidableEq, Repr

/-- The reserved bits of a leaf (R430), with the PFN bits that must be zero for its page size. -/
def leafReserved (level leaf : Nat) : Bool :=
  bits leaf 53 48 != 0 || bits leaf 15 12 != 0 || bits leaf 9 8 != 0 || bits leaf 3 3 != 0 || bits leaf 55 54 == 3 ||
  (bits leaf 55 54 == 1 && decide (179 < bits leaf 63 56)) || (bits leaf 6 6 == 1 && bits leaf 11 11 == 1) ||
  (level == 1 && bits leaf 20 16 != 0) || (level == 2 && bits leaf 29 16 != 0)

/-- Whether a leaf may name its physical address (R431, R440). -/
def leafPaFault (leaf : Nat) : Option Nat :=
  let pa := bits leaf 47 16 * 2 ^ 16
  if isPeerPa pa || isHostPa pa then (if bits leaf 10 10 = 1 ∨ bits leaf 55 54 = 2 then none else some 0x0A)
  else if isMemory pa then none else some 0x06

/-- A walk from a table at a level: the leaf's address, value and page size, or the fault (R428 to R431); an entry in a poisoned line is an address
fault, which INFO tells by the cause 2 (R462). -/
def walkFrom (s : State) (va : Nat) : List (Nat × Nat × Nat) → Nat → Except (Nat × Nat) (Nat × Nat × Nat)
  | [], _ => .error (0x08, 0)
  | (level, lo, n) :: rest, table =>
    if !isGddr table then .error (0x06, 0)
    else
      let at_ := table + 8 * bits va (lo + n - 1) lo
      let e := s.numAt at_ 8
      if s.poisoned at_ 8 then .error (0x06, 2)
      else if bits e 0 0 = 0 then .error (0x08, 0)
      else if bits e 2 1 = 0 then
        if level = 0 ∨ bits e 63 48 ≠ 0 ∨ bits e 7 3 ≠ 0 ∨ (level ≠ 1 ∧ bits e 11 8 ≠ 0) then .error (0x0A, at_)
        else walkFrom s va rest (bits e 47 8 * 2 ^ 8)
      else if bits e 2 1 = 1 then
        if 2 < level ∨ leafReserved level e then .error (0x0A, at_)
        else
          match leafPaFault e with
          | some k => .error (k, if k = 0x0A then at_ else 0)
          | none => .ok (at_, e, if level = 0 then 16 else if level = 1 then 21 else 30)
      else .error (0x0A, at_)

/-- The pointer entries that a walk passes: the lowest bit of each one's level, and the table it names (R429). -/
def walkPtrs (s : State) (va : Nat) : List (Nat × Nat × Nat) → Nat → List (Nat × Nat)
  | [], _ => []
  | (_, lo, n) :: rest, table =>
    let e := s.numAt (table + 8 * bits va (lo + n - 1) lo) 8
    if bits e 0 0 = 1 ∧ bits e 2 1 = 0 then (lo, bits e 47 8 * 2 ^ 8) :: walkPtrs s va rest (bits e 47 8 * 2 ^ 8) else []

/-- Where a core's walk may start: at the root, or below a pointer that its walk cache holds (R437). -/
def State.walkStarts (s : State) (vi core va root : Nat) : List (List (Nat × Nat × Nat) × Nat) :=
  (walkLevels, root) ::
    (s.ptrs.filter (fun p => p.vi == vi && p.core == core && p.page == va / 2 ^ p.lo)).map (fun p =>
      (walkLevels.filter (fun (_, lo, _) => decide (lo < p.lo)), p.table))

/-- Whether two walks end alike. -/
def sameWalk : Except (Nat × Nat) (Nat × Nat × Nat) → Except (Nat × Nat) (Nat × Nat × Nat) → Bool
  | .ok a, .ok b => a == b
  | .error a, .error b => a == b
  | .ok _, .error _ | .error _, .ok _ => false

/-- The start of a walk; where a cached pointer leads elsewhere than memory does, which one the walk uses is free (R432, R437). -/
def State.walkStart (s : State) (vi core va root : Nat) : (List (Nat × Nat × Nat) × Nat) × State :=
  match s.walkStarts vi core va root with
  | [x] => (x, s)
  | xs =>
    if xs.all (fun x => sameWalk (walkFrom s va x.1 x.2) (walkFrom s va walkLevels root)) then ((walkLevels, root), s)
    else
      let (c, s) := s.choose xs.length
      (xs.getD c (walkLevels, root), s)

/-- Whether a translation agent is a core, with a walk cache; a cluster's port has none (R437). -/
def walksAlone (core : Nat) : Bool := decide (core < 192)

/-- The number of a cluster's port as an agent of translation (R437). -/
def portAgent (core : Nat) : Nat := 192 + clusterOf core

/-- Keep the pointers of a walk that did not fault (R437). -/
def State.keepPtrs (s : State) (vi core va : Nat) (xs : List (Nat × Nat)) : State :=
  if walksAlone core then
    let new : List PtrEntry := xs.map (fun (lo, t) => { vi := vi, core := core, lo := lo, page := va / 2 ^ lo, table := t })
    { s with ptrs := new ++ s.ptrs.filter (fun p => !new.any (fun q => q.vi == p.vi && q.core == p.core && q.lo == p.lo && q.page == p.page)) }
  else s

/-- Whether a leaf's permission bits allow an access: 0 read, 1 write, 2 atomic, 3 fetch; user level needs U (R431). -/
def permits (leaf acc : Nat) (level : BitVec 2) : Bool :=
  (level != 0 || bits leaf 7 7 == 1) &&
  (match acc with
   | 0 => bits leaf 4 4 == 1
   | 1 => bits leaf 5 5 == 1
   | 2 => bits leaf 4 4 == 1 && bits leaf 5 5 == 1
   | _ => bits leaf 6 6 == 1)

/-- The class and owner that a leaf gets from an access (R433): none when the page must first be reclassified. -/
def classAfter (leaf core : Nat) (ag : Agent) : Option (Nat × Nat) :=
  match bits leaf 55 54 with
  | 0 =>
    let pa := bits leaf 47 16 * 2 ^ 16
    if ag = .lane ∧ isGddr pa ∧ bits leaf 11 11 = 0 ∧ bits leaf 10 10 = 0 then some (1, core) else some (2, bits leaf 63 56)
  | 1 => if ag = .lane ∧ bits leaf 63 56 = core then some (1, core) else none
  | _ => some (2, bits leaf 63 56)

/-- A leaf with a class and an owner. -/
def withClass (leaf : Nat) (cls owner : Nat) : Nat := setBits (setBits leaf 55 54 cls) 63 56 owner

/-- Whether an XLINV of an interface's page, or of all its pages, covers a page. -/
def xlinvCovers (va : Option Nat) (page lo : Nat) : Bool := (match va with | some a => a / 2 ^ lo == page | none => true)

/-- The cached translation of a page for a core and interface (R437). -/
def tlbHit (tlb : List TlbEntry) (vi core va : Nat) : Option TlbEntry :=
  tlb.find? (fun e => e.vi == vi && e.core == core && e.page == va / 2 ^ e.bits)

/-- Start the reclassification of a page (R434 step 1). -/
def State.startTransit (s : State) (leafPa leaf bits_ vi va : Nat) : State :=
  if has s.transit leafPa then s
  else
    { s with
      transit := put s.transit leafPa { vi := vi, owner := bits leaf 63 56, pfn := bits leaf 47 16, bits := bits_, page := va / 2 ^ bits_ } }

/-- Whether an access waits for a page in transit: the owner of the page still uses its cached translation until the recall reaches it
(R434). -/
def State.leafBlocked (s : State) (core : Nat) (ag : Agent) (cached : Bool) (leafPa : Nat) : Bool :=
  match look s.transit leafPa with
  | some t => t.recalled || t.owner != core || !cached || decide (ag ≠ .lane)
  | none => false

/-- The part writes a leaf of its own accord: its class (R433). -/
def State.writeLeaf (s : State) (leafPa leaf : Nat) : State := { s with mem := Memory.writes s.mem leafPa (toBytes 8 leaf) }

/-- Write a leaf whose class an access changed (R433), and keep its translation (R437). -/
def State.keepLeaf (s : State) (vi core va leafPa leaf leaf' pbits : Nat) : State :=
  let e : TlbEntry := { vi := vi, core := core, page := va / 2 ^ pbits, bits := pbits, leaf := dw leaf', leafPa := leafPa }
  let s := if leaf' = leaf then s else s.writeLeaf leafPa leaf'
  { s with tlb := e :: s.tlb.filter (fun t => !(t.vi == vi && t.core == core && t.page == va / 2 ^ t.bits)) }

/-- The leaf that translates an address for a core now, by its address, with the page size (R428, R437). -/
def State.leafOf (s : State) (vi core va : Nat) : Option (Nat × Nat) :=
  match tlbHit s.tlb vi core va with
  | some e => some (e.leafPa, e.bits)
  | none =>
    let root := s.sysAt 0x300 vi
    if bits root 63 63 = 0 then none
    else
      match walkFrom s va walkLevels (bits root 47 12 * 2 ^ 12) with
      | .ok (leafPa, _, pbits) => some (leafPa, pbits)
      | .error _ => none

/-- Whether an engine command owns a line, one that it writes (R152). -/
def Cmd.owns (c : Cmd) (line : Nat) : Bool :=
  c.segs.any (fun r => r.any (fun g => decide (lineOf g.pa ≤ line) && decide (line < g.pa + g.n)))

/-- Whether some engine command owns a line of n bytes: an access that is ordered after none of its writes is held there (R153, R436). -/
def State.lineOwned (s : State) (pa n : Nat) : Bool := s.cmds.any (fun (_, c) => (linesOf pa n).any (fun l => c.owns l))

/-- The first entry on the way of a walk that lies in a line an engine command owns: the walk is held there (R153, R436). -/
def State.walkOwned (s : State) (va : Nat) : List (Nat × Nat × Nat) → Nat → Option Nat
  | [], _ => none
  | (_, lo, n) :: rest, table =>
    let at_ := table + 8 * bits va (lo + n - 1) lo
    let e := s.numAt at_ 8
    if s.lineOwned at_ 8 then some at_
    else if bits e 2 0 = 1 then s.walkOwned va rest (bits e 47 8 * 2 ^ 8)
    else none

/-- Translate by a leaf, from the cache or a walk: its permission, its class and what the access makes of it (R431 to R434). An access to a peer
or to the host goes outside whatever D says (log entry 140). -/
def State.useLeaf (s : State) (vi core : Nat) (level : BitVec 2) (va acc : Nat) (ag : Agent) (cached : Bool) (leafPa leaf pbits : Nat) :
    State × Xlat :=
  if s.leafBlocked core ag cached leafPa then (s, .wait leafPa)
  else if !permits leaf acc level then (s, .fault 0x09 0)
  else
    let pa := bits leaf 47 16 * 2 ^ 16 + va % 2 ^ pbits
    if acc = 3 ∧ !isGddr pa then (s, .fault 0x06 0)
    else
      match classAfter leaf core ag with
      | none => (s.startTransit leafPa leaf pbits vi va, .wait leafPa)
      | some (cls, owner) =>
        (s.keepLeaf vi core va leafPa leaf (withClass leaf cls owner) pbits, .ok pa (cls == 1) (bits leaf 11 11 == 1 && isMemory pa))

/-- The translation of an interface's address for an access, with the walk and the class update it makes (R427 to R434, R437). A walk is counted
(R461); one that faults, by a permission too, caches nothing; one whose way leads through a line that an engine command owns is held
(R436). -/
def State.translate (s : State) (vi core : Nat) (level : BitVec 2) (va acc : Nat) (ag : Agent) : State × Xlat :=
  match tlbHit s.tlb vi core va with
  | some e => s.useLeaf vi core level va acc ag true e.leafPa e.leaf.toNat e.bits
  | none =>
    let root := s.sysAt 0x300 vi
    if bits root 63 63 = 0 then (s, .fault 0x08 0)
    else
      let ((ls, table), s) := s.walkStart vi core va (bits root 47 12 * 2 ^ 12)
      if (s.walkOwned va ls table).isSome then (s, .wait 0)
      else
        let ptrs := walkPtrs s va ls table
        let r := walkFrom s va ls table
        let s := s.countCore core vi (level == 0) 0x008 1
        match r with
        | .error (k, i) => (s, .fault k i)
        | .ok (leafPa, leaf, pbits) =>
          match s.useLeaf vi core level va acc ag false leafPa leaf pbits with
          | (t, .fault k i) => (t, .fault k i)
          | (t, x) => (t.keepPtrs vi core va ptrs, x)

/-- Translation for a wave: the boot wave uses physical addresses without translation (R457). -/
def State.translateFor (s : State) (w : Wave) (level : BitVec 2) (va acc : Nat) (ag : Agent) : State × Xlat :=
  if w.kind = .boot then
    (s, if isMemory va ∧ (acc ≠ 3 ∨ isGddr va) then .ok va false false else .fault 0x06 0)
  else s.translate w.vi w.core level va acc ag

/-- The result of fetching one word. -/
inductive Fetch where
  | ok (w : Word)
  | fault (t : Trap)
  | wait (leaf : Nat)
  deriving DecidableEq, Repr

/-- A fetch fault at a word's address (R178, R394). -/
def fetchTrap (kind va i2 : Nat) : Trap := { kind := kind, i0 := dw va, i1 := dw (4 + 3 * 256), i2 := dw i2 }

/-- Fetch one word through the instruction cache (R77, R123, R167); a line that an engine command owns is waited for (R436). A held word that memory no longer holds may be executed
in its old or its new form: which is a free choice (R77). -/
def State.fetchWord (s : State) (w : Wave) (level : BitVec 2) (va : Nat) : State × Fetch :=
  if 2 ^ 57 ≤ va then (s, .fault (fetchTrap 0x06 va 0))
  else
    match s.translateFor w level va 3 .lane with
    | (s, .fault 0x0A i) => (s, .fault { kind := 0x0A, i0 := dw i })
    | (s, .fault k i) => (s, .fault (fetchTrap k va i))
    | (s, .wait l) => (s, .wait l)
    | (s, .ok pa _ _) =>
      if !isMemory pa then (s, .fault (fetchTrap 0x06 va 0))
      else
        let now := BitVec.ofNat 32 (s.deviceNum pa 4)
        match look (s.coreAt w.core).icache pa with
        | some old =>
          if old = now then (s, .ok old)
          else
            let (c, s) := s.choose 2
            (s, .ok (if c = 0 then old else now))
        | none =>
          if s.lineOwned pa 4 then (s, .wait 0)
          else if s.poisoned pa 4 then (s, .fault (fetchTrap 0x06 va 2))
          else (s.modCore w.core (fun k => { k with icache := put k.icache pa now }), .ok now)

/-- Fetch n words from an address (R167); the first fault is the instruction's. -/
def State.fetchWords (s : State) (w : Wave) (level : BitVec 2) : Nat → Nat → State × Except Fetch (List Word)
  | _, 0 => (s, .ok [])
  | va, n + 1 =>
    match s.fetchWord w level va with
    | (s, .ok x) =>
      match s.fetchWords w level (va + 4) n with
      | (s, .ok xs) => (s, .ok (x :: xs))
      | (s, .error e) => (s, .error e)
    | (s, e) => (s, .error e)

/-- Fetch every word of the instruction at an address (R167). -/
def State.fetchInstr (s : State) (w : Wave) (level : BitVec 2) (va : Nat) : State × Except Fetch (List Word) :=
  match s.fetchWord w level va with
  | (s, .ok x) =>
    match s.fetchWords w level (va + 4) ((if x.extractLsb' 0 2 = 0 then 1 else if x.extractLsb' 0 2 = 3 then 5 else 3) - 1) with
    | (s, .ok xs) => (s, .ok (x :: xs))
    | (s, .error e) => (s, .error e)
  | (s, e) => (s, .error e)

/-- What a scratchpad address names (R116, R117, R128). -/
inductive SRes where
  | ok (core off : Nat) (fifo : Bool)
  | fault
  | wait (bank : Nat)
  deriving DecidableEq, Repr

/-- Whether bytes of a core's window lie in an area or a pass's store that an interface may not reach (R117, R348). -/
def State.foreignArea (s : State) (vi core off n : Nat) : Bool :=
  s.waves.any (fun (_, w) => w.core == core && w.vi != vi && decide (0 < w.areaSize) && decide (off < w.area + w.areaSize) &&
    decide (w.area < off + n)) ||
  s.passes.any (fun (_, p) => !p.imm && p.stored.isNone && p.clusters.contains (clusterOf core) && decide (off < p.tsoff + p.tpages * 0x10000) &&
    decide (p.tsoff < off + n))

/-- The banks of the part that n bytes at an offset of a core's window fall in (R117). -/
def banksOf (core off n : Nat) : List Nat :=
  (List.range ((off + n - 1) / 0x30000 - off / 0x30000 + 1)).map (fun k => bankOf core off + k)

/-- Check a scratchpad address of an access of n bytes by an interface's wave on a core (R116, R117, R128). -/
def State.spadAddr (s : State) (vi core addr n : Nat) : SRes :=
  let remote := bits addr 31 31 == 1
  let y := bits addr 30 27
  let x := bits addr 26 23
  let off := bits addr 20 0
  let tgt := if remote then 15 * y + x else core
  if bits addr 22 21 != 0 || decide (0x180000 < off + n) || (!remote && bits addr 30 23 != 0) ||
     (remote && (decide (11 < y) || decide (14 < x))) then .fault
  else if remote && tgt != core && !s.coreOfVi vi tgt then .fault
  else
    match (banksOf tgt off n).find? (fun b => has s.switches b || s.modeOf b != 1) with
    | some b =>
      if has s.switches b then .wait b
      else if s.modeOf b = 2 ∧ (banksOf tgt off n).length ≤ 1 then .ok tgt off true
      else .fault
    | none => if s.foreignArea vi tgt off n then .fault else .ok tgt off false

/-- What n bytes from an address allow a unit of a core that reaches its own window only. -/
inductive Span where
  | ok
  /-- A bank among them is switching (R128). -/
  | wait
  | fault
  deriving DecidableEq, Repr

/-- Whether an engine of a core may touch n bytes from a scratchpad address, in its own window and no FIFO bank (R116, R117, R128). The
core's own remote address names the window as well (R117). -/
def State.span (s : State) (vi core a n : Nat) : Span :=
  if n = 0 then .ok
  else if 2 ^ 32 ≤ a then .fault
  else
    match s.spadAddr vi core a n with
    | .ok c _ fifo => if c = core ∧ fifo = false then .ok else .fault
    | .fault => .fault
    | .wait _ => .wait

/-- Whether every byte from `lo` to before `hi` lies in one of some ranges, each given with its end. -/
def coveredBy (rs : List (Nat × Nat)) : Nat → Nat → Nat → Bool
  | 0, lo, hi => decide (hi ≤ lo)
  | f + 1, lo, hi =>
    decide (hi ≤ lo) ||
    (match rs.find? (fun r => decide (r.1 ≤ lo) && decide (lo < r.2)) with
     | some r => coveredBy rs f r.2 hi
     | none => false)

/-- The areas of an interface's resident waves on a core, each with its end (R41, R117). -/
def State.areasOf (s : State) (vi core : Nat) : List (Nat × Nat) :=
  (s.waves.filter (fun (_, w) => w.core == core && w.vi == vi && decide (0 < w.areaSize))).map (fun (_, w) => (w.area, w.area + w.areaSize))

/-- Whether the matrix engine may touch n bytes from an address: they lie in areas of the wave's interface, and REMOTE is 0 (R297). -/
def State.matSpan (s : State) (vi core a n : Nat) : Span :=
  if n = 0 then .ok
  else if 2 ^ 31 ≤ a then .fault
  else
    match s.span vi core a n with
    | .ok => if coveredBy (s.areasOf vi core) ((s.areasOf vi core).length + 1) a (a + n) then .ok else .fault
    | r => r

/-- The first word of n bytes that may not be touched, and whether its bank only switches; none when all may be. -/
def badWord (f : Nat → Nat → Span) (a n : Nat) : Option (Nat × Bool) :=
  match f a n with
  | .ok => none
  | _ =>
    some (((List.range ((n + 3) / 4)).findSome? (fun k =>
      match f (a + 4 * k) 4 with
      | .ok => none
      | .wait => some (k, true)
      | .fault => some (k, false))).getD (0, false))

/-- The trap of a word that an engine may not touch (R394). -/
def windowTrap (a k acc : Nat) : Trap := { kind := 0x07, i0 := dw (a + 4 * k), i1 := dw (4 + 256 * acc) }

/-- The first run of bytes that cannot be touched: the trap, or none for a bank that is switching. -/
def badRun (f : Nat → Nat → Span) (acc : Nat) (runs : List (Nat × Nat)) : Option (Option Trap) :=
  runs.findSome? (fun (a, n) => (badWord f a n).map (fun (k, w) => if w then none else some (windowTrap a k acc)))

/-- The key of a scratchpad word: its core's window and its word, by the bits of OFFSET (R116). -/
def wordKey (core off : Nat) : Nat := core * 0x60000 + off % 2 ^ 21 / 4

/-- A scratchpad word; one not listed is empty and zero (R128). -/
def State.spadAt (s : State) (key : Nat) : SWord := lookD s.spad key {}

/-- Replace a scratchpad word. -/
def State.setSpad (s : State) (key : Nat) (w : SWord) : State := { s with spad := put s.spad key w }

/-- The keys of the words that n bytes at an offset cover (R131). -/
def wordKeys (core off n : Nat) : List Nat := (List.range ((off % 4 + n + 3) / 4)).map (fun k => wordKey core off + k)

/-- Whether every covered word is full (R131). -/
def State.wordsFull (s : State) (ks : List Nat) : Bool := ks.all (fun k => (s.spadAt k).full)

/-- Whether every covered word is empty (R274). -/
def State.wordsEmpty (s : State) (ks : List Nat) : Bool := ks.all (fun k => !(s.spadAt k).full)

/-- The number that words hold, lowest first. -/
def State.wordsNum (s : State) : List Nat → Nat
  | [] => 0
  | k :: t => (s.spadAt k).val.toNat + 2 ^ 32 * s.wordsNum t

/-- Write words, lowest first, and mark them full; `last` is the wave that changes the bit (R424). -/
def State.fillWords (s : State) (last : Nat) : List Nat → Nat → State
  | [], _ => s
  | k :: t, x => (s.setSpad k { val := BitVec.ofNat 32 x, full := true, last := last }).fillWords last t (x / 2 ^ 32)

/-- Mark words empty, keeping their values. -/
def State.emptyWords (s : State) (last : Nat) (ks : List Nat) : State :=
  ks.foldl (fun s k => s.setSpad k { s.spadAt k with full := false, last := last }) s

end Sys2Proof.Machine
end

