-- ==== Sys2Proof/Machine/Order.lean ====
section
/-!
DEFINITION. What orders the accesses in flight (R142, R143, R147 to R149, R158): what each waits for, and when a store or a read may take its
next step.
-/
namespace Sys2Proof.Machine

/-- Whether an access reads. -/
def Op.reads (o : Op) : Bool :=
  match o.act with
  | .load _ | .atom _ _ | .cas _ | .fatom _ _ | .drain _ | .pop | .rbrd => true
  | .store | .fence _ | .flush | .fill | .sete | .push | .rbadd => false

/-- Whether an access writes. -/
def Op.writes (o : Op) : Bool :=
  match o.act with
  | .store | .atom _ _ | .cas _ | .fatom _ _ | .drain _ | .pop | .flush | .fill | .sete | .push | .rbadd => true
  | .load _ | .rbrd | .fence _ => false

/-- Whether an access is an acquire: by its MODE, or as a blocking read of scratchpad words (R147, R150, R151). -/
def Op.acquires (o : Op) : Bool :=
  o.reads && (o.mode % 2 == 1 || (o.place == .bank &&
    (match o.act with
     | .load _ => !o.trapPol
     | .drain _ | .pop | .rbrd => true
     | .atom _ _ | .cas _ | .fatom _ _ | .store | .fence _ | .flush | .fill | .sete | .push | .rbadd => false)))

/-- Whether two accesses touch a common byte, or a common word of a bank. -/
def Op.overlaps (a b : Op) : Bool :=
  (a.place == .bank) == (b.place == .bank) && decide (a.pa < b.pa + b.size) && decide (b.pa < a.pa + a.size)

/-- Whether an access counts as visible to a scope's instance (R142, R149, R157, R435): at lane scope a store is, and a read once it is
performed. -/
def Op.visAt (o : Op) (scope : Nat) : Bool :=
  if scope = 0 then !o.reads || o.done
  else
    match o.place with
    | .peer _ | .host => decide (scope < 5)
    | .bank | .dpage => o.done
    | .line =>
      match o.act with
      | .store => decide ((if o.priv ∨ scope ≤ 2 then 2 else if scope = 3 then 3 else 4) ≤ o.vis)
      | .fence _ => true
      | .load _ | .atom _ _ | .cas _ | .fatom _ _ | .drain _ | .pop | .flush | .fill | .sete | .push | .rbrd | .rbadd => o.done

/-- Whether an earlier access of a lane is locally ordered before a later one and not performed (R147). -/
def blocks (a b : Op) : Bool :=
  match a.act with
  | .fence .rel => b.writes
  | .fence _ => true
  | _ =>
    (a.acquires && !a.done) ||
    (a.overlaps b &&
      (if a.isStore then
         if b.isStore then !(a.place == .line && b.place == .line) else !(b.reads && !b.writes && a.place == .line && b.place == .line)
       else !a.done && (a.writes || b.writes || a.reads)))

/-- Whether an access is a load of a scratchpad word, without a change by an atomic. -/
def Op.bankLoad (o : Op) : Bool :=
  match o.act with
  | .load _ | .drain _ | .pop | .rbrd => true
  | .store | .atom _ _ | .cas _ | .fatom _ _ | .fence _ | .flush | .fill | .sete | .push | .rbadd => false

/-- Whether a load of another lane, or one that a barrier's ordering names, waits at its bank for a full word: nothing waits for it (R250,
log entry 43). -/
def Op.passes (o a : Op) : Bool :=
  a.place == .bank && a.arrived && !a.done && a.bankLoad &&
    (a.wid != o.wid || a.lane != o.lane || (match o.act with | .fence _ => o.mode == 1 | _ => false))

/-- Whether a fence is complete (R149, R158, R273, R281): a full or acquire fence waits for earlier reads, a full or release fence for
everything before it, and one at device scope or wider for a FLUSH. -/
def State.fenceDone (s : State) (k : FenceKind) (o : Op) : Bool :=
  o.before.all (fun (_, j) =>
    match look s.ops j with
    | some a =>
      o.passes a ||
      (match k with
       | .acq => a.done || !(a.reads || (a.act == .flush && decide (4 ≤ o.scope)))
       | .rel => a.visAt o.scope
       | .full => a.visAt o.scope && (a.done || !a.reads))
    | none => true)

/-- A performed store leaves what is in flight; it is kept while a release's orderings before it are not all visible (R148). -/
def State.endStore (s : State) (id : Nat) (o : Op) : State :=
  if o.before.any (fun x => has s.ops x.2) then
    { s with nid := s.nid + 1, ops := put s.ops id { o with vis := 4, stamp := s.nid, done := o.place != .line } }
  else { s with ops := del s.ops id }

/-- Old stores kept for their orderings end where another store to their bytes is performed; an atomic goes on with their chain (R148). -/
def State.forget (s : State) (o : Op) : State :=
  { s with ops := s.ops.filter (fun (_, t) => !(t.vis == 4 && t.overlaps o && t.place == o.place && (o.place == .line || t.item == o.item))) }

/-- Whether every earlier access of its lane lets an access be performed (R147). -/
def State.localOk (s : State) (id : Nat) (o : Op) : Bool :=
  s.ops.all (fun (j, a) => !(a.wid == o.wid && a.lane == o.lane && decide (j < id) && a.instr != o.instr && a.vis != 4 && blocks a o &&
    (match a.act with | .fence k => !s.fenceDone k a | _ => true)))

/-- Whether accesses are visible to the instances of the scopes given with them (R149), for an access that comes after them. -/
def State.visible (s : State) (o : Op) (xs : List (Nat × Nat)) : Bool :=
  xs.all (fun (scope, j) =>
    match look s.ops j with
    | some a => o.passes a || a.visAt scope
    | none => true)

/-- Whether everything that a release or a fence orders before an access is visible to the instance of its scope (R149). -/
def State.relOk (s : State) (o : Op) : Bool := s.visible o o.before

/-- The bytes of a request held at its home slice, an atomic's at most. -/
def Held.bytes (h : Held) : Nat :=
  match h.req with
  | .load n => n
  | .store bs => bs.length
  | .atomic _ _ _ | .cas _ _ _ | .fatom _ _ _ => 8

/-- Whether an engine command holds an access to a line it owns; the accesses it is ordered after come first (R152, R153). A write of the part
that is held there comes before it too. -/
def State.owned (s : State) (id pa : Nat) : Bool :=
  s.cmds.any (fun (_, c) => c.owns (lineOf pa) && !c.before.contains id) ||
  s.held.any (fun (_, h) => h.port == 2 && (linesOf h.pa h.bytes).contains (lineOf pa))

/-- Whether a store that is to reach a step is behind another that is earlier in the coherence order of a common byte (R142,
R145). -/
def State.storeBehind (s : State) (id : Nat) (o : Op) (level : Nat) : Bool :=
  s.ops.any (fun (j, t) => !(t.instr == o.instr && t.wid == o.wid) && t.isStore && t.place == .line && decide (t.vis < level) && t.overlaps o &&
    ((t.vis == 1 && t.wid == o.wid && t.lane == o.lane && decide (j < id)) ||
     (t.vis == 2 && t.core == o.core && (o.vis == 1 || decide (t.stamp < o.stamp))) ||
     (t.vis == 3 && clusterOf t.core == clusterOf o.core && (decide (o.vis < 3) || decide (t.stamp < o.stamp)))))

/-- Whether the accesses before one of its lane let it reach its bank (R147): it may stand there behind one of its lane that waits for a
common word (R274). -/
def State.bankOrdered (s : State) (id : Nat) (o : Op) : Bool :=
  s.ops.all (fun (j, a) => !(a.wid == o.wid && a.lane == o.lane && decide (j < id) && a.instr != o.instr && a.vis != 4 && blocks a o &&
    !(a.place == .bank && a.arrived && a.overlaps o) && (match a.act with | .fence k => !s.fenceDone k a | _ => true)))

/-- Whether a bank access stands behind one that reached a common word before it: one of its lane (R147), or one of its issue (R268). -/
def State.queuedBehind (s : State) (id : Nat) (o : Op) : Bool :=
  s.ops.any (fun (j, a) => j != id && a.wid == o.wid && (a.lane == o.lane || a.instr == o.instr) && a.place == .bank && a.arrived && !a.done &&
    decide (a.order < o.order) && a.overlaps o)

/-- The accesses of one issue that touch a common unit with one, by rising lane: they are performed together (R268). -/
def State.groupOf (s : State) (id : Nat) (o : Op) : List (Nat × Op) :=
  s.ops.filter (fun (j, a) => j == id || (a.instr == o.instr && a.wid == o.wid && a.place == o.place && !a.done && a.vis == o.vis &&
    (a.act == o.act) && a.overlaps o))

/-- Whether a core's cluster has a bank in cache mode, without which its cluster cache holds nothing (R124). -/
def State.hasClusterCache (s : State) (core : Nat) : Bool := (List.range 24).any (fun i => s.bankMode (clusterOf core) i == 0)

/-- The message kind of an access: also its message class on the on-die network. -/
def Op.msgKind (o : Op) : Nat :=
  match o.act with
  | .store => 1
  | .atom _ _ | .fatom _ _ => 2
  | .cas _ => 3
  | .load _ | .fence _ | .flush | .fill | .sete | .drain _ | .push | .pop | .rbrd | .rbadd => 0

/-- The replay window that an access's message to its home slice belongs to (R426). -/
def Op.window (o : Op) : Nat := (o.core * 2 ^ 16 + homeSlice o.pa) * 16 + o.msgKind

/-- Whether an access's message to its home slice is still to be performed. -/
def Op.onWay (o : Op) : Bool := !o.done && o.vis != 4 && (o.place == .line || o.place == .dpage)

/-- Whether the home slice does not take an access's message yet (R426): it drops the refused one and those after it until the replay arrives,
and takes the replayed ones, and those after them, in the order in which they were sent. -/
def State.nocHeld (s : State) (id : Nat) (o : Op) : Bool :=
  match look s.noc o.window with
  | some w =>
    if w.replayed then
      (w.msgs.takeWhile (fun j => j != id)).any (fun j => match look s.ops j with | some a => a.onWay && a.instr != o.instr | none => false) &&
        decide (w.msgs.headD 0 ≤ id)
    else decide (w.msgs.headD 0 ≤ id)
  | none => false

/-- Whether a store may reach a step of visibility (R142, R147, R149). -/
def State.storeReady (s : State) (id : Nat) (o : Op) (level : Nat) : Bool :=
  decide (o.vis < level) && (level == 2 || level == 4 || (level == 3 && !o.priv && s.hasClusterCache o.core)) && s.localOk id o && s.relOk o && !s.owned id o.pa &&
  !s.storeBehind id o level && !(level == 4 && s.nocHeld id o)

/-- Whether a read at a home slice may be performed (R147); an atomic comes after every store that its lane may have seen. -/
def State.readReady (s : State) (id : Nat) (o : Op) : Bool :=
  !o.done && s.localOk id o && s.relOk o && !s.owned id o.pa && !s.nocHeld id o &&
  (!o.writes || !s.ops.any (fun (_, t) => t.isStore && t.place == .line && t.overlaps o &&
    ((t.vis == 2 && t.core == o.core) || (t.vis == 3 && clusterOf t.core == clusterOf o.core))))

end Sys2Proof.Machine
end

