-- ==== Sys2Proof/Machine/Flow.lean ====
section
/-!
DEFINITION. Where a lane goes next: the loop test (R79), taken branches and active levels (R80), and the checks of targets
(R191, R240).
-/
namespace Sys2Proof.Machine

/-- Loop registers of a level (R35, R78). -/
def Lane.lsr (l : Lane) (v : Nat) : DWord := lookD l.ls v 0
def Lane.ler (l : Lane) (v : Nat) : DWord := lookD l.le v 0
def Lane.lcr (l : Lane) (v : Nat) : Word := lookD l.lc v 0

/-- Set the three registers of a level (R78). -/
def Lane.setLoop (l : Lane) (v : Nat) (s e : DWord) (c : Word) : Lane :=
  { l with ls := put l.ls v s, le := put l.le v e, lc := put l.lc v c }

/-- Set a level's count. -/
def Lane.setLc (l : Lane) (v : Nat) (c : Word) : Lane := { l with lc := put l.lc v c }

/-- The loop test over the levels below n, highest first, after the instruction of `len` words at `at_`; whether it looped
back, which passes a safe point (R79, R240). -/
def Lane.loopTest (l : Lane) (at_ : DWord) (len : Nat) : Nat → Lane × Bool
  | 0 => ({ l with pc := at_ + dw (4 * len) }, false)
  | n + 1 =>
    if l.lcr n ≠ 0 ∧ l.ler n = at_ then
      if 1 < (l.lcr n).toNat then ({ l.setLc n (l.lcr n - 1) with pc := l.lsr n }, true)
      else (l.setLc n 0).loopTest at_ len n
    else l.loopTest at_ len n

/-- The lane goes on after an instruction that took no branch (R79). -/
def Lane.advance (l : Lane) (len : Nat) : Lane × Bool := l.loopTest l.pc len 4

/-- End the levels below n whose body a target leaves (R80). -/
def Lane.endLoops (l : Lane) (target : DWord) : Nat → Lane
  | 0 => l
  | n + 1 =>
    let l := if l.lcr n ≠ 0 ∧ (target.toNat < (l.lsr n).toNat ∨ (l.ler n).toNat < target.toNat) then l.setLc n 0 else l
    l.endLoops target n

/-- A taken branch that is neither a call nor a return (R80); whether it passes a safe point (R240). -/
def Lane.jump (l : Lane) (target : DWord) : Lane × Bool :=
  ({ l.endLoops target 4 with pc := target }, decide (target.toNat ≤ l.pc.toNat))

/-- Whether an address has a bit in [63:57] (R114, R240). -/
def highBits (a : DWord) : Bool := decide (2 ^ 57 ≤ a.toNat)

end Sys2Proof.Machine
end

