-- ==== Sys2Proof/Machine/Life.lean ====
section
/-!
DEFINITION. How work starts and ends: entry state (R44, R45), commit positions (R159), barriers and their release (R81, R249,
R251), withdrawal of what a lane waits for (R241), lane end and wave retirement (R37, R398), killing (R399), and the aborts
and discards of uncommitted issuers (R162, R163, R401).
-/
namespace Sys2Proof.Machine

/-- An issuer by its identity. -/
def State.issuer? (s : State) (id : Nat) : Option Issuer := look s.issuers id

/-- Change an issuer. -/
def State.modIssuer (s : State) (id : Nat) (f : Issuer → Issuer) : State := { s with issuers := modKey s.issuers id f }

/-- A job by its launch's identity. -/
def State.job? (s : State) (lid : Nat) : Option Job := look s.jobs lid

/-- Change a job. -/
def State.modJob (s : State) (lid : Nat) (f : Job → Job) : State := { s with jobs := modKey s.jobs lid f }

/-- Whether one commit position lies below another: order key, launched waves before items, then acceptance or creation
order (R159). -/
def posLt (a b : Nat × Issuer) : Bool :=
  decide (a.2.key < b.2.key) || (a.2.key == b.2.key && (decide (a.2.cls < b.2.cls) || (a.2.cls == b.2.cls &&
    (decide (a.2.ord < b.2.ord) || (a.2.ord == b.2.ord && decide (a.1 < b.1))))))

/-- The uncommitted issuers of an interface's commit domain (R159). -/
def State.uncommitted (s : State) (vi : Nat) : List (Nat × Issuer) :=
  s.issuers.filter (fun (_, i) => i.vi == vi && !i.committed)

/-- The lowest of issuers by position. -/
def lowestPos : List (Nat × Issuer) → Option (Nat × Issuer)
  | [] => none
  | a :: t =>
    match lowestPos t with
    | some b => if posLt b a then some b else some a
    | none => some a

/-- The holder of an interface's commit token (R161). -/
def State.tokenHolder (s : State) (vi : Nat) : Option Nat := (lowestPos (s.uncommitted vi)).map Prod.fst

/-- Whether an issuer holds its domain's token. A wave without an issuer, the boot wave, waits for none: the manual gives it no commit position
(log entry 126). -/
def State.holdsToken (s : State) (id : Nat) : Bool :=
  match s.issuer? id with
  | some i => s.tokenHolder i.vi == some id
  | none => true

/-- Whether an issuer has written a version that is not committed. -/
def State.hasVersion (s : State) (id : Nat) : Bool := s.versions.any (fun v => v.issuer == id)

/-- Whether an issuer has touched a D page in its current run. -/
def State.touchedD (s : State) (id : Nat) : Bool := s.hasVersion id || s.readers.any (fun r => r.2 == id)

/-- The position record of w2 (R45). -/
def positionRecord (core x0 y0 widx depth : Nat) : Nat :=
  depth * 2 ^ 24 + widx * 2 ^ 16 + coreY core * 2 ^ 12 + coreX core * 2 ^ 8 + (coreY core - y0) * 2 ^ 4 + (coreX core - x0)

/-- A lane at entry (R44). -/
def entryLane (idx : Nat) (pc key : DWord) (level : BitVec 2) (item : Nat) (regs : List (Nat × Word)) : Lane :=
  { pc := pc, key := key, level := level, item := item,
    v := regs.foldl (fun m (n, x) => put m n x) [(0, BitVec.ofNat 32 idx)] }

/-- The registers v1 to v4 of an item's lane (R44). -/
def itemRegs (i : Issuer) : List (Nat × Word) :=
  [(1, i.arg.setWidth 32), (2, (i.arg >>> 32).setWidth 32), (3, BitVec.ofNat 32 i.key), (4, BitVec.ofNat 32 (i.key / 2 ^ 32))]

/-- The level at which a launch's waves start (R407). -/
def Job.level (j : Job) : BitVec 2 := if j.supv then 1 else 0

/-- The entry wave registers w0 to w3 of a launched wave (R44). -/
def launchedRegs (j : Job) (i : Issuer) (area : Nat) : FMap DWord :=
  [(0, j.args), (1, dw i.key), (2, dw (positionRecord i.core j.x0 j.y0 i.widx 0)), (3, dw area)]

/-- The lanes of a launched wave at entry (R44, R47). -/
def launchedLanes (j : Job) (id : Nat) (i : Issuer) : List Lane :=
  (List.range j.prog.width).map (fun k => entryLane k j.prog.entry (dw i.key) j.level id [])

/-- What a lane's new run keeps of the old one (R163 step 5): a fault of one of its stores that is due (R397), and when it last issued
(R64). -/
def Lane.rerun (l e : Lane) : Lane := { e with due := l.due.filter (fun t => t.kind == 0x30), lastIssue := l.lastIssue }

/-- Start a resident launched wave again from its entry state, in its place, in a cycle of its core; its area keeps its words (R163
step 5). -/
def Wave.restart (w : Wave) (j : Job) (id : Nat) (i : Issuer) (cycle : Nat) : Wave :=
  { w with
    lanes := (launchedLanes j id i).zipWith (fun e k => (w.lane k).rerun e) (List.range j.prog.width), w := launchedRegs j i w.area, we := [],
    k := [], ke := [], ws := 0, issues := 0, start := cycle, yielding := false }

/-- An issue of an engine instruction whose lanes have all finished posting writes DST with its largest promise; when every lane
trapped it writes nothing (R321). -/
def State.settlePromises (s : State) : State :=
  s.promises.foldl (fun s (g, p) =>
    if p.left.isEmpty then
      let s := { s with promises := del s.promises g }
      match p.best, p.dst with
      | some x, some r => s.modWave p.wid (fun w => { w with w := put w.w r (dw x), we := del w.we r })
      | none, some r => s.modWave p.wid (fun w => { w with we := if look w.we r = some g then del w.we r else w.we })
      | _, none => s
    else s) s

/-- Lanes leave their postings without a command (R321, R414). -/
def State.leavePosting (s : State) (wid : Nat) (p : Nat → Bool) : State :=
  ({ s with
    postings := s.postings.filter (fun (_, x) => !(x.wid == wid && p x.lane))
    cmds := s.cmds.filter (fun (_, c) => c.queued || !(c.wid == wid && p c.lane))
    promises := s.promises.map (fun ((g, x) : Nat × Promise) => (g, if x.wid == wid then { x with left := x.left.filter (fun k => !p k) } else x)) }).settlePromises

/-- Remove the signatures of lanes and their places in waiting armings (R241). -/
def Core.unsign (k : Core) (wid : Nat) (p : Nat → Bool) : Core :=
  { k with
    signs := k.signs.map (fun ((g, x) : Nat × Sign) => (g,
      if x.armed && x.wid == wid then
        { x with signed := dw ((List.range 64).foldl (fun m i => if bit x.signed.toNat i && !p i then m + 2 ^ i else m) 0) }
      else x))
    armings := (k.armings.map (fun ((n, a) : Nat × Arming) =>
      (n, if a.wid == wid then { a with lanes := a.lanes.filter (fun i => !p i) } else a))).filter (fun (_, a) => !a.lanes.isEmpty) }

/-- Remove a lane's waiting presence everywhere: its arrival, its signature, its requests not yet decided (R241). An instance of a barrier
all of whose arrivals are withdrawn goes, so that the next arrival names its start and its time-out anew: R249 does not say whether the
instance stays (log entry 128). -/
def State.withdraw (s : State) (wid : Nat) (p : Nat → Bool) : State :=
  let gone (m : TillMsg) : Bool := m.wid == wid && p m.lane && m.act != .stock
  let s := s.leavePosting wid p
  { s with
    barriers := (s.barriers.map (fun (b, x) => (b, { x with arrived := x.arrived.filter (fun a => !(a.1 == wid && p a.2)) }))).filter
      (fun (_, x) => !x.arrived.isEmpty)
    cores := s.cores.map (fun ((c, k) : Nat × Core) => (c, k.unsign wid p))
    gfxAsks := (s.gfxAsks.map (fun ((n, a) : Nat × GfxAsk) =>
      (n, if a.wid == wid then { a with lanes := a.lanes.filter (fun k => !p k) } else a))).filter (fun (_, a) => !a.lanes.isEmpty)
    tillMsgs := s.tillMsgs.filter (fun (_, m) => !gone m)
    tills := s.tills.map (fun (a, t) =>
      let q := t.queue.filter (fun q =>
        match look s.tillMsgs q.id with
        | some m => !gone m
        | none => true)
      (a, { t with queue := q, examine := t.examine || (q.head?.map TillReq.id != t.queue.head?.map TillReq.id) })) }

/-- A fill without what lanes would get of it, and without their flags (R112, R255). -/
def Fill.without (f : Fill) (p : Nat → Bool) : Fill :=
  { f with lanes := f.lanes.filter (fun x => !p x.1), flags := f.flags.filter (fun x => !p x.1) }

/-- The matrix queue of a core without the cells that lanes of a wave would read (R255, R310). -/
def Core.dropReads (k : Core) (wid : Nat) (p : Nat → Bool) : Core :=
  { k with mq := k.mq.map (fun e =>
      match e.act with
      | .rd cells row0 dst => if e.wid == wid then { e with act := .rd (cells.filter (fun x => !p x.1)) row0 dst } else e
      | .latb _ | .mma _ _ _ | .mmai _ _ _ _ | .zero _ | .st _ _ _ | .mv _ _ _ _ => e) }

/-- Drop what lanes have in flight and nobody waits for any more: pending fills, loads, what a bank has not taken yet or an image holds.
Stores and atomics go on without a destination, also those that wait at banks (R37, R163, R399). -/
def State.dropFlight (s : State) (wid : Nat) (p : Nat → Bool) : State :=
  { s with
    ops := s.ops.filterMap (fun (id, o) =>
      if o.wid == wid && p o.lane then
        match o.act with
        | .load _ | .drain _ | .pop | .rbrd => none
        | .store | .atom _ _ | .cas _ | .fatom _ _ | .fence _ | .flush | .rbadd | .sete =>
          some (id, { o with dst := none })
        | .fill | .push => if o.parked || (s.laneAt wid o.lane).wait == .held o.head then none else some (id, o)
      else some (id, o))
    fills := s.fills.filterMap (fun (id, f) =>
      if f.wid == wid then some (id, f.without p) else some (id, f))
    cores := s.cores.map (fun (c, k) => (c, k.dropReads wid p))
    tillMsgs := s.tillMsgs.map (fun (id, m) => (id, { m with gone := m.gone || (m.wid == wid && p m.lane && m.act == .stock) }))
    spawns := s.spawns.map (fun (id, r) => (id,
      if r.wid == wid then { r with asks := r.asks.map (fun a => if p a.lane then { a with gone := true } else a) } else r))
    gfx := s.gfx.map (fun (id, g) => if g.wid == wid && p g.lane then (id, { g with gone := true }) else (id, g)) }

/-- Whether a launched wave counts as arrived at a block barrier (R52, R249). -/
def State.waveArrived (s : State) (b : Barrier) (id : Nat) (i : Issuer) : Bool :=
  let atBar (wid : Nat) (w : Wave) := w.idx.all (fun k => !(w.lane k).live || b.arrived.contains (wid, k))
  match i.stage with
  | .retired => true
  | .running wid _ => atBar wid (s.waveAt wid)
  | .saved => s.saved.any (fun (wid, x) => (x.wave.lane 0).item == id && atBar wid x.wave)
  | .unplaced | .queued => false

/-- Whether a core lies in the level-l block (bx, by) of a launch (R48). -/
def inBlock (j : Job) (core l bx by_ : Nat) : Bool :=
  (coreX core - j.x0) / 2 ^ l == bx && (coreY core - j.y0) / 2 ^ l == by_

/-- The launched waves of a barrier's block that have not completed. -/
def State.blockWaves (s : State) (b : Barrier) : List (Nat × Issuer) :=
  match s.job? b.lid with
  | some j => s.issuers.filter (fun (_, i) => i.lid == b.lid && !i.isItem && !i.done && inBlock j i.core b.level b.bx b.by_)
  | none => []

/-- Whether a barrier instance has every participant (R81, R249). -/
def State.barrierFull (s : State) (b : Barrier) : Bool :=
  if b.isWave then
    let w := match look s.saved b.wid with
      | some x => x.wave
      | none => s.waveAt b.wid
    w.idx.all (fun k => !(w.lane k).live || b.arrived.contains (b.wid, k))
  else (s.blockWaves b).all (fun (id, i) => s.waveArrived b id i)

/-- The accesses of lanes that are in flight. -/
def State.opsOf (s : State) (who : List (Nat × Nat)) : List Nat :=
  (s.ops.filter (fun (_, o) => who.contains (o.wid, o.lane))).map Prod.fst

/-- What a fence changes in a lane's orderings: a release or full fence is carried by its later stores, an acquire or full fence
takes over what earlier reads synchronised with (R147, R148). -/
def Lane.fenced (l : Lane) (k : FenceKind) (scope : Nat) (before : List Nat) : Lane :=
  let l :=
    if k = .acq then l
    else { l with rel := before.map (fun j => (scope, j)) ++ l.rel.filter (fun x => decide (scope < x.1) || !before.contains x.2) }
  if k = .rel then l
  else
    { l with seen := (l.seen ++ (l.cand.filter (fun (n, _) => decide (n ≤ scope))).map Prod.snd).eraseDups
             cand := l.cand.filter (fun (n, _) => decide (scope < n)) }

/-- One more access in flight, under the next fresh identity (R142). -/
def State.withOp (s : State) (o : Op) : State := { s with nid := s.nid + 1, ops := put s.ops s.nid o }

/-- Add a fence to a lane's accesses, ordered after the accesses given (R148, R250); `mode` is 1 for that of a barrier. -/
def State.addFence (s : State) (wid lane : Nat) (k : FenceKind) (scope : Nat) (before : List Nat) (mode : Nat := 0) : State :=
  let w := s.anyWave wid
  let s := s.modLaneAny wid lane (fun l => l.fenced k scope before)
  if before.isEmpty then s
  else s.withOp { act := .fence k, vi := w.vi, wid := wid, lane := lane, core := w.core, mode := mode, scope := scope,
                  before := before.map (fun j => (scope, j)) }

/-- The accesses in flight that lanes made or that are ordered before their releases (R148). -/
def State.orderedBefore (s : State) (who : List (Nat × Nat)) : List Nat :=
  let seen := who.flatMap (fun (wid, k) => ((s.anyWave wid).lane k).seen ++ ((s.anyWave wid).lane k).rel.map Prod.snd)
  (s.opsOf who ++ seen.filter (fun j => has s.ops j)).eraseDups

/-- What every participant of a barrier instance has before its arrival (R249, R250): lanes that have ended and waves that have retired count
as arrived, with what they issued. -/
def State.barrierBefore (s : State) (b : Barrier) : List Nat :=
  let lanesOf (wid : Nat) : List (Nat × Nat) := (s.anyWave wid).idx.map (fun k => (wid, k))
  if b.isWave then s.orderedBefore (lanesOf b.wid)
  else
    let us := s.blockWaves b
    let who := ((b.arrived.map Prod.fst).eraseDups).flatMap lanesOf
    let gone := us.flatMap (fun (id, i) => if i.stage == .retired then (s.ops.filter (fun (_, o) => o.item == id)).map Prod.fst ++ i.seen else [])
    (s.orderedBefore who ++ gone.filter (fun j => has s.ops j)).eraseDups

/-- The scope codes (R143): 1 wave, 2 core, 3 cluster, 4 device, 5 system; a barrier's scope is that of R250. -/
def barrierScope (b : Barrier) : Nat := if b.isWave then 1 else if b.level = 0 then 2 else 4

/-- Whether a lane passes a safe point that makes its wave yield (R262, R358, R395). -/
def Wave.yieldsAt (w : Wave) (l : Lane) : Bool :=
  w.pending && !l.inh && !(match l.ord with | some o => o.inside | none => false)

/-- Let a lane leave the instruction it waited in (R241), past a safe point when it loops back; a lane of a saved wave leaves it as
well. -/
def State.leave (s : State) (wid lane : Nat) : State :=
  let go (l : Lane) : Lane := { (l.advance l.ilen).1 with wait := .run }
  match s.wave? wid with
  | some w =>
    let s := s.modLane wid lane go
    if ((w.lane lane).advance (w.lane lane).ilen).2 && w.yieldsAt (w.lane lane) then s.modWave wid (fun w => { w with yielding := true })
    else s
  | none => { s with saved := modKey s.saved wid (fun x => { x with wave := x.wave.modLane lane go }) }

/-- Complete a barrier instance: every waiting lane leaves, and its accesses are ordered after those of all (R81, R249 to
R251). -/
def State.releaseBarrier (s : State) (bid : Nat) (b : Barrier) : State :=
  let before := s.barrierBefore b
  let s := { s with barriers := del s.barriers bid }
  let s := b.arrived.foldl (fun s (wid, k) =>
    let s := s.leave wid k
    let own (j : Nat) : Bool := (match look s.ops j with | some a => a.wid == wid && a.lane == k && a.place == .bank && !a.done | none => false)
    (s.addFence wid k .full (barrierScope b) before 1).modLaneAny wid k (fun l =>
      { l with seen := (l.seen ++ before).eraseDups, rel := l.rel.filter (fun x => !own x.2) })) s
  let wids := (b.arrived.map Prod.fst).eraseDups
  if b.isWave then s
  else
    let up (wid : Nat) (w : Wave) : Wave :=
      let n := lookD w.bars b.level 0 + 1
      { w with
        bars := put w.bars b.level n
        lanes := (List.range w.lanes.length).map (fun k =>
          if b.arrived.contains (wid, k) then { w.lane k with blk := put (w.lane k).blk b.level n } else w.lane k) }
    wids.foldl (fun s wid =>
      match s.wave? wid with
      | some _ => s.modWave wid (up wid)
      | none => { s with saved := modKey s.saved wid (fun x => { x with wave := up wid x.wave }) }) s

/-- Complete every barrier instance that has every participant. -/
def State.settleBarriers (s : State) : State :=
  s.barriers.foldl (fun s (bid, b) => if s.barrierFull b then s.releaseBarrier bid b else s) s

/-- Whether a command has scratchpad words left to read or write, so that its wave's retirement stops it (R329). -/
def Cmd.local (c : Cmd) : Bool :=
  match c.kind with
  | .sred => false
  | .tcopy | .tgath | .tscat | .fconv | .embag => true

/-- Units go back to a launch's spawn counter by a GIVE of the part at a core (R56, R180, R290), which no lane waits for: its wave identity
is one that no wave has. -/
def State.giveUnits (s : State) (lid core n : Nat) : State :=
  match s.job? lid with
  | some j =>
    if n = 0 ∨ (look s.tills j.sctrPa).isNone then s
    else
      let m : TillMsg := { act := .give, line := j.sctrPa, wid := s.nid, lane := 0, core := core, vi := j.vi, n := n, va := j.sctr }
      { s with nid := s.nid + 1, tillMsgs := put s.tillMsgs s.nid m }
  | none => s

/-- Whether a wave has operations armed or queued, or a table load, that name some of the resources (R301). -/
def Core.busyRes (k : Core) (wid res : Nat) : Bool :=
  k.mq.any (fun e => e.wid == wid && (e.res ||| e.writes.foldl (fun m t => m ||| 2 ^ t) 0) &&& res != 0) || (bit res 4 && k.loader.any (fun e => e.wid == wid)) ||
  k.signs.any (fun (_, g) => g.armed && g.wid == wid && (match g.entry with | some e => e.res &&& res != 0 | none => false)) ||
  k.armings.any (fun (_, a) => a.wid == wid && a.entry.res &&& res != 0)

/-- A deferred report left on a matrix resource becomes a lane-less record of kind 0x32, with RET once the wave has retired (R299, R392). -/
def State.reportRecord (s : State) (w : Wave) (res : Nat) (r : Report) : State :=
  let (id, s) := s.fresh
  let info : Trap := { kind := 0x32, i0 := dw (2 ^ res), i1 := r.pc, i2 := dw (r.cause + 2 ^ 8 * r.words) }
  let req : TrapReq :=
    { vi := w.vi, pc := r.pc, key := r.key, info := info, due := s.deadline w.vi, item := r.item, slot := w.slot, lid := w.lid,
      word0 := dw (recordWord0 0x32 (bCode (w.lanes.all (fun l => !l.live))) 0 0 r.level.toNat w.slot w.core) }
  { s with trapReqs := put s.trapReqs id req }

/-- Free the matrix resources that a wave owns, among those named by a mask of RES (R300, R301). -/
def State.freeMatrix (s : State) (wid : Nat) (w : Wave) (res : Nat) : State :=
  let s := (List.range 4).foldl (fun s t =>
    let x := lookD (s.coreAt w.core).tiles t {}
    if bit res t && x.owner == some wid then
      let s := match x.report with
        | some r => s.reportRecord w t r
        | none => s
      s.modCore w.core (fun k => { k with tiles := put k.tiles t { x with owner := none, report := none } })
    else s) s
  let k := s.coreAt w.core
  if bit res 4 && k.latch.owner == some wid then
    let s := match k.latch.report with
      | some r => s.reportRecord w 4 r
      | none => s
    s.modCore w.core (fun k => { k with latch := { k.latch with owner := none, report := none } })
  else s

/-- Disarm the sign registers, held or not, whose armed operation an item's lanes entered, and drop its waiting armings (R258); an operation of
lanes of several items counts as that of its lowest lane's (log entry 139). -/
def State.disarmItem (s : State) (id : Nat) : State :=
  { s with cores := s.cores.map (fun (c, k) => (c, { k with
      armings := k.armings.filter (fun (_, a) => a.entry.who.item != id)
      signs := k.signs.filter (fun (_, g) => !(g.armed && (match g.entry with | some e => e.who.item == id | none => false))) })) }

/-- Disarm the sign registers that a wave armed, and drop its waiting armings (R258, R399). -/
def State.disarm (s : State) (core wid : Nat) : State :=
  s.modCore core (fun k => { k with
    armings := k.armings.filter (fun (_, a) => a.wid != wid)
    signs := k.signs.filter (fun (_, g) => !(g.armed && g.wid == wid)) })

/-- Release a wave's matrix claims: at once, or once its entries are done, when they stay with a fresh identity (R301). -/
def State.detachMatrix (s : State) (wid : Nat) (w : Wave) : State :=
  if !(s.coreAt w.core).busyRes wid 31 then s.freeMatrix wid w 31
  else
    let (g, s) := s.fresh
    let own (x : Nat) : Nat := if x = wid then g else x
    s.modCore w.core (fun k => { k with
      mq := k.mq.map (fun e => { e with wid := own e.wid })
      loader := k.loader.map (fun e => { e with wid := own e.wid })
      signs := k.signs.map (fun ((n, x) : Nat × Sign) =>
        (n, { x with wid := own x.wid, entry := x.entry.map (fun e => { e with wid := own e.wid }) }))
      armings := k.armings.filter (fun (_, a) => a.wid != wid)
      tiles := k.tiles.map (fun ((n, x) : Nat × Tile) => (n, { x with owner := x.owner.map own }))
      latch := { k.latch with owner := k.latch.owner.map own }
      leaving := put k.leaving g { w with lanes := w.lanes.map (fun l => { l with ended := true }) } })

/-- The traps still due on a lane that are recorded when it ends: a late delivery, an engine fault and a fault of a store (R327, R397). -/
def Lane.lateDue (l : Lane) : List Trap := l.due.filter (fun t => t.kind == 0x1D || t.kind == 0x1E || t.kind == 0x30)

/-- The records of traps that are still due on a lane that has ended (R327, R397): a late delivery, an engine fault or a fault of a store is
not lost with its lane. A store's record has the retired flag once the wave has retired. Their time for waiting runs from the fault (R396). -/
def State.dueRecords (s : State) (wid lane : Nat) (retired : Bool) : State :=
  let w := s.anyWave wid
  let l := w.lane lane
  let put1 (s : State) (t : Trap) : State :=
    let ret := if t.kind = 0x30 ∧ retired = false then 0 else 1
    let r : TrapReq :=
      { vi := w.vi, lanes := [lane], pc := t.pc0.getD l.pc, key := if l.item = 0 then w.key else l.key, info := t, due := if t.due = 0 then s.deadline w.vi else t.due,
        item := l.item, slot := w.slot, lid := w.lid, origin := wid, word0 := dw (recordWord0 t.kind ret 0 0 l.level.toNat w.slot w.core) }
    { s with nid := s.nid + 1, trapReqs := put s.trapReqs s.nid r }
  (l.lateDue.foldl put1 s).modLaneAny wid lane (fun l => { l with due := [] })

/-- Whether a command is in a row, tile or bag: its wave's retirement stops it at the next one (R329). -/
def Cmd.midRow (c : Cmd) : Bool := c.at_.any (fun (_, n) => n != 0)

/-- Stop the engine commands a test names: they count no further row and release their lines (R163, R329). -/
def State.stopCmds (s : State) (p : Cmd → Bool) : State := { s with cmds := s.cmds.filter (fun (_, c) => !p c) }

/-- The sequence numbers of the outstanding fragments that keep a fragment out of its section: of its pixel, lower, and with a sample in
common (R357). -/
def State.ordBlockers (s : State) (pass : Nat) (o : Ord) : List Nat :=
  match look s.passes pass with
  | some p =>
    if o.cover = 0 then []
    else (p.out.filter (fun (_, x) => x.pixel == o.pixel && decide (x.seq < o.seq) && x.cover &&& o.cover != 0)).map (fun x => x.2.seq)
  | none => []

/-- A lane is inside its section (R357): it acquires at device scope, and its section's time-out starts (R359). -/
def State.enterSection (s : State) (wid lane : Nat) : State :=
  let w := s.waveAt wid
  let due := if s.ordto w.vi = 0 then 0 else s.gt + s.ordto w.vi
  let s := s.modLane wid lane (fun l => { l with ord := l.ord.map (fun o => { o with inside := true, since := s.gt, due := due }) })
  s.addFence wid lane .acq 4 (s.opsOf [(wid, lane)])

/-- Lanes in ORD.ENTER that nothing blocks any more are admitted (R357). -/
def State.settleOrd (s : State) : State :=
  s.waves.foldl (fun s (wid, w) =>
    if w.kind = .fragment then
      w.idx.foldl (fun s k =>
        match (s.laneAt wid k).wait, (s.laneAt wid k).ord with
        | .ordEnter _, some o => if (s.ordBlockers w.pass o).isEmpty then (s.enterSection wid k).leave wid k else s
        | _, _ => s) s
    else s) s

/-- Whether a lane holds a fragment of a pass. -/
def State.fragmentHeld (s : State) (wid lane : Nat) : Bool := s.passes.any (fun (_, p) => p.out.any (fun x => x.1 == wid * 64 + lane))

/-- The fragment of a lane is no longer outstanding (R356). -/
def State.dropFragment (s : State) (wid lane : Nat) : State :=
  if s.fragmentHeld wid lane then
    ({ s with passes := s.passes.map (fun ((k, p) : Nat × Pass) =>
        (k, { p with out := p.out.filter (fun x => x.1 != wid * 64 + lane) })) } : State).settleOrd
  else s

/-- Whether an access counts toward its instruction in the program-counter table (R398): a store or atomic that is not performed
at device scope. -/
def Op.outstanding (o : Op) : Bool :=
  match o.act with
  | .store => o.place != .bank && decide (o.vis < 4) && !(o.priv && decide (2 ≤ o.vis))
  | .atom _ _ | .cas _ | .fatom _ _ => o.place != .bank && !o.done
  | .load _ | .fence _ | .flush | .fill | .sete | .drain _ | .push | .pop | .rbrd | .rbadd => false

/-- Move the outstanding stores and atomics of a retiring wave into the core's shadow; the oldest entries give way (R398). -/
def State.shadowOps (s : State) (wid : Nat) (w : Wave) : State :=
  let mine := (s.ops.filter (fun (_, o) => o.wid == wid && o.outstanding)).map (fun (_, o) => (o.instr, w.vi, o.pc.toNat))
  let all := (s.coreAt w.core).shadow ++ mine.eraseDups
  let gone := (all.take (all.length - 16)).map Prod.fst
  let s := s.modCore w.core (fun k => { k with shadow := all.drop (all.length - 16) })
  { s with ops := s.ops.map (fun (id, o) => (id,
      { o with retired := o.retired || o.wid == wid, noPc := o.noPc || gone.contains o.instr })) }

/-- Free shadow entries whose instruction has no access left (R398). -/
def State.settleShadow (s : State) : State :=
  { s with cores := s.cores.map (fun (c, k) => (c,
      if k.shadow.isEmpty then k else { k with shadow := k.shadow.filter (fun (i, _, _) => s.ops.any (fun (_, o) => o.instr == i && o.outstanding)) })) }

/-- The records of a wave's late store faults that still wait get the retired flag (R397). -/
def State.markRetired (s : State) (wid : Nat) : State :=
  { s with trapReqs := s.trapReqs.map (fun (id, r) =>
      (id, if r.wid = 0 ∧ r.origin = wid ∧ r.info.kind = 0x30 then { r with word0 := dw (setBits r.word0.toNat 55 55 1) } else r)) }

/-- Retire a wave: free its registers, area and slot, keep its stores, stop its local engine commands (R37, R329, R398). Its
matrix claims follow when its queued entries are done (R301). -/
def State.retireWave (s : State) (wid : Nat) : State :=
  match s.wave? wid with
  | none => s
  | some w =>
    let s := s.stopCmds (fun c => c.wid == wid && c.local && !c.midRow)
    let s : State := { s with cmds := s.cmds.map (fun (id, c) =>
      (id, { c with retired := c.retired || c.wid == wid, ending := c.ending || (c.wid == wid && c.local) })) }
    let s := s.leavePosting wid (fun _ => true)
    let s := s.dropFlight wid (fun _ => true)
    let s := w.idx.foldl (fun s k => s.dueRecords wid k true) s
    let s := s.markRetired wid
    let s := s.shadowOps wid w
    let s := s.detachMatrix wid w
    let seen := (w.lanes.flatMap (fun l => l.seen ++ l.rel.map Prod.snd)).eraseDups
    let s := if w.kind = .launched then s.modIssuer (w.lane 0).item (fun i => { i with stage := .retired, bars := w.bars, seen := seen }) else s
    { s with waves := del s.waves wid }.settleBarriers

/-- After a lane ended: its item retires, its fragment is no longer outstanding, and the wave retires with its last lane
(R37, R50, R356). -/
def State.afterEnd (s : State) (wid lane : Nat) : State :=
  let w := s.waveAt wid
  let s := if w.kind = .spawned then s.modIssuer (w.lane lane).item (fun i => { i with stage := .retired }) else s
  let s := s.dropFragment wid lane
  if w.lanes.all (fun l => !l.live) then s.retireWave wid else s.settleBarriers

/-- A lane that has ended (R37). -/
def Lane.atEnd (l : Lane) : Lane := { l with ended := true, wait := .run }

/-- The pending register fills of a lane that ends are discarded; what it issued goes on (R37, R255). A DRAIN or a POP in flight is dropped with
its effect on the word or the FIFO (DESIGN CHOICE, log entry 148). -/
def State.dropFills (s : State) (wid lane : Nat) : State :=
  { s with
    ops := s.ops.filterMap (fun (id, o) =>
      if o.wid == wid && o.lane == lane && o.team.isEmpty then
        match o.act with
        | .load _ | .drain _ | .pop | .rbrd => none
        | .store | .atom _ _ | .cas _ | .fatom _ _ | .fence _ | .flush | .rbadd | .sete | .fill | .push => some (id, { o with dst := none })
      else some (id, o))
    fills := s.fills.map (fun (id, f) => (id, if f.wid == wid then f.without (fun k => k == lane) else f))
    cores := s.cores.map (fun (c, k) => (c, k.dropReads wid (fun k => k == lane)))
    tillMsgs := s.tillMsgs.map (fun (id, m) => (id, { m with gone := m.gone || (m.wid == wid && m.lane == lane && m.act == .stock) }))
    gfx := s.gfx.map (fun (id, g) => (id, if g.wid == wid && g.lane == lane then { g with gone := true } else g)) }

/-- End a lane (R37, R255). -/
def State.endLane (s : State) (wid lane : Nat) : State :=
  (((s.dropFills wid lane).dueRecords wid lane false).modLane wid lane Lane.atEnd).afterEnd wid lane

/-- Discard an issuer's versions and read bounds, with its accesses to D lines that are not performed (R160, R401). -/
def State.dropVersions (s : State) (id : Nat) : State :=
  { s with ops := s.ops.filter (fun (_, o) => !(o.item == id && o.place == .dpage))
           versions := s.versions.filter (fun v => v.issuer != id)
           readers := s.readers.filter (fun r => r.2 != id) }

/-- The running lanes of an issuer. -/
def Issuer.lanesIn (i : Issuer) : Nat → Bool :=
  match i.stage with
  | .running _ lane => fun k => !i.isItem || k == lane
  | .unplaced | .queued | .saved | .retired => fun _ => false

/-- The wave an issuer runs in. -/
def Issuer.wid? (i : Issuer) : Option Nat :=
  match i.stage with
  | .running wid _ => some wid
  | .unplaced | .queued | .saved | .retired => none

/-- Withdraw what the lanes of an issuer wait for in saved waves: their arrivals, their signatures and the accesses put back (R249, R258,
R414). -/
def State.stopSaved (s : State) (id : Nat) : State :=
  s.saved.foldl (fun s (wid, x) =>
    let p (k : Nat) : Bool := (x.wave.lane k).item == id
    if x.wave.idx.any p then (s.withdraw wid p).dropFlight wid p else s) s

/-- Lanes of a wave that stop without a trap have none to be recorded (R163, R402). -/
def State.dropRecords (s : State) (wid : Nat) (p : Nat → Bool) : State :=
  { s with trapReqs := s.trapReqs.filterMap (fun (id, r) =>
      if r.wid = wid ∧ wid ≠ 0 ∧ r.lanes.any p = true then
        (if r.lanes.all p then none else some (id, { r with lanes := r.lanes.filter (fun k => !p k) }))
      else some (id, r)) }

/-- Stop an issuer's lanes without a trap, with what they wait for and have in flight (R163 steps 1 to 3). -/
def State.stopIssuer (s : State) (id : Nat) (i : Issuer) : State :=
  let s := s.stopCmds (fun c => c.item == id)
  let s := s.dropVersions id
  let s := if i.isItem then s.disarmItem id else s
  match i.wid? with
  | some wid =>
    let p := i.lanesIn
    let s := s.withdraw wid p
    let s := (s.dropFlight wid p).dropRecords wid p
    let s := if i.isItem then s else (s.disarm (s.waveAt wid).core wid)
    s.modWave wid (fun w => { w with lanes := (List.range w.lanes.length).map (fun k =>
      if p k && (w.lane k).live then { w.lane k with wait := .stopped, due := (w.lane k).due.filter (fun t => t.kind == 0x30) }
      else w.lane k) })
  | none => s.stopSaved id

/-- Decrement the completion-tree count of an issuer's level-0 node without an event; the node's completion is decided by
`drainNode` of the scheduler (R49). Node keys are 256 x level + 16 x by + bx. -/
def State.countDown (s : State) (i : Issuer) : State :=
  s.modJob i.lid (fun j =>
    let key := 16 * (coreY i.home - j.y0) + (coreX i.home - j.x0)
    { j with counts := modKey j.counts key (fun n => n - 1) })

/-- An issuer has no more work and no versions, and is not started again; it completes when what it issued is performed (R50, R401). -/
def State.endIssuer (s : State) (id : Nat) : State :=
  s.modIssuer id (fun i => { i with stage := .retired, killed := true, committed := true, trapped := [] })

/-- Remove an issuer that is discarded: it is not started again, and completes when its issued stores are performed, at once when it has not
run (R163 step 4, R421). -/
def State.discardIssuer (s : State) (id : Nat) : State :=
  match s.issuer? id with
  | none => s
  | some i =>
    let s := s.stopIssuer id i
    if i.done then { s with issuers := del s.issuers id }
    else
    match i.stage with
    | .queued => { (s.countDown i).giveUnits i.lid i.core 1 with issuers := del s.issuers id }
    | .running wid lane =>
      if i.isItem then (s.endLane wid lane).endIssuer id
      else ((s.modWave wid (fun w => { w with lanes := w.lanes.map (fun l => { l with ended := true, wait := .run }) })).retireWave wid).endIssuer id
    | .saved =>
      ({ s with saved := s.saved.map (fun (w, x) => (w, { x with wave := { x.wave with lanes := x.wave.lanes.map (fun l =>
          if l.item == id then { l with ended := true, wait := .run } else l) } })) } : State).endIssuer id
    | .unplaced | .retired => ({ s with formed := s.formed.filter (fun (_, f) => f.items != [id]) } : State).endIssuer id

/-- The lane of a resident wave that holds a spawned item, ended or not. -/
def State.laneOfItem (s : State) (id : Nat) : Option (Nat × Nat) :=
  s.waves.findSome? (fun (wid, w) =>
    if w.kind = .spawned then (w.idx.find? (fun k => (w.lane k).item == id)).map (fun k => (wid, k)) else none)

/-- A spawned item starts again in its lane of a resident packed wave (R163 step 5). -/
def State.rerunLane (s : State) (id : Nat) (i : Issuer) (level : BitVec 2) (wid lane : Nat) : State :=
  s.modLane wid lane (fun l => l.rerun (entryLane lane i.prog.entry (dw i.key) level id (itemRegs i)))

/-- Start an aborted issuer again from its entry state (R163 step 5), unless a cancel has reached its core (R420). A launched wave that is
saved is placed again (log entry 44). An item that ended in a packed wave still resident starts again in its lane there. The rule names
resident and retired packed waves only: an item of a saved one has its lane put back to entry in the saved wave, which is the model's
choice (log entry 115). -/
def State.restartIssuer (s : State) (id : Nat) : State :=
  match s.issuer? id with
  | none => s
  | some i =>
    let clear := fun (j : Issuer) => { j with trapped := [], restart := false }
    let inSaved := i.isItem && s.saved.any (fun (_, x) => x.wave.lanes.any (fun l => l.item == id))
    match s.job? i.lid with
    | none => s
    | some j =>
      if j.reached.contains i.core then s.endIssuer id
      else if i.stage == .saved || (i.stage == .retired && inSaved) then
        if i.isItem then
          let again (l : Lane) (k : Nat) : Lane :=
            if l.item == id then l.rerun (entryLane k i.prog.entry (dw i.key) j.level id (itemRegs i)) else l
          let redo (x : Saved) : Saved := { x with wave := { x.wave with lanes := x.wave.idx.map (fun k => again (x.wave.lane k) k) } }
          ({ s with saved := s.saved.map (fun (w, x) => (w, redo x)) } : State).modIssuer id (fun x => { clear x with stage := .saved })
        else
          let s := s.saved.foldl (fun s (_, x) => if (x.wave.lane 0).item = id then s.disarm x.wave.core x.wid else s) s
          let bars := (s.saved.find? (fun (_, x) => (x.wave.lane 0).item == id)).elim i.bars (fun (_, x) => x.wave.bars)
          let gone (l : Lane) : Lane := if l.item == id then { l with ended := true, item := 0, wait := .run } else l
          let drop (x : Saved) : Saved := { x with wave := { x.wave with lanes := x.wave.lanes.map gone } }
          ({ s with saved := s.saved.map (fun (w, x) => (w, drop x)) } : State).modIssuer id (fun x =>
            { clear x with stage := .unplaced, bars := bars })
      else
        match i.stage with
        | .running wid lane =>
          let s := s.modIssuer id clear
          if i.isItem then s.rerunLane id i j.level wid lane
          else
            let w := s.waveAt wid
            ((s.disarm w.core wid).detachMatrix wid w).modWave wid (fun v => v.restart j id i (s.coreAt w.core).cycle)
        | .retired =>
          if i.isItem then
            match s.laneOfItem id with
            | some (wid, lane) => (s.modIssuer id (fun x => { clear x with stage := .running wid lane })).rerunLane id i j.level wid lane
            | none =>
              let (f, s) := s.fresh
              let x : Formed := { kind := .spawned, core := i.core, vi := i.vi, lid := i.lid, items := [id], order := 0, prog := i.prog }
              let s := { s with formed := put s.formed f x }
              s.modIssuer id (fun x => { clear x with stage := .unplaced, alone := true })
          else s.modIssuer id (fun x => { clear x with stage := .unplaced })
        | .saved | .unplaced | .queued => s

/-- The highest position among uncommitted readers of a line: the read bound (R160). -/
def State.readBound (s : State) (line : Nat) : Option (Nat × Issuer) :=
  let rs := s.issuers.filter (fun (id, i) => !i.committed && s.readers.contains (line, id))
  rs.foldl (fun best x =>
    match best with
    | some b => if posLt b x then some x else some b
    | none => some x) none

/-- Whether an issuer lies above another and at or below a line's read bound (R162). -/
def State.inRange (s : State) (k u : Nat × Issuer) (line : Nat) : Bool :=
  match s.readBound line with
  | some b => u.2.vi == k.2.vi && posLt k u && !posLt b u
  | none => false

/-- One spread of a set of aborted issuers: readers above a discarded version, and descendants (R162). -/
def State.spread (s : State) (set : List Nat) : List Nat :=
  set ++ (s.issuers.filter (fun u =>
    (!u.2.committed || u.2.done) && !set.contains u.1 &&
    (set.contains u.2.parent ||
     (!u.2.done && set.any (fun k =>
       match s.issuer? k with
       | some i => s.versions.any (fun v => v.issuer == k && s.inRange (k, i) u v.line)
       | none => false))))).map Prod.fst

/-- Spread to the end, over at most as many rounds as there are issuers. -/
def State.spreadAll (s : State) : Nat → List Nat → List Nat
  | 0, set => set
  | n + 1, set => s.spreadAll n (s.spread set)

/-- Done issuers that no listed issuer descends from leave the table, the youngest first (R162). -/
def State.pruneDone (s : State) : State :=
  s.issuers.foldr (fun x s =>
    if x.2.done && !s.issuers.any (fun (_, i) => i.parent == x.1) then { s with issuers := del s.issuers x.1 } else s) s

/-- Abort issuers: discard the descendants, restart the others (R162, R163). -/
def State.abortAll (s : State) (ids : List Nat) : State :=
  let set := s.spreadAll s.issuers.length ids
  let isChild (id : Nat) : Bool :=
    match s.issuer? id with
    | some i => set.contains i.parent
    | none => false
  let kids := set.filter isChild
  let roots := set.filter (fun id => !isChild id)
  let s := kids.foldl (fun s id => s.discardIssuer id) s
  roots.foldl (fun s id =>
    match s.issuer? id with
    | some i => (s.stopIssuer id i).restartIssuer id
    | none => s) s

/-- The issuers that a store of issuer j to a line aborts (R162). -/
def State.conflicts (s : State) (j line : Nat) : List Nat :=
  match s.issuer? j with
  | some i => ((s.issuers.filter (fun u => !u.2.committed && !u.2.done && s.inRange (j, i) u line)).map Prod.fst)
  | none => []

/-- Discard an issuer's versions for good, with the aborts that follow, without restarting it (R401). -/
def State.discardVersions (s : State) (id : Nat) : State :=
  let set := (s.spreadAll s.issuers.length [id]).filter (fun x => x != id)
  let isChild (k : Nat) : Bool :=
    match s.issuer? k with
    | some i => set.contains i.parent || i.parent == id
    | none => false
  let kids := set.filter isChild
  let roots := set.filter (fun k => !isChild k)
  let s := (s.dropVersions id).stopCmds (fun c => c.item == id)
  let s := kids.foldl (fun s k => s.discardIssuer k) s
  roots.foldl (fun s k =>
    match s.issuer? k with
    | some i => (s.stopIssuer k i).restartIssuer k
    | none => s) s

/-- The issuers that a wave holds. -/
def Wave.issuers (w : Wave) : List Nat := ((w.lanes.filter (fun l => l.present && l.item != 0)).map Lane.item).eraseDups

/-- Kill a wave (R399): its lanes stop, its versions go, it retires, and its launch is marked with a failure's DETAIL. -/
def State.killWave (s : State) (wid detail : Nat) : State :=
  match s.wave? wid with
  | none => s
  | some w =>
    let ids := w.issuers
    let s := s.withdraw wid (fun _ => true)
    let s := s.dropFlight wid (fun _ => true)
    let s := s.stopCmds (fun c => c.wid == wid)
    let s := s.disarm w.core wid
    let s := ids.foldl (fun s id => s.discardVersions id) s
    let s := ids.foldl (fun s id => s.endIssuer id) s
    let s := (List.range w.lanes.length).foldl (fun s k => s.dropFragment wid k) s
    let s := s.modJob w.lid (fun j => if j.failed = 0 then { j with failed := detail } else j)
    let s := s.modWave wid (fun w => { w with lanes := w.lanes.map (fun l => { l with ended := true, wait := .run }) })
    let s : State := { s with trapReqs := s.trapReqs.filter (fun (_, r) => r.lanes.isEmpty || r.wid != wid || r.wid == 0) }
    s.retireWave wid

/-- The reports kept with a saved wave's claims become records when it ends (R299, R313). -/
def State.savedReports (s : State) (x : Saved) : State :=
  let w : Wave := { x.wave with lanes := x.wave.lanes.map Lane.atEnd }
  let kept := x.tiles.filterMap (fun (t, y) => y.report.map (fun r => (t, r))) ++ (x.latch.bind Latch.report).toList.map (fun r => (4, r))
  kept.foldl (fun s (t, r) => s.reportRecord w t r) s

/-- Kill a saved wave (R399, R401): as a resident one; it is not restored. -/
def State.killSaved (s : State) (wid : Nat) (x : Saved) (detail : Nat) : State :=
  let s := s.savedReports x
  let s := x.wave.idx.foldl (fun s k => s.dueRecords wid k true) s
  let s := (s.withdraw wid (fun _ => true)).dropFlight wid (fun _ => true)
  let s := (s.stopCmds (fun c => c.wid == wid)).disarm x.wave.core wid
  let s := x.wave.issuers.foldl (fun s id => (s.discardVersions id).endIssuer id) s
  let s := (List.range x.wave.lanes.length).foldl (fun s k => s.dropFragment wid k) s
  let s := s.modJob x.wave.lid (fun j => if j.failed = 0 then { j with failed := detail } else j)
  ({ s with saved := del s.saved wid, dropped := (x.wave.vi, x.slot) :: s.dropped } : State).settleBarriers

/-- Drop a wave that is formed and not placed: its items are discarded, its fragments are no longer outstanding (R399, R400). -/
def State.dropFormed (s : State) (fid : Nat) (f : Formed) : State :=
  let s := f.items.foldl (fun s id => s.discardIssuer id) s
  let s := (List.range f.lanes.length).foldl (fun s k => s.dropFragment fid k) s
  { s with formed := del s.formed fid }

end Sys2Proof.Machine
end

