-- ==== Sys2Proof/Machine/Records.lean ====
section
/-!
DEFINITION. What the part itself writes for system software: event records (R422, R423), trap records and fatal records
(R392 to R396), interrupts (R422, R446), and the fatal latch (R400). A record that finds its ring full waits in the state.
-/
namespace Sys2Proof.Machine

/-- The core number under which the part's own accesses stand in the translation caches. -/
def partCore : Nat := 180

/-- The stores of a private page's owner that are not written back and stand at a step of R142 (R434). -/
def privOps (s : State) (lo hi : Nat) (vis : Nat) : List (Nat × Op) :=
  s.ops.filter (fun (_, o) => o.isStore && o.priv && o.vis == vis && decide (lo ≤ o.pa) && decide (o.pa < hi))

/-- Insert an access by its stamp. -/
def insertStamp (x : Nat × Op) : List (Nat × Op) → List (Nat × Op)
  | [] => [x]
  | y :: t => if x.2.stamp ≤ y.2.stamp then x :: y :: t else y :: insertStamp x t

/-- Write the dirty bytes of a private page back (R434 step 3). What is still in flight goes on under the directory. -/
def State.recallPage (s : State) (lo hi : Nat) : State :=
  let mine := (privOps s lo hi 2).foldr insertStamp []
  let s := mine.foldl (fun s (id, o) => ((s.storeBytes o.pa (toBytes o.size o.data)).forget o).endStore id o) s
  { s with ops := s.ops.map (fun ((id, o) : Nat × Op) =>
      (id, if o.priv && decide (lo ≤ o.pa) && decide (o.pa < hi) then { o with priv := false } else o)) }

/-- Finish the reclassification of a page, which is counted: its leaf gets CLS 2 and it leaves transit (R434 step 4). -/
def State.reclassNow (s : State) (leafPa : Nat) : State :=
  match look s.transit leafPa with
  | none => s
  | some t =>
    let base := t.pfn * 2 ^ 16
    let s := s.recallPage base (base + 2 ^ t.bits)
    let leaf := s.numAt leafPa 8
    let s := (s.writeLeaf leafPa (withClass leaf 2 (bits leaf 63 56))).countSlice (homeSlice leafPa) t.vi 0x105 1
    { s with
      transit := del s.transit leafPa
      tlb := s.tlb.filter (fun e => e.leafPa != leafPa)
      waves := s.waves.map (fun (wid, w) => (wid, { w with lanes := w.lanes.map (fun l =>
        if l.wait == .page leafPa then { l with wait := .run } else l) })) }

/-- Translate an access of the part itself in an interface's space at supervisor level; a private page becomes shared first
(R433). The answer is the physical address or the fault's kind. Where the access waits, the step that makes it does not come about yet
(`State.settle`). -/
def State.partXlat (s : State) (vi va acc : Nat) (level : BitVec 2) : State × Except Nat Nat :=
  if 2 ^ 57 ≤ va then (s, .error 0x06)
  else
    match s.translate vi partCore level va acc .engine with
    | (s, .ok pa _ _) => (s, .ok pa)
    | (s, .fault k _) => (s, .error k)
    | (s, .wait leaf) =>
      let at_ := if leaf = 0 then (s.walkOwned va walkLevels (bits (s.sysAt 0x300 vi) 47 12 * 2 ^ 12)).getD 0 else leaf
      ({ s with stall := some at_ }, .error 0x08)

/-- The host window as a message target (R445): whether it is in use and connected. -/
def State.hostUp (s : State) (vi : Nat) : Bool := s.sysBits 0x4C1 vi 63 62 == 3

/-- The host virtual address of a window offset (R445). -/
def State.hostVa (s : State) (vi off : Nat) : Nat := (s.sysAt 0x4C0 vi + off) % 2 ^ 64

/-- Send a message outside. Kinds: 0 load, 1 store, 2 add, 3 compare and swap, 4
interrupt, 5 presentation frame, 6 keepalive, 7 attestation report, 8 refusal, 9 read response, 10 acknowledgement. -/
def State.send (s : State) (m : Msg) : State :=
  { s with out := s.out ++ [m], portSent := if m.port = 1 ∨ m.port = 3 then put s.portSent m.cage s.gt else s.portSent }

/-- The fabric port of a message about a peer's line (R447): the port in use from the line's own upward, unless older messages
about the line are not acknowledged. -/
def State.cageOf (s : State) (peer pa : Nat) : Nat :=
  match look s.lineport (lineOf pa) with
  | some (p, _) => p
  | none =>
    let first := (bits pa 10 7 + peer) % 16
    let order := (List.range 16).map (fun k => (first + k) % 16)
    (order.find? (fun p => !s.fabricDown.contains p)).getD first

/-- Note a message about a line on its way, or its end (R447). -/
def State.lineUse (s : State) (peer pa : Nat) (start : Bool) : State :=
  let cage := s.cageOf peer pa
  match look s.lineport (lineOf pa) with
  | some (p, n) =>
    if start then { s with lineport := put s.lineport (lineOf pa) (p, n + 1) }
    else if n ≤ 1 then { s with lineport := del s.lineport (lineOf pa) }
    else { s with lineport := put s.lineport (lineOf pa) (p, n - 1) }
  | none => if start then { s with lineport := put s.lineport (lineOf pa) (cage, 1) } else s

/-- Send a message to a host window, on the queue pair and with the key of SYS.HOSTKEY (R445). -/
def State.sendHost (s : State) (vi id kind off : Nat) (data : List Byte) : State :=
  s.send { port := 0, dest := vi, id := id, kind := kind, addr := s.hostVa vi off, data := data, cage := s.sysBits 0x4C1 vi 57 56,
           qpn := s.sysBits 0x4C1 vi 55 32, rkey := s.sysBits 0x4C1 vi 31 0 }

/-- Whether what a physical address names can be reached: a peer that is in use and up, a host window that is in use and connected, or the
part's own memory (R442, R446). -/
def State.outsideUp (s : State) (vi pa : Nat) : Bool :=
  if isPeerPa pa then s.sysBits 0x304 (peerOf pa) 63 62 == 3 else if isHostPa pa then s.hostUp vi else true

/-- The lane number of a write that the part itself makes. -/
def partLane : Nat := 64

/-- Whether an access in flight is a write of the part itself. -/
def Op.ofPart (o : Op) : Bool := o.lane == partLane

/-- Bytes as those of each line they touch. -/
def lineParts (pa : Nat) (bs : List Byte) : List (Nat × List Byte) :=
  (linesOf pa bs.length).map (fun l => (max l pa, (bs.drop (max l pa - pa)).take (l + 128 - max l pa)))

/-- Send a write of the part to one line of a peer: it is in flight until the peer acknowledges it (R442, R447). -/
def State.sendPeer (s : State) (vi va pa : Nat) (bs : List Byte) : State :=
  let p := peerOf pa
  let cage := s.cageOf p pa
  let (id, s) := s.fresh
  let o : Op :=
    { act := .store, place := .peer p, vi := vi, wid := id, lane := partLane, core := partCore, pa := pa, addr := va, size := bs.length,
      total := bs.length, data := ofBytes bs, head := id, instr := id, arrived := true }
  (({ s with ops := put s.ops id o } : State).lineUse p pa true).send
    { port := 1, dest := p, id := id, kind := 1, addr := (pa - 2 ^ 47) % 2 ^ 41, data := bs, cage := cage }

/-- Hold a write of the part at lines that an engine command owns (R153, R436). -/
def State.holdStore (s : State) (pa : Nat) (bs : List Byte) : State :=
  let (id, s) := s.fresh
  { s with held := put s.held id { pa := pa, req := .store bs, port := 2 } }

/-- Store bytes of the part at a virtual address; false when its page faults, or what it names cannot be reached (R442, R446). One that
goes outside is done once it is sent (log entry 132). -/
def State.partStore (s : State) (vi va : Nat) (bs : List Byte) : State × Bool :=
  match s.partXlat vi va 1 1 with
  | (s, .error _) => (s, false)
  | (s, .ok pa) =>
    if !s.outsideUp vi pa then (s, false)
    else if isHostPa pa then (s.sendHost vi 0 1 (pa - 2 ^ 46) bs, true)
    else if isPeerPa pa then ((lineParts pa bs).foldl (fun s (a, x) => s.sendPeer vi (va + (a - pa)) a x) s, true)
    else if s.lineOwned pa bs.length then (s.holdStore pa bs, true)
    else (s.storeBytes pa bs, true)

/-- Read n bytes for the part from a peer or the host: what the other side answers is free, and so is whether it refuses (R442, R445). -/
def State.readOutside (s : State) (vi pa n : Nat) : State × Option Nat :=
  let s :=
    if isHostPa pa then s.sendHost vi 0 0 (pa - 2 ^ 46) (toBytes 1 n)
    else s.send { port := 1, dest := peerOf pa, kind := 0, addr := (pa - 2 ^ 47) % 2 ^ 41, data := toBytes 1 n, cage := s.cageOf (peerOf pa) pa }
  let (c, s) := s.choose 2
  if c = 0 then
    let (x, s) := s.freeBits (8 * n)
    (s, some x)
  else (s, none)

/-- Read bytes for the part at a virtual address: none when the page faults, or what it names cannot be reached (R442, R446), and where a command
owns their line, which the step then waits for (R436). What it reads outside is answered at once (log entry 131). -/
def State.partNum (s : State) (vi va n : Nat) (level : BitVec 2) : State × Option Nat :=
  match s.partXlat vi va 0 level with
  | (s, .error _) => (s, none)
  | (s, .ok pa) =>
    if !s.outsideUp vi pa then (s, none)
    else if !isMemory pa then s.readOutside vi pa n
    else if s.lineOwned pa n then ({ s with stall := some (((linesOf pa n).find? (fun l => s.lineOwned l 1)).getD pa) }, none)
    else if s.poisoned pa n then (s, none)
    else (s, some (s.deviceNum pa n))

/-- Raise an interrupt of an interface with a value (R422, R446); one that is due while the pair is down is dropped and
counted. -/
def State.interrupt (s : State) (vi value : Nat) : State :=
  let addr := s.sysBits 0x20F vi 45 3 * 8
  if addr = 0 then s
  else if s.hostUp vi then s.sendHost vi 0 4 addr (toBytes 8 value)
  else s.countSlice 0 vi 0x10B 1

/-- Slots of a queue by its SIZE field (R393). -/
def ringSlots (base : Nat) : Nat := 2 ^ (min (bits base 3 0) 9 + 6)

/-- The address of a queue (R393). -/
def ringBase (base : Nat) : Nat := bits base 56 12 * 2 ^ 12

/-- The versions of an issuer that has retired uncommitted go when its interface is stopped: it counts as committed with none (R401). -/
def State.discardRetired (s : State) (id : Nat) : State :=
  match s.issuer? id with
  | some i => if i.stage == .retired && !i.committed then (s.discardVersions id).modIssuer id (fun i => { i with killed := true, committed := true }) else s
  | none => s

/-- Stop an interface (R400): STOPPED is set and every wave of it is killed, resident, saved or not yet placed; versions of what has retired
are discarded (R401), and items that no wave holds go with them. -/
def State.stopVi (s : State) (vi : Nat) : State :=
  let s := s.sysSetBits 0x10 vi 5 5 1
  let s := (s.waves.filter (fun (_, w) => w.vi == vi)).foldl (fun s (wid, _) => s.killWave wid 2) s
  let s := (s.saved.filter (fun (_, x) => x.wave.vi == vi)).foldl (fun s (wid, x) => s.killSaved wid x 2) s
  let s := (s.formed.filter (fun (_, f) => f.vi == vi)).foldl (fun s (fid, f) => s.dropFormed fid f) s
  let s := (s.issuers.filter (fun (_, i) => i.vi == vi && i.stage == .retired && !i.committed)).foldl (fun s (id, _) => s.discardRetired id) s
  (s.issuers.filter (fun (_, i) => i.vi == vi && (i.stage == .unplaced || i.stage == .queued))).foldl (fun s (id, i) =>
    if i.isItem then s.discardIssuer id
    else (s.endIssuer id).modJob i.lid (fun j => if j.failed = 0 then { j with failed := 2 } else j)) s

/-- Write the fatal interrupt to the interface of SYS.ERRVI (R462). -/
def State.fatalInterrupt (s : State) : State :=
  if s.sysBits 0x402 0xFF 63 63 = 1 then s.interrupt (s.sysBits 0x402 0xFF 5 0) (s.sysAt 0x08 0xFF) else s

/-- Set the fatal latch with a kind and an interface (R400); a set latch keeps its first condition. -/
def State.latch (s : State) (vi kind : Nat) : State :=
  if s.sysBits 0x08 0xFF 63 63 = 1 then s
  else (s.sysPut 0x08 0xFF (2 ^ 63 + kind * 2 ^ 48 + vi % 64 * 2 ^ 40)).fatalInterrupt

/-- A fatal condition of an interface: the latch, and the interface stops (R400). -/
def State.fatal (s : State) (vi kind : Nat) : State := (s.latch vi kind).stopVi vi

/-- The 64 bytes of a trap record but word 0's SEQ (R392). -/
def recordBytes (word0 seq pc key lanes : Nat) (t : Trap) : List Byte :=
  toBytes 8 (word0 + seq) ++ toBytes 8 pc ++ toBytes 8 key ++ toBytes 8 lanes ++ toBytes 8 t.i0.toNat ++ toBytes 8 t.i1.toNat ++
    toBytes 8 t.i2.toNat ++ toBytes 8 t.i3.toNat

/-- Write a fatal record to the fatal slot (R393, R399); FFULL already set, no queue or a faulting page sets the latch. -/
def State.fatalRecord (s : State) (vi word0 pc key lanes : Nat) (t : Trap) : State :=
  let base := s.sysAt 0x18 vi
  let seq := s.sysBits 0x1A vi 31 0
  if bits base 56 12 = 0 ∨ s.sysBits 0x19 vi 63 63 = 1 then s.fatal vi t.kind
  else
    match s.partStore vi (ringBase base + 64 * ringSlots base) (recordBytes word0 seq pc key lanes t) with
    | (s, false) => s.fatal vi t.kind
    | (s, true) =>
      let s := s.sysSetBits 0x19 vi 63 63 1
      if s.sysBits 0x10 vi 6 6 = 1 then s.interrupt vi seq else s

/-- What came of writing a ring record. -/
inductive Wrote where
  | slot (n : Nat)
  | full
  | dead
  deriving DecidableEq, Repr

/-- Write a ring record (R393): its slot, or that the ring is full, or that the queue is absent or faults. -/
def State.ringRecord (s : State) (vi word0 pc key lanes : Nat) (t : Trap) : State × Wrote :=
  let base := s.sysAt 0x18 vi
  let tail := s.sysBits 0x1A vi 31 0
  let n := ringSlots base
  if bits base 56 12 = 0 then (s, .dead)
  else if (tail + 2 ^ 32 - s.sysBits 0x19 vi 31 0) % 2 ^ 32 = n then (s, .full)
  else
    match s.partStore vi (ringBase base + 64 * (tail % n)) (recordBytes word0 tail pc key lanes t) with
    | (s, false) => (s, .dead)
    | (s, true) =>
      let s := s.sysSetBits 0x1A vi 31 0 (tail + 1)
      (if s.sysBits 0x10 vi 6 6 = 1 then s.interrupt vi tail else s, .slot (tail % n))

/-- Write an event record, or answer that it has to wait (R422, R423). -/
def State.tryEvent (s : State) (e : EventReq) : State × Bool :=
  let base := s.sysAt 0x20C e.vi
  let tail := s.sysBits 0x20E e.vi 31 0
  let n := ringSlots base
  let done (s : State) : State :=
    let s := s.sysSetBits 0x20E e.vi 31 0 (tail + 1)
    if e.intr then s.interrupt e.vi tail else s
  if bits base 56 12 = 0 then (done s, true)
  else if (tail + 2 ^ 32 - s.sysBits 0x20D e.vi 31 0) % 2 ^ 32 = n then (s, false)
  else
    match s.partStore e.vi (ringBase base + 32 * (tail % n))
        (toBytes 8 (e.word0.toNat + tail) ++ toBytes 8 e.tagCmd.toNat ++ toBytes 8 e.gt ++ toBytes 8 e.detail.toNat) with
    | (s, true) => (done s, true)
    | (s, false) => (s.fatal e.vi (bits e.word0.toNat 63 56), true)

/-- Post an event record; it waits behind earlier ones of its interface (R422). -/
def State.postEvent (s : State) (e : EventReq) : State :=
  let wait (s : State) : State :=
    let (id, s) := s.fresh
    { s with eventReqs := put s.eventReqs id e }
  if s.eventReqs.any (fun (_, x) => x.vi == e.vi) then wait s
  else
    match s.tryEvent e with
    | (s, true) => s
    | (s, false) => wait s

/-- Write the event records that wait, in their order, while there is room (R422). -/
def State.drainEvents : Nat → State → Nat → State
  | 0, s, _ => s
  | n + 1, s, vi =>
    match s.eventReqs.find? (fun (_, e) => e.vi == vi) with
    | none => s
    | some (id, e) =>
      match s.tryEvent e with
      | (s, true) => ({ s with eventReqs := del s.eventReqs id } : State).drainEvents n vi
      | (s, false) => s

/-- Raise an event of a command: kind, node level and block, TAG, number, DETAIL; kinds 3, 5, 6 and 7 always interrupt. -/
def State.event (s : State) (vi kind level by_ bx tag cmd detail : Nat) (intr : Bool) : State :=
  s.postEvent { vi := vi, word0 := dw (kind * 2 ^ 56 + level * 2 ^ 53 + by_ * 2 ^ 44 + bx * 2 ^ 40), tagCmd := dw (tag * 2 ^ 32 + cmd),
                gt := s.gt, detail := dw detail, intr := intr || kind == 3 || kind == 5 || kind == 6 || kind == 7, due := s.deadline vi }

/-- Post a lane-less record; it waits in the interface's buffer (R396). A record of kind 0x31, 0x33 or 0x34 that finds the
buffer of 16 full is dropped with a fatal record. -/
def State.postLaneless (s : State) (r : TrapReq) : State :=
  let waiting := (s.trapReqs.filter (fun (_, x) => x.vi == r.vi && x.wid == 0)).length
  let keep := r.info.kind = 0x30 ∨ r.info.kind = 0x32 ∨ r.info.kind = 0x1D ∨ r.info.kind = 0x1E
  let wait (s : State) : State :=
    let (id, s) := s.fresh
    { s with trapReqs := put s.trapReqs id r }
  if waiting = 0 then
    match s.ringRecord r.vi r.word0.toNat r.pc.toNat r.key.toNat (r.lanes.foldl (fun m k => m + 2 ^ k) 0) r.info with
    | (s, .slot _) => s
    | (s, .full) => wait s
    | (s, .dead) => s.fatal r.vi r.info.kind
  else if 16 ≤ waiting ∧ ¬ keep then
    s.fatalRecord r.vi (setBits r.word0.toNat 63 56 0x3E) r.pc.toNat r.key.toNat (r.lanes.foldl (fun m k => m + 2 ^ k) 0) { kind := 0x3E, i1 := 1 }
  else wait s

end Sys2Proof.Machine
end

