-- ==== Sys2Proof/Machine/Flags.lean ====
section
/-!
DEFINITION. The sticky flags of a wave (R111, R112) and the flags of integer arithmetic (R110).
-/
namespace Sys2Proof.Machine

/-- Raise flags of a wave now (R112); raising none changes nothing. -/
def State.raise (s : State) (wid : Nat) (f : BitVec 7) : State := if f = 0 then s else s.modWave wid (fun w => w.flag f)

/-- The flag of a saturating result (R110). -/
def satFlag (ty : IntTy) (t : Int) : BitVec 7 := if satTo ty t = t then 0 else fSAT

/-- The flag of a division (R110). -/
def divFlag (b : Int) : BitVec 7 := if b = 0 then fIDZ else 0

end Sys2Proof.Machine
end

