-- ==== Sys2Proof/Machine/Operands.lean ====
section
/-!
DEFINITION. Operand forms (R173, R174, R177): reading a field by its class, a literal in its slot, a typed immediate; whether a
source is empty, and under which policy; whether a lane can issue an instruction (R67); the mask test (R176).
-/
namespace Sys2Proof.Machine

/-- The number that an operand field of a class names, for a lane of a wave (R96, R175, R383). -/
def readOpd (w : Wave) (l : Lane) (o : Opd) (f : BitVec 8) : Nat :=
  match o with
  | .v _ n => l.read f.toNat n
  | .w => (w.rw l.level f.toNat).toNat
  | .k => (w.rk f.toNat).toNat
  | .zero | .kd | .t | .lvl => f.toNat

/-- The first source. -/
def srcA (d : Desc) (x : Fields) (w : Wave) (l : Lane) : Nat := readOpd w l d.a x.sa

/-- The second source, or the literal in its slot (R173): its low bits in the operand's width. -/
def srcB (d : Desc) (x : Fields) (w : Wave) (l : Lane) : Nat :=
  if hasLit x.form then
    match d.b with
    | .v _ n => (litOf x.form).toNat % 2 ^ (32 * n)
    | .w | .k | .zero | .kd | .t | .lvl => (litOf x.form).toNat
  else readOpd w l d.b x.sb

/-- The third source. -/
def srcC (d : Desc) (x : Fields) (w : Wave) (l : Lane) : Nat := readOpd w l d.c x.sc

/-- The value of the register that DST names, for an instruction that reads it. -/
def srcD (d : Desc) (x : Fields) (w : Wave) (l : Lane) : Nat := readOpd w l d.dst x.dst

/-- IMM32 sign-extended to 64 bits, or the literal that stands for it (R172, R173). -/
def immOf (x : Fields) : Nat := if hasLit x.form then (litOf x.form).toNat else sx64 32 x.w2.toNat

/-- Whether an operand is empty (R177). -/
def emptyOpd (w : Wave) (l : Lane) (o : Opd) (f : BitVec 8) : Bool :=
  match o with
  | .v _ n => l.emptyV f.toNat n
  | .w => w.emptyW l.level f.toNat
  | .k => w.emptyK f.toNat
  | .zero | .kd | .t | .lvl => false

/-- The producers that the empty registers of an operand wait for. -/
def pendingOpd (w : Wave) (l : Lane) (o : Opd) (f : BitVec 8) : List Nat :=
  match o with
  | .v _ n => (List.range n).filterMap (fun k => look l.ve (f.toNat + k))
  | .w => (look w.we (wKey l.level f.toNat)).toList
  | .k => if f = 0 then [] else (look w.ke f.toNat).toList
  | .zero | .kd | .t | .lvl => []

/-- A source: its class, its field, whether an empty one traps, and the field's code in the empty-read INFO (R394). -/
structure Source where
  opd : Opd
  f : BitVec 8
  traps : Bool
  code : Nat
  deriving DecidableEq, Repr

/-- The sources an instruction reads, with their policies (R86, R171): DST sources, masks in KM and implied registers block. -/
def sourcesOf (i : Instr) : List Source :=
  let d := descForm i
  let x := fieldsOf i
  match ext i with
  | .waitFull _ | .waitEmpty _ => []
  | .ret _ => [⟨.v 2 2, 14, false, 0⟩]
  | _ =>
    [⟨d.a, x.sa, x.epa, 0⟩] ++ (if hasLit x.form then [] else [⟨d.b, x.sb, x.epb && isReg d.b, 1⟩]) ++ (if d.cDst then [] else [⟨d.c, x.sc, x.epc, 2⟩]) ++
    (if d.dstRead then [⟨d.dst, x.dst, false, 3⟩] else []) ++
    (match ext i with
     | .spawn true y => [⟨.v 4 8, y.w2.setWidth 8, false, 2⟩]
     | .fli y => [⟨.w, (y.w2 &&& 63).setWidth 8, false, 2⟩]
     | .flw y => [⟨.w, (y.w2 &&& 63).setWidth 8, false, 2⟩]
     | .rayqApp y => [⟨.w, (y.w2 &&& 63).setWidth 8, false, 2⟩]
     | _ => [])

/-- The mask of an issue: whether lane k passes KM and KN (R176). -/
def maskBit (x : Fields) (w : Wave) (k : Nat) : Bool := bit (w.rk x.km.toNat).toNat k != x.kn

/-- Whether registers hold an instruction that writes them back: one that waits for a fill (R87). A handler overwrites what a
faulted producer left empty (R88). -/
def Lane.heldDst (l : Lane) (w : Wave) (o : Opd) (f : BitVec 8) : Bool :=
  (pendingOpd w l o f).any (fun id => id != 0 || !l.inh)

/-- Whether a destination is pending: an instruction waits for its fill before it writes (R87). CALL writes v14:v15 (R244), ERET v12 and v13
(R391). -/
def Lane.pendingDst (l : Lane) (w : Wave) (i : Instr) : Bool :=
  let d := descForm i
  (d.dstWrite && l.heldDst w d.dst (fieldsOf i).dst) ||
  (d.cDst && l.heldDst w d.c (fieldsOf i).sc) ||
  (match ext i with
   | .call _ | .callInd _ => l.heldDst w (.v 2 2) 14
   | .eret _ => l.inh && l.heldDst w (.v 2 2) 12
   | _ => false)

/-- Whether a blocking source is empty (R86). -/
def Lane.blockedSource (l : Lane) (w : Wave) (i : Instr) : Bool :=
  (sourcesOf i).any (fun r => !r.traps && emptyOpd w l r.opd r.f)

/-- The producers of an instruction's empty blocking sources. -/
def blockers (w : Wave) (l : Lane) (i : Instr) : List Nat :=
  (sourcesOf i).flatMap (fun r => if r.traps then [] else pendingOpd w l r.opd r.f)

/-- Whether a producer in flight was issued by a lane, alone or with others; an LDW counts as the lowest active lane's (R271). -/
def State.ownProducer (s : State) (wid lane id : Nat) : Bool :=
  (match look s.ops id with | some o => o.wid == wid && o.lane == lane | none => false) ||
  (match look s.fills id with | some f => f.wid == wid && (f.team.contains lane || f.lanes.any (fun x => x.1 == lane)) | none => false) ||
  (match look s.gfx id with | some g => g.wid == wid && g.lane == lane | none => false) ||
  (match look s.tillMsgs id with | some m => m.wid == wid && m.lane == lane | none => false) ||
  (s.coreAt (s.waveAt wid).core).mq.any (fun e => e.id == id && e.wid == wid &&
    (match e.act with
     | .rd cells _ _ => cells.any (fun x => x.1 == lane)
     | .latb _ | .mma _ _ _ | .mmai _ _ _ _ | .zero _ | .st _ _ _ | .mv _ _ _ _ => false)) ||
  (match look s.promises id with | some p => p.wid == wid && p.team.contains lane | none => false)

/-- Whether a lane is inside its pixel-ordered section (R357). -/
def Lane.inside (l : Lane) : Bool :=
  match l.ord with
  | some o => o.inside
  | none => false

/-- Whether a lane inside its section would wait on another agent's producer, which traps (R358). -/
def State.foreignWait (s : State) (wid : Nat) (w : Wave) (k : Nat) (i : Instr) : Bool :=
  let l := w.lane k
  l.inside && l.blockedSource w i && !(blockers w l i).all (fun id => s.ownProducer wid k id)

/-- Whether MRD's second register is pending, where the cell that the lane reads takes a pair (R87, R310). -/
def State.pendingPair (s : State) (w : Wave) (l : Lane) (i : Instr) : Bool :=
  match i with
  | .mrd x =>
    let tile := lookD (s.coreAt w.core).tiles (x.sb.toNat + (l.rv x.sa.toNat).toNat / 256) {}
    tile.kind != 0 && l.heldDst w (.v 1 1) (x.dst + 1)
  | _ => false

/-- Whether a trap is a late delivery, an engine fault or a late fault of a store or an atomic, which a handler and a pixel-ordered section hold back
(R327, R397). -/
def Trap.isLate (t : Trap) : Bool := t.kind == 0x1D || t.kind == 0x1E || t.kind == 0x30

/-- The first trap that is due on a lane and that it can take now: no late one is delivered to a lane in its handler or inside a pixel-ordered
section; another one is a double fault there (R327, R397, R399). -/
def Lane.trapNow (l : Lane) : Option Trap := l.due.find? (fun t => !((l.inh || l.inside) && t.isLate))

/-- Patterns that are refused at issue, because of the wave that executes them (R231, R248, R263, R302, R305, R309, R355, R389). BAR.BLK in
the boot wave is one of them: the rule names spawned, fragment and resolve waves, and the boot wave has no launch either (log entry 116). -/
def State.issueOk (s : State) (w : Wave) (i : Instr) : Bool :=
  match ext i with
  | .bcast _ x => decide (w2f x 5 0 < w.width)
  | .barBlk x =>
    w.kind == .launched &&
    (match s.job? w.lid with
     | some j => decide (max j.width j.height ≤ 2 ^ (x.dst.toNat - 1)) == false || x.dst == 0
     | none => x.dst == 0)
  | .cmtWait _ | .cmtPos _ => w.kind != .fragment && w.kind != .resolve
  | .mrd x => decide (w2f x 5 0 + w.width ≤ 64)
  | .mma _ x | .mmas _ x | .mmai _ x => x.w2.getLsbD 31 || w.width == 64
  | .sysrd x | .syswr x =>
    (match sysReg? (w2f x 15 0) with
     | some r => (sysIndex r w.vi w.core (w2f x 23 16)).isSome
     | none => false)
  | _ => true

/-- Whether the pattern may be executed by the wave at all (R40, R190). -/
def State.issueLegal (s : State) (w : Wave) (i : Instr) : Bool := legal i && declOk i w.regs && s.issueOk w i

/-- Whether a bank sent back an access of a lane for want of room: the lane is held (R67, R415). -/
def State.sentBack (s : State) (wid k : Nat) : Bool := s.ops.any (fun (_, o) => o.probe && o.wid == wid && o.lane == k)

/-- Whether lane k can issue an instruction (R67). Lanes that the mask leaves out read nothing and do not block; an
instruction that R190 refuses needs no operand. -/
def State.ready (s : State) (wid : Nat) (w : Wave) (i : Instr) (k : Nat) : Bool :=
  let l := w.lane k
  l.live && l.wait == .run && l.trapNow.isNone && !s.sentBack wid k &&
  (!s.issueLegal w i ||
   (!w.emptyK (fieldsOf i).km.toNat &&
    (!maskBit (fieldsOf i) w k || (!l.pendingDst w i && !s.pendingPair w l i && (!l.blockedSource w i || s.foreignWait wid w k i)))))

end Sys2Proof.Machine
end

