-- ==== Sys2Proof/Machine/Ops.lean ====
section
/-!
DEFINITION. The operations every meaning is built from: going on to the next instruction, writing results now or later,
TAKING A TRAP (R178, R395, R399, R402) and returning from one (R391), and the common course of an issue (R68, R178, R190).
-/
namespace Sys2Proof.Machine

/-- The answer of every meaning: a next state. -/
abbrev Out := Host.Outcome State Fault Refusal

/-- Note a safe point that a lane passed: a pending wave yields there (R262). -/
def State.safePoint (s : State) (wid lane : Nat) : State :=
  s.modWave wid (fun w => if w.yieldsAt (w.lane lane) then { w with yielding := true } else w)

/-- A lane goes on after an instruction of `len` words (R79). -/
def State.advanceLane (s : State) (wid len lane : Nat) : State :=
  let (l, back) := (s.laneAt wid lane).advance len
  let s := s.modLane wid lane (fun _ => l)
  if back then s.safePoint wid lane else s

/-- A lane branches (R80, R240). -/
def State.jumpLane (s : State) (wid lane : Nat) (target : DWord) : State :=
  let (l, back) := (s.laneAt wid lane).jump target
  let s := s.modLane wid lane (fun _ => l)
  if back then s.safePoint wid lane else s

/-- Let a lane wait in an instruction of `len` words (R241). -/
def State.waitLane (s : State) (wid len lane : Nat) (w : Wait) : State :=
  s.modLane wid lane (fun l => { l with wait := w, ilen := len })

/-- Write n lane registers of a lane, full (R85, R96). -/
def State.putV (s : State) (wid lane r n x : Nat) : State := s.modLane wid lane (fun l => l.write r n x)

/-- Write a wave register at the level of a lane, full. -/
def State.putW (s : State) (wid : Nat) (level : BitVec 2) (r : Nat) (x : Nat) : State :=
  s.modWave wid (fun w => w.ww level r (dw x))

/-- Write a whole mask, full. -/
def State.putK (s : State) (wid r : Nat) (x : Nat) : State := s.modWave wid (fun w => w.wk r (dw x))

/-- Replace bit i of a number. -/
def setBit (x i : Nat) (b : Bool) : Nat := setBits x i i (if b then 1 else 0)

/-- Set one lane's bit of a mask (R212). -/
def State.putKBit (s : State) (wid r lane : Nat) (b : Bool) : State :=
  s.modWave wid (fun w => w.wk r (dw (setBit (w.rk r).toNat lane b)))

/-- The registers that a number of n words fills, lowest first. -/
def wordsFrom (r x : Nat) : Nat → List (Nat × Word)
  | 0 => []
  | n + 1 => (r, BitVec.ofNat 32 x) :: wordsFrom (r + 1) (x / 2 ^ 32) n

/-- One more result on its way, under the next fresh identity (R85). -/
def State.withFill (s : State) (f : Fill) : State := { s with nid := s.nid + 1, fills := put s.fills s.nid f }

/-- Results that come later (R85): each lane's destination of n registers is empty until the fill with this identity. -/
def State.later (s : State) (wid r n : Nat) (vals : List (Nat × Nat)) (flags : List (Nat × BitVec 7)) : State :=
  if vals.isEmpty then s
  else
    let f : Fill := { wid := wid, lanes := vals.map (fun (k, x) => (k, wordsFrom r x n)), flags := flags }
    vals.foldl (fun t (k, _) => t.modLane wid k (fun l => l.setEmpty r n s.nid)) (s.withFill f)

/-- A wave register whose value comes later. -/
def State.laterW (s : State) (wid : Nat) (level : BitVec 2) (team : List Nat) (r x : Nat) : State :=
  let f : Fill := { wid := wid, wave := [(wKey level r, dw x)], team := team }
  (s.withFill f).modWave wid (fun w => { w with we := put w.we (wKey level r) s.nid })

/-- Fill one register of a lane that still waits for this producer. -/
def Lane.fillReg (id : Nat) (l : Lane) (r : Nat) (x : Word) : Lane := if look l.ve r = some id then l.wv r x else l

/-- Deliver a fill to the destinations that still wait for it, with its flags (R85, R112). -/
def State.deliver (s : State) (id : Nat) (f : Fill) : State :=
  let s := f.lanes.foldl (fun s (k, rs) => s.modLane f.wid k (fun l => rs.foldl (fun l (r, x) => l.fillReg id r x) l)) s
  let s := s.modWave f.wid (fun w => f.wave.foldl (fun w (r, x) =>
    if look w.we r = some id then { w with w := put w.w r x, we := del w.we r } else w) w)
  s.raise f.wid (f.flags.foldl (fun m x => m ||| x.2) 0)

/-- The accesses that hold a lane are given up: their destinations keep what they held. -/
def State.dropHeld (s : State) (wid lane id : Nat) : State :=
  let s : State := { s with
    ops := s.ops.filter (fun (_, o) => !(o.head == id && o.wid == wid))
    gfx := s.gfx.filter (fun (j, _) => j != id) }
  let s := s.modLane wid lane (fun l => { l with ve := l.ve.filter (fun x => x.2 != id) })
  s.modWave wid (fun w => { w with we := w.we.filter (fun x => x.2 != id) })

/-- End a lane's wait for a trap: its arrival, signature or request is withdrawn (R241). -/
def State.endWait (s : State) (wid lane : Nat) : State :=
  let s := match (s.laneAt wid lane).wait with
    | .run => s
    | .held id => (s.withdraw wid (fun k => k == lane)).dropHeld wid lane id
    | _ => s.withdraw wid (fun k => k == lane)
  s.modLane wid lane (fun l => { l with wait := .run })

/-- A lane enters its handler after its record was written at a slot (R395). -/
def Lane.enter (l : Lane) (pc : DWord) (slot kind : Nat) (disc : Bool) (entry : DWord) : Lane :=
  let l : Lane :=
    { l with
      tpc := pc &&& 0x01FFFFFFFFFFFFFC, tsv := dw (l.read 12 2), prv := l.level, inh := true, disc := disc, level := 1,
      pc := entry, wait := .run }
  (l.wv 12 (BitVec.ofNat 32 (64 * slot))).wv 13 (BitVec.ofNat 32 kind)

/-- Lanes enter the handler of their interface: the queue's address stands in the supervisor w63. Without a handler the wave
is killed, and the fatal record names the program counter and the issuer of the record written (R392, R395, R399). -/
def State.enterHandler (s : State) (wid : Nat) (lanes : List Nat) (slot : Nat) (disc : Bool) (word0 : Nat) (pc key : DWord) (t : Trap) : State :=
  let w := s.waveAt wid
  let entry := s.sysBits 0x12 w.vi 56 2 * 4
  if entry = 0 then
    let bad : Trap := { kind := 0x3C, i0 := dw t.kind }
    (s.fatalRecord w.vi (word0 % 2 ^ 56 + 0x3C * 2 ^ 56) pc.toNat key.toNat (lanes.foldl (fun m k => m + 2 ^ k) 0) bad).killWave wid 2
  else
    let s := s.modWave wid (fun w => w.ww 1 63 (dw (ringBase (s.sysAt 0x18 w.vi))))
    lanes.foldl (fun s k => s.modLane wid k (fun l => l.enter l.pc slot t.kind disc (dw entry))) s

/-- Whether v12 or v13 of a lane waits for a pending fill, which handler entry waits for (R87, R395); one that a fault left empty has no
producer. -/
def State.entryBlocked (s : State) (wid : Nat) (lanes : List Nat) : Bool :=
  lanes.any (fun k => [12, 13].any (fun r => match look (s.laneAt wid k).ve r with | some j => j != 0 | none => false))

/-- A record of trapping lanes: written at once when the ring has room, and then the lanes enter their handler; else they wait
(R395, R396). -/
def State.record (s : State) (wid : Nat) (lanes : List Nat) (pc : DWord) (key : DWord) (item : Nat) (disc : Bool) (t : Trap) : State :=
  let w := s.waveAt wid
  let first := w.lane (lanes.headD 0)
  let word0 := recordWord0 t.kind 0 0 (bCode disc) first.level.toNat w.slot w.core
  let mask := lanes.foldl (fun m k => m + 2 ^ k) 0
  let hold (s : State) (written : Bool) (slot : Nat) : State :=
    let (id, s) := s.fresh
    let r : TrapReq :=
      { vi := w.vi, wid := wid, lanes := lanes, word0 := dw word0, pc := pc, key := key, info := t, due := s.deadline w.vi, item := item,
        written := written, slot := slot, lid := w.lid }
    let s := { s with trapReqs := put s.trapReqs id r }
    lanes.foldl (fun s k => s.modLane wid k (fun l => { l with wait := .record id })) s
  if s.trapReqs.any (fun (_, r) => r.vi == w.vi && !r.written) then hold s false 0
  else
    match s.ringRecord w.vi word0 pc.toNat key.toNat mask t with
    | (s, .full) => hold s false 0
    | (s, .dead) => s.fatal w.vi t.kind
    | (s, .slot n) => if s.entryBlocked wid lanes then hold s true n else s.enterHandler wid lanes n disc word0 pc key t

/-- A trap at firmware level: the fatal latch, and the boot or the service halts (R384, R456, R457). -/
def State.firmwareTrap (s : State) (wid : Nat) : State :=
  let s := s.latch 0 0x3D
  let s := if s.boot = .service then s else s.sysSetBits 0x400 0xFF 6 4 4
  let s : State := { s with boot := .halted }
  s.modWave wid (fun w => { w with lanes := w.lanes.map (fun l => { l with wait := .stopped }) })

/-- Stop the other lanes of an issuer whose versions go at a trap, those in a handler too, and note which lanes run its handler (R402). -/
def State.discardAtTrap (s : State) (wid : Nat) (lanes : List Nat) (item : Nat) : State :=
  let mine (k : Nat) : Bool := (s.laneAt wid k).item == item && (s.laneAt wid k).live && !lanes.contains k
  let s := s.withdraw wid mine
  let s := s.dropFlight wid mine
  let s := s.dropRecords wid mine
  let s := (s.waveAt wid).idx.foldl (fun s k =>
    if mine k then s.modLane wid k (fun l => { l with wait := .stopped }) else s) s
  let s := s.discardVersions item
  s.modIssuer item (fun i => { i with trapped := lanes, restart := false })

/-- A double fault (R399): the fatal record holds the inner trap, and the wave is killed. -/
def State.doubleFault (s : State) (wid : Nat) (w : Wave) (lanes : List Nat) (pc : DWord) (t : Trap) : State :=
  let l := w.lane (lanes.headD 0)
  let key := if l.item = 0 then w.key else l.key
  let inner : Trap := { kind := 0x3F, i0 := dw t.kind, i1 := t.i0, i2 := t.i1, i3 := t.i2 }
  (s.fatalRecord w.vi (recordWord0 0x3F 0 0 0 l.level.toNat w.slot w.core) pc.toNat key.toNat
    (lanes.foldl (fun m k => m + 2 ^ k) 0) inner).killWave wid 2

/-- Whether a trap on a lane discards its issuer's versions: the issuer has one and does not hold the token (R401, R402). -/
def State.mustDiscard (s : State) (item : Nat) : Bool := item != 0 && s.hasVersion item && !s.holdsToken item

/-- Whether a lane is among those that trapped with their issuer's versions discarded (R402). -/
def State.trappedWith (s : State) (item lane : Nat) : Bool :=
  match s.issuer? item with
  | some i => i.trapped.contains lane
  | none => false

/-- TAKE A TRAP on lanes of one wave, one issuer and one kind, at their program counter (R178, R395): a lane in a handler takes
a double fault (R399), firmware's trap halts it, versions of an issuer that is not the token holder go (R402). -/
def State.takeTrap (s : State) (wid : Nat) (lanes : List Nat) (pc : DWord) (t : Trap) : State :=
  match s.wave? wid with
  | none => s
  | some w =>
    let l := w.lane (lanes.headD 0)
    let key := if l.item = 0 then w.key else l.key
    if w.kind = .boot then s.firmwareTrap wid
    else if lanes.any (fun k => (w.lane k).inh) then s.doubleFault wid w lanes pc t
    else
      let s := lanes.foldl (fun s k => s.endWait wid k) s
      let s := if s.mustDiscard l.item then s.discardAtTrap wid lanes l.item else s
      s.record wid lanes pc key l.item (s.trappedWith l.item (lanes.headD 0)) t

/-- The place of a trap in the order of R178: the codes of R394 rise in it. Fetch faults, which come first, are raised alone. -/
def Trap.rank (t : Trap) : Nat := t.kind

/-- The ranks of traps, rising. -/
def ranksOf (ts : List (Nat × Trap)) : List Nat :=
  (List.range 0x40).filter (fun r => ts.any (fun x => x.2.rank == r))

/-- Insert a lane's trap by its lane. -/
def insertTrap (x : Nat × Trap) : List (Nat × Trap) → List (Nat × Trap)
  | [] => [x]
  | y :: t => if x.1 ≤ y.1 then x :: y :: t else y :: insertTrap x t

/-- The groups that share a record: by kind in the order of R178, in a spawned wave by item, and lanes in a handler apart; within a kind by
the groups' lowest lanes, and in a group by lane (R395). -/
def State.trapGroups (s : State) (wid : Nat) (ts : List (Nat × Trap)) : List (List (Nat × Trap)) :=
  let w := s.waveAt wid
  (ranksOf ts).flatMap (fun r =>
    let mine := (ts.filter (fun x => x.2.rank == r)).foldr insertTrap []
    let tag (k : Nat) : Nat × Bool := (if w.kind = .spawned then (w.lane k).item else 0, (w.lane k).inh)
    ((mine.map (fun x => tag x.1)).eraseDups).map (fun g => mine.filter (fun x => tag x.1 == g)))

/-- The issuers whose versions go with the traps of one issue lose them before any record, whatever the kinds of their lanes' traps (R402);
a double fault kills the wave instead (R399). -/
def State.discardFor (s : State) (wid : Nat) (ts : List (Nat × Trap)) : State :=
  let w := s.waveAt wid
  let lanes := (ts.foldr insertTrap []).map Prod.fst
  if w.kind = .boot ∨ lanes.any (fun k => (w.lane k).inh) then s
  else
    ((lanes.map (fun k => (w.lane k).item)).eraseDups).foldl (fun s item =>
      if s.mustDiscard item then
        let mine := lanes.filter (fun k => (w.lane k).item == item)
        (mine.foldl (fun s k => s.endWait wid k) s).discardAtTrap wid mine item
      else s) s

/-- Raise the traps of one issue: a record for each kind and issuer, with the INFO of its lowest lane (R395). -/
def State.raiseTraps (s : State) (wid : Nat) (pc : DWord) (ts : List (Nat × Trap)) : State :=
  (s.trapGroups wid ts).foldl (fun s g =>
    match g with
    | [] => s
    | (_, t) :: _ => s.takeTrap wid (g.map Prod.fst) pc t) (s.discardFor wid ts)

/-- Return from a handler (R391): v12 and v13 come back from SYS.TSV, the level from PRV, and the lane goes to SYS.TPC; after
an entry that discarded versions it waits for its issuer's restart. -/
def Lane.eret (l : Lane) : Lane :=
  let l := { l with level := if l.prv = 0 then 0 else 1, inh := false }
  let l := (l.wv 12 (l.tsv.setWidth 32)).wv 13 ((l.tsv >>> 32).setWidth 32)
  if l.disc then { l with wait := .restart } else { l with pc := l.tpc }

/-- An issuer restarts when every lane that trapped with its versions discarded has returned, and what its handler did to D pages goes; it is
killed when every one has ended (R402). -/
def State.settleDisc (s : State) (item lane wid : Nat) (returned : Bool) : State :=
  match s.issuer? item with
  | none => s
  | some i =>
    if i.trapped.contains lane then
      let left := i.trapped.filter (fun k => k != lane)
      let s := s.modIssuer item (fun i => { i with trapped := left, restart := i.restart || returned })
      if left.isEmpty then
        if i.restart || returned then s.abortAll [item]
        else if i.isItem then (s.discardVersions item).modIssuer item (fun i => { i with killed := true, committed := true })
        else s.killWave wid 2
      else s
    else s

/-- Return one lane from its handler (R391, R402). -/
def State.eretLane (s : State) (wid lane : Nat) : State :=
  let l := s.laneAt wid lane
  let s := s.modLane wid lane Lane.eret
  if l.disc then s.settleDisc l.item lane wid true else s

/-- What the meaning of an instruction did on its active lanes: the traps raised, and the lanes that do not go on to the next
instruction (they branched, wait, or ended). -/
structure Done where
  s : State
  traps : List (Nat × Trap) := []
  stay : List Nat := []
  deriving DecidableEq, Repr

/-- The trap of a word that is no instruction, and of privilege (R190, R191, R394). -/
def illegalTrap (pc : DWord) : Trap := { kind := 0x02, i0 := pc }
def privilegeTrap (pc : DWord) : Trap := { kind := 0x03, i0 := pc }

/-- The empty-read trap of a lane's first empty source under the trapping policy (R86, R394). -/
def emptyTrap (w : Wave) (l : Lane) (i : Instr) : Option Trap :=
  ((sourcesOf i).find? (fun r => r.traps && emptyOpd w l r.opd r.f)).map
    (fun r => { kind := 0x04, i0 := dw (r.f.toNat + 256 * r.code) })

/-- An ordered-section trap (R360). -/
def orderedTrap (l : Lane) (opc cause block : Nat) : Trap :=
  match l.ord with
  | some o =>
    { kind := 0x20, i0 := dw (cause * 2 ^ 60 + opc * 2 ^ 52 + o.pixel.toNat), i1 := dw o.seq, i2 := dw block,
      i3 := dw (if o.inside then o.since else 0) }
  | none => { kind := 0x20, i0 := dw (cause * 2 ^ 60 + opc * 2 ^ 52) }

/-- NUM and INDEX of a system instruction (R389). -/
def sysNum (x : Fields) : Nat := w2f x 15 0
def sysIdx (x : Fields) : Nat := w2f x 23 16

/-- The register and the instance that a lane's system instruction names, unless the lane may not name it (R384, R385). -/
def State.sysName (s : State) (x : Fields) (w : Wave) (l : Lane) (write : Bool) : Option Nat :=
  match sysReg? (sysNum x) with
  | none => none
  | some r =>
    match sysIndex r w.vi w.core (sysIdx x) with
    | none => none
    | some i =>
      if l.level.toNat < (if write then r.wr else r.rd) then none
      else if l.level = 1 ∧ s.mayName r w.vi i = false then none
      else some i

/-- Whether an active lane may not execute an instruction at its level (R178, R191, R292, R384): a system instruction at user level, a register
that the lane may not name, a BANKREQ that its interface's control register forbids. -/
def State.noPrivilege (s : State) (w : Wave) (l : Lane) (i : Instr) : Bool :=
  (decide (0xB0 ≤ (descOf i).opc) && decide ((descOf i).opc ≤ 0xB3) && l.level == 0) ||
  (match ext i with
   | .sysrd x => (s.sysName x w l false).isNone
   | .syswr x => (s.sysName x w l true).isNone
   | .bankreq _ => s.sysBits 0x10 w.vi 7 7 == 0
   | _ => false)

/-- What an active lane traps with before its instruction has any effect (R178): privilege, then an empty source, then a wait
on another agent inside a section. -/
def State.earlyTrap (s : State) (wid : Nat) (w : Wave) (c : Issue) (i : Instr) (k : Nat) : Option Trap :=
  let l := w.lane k
  if s.noPrivilege w l i then some (privilegeTrap c.pc)
  else
    match emptyTrap w l i with
    | some t => some t
    | none => if s.foreignWait wid w k i then some (orderedTrap l (descOf i).opc 4 0) else none

/-- The lanes of an issue that still stand at its program counter and can issue (R68). -/
def State.group (s : State) (wid : Nat) (w : Wave) (c : Issue) (i : Instr) : List Nat :=
  c.lanes.filter (fun k => (w.lane k).pc == c.pc && s.ready wid w i k)

/-- Close an issue: lanes without a trap and not held go on, then the traps are raised (R79, R178, R395). -/
def Done.close (d : Done) (wid len : Nat) (pc : DWord) (group : List Nat) : State :=
  let go := group.filter (fun k => !d.stay.contains k && !d.traps.any (fun t => t.1 == k))
  let s := go.foldl (fun s k => s.advanceLane wid len k) d.s
  (s.raiseTraps wid pc d.traps)

/-- What an instruction does for the active lanes of an issue that take no early trap. -/
abbrev Eff := State → Issue → Wave → List Nat → Done

/-- The active lanes of an issue: those of its group that the mask passes (R176). -/
def State.activeLanes (s : State) (c : Issue) (w : Wave) (i : Instr) : List Nat :=
  (s.group c.wid w c i).filter (fun k => maskBit (fieldsOf i) w k)

/-- The traps that active lanes take before the instruction has any effect (R178). -/
def State.earlyTraps (s : State) (c : Issue) (w : Wave) (i : Instr) : List (Nat × Trap) :=
  (s.activeLanes c w i).filterMap (fun k => (s.earlyTrap c.wid w c i k).map (fun t => (k, t)))

/-- The active lanes that take no early trap. -/
def State.runSet (s : State) (c : Issue) (w : Wave) (i : Instr) : List Nat :=
  (s.activeLanes c w i).filter (fun k => !(s.earlyTraps c w i).any (fun t => t.1 == k))

/-- A wave with the cycle noted in which lanes last issued (R64); the words of a solo fetch are used up (R76). -/
def Wave.note (w : Wave) (cycle : Nat) (g : List Nat) : Wave :=
  { w with lanes := (List.range w.lanes.length).map (fun k =>
      if g.contains k then { w.lane k with lastIssue := cycle, solo := none } else w.lane k) }

/-- Note the cycle in which lanes last issued (R72). -/
def State.noteIssue (s : State) (wid : Nat) (g : List Nat) : State :=
  s.modWave wid (fun w => w.note (s.coreAt w.core).cycle g)

/-- The state in which an issue's effect is computed: the issue is taken, and noted for its group. -/
def State.issued (s : State) (c : Issue) (w : Wave) (i : Instr) : State :=
  ({ s with cur := none } : State).noteIssue c.wid (s.group c.wid w c i)

/-- The common course of an issue (R68, R178, R190): the group is refused as a whole when the pattern is illegal; else the
active lanes that take no early trap have the instruction's effect. -/
def runLanes (i : Instr) (s : State) (eff : Eff) : Out :=
  match s.cur with
  | none => .next s
  | some c =>
    match s.wave? c.wid with
    | none => .next { s with cur := none }
    | some w =>
      let g := s.group c.wid w c i
      if !s.issueLegal w i then
        .next ((({ s with cur := none } : State).noteIssue c.wid g).raiseTraps c.wid c.pc (g.map (fun k => (k, illegalTrap c.pc))))
      else
        let n := s.issued c w i
        let run := s.runSet c w i
        let d := if run.isEmpty then ⟨n, [], []⟩ else eff n c (n.waveAt c.wid) run
        .next ({ d with traps := s.earlyTraps c w i ++ d.traps }.close c.wid (wordsOf i) c.pc g)

/-- A lane-local result: each active lane computes its registers and flags from its own state (R201). -/
def eachLane (d : Desc) (f : Wave → Lane → Nat × BitVec 7) (dst : BitVec 8) : Eff :=
  fun s c w run =>
    let n := match d.dst with
      | .v _ n => n
      | .zero | .w | .k | .kd | .t | .lvl => 1
    let rs := run.map (fun k => (k, f w (w.lane k)))
    let s := rs.foldl (fun s (k, x, _) => s.putV c.wid k dst.toNat n x) s
    ⟨s.raise c.wid (rs.foldl (fun m (_, _, fl) => m ||| fl) 0), [], []⟩

/-- A function-unit result: computed from the operands at issue, delivered later with its flags (R85, R112, R201). -/
def eachLater (d : Desc) (f : Wave → Lane → Nat × BitVec 7) (dst : BitVec 8) : Eff :=
  fun s c w run =>
    let n := match d.dst with
      | .v _ n => n
      | .zero | .w | .k | .kd | .t | .lvl => 1
    let rs := run.map (fun k => (k, f w (w.lane k)))
    ⟨s.later c.wid dst.toNat n (rs.map (fun (k, x, _) => (k, x))) (rs.map (fun (k, _, fl) => (k, fl))), [], []⟩

/-- A per-lane mask result (R212): each active lane's bit of the mask. -/
def eachBit (f : Wave → Lane → Bool × BitVec 7) (dst : BitVec 8) : Eff :=
  fun s c w run =>
    let rs := run.map (fun k => (k, f w (w.lane k)))
    let s := rs.foldl (fun s (k, b, _) => s.putKBit c.wid dst.toNat k b) s
    ⟨s.raise c.wid (rs.foldl (fun m (_, _, fl) => m ||| fl) 0), [], []⟩

/-- A wave-level effect: once per issue, with the lowest active lane (R202). -/
def onceLane (f : State → Issue → Wave → Nat → State) : Eff :=
  fun s c w run =>
    match run with
    | [] => ⟨s, [], []⟩
    | k :: _ => ⟨f s c w k, [], []⟩

end Sys2Proof.Machine
end

