-- ==== Sys2Proof/Machine/Fetch.lean ====
section
/-!
DEFINITION. From a decided issue to its instruction: fetch of every word (R167), fetch faults (R178), decoding, the loop buffers
(R73, R75, R76), and what a fetch leaves of the group.
-/
namespace Sys2Proof.Machine

/-- The instruction that words hold: one that is malformed in any way is the illegal instruction (R190). -/
def instrOf (ws : List Word) : Instr :=
  match decode ws with
  | .ok i => if legal i then i else .illegalInstruction
  | .error _ => .illegalInstruction

/-- A word in a lane's loop buffer by its address (R75). -/
def Lane.bufWord (l : Lane) (va : Nat) : Option Word := (look l.buf va).map BufWord.word

/-- The words of an instruction that a lane's loop buffer holds whole (R73). -/
def Lane.bufWords (l : Lane) (va : Nat) : Option (List Word) :=
  match l.bufWord va with
  | none => none
  | some w0 =>
    let n := lenWords w0
    let ws := (List.range n).filterMap (fun k => l.bufWord (va + 4 * k))
    if ws.length = n then some ws else none

/-- The least recently used entry that is not in use (R75). -/
def oldestFree (b : FMap BufWord) : Option Nat :=
  (b.foldl (fun best (a, e) =>
    if e.inUse then best
    else
      match best with
      | some (_, age) => if e.age < age then some (a, e.age) else best
      | none => some (a, e.age)) (none : Option (Nat × Nat))).map Prod.fst

/-- Put one executed or fetched word into a lane's loop buffer (R75): 48 entries, replacing the least recently used free one. -/
def Lane.bufPut (l : Lane) (va : Nat) (w : Word) : Lane :=
  let e : BufWord := { word := w, age := l.bufAge + 1, inUse := l.diverged }
  let l := { l with bufAge := l.bufAge + 1 }
  match look l.buf va with
  | some old => { l with buf := put l.buf va { e with word := old.word } }
  | none =>
    if l.buf.length < 48 then { l with buf := put l.buf va e }
    else
      match oldestFree l.buf with
      | some a => { l with buf := put (del l.buf a) va e }
      | none => l

/-- Put the words of an instruction from an address up. -/
def Lane.bufPuts (l : Lane) (va : Nat) : List Word → Lane
  | [] => l
  | w :: t => (l.bufPut va w).bufPuts (va + 4) t

/-- A lane-local instruction that lanes execute enters their loop buffers (R72, R75). The rule does not say whether a lane that the mask leaves
out, or that traps, executes it: every lane of the issue group counts here (log entry 117). -/
def State.fillBuffers (s : State) (c : Issue) (i : Instr) (ws : List Word) : State :=
  if legal i && (descOf i).laneLocal then
    c.lanes.foldl (fun s k => s.modLane c.wid k (fun l => l.bufPuts c.pc.toNat ws)) s
  else s

/-- What a fetch gives an issue: the instruction with the lanes that execute it, or none. -/
structure Fetched where
  s : State
  go : Option (Issue × Instr) := none
  deriving DecidableEq, Repr

/-- Fetch for the lanes of an issue that are at user level or not; a fault is taken by those lanes (R178, R431). -/
def State.fetchAt (s : State) (c : Issue) (w : Wave) (level : BitVec 2) (lanes : List Nat) : Fetched :=
  match s.fetchInstr w level c.pc.toNat with
  | (s, .ok ws) =>
    let c := { c with lanes := lanes }
    let i := instrOf ws
    ⟨s.fillBuffers c i ws, some (c, i)⟩
  | (s, .error (.fault t)) => ⟨s.raiseTraps c.wid c.pc (lanes.map (fun k => (k, t))), none⟩
  | (s, .error (.wait leaf)) => ⟨lanes.foldl (fun s k => s.waitLane c.wid 1 k (.page leaf)) s, none⟩
  | (s, .error (.ok _)) => ⟨s, none⟩

/-- Fetch the instruction of an issue. A solo lane takes the words of its loop buffer (R73). When user lanes of the group fault,
the other lanes go on (R178). -/
def State.fetchIssue (s : State) (c : Issue) : Fetched :=
  match s.wave? c.wid with
  | none => ⟨s, none⟩
  | some w =>
    let here := c.lanes.filter (fun k => (w.lane k).live && (w.lane k).pc == c.pc && (w.lane k).wait == .run)
    let solo := if c.solo then (w.lane (here.headD 0)).bufWords c.pc.toNat else none
    match here, solo with
    | [], _ => ⟨s, none⟩
    | _, some ws =>
      let i := instrOf ws
      ⟨s.fillBuffers { c with lanes := here } i ws, some ({ c with lanes := here }, i)⟩
    | _, none =>
      let user := here.filter (fun k => (w.lane k).level == 0)
      if user.isEmpty then s.fetchAt c w 1 here
      else
        let f := s.fetchAt c w 0 here
        match f.go with
        | some _ => f
        | none =>
          if user.length = here.length then f
          else
            let f := s.fetchAt c w 0 user
            f.s.fetchAt c w 1 (here.filter (fun k => (w.lane k).level != 0))

/-- The instruction a lane would execute next, without any effect of fetching it; a fetch that faults or waits counts as the
illegal instruction, which can always issue (R67). -/
def State.peek (s : State) (w : Wave) (l : Lane) : Instr :=
  match s.fetchInstr w l.level l.pc.toNat with
  | (_, .ok ws) => instrOf ws
  | (_, .error _) => .illegalInstruction

/-- Store twenty bytes of code where the boot wave fetches next, and issue that program counter to its lanes at it: how a
program placed from outside comes to run. -/
def State.placeBoot (s : State) (x : Nat) : State :=
  let w := s.waveAt 0
  let pc := (w.lane 0).pc
  let s := { s with mem := Memory.writes s.mem pc.toNat (toBytes 20 x) }
  let s := s.modCore w.core (fun k => { k with
    icache := k.icache.filter (fun e => decide (e.1 + 4 ≤ pc.toNat) || decide (pc.toNat + 20 ≤ e.1)) })
  { s with issues := [{ wid := 0, pc := pc, lanes := w.idx.filter (fun k => (w.lane k).pc == pc), ws0 := w.ws }] }

/-- An instruction that R190 refuses: every lane of the issue takes the illegal-instruction trap, active or not (R178). -/
def execIllegalInstruction (s : State) : Out :=
  match s.cur with
  | none => .next s
  | some c =>
    match s.wave? c.wid with
    | none => .next { s with cur := none }
    | some w =>
      let g := c.lanes.filter (fun k => (w.lane k).live && (w.lane k).wait == .run && (w.lane k).pc == c.pc && (w.lane k).trapNow.isNone)
      let s := ({ s with cur := none } : State).noteIssue c.wid g
      .next (s.raiseTraps c.wid c.pc (g.map (fun k => (k, illegalTrap c.pc))))

end Sys2Proof.Machine
end

