-- ==== Sys2Proof/Machine/Access.lean ====
section
/-!
DEFINITION. The course of an access in flight (R142 to R149, R268): what it waits for, how a store becomes visible step by step,
how a read is performed at its home slice, and how a result reaches its destination. DESTINATION_FILL and HOME_SLICE_STORE.
-/
namespace Sys2Proof.Machine

/-- The smallest scope whose instance holds both of two lanes (R141). -/
def scopeBetween (a b : Op) : Nat :=
  if a.wid = b.wid ∧ a.lane = b.lane then 0
  else if a.wid = b.wid then 1
  else if a.core = b.core then 2
  else if clusterOf a.core = clusterOf b.core then 3
  else 4

/-- The smallest scope whose instance holds a lane of a wave on a core and an access's lane, of another lane (R141). -/
def RelMark.need (m : RelMark) (wid core : Nat) : Nat :=
  if m.wid = wid then 1 else if m.core = core then 2 else if clusterOf m.core = clusterOf core then 3 else 4

/-- A lane takes over the accesses that it synchronised with, each with the scope it needs: by its own acquire where that is wide enough,
else by a later acquire fence (R148). -/
def Lane.takeOver (l : Lane) (acq : Bool) (scope : Nat) (links : List (Nat × Nat)) : Lane :=
  let now : Nat × Nat → Bool := fun x => acq && decide (x.1 ≤ scope)
  { l with
    seen := l.seen ++ ((links.filter now).map Prod.snd).filter (fun j => !l.seen.contains j)
    cand := l.cand ++ links.filter (fun x => !now x) }

/-- The links that a lane of a wave on a core gets from marks: those whose ordering reaches it (R148). -/
def linksOf (wid core : Nat) (ms : List RelMark) : List (Nat × Nat) :=
  (ms.filter (fun m => decide (m.need wid core ≤ m.scope))).map (fun m => (m.need wid core, m.id))

/-- The widest scope at which a read acquires: its own, or that of an acquire fence after it that is not complete; 0 for none (R147,
R148). -/
def State.acquireScope (s : State) (id : Nat) (o : Op) : Nat :=
  s.ops.foldl (fun n (_, f) =>
    match f.act with
    | .fence .rel => n
    | .fence _ => if f.wid = o.wid ∧ f.lane = o.lane ∧ f.before.any (fun x => x.2 == id) then max n f.scope else n
    | _ => n) (if o.acquires then o.scope else 0)

/-- Accesses join those that come before everything that a read comes before: a release that is under way covers what its lane observed
before it (R148). -/
def State.carry (s : State) (id wid lane : Nat) (js : List Nat) : State :=
  let more (xs : List (Nat × Nat)) : List (Nat × Nat) := xs.flatMap (fun x => if x.2 = id then x :: js.map (fun j => (x.1, j)) else [x])
  if js.isEmpty then s
  else
    let s : State := { s with
      ops := s.ops.map (fun (k, a) => (k, { a with before := more a.before, rset := more a.rset }))
      tillMsgs := s.tillMsgs.map (fun (k, m) => (k, { m with before := more m.before }))
      cmds := s.cmds.map (fun (k, c) => (k, { c with before := c.before.flatMap (fun x => if x = id then x :: js else [x]) })) }
    s.modLaneAny wid lane (fun l => { l with rel := more l.rel })

/-- A lane has read from stores: they are ordered before its releases, also those under way, and what a release carries is taken over
(R148). -/
def State.observe (s : State) (id : Nat) (o : Op) (from_ : List Nat) : State :=
  let acq := s.acquireScope id o
  from_.foldl (fun s j =>
    match look s.ops j with
    | none => s
    | some w =>
      if w.wid = o.wid ∧ w.lane = o.lane then s
      else
        let need := scopeBetween w o
        let links := (w.before.filter (fun (x : Nat × Nat) => decide (need ≤ x.1))).map (fun (x : Nat × Nat) => (need, x.2))
        (s.modLaneAny o.wid o.lane (fun l =>
          ({ l with seen := if l.seen.contains j then l.seen else l.seen ++ [j] }).takeOver true acq links)).carry id o.wid o.lane
            (j :: (if need ≤ acq then links.map Prod.snd else []))) s

/-- The accesses that overlap one in mixed size, from other lanes, with the common bytes (R139): they differ in size or start as accesses,
whatever their pieces. On a D page they are of the same issuer, whose lanes share its version. -/
def State.mixedWith (s : State) (id : Nat) (o : Op) : List (Nat × Nat × Nat) :=
  s.ops.filterMap (fun (j, t) =>
    if j != id && t.place == o.place && (t.place == .line || t.item == o.item) && !t.done && t.vis != 4 && !(t.wid == o.wid && t.lane == o.lane) &&
       t.overlaps o && (t.pa + o.off != o.pa + t.off || t.total != o.total) && (t.isStore || t.writes || o.writes) && t.act != .flush &&
       o.act != .flush && !t.before.any (fun x => x.2 == id) && !o.before.any (fun x => x.2 == j) then
      let lo := max t.pa o.pa
      some (j, lo, min (t.pa + t.size) (o.pa + o.size) - lo)
    else none)

/-- Report a mixed-size overlap when SYS.DBGCTL.MIXSZ asks for it (R139). -/
def State.reportMixed (s : State) (o t : Op) : State :=
  if s.sysBits 0x13 o.vi 0 0 = 1 ∧ ¬ o.priv then
    let info : Trap :=
      { kind := 0x31, i0 := dw (lineOf o.pa), i1 := dw (min o.key.toNat t.key.toNat), i2 := dw (max o.key.toNat t.key.toNat) }
    s.postLaneless
      { vi := o.vi, word0 := dw (recordWord0 0x31 (bCode o.retired) (bCode o.noPc) 0 o.level.toNat o.slot o.core), pc := if o.noPc then 0 else o.pc,
        key := o.key, info := info, due := s.deadline o.vi }
  else s

/-- Mark the bytes of mixed-size overlaps of an access that is about to be performed (R139); the access with its own marks. -/
def State.tear (s : State) (id : Nat) (o : Op) : State × Op :=
  (s.mixedWith id o).foldl (fun (s, o) (j, lo, n) =>
    let s := match look s.ops j with
      | some t => s.reportMixed o t
      | none => s
    ({ s with ops := modKey s.ops j (fun t => { t with torn := (lo, n) :: t.torn }) }, { o with torn := (lo, n) :: o.torn })) (s, o)

/-- Whether a byte of an access is undefined by a mixed-size overlap (R139). -/
def Op.tornAt (o : Op) (pa : Nat) : Bool := o.torn.any (fun (lo, n) => decide (lo ≤ pa) && decide (pa < lo + n))

/-- The bytes an access writes or reads, with a free value for each undefined one (R3, R139). -/
def State.tornBytes (s : State) (o : Op) (f : Nat → Byte) : State × List Byte :=
  (List.range o.size).foldl (fun (s, bs) k =>
    if o.tornAt (o.pa + k) then
      let (b, s) := s.freeBits 8
      (s, bs ++ [BitVec.ofNat 8 b])
    else (s, bs ++ [f (o.pa + k)])) (s, [])

/-- A performed atomic is kept for those who read from it, while an access that it is ordered after is not performed (R148). -/
def State.keepAtomic (s : State) (o : Op) : State :=
  if o.before.any (fun x => has s.ops x.2) then
    s.withOp { act := .store, place := o.place, vi := o.vi, wid := o.wid, lane := o.lane, core := o.core, item := o.item, pa := o.pa, size := o.size,
               total := o.total, before := o.before, vis := 4, stamp := s.nid, instr := s.nid, done := o.place != .line }
  else s

/-- The destination of a faulted producer stays empty, with no producer to wait for (R88). -/
def Lane.orphan (id : Nat) (l : Lane) : Lane := { l with ve := l.ve.map (fun (r, j) => (r, if j = id then 0 else j)) }

/-- Remove an access with its pieces. -/
def State.dropAccess (s : State) (o : Op) : State :=
  { s with ops := s.ops.filter (fun (_, t) => !(t.instr == o.instr && t.wid == o.wid && t.lane == o.lane)) }

/-- The access code of a trap's INFO (R394). -/
def Op.accCode (o : Op) : Nat := if o.reads then (if o.writes then 2 else 0) else 1

/-- A store or atomic that faults after its lane went on (R397): the trap is due on the lane, or a lane-less record is written. -/
def State.lateFault (s : State) (o : Op) (cause : Nat) : State :=
  let s := s.dropAccess o
  let s := s.modLaneAny o.wid o.lane (Lane.orphan o.head)
  let t : Trap :=
    { kind := 0x30, i0 := dw o.addr, i1 := dw (o.total + 256 * o.accCode), i2 := dw cause, pc0 := some o.pc, due := s.deadline o.vi }
  if s.liveLane o.wid o.lane then s.modLaneAny o.wid o.lane (fun l => { l with due := l.due ++ [t] })
  else
    let pc := if o.noPc then 0 else o.pc
    s.postLaneless
      { vi := o.vi, lanes := [o.lane], word0 := dw (recordWord0 0x30 (bCode o.retired) (bCode o.noPc) 0 o.level.toNat o.slot o.core), pc := pc,
        key := o.key, info := t, due := s.deadline o.vi, item := o.item, slot := o.slot, origin := o.wid }

/-- The lanes that an access holds. -/
def State.heldLanes (s : State) (o : Op) : List Nat :=
  let w := s.waveAt o.wid
  w.idx.filter (fun k => (w.lane k).wait == .held o.head)

/-- Take a trap on the lanes that an access holds; the access performs nothing (R268). -/
def State.trapHeld (s : State) (o : Op) (t : Trap) : State :=
  let ks := s.heldLanes o
  let s := s.dropAccess o
  if ks.isEmpty then s
  else
    let s := ks.foldl (fun s k => s.modLane o.wid k (fun l => { l with wait := .run })) s
    s.raiseTraps o.wid (s.laneAt o.wid (ks.headD 0)).pc (ks.map (fun k => (k, t)))

/-- A held load that fails takes the precise address fault, and its destination stays empty (R88, R442). -/
def State.failHeld (s : State) (o : Op) : State :=
  let s := s.modLaneAny o.wid o.lane (Lane.orphan o.head)
  let s := s.modWave o.wid (fun w => { w with we := w.we.map (fun (r, j) => (r, if j = o.head then 0 else j)) })
  s.trapHeld o { kind := 0x06, i0 := dw o.addr, i1 := dw (o.total + 256 * o.accCode) }

/-- The record of a write of the part itself that a peer refused, or whose peer was lost: it has no lane and no program counter (R392, R397,
R442, log entry 132). -/
def State.partFault (s : State) (o : Op) (cause : Nat) : State :=
  (s.dropAccess o).postLaneless
    { vi := o.vi, word0 := dw (recordWord0 0x30 0 1 0 1 0 0), due := s.deadline o.vi,
      info := { kind := 0x30, i0 := dw o.addr, i1 := dw (o.total + 256), i2 := dw cause } }

/-- An access that the other side refused or lost (R442, R446, R448). -/
def State.refuse (s : State) (o : Op) (cause : Nat) : State :=
  if o.ofPart then s.partFault o cause else if o.waits then s.failHeld o else s.lateFault o cause

/-- The bits that an operand of n bytes holds. -/
def lowBytes (x n : Nat) : Nat := x % 2 ^ (8 * n)

/-- The result of a read-modify-write on an old value: the new value, none when nothing is written, and the flags (R277 to
R279). -/
def rmw (act : Act) (size old b cmp : Nat) : Option Nat × BitVec 7 :=
  match act with
  | .atom op ty =>
    let x := tyVal ty old
    let y := tyVal ty b
    let b' := lowBytes b size
    let new :=
      match op with
      | .add => tyPut ty (x + y)
      | .min => if y < x then b' else old
      | .max => if x < y then b' else old
      | .and => old &&& b'
      | .or => old ||| b'
      | .xor => old ^^^ b'
      | .xchg => b'
    (some (lowBytes new size), 0)
  | .cas _ => (if old = lowBytes cmp size then some (lowBytes b size) else none, 0)
  | .fatom op ft =>
    let f := ftFmt ft
    match op with
    | .add =>
      let (r, fl) := fAdd f .rne old (lowBytes b size)
      (some r, fl)
    | .min => (some (fMinMax f false old (lowBytes b size)), 0)
    | .max => (some (fMinMax f true old (lowBytes b size)), 0)
  | .load _ | .store | .fence _ | .flush | .fill | .sete | .drain _ | .push | .pop | .rbrd | .rbadd => (none, 0)

/-- The stores, pending or kept, that a lane's read of bytes reads from; those kept form a chain with the atomics after them (R144, R148). -/
def State.readFrom (s : State) (id : Nat) (o : Op) : List Nat :=
  ((List.range o.size).filterMap (fun k =>
    match s.pendingStore o.wid o.lane o.core id (o.pa + k) with
    | some (j, _) => some j
    | none => none)
    ++ (s.ops.filter (fun (_, t) => t.isStore && t.vis == 4 && t.place == .line &&
          (List.range o.size).any (fun k => t.covers (o.pa + k) && (s.pendingStore o.wid o.lane o.core id (o.pa + k)).isNone))).map Prod.fst).eraseDups

/-- Whether an access lies in a page whose valid leaf a store has changed, without the sequence of R432: its loads return an undefined value
until the page's XLINV by their interface (log entry 130). -/
def State.stalePage (s : State) (o : Op) : Bool :=
  s.leaves.any Sys2Proof.Machine.LeafMark.stale &&
  (match s.leafOf o.vi o.core (o.addr + o.off) with
   | some (leafPa, pbits) =>
     s.leaves.any (fun m => m.stale && m.leafPa == leafPa &&
       !m.cleared.any (fun (v, a) => v == o.vi && xlinvCovers a ((o.addr + o.off) / 2 ^ pbits) pbits))
   | none => false)

/-- The value of a load, or a free one in such a page (R432). -/
def State.pageValue (s : State) (o : Op) (x : Nat) : State × Nat := 
  if s.stalePage o then ((s.freeBits (8 * o.size)).2, (s.freeBits (8 * o.size)).1) else (s, x)

/-- Perform one read at a line (R144, R146, R277 to R279). -/
def State.performRead (s : State) (id : Nat) (o : Op) : State :=
  let src := s.readFrom id o
  let (s, o) := s.tear id o
  if o.writes then
    if s.poisoned o.pa o.size then s.lateFault o 2
    else
      let (s, bs) := s.tornBytes o s.byteAt
      let old := ofBytes bs
      let (new, fl) := rmw o.act o.size old o.data o.cmp
      let s := s.observe id o src
      let s := match new with
        | some x => (s.storeBytes o.pa (toBytes o.size x)).keepAtomic o
        | none => s
      { s with ops := put s.ops id { o with done := true, data := old, flags := fl } }
  else
    let (s, bs) := s.tornBytes o (fun pa => s.viewByte o.wid o.lane o.core id pa)
    let s := s.observe id o src
    let (s, x) := s.pageValue o (ofBytes bs)
    { s with ops := put s.ops id { o with done := true, data := x } }

/-- The aligned bytes of the heads and nodes that a store at va touches in the pool of an open immediate-mode pass (R348). -/
def Pass.poolUnit (p : Pass) (va : Nat) : Option (Nat × Nat) :=
  let off := va - p.pool.toNat
  let heads := 8 * p.w * p.h
  let node := (heads + 0xFFFF) / 0x10000 * 0x10000
  if !p.imm || decide (va < p.pool.toNat) then none
  else if off < heads then some (8, off % 8)
  else if node ≤ off ∧ off < node + p.pages * 0x10000 then some (16, off % 16)
  else none

/-- A lane's store to a pool gives every head and node it touches an undefined value (R3, R348). -/
def State.spoilPool (s : State) (o : Op) : State :=
  s.passes.foldl (fun s (_, p) =>
    if p.vi = o.vi then
      match p.poolUnit (o.addr + o.off) with
      | some (n, r) =>
        let (x, s) := s.freeBits (8 * (n * ((r + o.size + n - 1) / n)))
        s.storeBytes (o.pa - r) (toBytes (n * ((r + o.size + n - 1) / n)) x)
      | none => s
    else s) s

/-- Perform a store at its home slice (R142 step 4); it is kept while a release's orderings before it are not all visible. -/
def State.performStore (s : State) (id : Nat) (o : Op) : State :=
  let (s, o) := s.tear id o
  let (s, bs) := s.tornBytes o o.byte
  (((s.storeBytes o.pa bs).spoilPool o).forget o).endStore id o

/-- A store reaches a step of visibility (R142). -/
def State.promote (s : State) (id : Nat) (o : Op) (level : Nat) : State :=
  if level = 4 then s.performStore id o
  else
    let (n, s) := s.fresh
    { s with ops := put s.ops id { o with vis := level, stamp := n } }

/-- Whether a lane is held for room, by its system instruction, or by a line that an engine command owns: it tries again (R389, R398, R436). -/
def Lane.triesAgain (l : Lane) : Bool := l.wait == .room || l.wait == .sys || l.wait == .page 0

/-- Remove what is complete: fences, stores kept for their orderings, marks on scratchpad words, shadow entries; and let lanes held
for room try again (R149, R398). -/
def State.settleOps (s : State) : State :=
  let s := { s with ops := s.ops.filter (fun (_, o) =>
    match o.act with
    | .fence k => !s.fenceDone k o
    | .store => !(o.vis == 4) || o.before.any (fun x => has s.ops x.2)
    | _ => true) }
  let s := { s with relAt := s.relAt.filter (fun (_, ms) => ms.any (fun m => has s.ops m.id)) }
  let s := s.settleShadow
  { s with waves := s.waves.map (fun (wid, w) => (wid,
      if w.lanes.any Lane.triesAgain then
        { w with lanes := w.lanes.map (fun l => if l.triesAgain then { l with wait := .run } else l) }
      else w)) }

/-- The value of a loaded number in its registers (R269). -/
def msExtend (ms : MS) (x : Nat) : Nat :=
  match ms with
  | .s1 => (signed 8 x % 2 ^ 32).toNat
  | .s2 => (signed 16 x % 2 ^ 32).toNat
  | .b4 | .b1 | .b2 | .b8 | .b16 => x

/-- The pieces of an access. -/
def State.piecesOf (s : State) (o : Op) : List (Nat × Op) :=
  s.ops.filter (fun (_, t) => t.instr == o.instr && t.wid == o.wid && t.lane == o.lane)

/-- Whether a read has all its pieces. -/
def State.readDone (s : State) (o : Op) : Bool := o.reads && (s.piecesOf o).all (fun (_, t) => t.done)

/-- Write a read's result to its destination, with its flags, and let a held lane go on (R85, R112, R268). -/
def State.fillRead (s : State) (o : Op) : State :=
  let ps := s.piecesOf o
  let raw := ps.foldl (fun n (_, t) => n + (if t.place = .bank then t.data else lowBytes t.data t.size * 2 ^ (8 * t.off))) 0
  let x :=
    match o.act with
    | .load ms | .drain ms => msExtend ms raw
    | _ => raw
  let held := if o.waits then s.heldLanes o else []
  let s := s.dropAccess o
  let s :=
    match o.dst with
    | some (.v r) => s.modLaneAny o.wid o.lane (fun l => (wordsFrom r x o.dstN).foldl (fun l (r, y) => l.fillReg o.head r y) l)
    | some (.w r) =>
      s.modWave o.wid (fun w => if look w.we r = some o.head then { w with w := put w.w r (dw x), we := del w.we r } else w)
    | some (.k _) => s
    | none => s
  let s := if o.dst.isNone then s else s.raise o.wid o.flags
  let s := (held.foldl (fun s k => s.leave o.wid k) s)
  s.settleOps

/-- The bytes of a message that carries an access out: a load's size, a store's bytes, an atomic's codes and operands. -/
def Op.payload (o : Op) : List Byte :=
  match o.act with
  | .atom op ty => toBytes 1 (8 * atomCode op + tyCode ty) ++ toBytes o.size o.data
  | .cas ty => toBytes 1 (tyCode ty) ++ toBytes o.size o.cmp ++ toBytes o.size o.data
  | .fatom op ft => toBytes 1 (64 + 8 * fatomCode op + ftCode ft) ++ toBytes o.size o.data
  | .store => toBytes o.size o.data
  | .load _ | .fence _ | .flush | .fill | .sete | .drain _ | .push | .pop | .rbrd | .rbadd => toBytes 1 o.size

/-- Send an access to a peer or to the host (R157, R445, R447). -/
def State.sendAccess (s : State) (id : Nat) (o : Op) : State :=
  let s := { s with ops := put s.ops id { o with arrived := true } }
  match o.place with
  | .peer p =>
    let cage := s.cageOf p o.pa
    (s.lineUse p o.pa true).send
      { port := 1, dest := p, id := id, kind := o.msgKind, addr := (o.pa - 2 ^ 47) % 2 ^ 41, data := o.payload, cage := cage }
  | .host =>
    s.sendHost o.vi id o.msgKind (o.pa - 2 ^ 46) o.payload
  | .line | .dpage | .bank => s

/-- Whether an access goes out to a peer or to the host. -/
def Op.outside (o : Op) : Bool :=
  match o.place with
  | .peer _ | .host => true
  | .line | .dpage | .bank => false

/-- The accesses of one issue to a common unit outside that are not sent yet, by rising lane. -/
def State.sendGroup (s : State) (id : Nat) (o : Op) : List (Nat × Op) := (s.groupOf id o).filter (fun (_, a) => !a.arrived)

/-- Whether an access may be sent out now, with those of its issue to the same unit (R268). -/
def State.sendReady (s : State) (id : Nat) (o : Op) : Bool :=
  o.outside && !o.arrived && (s.sendGroup id o).all (fun (j, a) => s.localOk j a && s.relOk a)

/-- Send an access out, with those of its issue to the same unit, by rising lane (R157, R268). -/
def State.sendAll (s : State) (id : Nat) (o : Op) : State := (s.sendGroup id o).foldl (fun s (j, a) => s.sendAccess j a) s

/-- What DESTINATION_FILL can do with an access: perform a read at its home slice or send it out, or fill the destination. -/
def State.fillDue (s : State) (id : Nat) (o : Op) : Bool :=
  (o.reads && id == o.head && s.readDone o) ||
  (o.reads && o.place == .line && !o.done && (s.groupOf id o).all (fun (j, a) => s.readReady j a)) ||
  (o.reads && s.sendReady id o)

/-- DESTINATION_FILL (R85, R86, R88, R112, R144, R146): a result that is ready is written to its destination, with its flags; a
read that is not performed yet is performed first. -/
def execDestinationFill (s : State) : Out :=
  let id := s.occ.id
  match look s.fills id with
  | some f => .next ({ s with fills := del s.fills id }.deliver id f)
  | none =>
    match look s.ops id with
    | none => .next s
    | some o =>
      if !s.fillDue id o then .next s
      else if o.outside && !o.done then .next (s.sendAll id o)
      else
        let s := if o.done then s else (s.groupOf id o).foldl (fun s (j, a) => s.performRead j a) s
        match look s.ops o.head with
        | some h => if s.readDone h then .next (s.fillRead h) else .next s.settleOps
        | none => .next s.settleOps

/-- Write a line back from a core's L1 and its cluster cache: its stores there are performed, oldest first (R273). -/
def State.writeBack (s : State) (core line : Nat) : State :=
  let mine := s.ops.filter (fun (_, t) => t.isStore && t.place == .line && lineOf t.pa == line &&
    ((t.vis == 2 && t.core == core) || (t.vis == 3 && clusterOf t.core == clusterOf core)))
  let sorted := (mine.filter (fun x => x.2.vis == 3)).foldr insertStamp [] ++ (mine.filter (fun x => x.2.vis == 2)).foldr insertStamp []
  sorted.foldl (fun s (id, _) =>
    match look s.ops id with
    | some o => s.performStore id o
    | none => s) s

/-- What HOME_SLICE_STORE can do with an access: a store reaches a step of R142, is sent out, or a FLUSH is performed. -/
def State.storeDue (s : State) (id : Nat) (o : Op) (level : Nat) : Bool :=
  (o.isStore && o.place == .line && (s.groupOf id o).all (fun (j, a) => s.storeReady j a level)) ||
  (o.isStore && level == 4 && s.sendReady id o) ||
  (o.act == .flush && level == 4 && s.localOk id o)

/-- HOME_SLICE_STORE (R142, R149, R153, R436): a store reaches step 2, 3 or 4 of R142, with the stores of its issue to the same
unit in lane order (R268). -/
def execHomeSliceStore (s : State) : Out :=
  let id := s.occ.id
  let level := s.occ.n
  match look s.ops id with
  | none => .next s
  | some o =>
    if !s.storeDue id o level then .next s
    else if o.act = .flush then .next ({ s.writeBack o.core (lineOf o.pa) with ops := del (s.writeBack o.core (lineOf o.pa)).ops id }).settleOps
    else if o.outside then .next (s.sendAll id o)
    else .next ((s.groupOf id o).foldl (fun s (j, _) =>
      match look s.ops j with
      | some a => s.promote j a level
      | none => s) s).settleOps

end Sys2Proof.Machine
end

