-- ==== Sys2Proof/Machine/IntArith.lean ====
section
/-!
DEFINITION. Integer arithmetic, logic, shifts, bit fields, compares, selects, addresses and moves (R200 to R215): a value function
for each opcode, and one meaning for each form.
-/
namespace Sys2Proof.Machine

/-- Run an instruction whose active lanes each compute their destination at once (R201). -/
def laneOp (i : Instr) (f : Instr → Wave → Lane → Nat × BitVec 7) (s : State) : Out :=
  runLanes i s (eachLane (descOf i) (f i) (fieldsOf i).dst)

/-- Run an instruction whose active lanes each compute their bit of a mask (R212, R220). -/
def bitOp (i : Instr) (f : Instr → Wave → Lane → Bool × BitVec 7) (s : State) : Out :=
  runLanes i s (eachBit (f i) (fieldsOf i).dst)

/-- Run a wave-level instruction (R202). -/
def waveOp (i : Instr) (f : Instr → State → Issue → Wave → Nat → State) (s : State) : Out := runLanes i s (onceLane (f i))

/-- The operands of an instruction on a lane. -/
def opA (i : Instr) (w : Wave) (l : Lane) : Nat := srcA (descOf i) (fieldsOf i) w l
def opB (i : Instr) (w : Wave) (l : Lane) : Nat := srcB (descOf i) (fieldsOf i) w l
def opC (i : Instr) (w : Wave) (l : Lane) : Nat := srcC (descOf i) (fieldsOf i) w l

/-- An exact result reduced by wrapping or by saturation (R205, R110). -/
def reduceAdd (v : AddVar) (ty : IntTy) (t : Int) : Nat × BitVec 7 :=
  match v with
  | .wrap => (tyPut ty t, 0)
  | .sat => (tyPut ty (satTo ty t), satFlag ty t)

/-- An exact product reduced by wrapping, saturation or to its upper half (R205). -/
def reduceMul (v : MulVar) (ty : IntTy) (t : Int) : Nat × BitVec 7 :=
  match v with
  | .wrap => (tyPut ty t, 0)
  | .sat => (tyPut ty (satTo ty t), satFlag ty t)
  | .hi => (tyPut ty (t / (2 ^ tyBits ty : Nat)), 0)

def valIadd (v : AddVar) (ty : IntTy) (i : Instr) (w : Wave) (l : Lane) : Nat × BitVec 7 :=
  reduceAdd v ty (tyVal ty (opA i w l) + tyVal ty (opB i w l))
/-- IMM32 is sign-extended for a signed type and zero-extended for an unsigned one (R172). -/
def valIaddImm (v : AddVar) (ty : IntTy) (i : Instr) (w : Wave) (l : Lane) : Nat × BitVec 7 :=
  reduceAdd v ty (tyVal ty (opA i w l) + tyVal ty (if tySigned ty ∨ hasLit (fieldsOf i).form then immOf (fieldsOf i) else (fieldsOf i).w2.toNat))
def valIsub (v : AddVar) (ty : IntTy) (i : Instr) (w : Wave) (l : Lane) : Nat × BitVec 7 :=
  reduceAdd v ty (tyVal ty (opA i w l) - tyVal ty (opB i w l))
def valImul (v : MulVar) (ty : IntTy) (i : Instr) (w : Wave) (l : Lane) : Nat × BitVec 7 :=
  reduceMul v ty (tyVal ty (opA i w l) * tyVal ty (opB i w l))
def valImad (v : AddVar) (ty : IntTy) (i : Instr) (w : Wave) (l : Lane) : Nat × BitVec 7 :=
  reduceAdd v ty (tyVal ty (opA i w l) * tyVal ty (opB i w l) + tyVal ty (opC i w l))

/-- The quotient, truncated toward zero; 0 for a zero divisor (R110). The quotient of the most negative value by -1 wraps. -/
def valIdiv (ty : IntTy) (i : Instr) (w : Wave) (l : Lane) : Nat × BitVec 7 :=
  let b := tyVal ty (opB i w l)
  (tyPut ty (if b = 0 then 0 else (tyVal ty (opA i w l)).tdiv b), divFlag b)

/-- The remainder, with the sign of the dividend; the dividend for a zero divisor (R110). -/
def valIrem (ty : IntTy) (i : Instr) (w : Wave) (l : Lane) : Nat × BitVec 7 :=
  let b := tyVal ty (opB i w l)
  (tyPut ty (if b = 0 then tyVal ty (opA i w l) else (tyVal ty (opA i w l)).tmod b), divFlag b)

def valImin (ty : IntTy) (i : Instr) (w : Wave) (l : Lane) : Nat × BitVec 7 :=
  let a := tyVal ty (opA i w l)
  let b := tyVal ty (opB i w l)
  (tyPut ty (if b < a then b else a), 0)
def valImax (ty : IntTy) (i : Instr) (w : Wave) (l : Lane) : Nat × BitVec 7 :=
  let a := tyVal ty (opA i w l)
  let b := tyVal ty (opB i w l)
  (tyPut ty (if a < b then b else a), 0)
def valIabs (v : AddVar) (ty : IntTy) (i : Instr) (w : Wave) (l : Lane) : Nat × BitVec 7 :=
  let a := tyVal ty (opA i w l)
  reduceAdd v ty (if a < 0 then -a else a)
def valIneg (v : AddVar) (ty : IntTy) (i : Instr) (w : Wave) (l : Lane) : Nat × BitVec 7 :=
  reduceAdd v ty (-(tyVal ty (opA i w l)))

/-- Bits of a width (R208). -/
def wdBits (wd : Wd) : Nat := 32 * wdRegs wd

def valAnd (i : Instr) (w : Wave) (l : Lane) : Nat × BitVec 7 := (opA i w l &&& opB i w l, 0)
def valOr (i : Instr) (w : Wave) (l : Lane) : Nat × BitVec 7 := (opA i w l ||| opB i w l, 0)
def valXor (i : Instr) (w : Wave) (l : Lane) : Nat × BitVec 7 := (opA i w l ^^^ opB i w l, 0)
def valNot (wd : Wd) (i : Instr) (w : Wave) (l : Lane) : Nat × BitVec 7 := (2 ^ wdBits wd - 1 - opA i w l, 0)

/-- The count of a shift: I6z in a short form, else bits [31:0] of the second source (R209). -/
def shiftCount (i : Instr) (w : Wave) (l : Lane) : Nat :=
  if isShort i then (fieldsOf i).w2.toNat else opB i w l % 2 ^ 32

def valShl (wd : Wd) (i : Instr) (w : Wave) (l : Lane) : Nat × BitVec 7 :=
  let c := shiftCount i w l
  (if c < wdBits wd then opA i w l * 2 ^ c % 2 ^ wdBits wd else 0, 0)
def valShr (wd : Wd) (i : Instr) (w : Wave) (l : Lane) : Nat × BitVec 7 :=
  let c := shiftCount i w l
  (if c < wdBits wd then opA i w l / 2 ^ c else 0, 0)
def valSar (wd : Wd) (i : Instr) (w : Wave) (l : Lane) : Nat × BitVec 7 :=
  let c := min (shiftCount i w l) (wdBits wd)
  ((signed (wdBits wd) (opA i w l) / (2 ^ c : Nat) % (2 ^ wdBits wd : Nat)).toNat, 0)
def valRot (wd : Wd) (i : Instr) (w : Wave) (l : Lane) : Nat × BitVec 7 :=
  let n := wdBits wd
  let c := shiftCount i w l % n
  let a := opA i w l
  (a * 2 ^ c % 2 ^ n + a / 2 ^ (n - c), 0)

/-- The number of set bits among the low n bits. -/
def popcount (x : Nat) : Nat → Nat
  | 0 => 0
  | n + 1 => popcount x n + (if bit x n then 1 else 0)

/-- The number of leading zeros of an n-bit number. -/
def leadingZeros (x : Nat) : Nat → Nat
  | 0 => 0
  | n + 1 => if bit x n then 0 else 1 + leadingZeros x n

/-- Bit k moved to bit n - 1 - k. -/
def reverseBits (x : Nat) : Nat → Nat
  | 0 => 0
  | n + 1 => 2 * reverseBits x n + (if bit x n then 1 else 0)

def valPopc (wd : Wd) (i : Instr) (w : Wave) (l : Lane) : Nat × BitVec 7 := (popcount (opA i w l) (wdBits wd), 0)
def valClz (wd : Wd) (i : Instr) (w : Wave) (l : Lane) : Nat × BitVec 7 := (leadingZeros (opA i w l) (wdBits wd), 0)
def valBrev (wd : Wd) (i : Instr) (w : Wave) (l : Lane) : Nat × BitVec 7 := (reverseBits (opA i w l) (wdBits wd), 0)

/-- A field of FW + 1 bits from FP, zero- or sign-extended to the width (R211). -/
def valBfx (sx : Bool) (wd : Wd) (i : Instr) (w : Wave) (l : Lane) : Nat × BitVec 7 :=
  let x := fieldsOf i
  let n := w2f x 13 8 + 1
  let f := opA i w l / 2 ^ w2f x 5 0 % 2 ^ n
  (if sx then (signed n f % (2 ^ wdBits wd : Nat)).toNat else f, 0)

/-- A field of a replaced by the low bits of b (R211). -/
def valBfi (i : Instr) (w : Wave) (l : Lane) : Nat × BitVec 7 :=
  let x := fieldsOf i
  (setBits (opA i w l) (w2f x 5 0 + w2f x 13 8) (w2f x 5 0) (opB i w l), 0)

/-- A relation in a type's order (R212). -/
def intRel (r : Rel) (a b : Int) : Bool :=
  match r with
  | .eq => a == b | .ne => a != b | .lt => decide (a < b) | .le => decide (a ≤ b) | .gt => decide (b < a) | .ge => decide (b ≤ a)

def bitIcmp (r : Rel) (ty : IntTy) (i : Instr) (w : Wave) (l : Lane) : Bool × BitVec 7 :=
  (intRel r (tyVal ty (opA i w l)) (tyVal ty (opB i w l)), 0)

/-- a where the mask's bit is 1, b where it is 0 (R213). The lane's own index is found from its place in the wave. -/
def selDone (i : Instr) : State → Issue → Wave → List Nat → Done :=
  fun s c w run =>
    let x := fieldsOf i
    let n := match (descOf i).dst with
      | .v _ n => n
      | .zero | .w | .k | .kd | .t | .lvl => 1
    ⟨run.foldl (fun s k =>
      s.putV c.wid k x.dst.toNat n (if bit (opC i w (w.lane k)) k then opA i w (w.lane k) else opB i w (w.lane k))) s, [], []⟩

/-- The scale of LEA (R214). -/
def leaBytes : LeaScale → Nat
  | .x1 => 1 | .x2 => 2 | .x4 => 4 | .x8 => 8 | .x16 => 16

def valLea (xs : LeaScale) (i : Instr) (w : Wave) (l : Lane) : Nat × BitVec 7 :=
  ((opA i w l + opB i w l * leaBytes xs) % 2 ^ 64, 0)

def valMov (i : Instr) (w : Wave) (l : Lane) : Nat × BitVec 7 := (opB i w l % 2 ^ 32, 0)
def valMovHi (i : Instr) (w : Wave) (l : Lane) : Nat × BitVec 7 := (opB i w l / 2 ^ 32 % 2 ^ 32, 0)

/-- w[dst] := b, at the level of the lowest active lane (R202, R215). -/
def fxMovW (i : Instr) (s : State) (c : Issue) (w : Wave) (k : Nat) : State :=
  s.putW c.wid (w.lane k).level (fieldsOf i).dst.toNat (opB i w (w.lane k))

/-- w[dst] := WS as held at the start of the cycle (R112, R215). -/
def fxMovFws (i : Instr) (s : State) (c : Issue) (w : Wave) (k : Nat) : State :=
  s.putW c.wid (w.lane k).level (fieldsOf i).dst.toNat c.ws0.toNat

/-- WS := b, with the flags that land in the same cycle (R112, R215). -/
def fxMovTws (i : Instr) (s : State) (c : Issue) (w : Wave) (k : Nat) : State :=
  s.modWave c.wid (fun v => { v with ws := BitVec.ofNat 7 (opB i w (w.lane k)) ||| v.wsCycle })

/-- IADD, short form (R205). -/
def execIaddShort (b : BitVec 6) (a : BitVec 8) (d : BitVec 8) (s : State) : Out := laneOp (.iaddShort b a d) (valIadd .wrap .s32) s

/-- IADD (R205). -/
def execIadd (v : AddVar) (ty : IntTy) (x : Fields) (s : State) : Out := laneOp (.iadd v ty x) (valIadd v ty) s

/-- ISUB, short form (R205). -/
def execIsubShort (b : BitVec 6) (a : BitVec 8) (d : BitVec 8) (s : State) : Out := laneOp (.isubShort b a d) (valIsub .wrap .s32) s

/-- ISUB (R205). -/
def execIsub (v : AddVar) (ty : IntTy) (x : Fields) (s : State) : Out := laneOp (.isub v ty x) (valIsub v ty) s

/-- IMUL, short form (R205). -/
def execImulShort (b : BitVec 6) (a : BitVec 8) (d : BitVec 8) (s : State) : Out := laneOp (.imulShort b a d) (valImul .wrap .s32) s

/-- IMUL (R205). -/
def execImul (v : MulVar) (ty : IntTy) (x : Fields) (s : State) : Out := laneOp (.imul v ty x) (valImul v ty) s

/-- IADD with an immediate, short form (R205). -/
def execIaddImmShort (i : BitVec 6) (a : BitVec 8) (d : BitVec 8) (s : State) : Out := laneOp (.iaddImmShort i a d) (valIaddImm .wrap .s32) s

/-- IADD with an immediate (R205). -/
def execIaddImm (v : AddVar) (ty : IntTy) (x : Fields) (s : State) : Out := laneOp (.iaddImm v ty x) (valIaddImm v ty) s

/-- IMAD, short form (R205). -/
def execImadShort (b : BitVec 6) (a : BitVec 8) (d : BitVec 8) (s : State) : Out := laneOp (.imadShort b a d) (valImad .wrap .s32) s

/-- IMAD (R205). -/
def execImad (v : AddVar) (ty : IntTy) (x : Fields) (s : State) : Out := laneOp (.imad v ty x) (valImad v ty) s

/-- IDIV, short form (R206). -/
def execIdivShort (b : BitVec 6) (a : BitVec 8) (d : BitVec 8) (s : State) : Out := laneOp (.idivShort b a d) (valIdiv .s32) s

/-- IDIV (R206). -/
def execIdiv (ty : IntTy) (x : Fields) (s : State) : Out := laneOp (.idiv ty x) (valIdiv ty) s

/-- IREM, short form (R206). -/
def execIremShort (b : BitVec 6) (a : BitVec 8) (d : BitVec 8) (s : State) : Out := laneOp (.iremShort b a d) (valIrem .s32) s

/-- IREM (R206). -/
def execIrem (ty : IntTy) (x : Fields) (s : State) : Out := laneOp (.irem ty x) (valIrem ty) s

/-- IMIN, short form (R206). -/
def execIminShort (b : BitVec 6) (a : BitVec 8) (d : BitVec 8) (s : State) : Out := laneOp (.iminShort b a d) (valImin .s32) s

/-- IMIN (R206). -/
def execImin (ty : IntTy) (x : Fields) (s : State) : Out := laneOp (.imin ty x) (valImin ty) s

/-- IMAX, short form (R206). -/
def execImaxShort (b : BitVec 6) (a : BitVec 8) (d : BitVec 8) (s : State) : Out := laneOp (.imaxShort b a d) (valImax .s32) s

/-- IMAX (R206). -/
def execImax (ty : IntTy) (x : Fields) (s : State) : Out := laneOp (.imax ty x) (valImax ty) s

/-- IABS, short form (R207). -/
def execIabsShort (a : BitVec 8) (d : BitVec 8) (s : State) : Out := laneOp (.iabsShort a d) (valIabs .wrap .s32) s

/-- IABS (R207). -/
def execIabs (v : AddVar) (ty : IntTy) (x : Fields) (s : State) : Out := laneOp (.iabs v ty x) (valIabs v ty) s

/-- INEG, short form (R207). -/
def execInegShort (a : BitVec 8) (d : BitVec 8) (s : State) : Out := laneOp (.inegShort a d) (valIneg .wrap .s32) s

/-- INEG (R207). -/
def execIneg (v : AddVar) (ty : IntTy) (x : Fields) (s : State) : Out := laneOp (.ineg v ty x) (valIneg v ty) s

/-- AND, short form (R208). -/
def execAndShort (b : BitVec 6) (a : BitVec 8) (d : BitVec 8) (s : State) : Out := laneOp (.andShort b a d) valAnd s

/-- AND (R208). -/
def execAnd (wd : Wd) (x : Fields) (s : State) : Out := laneOp (.and wd x) valAnd s

/-- OR, short form (R208). -/
def execOrShort (b : BitVec 6) (a : BitVec 8) (d : BitVec 8) (s : State) : Out := laneOp (.orShort b a d) valOr s

/-- OR (R208). -/
def execOr (wd : Wd) (x : Fields) (s : State) : Out := laneOp (.or wd x) valOr s

/-- XOR, short form (R208). -/
def execXorShort (b : BitVec 6) (a : BitVec 8) (d : BitVec 8) (s : State) : Out := laneOp (.xorShort b a d) valXor s

/-- XOR (R208). -/
def execXor (wd : Wd) (x : Fields) (s : State) : Out := laneOp (.xor wd x) valXor s

/-- NOT, short form (R208). -/
def execNotShort (a : BitVec 8) (d : BitVec 8) (s : State) : Out := laneOp (.notShort a d) (valNot .b32) s

/-- NOT (R208). -/
def execNot (wd : Wd) (x : Fields) (s : State) : Out := laneOp (.not wd x) (valNot wd) s

/-- SHL, short form (R209). -/
def execShlShort (c : BitVec 6) (a : BitVec 8) (d : BitVec 8) (s : State) : Out := laneOp (.shlShort c a d) (valShl .b32) s

/-- SHL (R209). -/
def execShl (wd : Wd) (x : Fields) (s : State) : Out := laneOp (.shl wd x) (valShl wd) s

/-- SHR, short form (R209). -/
def execShrShort (c : BitVec 6) (a : BitVec 8) (d : BitVec 8) (s : State) : Out := laneOp (.shrShort c a d) (valShr .b32) s

/-- SHR (R209). -/
def execShr (wd : Wd) (x : Fields) (s : State) : Out := laneOp (.shr wd x) (valShr wd) s

/-- SAR, short form (R209). -/
def execSarShort (c : BitVec 6) (a : BitVec 8) (d : BitVec 8) (s : State) : Out := laneOp (.sarShort c a d) (valSar .b32) s

/-- SAR (R209). -/
def execSar (wd : Wd) (x : Fields) (s : State) : Out := laneOp (.sar wd x) (valSar wd) s

/-- ROT, short form (R209). -/
def execRotShort (c : BitVec 6) (a : BitVec 8) (d : BitVec 8) (s : State) : Out := laneOp (.rotShort c a d) (valRot .b32) s

/-- ROT (R209). -/
def execRot (wd : Wd) (x : Fields) (s : State) : Out := laneOp (.rot wd x) (valRot wd) s

/-- POPC, short form (R210). -/
def execPopcShort (a : BitVec 8) (d : BitVec 8) (s : State) : Out := laneOp (.popcShort a d) (valPopc .b32) s

/-- POPC (R210). -/
def execPopc (wd : Wd) (x : Fields) (s : State) : Out := laneOp (.popc wd x) (valPopc wd) s

/-- CLZ, short form (R210). -/
def execClzShort (a : BitVec 8) (d : BitVec 8) (s : State) : Out := laneOp (.clzShort a d) (valClz .b32) s

/-- CLZ (R210). -/
def execClz (wd : Wd) (x : Fields) (s : State) : Out := laneOp (.clz wd x) (valClz wd) s

/-- BREV, short form (R210). -/
def execBrevShort (a : BitVec 8) (d : BitVec 8) (s : State) : Out := laneOp (.brevShort a d) (valBrev .b32) s

/-- BREV (R210). -/
def execBrev (wd : Wd) (x : Fields) (s : State) : Out := laneOp (.brev wd x) (valBrev wd) s

/-- BFX (R211). -/
def execBfx (sx : Bool) (wd : Wd) (x : Fields) (s : State) : Out := laneOp (.bfx sx wd x) (valBfx sx wd) s

/-- BFI (R211). -/
def execBfi (wd : Wd) (x : Fields) (s : State) : Out := laneOp (.bfi wd x) valBfi s

/-- ICMP, short form (R212). -/
def execIcmpShort (b : BitVec 6) (a : BitVec 8) (k : BitVec 8) (s : State) : Out := bitOp (.icmpShort b a k) (bitIcmp .eq .s32) s

/-- ICMP (R212). -/
def execIcmp (r : Rel) (ty : IntTy) (x : Fields) (s : State) : Out := bitOp (.icmp r ty x) (bitIcmp r ty) s

/-- SEL (R213). -/
def execSel (wd : Wd) (x : Fields) (s : State) : Out := runLanes (.sel wd x) s (selDone (.sel wd x))

/-- LEA, short form (R214). -/
def execLeaShort (b : BitVec 6) (a : BitVec 8) (d : BitVec 8) (s : State) : Out := laneOp (.leaShort b a d) (valLea .x1) s

/-- LEA (R214). -/
def execLea (xs : LeaScale) (x : Fields) (s : State) : Out := laneOp (.lea xs x) (valLea xs) s

/-- MOV, short form (R215). -/
def execMovShort (b : BitVec 6) (d : BitVec 8) (s : State) : Out := laneOp (.movShort b d) valMov s

/-- MOV (R215). -/
def execMov (x : Fields) (s : State) : Out := laneOp (.mov x) valMov s

/-- MOV.W (R215). -/
def execMovW (x : Fields) (s : State) : Out := waveOp (.movW x) fxMovW s

/-- MOV.LO (R215). -/
def execMovLo (x : Fields) (s : State) : Out := laneOp (.movLo x) valMov s

/-- MOV.HI (R215). -/
def execMovHi (x : Fields) (s : State) : Out := laneOp (.movHi x) valMovHi s

/-- MOV.FWS (R215). -/
def execMovFws (x : Fields) (s : State) : Out := waveOp (.movFws x) fxMovFws s

/-- MOV.TWS (R215). -/
def execMovTws (x : Fields) (s : State) : Out := waveOp (.movTws x) fxMovTws s

end Sys2Proof.Machine
end

