-- ==== Sys2Proof/Machine/Global.lean ====
section
/-!
DEFINITION. Issuing accesses to the global space (R266 to R271, R277 to R279): addresses (R187), pieces (R138), every check before
any piece is performed, and the access put in flight; fences (R281), PREF and FLUSH (R273).
-/
namespace Sys2Proof.Machine

/-- What an instruction asks of memory for one lane. -/
structure Want where
  act : Act
  n : Nat
  acc : Nat
  dst : Option RegRef := none
  dstN : Nat := 0
  data : Nat := 0
  cmp : Nat := 0
  mode : Nat := 0
  scope : Nat := 0
  deriving DecidableEq, Repr

/-- The value that the DST field names. -/
def opD (i : Instr) (w : Wave) (l : Lane) : Nat := srcD (descOf i) (fieldsOf i) w l

/-- A global address (R187). -/
def globalAddr (i : Instr) (w : Wave) (l : Lane) : Nat := (opB i w l + opA i w l + immOf (fieldsOf i)) % 2 ^ 64

/-- What an instruction asks for, from its type and operands (R269 to R271, R277 to R279); a plain load or store that names system scope is
relaxed (R157). -/
def wantOf (i : Instr) (w : Wave) (l : Lane) : Want :=
  let x := fieldsOf i
  let v : Option RegRef := some (.v x.dst.toNat)
  let m := x.mode.toNat
  let sc := x.scope.toNat
  let pm := if sc = 5 then 0 else m
  match ext i with
  | .ld ms _ => { act := .load ms, n := msBytes ms, acc := 0, dst := v, dstN := msRegs ms, mode := pm, scope := sc }
  | .st ms _ => { act := .store, n := msBytes ms, acc := 1, data := opD i w l, mode := pm, scope := sc }
  | .ldw ms _ =>
    { act := .load ms, n := msBytes ms, acc := 0, dst := some (.w (wKey l.level x.dst.toNat)), dstN := 1, mode := pm, scope := sc }
  | .stw ms _ => { act := .store, n := msBytes ms, acc := 1, data := opD i w l, mode := pm, scope := sc }
  | .atom op ty _ =>
    { act := .atom op ty, n := 4 * tyRegs ty, acc := 2, dst := v, dstN := tyRegs ty, data := opC i w l, mode := m, scope := sc }
  | .cas ty _ =>
    { act := .cas ty, n := 4 * tyRegs ty, acc := 2, dst := v, dstN := tyRegs ty, data := opC i w l, cmp := opD i w l, mode := m,
      scope := sc }
  | .fatom op ft _ =>
    { act := .fatom op ft, n := 4 * ftRegs ft, acc := 2, dst := v, dstN := ftRegs ft, data := opC i w l, mode := m, scope := sc }
  | _ => { act := .flush, n := 1, acc := 0 }

/-- The largest natural size that starts at an address and does not pass the end (R138). -/
def pieceSize (va rem : Nat) : Nat :=
  if va % 16 = 0 ∧ 16 ≤ rem then 16
  else if va % 8 = 0 ∧ 8 ≤ rem then 8
  else if va % 4 = 0 ∧ 4 ≤ rem then 4
  else if va % 2 = 0 ∧ 2 ≤ rem then 2
  else 1

/-- The pieces of an access, by rising address (R138). -/
def piecesFrom : Nat → Nat → Nat → List (Nat × Nat)
  | 0, _, _ => []
  | fuel + 1, va, rem =>
    if rem = 0 then []
    else (va, pieceSize va rem) :: piecesFrom fuel (va + pieceSize va rem) (rem - pieceSize va rem)

/-- The pieces of an access of n bytes. -/
def pieces (va n : Nat) : List (Nat × Nat) := piecesFrom n va n

/-- A checked piece. -/
structure Piece where
  va : Nat
  pa : Nat
  n : Nat
  priv : Bool
  dpage : Bool
  deriving DecidableEq, Repr

/-- What checking an access answers. -/
inductive Check where
  | ok (ps : List Piece)
  | trap (t : Trap)
  | page (leaf : Nat)
  deriving DecidableEq, Repr

/-- An access trap of a kind (R394). -/
def accTrap (kind va n acc : Nat) : Trap := { kind := kind, i0 := dw va, i1 := dw (n + 256 * acc) }

/-- The rank of an access's trap among those of its pieces (R178): address faults, translation and permission faults, the instruction's own. -/
def Trap.pieceRank (t : Trap) : Nat := if t.kind = 0x06 then 0 else if t.kind = 0x08 ∨ t.kind = 0x09 ∨ t.kind = 0x0A then 1 else 2

/-- The check of pieces with that of a lower one: a page in transit is waited for, and the trap of the lowest rank is raised, of the lower piece
where two have it (R178). -/
def Check.join (a b : Check) : Check :=
  match a, b with
  | .page l, _ => .page l
  | _, .page l => .page l
  | .trap t, .trap u => if u.pieceRank < t.pieceRank then .trap u else .trap t
  | .trap t, .ok _ => .trap t
  | .ok _, .trap u => .trap u
  | .ok ps, .ok qs => .ok (ps ++ qs)

/-- Translate and check one piece of m bytes of an access of n, with the instruction's own check of it (R114, R138, R268). -/
def State.checkPiece (s : State) (w : Wave) (level : BitVec 2) (n acc : Nat) (own : Piece → Option Trap) (va m : Nat) : State × Check :=
  if 2 ^ 57 ≤ va then (s, .trap (accTrap 0x06 va n acc))
  else
    match s.translateFor w level va acc (if acc = 2 then .atomic else .lane) with
    | (s, .fault 0x0A k) => (s, .trap { kind := 0x0A, i0 := dw k })
    | (s, .fault k i) => (s, .trap { accTrap k va n acc with i2 := dw i })
    | (s, .wait leaf) => (s, .page leaf)
    | (s, .ok pa priv dpage) =>
      let p : Piece := { va := va, pa := pa, n := m, priv := priv, dpage := dpage }
      if !isMemory pa && !isPeerPa pa && !isHostPa pa then (s, .trap (accTrap 0x06 va n acc))
      else (s, match own p with | some t => .trap t | none => .ok [p])

/-- Translate and check pieces, the trap that ranks first among theirs (R114, R138, R178, R268). -/
def State.checkAll (s : State) (w : Wave) (level : BitVec 2) (n acc : Nat) (own : Piece → Option Trap) : List (Nat × Nat) → State × Check
  | [] => (s, .ok [])
  | (va, m) :: t =>
    let (s, a) := s.checkPiece w level n acc own va m
    let (s, b) := s.checkAll w level n acc own t
    (s, a.join b)

/-- Pieces without a check of the instruction's own. -/
def State.checkPieces (s : State) (w : Wave) (level : BitVec 2) (n acc : Nat) (ps : List (Nat × Nat)) : State × Check :=
  s.checkAll w level n acc (fun _ => none) ps

/-- Whether a peer or the host can be reached for an access (R442, R446). -/
def State.reachable (s : State) (vi : Nat) (want : Want) (pa : Nat) : Bool :=
  if isPeerPa pa then s.sysBits 0x304 (peerOf pa) 63 62 == 3
  else if isHostPa pa then
    s.hostUp vi &&
    (match want.act with
     | .load _ | .store | .flush => true
     | .cas ty => ty == .z64
     | .atom op ty => op == .add && ty == .z64
     | _ => false)
  else true

/-- Whether a launch forbids order-sensitive operations outside D pages (R62). -/
def State.detOf (s : State) (w : Wave) : Bool :=
  match s.job? w.lid with
  | some j => j.det
  | none => false

/-- Whether an access is a floating-point atomic. -/
def isFloatAtom : Act → Bool
  | .fatom _ _ => true
  | _ => false

/-- Whether a line is a counter line (R282). -/
def State.counterLine (s : State) (pa : Nat) : Bool := has s.tills (lineOf pa)

/-- The instruction's own checks of a translated piece (R62, R279, R282, R355, R442, R446, R462). -/
def State.ownTrap (s : State) (w : Wave) (want : Want) (p : Piece) : Option Trap :=
  let n := want.n
  if !s.reachable w.vi want p.pa then some (accTrap 0x06 p.va n want.acc)
  else if want.acc = 0 ∧ s.poisoned p.pa p.n then some { accTrap 0x06 p.va n want.acc with i2 := 2 }
  else if p.dpage ∧ (w.kind = .fragment ∨ w.kind = .resolve) then some (accTrap 0x10 p.va n want.acc)
  else if isFloatAtom want.act = true ∧ p.dpage = false ∧ s.detOf w = true then some (accTrap 0x10 p.va n want.acc)
  else if want.acc ≠ 0 ∧ s.counterLine p.pa then some { kind := 0x11, i0 := dw (lineOf p.va) }
  else none

/-- Every check of one lane's access before any of it is performed (R138, R178, R268). -/
def State.checkAccess (s : State) (w : Wave) (level : BitVec 2) (want : Want) (va : Nat) : State × Check :=
  if want.acc = 2 ∧ va % want.n ≠ 0 then (s, .trap (accTrap 0x05 va want.n 2))
  else
    s.checkAll w level want.n want.acc (s.ownTrap w want) (pieces va want.n)

/-- The order key of a lane's issuer. -/
def Lane.keyIn (l : Lane) (w : Wave) : DWord := if l.item = 0 then w.key else l.key

/-- What an access of a lane is ordered after when it is a release (R147, R148): the lane's accesses and those it observed. -/
def State.releaseSet (s : State) (wid lane instr : Nat) : List Nat :=
  let own := (s.ops.filter (fun (_, o) => o.wid == wid && o.lane == lane && o.instr != instr &&
    (match o.act with | .fence _ => false | _ => true))).map Prod.fst
  (own ++ ((s.laneAt wid lane).seen ++ (s.laneAt wid lane).rel.map Prod.snd).filter (fun j => has s.ops j)).eraseDups

/-- What the release fences of an access's lane order before it: only what writes comes after a release fence (R147). -/
def State.fencedBefore (s : State) (o : Op) : List (Nat × Nat) :=
  if o.writes then (s.laneAt o.wid o.lane).rel.filter (fun x => has s.ops x.2) else []

/-- What an access is ordered after as a release at a scope (R147, R148). -/
def State.releaseBefore (s : State) (o : Op) (scope : Nat) : List (Nat × Nat) := (s.releaseSet o.wid o.lane o.instr).map (fun j => (scope, j))

/-- An access with the orderings that its MODE and the lane's fences give it (R147, R148). -/
def State.ordered (s : State) (o : Op) (release : Bool) (scope : Nat) : Op :=
  { o with before := (if release then s.releaseBefore o scope else []) ++ s.fencedBefore o }

/-- Mark an access's destination empty, pending it (R85). -/
def State.awaitDst (s : State) (o : Op) : State :=
  match o.dst with
  | some (.v r) => s.modLane o.wid o.lane (fun l => l.setEmpty r o.dstN o.head)
  | some (.w r) => s.modWave o.wid (fun w => { w with we := put w.we r o.head })
  | some (.k _) => s
  | none => s

/-- An access of a lane before its place is filled in. -/
def newOp (c : Issue) (w : Wave) (k instr : Nat) (want : Want) (va : Nat) : Op :=
  { act := want.act, vi := w.vi, wid := c.wid, slot := w.slot, lane := k, core := w.core, lid := w.lid, item := (w.lane k).item, pc := c.pc,
    key := (w.lane k).keyIn w, level := (w.lane k).level, instr := instr, addr := va, total := want.n, dst := want.dst, dstN := want.dstN,
    cmp := want.cmp, mode := want.mode, scope := want.scope,
    pass := if w.kind = .fragment ∨ w.kind = .resolve then some w.pass else none }

/-- One piece of an access: where it is made, and its part of the data (R138). -/
def pieceOp (o : Op) (want : Want) (va : Nat) (p : Piece) : Op :=
  let place : Place :=
    if p.dpage then .dpage else if isPeerPa p.pa then .peer (peerOf p.pa) else if isHostPa p.pa then .host else .line
  { o with
    place := place, pa := p.pa, off := p.va - va, size := p.n, priv := p.priv,
    data := if want.acc = 1 then want.data / 2 ^ (8 * (p.va - va)) % 2 ^ (8 * p.n) else want.data }

/-- Whether a read goes outside the module, which holds its lanes (R442, R446). -/
def readsOutside (want : Want) (ps : List Piece) : Bool := want.acc == 0 && ps.any (fun p => isPeerPa p.pa || isHostPa p.pa)

/-- The part with one access in flight for each piece (R138). -/
def State.withPieces (m : State) (o : Op) (want : Want) (va : Nat) (ps : List Piece) : State :=
  ps.foldl (fun s p => s.withOp (pieceOp o want va p)) m

/-- A checked access of lanes, before its orderings: the identity that its destination awaits, whether its lanes are held, and the lanes
that wait with its own. -/
def sentOp (c : Issue) (w : Wave) (k instr : Nat) (want : Want) (va head : Nat) (held : Bool) (team : List Nat) : Op :=
  { newOp c w k instr want va with head := head, waits := held, team := team }

/-- Put a checked access in flight; a read from outside the module holds its lanes (R442, R446). -/
def State.startAccess (s : State) (c : Issue) (w : Wave) (k instr : Nat) (want : Want) (va len : Nat) (team : List Nat)
    (ps : List Piece) : State × Bool :=
  let head := s.nid
  let hold := readsOutside want ps
  let o := s.ordered (sentOp c w k instr want va head hold team) (decide (2 ≤ want.mode)) want.scope
  let s := (s.withPieces o want va ps).awaitDst o
  if hold then ((k :: team).foldl (fun s k => s.waitLane c.wid len k (.held head)) s, true) else (s, false)

/-- The store and atomic instructions of a wave that are outstanding (R398). -/
def State.outstanding (s : State) (wid : Nat) : Nat :=
  (((s.ops.filter (fun (_, o) => o.wid == wid && o.outstanding)).map (fun (_, o) => o.instr)).eraseDups).length

/-- Whether a store or atomic instruction finds no room in the wave, which has 16 outstanding (R398). -/
def State.noRoom (s : State) (i : Instr) (c : Issue) (w : Wave) : Bool :=
  (wantOf i w (w.lane 0)).acc != 0 && decide (16 ≤ s.outstanding c.wid)

/-- One lane of a global access. -/
def globalLane (i : Instr) (full : Bool) (instr : Nat) (c : Issue) (w : Wave) (d : Done) (k : Nat) : Done :=
  let want := wantOf i w (w.lane k)
  let va := globalAddr i w (w.lane k)
  if full then { d with s := d.s.waitLane c.wid (wordsOf i) k .room, stay := k :: d.stay }
  else
    match d.s.checkAccess w (w.lane k).level want va with
    | (s, .trap t) => { d with s := s, traps := d.traps ++ [(k, t)] }
    | (s, .page leaf) => { d with s := s.waitLane c.wid (wordsOf i) k (.page leaf), stay := k :: d.stay }
    | (s, .ok ps) =>
      let (s, held) := s.startAccess c w k instr want va (wordsOf i) [] ps
      { d with s := s, stay := if held then k :: d.stay else d.stay }

/-- Run LD, ST, ATOM, CAS or FATOM (R268, R270, R277 to R279, R398). -/
def globalEff (i : Instr) : Eff := fun s c w run => run.foldl (globalLane i (s.noRoom i c w) s.nid c w) ⟨s.fresh.2, [], []⟩

/-- `globalEff` in the common course of an issue (R178). -/
def globalOp (i : Instr) (s : State) : Out := runLanes i s (globalEff i)

/-- Run LDW or STW (R271): once, for the lowest active lane; a trap or a wait is that of every active lane. -/
def waveAccessEff (i : Instr) : Eff := fun s c w run =>
    match run with
    | [] => ⟨s, [], []⟩
    | k :: team =>
      let want := wantOf i w (w.lane k)
      if s.noRoom i c w then ⟨run.foldl (fun s k => s.waitLane c.wid (wordsOf i) k .room) s, [], run⟩
      else
        let (instr, s) := s.fresh
        let va := globalAddr i w (w.lane k)
        match s.checkAccess w (w.lane k).level want va with
        | (s, .trap t) => ⟨s, run.map (fun k => (k, t)), []⟩
        | (s, .page leaf) => ⟨run.foldl (fun s k => s.waitLane c.wid (wordsOf i) k (.page leaf)) s, [], run⟩
        | (s, .ok ps) =>
          let (s, held) := s.startAccess c w k instr want va (wordsOf i) team ps
          ⟨s, [], if held then run else []⟩

/-- `waveAccessEff` in the common course of an issue (R178). -/
def waveAccessOp (i : Instr) (s : State) : Out := runLanes i s (waveAccessEff i)

/-- Run FENCE (R147, R149, R158, R281): a fence at lane scope waits for nothing. -/
def fenceEff (kind : FenceKind) (scope : Nat) : Eff := fun s c _ run =>
    ⟨if scope = 0 then s else run.foldl (fun s k => s.addFence c.wid k kind scope (s.releaseSet c.wid k 0)) s, [], []⟩

/-- `fenceEff` in the common course of an issue (R178). -/
def fenceOp (i : Instr) (kind : FenceKind) (scope : Nat) (s : State) : Out := runLanes i s (fenceEff kind scope)

/-- Run PREF (R273): it changes no value; its translation may classify the page (R433), and a fault does nothing. -/
def prefEff (i : Instr) : Eff := fun s _ w run =>
    ⟨run.foldl (fun s k =>
      let va := globalAddr i w (w.lane k)
      if 2 ^ 57 ≤ va then s else (s.translateFor w (w.lane k).level va 0 .lane).1) s, [], []⟩

/-- `prefEff` in the common course of an issue (R178). -/
def prefOp (i : Instr) (s : State) : Out := runLanes i s (prefEff i)

/-- The access of a FLUSH to the line of a piece (R273). -/
def flushOf (c : Issue) (w : Wave) (k instr va head : Nat) (p : Piece) : Op :=
  { newOp c w k instr { act := .flush, n := 1, acc := 0 } va with head := head, pa := lineOf p.pa, size := 128, priv := p.priv }

/-- Run FLUSH (R273): it faults as a load of one byte, and is performed after the lane's earlier accesses to the line. -/
def flushLane (i : Instr) (instr : Nat) (c : Issue) (w : Wave) (d : Done) (k : Nat) : Done :=
      let want : Want := { act := .flush, n := 1, acc := 0 }
      let va := globalAddr i w (w.lane k)
      match d.s.checkAccess w (w.lane k).level want va with
      | (s, .trap t) => { d with s := s, traps := d.traps ++ [(k, t)] }
      | (s, .page leaf) => { d with s := s.waitLane c.wid (wordsOf i) k (.page leaf), stay := k :: d.stay }
      | (s, .ok ps) =>
        match ps with
        | p :: _ =>
          if p.dpage || isPeerPa p.pa || isHostPa p.pa then { d with s := s }
          else
            { d with s := s.withOp (flushOf c w k instr va s.nid p) }
        | [] => { d with s := s }

/-- FLUSH on every active lane (R273). -/
def flushEff (i : Instr) : Eff := fun s c w run => run.foldl (flushLane i s.nid c w) ⟨s.fresh.2, [], []⟩

/-- `flushEff` in the common course of an issue (R178). -/
def flushOp (i : Instr) (s : State) : Out := runLanes i s (flushEff i)

end Sys2Proof.Machine
end

