-- ==== Sys2Proof/Machine/Spad.lean ====
section
/-!
DEFINITION. Scratchpad accesses (R116 to R118, R130 to R132, R266, R268, R272, R274 to R276): issue with every check, the bank's
service in order of arrival, row barriers, and REMOTE_SCRATCHPAD_ACCESS.
-/
namespace Sys2Proof.Machine

/-- A scratchpad address (R187, R266). -/
def spadAddress (i : Instr) (w : Wave) (l : Lane) : Nat := (opA i w l + immOf (fieldsOf i)) % 2 ^ 32

/-- What a scratchpad instruction asks for (R272 to R279); a short form orders at core scope (R141). -/
def spadWant (i : Instr) (w : Wave) (l : Lane) : Want :=
  let x := fieldsOf i
  let v : Option RegRef := some (.v x.dst.toNat)
  let m := x.mode.toNat
  let sc := if isShort i then 2 else x.scope.toNat
  match ext i with
  | .lds ms _ => { act := .load ms, n := msBytes ms, acc := 0, dst := v, dstN := msRegs ms, mode := m, scope := sc }
  | .sts ms _ => { act := .store, n := msBytes ms, acc := 1, data := opD i w l, mode := m, scope := sc }
  | .fill ms _ => { act := .fill, n := msBytes ms, acc := 1, data := opD i w l, scope := sc }
  | .drain ms _ => { act := .drain ms, n := msBytes ms, acc := 0, dst := v, dstN := msRegs ms, scope := sc }
  | .sete ms _ => { act := .sete, n := msBytes ms, acc := 1 }
  | .push _ => { act := .push, n := 4, acc := 1, data := opD i w l, scope := 2 }
  | .pop _ => { act := .pop, n := 4, acc := 0, dst := v, dstN := 1, scope := 2 }
  | .rbrd _ => { act := .rbrd, n := 4, acc := 0, dst := v, dstN := 1, scope := 4 }
  | .rbadd _ => { act := .rbadd, n := 4, acc := 2, data := opD i w l, scope := 4 }
  | .atoms op ty _ =>
    { act := .atom op ty, n := 4 * tyRegs ty, acc := 2, dst := v, dstN := tyRegs ty, data := opC i w l, mode := m, scope := sc }
  | .cass ty _ =>
    { act := .cas ty, n := 4 * tyRegs ty, acc := 2, dst := v, dstN := tyRegs ty, data := opC i w l, cmp := opD i w l, mode := m,
      scope := sc }
  | .fatoms op ft _ =>
    { act := .fatom op ft, n := 4 * ftRegs ft, acc := 2, dst := v, dstN := ftRegs ft, data := opC i w l, mode := m, scope := sc }
  | _ => { act := .rbrd, n := 4, acc := 0 }

/-- An access as a FIFO bank takes it: an LDS.Z32 pops and an STS.B32 pushes; another access to one is none (R272, R275, R277). -/
def Want.atFifo (q : Want) : Option Want :=
  match q.act with
  | .load .b4 => some { q with act := .pop, scope := 2 }
  | .store => if q.n = 4 then some { q with act := .push, scope := 2 } else none
  | .push | .pop => some q
  | .load .s1 | .load .b1 | .load .s2 | .load .b2 | .load .b8 | .load .b16 | .atom _ _ | .cas _ | .fatom _ _ | .fence _ | .flush
  | .fill | .sete | .drain _ | .rbrd | .rbadd => none

/-- Whether an access needs a FIFO bank (R275). -/
def Want.needsFifo (q : Want) : Bool :=
  match q.act with
  | .push | .pop => true
  | _ => false

/-- The key in the table of orderings of a word in a FIFO, by the tag that its push gave it (R151). -/
def fifoKey (tag : Nat) : Nat := 2 ^ 40 + tag

/-- The bank of the part that a scratchpad word's key lies in (R117, R124). -/
def bankOfKey (key : Nat) : Nat := bankOf (key / 0x60000) (key % 0x60000 * 4)

/-- The keys of the words that a bank access covers. -/
def Op.keys (o : Op) : List Nat := (List.range o.size).map (fun k => o.pa + k)

/-- The queue of a bank, its words with their tags, and its last changer (R130). -/
def State.fifoAt (s : State) (bank : Nat) : List (Word × Nat) × Nat := lookD s.fifo bank ([], 0)

/-- Whether an access finds at its bank what it waits for (R130, R131, R274, R276). -/
def State.bankReady (s : State) (o : Op) : Bool :=
  match o.act with
  | .load _ | .drain _ | .atom _ _ | .cas _ | .fatom _ _ | .rbrd | .rbadd => s.wordsFull o.keys
  | .fill => s.wordsEmpty o.keys
  | .push => decide ((s.fifoAt (bankOfKey o.pa)).1.length < 49152)
  | .pop => !(s.fifoAt (bankOfKey o.pa)).1.isEmpty
  | .store | .sete | .fence _ | .flush => true

/-- Whether a bank access is a release as it finds its words (R150, R151, R276): a CASS that fails releases nothing (R278). -/
def State.bankReleases (s : State) (o : Op) : Bool :=
  match o.act with
  | .fill | .push | .rbadd => true
  | .store => decide (2 ≤ o.mode) || !s.wordsFull o.keys
  | .atom _ _ | .fatom _ _ => decide (2 ≤ o.mode)
  | .cas _ => decide (2 ≤ o.mode) && (!s.wordsFull o.keys || s.wordsNum o.keys == lowBytes o.cmp o.total)
  | .load _ | .drain _ | .sete | .pop | .rbrd | .fence _ | .flush => false

/-- What those who read an access's words are ordered after: what its lane's release fences name, and as a release what comes before it
(R148, R150). -/
def State.bankMarks (s : State) (o : Op) : List RelMark :=
  ((o.before ++ (if s.bankReleases o then o.rset else [])).filter (fun x => has s.ops x.2)).map
    (fun x => { core := o.core, wid := o.wid, scope := x.1, id := x.2 })

/-- Keep marks at scratchpad words for their readers; an atomic goes on with the chain of the word's releases, and another write ends it
(R148). -/
def State.markRel (s : State) (chain : Bool) (ms : List RelMark) (ks : List Nat) : State :=
  { s with relAt := ks.foldl (fun m k =>
      let all := (if chain then lookD m k [] else []) ++ ms
      if all.isEmpty then del m k else put m k all) s.relAt }

/-- A reader of scratchpad words takes over what their releases are ordered after (R148, R150). -/
def State.takeRel (s : State) (id : Nat) (o : Op) (ks : List Nat) : State :=
  let acq := s.acquireScope id o
  let links := linksOf o.wid o.core (ks.flatMap (fun k => lookD s.relAt k []))
  (s.modLaneAny o.wid o.lane (fun l => l.takeOver true acq links)).carry id o.wid o.lane
    ((links.filter (fun x => decide (x.1 ≤ acq))).map Prod.snd)

/-- The number in the low n bytes at a place of a word, put there. -/
def mergeBytes (old place n x : Nat) : Nat :=
  old - old / 2 ^ (8 * place) % 2 ^ (8 * n) * 2 ^ (8 * place) + x % 2 ^ (8 * n) * 2 ^ (8 * place)

/-- A read at a bank has its value; its lane goes on if the access held it (R268). -/
def State.bankValue (s : State) (id : Nat) (o : Op) (x : Nat) (fl : BitVec 7) : State :=
  let held := if o.waits then s.heldLanes o else []
  let s := { s with ops := put s.ops id { o with done := true, data := x, flags := fl } }
  held.foldl (fun s k => s.leave o.wid k) s

/-- A bank access without a value is performed. -/
def State.bankDone (s : State) (id : Nat) (o : Op) : State :=
  let held := if o.waits then s.heldLanes o else []
  let s := { s with ops := del s.ops id }
  held.foldl (fun s k => s.leave o.wid k) s

/-- Whether a bank access tests no full/empty bit to wait on it, so that the bit orders it after no store (R139, R150). -/
def Op.plainBank (o : Op) : Bool :=
  match o.act with
  | .load _ => o.trapPol
  | .store | .atom _ _ | .cas _ | .fatom _ _ => true
  | .fence _ | .flush | .fill | .sete | .drain _ | .push | .pop | .rbrd | .rbadd => false

/-- The first byte of a bank access and its bytes, in a numbering of the part's scratchpad bytes. -/
def Op.bankBytes (o : Op) : Nat × Nat := (4 * o.pa + (if o.total < 4 then o.off % 4 else 0), if o.total < 4 then o.total else 4 * o.size)

/-- The accesses at banks, of other lanes and still to be performed, that overlap one in mixed size, with the common bytes (R139, log entry
18). -/
def State.bankMixed (s : State) (id : Nat) (o : Op) : List (Nat × Nat × Nat) :=
  let (a, n) := o.bankBytes
  s.ops.filterMap (fun (j, t) =>
    let (b, m) := t.bankBytes
    if j != id && t.place == .bank && !t.done && !(t.wid == o.wid && t.lane == o.lane) && o.plainBank && t.plainBank && t.overlaps o &&
       (a != b || n != m) && decide (a < b + m) && decide (b < a + n) && (t.writes || o.writes) && !t.before.any (fun x => x.2 == id) &&
       !o.before.any (fun x => x.2 == j) then
      some (j, max a b, min (a + n) (b + m) - max a b)
    else none)

/-- Mark the bytes of mixed-size overlaps of an access that a bank is about to perform (R139). -/
def State.bankTear (s : State) (id : Nat) (o : Op) : State × Op :=
  (s.bankMixed id o).foldl (fun (s, o) (j, lo, n) =>
    ({ s with ops := modKey s.ops j (fun t => { t with torn := (lo, n) :: t.torn }) }, { o with torn := (lo, n) :: o.torn })) (s, o)

/-- The number of an access's words with a free value in each undefined byte (R3, R139). -/
def State.fray (s : State) (o : Op) (x : Nat) : State × Nat :=
  o.torn.foldl (fun (s, x) (lo, n) =>
    let k := lo - 4 * o.pa
    let (r, s) := s.freeBits (8 * n)
    (s, setBits x (8 * (k + n) - 1) (8 * k) r)) (s, x)

/-- Perform a bank access, its test and its transfer in one step (R131, R139). -/
def State.performBank (s : State) (id : Nat) (o : Op) : State :=
  let ks := o.keys
  let (s, o) := s.bankTear id o
  let (s, old) := s.fray o (s.wordsNum ks)
  let ms := s.bankMarks o
  match o.act with
  | .load _ =>
    let x := if o.total < 4 then old / 2 ^ (8 * (o.off % 4)) % 2 ^ (8 * o.total) else old
    (s.takeRel id o ks).bankValue id o x 0
  | .rbrd => (s.takeRel id o ks).bankValue id o old 0
  | .drain _ => ((s.takeRel id o ks).emptyWords o.wid ks).bankValue id o old 0
  | .store =>
    let (s, x) := s.fray o (if o.total < 4 then mergeBytes old (o.off % 4) o.total o.data else o.data)
    ((s.markRel false ms ks).fillWords o.wid ks x).bankDone id o
  | .fill => ((s.markRel false ms ks).fillWords o.wid ks o.data).bankDone id o
  | .sete => (s.emptyWords o.wid ks).bankDone id o
  | .rbadd => ((s.markRel true ms ks).fillWords o.wid ks ((old + o.data) % 2 ^ 32)).bankDone id o
  | .atom _ _ | .cas _ | .fatom _ _ =>
    let (new, fl) := rmw o.act o.total old o.data o.cmp
    let s := s.takeRel id o ks
    let s := match new with
      | some x =>
        let (s, x) := s.fray o x
        (s.markRel true ms ks).fillWords o.wid ks x
      | none => s
    s.bankValue id o old fl
  | .push =>
    let b := bankOfKey o.pa
    let (tag, s) := s.fresh
    ({ s with fifo := put s.fifo b ((s.fifoAt b).1 ++ [(BitVec.ofNat 32 o.data, tag)], o.wid) }.markRel false ms [fifoKey tag]).bankDone id o
  | .pop =>
    let b := bankOfKey o.pa
    match (s.fifoAt b).1 with
    | (x, tag) :: t =>
      let s := s.takeRel id o [fifoKey tag]
      { s with fifo := put s.fifo b (t, o.wid), relAt := del s.relAt (fifoKey tag) }.bankValue id o x.toNat 0
    | [] => s
  | .fence _ | .flush => s

/-- The empty-read trap of a scratchpad word, which stands as the SB source (R86, R131, R266). -/
def wordEmptyTrap : Trap := { kind := 0x04, i0 := 256 }

/-- The accesses that have reached their banks and wait, in the order they arrived (R274). -/
def insertOrder (x : Nat × Op) : List (Nat × Op) → List (Nat × Op)
  | [] => [x]
  | y :: t => if x.2.order ≤ y.2.order then x :: y :: t else y :: insertOrder x t

/-- The waiting accesses of the banks. -/
def State.atBanks (s : State) : List (Nat × Op) :=
  (s.ops.filter (fun (_, o) => o.place == .bank && o.arrived && !o.done)).foldr insertOrder []

/-- Whether an access at its bank can be performed there: it stands behind none, finds its words, and as a release what it is ordered after is
visible (R149, R150). -/
def State.canServe (s : State) (id : Nat) (o : Op) : Bool :=
  s.bankReady o && !s.queuedBehind id o && (!s.bankReleases o || s.visible o o.rset)

/-- Whether an access at its bank that may not wait finds its words not ready (R86, R358). -/
def State.mustTrap (s : State) (id : Nat) (o : Op) : Bool := o.waits && !s.bankReady o && !s.queuedBehind id o

/-- Perform an access at its bank, and after it those of its issue to a common word, by rising lane, with none of another between (R268). -/
def State.serveIssue (s : State) (id : Nat) (o : Op) : State :=
  (s.atBanks.filter (fun (j, a) => j != id && a.instr == o.instr && a.wid == o.wid && a.overlaps o)).foldl (fun s (j, _) =>
    match look s.ops j with
    | some a => if a.arrived && !a.done && s.canServe j a then s.performBank j a else s
    | none => s) (s.performBank id o)

/-- Serve the banks until nothing more can be decided: of the accesses there, those whose words are ready are performed in the
order they arrived, and one that may not wait traps (R86, R131, R274, R358). -/
def State.serveBanks : Nat → State → State
  | 0, s => s
  | n + 1, s =>
    match s.atBanks.find? (fun (id, o) => s.canServe id o || s.mustTrap id o) with
    | none => s
    | some (id, o) =>
      if s.bankReady o then (s.serveIssue id o).serveBanks n
      else (s.trapHeld o (if o.inOrd then orderedTrap (s.laneAt o.wid o.lane) o.opc 4 0 else wordEmptyTrap)).serveBanks n

/-- Whether a row barrier's count has reached a target (R276). -/
def countReached (count target : Nat) : Bool := decide ((count + 2 ^ 32 - target % 2 ^ 32) % 2 ^ 32 < 2 ^ 31)

/-- Whether an access that comes before an RBWAIT of a lane is under way: the count is read after it (R147). -/
def State.rowHeld (s : State) (wid lane core key : Nat) : Bool :=
  !s.localOk s.nid { act := .rbrd, place := .bank, wid := wid, lane := lane, core := core, pa := key, size := 1, instr := s.nid }

/-- Whether an RBWAIT passes: the word is full, and its count has come. -/
def State.rowPasses (s : State) (key target : Nat) : Bool := (s.spadAt key).full && countReached (s.spadAt key).val.toNat target

/-- The trap of an RBWAIT that does not pass and may not wait: of an empty word under the trapping policy (R86), and inside a pixel-ordered
section (R276, R358). -/
def State.rowTrap (s : State) (wid lane key : Nat) (traps : Bool) : Option Trap :=
  if traps ∧ ¬ (s.spadAt key).full then some wordEmptyTrap
  else if (s.laneAt wid lane).inside then some (orderedTrap (s.laneAt wid lane) 0x69 4 0)
  else none

/-- What passing an RBWAIT makes of the lane: it takes over, at device scope, what the word's releases carry (R151). -/
def State.passedRow (s : State) (wid core key : Nat) (l : Lane) : Lane := l.takeOver true 4 (linksOf wid core (lookD s.relAt key []))

/-- A lane passes an RBWAIT: it acquires at device scope (R151). -/
def State.passRow (s : State) (wid lane key : Nat) : State :=
  s.modLane wid lane (s.passedRow wid (s.waveAt wid).core key)

/-- Let the lanes in RBWAIT whose count has come go on, and those that may no longer wait take their trap (R276). -/
def State.wakeRows (s : State) : State :=
  s.waves.foldl (fun s (wid, w) =>
    if w.lanes.any (fun l => match l.wait with | .rowBar _ _ _ _ _ => true | _ => false) then
      w.idx.foldl (fun s k =>
        match (s.laneAt wid k).wait with
        | .rowBar key target _ _ traps =>
          if s.rowPasses key target then (s.passRow wid k key).leave wid k
          else
            match s.rowTrap wid k key traps with
            | some t => s.takeTrap wid [k] (s.laneAt wid k).pc t
            | none => s
        | _ => s) s
    else s) s

/-- Serve the banks and the waits on their words after a change, then settle what that completes. -/
def State.settleBanks (s : State) : State := ((s.serveBanks (s.ops.length + 1)).wakeRows).settleOps

/-- Whether an access may wait at its bank under the blocking policy (R415). -/
def Op.mayWait (o : Op) : Bool := o.place == .bank && !o.done && !o.waits && o.act != .store && o.act != .sete

/-- The accesses of a wave that wait at banks under the blocking policy (R415). -/
def State.bankWaits (s : State) (wid : Nat) : Nat :=
  (s.ops.filter (fun (id, o) => o.wid == wid && o.mayWait && o.arrived && !s.canServe id o)).length

/-- The accesses of a wave that may wait at banks, there and on their way, but those that hold their lanes meanwhile (R415). -/
def State.bankClaims (s : State) (wid : Nat) : Nat := (s.ops.filter (fun (_, o) => o.wid == wid && o.mayWait && !o.probe)).length

/-- Whether what an access releases as it finds its words is visible before it leaves for its bank (R149, R150); whether a compare and swap
releases is known at the bank only (R278). -/
def State.bankVisible (s : State) (o : Op) : Bool :=
  match o.act with
  | .cas _ => true
  | _ => !s.bankReleases o || s.visible o o.rset

/-- Whether an access that its bank sent back after its lane had gone on finds room now (R415): its lane is held until then. -/
def State.roomNow (s : State) (o : Op) : Bool :=
  !o.probe || !(s.heldLanes o).isEmpty || s.bankReady o || decide (s.bankWaits o.wid < 64)

/-- Whether an access may leave for its bank: everything it comes after is performed, or is an access of its lane that waits there for a common
word (R147, R149, R274), there is room (R415), and the bank is not switching (R128). -/
def State.bankFree (s : State) (id : Nat) (o : Op) : Bool :=
  o.place == .bank && !o.done && !o.arrived && !o.parked && !has s.switches (bankOfKey o.pa) && s.bankOrdered id o && s.relOk o &&
    s.bankVisible o && s.roomNow o

/-- The accesses of one issue to a common unit that are not at the bank yet, by rising lane. -/
def State.bankGroup (s : State) (id : Nat) (o : Op) : List (Nat × Op) := (s.groupOf id o).filter (fun (_, a) => !a.arrived)

/-- Whether a bank access reaches its bank next, with those of its issue to a common word (R147, R149, R268, R274, R415). -/
def State.bankDue (s : State) (id : Nat) (o : Op) : Bool :=
  o.place == .bank && !o.done && !o.arrived && (s.bankGroup id o).all (fun (j, a) => s.bankFree j a)

/-- Whether an access that waits at its bank can be decided there, since what it is ordered after has become visible (R149, R150). -/
def State.bankWoken (s : State) (id : Nat) (o : Op) : Bool := o.place == .bank && !o.done && o.arrived && (s.canServe id o || s.mustTrap id o)

/-- A bank returns an access that finds no room: its lane is held before it, and it has not issued. A lane that had gone on is held until the
access is sent again (R415, log entry 138). -/
def State.returned (s : State) (id : Nat) (o : Op) : State :=
  match s.heldLanes o with
  | [] => { s with ops := put s.ops id { o with probe := true } }
  | ks => ks.foldl (fun s k => (s.dropHeld o.wid k o.head).modLane o.wid k (fun l => { l with wait := .room })) s

/-- An access reaches its bank (R274, R415). -/
def State.arriveAt (s : State) (id : Nat) (o : Op) : State :=
  if o.mayWait && !s.bankReady o && decide (64 ≤ s.bankWaits o.wid) then s.returned id o
  else
    let held := if o.probe then s.heldLanes o else []
    let (n, s) := s.fresh
    let s : State := { s with ops := put s.ops id { o with arrived := true, probe := false, order := n } }
    held.foldl (fun s k => s.leave o.wid k) s

/-- REMOTE_SCRATCHPAD_ACCESS (R118, R130, R131, R274): an access reaches its bank, remote or its own core's, and is performed
there or waits; or one that waits there is decided. The accesses of one issue to a word reach it by rising lane (R268). -/
def execRemoteScratchpadAccess (s : State) : Out :=
  let id := s.occ.id
  match look s.ops id with
  | none => .next s
  | some o =>
    if s.bankDue id o then .next ((s.bankGroup id o).foldl (fun s (j, a) => s.arriveAt j a) s).settleBanks
    else if s.bankWoken id o then .next s.settleBanks
    else .next s

/-- What checking a scratchpad access answers. -/
inductive SpadCheck where
  | ok (core off : Nat) (q : Want)
  | trap (t : Trap)
  | wait
  deriving DecidableEq, Repr

/-- Every check of a scratchpad access (R117, R131, R178, R272). -/
def State.checkSpad (s : State) (w : Wave) (q : Want) (a : Nat) : SpadCheck :=
  if a % q.n ≠ 0 then .trap (accTrap 0x05 a q.n q.acc)
  else
    match s.spadAddr w.vi w.core a q.n with
    | .fault => .trap (accTrap 0x07 a q.n q.acc)
    | .wait _ => .wait
    | .ok core off true =>
      match q.atFifo with
      | some q => .ok core off q
      | none => .trap (accTrap 0x07 a q.n q.acc)
    | .ok core off false => if q.needsFifo then .trap (accTrap 0x07 a q.n q.acc) else .ok core off q

/-- A checked scratchpad access of a lane, before its orderings. One that may not wait holds its lane (R268, R358). -/
def bankOp (i : Instr) (c : Issue) (w : Wave) (k instr : Nat) (q : Want) (a core off id : Nat) : Op :=
  { newOp c w k instr q a with
    head := id, opc := (descOf i).opc, place := .bank, off := off, data := q.data, trapPol := (fieldsOf i).epb,
    inOrd := (w.lane k).inside && !(fieldsOf i).epb,
    waits := q.act != .store && q.act != .sete && ((fieldsOf i).epb || (w.lane k).inside),
    pa := if q.needsFifo then wordKey core (off / 0x30000 * 0x30000) else wordKey core off,
    size := if q.needsFifo then 49152 else (off % 4 + q.n + 3) / 4 }

/-- A scratchpad access with the orderings that its lane's fences give it and those of a release (R147, R148), and the lane held with it
while the wave's waiting accesses leave no room that is sure (R415). -/
def State.orderedBank (s : State) (o : Op) : Op :=
  { o with before := s.fencedBefore o, rset := s.releaseBefore o o.scope, probe := o.mayWait && decide (64 ≤ s.bankClaims o.wid) }

/-- Put a checked scratchpad access on its way to its bank; the answer says whether its lane is held. -/
def State.startSpad (s : State) (i : Instr) (c : Issue) (w : Wave) (k instr : Nat) (q : Want) (a core off : Nat) : State × Bool :=
  let id := s.nid
  let o := s.orderedBank (bankOp i c w k instr q a core off id)
  let s := (s.withOp o).awaitDst o
  if o.waits || o.probe then (s.waitLane c.wid (wordsOf i) k (.held id), true) else (s, false)

/-- Whether a blocking access would wait at its bank when its wave has no room for one more that waits (R415); inside a pixel-ordered section
it traps at the bank instead (R358). -/
def State.bankFull (s : State) (i : Instr) (c : Issue) (l : Lane) (q : Want) (core off : Nat) : Bool :=
  decide (64 ≤ s.bankWaits c.wid) && !l.inside &&
    !s.bankReady { act := q.act, place := .bank, pa := wordKey core off, size := (off % 4 + q.n + 3) / 4 } && !(fieldsOf i).epb

/-- One lane of a scratchpad access. -/
def spadLane (i : Instr) (instr : Nat) (c : Issue) (w : Wave) (d : Done) (k : Nat) : Done :=
  let a := spadAddress i w (w.lane k)
  match d.s.checkSpad w (spadWant i w (w.lane k)) a with
  | .trap t => { d with traps := d.traps ++ [(k, t)] }
  | .wait => { d with s := d.s.waitLane c.wid (wordsOf i) k .room, stay := k :: d.stay }
  | .ok core off q =>
    if d.s.bankFull i c (w.lane k) q core off then { d with s := d.s.waitLane c.wid (wordsOf i) k .room, stay := k :: d.stay }
    else
      let (s, held) := d.s.startSpad i c w k instr q a core off
      { d with s := s, stay := if held then k :: d.stay else d.stay }

/-- Run a scratchpad access (R268, R272 to R279). -/
def spadEff (i : Instr) : Eff := fun s c w run => run.foldl (spadLane i s.nid c w) ⟨s.fresh.2, [], []⟩

/-- `spadEff` in the common course of an issue (R178). -/
def spadOp (i : Instr) (s : State) : Out := runLanes i s (spadEff i)

/-- One lane of RBWAIT (R276, R358). -/
def rbwaitLane (i : Instr) (c : Issue) (w : Wave) (d : Done) (k : Nat) : Done :=
  let l := w.lane k
  let a := spadAddress i w l
  match d.s.checkSpad w { act := .rbrd, n := 4, acc := 0 } a with
  | .trap t => { d with traps := d.traps ++ [(k, t)] }
  | .wait => { d with s := d.s.waitLane c.wid (wordsOf i) k .room, stay := k :: d.stay }
  | .ok core off _ =>
    let key := wordKey core off
    let target := opD i w l % 2 ^ 32
    if d.s.rowHeld c.wid k w.core key then { d with s := d.s.waitLane c.wid (wordsOf i) k .room, stay := k :: d.stay }
    else if d.s.rowPasses key target then { d with s := d.s.passRow c.wid k key }
    else
      match d.s.rowTrap c.wid k key (fieldsOf i).epb with
      | some t => { d with traps := d.traps ++ [(k, t)] }
      | none => { d with s := d.s.waitLane c.wid (wordsOf i) k (.rowBar key target a (d.s.deadline w.vi) (fieldsOf i).epb), stay := k :: d.stay }

/-- Run RBWAIT (R276). -/
def rbwaitEff (i : Instr) : Eff := fun s c w run => run.foldl (rbwaitLane i c w) ⟨s, [], []⟩

/-- `rbwaitEff` in the common course of an issue (R178). -/
def rbwaitOp (i : Instr) (s : State) : Out := runLanes i s (rbwaitEff i)

/-- ROW_BARRIER_TIMEOUT (R276): a lane in RBWAIT whose time-out falls due takes the row-barrier time-out trap. -/
def execRowBarrierTimeout (s : State) : Out :=
  let wid := s.occ.wid
  let k := s.occ.lane
  match (s.laneAt wid k).wait with
  | .rowBar _ _ addr due _ =>
    if !s.expired due then .next s
    else
      let t : Trap := { kind := 0x16, i0 := dw addr }
      .next (s.takeTrap wid [k] (s.laneAt wid k).pc t)
  | _ => .next s

end Sys2Proof.Machine
end

