-- ==== Sys2Proof/Machine/MemInstr.lean ====
section
/-!
DEFINITION. The memory instructions of a lane (R266 to R281): loads, stores, atomics, scratchpad and queue accesses, fences.
-/
namespace Sys2Proof.Machine

/-- LD, short form (R270). -/
def execLdShort (w : BitVec 6) (a : BitVec 8) (d : BitVec 8) (s : State) : Out := globalOp (.ldShort w a d) s

/-- LD (R270). -/
def execLd (ms : MS) (x : Fields) (s : State) : Out := globalOp (.ld ms x) s

/-- ST, short form (R270). -/
def execStShort (w : BitVec 6) (a : BitVec 8) (d : BitVec 8) (s : State) : Out := globalOp (.stShort w a d) s

/-- ST (R270). -/
def execSt (ms : MS) (x : Fields) (s : State) : Out := globalOp (.st ms x) s

/-- LDS, short form (R272). -/
def execLdsShort (a : BitVec 8) (d : BitVec 8) (s : State) : Out := spadOp (.ldsShort a d) s

/-- LDS (R272). -/
def execLds (ms : MS) (x : Fields) (s : State) : Out := spadOp (.lds ms x) s

/-- STS, short form (R272). -/
def execStsShort (a : BitVec 8) (d : BitVec 8) (s : State) : Out := spadOp (.stsShort a d) s

/-- STS (R272). -/
def execSts (ms : MS) (x : Fields) (s : State) : Out := spadOp (.sts ms x) s

/-- FILL, short form (R274). -/
def execFillShort (a : BitVec 8) (d : BitVec 8) (s : State) : Out := spadOp (.fillShort a d) s

/-- FILL (R274). -/
def execFill (ms : MS) (x : Fields) (s : State) : Out := spadOp (.fill ms x) s

/-- DRAIN, short form (R274). -/
def execDrainShort (a : BitVec 8) (d : BitVec 8) (s : State) : Out := spadOp (.drainShort a d) s

/-- DRAIN (R274). -/
def execDrain (ms : MS) (x : Fields) (s : State) : Out := spadOp (.drain ms x) s

/-- SETE, short form (R274). -/
def execSeteShort (a : BitVec 8) (s : State) : Out := spadOp (.seteShort a) s

/-- SETE (R274). -/
def execSete (ms : MS) (x : Fields) (s : State) : Out := spadOp (.sete ms x) s

/-- PUSH, short form (R275). -/
def execPushShort (a : BitVec 8) (d : BitVec 8) (s : State) : Out := spadOp (.pushShort a d) s

/-- PUSH (R275). -/
def execPush (x : Fields) (s : State) : Out := spadOp (.push x) s

/-- POP, short form (R275). -/
def execPopShort (a : BitVec 8) (d : BitVec 8) (s : State) : Out := spadOp (.popShort a d) s

/-- POP (R275). -/
def execPop (x : Fields) (s : State) : Out := spadOp (.pop x) s

/-- RBWAIT, short form (R276). -/
def execRbwaitShort (a : BitVec 8) (d : BitVec 8) (s : State) : Out := rbwaitOp (.rbwaitShort a d) s

/-- RBWAIT (R276). -/
def execRbwait (x : Fields) (s : State) : Out := rbwaitOp (.rbwait x) s

/-- RBRD, short form (R276). -/
def execRbrdShort (a : BitVec 8) (d : BitVec 8) (s : State) : Out := spadOp (.rbrdShort a d) s

/-- RBRD (R276). -/
def execRbrd (x : Fields) (s : State) : Out := spadOp (.rbrd x) s

/-- RBADD, short form (R276). -/
def execRbaddShort (a : BitVec 8) (d : BitVec 8) (s : State) : Out := spadOp (.rbaddShort a d) s

/-- RBADD (R276). -/
def execRbadd (x : Fields) (s : State) : Out := spadOp (.rbadd x) s

/-- ATOM (R277, R280). -/
def execAtom (op : AtomOp) (ty : IntTy) (x : Fields) (s : State) : Out := globalOp (.atom op ty x) s

/-- ATOMS (R277). -/
def execAtoms (op : AtomOp) (ty : IntTy) (x : Fields) (s : State) : Out := spadOp (.atoms op ty x) s

/-- CAS (R278). -/
def execCas (ty : IntTy) (x : Fields) (s : State) : Out := globalOp (.cas ty x) s

/-- CASS (R278). -/
def execCass (ty : IntTy) (x : Fields) (s : State) : Out := spadOp (.cass ty x) s

/-- FATOM (R279). -/
def execFatom (op : FAtomOp) (ft : FT) (x : Fields) (s : State) : Out := globalOp (.fatom op ft x) s

/-- FATOMS (R279). -/
def execFatoms (op : FAtomOp) (ft : FT) (x : Fields) (s : State) : Out := spadOp (.fatoms op ft x) s

/-- FENCE.FULL at device scope (R281). -/
def execFenceShort (s : State) : Out := fenceOp .fenceShort .full 4 s

/-- FENCE (R281). -/
def execFence (k : FenceKind) (x : Fields) (s : State) : Out := fenceOp (.fence k x) k x.scope.toNat s

/-- PREF, short form (R273). -/
def execPrefShort (w : BitVec 6) (a : BitVec 8) (s : State) : Out := prefOp (.prefShort w a) s

/-- PREF (R273). -/
def execPref (x : Fields) (s : State) : Out := prefOp (.pref x) s

/-- LDW (R271). -/
def execLdw (ms : MS) (x : Fields) (s : State) : Out := waveAccessOp (.ldw ms x) s

/-- STW (R271). -/
def execStw (ms : MS) (x : Fields) (s : State) : Out := waveAccessOp (.stw ms x) s

/-- FLUSH, short form (R273). -/
def execFlushShort (w : BitVec 6) (a : BitVec 8) (s : State) : Out := flushOp (.flushShort w a) s

/-- FLUSH (R273). -/
def execFlush (x : Fields) (s : State) : Out := flushOp (.flush x) s

end Sys2Proof.Machine
end

