-- ==== Sys2Proof/Machine/Allow.lean ====
section
/-!
DEFINITION. Allowance counters (R155, R180, R282 to R291): the tills at the home slices, the cores' allowance tables, stocktakes,
the instructions TAKE, GIVE, ACINIT and STOCK, and the tills' own steps.
-/
namespace Sys2Proof.Machine

/-- A till. -/
def State.till? (s : State) (line : Nat) : Option Till := look s.tills line

/-- Change a till. -/
def State.modTill (s : State) (line : Nat) (f : Till → Till) : State := { s with tills := modKey s.tills line f }

/-- A core's allowance of a counter (R283). -/
def State.allowance (s : State) (core line : Nat) : Nat := (lookD (s.coreAt core).allow line (0, 0)).1

/-- A core's allowance goes back to its till, with its recorded grant (R283, R284, R286). -/
def State.returnAllowance (s : State) (core line : Nat) : State :=
  let n := s.allowance core line
  let s := s.modCore core (fun k => { k with allow := del k.allow line })
  s.modTill line (fun t => { t with till := t.till + n, grants := del t.grants core })

/-- The least recently used allowance of a table (R283). -/
def oldestAllowance (m : FMap (Nat × Nat)) : Option Nat :=
  (m.foldl (fun best (l, _, u) =>
    match best with
    | some (_, v) => if u < v then some (l, u) else best
    | none => some (l, u)) (none : Option (Nat × Nat))).map Prod.fst

/-- Set a core's allowance of a counter and note its use; a 33rd entry sends the least recently used one back (R283). -/
def State.setAllowance (s : State) (core line n : Nat) : State :=
  let m := (s.coreAt core).allow
  let s :=
    if has m line ∨ m.length < 32 then s
    else
      match oldestAllowance m with
      | some l => s.returnAllowance core l
      | none => s
  let (u, s) := s.fresh
  s.modCore core (fun k => { k with allow := put k.allow line (n, u) })

/-- The line's image, written as one store of the line (R282). -/
def State.writeImage (s : State) (line total limit stks : Nat) : State :=
  s.storeBytes line (toBytes 8 (total % 2 ^ 32 * 2 ^ 32 + limit) ++ toBytes 8 (stks % 2 ^ 32) ++ toBytes 112 0)

/-- Every cached copy of a line is recalled: its stores in caches are performed, those in the cluster caches first (R152, R288). -/
def State.recallLine (s : State) (line : Nat) : State :=
  let mine := s.ops.filter (fun (_, t) => t.isStore && t.place == .line && lineOf t.pa == line && decide (2 ≤ t.vis) && decide (t.vis < 4))
  let sorted := (mine.filter (fun x => x.2.vis == 3)).foldr insertStamp [] ++ (mine.filter (fun x => x.2.vis == 2)).foldr insertStamp []
  sorted.foldl (fun s (id, _) =>
    match look s.ops id with
    | some o => s.performStore id o
    | none => s) s

/-- The cores that a stocktake of a line recalls, in slice order (R286). -/
def State.holdersOf (s : State) (line : Nat) : List Nat :=
  (List.range 180).filter (fun c => has (s.coreAt c).allow line || (match s.till? line with | some t => has t.grants c | none => false))

/-- A grant at the till (R285): the restock for the holder, with its own units taken off. -/
def State.grant (s : State) (line core n q : Nat) : State :=
  match s.till? line with
  | none => s
  | some t =>
    let g := max n (t.till / (8 * q))
    let s := s.modTill line (fun t => { t with till := t.till - g, grants := put t.grants core (lookD t.grants core 0 + g) })
    s.setAllowance core line (s.allowance core line + (g - n))

/-- The links of the GIVEs and ACINITs decided at a counter's till, for a wave on a core (R155). -/
def State.linksAt (s : State) (wid core line : Nat) : List (Nat × Nat) :=
  match s.till? line with
  | some t => linksOf wid core t.marks
  | none => []

/-- What a read of a counter's line that is decided at its till is ordered after (R155): a lane's later acquire fence takes it over. -/
def State.tillLinks (s : State) (wid core lane line : Nat) : State := s.modLaneAny wid lane (fun l => l.takeOver false 0 (s.linksAt wid core line))

/-- A GIVE or an ACINIT is decided at its till: what its lane's release fences name is ordered before the reads decided after it (R155). -/
def State.markTill (s : State) (m : TillMsg) : State :=
  let ms := (m.before.filter (fun x => has s.ops x.2)).map (fun x => ({ core := m.core, wid := m.wid, scope := x.1, id := x.2 } : RelMark))
  s.modTill m.line (fun t => { t with marks := t.marks.filter (fun x => has s.ops x.id) ++ ms })

/-- A held allowance operation ends: its status goes to DST where it has one, and its lane goes on (R284, R287, R288). -/
def State.endTill (s : State) (id : Nat) (m : TillMsg) (status : Option Nat) : State :=
  let s := { s with tillMsgs := del s.tillMsgs id }
  if (s.laneAt m.wid m.lane).wait = .held id then
    let s := match status with
      | some x => s.putV m.wid m.lane m.dst 1 x
      | none => s
    s.leave m.wid m.lane
  else s

/-- A held allowance operation traps (R284, R287, R288). -/
def State.trapTill (s : State) (id : Nat) (m : TillMsg) (kind : Nat) : State :=
  let s := { s with tillMsgs := del s.tillMsgs id }
  if (s.laneAt m.wid m.lane).wait = .held id then
    s.takeTrap m.wid [m.lane] (s.laneAt m.wid m.lane).pc { kind := kind, i0 := m.va }
  else s

/-- Serve waiting requests at the head while the till covers them; the head that remains is examined in its turn (R285). -/
def State.serveQueue : Nat → State → Nat → State
  | 0, s, _ => s
  | n + 1, s, line =>
    match s.till? line with
    | none => s
    | some t =>
      match t.queue with
      | [] => s
      | q :: rest =>
        if t.till < q.n then s
        else
          let s := s.grant line q.core q.n t.queue.length
          let s := s.modTill line (fun t => { t with queue := rest, examine := !rest.isEmpty })
          let s := match look s.tillMsgs q.id with
            | some m => (s.tillLinks m.wid m.core m.lane line).endTill q.id m (some 0)
            | none => s
          s.serveQueue n line

/-- The queue of a till, served as far as the till goes. -/
def State.serveAll (s : State) (line : Nat) : State :=
  match s.till? line with
  | some t => s.serveQueue (t.queue.length + 1) line
  | none => s

/-- The total that a STOCK asked for is on its way to its destination, unless its lane has ended (R255, R289). -/
def State.fillStock (s : State) (id : Nat) (m : TillMsg) (total : Nat) : State :=
  { s with tillMsgs := del s.tillMsgs id
           fills := if m.gone then s.fills else put s.fills id { wid := m.wid, lanes := [(m.lane, wordsFrom m.dst total 1)] } }

/-- What a stocktake's cause does when the exact total is known (R285, R287 to R289). The head of the queue is examined again
after a .TRY or a GIVE; one that the exact total does not cover stays there until then. -/
def State.afterStock (s : State) (line : Nat) : State :=
  match s.till? line with
  | none => s
  | some t =>
    let again (s : State) : State := s.modTill line (fun t => { t with examine := !t.queue.isEmpty })
    match look s.tillMsgs t.cause with
    | none => s.serveAll line
    | some m =>
      match m.act with
      | .take => s.serveAll line
      | .tryTake =>
        if m.n ≤ t.till then
          again (((s.grant line m.core m.n (t.queue.length + 1)).tillLinks m.wid m.core m.lane line).endTill t.cause m (some 0))
        else again (s.endTill t.cause m (some 1))
      | .give =>
        if t.limit < t.till + m.n then again (s.trapTill t.cause m 0x13)
        else again (((s.modTill line (fun t => { t with till := t.till + m.n })).markTill m).endTill t.cause m none)
      | .stock =>
        let s := s.tillLinks m.wid m.core m.lane line
        s.fillStock t.cause m t.till
      | .acinit =>
        let s := t.queue.foldl (fun s q =>
          match look s.tillMsgs q.id with
          | some x => s.endTill q.id x (some 1)
          | none => s) s
        if m.lim = 0 then
          let s := { s with tills := del s.tills line }
          (s.writeImage line t.till 0 t.stks).endTill t.cause m none
        else
          let s := s.modTill line (fun t => { t with till := m.n, limit := m.lim, stks := 0, queue := [], examine := false })
          ((s.writeImage line m.n m.lim 0).markTill m).endTill t.cause m none

/-- The end of a stocktake (R286 step 3): the till is the exact total, TOTAL and STKS are written, and its cause goes on. -/
def State.finishStock (s : State) (line : Nat) : State :=
  match s.till? line with
  | none => s
  | some t =>
    let s := s.modTill line (fun t => { t with stock := none, stks := (t.stks + 1) % 2 ^ 32 })
    (s.writeImage line t.till t.limit (t.stks + 1)).afterStock line

/-- Start a stocktake for a cause (R286); without a holder it ends at once. One for another cause than the queue's head leaves a look at the
queue that is due (R285). -/
def State.startStock (s : State) (line cause : Nat) : State :=
  match s.holdersOf line with
  | [] => (s.modTill line (fun t => { t with cause := cause, examine := t.examine && cause != 0 })).finishStock line
  | hs => s.modTill line (fun t => { t with stock := some hs, cause := cause, examine := t.examine && cause != 0 })

/-- Complete a stocktake that is under way, for a decision of the part that does not wait at a till (R290). -/
def State.completeStock (s : State) (line : Nat) : State :=
  match s.till? line with
  | some t =>
    match t.stock with
    | some cs => (cs.foldl (fun s c => s.returnAllowance c line) s).finishStock line
    | none => s
  | none => s

/-- A whole stocktake at once, for a decision of the part (R286, R290). -/
def State.stockNow (s : State) (line : Nat) : State :=
  let s := s.completeStock line
  ((s.holdersOf line).foldl (fun s c => s.returnAllowance c line) (s.modTill line (fun t => { t with cause := 0 }))).finishStock line

/-- The .TRY decision that the part itself makes at a core (R180, R284, R285, R290): whether n units were taken. Decided at the till, it has
the queue examined again (R285). -/
def State.tryNow (s : State) (line core n : Nat) : State × Bool :=
  match s.till? line with
  | none => (s, n == 0)
  | some _ =>
    if n = 0 then (s, true)
    else if n ≤ s.allowance core line then (s.setAllowance core line (s.allowance core line - n), true)
    else
      let s := (s.completeStock line).returnAllowance core line
      let s := if (match s.till? line with | some t => decide (t.till < n) | none => true) then s.stockNow line else s
      match s.till? line with
      | some t =>
        let s := s.modTill line (fun t => { t with examine := !t.queue.isEmpty })
        if n ≤ t.till then (s.grant line core n (t.queue.length + 1), true) else (s, false)
      | none => (s, false)

/-- Whether the part may still create a till at a line's home slice (R282). -/
def State.tillFree (s : State) (line : Nat) : Bool :=
  decide ((s.tills.filter (fun (l, _) => homeSlice l == homeSlice line)).length < 1024)

/-- The part makes a line its own counter (R57, R290). -/
def State.createCounter (s : State) (line total vi : Nat) : State :=
  let s := s.recallLine line
  ({ s with tills := put s.tills line { till := total, limit := total, byPart := true, vi := vi } }).writeImage line total total 0

/-- The units that the part's own GIVEs on their way bring to a counter (R290). -/
def State.partGives (s : State) (line : Nat) : FMap TillMsg := s.tillMsgs.filter (fun (_, m) => m.line == line && m.act == .give)

/-- A counter of the part ends as under ACINIT with limit 0, after the part's own GIVEs to it (R57, R288). -/
def State.endCounter (s : State) (line : Nat) : State :=
  match s.till? line with
  | none => s
  | some _ =>
    let n := ((vals (s.partGives line)).map TillMsg.n).foldl (· + ·) 0
    let s := ({ s with tillMsgs := s.tillMsgs.filter (fun x => !(s.partGives line).contains x) } : State).modTill line
      (fun t => { t with till := t.till + n })
    let s := s.stockNow line
    match s.till? line with
    | some t => { s with tills := del s.tills line }.writeImage line t.till 0 t.stks
    | none => s

/-- Which allowance operation an instruction is. -/
def tillAct (i : Instr) : TillAct :=
  match ext i with
  | .take _ => .take
  | .takeTry _ => .tryTake
  | .give _ => .give
  | .acinit _ => .acinit
  | _ => .stock

/-- Whether a line is refused to an operation at issue (R284, R288, R290). ACINIT is refused a line of a peer or of the host
window, of which the manual says nothing (DESIGN CHOICE, log entry 149). -/
def State.lineRefused (s : State) (act : TillAct) (line : Nat) (dpage : Bool) : Bool :=
  match act with
  | .acinit => dpage || !isMemory line || (match s.till? line with | some t => t.byPart | none => false)
  | .stock => (s.till? line).isNone
  | .take | .tryTake | .give => (match s.till? line with | some t => t.byPart | none => true)

/-- Whether a till can decide now: no stocktake runs at its line (R286). -/
def State.tillIdle (s : State) (line : Nat) : Bool :=
  match s.till? line with
  | some t => t.stock.isNone
  | none => true

/-- Whether an earlier operation of the same lane on the same counter, or one of a lower lane of the same issue, is not decided (R155,
R284). A waiting TAKE that is queued is behind those queued before it alone. -/
def State.tillAfter (s : State) (id : Nat) (m : TillMsg) : Bool :=
  s.tillMsgs.any (fun (j, x) => decide (j < id) && x.wid == m.wid && x.line == m.line && (x.lane == m.lane || (x.instr == m.instr && !x.queued)))

/-- An allowance operation as an access to its counter's line: a GIVE or an ACINIT counts as a store, the others as loads (R155). -/
def TillMsg.asOp (m : TillMsg) : Op :=
  { act := match m.act with
      | .give | .acinit => .store
      | .take | .tryTake | .stock => .load .b4
    wid := m.wid, lane := m.lane, core := m.core, item := m.item, instr := m.instr, pa := m.line, size := 8 }

/-- Whether the accesses that come before an allowance operation let it be decided (R147, R155). -/
def State.tillFreed (s : State) (id : Nat) (m : TillMsg) : Bool := s.localOk id m.asOp && s.visible m.asOp m.before

/-- Whether a request can be decided at its till now (R155, R286); a line that an engine command owns is waited for (R153). -/
def State.tillOpen (s : State) (id : Nat) (m : TillMsg) : Bool :=
  s.tillIdle m.line && !s.tillAfter id m && s.tillFreed id m && !s.lineOwned m.line 128

/-- What a lane asks of the till of a counter line (R284, R287 to R289). -/
def State.tillMsg (s : State) (i : Instr) (instr : Nat) (c : Issue) (w : Wave) (k va line : Nat) : TillMsg :=
  let l := w.lane k
  let act := tillAct i
  { act := act, instr := instr
    before := if act = .give ∨ act = .acinit then (s.laneAt c.wid k).rel.filter (fun x => has s.ops x.2) else []
    line := line, wid := c.wid, lane := k, core := w.core, vi := w.vi, item := l.item
    n := (if act = .acinit then opD i w l else opC i w l) % 2 ^ 32, lim := opC i w l % 2 ^ 32
    dst := (fieldsOf i).dst.toNat, va := dw va, due := if act = .take then s.deadline w.vi else 0 }

/-- Whether a lane's operation needs its till: a TAKE or TAKE.TRY of none, or of no more than its core's allowance with no undecided
operation of the lane before it, does not (R155, R284). -/
def State.needsTill (s : State) (m : TillMsg) : Bool :=
  match m.act with
  | .stock | .acinit | .give => true
  | .take | .tryTake => m.n != 0 && !(decide (m.n ≤ s.allowance m.core m.line) && !s.tillAfter s.nid m)

/-- What an operation without its till does beside its lane: a TAKE or TAKE.TRY comes off the core's allowance (R284). -/
def State.spend (s : State) (m : TillMsg) : State :=
  if m.n = 0 then s else s.setAllowance m.core m.line (s.allowance m.core m.line - m.n)

/-- Whether an operation that its core's allowance serves has to wait for the lane's earlier accesses (R147, R155). -/
def State.spendHeld (s : State) (m : TillMsg) : Bool := m.n != 0 && !s.tillFreed s.nid m

/-- What an operation that needs its till does beside its lane: a TAKE or TAKE.TRY sends the core's allowance back first (R284), and
the request is on its way. -/
def State.sendTill (s : State) (m : TillMsg) : State :=
  let s := match m.act with
    | .take | .tryTake => s.returnAllowance m.core m.line
    | .give | .acinit | .stock => s
  { s with nid := s.nid + 1, tillMsgs := put s.tillMsgs s.nid m }

/-- What becomes of the lane: it has 0 in its destination, and what its core's allowance served reads from the GIVEs decided before it (R155);
or it waits for the answer; a STOCK's destination is empty until then. -/
def tillChange (i : Instr) (m : TillMsg) (needs : Bool) (id : Nat) (links : List (Nat × Nat)) (l : Lane) : Lane :=
  match m.act with
  | .stock => l.setEmpty m.dst 1 id
  | .give | .acinit => if needs then { l with wait := .held id, ilen := wordsOf i } else l
  | .take | .tryTake => if needs then { l with wait := .held id, ilen := wordsOf i } else (l.takeOver false 0 links).write m.dst 1 0

/-- One lane of an allowance operation that passed its checks (R284, R287 to R289, R291). -/
def State.tillLane (s : State) (i : Instr) (instr : Nat) (c : Issue) (w : Wave) (k va line : Nat) (d : Done) : Done :=
  let m := s.tillMsg i instr c w k va line
  let needs := s.needsTill m
  if m.act = .take ∧ (w.lane k).inside then { d with s := s, traps := d.traps ++ [(k, orderedTrap (w.lane k) 0x72 4 0)] }
  else if !needs && s.spendHeld m then { d with s := s.waitLane c.wid (wordsOf i) k .room, stay := k :: d.stay }
  else
    let n := if needs then s.sendTill m else s.spend m
    { d with s := n.modLane c.wid k (tillChange i m needs s.nid (s.linksAt c.wid w.core line)), stay := if needs && m.act != .stock then k :: d.stay else d.stay }

/-- One lane of TAKE, TAKE.TRY, GIVE, ACINIT or STOCK (R284, R287 to R289). The size in INFO of its alignment, translation and permission traps
is that of the line, 128 (DESIGN CHOICE, log entry 150). -/
def tillStep (i : Instr) (instr : Nat) (c : Issue) (w : Wave) (d : Done) (k : Nat) : Done :=
  let va := globalAddr i w (w.lane k)
  if va % 128 ≠ 0 then { d with traps := d.traps ++ [(k, accTrap 0x05 va 128 2)] }
  else
    match d.s.checkPieces w (w.lane k).level 128 2 [(va, 128)] with
    | (s, .trap t) => { d with s := s, traps := d.traps ++ [(k, t)] }
    | (s, .page leaf) => { d with s := s.waitLane c.wid (wordsOf i) k (.page leaf), stay := k :: d.stay }
    | (s, .ok ps) =>
      match ps with
      | p :: _ =>
        if s.lineRefused (tillAct i) p.pa p.dpage then { d with s := s, traps := d.traps ++ [(k, { kind := 0x11, i0 := dw va })] }
        else s.tillLane i instr c w k va p.pa d
      | [] => { d with s := s }

/-- The active lanes of an allowance operation, in ascending order. -/
def tillEff (i : Instr) : Eff := fun s c w run => run.foldl (tillStep i s.nid c w) ⟨s.fresh.2, [], []⟩

/-- `tillEff` in the common course of an issue (R178). -/
def tillOp (i : Instr) (s : State) : Out := runLanes i s (tillEff i)

/-- TAKE, waiting (R284). -/
def execTake (x : Fields) (s : State) : Out := tillOp (.take x) s

/-- TAKE.TRY (R284). -/
def execTakeTry (x : Fields) (s : State) : Out := tillOp (.takeTry x) s

/-- GIVE (R287). -/
def execGive (x : Fields) (s : State) : Out := tillOp (.give x) s

/-- ACINIT (R288). -/
def execAcinit (x : Fields) (s : State) : Out := tillOp (.acinit x) s

/-- STOCK (R289). -/
def execStock (x : Fields) (s : State) : Out := tillOp (.stock x) s

/-- The till looks at the head of its queue: it serves what it can, or takes stock when it holds too little (R285, R287). -/
def State.examine (s : State) (line : Nat) : State :=
  match s.till? line with
  | some t =>
    match t.queue with
    | q :: _ => if t.till < q.n then s.startStock line 0 else s.serveAll line
    | [] => s
  | none => s

/-- A TAKE joins the queue of its till, which looks at it when it is the head (R284, R285). -/
def State.queueTake (s : State) (id : Nat) (m : TillMsg) : State :=
  let s : State := { s with tillMsgs := put s.tillMsgs id { m with queued := true } }
  s.modTill m.line (fun t => { t with queue := t.queue ++ [{ id := id, core := m.core, n := m.n }], examine := t.examine || t.queue.isEmpty })

/-- TILL_TAKE (R284, R285, R291): a TAKE's request reaches the till, or the head of the queue is examined again. -/
def execTillTake (s : State) : Out :=
  let id := s.occ.id
  match look s.tillMsgs id with
  | none => .next s
  | some m =>
    if !s.tillOpen id m then .next s
    else
      match s.till? m.line with
      | none => .next (s.trapTill id m 0x11)
      | some t =>
        match m.act with
        | .tryTake =>
          if t.till < m.n then .next (s.startStock m.line id)
          else
            .next ((((s.grant m.line m.core m.n (t.queue.length + 1)).tillLinks m.wid m.core m.lane m.line).endTill id m (some 0)).modTill m.line
              (fun t => { t with examine := !t.queue.isEmpty }))
        | .take =>
          if m.queued then
            if t.examine then .next ((s.modTill m.line (fun t => { t with examine := false })).examine m.line) else .next s
          else if t.limit < m.n then .next (s.endTill id m (some 1))
          else
            .next (s.queueTake id m)
        | .give | .acinit | .stock => .next s

/-- TILL_GIVE (R287): a GIVE is decided at the till. -/
def execTillGive (s : State) : Out :=
  let id := s.occ.id
  match look s.tillMsgs id with
  | none => .next s
  | some m =>
    if m.act ≠ .give ∨ s.tillOpen id m = false then .next s
    else
      match s.till? m.line with
      | none => .next (s.trapTill id m 0x11)
      | some t =>
        if m.n = 0 then .next (((s.modTill m.line (fun t => { t with examine := !t.queue.isEmpty })).markTill m).endTill id m none)
        else
        let granted := (vals t.grants).foldl (· + ·) 0
        if t.limit < t.till + m.n + granted then .next (s.startStock m.line id)
        else .next (((s.modTill m.line (fun t => { t with till := t.till + m.n, examine := !t.queue.isEmpty })).markTill m).endTill id m none)

/-- Whether an ACINIT's lane has no access left to the line before it (R147). -/
def State.lineClear (s : State) (m : TillMsg) : Bool :=
  !s.ops.any (fun (_, o) => o.wid == m.wid && o.lane == m.lane && o.place == .line && lineOf o.pa == m.line && !(o.vis == 4) && !o.done)

/-- TILL_ACINIT (R282, R288): the rows of R288 in order. -/
def execTillAcinit (s : State) : Out :=
  let id := s.occ.id
  match look s.tillMsgs id with
  | none => .next s
  | some m =>
    if m.act ≠ .acinit ∨ s.tillOpen id m = false ∨ s.lineClear m = false then .next s
    else
      match s.till? m.line with
      | some t =>
        if t.byPart then .next (s.trapTill id m 0x11)
        else if m.lim < m.n then .next (s.trapTill id m 0x12)
        else .next (s.startStock m.line id)
      | none =>
        if 0 < m.lim ∧ s.tillFree m.line = false then .next (s.trapTill id m 0x11)
        else if m.lim < m.n then .next (s.trapTill id m 0x12)
        else if m.lim = 0 then .next (s.endTill id m none)
        else
          let s := s.recallLine m.line
          let s := { s with tills := put s.tills m.line { till := m.n, limit := m.lim, vi := m.vi } }
          .next (((s.writeImage m.line m.n m.lim 0).markTill m).endTill id m none)

/-- TILL_STOCK (R289): a STOCK reaches the till and its stocktake runs; on a line that has stopped being a counter the image's
TOTAL is the final exact total. -/
def execTillStock (s : State) : Out :=
  let id := s.occ.id
  match look s.tillMsgs id with
  | none => .next s
  | some m =>
    if m.act ≠ .stock ∨ s.tillOpen id m = false then .next s
    else
      match s.till? m.line with
      | some _ => .next (s.startStock m.line id)
      | none =>
        .next (s.fillStock id m (s.numAt (m.line + 4) 4))

/-- STOCKTAKE_RECALL (R286): the next holder in slice order returns its allowance; the last one ends the stocktake. -/
def execStocktakeRecall (s : State) : Out :=
  let line := s.occ.pa
  match s.till? line with
  | none => .next s
  | some t =>
    match t.stock with
    | none => .next s
    | some [] => .next (s.finishStock line)
    | some [c] => .next ((s.returnAllowance c line).finishStock line)
    | some (c :: rest) => .next ((s.returnAllowance c line).modTill line (fun t => { t with stock := some rest }))

/-- ALLOWANCE_WAIT_TIMEOUT (R291): a waiting TAKE leaves the queue, takes nothing, and traps. -/
def execAllowanceWaitTimeout (s : State) : Out :=
  let id := s.occ.id
  match look s.tillMsgs id with
  | none => .next s
  | some m =>
    if m.act ≠ .take ∨ s.expired m.due = false then .next s
    else .next (s.takeTrap m.wid [m.lane] (s.laneAt m.wid m.lane).pc { kind := 0x14, i0 := m.va })

end Sys2Proof.Machine
end

