-- ==== Sys2Proof/Machine/Func.lean ====
section
/-!
DEFINITION. The correctly rounded FP32 functions (R102, R103, R227). A function is evaluated in integers scaled by 2^P with a
bound on the error; both ends of the enclosure are rounded, and where they agree that is the correctly rounded result. Inputs
at which the value is exact, infinite or invalid, or lies next to a representable value, are settled first.
-/
namespace Sys2Proof.Machine

/-- Division of integers rounding down. -/
def fdiv (a b : Int) : Int := Int.fdiv a b

/-- The product of two numbers scaled by 2^P. -/
def fxMul (P : Nat) (a b : Int) : Int := fdiv (a * b) (2 ^ P)

/-- The quotient of two numbers scaled by 2^P. -/
def fxDiv (P : Nat) (a b : Int) : Int := fdiv (a * 2 ^ P) b

/-- A dyadic number scaled by 2^P, rounded down. -/
def fxOf (P : Nat) (neg : Bool) (m : Nat) (e : Int) : Int :=
  let n : Int := if 0 ≤ e + P then (m * 2 ^ (e + P).toNat : Nat) else (m / 2 ^ (-(e + P)).toNat : Nat)
  if neg then -n else n

/-- The sum of an alternating or plain power series with divisors given by the term's number: the sum from term k of
t, where each next term is t x r divided by d(k+1), and its share is divided by q(k). -/
def series (P : Nat) (r : Int) (d q : Nat → Int) : Nat → Nat → Int → Int → Int
  | 0, _, _, acc => acc
  | n + 1, k, t, acc => if t = 0 then acc else series P r d q n (k + 1) (fdiv (fxMul P t r) (d (k + 1))) (acc + fdiv t (q k))

/-- e^r for a small r. -/
def fxExp (P : Nat) (r : Int) : Int := series P r (fun k => k) (fun _ => 1) P 0 (2 ^ P) 0

/-- sin r and cos r for a small r. -/
def fxSin (P : Nat) (r : Int) : Int := series P (-(fxMul P r r)) (fun k => 2 * k * (2 * k + 1)) (fun _ => 1) P 0 r 0
def fxCos (P : Nat) (r : Int) : Int := series P (-(fxMul P r r)) (fun k => 2 * k * (2 * k - 1)) (fun _ => 1) P 0 (2 ^ P) 0

/-- arctan z and artanh z for a small z. -/
def fxAtan (P : Nat) (z : Int) : Int := series P (-(fxMul P z z)) (fun _ => 1) (fun k => 2 * k + 1) P 0 z 0
def fxAtanh (P : Nat) (z : Int) : Int := series P (fxMul P z z) (fun _ => 1) (fun k => 2 * k + 1) P 0 z 0

/-- Pi and ln 2 scaled by 2^P, each within 16 units in the last place. -/
def fxPi (P : Nat) : Int :=
  let Q := P + 24
  fdiv (16 * fxAtan Q (fdiv (2 ^ Q) 5) - 4 * fxAtan Q (fdiv (2 ^ Q) 239)) (2 ^ 24)
def fxLn2 (P : Nat) : Int :=
  let Q := P + 24
  fdiv (2 * fxAtanh Q (fdiv (2 ^ Q) 3)) (2 ^ 24)

/-- Round a scaled value whose error is at most 2^err units when both ends of the enclosure agree and are not zero. -/
def roundFx (mode : Rm) (P err : Nat) (x : Int) (shift : Int) : Option (Nat × BitVec 7) :=
  let lo := x - 2 ^ err
  let hi := x + 2 ^ err
  if (0 < lo) = (0 < hi) ∧ lo ≠ 0 ∧ hi ≠ 0 then
    let a := roundTo fp32 mode (.fin (decide (lo < 0)) lo.natAbs (shift - P))
    let b := roundTo fp32 mode (.fin (decide (hi < 0)) hi.natAbs (shift - P))
    if a = b then some a else none
  else none

/-- The functions of R227. -/
inductive Fn where
  | exp | exp2 | log | log2 | sin | sinpi | cos | cospi | tan | tanh | atan
  deriving DecidableEq, Repr

/-- The number of a function, for `Config.hardCase`. -/
def fnCode : Fn → Nat
  | .exp => 0 | .exp2 => 1 | .log => 2 | .log2 => 3 | .sin => 4 | .sinpi => 5 | .cos => 6 | .cospi => 7 | .tan => 8 | .tanh => 9
  | .atan => 10

/-- A value next to x toward zero, in the same place between the values and midpoints of FP32 as x (1 - d) for a tiny d. -/
def belowOf (neg : Bool) (m : Nat) (e : Int) : Ex := .fin neg (m * 2 ^ 40 - 1) (e - 40)

/-- A value next to x away from zero. -/
def aboveOf (neg : Bool) (m : Nat) (e : Int) : Ex := .fin neg (m * 2 ^ 40 + 1) (e - 40)

/-- The reduction of a scaled angle by quarter turns: the quarter and the rest, from pi scaled alike. -/
def quarters (x pi : Int) : Int × Int :=
  let n := fdiv (4 * x + pi) (2 * pi)
  (n, x - fdiv (n * pi) 2)

/-- sin, cos or tan of quarter n and rest r. -/
def trigOf (f : Fn) (P : Nat) (n r : Int) : Int :=
  let s := fxSin P r
  let c := fxCos P r
  let q := (n % 4).toNat
  let sn := if q = 0 then s else if q = 1 then c else if q = 2 then -s else -c
  let cs := if q = 0 then c else if q = 1 then -s else if q = 2 then -c else s
  match f with
  | .cos | .cospi => cs
  | .tan => if cs = 0 then 0 else fxDiv P sn cs
  | .exp | .exp2 | .log | .log2 | .sin | .sinpi | .tanh | .atan => sn

/-- One evaluation at precision P of a function at a finite argument that is neither tiny nor exact: the scaled value and
the power of two to apply. -/
def evalFn (f : Fn) (P : Nat) (neg : Bool) (m : Nat) (e : Int) : Int × Int :=
  match f with
  | .exp =>
    let x := fxOf P neg m e
    let l := fxLn2 P
    let n := fdiv x l
    (fxExp P (x - n * l), n)
  | .exp2 =>
    let x := fxOf P neg m e
    let n := fdiv x (2 ^ P)
    (fxExp P (fxMul P (x - n * 2 ^ P) (fxLn2 P)), n)
  | .log | .log2 =>
    let k := e + (Nat.log2 m : Nat)
    let y := fxOf P false m (-(Nat.log2 m : Nat))
    let up := decide (3 * 2 ^ P < 2 * y)
    let y := if up then fdiv y 2 else y
    let k := if up then k + 1 else k
    let z := fxDiv P (y - 2 ^ P) (y + 2 ^ P)
    let l := 2 * fxAtanh P z
    if f = .log then (l + k * fxLn2 P, 0) else (fxDiv P l (fxLn2 P) + k * 2 ^ P, 0)
  | .sin | .cos | .tan =>
    let Q := P + 140
    let (n, r) := quarters (fxOf Q neg m e) (fxPi Q)
    (trigOf f P n (fdiv r (2 ^ 140)), 0)
  | .sinpi | .cospi =>
    let x := fxOf P neg m e
    let n := fdiv (2 * x + 2 ^ (P - 1)) (2 ^ P)
    (trigOf f P n (fxMul P (x - n * 2 ^ (P - 1)) (fxPi P)), 0)
  | .tanh =>
    let x := 2 * fxOf P neg m e
    let l := fxLn2 P
    let n := fdiv x l
    let y := fxExp P (x - n * l)
    let y := if 0 ≤ n then y * 2 ^ n.toNat else fdiv y (2 ^ (-n).toNat)
    (fxDiv P (y - 2 ^ P) (y + 2 ^ P), 0)
  | .atan =>
    let one : Int := 2 ^ P
    let a := fxOf P false m e
    let big := decide (one < a)
    let a := if big then fxDiv P one a else a
    let mid := decide (2 * one < 5 * a)
    let z := if mid then fxDiv P (a - one) (a + one) else a
    let t := fxAtan P z
    let t := if mid then t + fdiv (fxPi P) 4 else t
    let t := if big then fdiv (fxPi P) 2 - t else t
    (if neg then -t else t, 0)

/-- Evaluate with rising precision until the rounding is decided (R102). -/
def decideFn (f : Fn) (mode : Rm) (neg : Bool) (m : Nat) (e : Int) : List Nat → Option (Nat × BitVec 7)
  | [] => none
  | P :: more =>
    let (x, k) := evalFn f P neg m e
    match roundFx mode P 40 x k with
    | some r => some r
    | none => decideFn f mode neg m e more

/-- A settled result: a value to round, or none when the general evaluation is needed. -/
def easyFn (f : Fn) (neg : Bool) (m : Nat) (e : Int) : Option Ex :=
  let lead := e + (Nat.log2 m : Nat)
  let whole := decide (0 ≤ e) || m % 2 ^ (-e).toNat == 0
  let n : Int := if 0 ≤ e then (m * 2 ^ e.toNat : Nat) else (m / 2 ^ (-e).toNat : Nat)
  let twice := decide (0 ≤ e + 1) || m % 2 ^ (-(e + 1)).toNat == 0
  let halves : Int := if 0 ≤ e + 1 then (m * 2 ^ (e + 1).toNat : Nat) else (m / 2 ^ (-(e + 1)).toNat : Nat)
  match f with
  | .exp =>
    if m = 0 then some (.fin false 1 0)
    else if lead < -40 then some (if neg then belowOf false 1 0 else aboveOf false 1 0)
    else if 7 < lead then some (if neg then .fin false 1 (-400) else .fin false 1 400)
    else none
  | .exp2 =>
    if m = 0 then some (.fin false 1 0)
    else if lead < -40 then some (if neg then belowOf false 1 0 else aboveOf false 1 0)
    else if 8 < lead then some (if neg then .fin false 1 (-400) else .fin false 1 400)
    else if whole then some (.fin false 1 (if neg then -n else n))
    else none
  | .log => if m * 2 ^ (Nat.log2 m) = 2 ^ (2 * Nat.log2 m) ∧ lead = 0 then some (.fin false 0 0) else none
  | .log2 =>
    if m = 2 ^ (Nat.log2 m) then some (.fin (decide (lead < 0)) lead.natAbs 0) else none
  | .sin => if m = 0 then some (.fin neg 0 0) else if lead < -21 then some (belowOf neg m e) else none
  | .cos => if m = 0 then some (.fin false 1 0) else if lead < -21 then some (belowOf false 1 0) else none
  | .tan => if m = 0 then some (.fin neg 0 0) else if lead < -21 then some (aboveOf neg m e) else none
  | .tanh =>
    if m = 0 then some (.fin neg 0 0) else if lead < -21 then some (belowOf neg m e)
    else if 5 < lead then some (belowOf neg 1 0) else none
  | .atan =>
    if m = 0 then some (.fin neg 0 0) else if lead < -21 then some (belowOf neg m e)
    else if 60 < lead then some (.fin neg (fxPi 100).toNat (-101)) else none
  | .sinpi =>
    if m = 0 then some (.fin neg 0 0)
    else if whole then some (.fin neg 0 0)
    else if twice then some (.fin (neg != (halves / 2 % 2 == 1)) 1 0)
    else if lead < -40 then some (.fin neg (m * (fxPi 100).toNat) (e - 100))
    else none
  | .cospi =>
    if m = 0 then some (.fin false 1 0)
    else if whole then some (.fin (n % 2 == 1) 1 0)
    else if twice then some (.fin false 0 0)
    else if lead < -40 then some (belowOf false 1 0)
    else none

/-- A function at an infinity (R103). -/
def fnInf (f : Fn) (mode : Rm) (neg : Bool) : Nat × BitVec 7 :=
  match f with
  | .exp | .exp2 => (if neg then 0 else fp32.infPat false, 0)
  | .log | .log2 => if neg then (fp32.nan, fIV) else (fp32.infPat false, 0)
  | .sin | .sinpi | .cos | .cospi | .tan => (fp32.nan, fIV)
  | .tanh => roundTo fp32 mode (.fin neg 1 0)
  | .atan => roundTo fp32 mode (.fin neg (fxPi 100).toNat (-101))

/-- A function at a finite argument by precision; where no precision decides, `Config.hardCase` stands. -/
def fnGeneral (f : Fn) (mode : Rm) (a : Nat) (neg : Bool) (m : Nat) (e : Int) : Nat × BitVec 7 :=
  match decideFn f mode neg m e [160, 320] with
  | some r => r
  | none =>
    let rm := match mode with | .rne => 0 | .rtz => 1 | .rdn => 2 | .rup => 3
    let (x, inexact) := Config.hardCase (fnCode f) (a % 2 ^ 32) rm
    (x % 2 ^ 32, if inexact then fIX else 0)

/-- A function of R227 on a pattern: the correctly rounded result and its flags (R102, R103). -/
def fnRound (f : Fn) (mode : Rm) (a : Nat) : Nat × BitVec 7 :=
  match fp32.val a with
  | .nan => (fp32.nan, 0)
  | .inf neg => fnInf f mode neg
  | .fin neg m e =>
    if (f = .log ∨ f = .log2) ∧ m = 0 then (fp32.infPat true, fDZ)
    else if (f = .log ∨ f = .log2) ∧ neg = true then (fp32.nan, fIV)
    else
      match easyFn f neg m e with
      | some x => roundTo fp32 mode x
      | none => fnGeneral f mode a neg m e

end Sys2Proof.Machine
end

