-- ==== Sys2Proof/Machine/LaneFp.lean ====
section
/-!
DEFINITION. Floating-point instructions (R216 to R228): each forms its exact result and rounds it once; the function-unit
instructions deliver theirs later.
-/
namespace Sys2Proof.Machine

/-- Run an instruction whose active lanes each compute a result that the function unit delivers later (R201). -/
def laterOp (i : Instr) (f : Instr → Wave → Lane → Nat × BitVec 7) (s : State) : Out :=
  runLanes i s (eachLater (descOf i) (f i) (fieldsOf i).dst)

/-- The rounding mode of an instruction: RND, and RNE in a short form (R97). -/
def rmI (i : Instr) : Rm := rmOf (fieldsOf i).rnd

def valFadd (ft : FT) (i : Instr) (w : Wave) (l : Lane) : Nat × BitVec 7 := fAdd (ftFmt ft) (rmI i) (opA i w l) (opB i w l)
def valFsub (ft : FT) (i : Instr) (w : Wave) (l : Lane) : Nat × BitVec 7 := fSub (ftFmt ft) (rmI i) (opA i w l) (opB i w l)
def valFmul (ft : FT) (i : Instr) (w : Wave) (l : Lane) : Nat × BitVec 7 := fMul (ftFmt ft) (rmI i) (opA i w l) (opB i w l)
def valFma (ft : FT) (i : Instr) (w : Wave) (l : Lane) : Nat × BitVec 7 :=
  fFma (ftFmt ft) (rmI i) (opA i w l) (opB i w l) (opC i w l)
def valFdiv (ft : FT) (i : Instr) (w : Wave) (l : Lane) : Nat × BitVec 7 := fDiv (ftFmt ft) (rmI i) (opA i w l) (opB i w l)
def valFsqrt (ft : FT) (i : Instr) (w : Wave) (l : Lane) : Nat × BitVec 7 := fSqrt (ftFmt ft) (rmI i) (opA i w l)
def valFrcp (ft : FT) (i : Instr) (w : Wave) (l : Lane) : Nat × BitVec 7 := fRcp (ftFmt ft) (rmI i) (opA i w l)
def valFrsq (ft : FT) (i : Instr) (w : Wave) (l : Lane) : Nat × BitVec 7 := fRsq (ftFmt ft) (rmI i) (opA i w l)

/-- The low bits of a register that hold an operand of a format (R96). -/
def pat (f : Fmt) (x : Nat) : Nat := x % 2 ^ f.w

def valFmin (ft : FT) (i : Instr) (w : Wave) (l : Lane) : Nat × BitVec 7 :=
  (fMinMax (ftFmt ft) false (pat (ftFmt ft) (opA i w l)) (pat (ftFmt ft) (opB i w l)), 0)
def valFmax (ft : FT) (i : Instr) (w : Wave) (l : Lane) : Nat × BitVec 7 :=
  (fMinMax (ftFmt ft) true (pat (ftFmt ft) (opA i w l)) (pat (ftFmt ft) (opB i w l)), 0)

/-- The pattern with its sign bit put to a value; every other bit is copied (R219). -/
def withSign (f : Fmt) (x : Nat) (s : Bool) : Nat := setBit (pat f x) (f.w - 1) s

def valFabs (ft : FT) (i : Instr) (w : Wave) (l : Lane) : Nat × BitVec 7 := (withSign (ftFmt ft) (opA i w l) false, 0)
def valFneg (ft : FT) (i : Instr) (w : Wave) (l : Lane) : Nat × BitVec 7 :=
  (withSign (ftFmt ft) (opA i w l) (!bit (opA i w l) ((ftFmt ft).w - 1)), 0)
def valFcps (ft : FT) (i : Instr) (w : Wave) (l : Lane) : Nat × BitVec 7 :=
  (withSign (ftFmt ft) (opA i w l) (bit (opB i w l) ((ftFmt ft).w - 1)), 0)

def bitFcmp (r : Rel) (ft : FT) (i : Instr) (w : Wave) (l : Lane) : Bool × BitVec 7 :=
  fRel r ((ftFmt ft).val (opA i w l)) ((ftFmt ft).val (opB i w l))

/-- The class of a value as one bit of nine (R221). -/
def fClass (f : Fmt) (x : Nat) : Nat :=
  match f.val x with
  | .nan => 256
  | .inf neg => if neg then 1 else 128
  | .fin neg m e =>
    if m = 0 then (if neg then 8 else 16)
    else if e + (Nat.log2 m : Nat) < f.emin then (if neg then 4 else 32)
    else if neg then 2 else 64

def valFcls (ft : FT) (i : Instr) (w : Wave) (l : Lane) : Nat × BitVec 7 := (fClass (ftFmt ft) (opA i w l), 0)
def valFrnd (ft : FT) (i : Instr) (w : Wave) (l : Lane) : Nat × BitVec 7 := fIntegral (ftFmt ft) (rmI i) (opA i w l)
def valCvtf (cd cs : CF) (i : Instr) (w : Wave) (l : Lane) : Nat × BitVec 7 := fConvert (cfFmt cd) (cfFmt cs) (rmI i) (opA i w l)
def valCvtfi (cs : CF) (ty : IntTy) (i : Instr) (w : Wave) (l : Lane) : Nat × BitVec 7 :=
  fToInt (cfFmt cs) ty (rmI i) (opA i w l)
def valCvtif (cd : CF) (ty : IntTy) (i : Instr) (w : Wave) (l : Lane) : Nat × BitVec 7 :=
  fOfInt (cfFmt cd) (rmI i) (tyVal ty (opA i w l))

/-- An SC20 scale as FP32 (R105). -/
def scToF32 (x : Nat) : Nat × BitVec 7 :=
  match scVal x with
  | none => (fp32.nan, fIV)
  | some v => roundTo fp32 .rne v

/-- FP32 as an SC20 scale (R226): the grid is 0 and the values with an exponent from -126 up, 12 fraction bits. -/
def f32ToSc (mode : Rm) (x : Nat) : Nat × BitVec 7 :=
  match fp32.val x with
  | .nan => (0xFF000, fIV)
  | .inf _ => (0xFF000, fIV)
  | .fin neg m e =>
    if m = 0 then (0, 0)
    else if neg then (0xFF000, fIV)
    else
      let lead := e + (Nat.log2 m : Nat)
      if lead < -126 then
        let up := match mode with
          | .rne => decide (lead = -127) && m != 2 ^ Nat.log2 m
          | .rtz => false
          | .rdn => false
          | .rup => true
        (if up then 0x01000 else 0, fUF ||| fIX)
      else
        let (n, exact) := cutTo mode false m e (lead - 12)
        let y := ((lead + 126).toNat) * 4096 + n
        if 0xFEFFF < y then
          (match mode with
           | .rne => 0xFF000
           | .rtz => 0xFEFFF
           | .rdn => 0xFEFFF
           | .rup => 0xFF000, fOF ||| fIX)
        else (y, if exact then 0 else fIX)

def valCvtsc (toSc : Bool) (i : Instr) (w : Wave) (l : Lane) : Nat × BitVec 7 :=
  if toSc then f32ToSc (rmI i) (opA i w l) else scToF32 (opA i w l)

def valFn (f : Fn) (i : Instr) (w : Wave) (l : Lane) : Nat × BitVec 7 := fnRound f (rmI i) (opA i w l)

/-- FP32 sources rounded into a narrow format and packed (R228). -/
def valFpack (cf : CF) (i : Instr) (w : Wave) (l : Lane) : Nat × BitVec 7 :=
  let f := cfFmt cf
  let a := fConvert f fp32 .rne (opA i w l)
  let b := fConvert f fp32 .rne (opB i w l)
  (if f.w = 16 then a.1 + b.1 * 2 ^ 16 else a.1 + b.1 * 2 ^ 8 + opC i w l % 2 ^ 16 * 2 ^ 16, a.2 ||| b.2)

/-- FADD, short form (R216). -/
def execFaddShort (b : BitVec 6) (a : BitVec 8) (d : BitVec 8) (s : State) : Out := laneOp (.faddShort b a d) (valFadd .f32) s

/-- FADD (R216). -/
def execFadd (ft : FT) (x : Fields) (s : State) : Out := laneOp (.fadd ft x) (valFadd ft) s

/-- FSUB, short form (R216). -/
def execFsubShort (b : BitVec 6) (a : BitVec 8) (d : BitVec 8) (s : State) : Out := laneOp (.fsubShort b a d) (valFsub .f32) s

/-- FSUB (R216). -/
def execFsub (ft : FT) (x : Fields) (s : State) : Out := laneOp (.fsub ft x) (valFsub ft) s

/-- FMUL, short form (R216). -/
def execFmulShort (b : BitVec 6) (a : BitVec 8) (d : BitVec 8) (s : State) : Out := laneOp (.fmulShort b a d) (valFmul .f32) s

/-- FMUL (R216). -/
def execFmul (ft : FT) (x : Fields) (s : State) : Out := laneOp (.fmul ft x) (valFmul ft) s

/-- FMA, short form (R216). -/
def execFmaShort (b : BitVec 6) (a : BitVec 8) (d : BitVec 8) (s : State) : Out := laneOp (.fmaShort b a d) (valFma .f32) s

/-- FMA (R216). -/
def execFma (ft : FT) (x : Fields) (s : State) : Out := laneOp (.fma ft x) (valFma ft) s

/-- FDIV, short form (R217). -/
def execFdivShort (b : BitVec 6) (a : BitVec 8) (d : BitVec 8) (s : State) : Out := laterOp (.fdivShort b a d) (valFdiv .f32) s

/-- FDIV (R217). -/
def execFdiv (ft : FT) (x : Fields) (s : State) : Out := laterOp (.fdiv ft x) (valFdiv ft) s

/-- FSQRT, short form (R217). -/
def execFsqrtShort (a : BitVec 8) (d : BitVec 8) (s : State) : Out := laterOp (.fsqrtShort a d) (valFsqrt .f32) s

/-- FSQRT (R217). -/
def execFsqrt (ft : FT) (x : Fields) (s : State) : Out := laterOp (.fsqrt ft x) (valFsqrt ft) s

/-- FRCP, short form (R217). -/
def execFrcpShort (a : BitVec 8) (d : BitVec 8) (s : State) : Out := laterOp (.frcpShort a d) (valFrcp .f32) s

/-- FRCP (R217). -/
def execFrcp (ft : FT) (x : Fields) (s : State) : Out := laterOp (.frcp ft x) (valFrcp ft) s

/-- FRSQ, short form (R217). -/
def execFrsqShort (a : BitVec 8) (d : BitVec 8) (s : State) : Out := laterOp (.frsqShort a d) (valFrsq .f32) s

/-- FRSQ (R217). -/
def execFrsq (ft : FT) (x : Fields) (s : State) : Out := laterOp (.frsq ft x) (valFrsq ft) s

/-- FMIN, short form (R218). -/
def execFminShort (b : BitVec 6) (a : BitVec 8) (d : BitVec 8) (s : State) : Out := laneOp (.fminShort b a d) (valFmin .f32) s

/-- FMIN (R218). -/
def execFmin (ft : FT) (x : Fields) (s : State) : Out := laneOp (.fmin ft x) (valFmin ft) s

/-- FMAX, short form (R218). -/
def execFmaxShort (b : BitVec 6) (a : BitVec 8) (d : BitVec 8) (s : State) : Out := laneOp (.fmaxShort b a d) (valFmax .f32) s

/-- FMAX (R218). -/
def execFmax (ft : FT) (x : Fields) (s : State) : Out := laneOp (.fmax ft x) (valFmax ft) s

/-- FABS, short form (R219). -/
def execFabsShort (a : BitVec 8) (d : BitVec 8) (s : State) : Out := laneOp (.fabsShort a d) (valFabs .f32) s

/-- FABS (R219). -/
def execFabs (ft : FT) (x : Fields) (s : State) : Out := laneOp (.fabs ft x) (valFabs ft) s

/-- FNEG, short form (R219). -/
def execFnegShort (a : BitVec 8) (d : BitVec 8) (s : State) : Out := laneOp (.fnegShort a d) (valFneg .f32) s

/-- FNEG (R219). -/
def execFneg (ft : FT) (x : Fields) (s : State) : Out := laneOp (.fneg ft x) (valFneg ft) s

/-- FCPS, short form (R219). -/
def execFcpsShort (b : BitVec 6) (a : BitVec 8) (d : BitVec 8) (s : State) : Out := laneOp (.fcpsShort b a d) (valFcps .f32) s

/-- FCPS (R219). -/
def execFcps (ft : FT) (x : Fields) (s : State) : Out := laneOp (.fcps ft x) (valFcps ft) s

/-- FCMP, short form (R220). -/
def execFcmpShort (b : BitVec 6) (a : BitVec 8) (k : BitVec 8) (s : State) : Out := bitOp (.fcmpShort b a k) (bitFcmp .eq .f32) s

/-- FCMP (R220). -/
def execFcmp (r : Rel) (ft : FT) (x : Fields) (s : State) : Out := bitOp (.fcmp r ft x) (bitFcmp r ft) s

/-- FCLS, short form (R221). -/
def execFclsShort (a : BitVec 8) (d : BitVec 8) (s : State) : Out := laneOp (.fclsShort a d) (valFcls .f32) s

/-- FCLS (R221). -/
def execFcls (ft : FT) (x : Fields) (s : State) : Out := laneOp (.fcls ft x) (valFcls ft) s

/-- FRND, short form (R222). -/
def execFrndShort (a : BitVec 8) (d : BitVec 8) (s : State) : Out := laneOp (.frndShort a d) (valFrnd .f32) s

/-- FRND (R222). -/
def execFrnd (ft : FT) (x : Fields) (s : State) : Out := laneOp (.frnd ft x) (valFrnd ft) s

/-- CVTF (R223). -/
def execCvtf (cd : CF) (cs : CF) (x : Fields) (s : State) : Out := laneOp (.cvtf cd cs x) (valCvtf cd cs) s

/-- CVTFI (R224). -/
def execCvtfi (cs : CF) (ty : IntTy) (x : Fields) (s : State) : Out := laneOp (.cvtfi cs ty x) (valCvtfi cs ty) s

/-- CVTIF (R225). -/
def execCvtif (cd : CF) (ty : IntTy) (x : Fields) (s : State) : Out := laneOp (.cvtif cd ty x) (valCvtif cd ty) s

/-- CVTSC (R226). -/
def execCvtsc (toSc : Bool) (x : Fields) (s : State) : Out := laneOp (.cvtsc toSc x) (valCvtsc toSc) s

/-- FEXP, short form (R227). -/
def execFexpShort (a : BitVec 8) (d : BitVec 8) (s : State) : Out := laterOp (.fexpShort a d) (valFn .exp) s

/-- FEXP (R227). -/
def execFexp (b2 : Bool) (x : Fields) (s : State) : Out := laterOp (.fexp b2 x) (valFn (if b2 then .exp2 else .exp)) s

/-- FLOG, short form (R227). -/
def execFlogShort (a : BitVec 8) (d : BitVec 8) (s : State) : Out := laterOp (.flogShort a d) (valFn .log) s

/-- FLOG (R227). -/
def execFlog (b2 : Bool) (x : Fields) (s : State) : Out := laterOp (.flog b2 x) (valFn (if b2 then .log2 else .log)) s

/-- FSIN, short form (R227). -/
def execFsinShort (a : BitVec 8) (d : BitVec 8) (s : State) : Out := laterOp (.fsinShort a d) (valFn .sin) s

/-- FSIN (R227). -/
def execFsin (pi : Bool) (x : Fields) (s : State) : Out := laterOp (.fsin pi x) (valFn (if pi then .sinpi else .sin)) s

/-- FCOS, short form (R227). -/
def execFcosShort (a : BitVec 8) (d : BitVec 8) (s : State) : Out := laterOp (.fcosShort a d) (valFn .cos) s

/-- FCOS (R227). -/
def execFcos (pi : Bool) (x : Fields) (s : State) : Out := laterOp (.fcos pi x) (valFn (if pi then .cospi else .cos)) s

/-- FTAN, short form (R227). -/
def execFtanShort (a : BitVec 8) (d : BitVec 8) (s : State) : Out := laterOp (.ftanShort a d) (valFn .tan) s

/-- FTAN (R227). -/
def execFtan (x : Fields) (s : State) : Out := laterOp (.ftan x) (valFn .tan) s

/-- FTANH, short form (R227). -/
def execFtanhShort (a : BitVec 8) (d : BitVec 8) (s : State) : Out := laterOp (.ftanhShort a d) (valFn .tanh) s

/-- FTANH (R227). -/
def execFtanh (x : Fields) (s : State) : Out := laterOp (.ftanh x) (valFn .tanh) s

/-- FATAN, short form (R227). -/
def execFatanShort (a : BitVec 8) (d : BitVec 8) (s : State) : Out := laterOp (.fatanShort a d) (valFn .atan) s

/-- FATAN (R227). -/
def execFatan (x : Fields) (s : State) : Out := laterOp (.fatan x) (valFn .atan) s

/-- FPACK (R228). -/
def execFpack (cf : CF) (x : Fields) (s : State) : Out := laneOp (.fpack cf x) (valFpack cf) s

end Sys2Proof.Machine
end

