-- ==== Sys2Proof/Machine/Exchange.lean ====
section
/-!
DEFINITION. Lane exchange, votes, masks, reductions and scans (R229 to R237).
-/
namespace Sys2Proof.Machine

/-- What lane k reads from source lane j of an exchange (R229): its own value when j is outside the wave or not in the issue,
zero when j is absent. -/
def xsrc (i : Instr) (w : Wave) (run : List Nat) (k : Nat) (j : Int) : Nat :=
  let own := opA i w (w.lane k)
  if j < 0 ∨ (w.width : Int) ≤ j then own
  else if !(w.lane j.toNat).present then 0
  else if run.contains j.toNat then opA i w (w.lane j.toNat)
  else own

/-- The source lane of an exchange, for lane k (R230, R231). -/
def shuffleFrom (i : Instr) (w : Wave) (k : Nat) : Int :=
  let d := w2f (fieldsOf i) 5 0
  match ext i with
  | .shfl _ _ => (opB i w (w.lane k) : Nat)
  | .shflup _ _ => (k : Int) - d
  | .shfldn _ _ => (k : Int) + d
  | .shflx _ _ => (k ^^^ d : Nat)
  | _ => (d : Int)

/-- The registers of a destination. -/
def dstRegs (i : Instr) : Nat :=
  match (descOf i).dst with
  | .v _ n => n
  | .zero | .w | .k | .kd | .t | .lvl => 1

/-- Run a shuffle or a broadcast: every active lane gets its source lane's value later (R201, R230, R231). -/
def shuffleEff (i : Instr) : Eff := fun s c w run =>
    ⟨s.later c.wid (fieldsOf i).dst.toNat (dstRegs i) (run.map (fun k => (k, xsrc i w run k (shuffleFrom i w k)))) [], [], []⟩

/-- `shuffleEff` in the common course of an issue (R178). -/
def shuffleOp (i : Instr) (s : State) : Out := runLanes i s (shuffleEff i)

/-- A wave-level effect that uses the values of all active lanes (R202, R232, R236). -/
def gatherEff (i : Instr) (f : List (Nat × Nat) → Nat) (late : Bool) : Eff := fun s c w run =>
    let x := f (run.map (fun k => (k, opA i w (w.lane k))))
    let level := (w.lane (run.headD 0)).level
    ⟨if late then s.laterW c.wid level run (fieldsOf i).dst.toNat x else s.putW c.wid level (fieldsOf i).dst.toNat x, [], []⟩

/-- `gatherEff` in the common course of an issue (R178). -/
def gatherOp (i : Instr) (f : List (Nat × Nat) → Nat) (late : Bool) (s : State) : Out := runLanes i s (gatherEff i f late)

/-- What VOTE writes (R232). -/
def voteVal (op : VoteOp) (vs : List (Nat × Nat)) : Nat :=
  match op with
  | .any => if vs.any (fun v => v.2 != 0) then 1 else 0
  | .all => if vs.all (fun v => v.2 != 0) then 1 else 0
  | .ballot => vs.foldl (fun m v => if v.2 = 0 then m else m + 2 ^ v.1) 0

def bitKset (i : Instr) (w : Wave) (l : Lane) : Bool × BitVec 7 := (opA i w l != 0, 0)

/-- k[dst] := w[a] below the width (R233). -/
def fxKsetW (i : Instr) (s : State) (c : Issue) (w : Wave) (k : Nat) : State :=
  s.putK c.wid (fieldsOf i).dst.toNat (opA i w (w.lane k))

/-- The bitwise operations of KOP (R234). -/
def kopVal (op : KopOp) (a b : Nat) : Nat :=
  match op with
  | .and => a &&& b
  | .or => a ||| b
  | .xor => a ^^^ b
  | .andn => a &&& ((2 ^ 64 - 1) ^^^ b)
  | .not => (2 ^ 64 - 1) ^^^ a

/-- KOP on masks (R234); bits at or above the width drop. -/
def fxKop (op : KopOp) (i : Instr) (s : State) (c : Issue) (w : Wave) (k : Nat) : State :=
  s.putK c.wid (fieldsOf i).dst.toNat (kopVal op (opA i w (w.lane k)) (opB i w (w.lane k)))

/-- Copy a mask into a mask or a wave register (R235). -/
def fxKmov (toW : Bool) (i : Instr) (s : State) (c : Issue) (w : Wave) (k : Nat) : State :=
  let a := opA i w (w.lane k)
  if toW then s.putW c.wid (w.lane k).level (fieldsOf i).dst.toNat a else s.putK c.wid (fieldsOf i).dst.toNat a

/-- The number of set bits of a mask below the width (R235). -/
def fxKpopc (i : Instr) (s : State) (c : Issue) (w : Wave) (k : Nat) : State :=
  s.putW c.wid (w.lane k).level (fieldsOf i).dst.toNat (popcount (opA i w (w.lane k)) w.width)

/-- Combine two values of a type (R236, R237). -/
def combine (op : RedOp) (ty : IntTy) (a b : Nat) : Nat :=
  match op with
  | .add => tyPut ty (tyVal ty a + tyVal ty b)
  | .min => tyPut ty (if tyVal ty b < tyVal ty a then tyVal ty b else tyVal ty a)
  | .max => tyPut ty (if tyVal ty a < tyVal ty b then tyVal ty b else tyVal ty a)
  | .and => a &&& b
  | .or => a ||| b
  | .xor => a ^^^ b
  | .fmin => fMinMax (if tyCode ty = 1 then fp64 else fp32) false a b
  | .fmax => fMinMax (if tyCode ty = 1 then fp64 else fp32) true a b

/-- The result of REDUCE as 64 bits (R236); FMIN of a single value passes through the rule of R218. -/
def reduceVal (op : RedOp) (ty : IntTy) (vs : List (Nat × Nat)) : Nat :=
  match vs with
  | [] => 0
  | (_, a) :: t =>
    let r := t.foldl (fun m v => combine op ty m v.2) a
    match op with
    | .fmin | .fmax => (if t.isEmpty then combine op ty a a else r) % 2 ^ 64
    | .add | .min | .max | .and | .or | .xor => tyPut64 ty (tyVal ty r)

/-- The reduction whose inclusive prefix SCAN forms (R237). -/
def scanRed : ScanOp → RedOp
  | .add => .add | .min => .min | .max => .max

/-- The inclusive prefix over the active lanes in ascending index (R237). -/
def prefixes (op : RedOp) (ty : IntTy) : Option Nat → List (Nat × Nat) → List (Nat × Nat)
  | _, [] => []
  | acc, (k, a) :: t =>
    let x := match acc with
      | some m => combine op ty m a
      | none => tyPut ty (tyVal ty a)
    (k, x) :: prefixes op ty (some x) t

/-- SCAN on the active lanes (R237). -/
def scanEff (op : ScanOp) (ty : IntTy) (i : Instr) : Eff := fun s c w run =>
    ⟨s.later c.wid (fieldsOf i).dst.toNat (dstRegs i)
      (prefixes (scanRed op) ty none (run.map (fun k => (k, opA i w (w.lane k))))) [], [], []⟩

/-- `scanEff` in the common course of an issue (R178). -/
def scanOp (op : ScanOp) (ty : IntTy) (i : Instr) (s : State) : Out := runLanes i s (scanEff op ty i)

/-- SHFL, short form (R230). -/
def execShflShort (b : BitVec 6) (a : BitVec 8) (d : BitVec 8) (s : State) : Out := shuffleOp (.shflShort b a d) s

/-- SHFL (R230). -/
def execShfl (wd : Wd) (x : Fields) (s : State) : Out := shuffleOp (.shfl wd x) s

/-- SHFLUP, short form (R230). -/
def execShflupShort (i : BitVec 6) (a : BitVec 8) (d : BitVec 8) (s : State) : Out := shuffleOp (.shflupShort i a d) s

/-- SHFLUP (R230). -/
def execShflup (wd : Wd) (x : Fields) (s : State) : Out := shuffleOp (.shflup wd x) s

/-- SHFLDN, short form (R230). -/
def execShfldnShort (i : BitVec 6) (a : BitVec 8) (d : BitVec 8) (s : State) : Out := shuffleOp (.shfldnShort i a d) s

/-- SHFLDN (R230). -/
def execShfldn (wd : Wd) (x : Fields) (s : State) : Out := shuffleOp (.shfldn wd x) s

/-- SHFLX, short form (R230). -/
def execShflxShort (i : BitVec 6) (a : BitVec 8) (d : BitVec 8) (s : State) : Out := shuffleOp (.shflxShort i a d) s

/-- SHFLX (R230). -/
def execShflx (wd : Wd) (x : Fields) (s : State) : Out := shuffleOp (.shflx wd x) s

/-- BCAST (R231). -/
def execBcast (wd : Wd) (x : Fields) (s : State) : Out := shuffleOp (.bcast wd x) s

/-- VOTE (R232). -/
def execVote (op : VoteOp) (x : Fields) (s : State) : Out := gatherOp (.vote op x) (voteVal op) false s

/-- KSET: each active lane's bit, or the whole mask from a wave register (R233). -/
def execKset (w : Bool) (x : Fields) (s : State) : Out :=
  if w then waveOp (.kset w x) fxKsetW s else bitOp (.kset w x) bitKset s

/-- KOP (R234). -/
def execKop (op : KopOp) (x : Fields) (s : State) : Out := waveOp (.kop op x) (fxKop op) s

/-- KMOV (R235). -/
def execKmov (w : Bool) (x : Fields) (s : State) : Out := waveOp (.kmov w x) (fxKmov w) s

/-- KPOPC (R235). -/
def execKpopc (x : Fields) (s : State) : Out := waveOp (.kpopc x) fxKpopc s

/-- REDUCE (R236). -/
def execReduce (op : RedOp) (ty : IntTy) (x : Fields) (s : State) : Out := gatherOp (.reduce op ty x) (reduceVal op ty) true s

/-- SCAN (R237). -/
def execScan (op : ScanOp) (ty : IntTy) (x : Fields) (s : State) : Out := scanOp op ty (.scan op ty x) s

end Sys2Proof.Machine
end

