-- ==== Sys2Proof/Machine/Control.lean ====
section
/-!
DEFINITION. Control, loops, waiting, ending and the issue of SPAWN (R240 to R265).
-/
namespace Sys2Proof.Machine

/-- An address fault or alignment trap with its address, size and access: 0 read, 1 write, 2 atomic, 3 fetch (R394). -/
def accessTrap (kind addr size acc : Nat) : Trap := { kind := kind, i0 := dw addr, i1 := dw (size + 256 * acc) }

/-- Whether a jump's target is refused: alignment first, then high bits (R191, R240). -/
def targetTrap (t : DWord) : Option Trap :=
  if t &&& 3 ≠ 0 then some (accessTrap 0x05 t.toNat 4 3)
  else if highBits t then some (accessTrap 0x06 t.toNat 4 3)
  else none

/-- The direct target of an offset in words (R240). -/
def directTarget (c : Issue) (i : Instr) : DWord := c.pc + (fieldsOf i).w2.signExtend 64 * 4

/-- Where one lane goes: to its target unless that is refused, or on to the next instruction. -/
def branchLane (go : Wave → Nat → Option DWord) (f : State → Nat → DWord → State) (w : Wave) (d : Done) (k : Nat) : Done :=
  match go w k with
  | none => d
  | some t =>
    match targetTrap t with
    | some e => { d with traps := d.traps ++ [(k, e)] }
    | none => { d with s := f d.s k t, stay := k :: d.stay }

/-- Where the lanes of an issue go. -/
def branchDone (go : Wave → Nat → Option DWord) (f : State → Nat → DWord → State) : State → Issue → Wave → List Nat → Done :=
  fun s _ w run => run.foldl (branchLane go f w) ⟨s, [], []⟩

/-- Run a branch: lanes with a target jump to it (R80, R242, R243). -/
def branchEff (go : Issue → Wave → Nat → Option DWord) : Eff := fun s c w run => branchDone (go c) (fun s k t => s.jumpLane c.wid k t) s c w run

/-- `branchEff` in the common course of an issue (R178). -/
def branchOp (i : Instr) (go : Issue → Wave → Nat → Option DWord) (s : State) : Out := runLanes i s (branchEff go)

/-- Whether BRC's relation holds on a lane (R243). -/
def brcGo (r : Rel) (ty : IntTy) (i : Instr) (c : Issue) (w : Wave) (k : Nat) : Option DWord :=
  if intRel r (tyVal ty (opA i w (w.lane k))) (tyVal ty (opB i w (w.lane k))) then some (directTarget c i) else none

/-- Go to a target without touching the loop levels (R80, R244, R245). -/
def State.goLane (s : State) (wid k : Nat) (t : DWord) : State := s.modLane wid k (fun l => { l with pc := t })

/-- Run a call: the link goes to v14:v15 (R244). -/
def callEff (i : Instr) (go : Issue → Wave → Nat → DWord) : Eff := fun s c w run =>
    let link := c.pc + dw (4 * wordsOf i)
    branchDone (fun w k => some (go c w k)) (fun s k t => (s.putV c.wid k 14 2 link.toNat).goLane c.wid k t) s c w run

/-- `callEff` in the common course of an issue (R178). -/
def callOp (i : Instr) (go : Issue → Wave → Nat → DWord) (s : State) : Out := runLanes i s (callEff i go)

/-- Run RET: the lane goes to v14:v15 (R245). -/
def retEff : Eff := fun s c w run =>
    branchDone (fun w k => some (dw ((w.lane k).read 14 2))) (fun s k t => s.goLane c.wid k t) s c w run

/-- `retEff` in the common course of an issue (R178). -/
def retOp (i : Instr) (s : State) : Out := runLanes i s retEff

/-- The level a LOOP sets up (R246). -/
def loopLevel (i : Instr) : Nat :=
  match ext i with
  | .loop l _ => l.toNat
  | .loopI l _ => l.toNat
  | _ => 0

/-- LOOP on one lane with its count (R247). A count of zero leaves the body behind as a taken branch, which needs the length of
the instruction at its end. -/
def loopLane (c : Issue) (w : Wave) (len e level : Nat) (d : Done) (k count : Nat) : Done :=
  let le := c.pc + dw (4 * e)
  let ls := c.pc + dw (4 * len)
  if count = 0 then
    match d.s.fetchWord w (w.lane k).level le.toNat with
    | (s, .fault t) => { d with s := s, traps := d.traps ++ [(k, t)] }
    | (s, .wait leaf) => { d with s := s.waitLane c.wid len k (.page leaf), stay := k :: d.stay }
    | (s, .ok x) =>
      let target := le + dw (4 * lenWords x)
      match targetTrap target with
      | some t => { d with s := s, traps := d.traps ++ [(k, t)] }
      | none =>
        let s := s.modLane c.wid k (fun l => l.setLoop level ls le 0)
        { d with s := s.jumpLane c.wid k target, stay := k :: d.stay }
  else { d with s := d.s.modLane c.wid k (fun l => l.setLoop level ls le (BitVec.ofNat 32 count)) }

/-- Run LOOP (R246, R247). -/
def loopEff (i : Instr) (count : Lane → Nat) : Eff := fun s c w run =>
    run.foldl (fun d k => loopLane c w (wordsOf i) (w2f (fieldsOf i) 15 0) (loopLevel i) d k (count (w.lane k))) ⟨s, [], []⟩

/-- `loopEff` in the common course of an issue (R178). -/
def loopOp (i : Instr) (count : Lane → Nat) (s : State) : Out := runLanes i s (loopEff i count)

/-- The count of LOOP.I (R246). -/
def loopImm (i : Instr) : Nat := w2f (fieldsOf i) 31 16

/-- Lanes inside a pixel-ordered section trap with a cause, before anything else (R358). -/
def forbidInside (opc cause : Nat) (w : Wave) (run : List Nat) : List (Nat × Trap) :=
  (run.filter (fun k => (w.lane k).inside)).map (fun k => (k, orderedTrap (w.lane k) opc cause 0))

/-- The lanes outside a section. -/
def outsideLanes (w : Wave) (run : List Nat) : List Nat := run.filter (fun k => !(w.lane k).inside)

/-- A barrier instance that an arriving lane joins, by kind and block (R81, R249). -/
def State.findBarrier (s : State) (b : Barrier) : Option (Nat × Barrier) :=
  s.barriers.find? (fun (_, x) =>
    if b.isWave then x.isWave && x.wid == b.wid
    else !x.isWave && x.lid == b.lid && x.level == b.level && x.bx == b.bx && x.by_ == b.by_)

/-- A lane arrives at a barrier and waits (R249); the first lane names the instance's time-out (R82). -/
def State.arrive (s : State) (wid len : Nat) (b : Barrier) (k : Nat) : State :=
  match s.findBarrier b with
  | some (id, x) =>
    let s := { s with barriers := put s.barriers id { x with arrived := x.arrived ++ [(wid, k)] } }
    s.waitLane wid len k (.barrier id)
  | none =>
    let (id, s) := s.fresh
    let s := { s with barriers := put s.barriers id { b with start := s.gt, arrived := [(wid, k)] } }
    s.waitLane wid len k (.barrier id)

/-- A time-out operand, where 0 selects the interface's default (R82). -/
def State.timeoutOr (s : State) (vi operand : Nat) : Nat := if operand = 0 then s.barto vi else operand

/-- The barrier that BAR names: of the wave, or of the wave's block at a level (R248, R249). -/
def State.barrierOf (s : State) (i : Instr) (c : Issue) (w : Wave) : Barrier :=
  let lvl := (fieldsOf i).dst.toNat
  let isWave := (match ext i with | .barBlk _ => false | _ => true)
  let timeout := s.timeoutOr w.vi (fieldsOf i).w2.toNat
  match s.job? w.lid with
  | some j =>
    { isWave := isWave, wid := if isWave then c.wid else 0, lid := w.lid, level := lvl,
      bx := (coreX w.core - j.x0) / 2 ^ lvl, by_ := (coreY w.core - j.y0) / 2 ^ lvl, timeout := timeout }
  | none => { isWave := isWave, wid := c.wid, lid := w.lid, level := lvl, timeout := timeout }

/-- Whether a lane of a re-run wave passes a block barrier that it had completed (R402). -/
def Wave.barPassed (w : Wave) (b : Barrier) (k : Nat) : Bool :=
  !b.isWave && decide (lookD (w.lane k).blk b.level 0 < lookD w.bars b.level 0)

/-- A lane passes a block barrier. -/
def Lane.passBlock (lvl : Nat) (l : Lane) : Lane := { l with blk := put l.blk lvl (lookD l.blk lvl 0 + 1) }

/-- Run BAR (R81, R248 to R251): lanes arrive, and the barrier completes when the last has. A re-run wave passes the block
barriers it had completed. -/
def barEff (i : Instr) : Eff := fun s c w run =>
    let b := s.barrierOf i c w
    let go := outsideLanes w run
    let s := go.foldl (fun s k =>
      if w.barPassed b k then s.modLane c.wid k (Lane.passBlock b.level) else s.arrive c.wid (wordsOf i) b k) s
    ⟨s.settleBarriers, forbidInside (descOf i).opc 3 w run, go.filter (fun k => !w.barPassed b k)⟩

/-- `barEff` in the common course of an issue (R178). -/
def barOp (i : Instr) (s : State) : Out := runLanes i s (barEff i)

/-- Run SLEEP (R252): a lane whose target has not come waits for it. -/
def sleepEff (i : Instr) (target : State → Wave → Lane → Nat) : Eff := fun s c w run =>
    let late := (outsideLanes w run).filter (fun k => decide (s.gt < target s w (w.lane k)))
    ⟨late.foldl (fun n k => n.waitLane c.wid (wordsOf i) k (.sleep (target s w (w.lane k)))) s,
     forbidInside (descOf i).opc 3 w run, late⟩

/-- `sleepEff` in the common course of an issue (R178). -/
def sleepOp (i : Instr) (target : State → Wave → Lane → Nat) (s : State) : Out := runLanes i s (sleepEff i target)

/-- The operand that WAIT names by OPK (R253). -/
def waitRef (i : Instr) : RegRef :=
  let x := fieldsOf i
  match w2f x 1 0 with
  | 0 => .v x.sa.toNat
  | 1 => .w x.sa.toNat
  | _ => .k x.sa.toNat

/-- Whether a register is empty for a lane. -/
def Wave.emptyRef (w : Wave) (l : Lane) (r : RegRef) : Bool :=
  match r with
  | .v n => has l.ve n
  | .w n => w.emptyW l.level n
  | .k n => w.emptyK n

/-- The producer that a register waits for. -/
def Wave.producerOf (w : Wave) (l : Lane) (r : RegRef) : Nat :=
  match r with
  | .v n => lookD l.ve n 0
  | .w n => lookD w.we (wKey l.level n) 0
  | .k n => lookD w.ke n 0

/-- One lane's WAIT.FULL (R253, R358). -/
def waitFullLane (i : Instr) (c : Issue) (w : Wave) (d : Done) (k : Nat) : Done :=
  let l := w.lane k
  let r := waitRef i
  if !w.emptyRef l r then d
  else if (fieldsOf i).epa then { d with traps := d.traps ++ [(k, { kind := 0x04, i0 := dw (fieldsOf i).sa.toNat })] }
  else if l.inside && !d.s.ownProducer c.wid k (w.producerOf l r) then
    { d with traps := d.traps ++ [(k, orderedTrap l 0x57 4 0)] }
  else { d with s := d.s.waitLane c.wid (wordsOf i) k (.full r), stay := k :: d.stay }

/-- One lane's WAIT.EMPTY (R253, R358). -/
def waitEmptyLane (i : Instr) (c : Issue) (w : Wave) (d : Done) (k : Nat) : Done :=
  let l := w.lane k
  let r := waitRef i
  if w.emptyRef l r then d
  else if l.inside then { d with traps := d.traps ++ [(k, orderedTrap l 0x57 4 0)] }
  else { d with s := d.s.waitLane c.wid (wordsOf i) k (.empty r), stay := k :: d.stay }

/-- Run WAIT (R253). -/
def waitEff (i : Instr) (f : Instr → Issue → Wave → Done → Nat → Done) : Eff := fun s c w run => run.foldl (f i c w) ⟨s, [], []⟩

/-- `waitEff` in the common course of an issue (R178). -/
def waitOp (i : Instr) (f : Instr → Issue → Wave → Done → Nat → Done) (s : State) : Out := runLanes i s (waitEff i f)

/-- Run TRAP: the program trap with its code and the words of the TRAP (R254). -/
def trapEff (i : Instr) : Eff := fun s _ _ run =>
    ⟨s, run.map (fun k => (k, { kind := 0x0B, i0 := dw (wordsOf i * 256 + w2f (fieldsOf i) 5 0) })), []⟩

/-- `trapEff` in the common course of an issue (R178). -/
def trapOp (i : Instr) (s : State) : Out := runLanes i s (trapEff i)

/-- Run END: each active lane outside a section ends (R37, R255). -/
def endEff (i : Instr) : Eff := fun s c w run =>
    let go := outsideLanes w run
    ⟨go.foldl (fun s k => (s.settleDisc (w.lane k).item k c.wid false).endLane c.wid k) s, forbidInside (descOf i).opc 5 w run, go⟩

/-- `endEff` in the common course of an issue (R178). -/
def endOp (i : Instr) (s : State) : Out := runLanes i s (endEff i)

/-- Run YIELD: each active lane passes a safe point (R262). -/
def yieldEff : Eff := fun s c _ run => ⟨run.foldl (fun s k => s.safePoint c.wid k) s, [], []⟩

/-- `yieldEff` in the common course of an issue (R178). -/
def yieldOp (i : Instr) (s : State) : Out := runLanes i s yieldEff

/-- Run CMT.WAIT (R264): lanes whose issuer does not hold the token wait; inside a section they trap (R358). -/
def cmtWaitEff (i : Instr) : Eff := fun s c w run =>
    let late := run.filter (fun k => !s.holdsToken (w.lane k).item)
    let stay := outsideLanes w late
    ⟨stay.foldl (fun n k => n.waitLane c.wid (wordsOf i) k (.commit (if (fieldsOf i).w2 = 0 then 0 else s.gt + (fieldsOf i).w2.toNat) (fieldsOf i).w2.toNat)) s,
     forbidInside (descOf i).opc 4 w late, stay⟩

/-- `cmtWaitEff` in the common course of an issue (R178). -/
def cmtWaitOp (i : Instr) (s : State) : Out := runLanes i s (cmtWaitEff i)

/-- A core's copy of the holder of an interface's token may catch up with it: when it does is open (R263). -/
def State.tokenCopy (s : State) (core vi : Nat) : State :=
  let (b, s) := s.choose 2
  match s.tokenHolder vi with
  | some h => if b = 0 then s else s.modCore core (fun k => { k with tokens := put k.tokens vi h })
  | none => s

/-- Whether a core's copy names an issuer as the token's holder, and it is (R263); the boot wave, which has no issuer and for which the manual
gives no commit position, reads 1 (log entry 126). -/
def State.copyHolds (s : State) (core vi item : Nat) : Bool :=
  s.holdsToken item && ((s.issuer? item).isNone || look (s.coreAt core).tokens vi == some item)

/-- Run CMT.POS (R263): 0 for an issuer without the token; the core's copy of the token's position may lag, so a new holder may still
read 0. -/
def cmtPosEff (i : Instr) : Eff := fun s c w run =>
    let t := s.tokenCopy w.core w.vi
    ⟨run.foldl (fun s k => s.putV c.wid k (fieldsOf i).dst.toNat 1 (bCode (t.copyHolds w.core w.vi (w.lane k).item))) t, [], []⟩

/-- `cmtPosEff` in the common course of an issue (R178). -/
def cmtPosOp (i : Instr) (s : State) : Out := runLanes i s (cmtPosEff i)

/-- What a lane asks of SPAWN (R259). -/
def spawnAsk (i : Instr) (c : Issue) (w : Wave) (k : Nat) : SpawnAsk :=
  let l := w.lane k
  let x := fieldsOf i
  let rg := w2f x 7 0
  let base : SpawnAsk :=
    { lane := k, pc := c.pc, item := l.item, arg := dw (opA i w l), key := dw (opB i w l), desc := dw (opC i w l), dst := x.dst.toNat }
  match ext i with
  | .spawn true _ =>
    { base with rlo := l.read rg 2, rlen := l.read (rg + 2) 2, wlo := l.read (rg + 4) 2, wlen := l.read (rg + 6) 2 }
  | _ => base

/-- The undecided request of this cycle that a second SPAWN group of a wave joins (R55, R70). -/
def State.openSpawn (s : State) (c : Issue) (w : Wave) : Option (Nat × SpawnReq) :=
  if c.joins then s.spawns.find? (fun (_, r) => r.wid == c.wid && r.cycle == (s.coreAt w.core).cycle) else none

/-- Hold lanes in a SPAWN request (R260, R261). -/
def State.askSpawn (s : State) (c : Issue) (w : Wave) (len : Nat) (asks : List SpawnAsk) : State :=
  let (id, s) :=
    match s.openSpawn c w with
    | some (id, r) => (id, { s with spawns := put s.spawns id { r with asks := r.asks ++ asks } })
    | none =>
      let (id, s) := s.fresh
      (id, { s with spawns := put s.spawns id { wid := c.wid, core := w.core, cycle := (s.coreAt w.core).cycle, asks := asks } })
  asks.foldl (fun s a => s.waitLane c.wid len a.lane (.spawn id)) s

/-- Run SPAWN: the lanes are held until the request is decided; work without a spawn counter of its own finds no room (R259 to
R261, R355), the boot wave too (DESIGN CHOICE, log entry 147). -/
def spawnEff (i : Instr) : Eff := fun s c w run =>
    let go := outsideLanes w run
    let traps := forbidInside (descOf i).opc 3 w run
    if w.kind = .launched ∨ w.kind = .spawned then
      if go.isEmpty then ⟨s, traps, []⟩ else ⟨s.askSpawn c w (wordsOf i) (go.map (spawnAsk i c w)), traps, go⟩
    else ⟨go.foldl (fun s k => s.putV c.wid k (fieldsOf i).dst.toNat 1 1) s, traps, []⟩

/-- `spawnEff` in the common course of an issue (R178). -/
def spawnOp (i : Instr) (s : State) : Out := runLanes i s (spawnEff i)

/-- BRA, short form (R242). -/
def execBraShort (i : BitVec 22) (s : State) : Out := branchOp (.braShort i) (fun c _ _ => some (directTarget c (.braShort i))) s

/-- BRA (R242). -/
def execBra (x : Fields) (s : State) : Out := branchOp (.bra x) (fun c _ _ => some (directTarget c (.bra x))) s

/-- BRC (R243). -/
def execBrc (r : Rel) (ty : IntTy) (x : Fields) (s : State) : Out := branchOp (.brc r ty x) (brcGo r ty (.brc r ty x)) s

/-- CALL, short form (R244). -/
def execCallShort (i : BitVec 22) (s : State) : Out := callOp (.callShort i) (fun c _ _ => directTarget c (.callShort i)) s

/-- CALL (R244). -/
def execCall (x : Fields) (s : State) : Out := callOp (.call x) (fun c _ _ => directTarget c (.call x)) s

/-- CALL.IND (R244). -/
def execCallInd (x : Fields) (s : State) : Out := callOp (.callInd x) (fun _ w k => dw (opA (.callInd x) w (w.lane k))) s

/-- RET, short form (R245). -/
def execRetShort (s : State) : Out := retOp .retShort s

/-- RET (R245). -/
def execRet (x : Fields) (s : State) : Out := retOp (.ret x) s

/-- LOOP, short form (R247). -/
def execLoopShort (l : BitVec 2) (a : BitVec 8) (e : BitVec 8) (s : State) : Out := loopOp (.loopShort l a e) (fun ln => (ln.rv (fieldsOf (.loopShort l a e)).sa.toNat).toNat) s

/-- LOOP (R247). -/
def execLoop (l : Lvl) (x : Fields) (s : State) : Out := loopOp (.loop l x) (fun ln => (ln.rv (fieldsOf (.loop l x)).sa.toNat).toNat) s

/-- LOOP.I (R247). -/
def execLoopI (l : Lvl) (x : Fields) (s : State) : Out := loopOp (.loopI l x) (fun _ => loopImm (.loopI l x)) s

/-- BAR.WV, short form (R248). -/
def execBarWvShort (s : State) : Out := barOp .barWvShort s

/-- BAR.WV (R248). -/
def execBarWv (x : Fields) (s : State) : Out := barOp (.barWv x) s

/-- BAR.BLK (R248). -/
def execBarBlk (x : Fields) (s : State) : Out := barOp (.barBlk x) s

/-- SLEEP, short form (R252). -/
def execSleepShort (a : BitVec 8) (s : State) : Out := sleepOp (.sleepShort a) (fun _ w l => opA (.sleepShort a) w l) s

/-- SLEEP (R252). -/
def execSleep (x : Fields) (s : State) : Out := sleepOp (.sleep x) (fun _ w l => (opA (.sleep x) w l + w2f x 30 0) % 2 ^ 64) s

/-- SLEEP.FOR (R252). -/
def execSleepFor (x : Fields) (s : State) : Out := sleepOp (.sleepFor x) (fun s _ _ => s.gt + w2f x 30 0) s

/-- WAIT.FULL, short form (R253). -/
def execWaitFullShort (a : BitVec 8) (s : State) : Out := waitOp (.waitFullShort a) waitFullLane s

/-- WAIT.FULL (R253). -/
def execWaitFull (x : Fields) (s : State) : Out := waitOp (.waitFull x) waitFullLane s

/-- WAIT.EMPTY (R253). -/
def execWaitEmpty (x : Fields) (s : State) : Out := waitOp (.waitEmpty x) waitEmptyLane s

/-- TRAP, short form (R254). -/
def execTrapShort (c : BitVec 6) (s : State) : Out := trapOp (.trapShort c) s

/-- TRAP (R254). -/
def execTrap (x : Fields) (s : State) : Out := trapOp (.trap x) s

/-- END, short form (R255). -/
def execEndShort (s : State) : Out := endOp .endShort s

/-- END (R255). -/
def execEndLane (x : Fields) (s : State) : Out := endOp (.endLane x) s

/-- YIELD, short form (R262). -/
def execYieldShort (s : State) : Out := yieldOp .yieldShort s

/-- YIELD (R262). -/
def execYieldNow (x : Fields) (s : State) : Out := yieldOp (.yieldNow x) s

/-- CMT.WAIT, short form (R264). -/
def execCmtWaitShort (s : State) : Out := cmtWaitOp .cmtWaitShort s

/-- CMT.WAIT (R264). -/
def execCmtWait (x : Fields) (s : State) : Out := cmtWaitOp (.cmtWait x) s

/-- CMT.POS (R263). -/
def execCmtPos (x : Fields) (s : State) : Out := cmtPosOp (.cmtPos x) s

/-- SPAWN (R259, R260). -/
def execSpawn (rng : Bool) (x : Fields) (s : State) : Out := spawnOp (.spawn rng x) s

end Sys2Proof.Machine
end

