-- ==== Sys2Proof/Machine/DPage.lean ====
section
/-!
DEFINITION. D pages (R135, R136, R159 to R166, R439): what an access under a position reads, versions and read bounds, conflicts,
the version share, commit, and the steps D_PAGE_ACCESS, VERSION_SHARE_ABORT, COMMIT, HELD_WRITE and COMMIT_WAIT_TIMEOUT.
-/
namespace Sys2Proof.Machine

/-- The version of a byte with the highest position at or below an issuer's own (R160). -/
def State.versionByte (s : State) (id pa : Nat) : Option Byte :=
  match s.issuer? id with
  | none => none
  | some k =>
    (s.versions.foldl (fun (best : Option ((Nat × Issuer) × Byte)) v =>
      match s.issuer? v.issuer, look v.bytes pa with
      | some j, some b =>
        if v.line == lineOf pa && j.vi == k.vi && !posLt (id, k) (v.issuer, j) then
          match best with
          | some (x, _) => if posLt x (v.issuer, j) then some ((v.issuer, j), b) else best
          | none => some ((v.issuer, j), b)
        else best
      | _, _ => best) none).map Prod.snd

/-- A byte of a D page as an issuer's position sees it (R160). -/
def State.dByte (s : State) (id pa : Nat) : Byte := (s.versionByte id pa).getD (s.byteAt pa)

/-- n bytes of a D page as a position sees them. -/
def State.dNum (s : State) (id pa n : Nat) : Nat := ofBytes ((List.range n).map (fun k => s.dByte id (pa + k)))

/-- Whether an issuer still has a position to read and write under. -/
def State.openIssuer (s : State) (id : Nat) : Bool :=
  match s.issuer? id with
  | some i => !i.committed
  | none => false

/-- An access raises the read bounds of its lines to its position (R160). -/
def State.noteRead (s : State) (id pa n : Nat) : State :=
  if s.openIssuer id then { s with readers := (s.readers ++ (linesOf pa n).map (fun l => (l, id))).eraseDups } else s

/-- Read under a position: the value, with the read noted (R160). -/
def State.dRead (s : State) (id pa n : Nat) : State × Nat := (s.noteRead id pa n, s.dNum id pa n)

/-- Write one byte of an issuer's version (R160). -/
def putVersion (vs : List Version) (id pa : Nat) (b : Byte) : List Version :=
  match vs with
  | [] => [{ line := lineOf pa, issuer := id, bytes := [(pa, b)] }]
  | v :: t => if v.line == lineOf pa && v.issuer == id then { v with bytes := put v.bytes pa b } :: t else v :: putVersion t id pa b

/-- Write bytes of an issuer's version, from an address up. -/
def putVersions (vs : List Version) (id pa : Nat) : List Byte → List Version
  | [] => vs
  | b :: t => putVersions (putVersion vs id pa b) id (pa + 1) t

/-- The version lines that an interface holds in a slice (R136, R439). -/
def State.versionLines (s : State) (vi slice : Nat) : List Version :=
  s.versions.filter (fun v => homeSlice v.line == slice && (match s.issuer? v.issuer with | some i => i.vi == vi | none => false))

/-- Whether an issuer may write a version of a line now (R136): it has one, holds the token, or the slice's share has room. -/
def State.versionRoom (s : State) (id line : Nat) : Bool :=
  match s.issuer? id with
  | none => true
  | some i =>
    i.committed || s.versions.any (fun v => v.line == line && v.issuer == id) || s.holdsToken id ||
    decide ((s.versionLines i.vi (homeSlice line)).length < 1024 * s.sysBits 0x302 i.vi 8 0)

/-- Write under a position, and abort the later positions that a conflict reaches (R160, R162). -/
def State.dWrite (s : State) (id pa : Nat) (bs : List Byte) : State :=
  if s.openIssuer id then
    let s := { s with versions := putVersions s.versions id pa bs }
    let hit := ((linesOf pa bs.length).flatMap (fun l => s.conflicts id l)).eraseDups
    if hit.isEmpty then s
    else
      let vi := match s.issuer? id with | some i => i.vi | none => 0
      (s.countSlice (homeSlice pa) vi 0x104 (s.spreadAll s.issuers.length hit).length).abortAll hit
  else s.storeBytes pa bs

/-- Whether an access to a D line may be performed now (R136, R147, R153). -/
def State.dReady (s : State) (id : Nat) (o : Op) : Bool :=
  o.place == .dpage && !o.done && s.localOk id o && s.relOk o && !s.owned id o.pa && !s.nocHeld id o && (!o.writes || s.versionRoom o.item (lineOf o.pa))

/-- The issuer whose version of a byte a position reads, none for committed contents (R160). -/
def State.versionSource (s : State) (id pa : Nat) : Option Nat :=
  match s.issuer? id with
  | none => none
  | some k =>
    (s.versions.foldl (fun (best : Option (Nat × Issuer)) v =>
      match s.issuer? v.issuer with
      | some j =>
        if v.line == lineOf pa && has v.bytes pa && j.vi == k.vi && !posLt (id, k) (v.issuer, j) then
          match best with
          | some x => if posLt x (v.issuer, j) then some (v.issuer, j) else best
          | none => some (v.issuer, j)
        else best
      | none => best) none).map Prod.fst

/-- The stores kept for their orderings that a read of a D page reads from: those of the issuer whose version it reads, or those that are
committed (R148, R160). -/
def State.dSources (s : State) (o : Op) : List Nat :=
  (s.ops.filter (fun (_, t) => t.isStore && t.vis == 4 && t.place == .dpage &&
    (List.range o.size).any (fun k => t.covers (o.pa + k) &&
      (match s.versionSource o.item (o.pa + k) with
       | some j => t.item == j
       | none => !s.openIssuer t.item)))).map Prod.fst

/-- Perform an access to a D line (R135, R139, R148, R160, R162). -/
def State.performD (s : State) (id : Nat) (o : Op) : State :=
  let (s, o) := s.tear id o
  match o.act with
  | .store =>
    let (s, bs) := s.tornBytes o o.byte
    ((s.forget o).endStore id o).dWrite o.item o.pa bs
  | .load _ =>
    let (s, bs) := s.tornBytes o (s.dByte o.item)
    let (s, x) := ((s.noteRead o.item o.pa o.size).observe id o (s.dSources o)).pageValue o (ofBytes bs)
    { s with ops := put s.ops id { o with done := true, data := x } }
  | .atom _ _ | .cas _ | .fatom _ _ =>
    let (s, bs) := s.tornBytes o (s.dByte o.item)
    let s := (s.noteRead o.item o.pa o.size).observe id o (s.dSources o)
    let x := ofBytes bs
    let (new, fl) := rmw o.act o.size x o.data o.cmp
    let s := { s with ops := put s.ops id { o with done := true, data := x, flags := fl } }
    match new with
    | some y => (s.keepAtomic o).dWrite o.item o.pa (toBytes o.size y)
    | none => s
  | .fence _ | .flush | .fill | .sete | .drain _ | .push | .pop | .rbrd | .rbadd => s

/-- The accesses of an issue to a common unit of a D line that can be performed now, by rising lane: none before a lower lane's (R268). -/
def State.dBatch (s : State) (id : Nat) (o : Op) : List (Nat × Op) := (s.groupOf id o).takeWhile (fun (j, a) => s.dReady j a)

/-- Whether an access to a D line is performed next (R136, R147, R153, R268). -/
def State.dDue (s : State) (id : Nat) (o : Op) : Bool := o.place == .dpage && (s.dBatch id o).any (fun x => x.1 == id)

/-- D_PAGE_ACCESS (R135, R136, R160, R162): an access to a D line is performed under its issuer's position, with those of its issue
to the same unit in lane order (R268). -/
def execDPageAccess (s : State) : Out :=
  let id := s.occ.id
  match look s.ops id with
  | none => .next s
  | some o =>
    if !s.dDue id o then .next s
    else
      .next ((s.dBatch id o).foldl (fun s (j, _) =>
        match look s.ops j with
        | some a => s.performD j a
        | none => s) s).settleOps

/-- The issuer that R165 aborts in a slice: the highest uncommitted position with a version there, when the share is full and the
token holder has not been placed. -/
def State.shareVictim (s : State) (vi slice : Nat) : Option Nat :=
  let vs := s.versionLines vi slice
  match s.tokenHolder vi with
  | none => none
  | some h =>
    let waits := match s.issuer? h with
      | some i => i.stage == .unplaced || i.stage == .queued
      | none => false
    if waits && !vs.isEmpty && decide (1024 * s.sysBits 0x302 vi 8 0 ≤ vs.length) then
      let us := s.issuers.filter (fun (id, i) => !i.committed && id != h && vs.any (fun v => v.issuer == id))
      (us.foldl (fun best u =>
        match best with
        | some b => if posLt b u then some u else best
        | none => some u) (none : Option (Nat × Issuer))).map Prod.fst
    else none

/-- VERSION_SHARE_ABORT (R165). -/
def execVersionShareAbort (s : State) : Out :=
  match s.shareVictim s.occ.vi s.occ.n with
  | some id =>
    .next ((s.countSlice s.occ.n s.occ.vi 0x104 (s.spreadAll s.issuers.length [id]).length).abortAll [id]).settleOps
  | none => .next s

/-- Whether every store and atomic of an issuer beyond the banks is performed at its home slice, and its commands are complete (R50, R161). -/
def State.storesDone (s : State) (id : Nat) : Bool :=
  !s.ops.any (fun (_, o) => o.item == id && o.writes && o.place != .bank && !o.done && !(o.isStore && o.place == .line && o.vis == 4)) &&
  !s.cmds.any (fun (_, c) => c.item == id)

/-- Whether an issuer has written a D line, or is still to write one (R161). -/
def State.wroteD (s : State) (id : Nat) : Bool :=
  s.versions.any (fun v => v.issuer == id) || s.ops.any (fun (_, o) => o.item == id && o.place == .dpage && o.writes && !o.done) ||
  s.cmds.any (fun (_, c) => c.item == id && c.segs.any (fun r => r.any (fun g => g.dpage)))

/-- Whether a holder's versions can commit: it has retired, and its stores are performed; one that wrote no D line passes the token when it
retires (R161). -/
def State.commitDue (s : State) (vi : Nat) : Bool :=
  match s.tokenHolder vi with
  | none => false
  | some id =>
    match s.issuer? id with
    | some i => i.stage == .retired && (s.storesDone id || !s.wroteD id)
    | none => false

/-- Lanes in CMT.WAIT whose issuer holds the token go on (R264). -/
def State.wakeCommit (s : State) : State :=
  s.waves.foldl (fun s (wid, w) =>
    w.idx.foldl (fun s k =>
      match (s.laneAt wid k).wait with
      | .commit _ _ => if s.holdsToken (s.laneAt wid k).item then s.leave wid k else s
      | _ => s) s) s

/-- The versions of an issuer become the committed contents in one step (R161). -/
def State.commitVersions (s : State) (id : Nat) : State :=
  let mine := s.versions.filter (fun v => v.issuer == id)
  let s := mine.foldl (fun s v => v.bytes.foldl (fun s (pa, b) => s.storeBytes pa [b]) s) s
  s.dropVersions id

/-- The versions of an issuer commit, and the token of its interface passes on (R161, R264). -/
def State.commitIssuer (s : State) (vi id : Nat) : State :=
  let slices := ((s.versions.filter (fun v => v.issuer == id)).map (fun v => homeSlice v.line)).eraseDups
  let s := slices.foldl (fun s k => s.countSlice k vi 0x103 1) (s.commitVersions id)
  let s := s.modIssuer id (fun i => { i with committed := true })
  s.pruneDone.wakeCommit.settleOps

/-- COMMIT (R161, R264): the holder's versions commit in one step, and the token passes on. -/
def execCommit (s : State) : Out :=
  let vi := s.occ.vi
  if !s.commitDue vi then .next s
  else
    match s.tokenHolder vi with
    | none => .next s
    | some id => .next (s.commitIssuer vi id)

/-- The uncommitted issuers that hold a version of a line of a range or read it: a write of the host or a peer waits for them (R166). -/
def State.waitsFor (s : State) (pa n : Nat) : List Nat :=
  let ls := linesOf pa n
  ((s.versions.filter (fun v => ls.contains v.line)).map Version.issuer ++ (s.readers.filter (fun r => ls.contains r.1)).map Prod.snd).eraseDups

/-- The bytes that a request of the host or a peer touches, and whether it writes. -/
def reqSize : PeerReq → Nat
  | .load n => n
  | .store bs => bs.length
  | .atomic _ ty _ | .cas ty _ _ => tyBits ty / 8
  | .fatom _ ft _ => (ftFmt ft).w / 8
def reqWrites : PeerReq → Bool
  | .load _ => false
  | .store _ | .atomic _ _ _ | .cas _ _ _ | .fatom _ _ _ => true

/-- Whether a held request can be performed (R153, R166): its issuers have committed, no engine command owns its lines, and no request
that came before it is held there. -/
def State.heldDue (s : State) (id : Nat) (h : Held) : Bool :=
  let ls := linesOf h.pa (reqSize h.req)
  h.waits.all (fun i => !s.openIssuer i) && ls.all (fun l => !s.cmds.any (fun (_, c) => c.owns l)) &&
  !s.held.any (fun (j, x) => decide (j < id) && (linesOf x.pa (reqSize x.req)).any (fun l => ls.contains l))

/-- The stores of a private page's owner in its L1 that a request meets (R435), oldest first. -/
def State.privMet (s : State) (pa n : Nat) : List (Nat × Op) :=
  (s.ops.filter (fun (_, o) => o.priv && o.vis == 2 && decide (o.pa < pa + n) && decide (pa < o.pa + o.size))).foldr insertStamp []

/-- A number as a request of the host or a peer finds it: older than a private page's owner left it, or not (R435). -/
def State.outerNum (s : State) (pa n : Nat) : State × Nat :=
  if (s.privMet pa n).isEmpty then (s, s.numAt pa n)
  else
    let (c, s) := s.choose 2
    (s, if c = 0 then s.numAt pa n else s.deviceNum pa n)

/-- Write for the host or a peer at the home slice: of a byte that a private page's owner stored as well, either value stays (R435). -/
def State.outerWrite (s : State) (pa : Nat) (bs : List Byte) : State :=
  let met := s.privMet pa bs.length
  if met.isEmpty then s.storeBytes pa bs
  else
    let (c, s) := s.choose 2
    if c = 0 then s.storeBytes pa bs else (met.foldl (fun s (id, o) => s.performStore id o) s).storeBytes pa bs

/-- Perform a request of the host or a peer and answer it (R157, R158, R435); a read of a poisoned line is refused (R462, log entry 103). -/
def State.serveOuter (s : State) (h : Held) : State :=
  let n := reqSize h.req
  let answer (s : State) (kind x : Nat) : State :=
    if h.port = 2 then s
    else
      s.send { port := h.port, dest := h.dest, kind := kind, addr := h.pa, data := if kind = 9 then toBytes n x else [],
               cage := if h.port = 1 then s.cageOf h.dest h.pa else h.cage }
  let change (act : Act) (b cmp : Nat) : State :=
    let (s, old) := s.outerNum h.pa n
    let s := match (rmw act n old b cmp).1 with
      | some x => s.outerWrite h.pa (toBytes n x)
      | none => s
    answer s 9 old
  if s.poisoned h.pa n && (match h.req with | .store _ => false | _ => true) then (if h.port = 2 then s else answer s 8 0)
  else
  match h.req with
  | .load _ =>
    let (s, x) := s.outerNum h.pa n
    answer s 9 x
  | .store bs => answer (s.outerWrite h.pa bs) 10 0
  | .atomic op ty b => change (.atom op ty) b.toNat 0
  | .cas ty cmp new => change (.cas ty) new.toNat cmp.toNat
  | .fatom op ft b => change (.fatom op ft) b.toNat 0

/-- Take a request of the host or a peer at its home slice: it is performed, or held (R153, R166). -/
def State.takeOuter (s : State) (h : Held) : State :=
  let h := { h with waits := if reqWrites h.req then s.waitsFor h.pa (reqSize h.req) else [] }
  let (id, s) := s.fresh
  if s.heldDue id h then (s.serveOuter h).settleOps else { s with held := put s.held id h }

/-- HELD_WRITE (R153, R166): a held request of the host or a peer is performed. -/
def execHeldWrite (s : State) : Out :=
  let id := s.occ.id
  match look s.held id with
  | none => .next s
  | some h => if s.heldDue id h then .next (({ s with held := del s.held id } : State).serveOuter h).settleOps else .next s

/-- COMMIT_WAIT_TIMEOUT (R264): the lane takes the precise commit-wait time-out trap. -/
def execCommitWaitTimeout (s : State) : Out :=
  let l := s.laneAt s.occ.wid s.occ.lane
  match l.wait with
  | .commit due ticks =>
    if s.expired due && !s.holdsToken l.item then .next (s.takeTrap s.occ.wid [s.occ.lane] l.pc { kind := 0x15, i0 := dw ticks })
    else .next s
  | _ => .next s

end Sys2Proof.Machine
end

