-- ==== Sys2Proof/Machine/Engine.lean ====
section
/-!
DEFINITION. Posting engine commands (R152, R320 to R324, R331, R333, R337, R340): the steps of R321 for each lane, the queues, and
TCOPY, TGATH, TSCAT, FCONV, SRED and EMBAG.
-/
namespace Sys2Proof.Machine

/-- Field [hi:lo] of word i of a command block. -/
def Cmd.f (c : Cmd) (i hi lo : Nat) : Nat := bits (c.blk.getD i 0) hi lo

/-- The bytes of a command block, which is also its alignment (R321 step 1). -/
def blockBytes : EngKind → Nat
  | .tcopy | .tgath | .tscat | .fconv => 32
  | .sred | .embag => 64

/-- The rows, tiles, bags or elements of a command. -/
def Cmd.rows (c : Cmd) : Nat :=
  match c.kind with
  | .tcopy | .tgath | .tscat => c.f 3 27 16 + 1
  | .fconv => c.f 3 11 0 + 1
  | .sred => c.f 4 31 0
  | .embag => c.f 5 51 40 + 1

/-- Whether a command writes global memory from the scratchpad (R332, R333). -/
def Cmd.toGlobal (c : Cmd) : Bool :=
  match c.kind with
  | .tcopy => c.f 3 28 28 == 1
  | .tscat | .fconv => true
  | .tgath | .sred | .embag => false

/-- Words of a row of TCOPY, TGATH or TSCAT (R331). -/
def Cmd.width (c : Cmd) : Nat := c.f 3 13 0 + 1

/-- Bytes of an element of FCONV (R333). -/
def Cmd.elt (c : Cmd) : Nat := 2 ^ c.f 3 15 14

/-- Bytes of a slot that FCONV may write (R334): the dense form, or the largest compressed one. -/
def Cmd.slotBytes (c : Cmd) : Nat := max (16 + 256 * c.elt) (min (c.f 2 31 16) (48 + 256 * c.elt))

/-- Bytes of an element of SRED (R337). -/
def Cmd.redBytes (c : Cmd) : Nat := if c.f 4 34 34 = 1 then 8 else 4

/-- Bytes of a table row of EMBAG (R340). -/
def Cmd.bagRow (c : Cmd) : Nat := (if c.f 5 33 32 = 3 then 2 else 4) * (c.f 5 9 0 + 1)

/-- Words of a result vector of EMBAG (R340). -/
def Cmd.bagWords (c : Cmd) : Nat := if c.f 5 35 34 = 3 then (c.f 5 9 0 + 2) / 2 else c.f 5 9 0 + 1

/-- The scratchpad address and words of row, tile or bag j (R332, R333, R340). -/
def Cmd.local_ (c : Cmd) (j : Nat) : Nat × Nat :=
  match c.kind with
  | .tcopy | .tgath | .tscat => (c.f 1 63 32 + j * c.f 2 20 0, c.width)
  | .fconv => (c.f 1 63 32 + 256 * c.elt * j, 64 * c.elt)
  | .embag => (c.f 3 31 0 + j * c.f 4 20 0, c.bagWords)
  | .sred => (0, 0)

/-- The keys of the scratchpad words of row, tile or bag j. -/
def Cmd.keys (c : Cmd) (j : Nat) : List Nat := (List.range (c.local_ j).2).map (fun k => wordKey c.core (c.local_ j).1 + k)

/-- The global address and bytes of row j of TCOPY, TGATH or TSCAT; none for a sentinel (R332). -/
def Cmd.globalRow (c : Cmd) (j : Nat) : Option Nat :=
  match c.kind with
  | .tcopy => some ((c.f 0 56 0 + j * c.f 2 63 32) % 2 ^ 64)
  | .tgath | .tscat =>
    if c.idx.getD j 0 = 0xFFFFFFFF then none else some ((c.f 0 56 0 + c.idx.getD j 0 * c.f 2 63 32) % 2 ^ 64)
  | .fconv | .sred | .embag => none

/-- The address of the row barrier that a command names. -/
def Cmd.barrier (c : Cmd) : Nat :=
  match c.kind with
  | .tcopy | .tgath | .tscat | .fconv => c.f 1 31 0
  | .embag => c.f 4 63 32
  | .sred => 0

/-- The fields that R321 step 4 checks for alignment first, with what each is a multiple of (R331, R333, R340). -/
def Cmd.aligned (c : Cmd) : List (Nat × Nat) :=
  match c.kind with
  | .tcopy | .tgath | .tscat =>
    [(c.f 0 56 0, 4), (c.f 2 63 32, 4), (c.f 1 63 32, 4), (c.f 2 20 0, 4), (c.f 3 63 32, 4), (c.f 1 31 0, 4)]
  | .fconv => [(c.f 0 56 0, 16), (c.f 1 63 32, 16), (c.f 1 31 0, 4), (c.f 2 63 32, 16)]
  | .sred => []
  | .embag =>
    [(c.f 0 56 0, 4), (c.f 1 63 32, 4), (c.f 2 63 32, 4), (c.f 2 31 0, 4), (c.f 3 63 32, 4), (c.f 3 31 0, 4), (c.f 4 63 32, 4), (c.f 4 20 0, 4)]

/-- Whether a reserved field of a block is nonzero (R4, R331, R333, R337, R340). -/
def Cmd.reserved (c : Cmd) : Bool :=
  match c.kind with
  | .tcopy | .tgath | .tscat => c.f 0 63 57 != 0 || c.f 2 31 21 != 0 || c.f 3 31 29 != 0 || c.f 3 15 14 != 0
  | .fconv => c.f 0 63 57 != 0 || c.f 2 15 0 != 0 || c.f 3 63 16 != 0 || c.f 3 13 12 != 0
  | .sred =>
    c.f 0 63 57 != 0 || c.f 0 6 0 != 0 || c.f 1 63 57 != 0 || c.f 1 2 0 != 0 || c.f 3 63 57 != 0 || c.f 3 2 0 != 0 || c.f 4 63 40 != 0 ||
    c.f 4 33 32 != 0 || c.f 6 63 0 != 0 || c.f 7 63 0 != 0
  | .embag =>
    c.f 0 63 57 != 0 || c.f 4 31 21 != 0 || c.f 5 63 52 != 0 || c.f 5 39 36 != 0 || c.f 5 31 17 != 0 || c.f 5 15 10 != 0 ||
    c.f 6 63 0 != 0 || c.f 7 63 0 != 0

/-- The global address of SRED's destination, its flag and its buffer list (R337). -/
def Cmd.dest (c : Cmd) : Nat := c.f 0 56 7 * 128
def Cmd.flagVa (c : Cmd) : Nat := c.f 1 56 3 * 8
def Cmd.listVa (c : Cmd) : Nat := c.f 3 56 3 * 8

/-- Whether a limit of a block is broken (R331, R333, R337, R340); what needs memory or indices is checked in its own step. -/
def Cmd.overLimit (c : Cmd) : Bool :=
  let remote (a : Nat) : Bool := bits a 31 31 == 1
  match c.kind with
  | .tcopy => c.f 3 63 32 != 0 || remote (c.f 1 63 32) || remote (c.f 1 31 0)
  | .tgath | .tscat => c.f 3 28 28 != 0 || remote (c.f 1 63 32) || remote (c.f 1 31 0) || remote (c.f 3 63 32)
  | .fconv =>
    c.f 3 15 14 == 3 || decide (c.f 2 63 32 < 16 + 256 * c.elt) || c.f 2 31 16 % 16 != 0 || decide (c.f 2 63 32 < c.f 2 31 16) ||
    remote (c.f 1 63 32) || remote (c.f 1 31 0)
  | .sred =>
    let n := c.f 4 31 0
    c.f 4 39 36 == 0 || n == 0 || decide (16777216 < n) ||
    (decide (c.dest / 128 ≤ c.flagVa / 128) && decide (c.flagVa / 128 ≤ (c.dest + n * c.redBytes - 1) / 128))
  | .embag =>
    (c.f 5 35 34 != 0 && c.f 5 35 34 != 3) || (c.f 5 33 32 != 0 && c.f 5 33 32 != 3) || decide (c.f 1 63 32 < c.bagRow) || c.f 1 31 0 == 0 ||
    (c.f 5 16 16 == 1 && c.f 2 31 0 != 0) || remote (c.f 2 63 32) || remote (c.f 2 31 0) || remote (c.f 3 63 32) ||
    remote (c.f 3 31 0) || remote (c.f 4 63 32)

/-- The trap of an engine's address that translation refuses (R394). -/
def xlatTrap (kind info va n acc : Nat) : Trap := if kind = 0x0A then { kind := 0x0A, i0 := dw info } else accTrap kind va n acc

/-- Translate an address for an engine (R330, R433, R434): a page of a core's private data is shared first, and a page in transit is
waited for. A peer module raises the address fault, a host window is reached while it is in use and connected (R330, R445). -/
def State.engXlat (s : State) (c : Cmd) (va acc : Nat) : State × Xlat :=
  if 2 ^ 57 ≤ va then (s, .fault 0x06 0)
  else if c.physical then (s, if isMemory va then .ok va false false else .fault 0x06 0)
  else
    match s.translate c.vi c.core c.level va acc .engine with
    | (s, .ok pa p d) => (s, if isMemory pa || (isHostPa pa && s.hostUp c.vi) then .ok pa p d else .fault 0x06 0)
    | r => r

/-- Read n bytes of global memory for an engine or a unit, which `own` gives for the module's memory; a host window answers at once with what the
other side holds (R445, log entry 131). -/
def State.unitBytes (s : State) (vi pa n : Nat) (own : Nat → Byte) : State × List Byte :=
  if isHostPa pa then
    let (x, s) := (s.sendHost vi 0 0 (pa - 2 ^ 46) (toBytes 1 n)).freeBits (8 * n)
    (s, toBytes n x)
  else (s, (List.range n).map (fun k => own (pa + k)))

/-- Write bytes of an engine or a unit: one to a host window is done once it is sent (R445, log entry 132). -/
def State.unitWrite (s : State) (vi pa : Nat) (bs : List Byte) : State :=
  if isHostPa pa then s.sendHost vi 0 1 (pa - 2 ^ 46) bs else s.storeBytes pa bs

/-- Read the bytes of some segments for a command. -/
def State.segBytes (s : State) (c : Cmd) (own : State → Nat → Byte) (gs : List Seg) : State × List Byte :=
  gs.foldl (fun (s, bs) g =>
    let (s, b) :=
      if g.dpage then (s.noteRead c.item g.pa g.n, (List.range g.n).map (fun k => s.dByte c.item (g.pa + k)))
      else s.unitBytes c.vi g.pa g.n (own s)
    (s, bs ++ b)) (s, ([] : List Byte))

/-- The kind that stands for no fault but for an access that is held: at a line that an engine command owns until the command's writes are
performed (R153, R436), or while its page is in transit (R434). -/
def heldKind : Nat := 0

/-- A unit whose access is held does nothing yet; a reclassification that the access has started goes on (R434). -/
def State.heldBy (s t : State) : State := { s with transit := t.transit }

/-- Translate for a unit of the part whose access is one step of the model, or tell that the access is held (R434). -/
def State.engNow (s : State) (c : Cmd) (va acc : Nat) : State × Except Nat (Nat × Bool) :=
  match s.engXlat c va acc with
  | (s, .ok pa _ d) => (s, .ok (pa, d))
  | (s, .fault k _) => (s, .error k)
  | (s, .wait _) => (s, .error heldKind)

/-- The parts of n bytes from an address that lie in one page of the smallest size. -/
def pageParts : Nat → Nat → Nat → Nat → List (Nat × Nat × Nat)
  | 0, _, _, _ => []
  | fuel + 1, off, va, n =>
    if n = 0 then []
    else
      let k := min n (0x10000 - va % 0x10000)
      (off, va, k) :: pageParts fuel (off + k) (va + k) (n - k)

/-- The parts of a run of bytes. -/
def partsOf (va n : Nat) : List (Nat × Nat × Nat) := pageParts (n / 0x10000 + 2) 0 va n

/-- What translating a run of bytes answers: its segments, the first fault with its word of INFO and its address, or the page waited for. -/
inductive Segs where
  | ok (gs : List Seg)
  | fault (kind info va : Nat)
  | wait (leaf : Nat)
  deriving DecidableEq, Repr

/-- Translate a run of bytes for a command. -/
def State.segsOf (s : State) (c : Cmd) (acc : Nat) : List (Nat × Nat × Nat) → State × Segs
  | [] => (s, .ok [])
  | (off, va, n) :: t =>
    match s.engXlat c va acc with
    | (s, .fault k i) => (s, .fault k i va)
    | (s, .wait leaf) => (s, .wait leaf)
    | (s, .ok pa _ d) =>
      match s.segsOf c acc t with
      | (s, .ok gs) => (s, .ok ({ off := off, pa := pa, n := n, dpage := d } :: gs))
      | r => r

/-- Translate a run of bytes for a unit whose access is one step: its segments, or the first fault with its address. -/
def State.segsNow (s : State) (c : Cmd) (acc : Nat) : List (Nat × Nat × Nat) → State × Except (Nat × Nat) (List Seg)
  | [] => (s, .ok [])
  | (off, va, n) :: t =>
    match s.engNow c va acc with
    | (s, .error k) => (s, .error (k, va))
    | (s, .ok (pa, d)) =>
      match s.segsNow c acc t with
      | (s, .ok gs) => (s, .ok ({ off := off, pa := pa, n := n, dpage := d } :: gs))
      | r => r

/-- The accesses of a lane that a command is ordered after (R152); EMBAG's posting is also a release fence at device scope
(R342). -/
def State.cmdBefore (s : State) (kind : EngKind) (wid lane : Nat) : List Nat :=
  match kind with
  | .embag => s.releaseSet wid lane 0
  | .tcopy | .tgath | .tscat | .fconv | .sred => (s.ops.filter (fun (_, o) => o.wid == wid && o.lane == lane)).map Prod.fst

/-- What one attempt to post a command answers. -/
inductive Posted where
  | trap (t : Trap)
  /-- The lane waits; whether R324 forbids the wait inside a pixel-ordered section. -/
  | wait (section_ : Bool)
  | ready (c : Cmd)
  deriving DecidableEq, Repr

/-- The engine-operand trap of a command's block (R394). -/
def operandTrap (c : Cmd) : Trap := { kind := 0x1B, i0 := dw c.blkAddr }

/-- Step 4 of R321. -/
def Cmd.checkBlock (c : Cmd) : Option Trap :=
  match c.aligned.find? (fun (a, n) => a % n != 0) with
  | some (a, _) => some (accTrap 0x05 a 4 0)
  | none =>
    if c.reserved then some { kind := 0x0A, i0 := dw c.blkAddr }
    else if c.overLimit then some (operandTrap c)
    else none

/-- The scratchpad bytes that a command names without an index, each with its access code (R321 step 5). -/
def Cmd.window (c : Cmd) : List (Nat × Nat) :=
  (List.range c.rows).map (fun j => ((c.local_ j).1, 4 * (c.local_ j).2))

/-- The bytes of the vector that step 6 of R321 reads. -/
def Cmd.vector (c : Cmd) : List (Nat × Nat) :=
  match c.kind with
  | .tgath | .tscat => [(c.f 3 63 32, 4 * c.rows)]
  | .embag => [(c.f 3 63 32, 4 * (c.rows + 1))]
  | .tcopy | .fconv | .sred => []

/-- Step 5 of R321: the row barrier, then every scratchpad byte named without an index: the trap, or none for a bank that is
switching (R128). -/
def State.checkWindow (s : State) (c : Cmd) : Option (Option Trap) :=
  if c.kind = .sred then none
  else
    match badRun (s.span c.vi c.core) 1 [(c.barrier, 4)] with
    | some x => some x
    | none =>
      if !(s.spadAt (wordKey c.core c.barrier)).full then some (some wordEmptyTrap)
      else
        match badRun (s.span c.vi c.core) (if c.toGlobal then 0 else 1) c.window with
        | some x => some x
        | none => badRun (s.span c.vi c.core) 0 c.vector

/-- The keys of the words that step 6 of R321 reads. -/
def Cmd.indexKeys (c : Cmd) : List Nat :=
  match c.kind with
  | .tgath | .tscat => (List.range c.rows).map (fun k => wordKey c.core (c.f 3 63 32) + k)
  | .embag => (List.range (c.rows + 1)).map (fun k => wordKey c.core (c.f 3 63 32) + k)
  | .tcopy | .fconv | .sred => []

/-- The index and weight words of an EMBAG (R340). -/
def Cmd.bagWindow (c : Cmd) : List (Nat × Nat) :=
  let lo := c.idx.getD 0 0
  let n := 4 * (c.idx.getD c.rows 0 - lo)
  (c.f 2 63 32 + 4 * lo, n) :: (if c.f 5 16 16 = 1 then [] else [(c.f 2 31 0 + 4 * lo, n)])

/-- Step 6 of R321 on the words read, for EMBAG: the bag boundaries rise and their total is within its limit, the table starts in no D page,
and the index and weight words lie in the window (R340): the trap, or none for a page or a bank that is waited for. -/
def State.checkIndex (s : State) (c : Cmd) : State × Option (Option Trap) :=
  match c.kind with
  | .embag =>
    if (List.range c.rows).any (fun b => decide (c.idx.getD (b + 1) 0 < c.idx.getD b 0)) ||
       decide (1048576 < c.idx.getD c.rows 0 - c.idx.getD 0 0) then (s, some (some (operandTrap c)))
    else
      match s.engXlat c (c.f 0 56 0) 0 with
      | (s, .ok _ _ true) => (s, some (some (operandTrap c)))
      | (s, .wait _) => (s, some none)
      | (s, _) => (s, badRun (s.span c.vi c.core) 0 c.bagWindow)
  | .tcopy | .tgath | .tscat | .fconv | .sred => (s, none)

/-- Whether a row of TSCAT goes beyond 2^57, which stops the command at that row and is no fault of the posting (R326). -/
def Cmd.rowFar (c : Cmd) (g : Nat) : Bool := c.kind == .tscat && decide (2 ^ 57 < g + 4 * c.width)

/-- The global destination runs of a command, row by row (R332, R334, R338). -/
def Cmd.destRuns (c : Cmd) : List (List (Nat × Nat × Nat)) :=
  match c.kind with
  | .tcopy | .tscat =>
    if c.toGlobal then
      (List.range c.rows).map (fun j => match c.globalRow j with | some g => if c.rowFar g then [] else partsOf g (4 * c.width) | none => [])
    else []
  | .fconv => (List.range c.rows).map (fun t => partsOf (c.f 0 56 0 + c.f 2 63 32 * t) c.slotBytes)
  | .sred => [partsOf c.dest (c.rows * c.redBytes)]
  | .tgath | .embag => []

/-- The trap of a segment that an engine may not write: a D page in a fragment or resolve wave (R355), or a counter line (R282). -/
def State.segTrap (s : State) (frag : Bool) (va : Nat) (g : Seg) : Option Trap :=
  if g.dpage && frag then some (accTrap 0x10 va 4 1)
  else ((linesOf g.pa g.n).find? s.counterLine).map (fun l => { kind := 0x11, i0 := dw (lineOf (va + (l - lineOf g.pa))) })

/-- Step 7 of R321 over rows: their segments, the trap of the first that fails, or none for a page that is waited for (R434). -/
def State.ownRows (s : State) (c : Cmd) (frag : Bool) : List (List (Nat × Nat × Nat)) → State × Except (Option Trap) (List (List Seg))
  | [] => (s, .ok [])
  | r :: t =>
    match s.segsOf c 1 r with
    | (s, .fault k i va) => (s, .error (some (xlatTrap k i va 4 1)))
    | (s, .wait _) => (s, .error none)
    | (s, .ok gs) =>
      match (gs.zip r).findSome? (fun (g, _, va, _) => s.segTrap frag va g) with
      | some e => (s, .error (some e))
      | none =>
        match s.ownRows c frag t with
        | (s, .ok rs) => (s, .ok (gs :: rs))
        | x => x

/-- Check eight bytes for a store that an SRED makes without ownership (R282, R337). -/
def State.checkPlain (s : State) (c : Cmd) (frag : Bool) (va : Nat) : State × Option (Option Trap) :=
  match s.engXlat c va 1 with
  | (s, .fault k i) => (s, some (some (xlatTrap k i va 8 1)))
  | (s, .wait _) => (s, some none)
  | (s, .ok pa _ d) => (s, (s.segTrap frag va { off := 0, pa := pa, n := 8, dpage := d }).map some)

/-- The lines that SRED's flag and STATUS need for a store (R337). -/
def State.checkFlag (s : State) (c : Cmd) (frag : Bool) : State × Option (Option Trap) :=
  match s.checkPlain c frag c.flagVa with
  | (s, none) => s.checkPlain c frag (c.blkAddr + 0x28)
  | r => r

/-- Recall every cached copy of the lines a command owns (R152). -/
def State.recallOwned (s : State) (c : Cmd) : State :=
  let mine := s.ops.filter (fun (_, t) => t.isStore && t.place == .line && decide (2 ≤ t.vis) && decide (t.vis < 4) && c.owns (lineOf t.pa))
  let sorted := (mine.filter (fun x => x.2.vis == 3)).foldr insertStamp [] ++ (mine.filter (fun x => x.2.vis == 2)).foldr insertStamp []
  sorted.foldl (fun s (id, _) =>
    match look s.ops id with
    | some o => s.performStore id o
    | none => s) s

/-- A check of a posting that did not pass: its trap, or a wait that R324 allows. -/
def postedOf (s : State) (x : Option Trap) : State × Posted :=
  match x with
  | some t => (s, .trap t)
  | none => (s, .wait false)

/-- Step 7 of R321. -/
def State.postOwned (s : State) (c : Cmd) (frag : Bool) : State × Posted :=
  match s.ownRows c frag c.destRuns with
  | (s, .error x) => postedOf s x
  | (s, .ok rs) =>
    let c := { c with segs := rs }
    if c.kind = .sred then
      match s.checkFlag c frag with
      | (s, some x) => postedOf s x
      | (s, none) => (s, .ready c)
    else (s, .ready { c with row := some (wordKey c.core c.barrier) })

/-- Steps 4 to 7 of R321, once the block is read. -/
def State.postBlock (s : State) (c : Cmd) (frag : Bool) : State × Posted :=
  match c.checkBlock with
  | some t => (s, .trap t)
  | none =>
    match s.checkWindow c with
    | some x => postedOf s x
    | none =>
      let ks := c.indexKeys
      if !s.wordsFull ks then (s, .wait true)
      else
        let c := if ks.isEmpty then c else { c with idx := ks.map (fun k => (s.spadAt k).val.toNat) }
        match s.checkIndex c with
        | (s, some x) => postedOf s x
        | (s, none) => s.postOwned c frag

/-- SRED's buffer list as read at posting (R337): the addresses, the trap, or none while the list is waited for (R153, R434). -/
def State.readList (s : State) (c : Cmd) : State × Except (Option Trap) (List Nat) :=
  let n := c.f 4 39 36 + 1
  match s.segsOf c 0 (partsOf c.listVa (8 * n)) with
  | (s, .fault k i va) => (s, .error (some (xlatTrap k i va 8 0)))
  | (s, .wait _) => (s, .error none)
  | (s, .ok gs) =>
    if gs.any (fun g => s.lineOwned g.pa g.n) then (s, .error none)
    else if gs.any (fun g => s.poisoned g.pa g.n) then (s, .error (some { accTrap 0x06 c.listVa 8 0 with i2 := 2 }))
    else
      let (s, bytes) := s.segBytes c State.byteAt gs
      let xs := (List.range n).map (fun k => ofBytes ((bytes.drop (8 * k)).take 8))
      if xs.any (fun x => x % c.redBytes != 0) then (s, .error (some (operandTrap c))) else (s, .ok xs)

/-- Whether a lane has an access that a posting's reads still have to observe (R152): one at a bank, or for SRED one beyond the banks that
writes. -/
def State.postingWaits (s : State) (p : Posting) : Bool :=
  s.ops.any (fun (_, o) => o.wid == p.wid && o.lane == p.lane &&
    (match o.place with
     | .bank => !o.done
     | .line | .dpage => p.kind == .sred && o.writes && !o.done && !(o.isStore && o.vis == 4)
     | .peer _ | .host => false))

/-- Steps 2 to 7 of R321 for SRED, whose block lies in global memory (R337). A block or list in a poisoned line is the address fault of the
posting lane, as for a lane's load (R462, log entry 122). -/
def State.postGlobal (s : State) (p : Posting) (c : Cmd) (frag : Bool) : State × Posted :=
  match s.engXlat c p.va 0 with
  | (s, .fault k i) => (s, .trap (xlatTrap k i p.va 64 0))
  | (s, .wait _) => (s, .wait false)
  | (s, .ok pa _ d) =>
    if s.postingWaits p ∨ s.lineOwned pa 64 = true then (s, .wait false)
    else if s.poisoned pa 64 then (s, .trap { accTrap 0x06 p.va 64 0 with i2 := 2 })
    else
      let (s, bs) := s.unitBytes c.vi pa 64 s.byteAt
      let c := { c with blk := (List.range 8).map (fun k => ofBytes ((bs.drop (8 * k)).take 8)), slice := homeSlice pa, statusPa := pa + 0x28 }
      match c.checkBlock with
      | some t => (s, .trap t)
      | none =>
        if d then (s, .trap (operandTrap c))
        else
          match s.readList c with
          | (s, .error x) => postedOf s x
          | (s, .ok xs) => s.postBlock { c with idx := xs } frag

/-- Steps 2 to 7 of R321 for the commands whose block lies in the scratchpad. -/
def State.postLocal (s : State) (p : Posting) (c : Cmd) (frag : Bool) : State × Posted :=
  let n := blockBytes p.kind
  match badRun (s.span c.vi c.core) 0 [(p.va, n)] with
  | some x => postedOf s x
  | none =>
    let ks := wordKeys c.core p.va n
    if s.postingWaits p then (s, .wait false)
    else if !s.wordsFull ks then (s, if p.trapPol then .trap wordEmptyTrap else .wait true)
    else s.postBlock { c with blk := (List.range (n / 8)).map (fun k => s.wordsNum ((ks.drop (2 * k)).take 2)) } frag

/-- A command that a lane is about to post. -/
def State.newCmd (s : State) (p : Posting) (w : Wave) : Cmd :=
  let l := w.lane p.lane
  { kind := p.kind, vi := w.vi, wid := p.wid, lane := p.lane, core := w.core, item := l.item, level := l.level, slot := w.slot, pc := l.pc,
    key := l.keyIn w, physical := w.kind == .boot, blkAddr := p.va, group := p.group, before := s.cmdBefore p.kind p.wid p.lane }

/-- Steps 1 to 7 of R321 for one lane. -/
def State.tryPost (s : State) (p : Posting) (w : Wave) : State × Posted :=
  let n := blockBytes p.kind
  let frag := w.kind == .fragment || w.kind == .resolve
  if p.va % n ≠ 0 then (s, .trap (accTrap 0x05 p.va n 0))
  else if p.kind = .sred then s.postGlobal p (s.newCmd p w) frag
  else s.postLocal p (s.newCmd p w) frag

/-- The commands that an engine's queue holds at once, and how many it performs at once (R322). -/
def queueCap : EngKind → Nat × Nat
  | .tcopy | .tgath | .tscat => (32, 4)
  | .fconv => (8, 1)
  | .embag => (4, 1)
  | .sred => (8, 1)

/-- Whether two commands share an engine (R322). -/
def Cmd.sameEngine (a b : Cmd) : Bool :=
  match a.kind with
  | .tcopy | .tgath | .tscat => (b.kind == .tcopy || b.kind == .tgath || b.kind == .tscat) && a.core == b.core
  | .fconv | .embag => a.kind == b.kind && a.core == b.core
  | .sred => b.kind == .sred && a.slice == b.slice

/-- Step 9 of R321 for a command that waits for room: it enters its queue with its promise time, and its lane goes on (R323).
A command that is being performed keeps its place in the queue (DESIGN CHOICE, log entry 152). -/
def State.enqueue (s : State) (id : Nat) (c : Cmd) : State :=
  let n := (s.cmds.filter (fun (_, x) => x.queued && c.sameEngine x)).length
  if (queueCap c.kind).1 ≤ n then s
  else
    let (order, s) := s.fresh
    let promise := if c.kind = .sred then 0 else s.gt + Config.promise s.ctr
    let s : State := { s with
      ctr := s.ctr + 1
      cmds := put s.cmds id { c with queued := true, order := order, promise := promise, due := 0 }
      promises := modKey s.promises c.group (fun p =>
        { p with left := p.left.filter (fun k => k != c.lane), best := if c.kind = .sred then p.best else some (max promise (p.best.getD 0)) }) }
    (s.leave c.wid c.lane).settlePromises

/-- Steps 7 and 8 of R321: the lines are owned and recalled, the scratchpad destination words are marked empty, and the command waits
for room. For the lane, posting EMBAG is a release fence at device scope (R342). -/
def State.takeCommand (s : State) (c : Cmd) : State :=
  let (id, s) := s.fresh
  let c := { c with due := s.deadline c.vi }
  let s : State := { s with cmds := put s.cmds id c, postings := s.postings.filter (fun (_, p) => !(p.wid == c.wid && p.lane == c.lane)) }
  let s := s.recallOwned c
  let s := if c.kind = .embag then s.addFence c.wid c.lane .rel 4 c.before else s
  let s := if c.toGlobal || c.kind == .sred then s else (List.range c.rows).foldl (fun s j => s.emptyWords c.wid (c.keys j)) s
  (s.modLane c.wid c.lane (fun l => { l with wait := .posting c.due })).enqueue id c

/-- Whether a lower lane of a posting's issue has not posted yet: the commands of one issue are posted by rising lane (R321). -/
def State.postsLater (s : State) (p : Posting) : Bool :=
  s.postings.any (fun (_, q) => q.group == p.group && decide (q.lane < p.lane)) ||
  s.cmds.any (fun (_, c) => !c.queued && c.group == p.group && decide (c.lane < p.lane))

/-- One attempt of a lane held in a posting: the trap it takes, if any (R321, R324). -/
def State.attempt (s : State) (p : Posting) : State × Option Trap :=
  match s.wave? p.wid with
  | none => (s, none)
  | some w =>
    let l := w.lane p.lane
    if s.postsLater p then (s, if l.inside then some (orderedTrap l p.opc 4 0) else none)
    else match s.tryPost p w with
    | (s, .trap t) => (s, some t)
    | (s, .wait sec) => (s, if sec && l.inside then some (orderedTrap l p.opc 4 0) else none)
    | (s, .ready c) =>
      let s := s.takeCommand c
      (s, if l.inside && s.cmds.any (fun (_, x) => !x.queued && x.wid == p.wid && x.lane == p.lane) then some (orderedTrap l p.opc 4 0) else none)

/-- Try the postings of a core's lanes again (R321). -/
def State.retryPostings (s : State) (core : Nat) : State :=
  let s := s.cmds.foldl (fun s (id, _) =>
    match look s.cmds id with
    | some c => if c.core == core && !c.queued then s.enqueue id c else s
    | none => s) s
  s.postings.foldl (fun s (id, _) =>
    match look s.postings id with
    | none => s
    | some p =>
      if (s.waveAt p.wid).core ≠ core then s
      else
        match s.attempt p with
        | (s, none) => s
        | (s, some t) => s.raiseTraps p.wid (s.laneAt p.wid p.lane).pc [(p.lane, t)]) s

/-- The engine of an instruction. -/
def engKind (i : Instr) : EngKind :=
  match ext i with
  | .tcopy _ => .tcopy
  | .tgath _ => .tgath
  | .tscat _ => .tscat
  | .fconv _ => .fconv
  | .sred _ => .sred
  | _ => .embag

/-- The lanes of a posting are held and its wave register is empty until the promise of the last command stands in it (R321, R323). -/
def State.openGroup (s : State) (i : Instr) (c : Issue) (w : Wave) (run : List Nat) : State :=
  let (group, s) := s.fresh
  let dst := if engKind i = .sred then none else some (wKey (w.lane (run.headD 0)).level (fieldsOf i).dst.toNat)
  let s : State := { s with promises := put s.promises group { wid := c.wid, dst := dst, team := run, left := run } }
  let s := match dst with
    | some r => s.modWave c.wid (fun w => { w with we := put w.we r group })
    | none => s
  run.foldl (fun s k => s.waitLane c.wid (wordsOf i) k (.posting 0)) s

/-- What one lane posts (R320). -/
def postingOf (i : Instr) (c : Issue) (w : Wave) (group k : Nat) : Posting :=
  let va := if engKind i = .sred then globalAddr i w (w.lane k) else spadAddress i w (w.lane k)
  { wid := c.wid, lane := k, kind := engKind i, opc := (descOf i).opc, va := va, trapPol := (fieldsOf i).epb, group := group }

/-- A posting waits for its turn. -/
def State.withPosting (s : State) (p : Posting) : State := { s with nid := s.nid + 1, postings := put s.postings s.nid p }

/-- One lane of a posting. -/
def postLane (i : Instr) (c : Issue) (w : Wave) (group : Nat) (d : Done) (k : Nat) : Done :=
  let p := postingOf i c w group k
  match (d.s.withPosting p).attempt p with
  | (s, none) => { d with s := s, stay := k :: d.stay }
  | (s, some t) => { d with s := s, traps := d.traps ++ [(k, t)] }

/-- Post a command for each active lane, in ascending order (R321): every lane is held until its command is enqueued. -/
def postEff (i : Instr) : Eff := fun s c w run => run.foldl (postLane i c w s.nid) ⟨s.openGroup i c w run, [], []⟩

/-- `postEff` in the common course of an issue (R178). -/
def postOp (i : Instr) (s : State) : Out := runLanes i s (postEff i)

/-- TCOPY (R321, R331). -/
def execTcopy (x : Fields) (s : State) : Out := postOp (.tcopy x) s

/-- TGATH (R321, R331). -/
def execTgath (x : Fields) (s : State) : Out := postOp (.tgath x) s

/-- TSCAT (R321, R331). -/
def execTscat (x : Fields) (s : State) : Out := postOp (.tscat x) s

/-- FCONV (R321, R333). -/
def execFconv (x : Fields) (s : State) : Out := postOp (.fconv x) s

/-- SRED (R321, R337). -/
def execSred (x : Fields) (s : State) : Out := postOp (.sred x) s

/-- EMBAG (R321, R340). -/
def execEmbag (x : Fields) (s : State) : Out := postOp (.embag x) s

/-- ENGINE_QUEUE_TIMEOUT (R322): a lane that waits at step 9 takes the engine-queue time-out trap; its command was not started. -/
def execEngineQueueTimeout (s : State) : Out :=
  let wid := s.occ.wid
  let lane := s.occ.lane
  match s.cmds.find? (fun (_, c) => !c.queued && c.wid == wid && c.lane == lane) with
  | none => .next s
  | some (_, c) =>
    if s.expired c.due then .next (s.takeTrap wid [lane] (s.laneAt wid lane).pc { kind := 0x1C, i0 := dw c.blkAddr }).settleOps
    else .next s

end Sys2Proof.Machine
end

