-- ==== Sys2Proof/Machine/EngineRun.lean ====
section
/-!
DEFINITION. The engines at work (R132, R325 to R342): TILE_COPY_ROW, FCONV_TILE, SRED_ELEMENT, EMBAG_BAG, faults after posting, and
late delivery.
-/
namespace Sys2Proof.Machine

/-- The code of a command kind (R327). -/
def engCode : EngKind → Nat
  | .tcopy => 0 | .tgath => 1 | .tscat => 2 | .fconv => 3 | .sred => 4 | .embag => 5

/-- The INFO of a late-delivery or engine-fault trap (R327). -/
def Cmd.info (c : Cmd) (kind cause faddr : Nat) : Trap :=
  { kind := kind, i0 := dw (engCode c.kind * 2 ^ 60 + cause * 2 ^ 56 + c.done), i1 := dw c.promise, i2 := dw c.blkAddr, i3 := dw faddr }

/-- Deliver a trap of the command with this identity to its posting lane, or write its record when the lane has ended (R327). -/
def State.engineTrap (s : State) (id : Nat) (c : Cmd) (t : Trap) : State :=
  if s.liveLane c.wid c.lane && !c.retired then s.modLaneAny c.wid c.lane (fun l => { l with due := l.due ++ [{ t with src := id, due := s.deadline c.vi }] })
  else
    s.postLaneless
      { vi := c.vi, lanes := [c.lane], word0 := dw (recordWord0 t.kind 1 0 0 c.level.toNat c.slot c.core), pc := c.pc, key := c.key, info := t,
        due := s.deadline c.vi, item := c.item, slot := c.slot }

/-- The cause of an engine fault by the fault's kind and the cause in its INFO (R327, R462). -/
def causeOf (kind info : Nat) : Nat :=
  match kind with
  | 0x09 => 2
  | 0x06 => if info = 2 then 5 else 3
  | _ => 1

/-- A command meets a fault and stops (R326): only the engine-fault trap is raised, and what it owned is
released. One that its wave's retirement stops raises none (R329). -/
def State.engineFault (s : State) (id : Nat) (c : Cmd) (cause faddr : Nat) : State :=
  let s := { s with cmds := del s.cmds id }
  if c.ending then s.settleOps
  else
  let s := s.modLaneAny c.wid c.lane (fun l =>
    { l with due := l.due.filter (fun t => !(t.kind == 0x1D && t.src == id)) })
  (s.engineTrap id c (c.info 0x1E cause faddr)).settleOps

/-- Whether a command is among those its engine performs now (R322), and what it is ordered after is done (R152). -/
def State.running (s : State) (c : Cmd) : Bool :=
  c.queued &&
  decide ((s.cmds.filter (fun (_, x) => x.queued && c.sameEngine x && decide (x.order < c.order))).length < (queueCap c.kind).2) &&
  c.before.all (fun j =>
    match look s.ops j with
    | some a => a.visAt 4 && (a.done || !a.reads)
    | none => true)

/-- Whether an earlier command owns a byte of a run (R153, R330). A later one's ownership does not hold it: a unit that another agent writes
concurrently yields either value (R153, log entry 32). -/
def State.ownedEarlier (s : State) (id pa n : Nat) : Bool :=
  s.cmds.any (fun (j, c) => decide (j < id) && (linesOf pa n).any (fun l => c.owns l))

/-- Whether the writes of segments may be performed: no earlier command owns their lines (R330), and a D line has room for a version
(R136). -/
def State.segsReady (s : State) (id : Nat) (c : Cmd) (gs : List Seg) : Bool :=
  gs.all (fun g => !s.ownedEarlier id g.pa g.n && (!g.dpage || (linesOf g.pa g.n).all (fun l => s.versionRoom c.item l)))

/-- Write bytes through segments at the home slices (R143, R330). -/
def State.writeSegs (s : State) (c : Cmd) (gs : List Seg) (bs : List Byte) : State :=
  gs.foldl (fun s g =>
    let part := (bs.drop g.off).take g.n
    if g.dpage then s.dWrite c.item g.pa part
    else (s.unitWrite c.vi g.pa part).forget { act := .store, pa := g.pa, size := part.length }) s

/-- The segment of n bytes at an offset of row j of a command. -/
def Cmd.segAt (c : Cmd) (j off n : Nat) : List Seg :=
  ((c.segs.getD j []).filter (fun g => decide (g.off ≤ off) && decide (off < g.off + g.n))).map
    (fun g => { g with off := 0, pa := g.pa + (off - g.off), n := n })

/-- What reading one 32-bit word of global memory answers: its value, a stop with its cause and address, a wait, or a wait before which a page
had to be put in transit. -/
inductive EngRead where
  | got (x : Nat)
  | stop (cause faddr : Nat)
  | wait
  | moved
  deriving DecidableEq, Repr

/-- Read n bytes of one word for a command (R137, R152, R330, R434, R462). -/
def State.engRead (s : State) (id : Nat) (c : Cmd) (va n : Nat) : State × EngRead :=
  match s.engXlat c va 0 with
  | (t, .wait leaf) => (t, if has s.transit leaf then .wait else .moved)
  | (t, .fault k i) => (t, .stop (causeOf k i) va)
  | (t, .ok pa _ d) =>
    if t.ownedEarlier id pa n then (t, .wait)
    else if t.poisoned pa n then (t, .stop 5 va)
    else if d then (t.noteRead c.item pa n, .got (t.dNum c.item pa n))
    else
      let (t, bs) := t.unitBytes c.vi pa n t.byteAt
      (t, .got (ofBytes bs))

/-- Add one to a row barrier for each counted row, keeping its full/empty bit (R132). -/
def State.bumpRow (s : State) (c : Cmd) (n : Nat) : State :=
  match c.row with
  | some k => s.setSpad k { s.spadAt k with val := (s.spadAt k).val + BitVec.ofNat 32 n }
  | none => s

/-- The rows that can be counted from a place on: those landed without a gap (R132). -/
def countRows (landed : List Nat) : Nat → Nat → Nat
  | 0, n => n
  | fuel + 1, n => if landed.contains n then countRows landed fuel (n + 1) else n

/-- A row has landed: the rows that are now complete in order are counted, and a complete command ends, as does one whose wave has retired
(R132, R323, R329). -/
def State.landRow (s : State) (id : Nat) (c : Cmd) (j : Nat) : State :=
  let landed := j :: c.landed
  let done := countRows landed (landed.length + 1) c.done
  let s := s.bumpRow c (done - c.done)
  let c := { c with landed := landed.filter (fun k => decide (done ≤ k)), done := done, at_ := del c.at_ j, acc := [] }
  ({ s with cmds := if c.rows ≤ done ∨ (c.ending = true ∧ c.midRow = false) then del s.cmds id else put s.cmds id c }).settleBanks

/-- How many accesses row j of a command has had. -/
def Cmd.at? (c : Cmd) (j : Nat) : Nat := lookD c.at_ j 0

/-- Row j of a command has had one more of n accesses: it goes on, or has landed. -/
def State.stepRow (s : State) (id : Nat) (c : Cmd) (j n : Nat) : State :=
  if n ≤ c.at? j + 1 then s.landRow id c j
  else ({ s with cmds := put s.cmds id { c with at_ := put c.at_ j (c.at? j + 1) } } : State).settleBanks

/-- A command has read one more word for the row under way. -/
def State.keepWord (s : State) (id : Nat) (c : Cmd) (x : Nat) : State :=
  { s with cmds := put s.cmds id { c with at_ := put c.at_ c.done (c.at? c.done + 1), acc := c.acc ++ [x] } }

/-- The key of scratchpad word k of row, tile or bag j. -/
def Cmd.wordAt (c : Cmd) (j k : Nat) : Nat := wordKey c.core (c.local_ j).1 + k

/-- A word of a scratchpad row lands: it is written and marked full, whatever its state (R330). -/
def State.landWord (s : State) (c : Cmd) (key x : Nat) : State := s.fillWords c.wid [key] x

/-- Whether a command may touch a scratchpad word now, and the row barrier that counts for it: it waits while a bank switches; a word that is no
longer valid under the new mode is a fault after posting, which stops the command (R128, R326, log entry 141). -/
def State.wordSpan (s : State) (c : Cmd) (a : Nat) : EngRead :=
  let one (a : Nat) : Option EngRead :=
    match s.span c.vi c.core a 4 with
    | .ok => none
    | .wait => some .wait
    | .fault => some (.stop 3 a)
  match (if c.row.isSome then one c.barrier else none) with
  | some x => x
  | none => (one a).getD (.got 0)

/-- What a command's step comes to where its next scratchpad word may be touched, and where not. -/
def State.atWord (s : State) (id : Nat) (c : Cmd) (a : Nat) (next : Option State) : Option State :=
  match s.wordSpan c a with
  | .got _ => next
  | .stop cause a => some (s.engineFault id c cause a)
  | .wait | .moved => none

/-- The scratchpad address of word k of row, tile or bag j. -/
def Cmd.wordVa (c : Cmd) (j k : Nat) : Nat := (c.local_ j).1 + 4 * k

/-- The next word of row j of a copy from the scratchpad or of a scatter (R326, R332): each word is read when it is full, and the words are
written in ascending address. -/
def State.copyOut (s : State) (id : Nat) (c : Cmd) (j : Nat) : Option State :=
  if j ≠ c.done then none
  else
    match c.globalRow j with
    | none => some (s.landRow id c j)
    | some g =>
      let k := c.at? j
      let gs := c.segAt j (4 * k) 4
      if c.rowFar g then some (s.engineFault id c 3 (max g (2 ^ 57)))
      else
        s.atWord id c (c.wordVa j k)
          (if s.wordsFull [c.wordAt j k] = false ∨ s.segsReady id c gs = false then none
           else some ((s.writeSegs c gs (toBytes 4 (s.spadAt (c.wordAt j k)).val.toNat)).stepRow id c j c.width))

/-- The next word of row j of a copy to the scratchpad or of a gather (R326, R332); it stops at the first row that is not counted. -/
def State.copyIn (s : State) (id : Nat) (c : Cmd) (j : Nat) : Option State :=
  let k := c.at? j
  match c.globalRow j with
  | none => s.atWord id c (c.wordVa j k) (some ((s.landWord c (c.wordAt j k) 0).stepRow id c j c.width))
  | some g =>
    match s.engRead id c ((g + 4 * k) % 2 ^ 64) 4 with
    | (s, .got x) => s.atWord id c (c.wordVa j k) (some ((s.landWord c (c.wordAt j k) x).stepRow id c j c.width))
    | (s, .moved) => some s
    | (_, .wait) => none
    | (s, .stop cause a) => if j = c.done then some (s.engineFault id c cause a) else none

/-- The next word of row j of a copy, gather or scatter (R332): none when it cannot be moved now. -/
def State.copyRow (s : State) (id : Nat) (c : Cmd) (j : Nat) : Option State :=
  if decide (c.rows ≤ j) || decide (j < c.done) || c.landed.contains j || (c.ending && c.at? j == 0) then none
  else if c.toGlobal then s.copyOut id c j
  else s.copyIn id c j

/-- Whether a command is a copy, a gather or a scatter. -/
def EngKind.copies : EngKind → Bool
  | .tcopy | .tgath | .tscat => true
  | .fconv | .sred | .embag => false

/-- TILE_COPY_ROW (R137, R326, R330, R332): a word of a row of TCOPY, TGATH or TSCAT moves, the last one lands the row, or the command stops
at it. -/
def execTileCopyRow (s : State) : Out :=
  match look s.cmds s.occ.id with
  | none => .next s
  | some c => if c.kind.copies && s.running c then .next ((s.copyRow s.occ.id c s.occ.n).getD s) else .next s

/-- The elements of a dense tile (R333). -/
def tileElts (es : Nat) (bs : List Byte) : List Nat := (List.range 256).map (fun e => ofBytes ((bs.drop (es * e)).take es))

/-- The bitmap of the nonzero elements (R334). -/
def bitmapOf (xs : List Nat) : Nat :=
  (xs.zip (List.range 256)).foldl (fun n (x, e) => if x = 0 then n else n + 2 ^ e) 0

/-- The bytes of a slot as the engine leaves them, header first (R334, R335). -/
def tileBytes (esz budget : Nat) (xs : List Nat) : List Byte :=
  let es := 2 ^ esz
  let nz := xs.filter (fun x => x != 0)
  let n := nz.length
  let vals := (n * es + 15) / 16 * 16
  let size := 48 + vals
  if size ≤ budget then
    toBytes 4 (2 ^ 31 + esz * 2 ^ 28 + n) ++ toBytes 4 (48 * 2 ^ 16 + 16) ++ toBytes 4 size ++ toBytes 4 0 ++ toBytes 32 (bitmapOf xs) ++
      nz.flatMap (fun x => toBytes es x) ++ toBytes (vals - n * es) 0
  else
    toBytes 4 (2 ^ 31 + 2 ^ 30 + esz * 2 ^ 28 + n) ++ toBytes 4 (16 * 2 ^ 16) ++ toBytes 4 (16 + 256 * es) ++ toBytes 4 0 ++
      xs.flatMap (fun x => toBytes es x)

/-- The words of a slot in the order in which they are written, each with its offset (R334): header word 0 as zero, the body, header words 1
to 3, and header word 0. -/
def tileWrites (bs : List Byte) : List (Nat × Nat) :=
  let at_ (k : Nat) : Nat × Nat := (4 * k, ofBytes ((bs.drop (4 * k)).take 4))
  (0, 0) :: (List.range (bs.length / 4 - 4)).map (fun k => at_ (k + 4)) ++ [at_ 1, at_ 2, at_ 3, at_ 0]

/-- The slot that a command makes of the words it read of a dense tile. -/
def Cmd.slot? (c : Cmd) : List (Nat × Nat) := tileWrites (tileBytes (c.f 3 15 14) (c.f 2 31 16) (tileElts c.elt (c.acc.flatMap (toBytes 4))))

/-- The next access of a conversion: a word of the dense tile is read when it is full, or a word of the slot is written, each write after the
one before it is performed (R334). -/
def State.convStep (s : State) (id : Nat) (c : Cmd) : Option State :=
  let k := c.at? c.done
  let n := 64 * c.elt
  if k < n then
    s.atWord id c (c.wordVa c.done k)
      (if s.wordsFull [c.wordAt c.done k] then some (s.keepWord id c (s.spadAt (c.wordAt c.done k)).val.toNat) else none)
  else
    match c.slot?[k - n]? with
    | none => none
    | some (off, x) =>
      let gs := c.segAt c.done off 4
      if s.segsReady id c gs then some ((s.writeSegs c gs (toBytes 4 x)).stepRow id c c.done (n + c.slot?.length)) else none

/-- FCONV_TILE (R334 to R336): the next access of the tile that is converted; its last write sets VALID, and the tile is counted. -/
def execFconvTile (s : State) : Out :=
  match look s.cmds s.occ.id with
  | none => .next s
  | some c => if c.kind == .fconv && s.running c then .next ((s.convStep s.occ.id c).getD s) else .next s

/-- One addition of pairwise in a format of SRED (R338): FMT 0 .F32, 1 .F64, 2 .S32, 3 .S64. -/
def redAdd (fmt a b : Nat) : Nat × BitVec 7 :=
  match fmt with
  | 0 => fAdd fp32 .rne a b
  | 1 => fAdd fp64 .rne a b
  | 2 => ((a + b) % 2 ^ 32, 0)
  | _ => ((a + b) % 2 ^ 64, 0)

/-- One round of pairwise (R338). -/
def pairRound (fmt : Nat) : List Nat → List Nat × BitVec 7
  | a :: b :: t =>
    let (r, f) := redAdd fmt a b
    let (rs, fs) := pairRound fmt t
    (r :: rs, f ||| fs)
  | xs => (xs, 0)

/-- pairwise (R338), over at most as many rounds as there are elements. -/
def pairFuel (fmt : Nat) : Nat → List Nat → List Nat × BitVec 7
  | 0, xs => (xs, 0)
  | n + 1, xs =>
    if xs.length ≤ 1 then (xs, 0)
    else
      let (ys, f) := pairRound fmt xs
      let (zs, g) := pairFuel fmt n ys
      (zs, f ||| g)

/-- pairwise of a list (R338), +0 for an empty one (R341). -/
def pairwise (fmt : Nat) (xs : List Nat) : Nat × BitVec 7 :=
  let (ys, f) := pairFuel fmt xs.length xs
  (ys.headD 0, f)

/-- Whether an element lies where a buffer overlaps the destination at another offset, so that its value is undefined (R338). -/
def Cmd.redTorn (c : Cmd) (e : Nat) : Bool :=
  let n := c.rows * c.redBytes
  let at_ := c.dest + e * c.redBytes
  c.idx.any (fun b => b != c.dest && decide (b < c.dest + n) && decide (c.dest < b + n) &&
    ((decide (b < at_ + c.redBytes) && decide (at_ < b + n)) ||
     (decide (c.dest < b + (e + 1) * c.redBytes) && decide (b + e * c.redBytes < c.dest + n))))

/-- STATUS (R337): FAULT, the flags of the additions, and PROG. -/
def Cmd.status (c : Cmd) (fault : Bool) (prog : Nat) : Nat :=
  bCode fault * 2 ^ 63 + bCode (c.flags.getLsbD 4) * 2 ^ 35 + bCode (c.flags.getLsbD 2) * 2 ^ 34 + bCode (c.flags.getLsbD 1) * 2 ^ 33 +
    bCode (c.flags.getLsbD 0) * 2 ^ 32 + prog

/-- One 32-bit word that an SRED stores for its end, when no earlier command owns it (R330, R338). -/
def State.endWord (s : State) (id : Nat) (c : Cmd) (g : Seg) (x : Nat) : Option State :=
  if s.segsReady id c [g] then some (s.writeSegs c [g] (toBytes 4 x)) else none

/-- SRED goes on in another phase of its end. -/
def State.redPhase (s : State) (id : Nat) (c : Cmd) (n : Nat) : State := { s with cmds := put s.cmds id { c with phase := n } }

/-- STATUS as the end of an SRED writes it, in two words, and what follows: the trap of a fault, or the flag (R338, R339). -/
def State.statusStep (s : State) (id : Nat) (c : Cmd) : Option State :=
  let k := c.phase - 1
  let x := bits (c.status c.stopped.isSome c.done) (32 * k + 31) (32 * k)
  (s.endWord id c { off := 0, pa := c.statusPa + 4 * k, n := 4 } x).map (fun s =>
    if k = 0 then s.redPhase id c 2
    else
      match c.stopped with
      | some (cause, a) => s.engineFault id c cause a
      | none => s.redPhase id c 3)

/-- The flag as the end of an SRED stores it, in two words; its translation may have changed since posting, which is a fault after the fact:
STATUS is written again (R338, R339). -/
def State.flagStep (s : State) (id : Nat) (c : Cmd) : Option State :=
  let x := c.blk.getD 2 0
  match c.flagAt with
  | some g =>
    (s.endWord id c { g with pa := g.pa + 4 } (x / 2 ^ 32 % 2 ^ 32)).map (fun s => ({ s with cmds := del s.cmds id } : State).settleOps)
  | none =>
    match s.engXlat c c.flagVa 1 with
    | (t, .wait leaf) => if has s.transit leaf then none else some t
    | (s, .fault k i) => some ({ s with cmds := put s.cmds id { c with phase := 1, stopped := some (causeOf k i, c.flagVa) } })
    | (s, .ok pa _ d) =>
      let g : Seg := { off := 0, pa := pa, n := 4, dpage := d }
      (s.endWord id c g (x % 2 ^ 32)).map (fun s => { s with cmds := put s.cmds id { c with flagAt := some g } })

/-- The 32-bit words of an element of SRED. -/
def Cmd.redWords (c : Cmd) : Nat := c.redBytes / 4

/-- The elements of a list of words, n words each, lowest word first. -/
def wordGroups (n : Nat) (xs : List Nat) : List Nat :=
  (List.range (xs.length / n)).map (fun k => ((xs.drop (n * k)).take n).foldr (fun x r => x + 2 ^ 32 * r) 0)

/-- Word k of an element's sum is written (R338); after its last word the element counts, and after the last element the end begins. -/
def State.sumWord (s : State) (id : Nat) (c : Cmd) (k : Nat) : Option State :=
  let (r, fl) := pairwise (c.f 4 35 34) (wordGroups c.redWords c.acc)
  let gs := c.segAt 0 (c.done * c.redBytes + 4 * k) 4
  if !s.segsReady id c gs then none
  else
    let (x, s) := if c.redTorn c.done then s.freeBits 32 else (r / 2 ^ (32 * k) % 2 ^ 32, s)
    let s := s.writeSegs c gs (toBytes 4 x)
    let next : Cmd :=
      if k + 1 < c.redWords then { c with at_ := put c.at_ c.done (c.at? c.done + 1) }
      else
        { c with at_ := [], acc := [], done := c.done + 1, flags := c.flags ||| fl, phase := if c.done + 1 = c.rows then 1 else 0 }
    some ({ s with cmds := put s.cmds id next } : State).settleOps

/-- The next access of a reduction: a word of an input is read, a word of the sum written, or a word of STATUS or of the flag (R338,
R339). -/
def State.redStep (s : State) (id : Nat) (c : Cmd) : Option State :=
  if 3 ≤ c.phase then s.flagStep id c
  else if 1 ≤ c.phase then s.statusStep id c
  else
    let k := c.at? c.done
    let n := c.idx.length * c.redWords
    if k < n then
      match s.engRead id c ((c.idx.getD (k / c.redWords) 0 + c.done * c.redBytes + 4 * (k % c.redWords)) % 2 ^ 64) 4 with
      | (s, .got x) => some (s.keepWord id c x)
      | (s, .moved) => some s
      | (_, .wait) => none
      | (s, .stop cause a) => some ({ s with cmds := put s.cmds id { c with phase := 1, stopped := some (cause, a) } })
    else s.sumWord id c (k - n)

/-- SRED_ELEMENT (R338, R339): the next access of the element that is summed, and after the last one of the command's end. -/
def execSredElement (s : State) : Out :=
  match look s.cmds s.occ.id with
  | none => .next s
  | some c => if c.kind == .sred && s.running c then .next ((s.redStep s.occ.id c).getD s) else .next s

/-- Element d of a table row as FP32 bits (R340). -/
def Cmd.rowElt (c : Cmd) (bs : List Byte) (d : Nat) : Nat :=
  if c.f 5 33 32 = 3 then ofBytes ((bs.drop (2 * d)).take 2) * 2 ^ 16 else ofBytes ((bs.drop (4 * d)).take 4)

/-- Element d of a bag's result vector with its flags (R341). -/
def Cmd.bagElt (c : Cmd) (rs : List (List Byte × Nat)) (d : Nat) : Nat × BitVec 7 :=
  let ps := rs.map (fun (bs, wgt) => if c.f 5 16 16 = 1 then (c.rowElt bs d, 0) else fMul fp32 .rne wgt (c.rowElt bs d))
  let (x, f) := pairwise 0 (ps.map Prod.fst)
  let (r, g) := fConvert (if c.f 5 35 34 = 3 then bf16 else fp32) fp32 .rne x
  (r, ps.foldl (fun m p => m ||| p.2) (f ||| g))

/-- The index positions of a command's next bag (R341). -/
def Cmd.bagPlaces (c : Cmd) : List Nat :=
  let lo := c.idx.getD c.done 0
  (List.range (c.idx.getD (c.done + 1) 0 - lo)).map (fun k => lo + k)

/-- The words of a table row that the engine reads. -/
def Cmd.bagRowWords (c : Cmd) : Nat := (c.bagRow + 3) / 4

/-- The accesses of one index position: its index, its weight, and the words of its row. -/
def Cmd.bagStride (c : Cmd) : Nat := 2 + c.bagRowWords

/-- The table rows read for a bag, each with its weight, from the words kept. -/
def Cmd.bagRead (c : Cmd) : List (List Byte × Nat) :=
  (List.range (c.acc.length / c.bagStride)).map (fun k =>
    let xs := (c.acc.drop (c.bagStride * k)).take c.bagStride
    ((xs.drop 2).flatMap (toBytes 4), xs.getD 1 0))

/-- Whether every byte of a table row lies in the capacity tier (R341): a stop, a wait, or nothing. -/
def State.bagTier (s : State) (c : Cmd) (va : Nat) : State × Option EngRead :=
  match s.segsOf c 0 (partsOf va c.bagRow) with
  | (t, .wait leaf) => (t, some (if has s.transit leaf then .wait else .moved))
  | (t, .fault k i a) => (t, some (.stop (causeOf k i) a))
  | (t, .ok gs) => (t, (gs.find? (fun g => isGddr g.pa || !isMemory g.pa)).map (fun g => .stop 3 (va + g.off)))

/-- Read what an index position needs next: its index, which must name a row of the table, its weight once the row resolves to the capacity
tier, or a word of its row (R341). -/
def State.bagWord (s : State) (id : Nat) (c : Cmd) (q r x : Nat) : State × EngRead :=
  let word (s : State) (a : Nat) : EngRead :=
    match s.wordSpan c (a + 4 * q) with
    | .got _ => if s.wordsFull [wordKey c.core a + q] then .got (s.spadAt (wordKey c.core a + q)).val.toNat else .wait
    | y => y
  let va := (c.f 0 56 0 + x * c.f 1 63 32) % 2 ^ 64
  match r with
  | 0 =>
    match word s (c.f 2 63 32) with
    | .got y => (s, if c.f 1 31 0 ≤ y then .stop 4 y else .got y)
    | y => (s, y)
  | 1 =>
    match s.bagTier c va with
    | (s, some y) => (s, y)
    | (s, none) => (s, if c.f 5 16 16 = 1 then .got 0x3F800000 else word s (c.f 2 31 0))
  | k + 2 =>
    match (if k = 0 then s.bagTier c va else (s, none)) with
    | (s, some y) => (s, y)
    | (s, none) => s.engRead id c ((va + 4 * k) % 2 ^ 64) (min 4 (c.bagRow - 4 * k))

/-- Word k of a bag's result lands, pooled of its rows; with the last one the bag is counted and its flags stand in the posting wave's WS
(R341, R342). -/
def State.poolWord (s : State) (id : Nat) (c : Cmd) (k n : Nat) : State :=
  let xs := (List.range (c.f 5 9 0 + 1)).map (fun d => c.bagElt c.bagRead d)
  let bs := xs.flatMap (fun x => toBytes (if c.f 5 35 34 = 3 then 2 else 4) x.1)
  let s := s.landWord c (c.wordAt c.done k) (ofBytes ((bs.drop (4 * k)).take 4))
  let last := decide (c.bagWords ≤ k + 1)
  let s := if c.retired || !last then s else s.raise c.wid (xs.foldl (fun m x => m ||| x.2) 0)
  s.stepRow id c c.done (n + c.bagWords)

/-- The next access of the bag under way (R341). -/
def State.bagStep (s : State) (id : Nat) (c : Cmd) : Option State :=
  let k := c.at? c.done
  let m := c.bagStride
  let n := c.bagPlaces.length * m
  if k < n then
    match s.bagWord id c (c.bagPlaces.getD (k / m) 0) (k % m) (c.acc.getD (k / m * m) 0) with
    | (s, .got x) => some (s.keepWord id c x)
    | (s, .moved) => some s
    | (_, .wait) => none
    | (s, .stop cause a) => some (s.engineFault id c cause a)
  else s.atWord id c (c.wordVa c.done (k - n)) (some (s.poolWord id c (k - n) n))

/-- EMBAG_BAG (R326, R341, R342): the next access of the bag under way; its last one counts the bag, or the command stops at it. -/
def execEmbagBag (s : State) : Out :=
  match look s.cmds s.occ.id with
  | none => .next s
  | some c => if c.kind == .embag && s.running c then .next ((s.bagStep s.occ.id c).getD s) else .next s

/-- Whether an engine can make a command's next access, that of row j for a copy. -/
def State.engineDue (s : State) (id : Nat) (c : Cmd) (j : Nat) : Bool :=
  s.running c &&
  (match c.kind with
   | .tcopy | .tgath | .tscat => (s.copyRow id c j).isSome
   | .fconv => (s.convStep id c).isSome
   | .sred => (s.redStep id c).isSome
   | .embag => (s.bagStep id c).isSome)

/-- Whether a command is late: GT has passed its promise and it has neither completed nor stopped (R325). -/
def State.lateDue (s : State) (c : Cmd) : Bool := c.queued && c.kind != .sred && !c.late && !c.ending && decide (c.promise < s.gt)

/-- LATE_DELIVERY (R325, R327): the posting lane takes the late-delivery trap, once for each command. -/
def execLateDelivery (s : State) : Out :=
  let id := s.occ.id
  match look s.cmds id with
  | none => .next s
  | some c => if s.lateDue c then .next ({ s with cmds := put s.cmds id { c with late := true } }.engineTrap id c (c.info 0x1D 0 0)) else .next s

end Sys2Proof.Machine
end

