-- ==== Sys2Proof/Machine/Matrix.lean ====
section
/-!
DEFINITION. Entering the matrix engine (R293 to R307, R309 to R313): the checks, the queue, claims, sign registers and their time-outs,
MSTAT, and the instructions 0x80 to 0x8B with MSIGN.
-/
namespace Sys2Proof.Machine

/-- The fields of a matrix descriptor (R297). -/
structure MDesc where
  addr : Nat
  stride : Nat
  rsv : Nat
  n : Nat
  deriving DecidableEq, Repr

/-- Read a matrix descriptor. -/
def mdesc (x : Nat) : MDesc := { addr := bits x 63 32, stride := bits x 31 16, rsv := bits x 15 10, n := bits x 9 0 }

/-- Whether ADDR or STRIDE is no multiple of 16: the address that the trap names (R297). -/
def MDesc.misaligned (d : MDesc) : Option Nat := if d.addr % 16 ≠ 0 ∨ d.stride % 16 ≠ 0 then some d.addr else none

/-- The bytes of rows from an address. -/
def rowRuns (addr stride rows n : Nat) : List (Nat × Nat) := (List.range rows).map (fun k => (addr + k * stride, n))

/-- A tile; one not listed is free. -/
def State.tileAt (s : State) (core t : Nat) : Tile := lookD (s.coreAt core).tiles t {}

/-- Change a tile. -/
def State.modTile (s : State) (core t : Nat) (f : Tile → Tile) : State :=
  s.modCore core (fun k => { k with tiles := put k.tiles t (f (lookD k.tiles t {})) })

/-- Change the latch. -/
def State.modLatch (s : State) (core : Nat) (f : Latch → Latch) : State := s.modCore core (fun k => { k with latch := f k.latch })

/-- The owner of a resource: 0 to 3 a tile, 4 the latch (R300). -/
def State.ownerOf (s : State) (core r : Nat) : Option Nat :=
  if r = 4 then (s.coreAt core).latch.owner else (s.tileAt core r).owner

/-- The deferred report on a resource (R299). -/
def State.reportOn (s : State) (core r : Nat) : Option Report :=
  if r = 4 then (s.coreAt core).latch.report else (s.tileAt core r).report

/-- Put or clear a deferred report (R299). A second report on a destination that still holds one replaces it: the rule gives a destination one
report and does not say which of two stays (log entry 123). -/
def State.setReport (s : State) (core r : Nat) (x : Option Report) : State :=
  if r = 4 then s.modLatch core (fun l => { l with report := x }) else s.modTile core r (fun t => { t with report := x })

/-- The resources of a mask of RES. -/
def resList (res : Nat) : List Nat := (List.range 5).filter (fun r => bit res r)

/-- The mask of RES of tiles. -/
def resOf (ts : List Nat) : Nat := ts.foldl (fun m t => m ||| 2 ^ t) 0

/-- The tiles of an operation on T, a pair or not: an odd T has no pair (R294). -/
def pairOf (t : Nat) (pair : Bool) : List Nat := if pair && t % 2 == 0 then [t, t + 1] else [t]

/-- The other tile of a pair. -/
def partner (t : Nat) : Nat := if t % 2 = 0 then t + 1 else t - 1

/-- What a matrix instruction is about to do: its entry, the bytes it will access with their access code, and what it found. -/
structure MatUse where
  entry : MatEntry
  runs : List (Nat × Nat) := []
  acc : Nat := 0
  misaligned : Option Nat := none
  res : Nat
  bad : Bool := false
  deriving DecidableEq, Repr

/-- A trap that names resources as RES (R394). -/
def resTrap (kind res : Nat) : Trap := { kind := kind, i0 := dw res }

/-- The deferred trap that a named resource holds, with the state in which its report is cleared (R299). -/
def State.deferred (s : State) (core res : Nat) : Option (Trap × State) :=
  match (resList res).find? (fun r => (s.reportOn core r).isSome) with
  | none => none
  | some r =>
    match s.reportOn core r with
    | none => none
    | some x =>
      some ({ kind := 0x19, i0 := dw (2 ^ r), i1 := x.pc, i2 := dw (x.cause + 256 * x.words) }, s.setReport core r none)

/-- The checks of R296 from alignment on: the first trap that applies, and the state it leaves. -/
def State.matCheck (s : State) (wid : Nat) (w : Wave) (u : MatUse) : State × Option Trap :=
  match u.misaligned with
  | some a => (s, some (accTrap 0x05 a 16 u.acc))
  | none =>
    match badRun (s.matSpan w.vi w.core) u.acc u.runs with
    | some t => (s, t)
    | none =>
      if (resList u.res).any (fun r => s.ownerOf w.core r != some wid) then (s, some (resTrap 0x17 u.res))
      else if u.bad then (s, some (resTrap 0x18 u.res))
      else
        match s.deferred w.core u.res with
        | some (t, s) => (s, some t)
        | none => (s, none)

/-- The queue entries in use: queued ones, and those reserved by armings (R295, R307). -/
def Core.queueUsed (k : Core) : Nat :=
  k.mq.length + k.armings.length + (k.signs.filter (fun (_, g) => g.armed && !g.held)).length

/-- Whether a core's matrix queue has room. -/
def State.matRoom (s : State) (core : Nat) : Bool := decide ((s.coreAt core).queueUsed < 16)

/-- The scratchpad accesses of a wave that are not performed, which its entries' reads come after (R298). -/
def State.bankBefore (s : State) (wid : Nat) (p : Nat → Bool) : List Nat :=
  (s.ops.filter (fun (_, o) => o.wid == wid && p o.lane && o.place == .bank && !o.done)).map Prod.fst

/-- Put an entry into the queue: entries of one cycle stand in the order of their wave slots (R295). -/
def insertEntry (q : List MatEntry) (e : MatEntry) : List MatEntry :=
  q.filter (fun x => !(x.cycle == e.cycle && decide (e.slot < x.slot))) ++ [e] ++ q.filter (fun x => x.cycle == e.cycle && decide (e.slot < x.slot))

/-- An entry enters the queue and marks the tiles it writes empty (R295). -/
def State.enterQueue (s : State) (core : Nat) (e : MatEntry) : State :=
  let e := { e with cycle := (s.coreAt core).cycle }
  let s := s.modCore core (fun k => { k with mq := insertEntry k.mq e })
  e.writes.foldl (fun s t => s.modTile core t (fun x => { x with pend := x.pend + 1 })) s

/-- Complete what an entry of an instruction needs: its identity, its wave, and the accesses it comes after. -/
def State.ownEntry (s : State) (c : Issue) (w : Wave) (u : MatUse) : MatEntry × State :=
  let (id, s) := s.fresh
  let l := w.lane (c.lanes.headD 0)
  ({ u.entry with
       id := id, wid := c.wid, vi := w.vi, slot := w.slot, res := u.res, before := s.bankBefore c.wid (fun _ => true)
       who := { pc := c.pc, level := l.level, key := l.keyIn w, item := l.item } }, s)

/-- Hold the lanes of MRD; inside a pixel-ordered section they trap (R310, R313). -/
def State.matHold (s : State) (i : Instr) (c : Issue) (w : Wave) (run : List Nat) (x : Wait) : Done :=
  let stay := outsideLanes w run
  ⟨stay.foldl (fun s k => s.waitLane c.wid (wordsOf i) k x) s, forbidInside (descOf i).opc 4 w run, stay⟩

/-- The trap of a wave-level matrix instruction that would wait, where a lane of its issue is inside a pixel-ordered section: every active lane takes
it (R296, R313, R358). -/
def waveForbidden (opc : Nat) (w : Wave) (run : List Nat) : List (Nat × Trap) :=
  if run.any (fun k => (w.lane k).inside) then run.map (fun k => (k, orderedTrap (w.lane k) opc 4 0)) else []

/-- Hold the lanes of a wave-level matrix instruction, or trap them all (R296, R313). -/
def State.waveHold (s : State) (i : Instr) (c : Issue) (w : Wave) (run : List Nat) (x : Wait) : Done :=
  if run.any (fun k => (w.lane k).inside) then ⟨s, waveForbidden (descOf i).opc w run, []⟩
  else ⟨run.foldl (fun s k => s.waitLane c.wid (wordsOf i) k x) s, [], run⟩

/-- Run a wave-level matrix instruction that enters the queue (R295, R296): `mk` reads its fields, `go` is what it does when every check
has passed and the queue has room. -/
def matEff (i : Instr) (mk : State → Wave → Lane → MatUse) (go : State → Issue → Wave → List Nat → MatUse → Done) : Eff := fun s c w run =>
    let u := mk s w (w.lane (run.headD 0))
    if u.misaligned.isNone && badRun (s.matSpan w.vi w.core) u.acc u.runs == some none then ⟨run.foldl (fun s k => s.waitLane c.wid (wordsOf i) k .room) s, [], run⟩
    else
      match s.matCheck c.wid w u with
      | (s, some t) => ⟨s, run.map (fun k => (k, t)), []⟩
      | (s, none) => if s.matRoom w.core then go s c w run u else s.waveHold i c w run .matrix

/-- `matEff` in the common course of an issue (R178). -/
def matOp (i : Instr) (mk : State → Wave → Lane → MatUse) (go : State → Issue → Wave → List Nat → MatUse → Done) (s : State) : Out := runLanes i s (matEff i mk go)

/-- The plain course: the entry enters the queue. -/
def matEnter (s : State) (c : Issue) (w : Wave) (_ : List Nat) (u : MatUse) : Done :=
  let (e, s) := s.ownEntry c w u
  ⟨s.enterQueue w.core e, [], []⟩

/-- The limit of N and the least STRIDE of an MLATB (R302). -/
def latbLimit (mf : MF) : Nat :=
  match mf with
  | .f32 => 256 | .f64 => 128 | .f16 => 512 | .bf16 => 512 | .e4m3 => 512 | .e5m2 => 512 | .s8 => 512 | .z8 => 512 | .cb => 512
def latbStride (mf : MF) (n : Nat) : Nat :=
  match mf with
  | .cb => 48
  | .f32 | .f64 | .f16 | .bf16 | .e4m3 | .e5m2 | .s8 | .z8 => mfBytes mf * n

/-- Whether a format of B brings square scales (R302). -/
def scaledFmt (mf : MF) : Bool :=
  match mf with
  | .e4m3 | .e5m2 => true
  | .f32 | .f64 | .f16 | .bf16 | .s8 | .z8 | .cb => false

/-- The bytes that an MLATB reads (R302). -/
def latbRuns (mf : MF) (addr stride n : Nat) : List (Nat × Nat) :=
  match mf with
  | .cb => rowRuns addr stride n 48
  | .f32 | .f64 | .f16 | .bf16 | .e4m3 | .e5m2 | .s8 | .z8 =>
    rowRuns addr stride 128 (mfBytes mf * n) ++ (if scaledFmt mf then [(addr + 128 * stride, 4 * ((n + 127) / 128))] else [])

/-- What MLATB is about to do (R302). -/
def useMlatb (mf : MF) (i : Instr) (_ : State) (w : Wave) (l : Lane) : MatUse :=
  let d := mdesc (opA i w l)
  { entry := { act := .latb mf, wid := 0, addr := d.addr, stride := d.stride, n := d.n }
    runs := latbRuns mf d.addr d.stride d.n, misaligned := d.misaligned, res := 16
    bad := d.rsv != 0 || d.n == 0 || d.n % 16 != 0 || decide (latbLimit mf < d.n) || decide (d.stride < latbStride mf d.n) }

/-- MLATB enters the queue; MMAs executed after it are checked against its format and columns (R306). -/
def enterMlatb (mf : MF) (s : State) (c : Issue) (w : Wave) (run : List Nat) (u : MatUse) : Done :=
  matEnter (s.modLatch w.core (fun l => { l with nextFmt := some (mf, u.entry.n) })) c w run u

/-- What MCBT is about to do (R304). -/
def useMcbt (i : Instr) (_ : State) (w : Wave) (l : Lane) : MatUse :=
  let d := mdesc (opA i w l)
  { entry := { act := .latb .cb, wid := 0, addr := d.addr, n := d.n }
    runs := [(d.addr, 16 * d.n)], misaligned := d.misaligned, res := 16
    bad := d.rsv != 0 || d.n == 0 || decide (512 < w2f (fieldsOf i) 8 0 + d.n) || d.stride != 0 }

/-- Whether an entry is an MLATB.CB. -/
def MatEntry.isCb (e : MatEntry) : Bool :=
  match e.act with
  | .latb .cb => true
  | .latb _ | .mma _ _ _ | .mmai _ _ _ _ | .zero _ | .rd _ _ _ | .st _ _ _ | .mv _ _ _ _ => false

/-- MCBT passes to the table loader at once (R304). -/
def enterMcbt (i : Instr) (s : State) (c : Issue) (w : Wave) (_ : List Nat) (u : MatUse) : Done :=
  let (e, s) := s.ownEntry c w u
  let first := w2f (fieldsOf i) 8 0
  ⟨s.modCore w.core (fun k =>
    let x : TableLoad :=
      { id := e.id, wid := e.wid, vi := e.vi, addr := e.addr, next := first, stop := first + e.n,
        after := (k.mq.filter MatEntry.isCb).map MatEntry.id, before := e.before, who := e.who }
    { k with loader := k.loader ++ [x] }), [], []⟩

/-- The tile kind that a multiplication of a format needs (R306). -/
def mmaKind (mf : MF) : Nat :=
  match mf with
  | .f64 => 2
  | .s8 | .z8 => 1
  | .f32 | .f16 | .bf16 | .e4m3 | .e5m2 | .cb => 0

/-- The pairings of A and B (R306): the OPC, the formats of A and of B. -/
def pairingOk (opc : Nat) (a b : MF) : Bool :=
  match a, b with
  | .f32, .f32 => opc == 0x81
  | .f64, .f64 => opc == 0x81
  | .s8, .s8 | .s8, .z8 | .z8, .s8 | .z8, .z8 => opc == 0x83
  | .e4m3, .e4m3 | .e4m3, .e5m2 | .e5m2, .e4m3 | .e5m2, .e5m2 => opc == 0x81 || opc == 0x82
  | _, _ =>
    let narrow (x : MF) : Bool := x == .f16 || x == .bf16 || x == .e4m3 || x == .e5m2
    opc == 0x81 && narrow a && (narrow b || b == .cb)

/-- The bytes of A that a multiplication reads from the scratchpad, and its strip scales (R305). -/
def mmaRuns (mf : MF) (areg scales : Option Nat) (addr stride : Nat) : List (Nat × Nat) :=
  (match areg with
   | some _ => []
   | none => rowRuns addr stride 64 (128 * mfBytes mf)) ++
  (match scales with
   | some a => [(a, 256)]
   | none => [])

/-- What MMA, MMAS or MMAI is about to do (R305, R306). Nonzero SC [63:32], nonzero ADDR or STRIDE with A in registers, a short STRIDE and an odd
tile of a pair raise the matrix-operand trap (DESIGN CHOICE, log entry 151). -/
def useMma (mf : MF) (i : Instr) (s : State) (w : Wave) (l : Lane) : MatUse :=
  let x := fieldsOf i
  let opc := (descOf i).opc
  let d := mdesc (opA i w l)
  let areg := if x.w2.getLsbD 31 then none else some (w2f x 15 8)
  let sc := opC i w l
  let scales := if opc = 0x82 then some (sc % 2 ^ 32) else none
  let t := x.dst.toNat
  let kind := mmaKind mf
  let pair := kind == 2 || decide (256 < d.n)
  let tiles := pairOf t pair
  let act : MatAct := if opc = 0x83 then .mmai mf (x.mode == 1) (x.w2.getLsbD 29) areg else .mma mf areg scales
  { entry := { act := act, wid := 0, tile := t, writes := tiles, addr := d.addr, stride := d.stride, n := d.n }
    runs := mmaRuns mf areg scales d.addr d.stride
    misaligned := match d.misaligned with
      | some a => some a
      | none => scales.bind (fun a => if a % 16 = 0 then none else some a)
    res := resOf tiles ||| 16
    bad := d.rsv != 0 || (pair && t % 2 == 1) || d.n % 16 != 0 || (opc == 0x82 && decide (2 ^ 32 ≤ sc)) ||
      (if areg.isSome then d.addr != 0 || d.stride != 0 else decide (d.stride < 128 * mfBytes mf)) ||
      tiles.any (fun t => (s.tileAt w.core t).kind != kind) ||
      (match (s.coreAt w.core).latch.nextFmt with
       | some (b, n) => !pairingOk opc mf b || decide (n < d.n)
       | none => true) }

/-- A lane's signature on its wave's armed register: what the lane has in flight at the banks comes before the operation's reads (R257,
R298). -/
def State.addSignature (s : State) (core wid g k : Nat) (x : Sign) : State :=
  let y : Sign :=
    { x with signed := x.signed ||| dw (2 ^ k)
             entry := x.entry.map (fun e => { e with before := e.before ++ s.bankBefore wid (fun i => i == k) }) }
  s.modCore core (fun c => { c with signs := put c.signs g y })

/-- A lane in MSIGN has signed. -/
def Lane.signed (l : Lane) : Lane :=
  match l.wait with
  | .sign g' due _ => { l with wait := .sign g' due true }
  | _ => l

/-- Sign one lane's waiting MSIGN, now that its wave has armed the register (R257). -/
def State.signLane (s : State) (core wid g k : Nat) : State :=
  match look (s.coreAt core).signs g with
  | none => s
  | some x =>
    if bit x.set.toNat k then (s.addSignature core wid g k x).modLane wid k Lane.signed
    else s.takeTrap wid [k] (s.laneAt wid k).pc (resTrap 0x0D g)

/-- Whether a lane waits for a sign register to be armed (R257). -/
def Lane.waitsSign (l : Lane) (g : Nat) : Bool :=
  match l.wait with
  | .sign g' _ false => g' == g
  | _ => false

/-- Arm a sign register (R307), and let the lanes that wait to sign it do so. -/
def State.armSign (s : State) (core wid slot g : Nat) (set : DWord) (e : MatEntry) : State :=
  let x : Sign := { armed := true, wid := wid, slot := slot, set := set, entry := some e }
  let s := s.modCore core (fun k => { k with signs := put k.signs g x })
  (s.waveAt wid).idx.foldl (fun s k => if (s.laneAt wid k).waitsSign g then s.signLane core wid g k else s) s

/-- Whether a sign register is free. -/
def Core.signFree (k : Core) (g : Nat) : Bool := !(lookD k.signs g {}).armed

/-- Armings that find their register free arm it, the oldest first (R307). -/
def State.settleArmings (s : State) (core : Nat) : State :=
  (s.coreAt core).armings.foldl (fun s (id, a) =>
    if (s.coreAt core).signFree a.g && has (s.coreAt core).armings id then
      let s := s.modCore core (fun k => { k with armings := del k.armings id })
      let s := s.armSign core a.wid (s.waveAt a.wid).slot a.g a.set a.entry
      a.lanes.foldl (fun s k => s.leave a.wid k) s
    else s) s

/-- The lanes that are present, among those of a mask. -/
def Wave.presentIn (w : Wave) (m : Nat) : Nat := w.idx.foldl (fun n k => if bit m k && (w.lane k).present then n + 2 ^ k else n) 0

/-- MMA, MMAS or MMAI once checked: with SIGN it arms its sign register or waits for it (R307). -/
def enterMma (i : Instr) (s : State) (c : Issue) (w : Wave) (run : List Nat) (u : MatUse) : Done :=
  let x := fieldsOf i
  if !x.w2.getLsbD 28 then matEnter s c w run u
  else
    let g := w2f x 27 24
    let set := dw (w.presentIn (opB i w (w.lane (run.headD 0))))
    let (e, s) := s.ownEntry c w u
    if (s.coreAt w.core).signFree g then ⟨s.armSign w.core c.wid w.slot g set e, [], []⟩
    else
      if run.any (fun k => (w.lane k).inside) then ⟨s, waveForbidden (descOf i).opc w run, []⟩
      else
        let a : Arming := { wid := c.wid, g := g, set := set, entry := e, due := s.deadline w.vi, lanes := run }
        let s := s.modCore w.core (fun k => { k with armings := put k.armings e.id a })
        ⟨run.foldl (fun s k => s.waitLane c.wid (wordsOf i) k (.arming e.id)) s, [], run⟩

/-- Whether a signing set is complete: every member has signed, ended or is absent (R257). -/
def State.signComplete (s : State) (x : Sign) : Bool :=
  x.armed && !x.held &&
  (match s.wave? x.wid with
   | some w => w.idx.all (fun k => !bit x.set.toNat k || bit x.signed.toNat k || !(w.lane k).live)
   | none => true)

/-- Armed operations whose sets are complete issue: they enter the queue, their registers are cleared, and their signers leave (R89,
R257, R307). -/
def State.issueSigned (s : State) (core : Nat) : State :=
  let s := (s.coreAt core).signs.foldl (fun s (g, x) =>
    if s.signComplete x then
      let s := s.modCore core (fun k => { k with signs := del k.signs g })
      let s := match x.entry with
        | some e => s.enterQueue core e
        | none => s
      (s.waveAt x.wid).idx.foldl (fun s k =>
        match (s.laneAt x.wid k).wait with
        | .sign g' _ true => if g' = g then s.leave x.wid k else s
        | _ => s) s
    else s) s
  s.settleArmings core

/-- Insert by rising first component. -/
def insertFirst {α : Type} (x : Nat × α) : List (Nat × α) → List (Nat × α)
  | [] => [x]
  | y :: t => if x.1 ≤ y.1 then x :: y :: t else y :: insertFirst x t

/-- The tiles and the latch that a saved wave owned, named as RES (R313). -/
def Saved.claims (x : Saved) : Nat := resOf (x.tiles.map Prod.fst ++ (if x.latch.isSome then [4] else []))

/-- The waves that hold lanes in MWAIT on a core, and the saved waves whose restore waits as MWAIT does (R300, R313): order, wave and resources. -/
def State.claimers (s : State) (core : Nat) : List (Nat × Nat × Nat) :=
  let back := s.saved.filterMap (fun (wid, x) => if x.wave.core == core then x.asked.map (fun o => (o, wid, x.claims)) else none)
  let all := back ++ s.waves.flatMap (fun (wid, w) =>
    if w.core == core then
      w.lanes.filterMap (fun l => match l.wait with
        | .claim o r _ => some (o, wid, r)
        | _ => none)
    else [])
  all.eraseDups.foldr insertFirst []

/-- The resources of a mask that a wave does not own yet. -/
def State.wanted (s : State) (core wid res : Nat) : Nat := resOf ((resList res).filter (fun r => s.ownerOf core r != some wid))

/-- Whether resources can be claimed: free, and not named by an MWAIT that waits already (R300). -/
def State.claimable (s : State) (core want named : Nat) : Bool :=
  want &&& named == 0 && (resList want).all (fun r => (s.ownerOf core r).isNone)

/-- Claim resources: tiles of kind F with every cell +0, the latch without a format and with every slot empty (R300). -/
def State.claim (s : State) (core wid want : Nat) : State :=
  (resList want).foldl (fun s r =>
    if r = 4 then s.modCore core (fun k => { k with latch := { owner := some wid }, slots := [] })
    else s.modTile core r (fun _ => { owner := some wid })) s

/-- Serve waiting MWAITs in the order they executed (R300); what a waiting restore names stays for it (R313). -/
def State.serveClaims (s : State) (core : Nat) : State :=
  ((s.claimers core).foldl (fun (s, named) (o, wid, res) =>
    let want := s.wanted core wid res
    if !has s.saved wid && s.claimable core want named then
      let s := s.claim core wid want
      ((s.waveAt wid).idx.foldl (fun s k =>
        match (s.laneAt wid k).wait with
        | .claim o' _ _ => if o' = o then s.leave wid k else s
        | _ => s) s, named)
    else (s, named ||| res)) (s, 0)).1

/-- After an entry completed or a claim was given up: waves that are gone release their claims, held lanes issue again, waiting armings
and claims are served (R295, R300, R301, R307). -/
def State.settleMatrix (s : State) (core : Nat) : State :=
  let s := (s.coreAt core).leaving.foldl (fun s (g, w) =>
    if (s.coreAt core).busyRes g 31 then s
    else (s.freeMatrix g w 31).modCore core (fun k => { k with leaving := del k.leaving g })) s
  let s : State := { s with waves := s.waves.map (fun ((wid, w) : Nat × Wave) => (wid,
    if w.core == core && w.lanes.any (fun l => l.wait == .matrix) then
      { w with lanes := w.lanes.map (fun l => if l.wait == .matrix then { l with wait := .run } else l) }
    else w)) }
  (s.settleArmings core).serveClaims core

/-- The other tile of a kind D pair that its wave owns too: an operation that ends kind D on one tile ends it on both (R294, R309). -/
def State.brokenPair (s : State) (core wid t : Nat) : List Nat :=
  if (s.tileAt core t).kind = 2 ∧ (s.tileAt core (partner t)).owner = some wid then [partner t] else []

/-- What MZERO is about to do (R309). -/
def useMzero (i : Instr) (_ : State) (_ : Wave) (_ : Lane) : MatUse :=
  let x := fieldsOf i
  let kind := w2f x 1 0
  let t := x.dst.toNat
  let tiles := pairOf t (kind == 2)
  { entry := { act := .zero kind, wid := 0, tile := t, writes := tiles }, res := resOf tiles, bad := kind == 2 && t % 2 == 1 }

/-- Set the kind of tiles, at execution (R309, R311). -/
def State.setKind (s : State) (core kind : Nat) (ts : List Nat) : State := ts.foldl (fun s t => s.modTile core t (fun x => { x with kind := kind })) s

/-- MZERO sets the kind and enters the queue (R309). -/
def enterMzero (s : State) (c : Issue) (w : Wave) (run : List Nat) (u : MatUse) : Done :=
  match u.entry.act with
  | .zero kind =>
    let more := if kind = 2 then [] else s.brokenPair w.core c.wid u.entry.tile
    let tiles := u.entry.writes ++ more
    matEnter (s.setKind w.core kind tiles) c w run { u with entry := { u.entry with writes := tiles } }
  | .latb _ | .mma _ _ _ | .mmai _ _ _ _ | .rd _ _ _ | .st _ _ _ | .mv _ _ _ _ => ⟨s, [], []⟩

/-- Bytes of a cell's image element (R311). -/
def cellBytes (kind : Nat) : Nat := if kind = 0 then 4 else 8

/-- What MST or MMV of a kind is about to do (R311). A bad N, a short STRIDE and an odd tile of a pair raise the matrix-operand trap
(DESIGN CHOICE, log entry 151). -/
def useRows (i : Instr) (kind : Nat) (mv : Bool) (s : State) (w : Wave) (l : Lane) : MatUse :=
  let x := fieldsOf i
  let d := mdesc (opA i w l)
  let t := x.dst.toNat
  let pair := kind == 2 || decide (256 < d.n)
  let tiles := pairOf t pair
  let row0 := w2f x 5 0
  let rows := w2f x 13 8 + 1
  let e := cellBytes kind
  { entry := { act := if mv then .mv kind row0 rows [] else .st kind row0 rows, wid := 0, tile := t, writes := if mv then tiles else [],
               addr := d.addr, stride := d.stride, n := d.n }
    runs := rowRuns d.addr d.stride rows (e * d.n), acc := if mv then 0 else 1, misaligned := d.misaligned, res := resOf tiles
    bad := d.rsv != 0 || d.n == 0 || d.n % 16 != 0 || decide ((if kind = 2 then 256 else 512) < d.n) || (pair && t % 2 == 1) ||
      decide (d.stride < e * d.n) || (!mv && tiles.any (fun t => (s.tileAt w.core t).kind != kind)) }

/-- MMV sets the kind and enters the queue; tiles whose kind changes lose the cells it does not write (R311). -/
def enterMmv (s : State) (c : Issue) (w : Wave) (run : List Nat) (u : MatUse) : Done :=
  match u.entry.act with
  | .mv kind row0 rows _ =>
    let more := if kind = 2 then [] else u.entry.writes.flatMap (fun t => (s.brokenPair w.core c.wid t).filter (fun x => !u.entry.writes.contains x))
    let tiles := u.entry.writes ++ more
    let wipe := tiles.filter (fun t => (s.tileAt w.core t).kind != kind)
    matEnter (s.setKind w.core kind tiles) c w run { u with entry := { u.entry with writes := tiles, act := .mv kind row0 rows wipe } }
  | .latb _ | .mma _ _ _ | .mmai _ _ _ _ | .zero _ | .rd _ _ _ | .st _ _ _ => ⟨s, [], []⟩

/-- What one lane of MRD finds (R296, R310): the cell it will read, or its trap. -/
def State.mrdLane (s : State) (i : Instr) (wid : Nat) (w : Wave) (k : Nat) : Except Trap (Nat × Nat × Nat × Nat) :=
  let x := fieldsOf i
  let t := x.sb.toNat
  let col := opA i w (w.lane k) % 2 ^ 32
  let far := decide (256 ≤ col) && decide (col < 512) && t % 2 == 0
  let tile := if far then t + 1 else t
  let kind := (s.tileAt w.core tile).kind
  let named := resOf ([t, tile] ++ (if kind = 2 then [partner tile] else []))
  if (resList named).any (fun r => s.ownerOf w.core r != some wid) then .error (resTrap 0x17 named)
  else if 512 ≤ col ∨ (256 ≤ col ∧ t % 2 = 1) ∨ (kind ≠ 0 ∧ x.dst.toNat % 2 = 1) then .error (resTrap 0x18 named)
  else
    match s.deferred w.core named with
    | some (e, _) => .error e
    | none => .ok (k, tile, col % 256, kind)

/-- The entry of MRD for the cells that its lanes read (R310). -/
def mrdUse (i : Instr) (cells : List (Nat × Nat × Nat × Nat)) : MatUse :=
  { entry := { act := .rd cells (w2f (fieldsOf i) 5 0) (fieldsOf i).dst.toNat, wid := 0, tile := (fieldsOf i).sb.toNat }
    res := resOf ([(fieldsOf i).sb.toNat] ++ cells.flatMap (fun (_, t, _, kind) => if kind = 2 then [t, partner t] else [t])) }

/-- A lane whose destination awaits the cell that it found, with its kind (R310). -/
def awaitCell (i : Instr) (id : Nat) (y : Option (Nat × Nat × Nat × Nat)) (l : Lane) : Lane :=
  match y with
  | some (_, _, _, kind) => l.setEmpty (fieldsOf i).dst.toNat (if kind = 0 then 1 else 2) id
  | none => l

/-- The traps of the lanes of MRD that find one. -/
def State.mrdTraps (s : State) (i : Instr) (wid : Nat) (w : Wave) (run : List Nat) : List (Nat × Trap) :=
  run.filterMap (fun k => match s.mrdLane i wid w k with
    | .error t => some (k, t)
    | .ok _ => none)

/-- Run MRD: each lane's checks, then one entry for the lanes that passed, whose destinations are empty from then on (R310). -/
def mrdEff (i : Instr) : Eff := fun n c w run =>
    let found (k : Nat) : Option (Nat × Nat × Nat × Nat) := (n.mrdLane i c.wid w k).toOption
    let traps := n.mrdTraps i c.wid w run
    let cells := run.filterMap found
    let s := traps.foldl (fun s (_, t) =>
      if t.kind = 0x19 then (resList t.i0.toNat).foldl (fun s r => s.setReport w.core r none) s else s) n
    if cells.isEmpty then ⟨s, traps, []⟩
    else if !s.matRoom w.core then
      let d := s.matHold i c w (cells.map Prod.fst) .matrix
      { d with traps := traps ++ d.traps }
    else
      let (e, s) := s.ownEntry c w (mrdUse i cells)
      let s := run.foldl (fun s k => s.modLane c.wid k (awaitCell i e.id (found k))) s
      ⟨s.enterQueue w.core e, traps, []⟩

/-- `mrdEff` in the common course of an issue (R178). -/
def mrdOp (i : Instr) (s : State) : Out := runLanes i s (mrdEff i)

/-- The value of MSTAT for a wave, as held at the start of its cycle (R312). -/
def State.mstat (s : State) (wid : Nat) (w : Wave) : Nat :=
  let at_ (t : Nat) : Tile := lookD (s.coreAt w.core).tiles0 t {}
  let tile (f : Nat → Tile → Nat) : Nat :=
    (List.range 4).foldl (fun n t => if (at_ t).owner = some wid then n + f t (at_ t) else n) 0
  let l := (s.coreAt w.core).latch0
  let mine := l.owner == some wid
  tile (fun t x => bCode x.ovf * 2 ^ (28 + t) + bCode (x.pend == 0) * 2 ^ (24 + t) + x.kind * 2 ^ (16 + 2 * t) + 2 ^ (8 + t) +
    bCode x.report.isSome * 2 ^ t) +
  (match l.fmt, mine with
   | some mf, true => mfCode mf
   | _, _ => 15) * 2 ^ 12 + bCode mine * 2 ^ 7 + bCode (mine && l.report.isSome) * 2 ^ 4

/-- The tiles of a wave without the OVF bits that a mask names (R312). -/
def State.clearOvf (s : State) (wid core clr : Nat) : State :=
  (List.range 4).foldl (fun s t =>
    if bit clr t && (s.tileAt core t).owner == some wid then s.modTile core t (fun x => { x with ovf := false }) else s) s

/-- The deferred trap that an instruction takes which names resources, of those that its wave owns (R299). -/
def State.ownDeferred (s : State) (wid core res : Nat) : Option (Trap × State) :=
  s.deferred core ((resList res).foldl (fun m r => if s.ownerOf core r = some wid then m ||| 2 ^ r else m) 0)

/-- Run MSTAT: the register is written at execution, then the named OVF bits of owned tiles are cleared (R312). MSTAT.CLR names its tiles
(R299). -/
def mstatEff (i : Instr) (clr : Nat) : Eff := fun s c w run =>
  match s.ownDeferred c.wid w.core clr with
  | some (t, s) => ⟨s, run.map (fun k => (k, t)), []⟩
  | none =>
    ⟨(s.putW c.wid (w.lane (run.headD 0)).level (fieldsOf i).dst.toNat (s.mstat c.wid w)).clearOvf c.wid w.core clr, [], []⟩

/-- `mstatEff` in the common course of an issue (R178). -/
def mstatOp (i : Instr) (clr : Nat) (s : State) : Out := runLanes i s (mstatEff i clr)

/-- Run MWAIT (R299, R300). -/
def mwaitEff (i : Instr) : Eff := fun s c w run =>
  let res := w2f (fieldsOf i) 4 0
  match s.ownDeferred c.wid w.core res with
  | some (t, s) => ⟨s, run.map (fun k => (k, t)), []⟩
  | none =>
    let want := s.wanted w.core c.wid res
    let named := (s.claimers w.core).foldl (fun n x => n ||| x.2.2) 0
    if s.claimable w.core want named then ⟨s.claim w.core c.wid want, [], []⟩
    else
      let (o, s) := s.fresh
      s.waveHold i c w run (.claim o res (s.deadline w.vi))

/-- `mwaitEff` in the common course of an issue (R178). -/
def mwaitOp (i : Instr) (s : State) : Out := runLanes i s (mwaitEff i)

/-- Run MREL (R301): it waits for what names its resources, then frees those the wave owns. -/
def mrelEff (i : Instr) : Eff := fun s c w run =>
    let res := w2f (fieldsOf i) 4 0
    if (s.coreAt w.core).busyRes c.wid res then s.waveHold i c w run .matrix
    else ⟨(s.freeMatrix c.wid w res).settleMatrix w.core, [], []⟩

/-- `mrelEff` in the common course of an issue (R178). -/
def mrelOp (i : Instr) (s : State) : Out := runLanes i s (mrelEff i)

/-- The sign register of an MSIGN. -/
def signOf (i : Instr) : Nat := w2f (fieldsOf i) 3 0

/-- Run MSIGN (R257, R258): each lane waits until its wave has armed the register, signs, and waits for the issue. Inside a section it
traps (R313). -/
def msignEff (i : Instr) : Eff := fun s c w run =>
    let g := signOf i
    let x := lookD (s.coreAt w.core).signs g {}
    let armed := x.armed && !x.held && x.wid == c.wid
    let go := outsideLanes w run
    let out := if armed then go.filter (fun k => !bit x.set.toNat k) else []
    let stay := go.filter (fun k => !out.contains k)
    let due := s.deadline w.vi
    let s := stay.foldl (fun s k =>
      let s := s.waitLane c.wid (wordsOf i) k (.sign g due false)
      if armed then s.signLane w.core c.wid g k else s) s
    ⟨s, forbidInside (descOf i).opc 3 w run ++ out.map (fun k => (k, resTrap 0x0D g)), stay⟩

/-- `msignEff` in the common course of an issue (R178). -/
def msignOp (i : Instr) (s : State) : Out := runLanes i s (msignEff i)

/-- SIGNING_TIMEOUT (R258): a lane leaves MSIGN with its signature withdrawn and traps; the register stays armed. -/
def execSigningTimeout (s : State) : Out :=
  let wid := s.occ.wid
  let k := s.occ.lane
  match (s.laneAt wid k).wait with
  | .sign g due _ => if s.expired due then .next (s.takeTrap wid [k] (s.laneAt wid k).pc (resTrap 0x0E g)) else .next s
  | _ => .next s

/-- ARMING_TIMEOUT (R307): an arming of the wave that waits for a busy sign register is given up, and its lanes trap. -/
def execArmingTimeout (s : State) : Out :=
  let wid := s.occ.wid
  let core := (s.waveAt wid).core
  match (s.coreAt core).armings.find? (fun (_, a) => a.wid == wid && s.expired a.due) with
  | none => .next s
  | some (_, a) =>
    .next ((s.raiseTraps wid (s.laneAt wid (a.lanes.headD 0)).pc (a.lanes.map (fun k => (k, resTrap 0x0E a.g)))).settleMatrix core)

/-- The claim that a lane waits for, when its time is over: its order and its resources (R300). -/
def State.claimOver (s : State) (l : Lane) : Option (Nat × Nat) :=
  match l.wait with
  | .claim o r due => if s.expired due then some (o, r) else none
  | _ => none

/-- Whether a lane waits for the claim of an order. -/
def Lane.claims (l : Lane) (o : Nat) : Bool :=
  match l.wait with
  | .claim n _ _ => n == o
  | _ => false

/-- MATRIX_CLAIM_TIMEOUT (R300): a waiting MWAIT of the wave claims nothing and its lanes trap. -/
def execMatrixClaimTimeout (s : State) : Out :=
  let wid := s.occ.wid
  let w := s.waveAt wid
  match w.idx.findSome? (fun k => s.claimOver (w.lane k)) with
  | none => .next s
  | some (o, r) =>
    let ks := w.idx.filter (fun k => (w.lane k).claims o)
    .next ((s.raiseTraps wid (w.lane (ks.headD 0)).pc (ks.map (fun k => (k, resTrap 0x1A r)))).serveClaims w.core)

/-- MSIGN, short form (R257). -/
def execMsignShort (g : BitVec 6) (s : State) : Out := msignOp (.msignShort g) s

/-- MSIGN (R257). -/
def execMsign (x : Fields) (s : State) : Out := msignOp (.msign x) s

/-- MLATB (R302). -/
def execMlatb (mf : MF) (x : Fields) (s : State) : Out := matOp (.mlatb mf x) (useMlatb mf (.mlatb mf x)) (enterMlatb mf) s

/-- MMA (R305 to R307). -/
def execMma (mf : MF) (x : Fields) (s : State) : Out := matOp (.mma mf x) (useMma mf (.mma mf x)) (enterMma (.mma mf x)) s

/-- MMAS (R305 to R307). -/
def execMmas (mf : MF) (x : Fields) (s : State) : Out := matOp (.mmas mf x) (useMma mf (.mmas mf x)) (enterMma (.mmas mf x)) s

/-- MMAI (R305 to R307). -/
def execMmai (mf : MF) (x : Fields) (s : State) : Out := matOp (.mmai mf x) (useMma mf (.mmai mf x)) (enterMma (.mmai mf x)) s

/-- MCBT (R304). -/
def execMcbt (x : Fields) (s : State) : Out := matOp (.mcbt x) (useMcbt (.mcbt x)) (enterMcbt (.mcbt x)) s

/-- MZERO (R309). -/
def execMzero (x : Fields) (s : State) : Out := matOp (.mzero x) (useMzero (.mzero x)) enterMzero s

/-- MRD (R310). -/
def execMrd (x : Fields) (s : State) : Out := mrdOp (.mrd x) s

/-- MST (R311). -/
def execMst (x : Fields) (s : State) : Out :=
  matOp (.mst x) (fun s w l => useRows (.mst x) (s.tileAt w.core x.dst.toNat).kind false s w l) matEnter s

/-- MMV (R311). -/
def execMmv (x : Fields) (s : State) : Out := matOp (.mmv x) (fun s w l => useRows (.mmv x) (w2f x 17 16) true s w l) enterMmv s

/-- MSTAT (R312). -/
def execMstat (x : Fields) (s : State) : Out := mstatOp (.mstat x) 0 s

/-- MSTAT.CLR (R312). -/
def execMstatClr (x : Fields) (s : State) : Out := mstatOp (.mstatClr x) (w2f x 3 0) s

/-- MWAIT (R300). -/
def execMwait (x : Fields) (s : State) : Out := mwaitOp (.mwait x) s

/-- MREL (R301). -/
def execMrel (x : Fields) (s : State) : Out := mrelOp (.mrel x) s

end Sys2Proof.Machine
end

