-- ==== Sys2Proof/Machine/MatrixRun.lean ====
section
/-!
DEFINITION. The matrix engine at work (R15, R106 to R109, R293, R294, R298, R299, R302 to R311): the arithmetic of a cell, MATRIX_ENTRY and
TABLE_SLOT_FILL.
-/
namespace Sys2Proof.Machine

/-- What reading runs of scratchpad words finds (R298, R299). -/
inductive RunCheck where
  | full
  /-- A word is empty, or its bank is switching (R128). -/
  | empty
  /-- A byte may not be accessed, after so many words that may. -/
  | fault (words : Nat)
  deriving DecidableEq, Repr

/-- The keys of n words at an address of a core's window. -/
def keysAt (core a n : Nat) : List Nat := (List.range n).map (fun k => wordKey core a + k)

/-- Read runs in order, waiting for full words when `wait` holds, up to the first fault. -/
def State.checkRuns (s : State) (vi core : Nat) (wait : Bool) : Nat → List (Nat × Nat) → RunCheck
  | _, [] => .full
  | done, (a, n) :: t =>
    match badWord (s.matSpan vi core) a n with
    | some (k, switching) =>
      if switching || (wait && !s.wordsFull (keysAt core a k)) then .empty else .fault (done + k)
    | none => if wait && !s.wordsFull (keysAt core a (n / 4)) then .empty else s.checkRuns vi core wait (done + n / 4) t

/-- Elements of `size` bytes of a number, lowest first. -/
def elements (size : Nat) : Nat → Nat → List Nat
  | 0, _ => []
  | n + 1, x => x % 2 ^ (8 * size) :: elements size n (x / 2 ^ (8 * size))

/-- n elements of `size` bytes at an address of a core's window. -/
def State.readElements (s : State) (core a size n : Nat) : List Nat := elements size n (s.wordsNum (keysAt core a ((size * n + 3) / 4)))

/-- Columns of a matrix held by rows. -/
def columnsOf (n : Nat) (rows : List (List Nat)) : List (List Nat) := (List.range n).map (fun k => rows.map (fun r => r.getD k 0))

/-- Element j of a codebook block: entry of its index in the table (R106). -/
def codebookElement (block table j : Nat) : Nat := bits (table / 2 ^ (16 * bits block (3 * j + 2) (3 * j))) 15 0

/-- B as a codebook latch expands it: column n from the block at ADDR + n x STRIDE and table slot n (R303). -/
def State.codebookB (s : State) (core addr stride n : Nat) : List (List Nat) :=
  (List.range n).map (fun c =>
    let block := s.wordsNum (keysAt core (addr + c * stride) 12)
    let table := lookD (s.coreAt core).slots c 0
    (List.range 128).map (fun j => codebookElement block table j))

/-- The floating format of a matrix format's elements; codebook elements are BF16 (R106). -/
def mfFmt : MF → Fmt
  | .f32 => fp32 | .f64 => fp64 | .f16 => fp16 | .bf16 => bf16 | .cb => bf16 | .e4m3 => e4m3 | .e5m2 => e5m2 | .s8 => fp32 | .z8 => fp32

/-- The chain of fused multiply-adds in rising k (R107). -/
def macChain (f : Fmt) (a b : List Nat) (c : Nat) : Nat × BitVec 7 :=
  (a.zip b).foldl (fun (acc, fl) (x, y) =>
    let (r, g) := fFma f .rne x y acc
    (r, fl ||| g)) (c, 0)

/-- Whether an exact value is an infinity of a sign. -/
def isInf (neg : Bool) : Ex → Bool
  | .inf a => a == neg
  | .nan => false
  | .fin _ _ _ => false

/-- The exact block sum with its flag (R108). Products of both infinities raise IV though another operand is a NaN (DESIGN CHOICE, log entry 54).
-/
def blockSum (fa fb : Fmt) (a b : List Nat) : Ex × BitVec 7 :=
  let ps := (a.zip b).map (fun (x, y) => exMul (fa.val x) (fb.val y))
  let fl := ps.foldl (fun m p => m ||| p.2) 0
  let opposite := ps.any (fun p => isInf true p.1) && ps.any (fun p => isInf false p.1)
  if opposite then (.nan, fl ||| fIV)
  else
    match ps with
    | [] => (.fin false 0 0, 0)
    | p :: t => (t.foldl (fun x q => (exAdd .rne x q.1).1) p.1, fl)

/-- A block into a cell of kind F: scaled or not, rounded to FP32, then added (R108). `scales` holds the two scale words. -/
def macBlock (fa fb : Fmt) (a b : List Nat) (scales : Option (Nat × Nat)) (c : Nat) : Nat × BitVec 7 :=
  let (x, fl) := blockSum fa fb a b
  let (x, fl) :=
    match scales with
    | none => (x, fl)
    | some (sa, sb) =>
      match scVal sa, scVal sb with
      | some u, some v =>
        let (y, g) := exMul x u
        let (z, h) := exMul y v
        (z, fl ||| g ||| h)
      | _, _ => (.nan, fl ||| fIV)
  let (r, g) := roundTo fp32 .rne x
  let (t, h) := fAdd fp32 .rne c r
  (t, fl ||| g ||| h)

/-- The value of an 8-bit operand (R109). -/
def int8 (mf : MF) (x : Nat) : Int := if mf = .s8 then signed 8 x else (x % 256 : Nat)

/-- A block into a cell of kind I, and whether it saturated (R109). -/
def macInt (ma mb : MF) (wrap : Bool) (a b : List Nat) (c : Nat) : Nat × Bool :=
  let t := (a.zip b).foldl (fun n (x, y) => n + int8 ma x * int8 mb y) (signed 48 c)
  let top : Int := 2 ^ 47 - 1
  let low : Int := -(2 ^ 47)
  let t' := if wrap then t else if top < t then top else if t < low then low else t
  ((t' % 2 ^ 48).toNat, !wrap && t' != t)

/-- The tile that holds column n of an operation on T, and the column in it (R294). -/
def cellPlace (t n : Nat) : Nat × Nat := (t + n / 256, n % 256)

/-- A cell's stored part. -/
def Tile.cell (x : Tile) (m n : Nat) : Nat := (x.cells.getD m []).getD n 0

/-- The value of cell (m, n) of an operation on T of a kind (R294). -/
def State.cellVal (s : State) (core t kind m n : Nat) : Nat :=
  if kind = 2 then (s.tileAt core (t / 2 * 2)).cell m n + 2 ^ 32 * (s.tileAt core (t / 2 * 2 + 1)).cell m n
  else (s.tileAt core (cellPlace t n).1).cell m (cellPlace t n).2

/-- The part of a row's values that tile x of an operation on T holds. -/
def rowPart (t x kind : Nat) (vs : List Nat) : List Nat :=
  if kind = 2 then vs.map (fun v => if x % 2 = 0 then v % 2 ^ 32 else v / 2 ^ 32) else (vs.drop (256 * (x - t))).take 256

/-- Write rows of values from row0 on into the tiles of an operation on T; other cells stay (R294, R308, R311). -/
def State.writeRows (s : State) (core t kind row0 : Nat) (tiles : List Nat) (rows : List (List Nat)) : State :=
  tiles.foldl (fun s x => s.modTile core x (fun y => { y with cells := (List.range 64).map (fun m =>
    let old := y.cells.getD m []
    if row0 ≤ m then
      match rows[m - row0]? with
      | some vs =>
        let part := rowPart t x kind vs
        part ++ old.drop part.length
      | none => old
    else old) })) s

/-- The bits of a cell of a kind. -/
def kindBits (kind : Nat) : Nat := if kind = 0 then 32 else if kind = 1 then 48 else 64

/-- Every cell of the tiles of an operation gets a free value (R3, R299). -/
def State.freeCells (s : State) (core t kind : Nat) (tiles : List Nat) : State :=
  let wide := if kind = 2 ∨ tiles.length < 2 then 256 else 512
  let rows := (List.range 64).map (fun m => (List.range wide).map (fun n => Config.free (s.ctr + wide * m + n) % 2 ^ kindBits kind))
  { s.writeRows core t kind 0 tiles rows with ctr := s.ctr + 64 * wide }

/-- A finished entry marks its tiles full (R295). -/
def State.fillTiles (s : State) (core : Nat) (e : MatEntry) : State := e.writes.foldl (fun s t => s.modTile core t (fun x => { x with pend := x.pend - 1 })) s

/-- Perform an MLATB whose words are all full (R302, R303). -/
def State.doLatb (s : State) (core : Nat) (mf : MF) (e : MatEntry) : State :=
  let b :=
    if mf = .cb then s.codebookB core e.addr e.stride e.n
    else columnsOf e.n ((List.range 128).map (fun k => s.readElements core (e.addr + k * e.stride) (mfBytes mf) e.n))
  let scales := if scaledFmt mf then s.readElements core (e.addr + 128 * e.stride) 4 ((e.n + 127) / 128) else []
  s.modLatch core (fun l => { l with fmt := some mf, n := e.n, b := b, scales := scales })

/-- A in lane registers: row m is lane m's byte string (R305); the registers of a wave that is gone read as free values. -/
def State.laneRows (s : State) (e : MatEntry) (size areg : Nat) : State × List (List Nat) :=
  match s.wave? e.wid with
  | some w => (s, (List.range 64).map (fun m => elements size 128 ((w.lane m).read areg (32 * size))))
  | none =>
    ({ s with ctr := s.ctr + 8192 },
     (List.range 64).map (fun m => (List.range 128).map (fun k => Config.free (s.ctr + 128 * m + k) % 2 ^ (8 * size))))

/-- The rows of A. -/
def State.rowsOfA (s : State) (core : Nat) (e : MatEntry) (mf : MF) (areg : Option Nat) : State × List (List Nat) :=
  match areg with
  | some r => s.laneRows e (mfBytes mf) r
  | none => (s, (List.range 64).map (fun m => s.readElements core (e.addr + m * e.stride) (mfBytes mf) 128))

/-- The kind of tile an entry works on. -/
def MatEntry.kind (e : MatEntry) : Nat :=
  match e.act with
  | .mma mf _ _ => mmaKind mf
  | .mmai _ _ _ _ => 1
  | .zero k => k
  | .st k _ _ => k
  | .mv k _ _ _ => k
  | .latb _ => 0
  | .rd _ _ _ => 0

/-- The new values of all cells of a multiplication, row by row, with their flags. -/
def State.products (s : State) (core : Nat) (e : MatEntry) (rows : List (List Nat)) (f : Nat → Nat → List Nat → List Nat → Nat → Nat × BitVec 7) :
    List (List (Nat × BitVec 7)) :=
  let cols := (s.coreAt core).latch.b.take e.n
  (rows.zip (List.range 64)).map (fun (a, m) =>
    (cols.zip (List.range e.n)).map (fun (b, n) => f m n a b (s.cellVal core e.tile e.kind m n)))

/-- The flags of a multiplication. -/
def flagsOf (xs : List (List (Nat × BitVec 7))) : BitVec 7 := xs.foldl (fun m r => r.foldl (fun m x => m ||| x.2) m) 0

/-- The arithmetic of one floating cell (R106 to R108). -/
def floatCell (mf mb : MF) (scales : Nat → Nat → Option (Nat × Nat)) (m n : Nat) (a b : List Nat) (c : Nat) : Nat × BitVec 7 :=
  match mf with
  | .f32 => macChain fp32 a b c
  | .f64 => macChain fp64 a b c
  | .f16 | .bf16 | .e4m3 | .e5m2 | .s8 | .z8 | .cb => macBlock (mfFmt mf) (mfFmt mb) a b (scales m n) c

/-- Perform a floating multiplication whose sources are all full (R107, R108, R308). -/
def State.doMma (s : State) (core : Nat) (e : MatEntry) (mf mb : MF) (areg scales : Option Nat) : State :=
  let (s, rows) := s.rowsOfA core e mf areg
  let strip := match scales with
    | some a => s.readElements core a 4 64
    | none => []
  let square := (s.coreAt core).latch.scales
  let sc (m n : Nat) : Option (Nat × Nat) := if scales.isSome then some (strip.getD m 0, square.getD (n / 128) 0) else none
  let xs := s.products core e rows (floatCell mf mb sc)
  (s.writeRows core e.tile e.kind 0 e.writes (xs.map (fun r => r.map Prod.fst))).raise e.wid (flagsOf xs)

/-- Perform an integer multiplication whose sources are all full (R109, R308): a tile whose cell saturated sets its OVF, and OVT asks for a
deferred report. -/
def State.doMmai (s : State) (core : Nat) (e : MatEntry) (ma mb : MF) (wrap ovt : Bool) (areg : Option Nat) : State :=
  let (s, rows) := s.rowsOfA core e ma areg
  let xs := s.products core e rows (fun _ _ a b c =>
    let (r, o) := macInt ma mb wrap a b c
    (r, if o then fSAT else 0))
  let s := s.writeRows core e.tile 1 0 e.writes (xs.map (fun r => r.map Prod.fst))
  let past (t : Nat) : Bool := xs.any (fun r => ((r.drop (256 * (t - e.tile))).take 256).any (fun x => x.2 != 0))
  let hit := e.writes.filter past
  let s := hit.foldl (fun s t => s.modTile core t (fun x => { x with ovf := true })) s
  if ovt ∧ ¬ hit.isEmpty then s.setReport core e.tile (some { e.who with cause := 2, words := 0 }) else s

/-- Perform an MZERO (R309). -/
def State.doZero (s : State) (core : Nat) (e : MatEntry) : State :=
  e.writes.foldl (fun s t => s.modTile core t (fun x => { x with cells := [], ovf := false })) s

/-- Perform an MRD: each lane's destination is filled with its cell (R310). -/
def State.doRd (s : State) (core : Nat) (e : MatEntry) (cells : List (Nat × Nat × Nat × Nat)) (row0 dst : Nat) : State :=
  let lanes := cells.map (fun (k, t, col, kind) =>
    let v := s.cellVal core t kind (row0 + k) col
    (k, wordsFrom dst (if kind = 1 then sx64 48 v else v) (if kind = 0 then 1 else 2)))
  s.deliver e.id { wid := e.wid, lanes := lanes }

/-- The image of a row of cells (R311). -/
def State.imageRow (s : State) (core : Nat) (e : MatEntry) (kind m : Nat) : Nat :=
  (List.range e.n).foldr (fun n acc =>
    let v := s.cellVal core e.tile kind m n
    (if kind = 1 then sx64 48 v else v) + 2 ^ (8 * cellBytes kind) * acc) 0

/-- Write words of a core's window for the engine and fill them: no mark of an earlier release stays on them (R298). -/
def State.engineFill (s : State) (core wid a n x : Nat) : State :=
  let ks := keysAt core a n
  { s.fillWords wid ks x with relAt := ks.foldl (fun m k => del m k) s.relAt }

/-- Perform an MST up to a number of words (R299, R311). -/
def State.doSt (s : State) (core : Nat) (e : MatEntry) (kind row0 rows words : Nat) : State :=
  let per := cellBytes kind / 4 * e.n
  (List.range rows).foldl (fun s j =>
    let n := min per (words - per * j)
    if n = 0 then s else s.engineFill core e.wid (e.addr + j * e.stride) n (s.imageRow core e kind (row0 + j))) s

/-- Perform an MMV whose words are all full (R311). -/
def State.doMv (s : State) (core : Nat) (e : MatEntry) (kind row0 rows : Nat) (wipe : List Nat) : State :=
  let s := wipe.foldl (fun s t => s.modTile core t (fun x => { x with cells := [] })) s
  let vals := (List.range rows).map (fun j =>
    (s.readElements core (e.addr + j * e.stride) (cellBytes kind) e.n).map (fun v => v % 2 ^ kindBits kind))
  s.writeRows core e.tile kind row0 (pairOf e.tile (kind == 2 || decide (256 < e.n))) vals

/-- Whether the scratchpad accesses that an entry's reads come after are performed (R298). -/
def State.beforeDone (s : State) (before : List Nat) : Bool :=
  before.all (fun j =>
    match look s.ops j with
    | some o => o.place != .bank || o.done
    | none => true)

/-- What an entry's scratchpad accesses find. -/
def State.entryCheck (s : State) (core : Nat) (e : MatEntry) : RunCheck :=
  match e.act with
  | .latb mf => s.checkRuns e.vi core true 0 (latbRuns mf e.addr e.stride e.n)
  | .mma mf areg scales => s.checkRuns e.vi core true 0 (mmaRuns mf areg scales e.addr e.stride)
  | .mmai mf _ _ areg => s.checkRuns e.vi core true 0 (mmaRuns mf areg none e.addr e.stride)
  | .st k _ rows => s.checkRuns e.vi core false 0 (rowRuns e.addr e.stride rows (cellBytes k * e.n))
  | .mv k _ rows _ => s.checkRuns e.vi core true 0 (rowRuns e.addr e.stride rows (cellBytes k * e.n))
  | .zero _ => .full
  | .rd _ _ _ => .full

/-- Whether the lane registers of A are full (R298). -/
def State.aFull (s : State) (e : MatEntry) (mf : MF) (areg : Option Nat) : Bool :=
  match areg, s.wave? e.wid with
  | some r, some w => w.lanes.all (fun l => !l.emptyV r (32 * mfBytes mf))
  | _, _ => true

/-- Whether every table slot that an MLATB.CB needs holds its table: no load entered before it still has the slot ahead (R303, R304). -/
def State.slotsFull (s : State) (core : Nat) (e : MatEntry) : Bool :=
  let k := s.coreAt core
  (List.range e.n).all (fun n => has k.slots n) && k.loader.all (fun x => decide (e.id < x.id) || decide (x.stop ≤ x.next) || decide (e.n ≤ x.next))

/-- The format of A of an entry with its register, and the OPC, for a multiplication. -/
def MatEntry.mul? (e : MatEntry) : Option (Nat × MF × Option Nat) :=
  match e.act with
  | .mma mf areg scales => some (if scales.isSome then 0x82 else 0x81, mf, areg)
  | .mmai mf _ _ areg => some (0x83, mf, areg)
  | .latb _ | .zero _ | .rd _ _ _ | .st _ _ _ | .mv _ _ _ _ => none

/-- Whether the head of a queue can be performed: what the lanes of its wave accessed before it entered comes first (R298, R374). -/
def State.entryDue (s : State) (core : Nat) (e : MatEntry) : Bool :=
  match e.mul? with
  | some (_, mf, areg) =>
    (s.coreAt core).latch.fmt.isNone || (s.beforeDone e.before && s.entryCheck core e != .empty && s.aFull e mf areg)
  | none =>
    match e.act with
    | .zero _ => true
    | .rd _ _ _ => s.beforeDone e.before
    | .latb .cb => s.beforeDone e.before && s.entryCheck core e != .empty && s.slotsFull core e
    | .latb _ | .st _ _ _ | .mv _ _ _ _ | .mma _ _ _ | .mmai _ _ _ _ => s.beforeDone e.before && s.entryCheck core e != .empty

/-- Perform a multiplication (R299, R306, R308): without a latched B it only leaves a report; against a B of another format than it was
checked with, its cells are undefined; a scratchpad fault leaves every cell undefined and a report. -/
def State.doMul (s : State) (core : Nat) (e : MatEntry) (opc : Nat) (mf : MF) : State :=
  let l := (s.coreAt core).latch
  match l.fmt with
  | none => s.setReport core e.tile (some { e.who with cause := 3, words := 0 })
  | some mb =>
    match s.entryCheck core e with
    | .fault _ => (s.freeCells core e.tile e.kind e.writes).setReport core e.tile (some { e.who with cause := 1, words := 0 })
    | .full | .empty =>
      if !pairingOk opc mf mb || decide (l.n < e.n) then s.freeCells core e.tile e.kind e.writes
      else
        match e.act with
        | .mma _ areg scales => s.doMma core e mf mb areg scales
        | .mmai _ wrap ovt areg => s.doMmai core e mf mb wrap ovt areg
        | .latb _ | .zero _ | .rd _ _ _ | .st _ _ _ | .mv _ _ _ _ => s

/-- Perform the entry at the head (R299, R308). R298 lets each word and register yield its value at its own moment between the entry's start and
its end: the model reads all of them at the one moment at which the entry is performed (log entry 124). -/
def State.performEntry (s : State) (core : Nat) (e : MatEntry) : State :=
  match e.mul? with
  | some (opc, mf, _) => s.doMul core e opc mf
  | none =>
    match e.act, s.entryCheck core e with
    | .latb _, .fault _ => (s.modLatch core (fun l => { l with fmt := none, b := [], n := 0, scales := [] })).setReport core 4 (some { e.who with cause := 1, words := 0 })
    | .latb mf, _ => s.doLatb core mf e
    | .st k row0 rows, .fault n => (s.doSt core e k row0 rows n).setReport core e.tile (some { e.who with cause := 1, words := n })
    | .st k row0 rows, _ => s.doSt core e k row0 rows (rows * (cellBytes k / 4 * e.n))
    | .mv k _ _ _, .fault _ => (s.freeCells core e.tile k e.writes).setReport core e.tile (some { e.who with cause := 1, words := 0 })
    | .mv k row0 rows wipe, _ => s.doMv core e k row0 rows wipe
    | .zero _, _ => s.doZero core e
    | .rd cells row0 dst, _ => s.doRd core e cells row0 dst
    | .mma _ _ _, _ => s
    | .mmai _ _ _ _, _ => s

/-- The head of a core's matrix queue is performed; the rest of the queue moves up (R295, R298). -/
def State.performHead (s : State) (core : Nat) (e : MatEntry) (rest : List MatEntry) : State :=
  let s := (s.performEntry core e).fillTiles core e
  let s := s.modCore core (fun k => { k with mq := rest })
  (s.settleMatrix core).settleBanks

/-- MATRIX_ENTRY (R295, R298, R299, R308): the engine of a core performs the entry at the head of its queue. -/
def execMatrixEntry (s : State) : Out :=
  let core := s.occ.core
  match (s.coreAt core).mq with
  | [] => .next s
  | e :: rest =>
    if !s.entryDue core e then .next s
    else
      .next (s.performHead core e rest)

/-- Whether the table loader of a core can fill its next slot (R304). -/
def State.slotDue (s : State) (core : Nat) : Bool :=
  match (s.coreAt core).loader with
  | [] => false
  | x :: _ =>
    s.beforeDone x.before && !(s.coreAt core).mq.any (fun e => x.after.contains e.id && decide (x.next < e.n)) &&
    (x.stop ≤ x.next || s.checkRuns x.vi core true 0 [(x.addr, 16)] != .empty)

/-- The next slot of the oldest load of a table loader takes its 16 bytes (R304). -/
def State.fillSlot (s : State) (core : Nat) (x : TableLoad) (rest : List TableLoad) : State :=
  let v := s.wordsNum (keysAt core x.addr 4)
  let y := { x with addr := x.addr + 16, next := x.next + 1 }
  let s := s.modCore core (fun k => { k with
    slots := put k.slots x.next v
    slotLast := put k.slotLast x.next x.wid
    loader := if y.next < y.stop then y :: rest else rest })
  s.settleMatrix core

/-- TABLE_SLOT_FILL (R304): the table loader of a core replaces the next slot of its oldest load. A fault stops the load with a report on
the latch (R299): the slot it comes at is left empty and the rest of the load is dropped, which the rules do not state (log entry 125). -/
def execTableSlotFill (s : State) : Out :=
  let core := s.occ.core
  match (s.coreAt core).loader with
  | [] => .next s
  | x :: rest =>
    if !s.slotDue core then .next s
    else
      match s.checkRuns x.vi core true 0 [(x.addr, 16)] with
      | .fault _ =>
        let s := s.modCore core (fun k => { k with loader := rest, slots := del k.slots x.next })
        .next ((s.setReport core 4 (some { x.who with cause := 1, words := 0 })).settleMatrix core)
      | .full | .empty =>
        .next (s.fillSlot core x rest)

end Sys2Proof.Machine
end

