-- ==== Sys2Proof/Machine/Banks.lean ====
section
/-!
DEFINITION. Bank modes (R125 to R130, R292): requests for a switch, refusals, forced FIFO switches, the end of a switch, and
BANKREQ.
-/
namespace Sys2Proof.Machine

/-- The core whose window a cluster's bank belongs to (R124). -/
def coreOfBank (cluster i : Nat) : Nat := coreOfCluster cluster (i / 8)

/-- The offset of a cluster's bank in its core's window (R117). -/
def offOfBank (i : Nat) : Nat := i % 8 * 0x30000

/-- The scratchpad address of a bank as any core names it (R116). -/
def bankAddress (cluster i : Nat) : Nat :=
  let c := coreOfBank cluster i
  2 ^ 31 + coreY c * 2 ^ 27 + coreX c * 2 ^ 23 + offOfBank i

/-- Whether an access in flight is for a bank of the part. -/
def Op.forBank (o : Op) (bank : Nat) : Bool := o.place == .bank && !o.done && bankOfKey o.pa == bank

/-- Whether part of a bank lies in a resident wave's area or in a pass's store (R127, R346). -/
def State.bankInArea (s : State) (cluster i : Nat) : Bool :=
  let c := coreOfBank cluster i
  let o := offOfBank i
  s.waves.any (fun (_, w) => w.core == c && decide (0 < w.areaSize) && decide (w.area < o + 0x30000) && decide (o < w.area + w.areaSize)) ||
  s.passes.any (fun (_, p) => !p.imm && p.stored.isNone && p.clusters.contains cluster && decide (p.tsoff < o + 0x30000) &&
    decide (o < p.tsoff + p.tpages * 0x10000))

/-- Whether a row barrier in a bank is waited on, or named by an engine command (R127). -/
def State.bankRowPending (s : State) (bank : Nat) : Bool :=
  s.waves.any (fun (_, w) => w.lanes.any (fun l =>
    match l.wait with
    | .rowBar key _ _ _ _ => bankOfKey key == bank
    | _ => false)) ||
  s.cmds.any (fun (_, c) => c.row.any (fun k => bankOfKey k == bank))

/-- The words that the head of a matrix queue reads (R298). -/
def MatEntry.wordsRead (core : Nat) (e : MatEntry) : List Nat :=
  let runs := match e.act with
    | .latb mf => latbRuns mf e.addr e.stride e.n
    | .mma mf areg scales => mmaRuns mf areg scales e.addr e.stride
    | .mmai mf _ _ areg => mmaRuns mf areg none e.addr e.stride
    | .mv k _ rows _ => rowRuns e.addr e.stride rows (cellBytes k * e.n)
    | .st _ _ _ | .zero _ | .rd _ _ _ => []
  runs.flatMap (fun (a, n) => keysAt core a (n / 4))

/-- The scratchpad word that a command reads next, which it waits for while the word is empty (R332, R334, R341). -/
def Cmd.nextWord (c : Cmd) : Option Nat :=
  let k := c.at? c.done
  let q := c.bagPlaces.getD (k / c.bagStride) 0
  match c.kind with
  | .tcopy | .tgath | .tscat => if c.toGlobal then some (c.wordAt c.done k) else none
  | .fconv => if k < 64 * c.elt then some (c.wordAt c.done k) else none
  | .embag =>
    if c.bagPlaces.length * c.bagStride ≤ k then none
    else if k % c.bagStride = 0 then some (wordKey c.core (c.f 2 63 32) + q)
    else if k % c.bagStride = 1 ∧ c.f 5 16 16 = 0 then some (wordKey c.core (c.f 2 31 0) + q)
    else none
  | .sred => none

/-- The words of its block, or of its indices, that a lane held in a posting waits for (R321 steps 3 and 6). -/
def State.postingWords (s : State) (p : Posting) : List Nat :=
  let c := s.newCmd p (s.waveAt p.wid)
  let n := blockBytes p.kind
  let ks := wordKeys c.core p.va n
  if p.kind = .sred ∨ (badRun (s.span c.vi c.core) 0 [(p.va, n)]).isSome then []
  else if !s.wordsFull ks then ks
  else ({ c with blk := (List.range (n / 8)).map (fun k => s.wordsNum ((ks.drop (2 * k)).take 2)) } : Cmd).indexKeys

/-- The words of a core's window that its matrix engine and its table loader read next (R298, R304). -/
def Core.wordsNext (k : Core) (core : Nat) : List Nat :=
  (match k.mq.head? with
   | some e => e.wordsRead core
   | none => []) ++
  (match k.loader.head? with
   | some x => if x.next < x.stop then keysAt core x.addr 4 else []
   | none => [])

/-- Whether an engine, a posting or a matrix unit waits for an empty word of a bank (R127). -/
def State.unitWaits (s : State) (bank : Nat) : Bool :=
  let empty (k : Nat) : Bool := bankOfKey k == bank && !(s.spadAt k).full
  s.cmds.any (fun (_, c) => s.running c && c.nextWord.any empty) || s.postings.any (fun (_, p) => (s.postingWords p).any empty) ||
  s.cores.any (fun (c, k) => (k.wordsNext c).any empty)

/-- Whether a switch of a bank is refused (R127, R129). -/
def State.switchRefused (s : State) (cluster i mode : Nat) (force : Bool) : Bool :=
  let bank := 24 * cluster + i
  has s.switches bank || mode == 3 ||
  (match s.bankMode cluster i with
   | 1 => s.bankInArea cluster i || s.bankRowPending bank ||
          s.unitWaits bank || s.ops.any (fun (_, o) => o.forBank bank && (o.arrived || o.core != coreOfBank cluster i))
   | 2 => !force && (!(s.fifoAt bank).1.isEmpty || s.ops.any (fun (_, o) => o.forBank bank && o.arrived))
   | _ => false)

/-- The lane of a bank access takes a trap of the access, which has no effect: precise on a lane that it holds, else when the lane can take
it. -/
def State.bankTrap (s : State) (o : Op) (t : Trap) : State :=
  if o.waits || o.probe then s.trapHeld o t
  else
    let s := (s.dropAccess o).modLaneAny o.wid o.lane (Lane.orphan o.head)
    s.modLaneAny o.wid o.lane (fun l => { l with due := l.due ++ [{ t with pc0 := some o.pc }] })

/-- Every lane that waits on a bank takes the bank-mode fault, and its access has no effect (R129). -/
def State.faultBank (s : State) (cluster i : Nat) : State :=
  (s.ops.filter (fun (_, o) => o.forBank (24 * cluster + i) && o.arrived)).foldl (fun s (_, o) =>
    s.bankTrap o { kind := 0x22, i0 := dw (bankAddress cluster i) }) s

/-- An access that waited for a switch, as the bank takes it in its new mode: none when its target is no longer valid (R117, R128, R272,
R275). -/
def Op.underMode (o : Op) (mode : Nat) : Option Op :=
  let core := o.pa / 0x60000
  let q : Want := { act := o.act, n := o.total, acc := o.accCode }
  let isFifo := match o.act with | .push | .pop => true | _ => false
  match mode with
  | 1 =>
    if isFifo && (o.opc == 0x67 || o.opc == 0x68) then none
    else
      some { o with act := if o.act = .pop then .load .b4 else if o.act = .push then .store else o.act
                    pa := wordKey core o.off, size := (o.off % 4 + o.total + 3) / 4 }
  | 2 =>
    if isFifo then some o
    else q.atFifo.map (fun q => { o with act := q.act, scope := 2, pa := wordKey core (o.off / 0x30000 * 0x30000), size := 49152 })
  | _ => none

/-- The accesses that waited for a bank's switch proceed under its new mode, or take the scratchpad-window fault (R128 step 4). -/
def State.remode (s : State) (bank mode : Nat) : State :=
  (s.ops.filter (fun (_, o) => o.forBank bank)).foldl (fun s (id, o) =>
    match o.underMode mode with
    | some o => { s with ops := put s.ops id o }
    | none => s.bankTrap o (accTrap 0x07 o.addr o.total o.accCode)) s

/-- Request a switch of one bank: the state, and whether it started and whether it was refused (R127 to R129). -/
def State.requestSwitch (s : State) (cluster i mode : Nat) (force : Bool) : State × Bool × Bool :=
  if mode = s.bankMode cluster i then (s, false, false)
  else if s.switchRefused cluster i mode force then (s.sysSetBits 0x31 cluster (24 + i) (24 + i) 1, false, true)
  else
    let s := if s.bankMode cluster i = 2 then s.faultBank cluster i else s
    let s := (s.sysSetBits 0x31 cluster (24 + i) (24 + i) 0).sysSetBits 0x31 cluster i i 1
    ({ s with switches := put s.switches (24 * cluster + i) mode }, true, false)

/-- A write of SYS.BANKMODE: a switch for each bank whose field changes (R126, R127). -/
def State.writeBankMode (s : State) (cluster value : Nat) (force : Bool) : State :=
  (List.range 24).foldl (fun s i => (s.requestSwitch cluster i (bits value (2 * i + 1) (2 * i)) force).1) s

/-- Lanes held in BANKREQ go on when their switches have ended (R292). -/
def State.wakeBanks (s : State) : State :=
  s.waves.foldl (fun s (wid, w) =>
    w.idx.foldl (fun s k =>
      match (s.laneAt wid k).wait with
      | .banks cluster list dst value =>
        if list.any (fun i => has s.switches (24 * cluster + i)) then s
        else (s.modWave wid (fun w => { w with w := put w.w dst (dw value), we := del w.we dst })).leave wid k
      | _ => s) s) s

/-- A core's cluster has no cache-mode bank left: its cluster cache holds nothing (R124, R128). -/
def State.emptyClusterCache (s : State) (cluster : Nat) : State :=
  if s.hasClusterCache (coreOfCluster cluster 0) then s
  else
    let mine := (s.ops.filter (fun (_, t) => t.isStore && t.place == .line && t.vis == 3 && clusterOf t.core == cluster)).foldr insertStamp []
    mine.foldl (fun s (id, _) =>
      match look s.ops id with
      | some o => s.performStore id o
      | none => s) s

/-- Whether a pending switch can end: accesses already at the bank have completed (R128 step 2). One still on its way waits (log entry
137). -/
def State.switchDue (s : State) (cluster i : Nat) : Bool :=
  has s.switches (24 * cluster + i) && !s.ops.any (fun (_, o) => o.forBank (24 * cluster + i) && o.arrived)

/-- Bank i of a cluster takes a mode, with nothing in it, and what waited proceeds (R128). -/
def State.switched (s : State) (cluster i mode : Nat) : State :=
  let bank := 24 * cluster + i
  let lo := wordKey (coreOfBank cluster i) (offOfBank i)
  let s : State := { s with
    switches := del s.switches bank
    spad := s.spad.filter (fun (k, _) => decide (k < lo) || decide (lo + 49152 ≤ k))
    fifo := del s.fifo bank
    relAt := s.relAt.filter (fun (k, _) => (decide (k < lo) || decide (lo + 49152 ≤ k)) && !(s.fifoAt bank).1.any (fun x => fifoKey x.2 == k)) }
  let s := s.remode bank mode
  let s := (s.sysSetBits 0x30 cluster (2 * i + 1) (2 * i) mode).sysSetBits 0x31 cluster i i 0
  ((s.emptyClusterCache cluster).wakeBanks).settleOps

/-- BANK_SWITCH_COMPLETE (R128 steps 3 and 4): the bank takes its new mode with nothing in it, and what waited proceeds. -/
def execBankSwitchComplete (s : State) : Out :=
  let cluster := s.occ.index
  let i := s.occ.n
  let bank := 24 * cluster + i
  match look s.switches bank with
  | none => .next s
  | some mode =>
    if !s.switchDue cluster i then .next s else .next (s.switched cluster i mode)

/-- Whether an interface's system software may force FIFO switches (R129, R387). -/
def State.mayForce (s : State) (vi : Nat) : Bool := s.sysBits 0x1F vi 0 0 == 1

/-- BANKMODE_WRITE (R126 to R129): system software of an interface writes SYS.BANKMODE of a cluster. -/
def execBankmodeWrite (s : State) : Out :=
  if s.occ.index < 60 then .next (s.writeBankMode s.occ.index s.occ.value.toNat (s.mayForce s.occ.vi)) else .next s

/-- The switches that BANKREQ asks for its core's banks (R292): the state, the banks whose switches started, and those refused. -/
def State.askBanks (s : State) (cluster base m : Nat) : State × List Nat × List Nat :=
  (List.range 8).foldl (fun (s, st, rf) b =>
    match s.requestSwitch cluster (base + b) (bits m (2 * b + 1) (2 * b)) false with
    | (s, a, r) => (s, if a then st ++ [b] else st, if r then rf ++ [b] else rf)) (s, ([] : List Nat), ([] : List Nat))

/-- The banks of a core as a mask. -/
def bankMask (bs : List Nat) : Nat := bs.foldl (fun n b => n + 2 ^ b) 0

/-- BANKREQ (R292): once per issue. -/
def bankreqEff (x : Fields) : Eff := fun s c w run =>
    match run with
    | [] => ⟨s, [], []⟩
    | k :: _ =>
      let cluster := clusterOf w.core
      let base := 8 * posInCluster w.core
      let (s, started, refused) := s.askBanks cluster base (opA (.bankreq x) w (w.lane k))
      let value := bankMask refused * 256 + bankMask started
      let dst := wKey (w.lane k).level x.dst.toNat
      if started.isEmpty then ⟨s.modWave c.wid (fun w => { w with w := put w.w dst (dw value), we := del w.we dst }), [], []⟩
      else
        ⟨run.foldl (fun s k => s.waitLane c.wid (wordsOf (.bankreq x)) k (.banks cluster (started.map (fun b => base + b)) dst value)) s,
         [], run⟩

/-- `bankreqEff` in the common course of an issue (R178). -/
def execBankreq (x : Fields) (s : State) : Out := runLanes (.bankreq x) s (bankreqEff x)

end Sys2Proof.Machine
end

