-- ==== Sys2Proof/Machine/Sparse.lean ====
section
/-!
DEFINITION. Sparse and selection instructions (R314 to R319).
-/
namespace Sys2Proof.Machine

/-- A wave bitmap of words of n bits in row order (R314). -/
def rowBitmap (n : Nat) : List Nat → Nat
  | [] => 0
  | x :: t => x % 2 ^ n + 2 ^ n * rowBitmap n t

/-- Results of an instruction that fills lane registers and a wave register together, later (R85, R314). -/
def State.laterRow (s : State) (wid : Nat) (team : List Nat) (r n : Nat) (vals : List (Nat × Nat)) (wave : Option (Nat × Nat)) : State :=
  let f : Fill :=
    { wid := wid, team := team, lanes := vals.map (fun (k, x) => (k, wordsFrom r x n)), wave := wave.toList.map (fun (a, x) => (a, dw x)) }
  let t := (s.withFill f).modWave wid (fun w => { w with we := wave.toList.foldl (fun m (a, _) => put m a s.nid) w.we })
  vals.foldl (fun t (k, _) => t.modLane wid k (fun l => l.setEmpty r n s.nid)) t

/-- The row of an issue: position, lane and source values (R314). -/
def rowOf (i : Instr) (w : Wave) (run : List Nat) : List (Nat × Nat × Nat × Nat) :=
  (List.range run.length).zip (run.map (fun k => (k, opA i w (w.lane k), opB i w (w.lane k))))

/-- A row instruction: lane results from the row, and a wave register with its value (R314). -/
def rowEff (i : Instr) (f : Wave → Lane → List (Nat × Nat × Nat × Nat) → List (Nat × Nat) × Option Nat) : Eff := fun s c w run =>
    let l := w.lane (run.headD 0)
    let (vals, x) := f w l (rowOf i w run)
    ⟨s.laterRow c.wid run (fieldsOf i).dst.toNat (dstRegs i) vals (x.map (fun v => (wKey l.level (fieldsOf i).sc.toNat, v))), [], []⟩

/-- `rowEff` in the common course of an issue (R178). -/
def rowOp (i : Instr) (f : Wave → Lane → List (Nat × Nat × Nat × Nat) → List (Nat × Nat) × Option Nat) (s : State) : Out :=
  runLanes i s (rowEff i f)

/-- BAND on a row (R315). -/
def rowBand (_ : Wave) (_ : Lane) (row : List (Nat × Nat × Nat × Nat)) : List (Nat × Nat) × Option Nat :=
  let vals := row.map (fun (_, k, a, b) => (k, a &&& b))
  (vals, some (vals.foldl (fun n x => n + popcount x.2 32) 0))

/-- PPOPC on a row (R316). -/
def rowPpopc (i : Instr) (w : Wave) (l : Lane) (row : List (Nat × Nat × Nat × Nat)) : List (Nat × Nat) × Option Nat :=
  let base := opB i w l % 2 ^ 32
  (row.map (fun (j, k, _, _) => (k, (base + (row.take j).foldl (fun n x => n + popcount x.2.2.1 32) 0) % 2 ^ 32)), none)

/-- IGATH on a row (R317): positions at which both bitmaps have a bit, and the set bits of each below them. -/
def rowIgath (wd : Wd) (i : Instr) (w : Wave) (l : Lane) (row : List (Nat × Nat × Nat × Nat)) : List (Nat × Nat) × Option Nat :=
  let n := 32 * wdRegs wd
  let a := rowBitmap n (row.map (fun x => x.2.2.1))
  let b := rowBitmap n (row.map (fun x => x.2.2.2))
  let common := (List.range (n * row.length)).filter (fun p => a.testBit p && b.testBit p)
  let t0 := opC i w l % 2 ^ 32
  (row.map (fun (j, k, _, _) =>
    match common[t0 + j]? with
    | some p => (k, popcount a p + 2 ^ 32 * popcount b p)
    | none => (k, 2 ^ 64 - 1)), none)

/-- The selected lanes of a row (R318). -/
def selectedOf (i : Instr) (w : Wave) (l : Lane) (row : List (Nat × Nat × Nat × Nat)) : List (Nat × Nat × Nat × Nat) :=
  row.filter (fun x => bit (opC i w l) x.2.1)

/-- CMPR on a row (R318). -/
def rowCmpr (i : Instr) (w : Wave) (l : Lane) (row : List (Nat × Nat × Nat × Nat)) : List (Nat × Nat) × Option Nat :=
  let vs := (selectedOf i w l row).map (fun x => x.2.2.1)
  (row.map (fun (j, k, _, _) => (k, vs.getD j 0)), none)

/-- EXPD on a row (R318). -/
def rowExpd (i : Instr) (w : Wave) (l : Lane) (row : List (Nat × Nat × Nat × Nat)) : List (Nat × Nat) × Option Nat :=
  let sel := (selectedOf i w l row).map (fun x => x.2.1)
  let vs := row.map (fun x => x.2.2.1)
  (row.map (fun (_, k, _, _) =>
    match findAt (fun x => x == k) sel 0 with
    | some (q, _) => (k, vs.getD q 0)
    | none => (k, 0)), none)

/-- The floating format of TOPK's values (R319). -/
def topFmt : TopFmt → Fmt
  | .f32 => fp32 | .bf16 => bf16

/-- Whether a candidate comes before another: by value descending, zeros equal, then by index, then by lane (R319). -/
def topBefore (f : Fmt) (x y : Nat × Nat × Nat) : Bool :=
  let a := f.val x.2.1
  let b := f.val y.2.1
  exLt b a || (!exLt a b && (decide (x.2.2 < y.2.2) || (x.2.2 == y.2.2 && decide (x.1 < y.1))))

/-- Insert a candidate in order. -/
def topInsert (f : Fmt) (x : Nat × Nat × Nat) : List (Nat × Nat × Nat) → List (Nat × Nat × Nat)
  | [] => [x]
  | y :: t => if topBefore f x y then x :: y :: t else y :: topInsert f x t

/-- TOPK on a row (R319): the first k positions receive the candidates in order, then the sentinel. -/
def rowTopk (nz : Bool) (tf : TopFmt) (i : Instr) (_ : Wave) (_ : Lane) (row : List (Nat × Nat × Nat × Nat)) : List (Nat × Nat) × Option Nat :=
  let f := topFmt tf
  let k := w2f (fieldsOf i) 6 0
  let cand := (row.map (fun (_, lane, a, b) => (lane, a % 2 ^ f.w, b % 2 ^ 32))).filter (fun x =>
    match f.val x.2.1 with
    | .nan => false
    | .fin _ m _ => !nz || m != 0
    | .inf _ => true)
  let order := cand.foldr (topInsert f) []
  ((row.filter (fun x => decide (x.1 < k))).map (fun (j, lane, _, _) =>
    match order[j]? with
    | some (_, v, n) => (lane, v + 2 ^ 32 * n)
    | none => (lane, f.infPat true + 2 ^ 32 * (2 ^ 32 - 1))), some cand.length)

/-- BAND (R315). -/
def execBand (x : Fields) (s : State) : Out := rowOp (.band x) rowBand s

/-- PPOPC (R316). -/
def execPpopc (x : Fields) (s : State) : Out := rowOp (.ppopc x) (rowPpopc (.ppopc x)) s

/-- IGATH (R317). -/
def execIgath (wd : Wd) (x : Fields) (s : State) : Out := rowOp (.igath wd x) (rowIgath wd (.igath wd x)) s

/-- CMPR (R318). -/
def execCmpr (wd : Wd) (x : Fields) (s : State) : Out := rowOp (.cmpr wd x) (rowCmpr (.cmpr wd x)) s

/-- EXPD (R318). -/
def execExpd (wd : Wd) (x : Fields) (s : State) : Out := rowOp (.expd wd x) (rowExpd (.expd wd x)) s

/-- TOPK (R319). -/
def execTopk (nz : Bool) (f : TopFmt) (x : Fields) (s : State) : Out := rowOp (.topk nz f x) (rowTopk nz f (.topk nz f x)) s

end Sys2Proof.Machine
end

