-- ==== Sys2Proof/Machine/Work.lean ====
section
/-!
DEFINITION. Program descriptors (R39), the level at which a wave started (R44, R355, R407, R457), and the footprint and place of a wave on
a core (R41, R42, R346).
-/
namespace Sys2Proof.Machine

/-- A program descriptor's fields, when they lie within their limits (R39). -/
def progOf (addr w0 w1 : Nat) : Option Prog :=
  if bits w0 63 57 ≠ 0 ∨ bits w0 1 0 ≠ 0 ∨ bits w1 63 56 ≠ 1 ∨ bits w1 55 36 ≠ 0 ∨ 8 < bits w1 35 32 ∨ 6144 < bits w1 31 16 ∨
     bits w1 15 8 ≠ 0 ∨ bits w1 3 2 ≠ 0 then none
  else
    some { addr := dw addr, entry := dw (bits w0 56 2 * 4), sdepth := bits w1 35 32, scratch := bits w1 31 16 * 256,
           regs := (bits w1 7 4 + 1) * 16, width := 8 * 2 ^ bits w1 1 0 }

/-- Read a program descriptor at the level of the waves it starts: none when it is unaligned, cannot be read, or breaks a limit (R39). -/
def State.readProg (s : State) (vi va : Nat) (level : BitVec 2) : State × Option Prog :=
  if va % 16 ≠ 0 then (s, none)
  else
    match s.partNum vi va 16 level with
    | (s, none) => (s, none)
    | (s, some x) => (s, progOf va (bits x 63 0) (bits x 127 64))

/-- The level at which a wave started (R44, R355, R407, R457). -/
def State.startLevel (s : State) (w : Wave) : BitVec 2 :=
  match w.kind with
  | .boot => 2
  | .launched | .spawned => (match s.job? w.lid with | some j => j.level | none => 0)
  | .fragment | .resolve => (match look s.passes w.pass with | some p => p.level | none => 0)

/-- The quadrants that positions cover. -/
def quadsOf (pos width : Nat) : List Nat := (List.range 4).filter (fun q => decide (16 * q < pos + width) && decide (pos < 16 * q + 16))

/-- The resident waves of a core. -/
def State.wavesOn (s : State) (core : Nat) : List (Nat × Wave) := s.waves.filter (fun (_, w) => w.core == core)

/-- Register bytes in use in a quadrant of a core (R41). -/
def State.quadRegs (s : State) (core q : Nat) : Nat :=
  (s.wavesOn core).foldl (fun n (_, w) => if (quadsOf w.pos w.width).contains q then n + min w.width 16 * w.regs * 4 else n) 0

/-- Resident lanes over quadrants. -/
def State.quadLanes (s : State) (core : Nat) (qs : List Nat) : Nat :=
  (s.wavesOn core).foldl (fun n (_, w) => n + ((quadsOf w.pos w.width).filter (fun q => qs.contains q)).length * min w.width 16) 0

/-- Resident lanes of a core. -/
def State.lanesOn (s : State) (core : Nat) : Nat := (s.wavesOn core).foldl (fun n (_, w) => n + w.width) 0

/-- The ranges of a core's window that no area may cover: areas of waves, and stores of passes (R42, R346). -/
def State.takenRanges (s : State) (core : Nat) : List (Nat × Nat) :=
  ((s.wavesOn core).filterMap (fun (_, w) => if w.areaSize = 0 then none else some (w.area, w.area + w.areaSize))) ++
  (s.passes.filterMap (fun (_, p) =>
    if !p.imm && p.stored.isNone && p.clusters.contains (clusterOf core) then some (p.tsoff, p.tsoff + p.tpages * 0x10000) else none))

/-- Whether an area is free: in banks that are in scratchpad mode and not switching, and clear of what is taken (R42, R127). -/
def State.areaFree (s : State) (core a n : Nat) : Bool :=
  decide (a + n ≤ 0x180000) &&
  (List.range 8).all (fun b => decide (a + n ≤ b * 0x30000) || decide (b * 0x30000 + 0x30000 ≤ a) ||
    (s.modeOf (bankOf core (b * 0x30000)) == 1 && !has s.switches (bankOf core (b * 0x30000)))) &&
  (s.takenRanges core).all (fun (lo, hi) => decide (hi ≤ a) || decide (a + n ≤ lo))

/-- A free area of n bytes on a core, at a multiple of 256 bytes (R41, R42): which of those that are free is the part's choice. The
base of a wave with no area is 0 (DESIGN CHOICE, log entry 57). -/
def State.findArea (s : State) (core n : Nat) : Option Nat :=
  if n = 0 then some 0
  else
    let free := ((List.range 6144).map (fun k => 256 * k)).filter (fun a => s.areaFree core a n)
    if free.isEmpty then none else free[Config.pick s.ctr % free.length]?

/-- A free position for a wave: the aligned one whose quadrants have register space and hold the fewest lanes, the lowest on a tie
(R42). -/
def State.findPos (s : State) (core width regs : Nat) : Option Nat :=
  let ok := ((List.range (64 / width)).map (fun k => k * width)).filter (fun p =>
    (quadsOf p width).all (fun q => decide (s.quadRegs core q + min width 16 * regs * 4 ≤ 0x28000)))
  let load (p : Nat) : Nat := s.quadLanes core (quadsOf p width)
  ok.foldl (fun best p =>
    match best with
    | some b => if load p < load b then some p else best
    | none => some p) none

/-- The lowest free wave slot of a core. -/
def State.findSlot (s : State) (core : Nat) : Option Nat :=
  (List.range 32).find? (fun n => !(s.wavesOn core).any (fun (_, w) => w.slot == n))

/-- Where a wave fits on a core: slot, position and area (R42). -/
def State.fits (s : State) (core width regs scratch : Nat) : Option (Nat × Nat × Nat) :=
  if 2048 < s.lanesOn core + width then none
  else
    match s.findSlot core, s.findPos core width regs, s.findArea core scratch with
    | some n, some p, some a => some (n, p, a)
    | _, _, _ => none

end Sys2Proof.Machine
end

