-- ==== Sys2Proof/Machine/Raster.lean ====
section
/-!
DEFINITION. The raster engine's geometry (R347, R352, R353): coverage in exact arithmetic, the values at a pixel's centre, quads and the
waves they fill, and the tiles of a render target.
-/
namespace Sys2Proof.Machine

/-- Exact difference and product of finite values. -/
def exSub (a b : Ex) : Ex := (exAdd .rne a (exNeg b)).1
def exTimes (a b : Ex) : Ex := (exMul a b).1
def exPlus (a b : Ex) : Ex := (exAdd .rne a b).1

/-- A point, or a vertex without its depth. -/
structure Point where
  x : Ex
  y : Ex
  deriving DecidableEq, Repr

/-- The edge function from a to b at p (R352). -/
def edgeFn (a b p : Point) : Ex :=
  exSub (exTimes (exSub b.x a.x) (exSub p.y a.y)) (exTimes (exSub b.y a.y) (exSub p.x a.x))

/-- The sign of a finite value. -/
def exSgn : Ex → Int
  | .fin a m _ => if m = 0 then 0 else if a then -1 else 1
  | .inf a => if a then -1 else 1
  | .nan => 0

/-- Whether an edge is top-left (R352). -/
def topLeft (a b : Point) : Bool :=
  exSgn (exSub b.y a.y) == -1 || (exSgn (exSub b.y a.y) == 0 && exSgn (exSub b.x a.x) == 1)

/-- Whether a value is finite. -/
def exFinite : Ex → Bool
  | .fin _ _ _ => true
  | .inf _ => false
  | .nan => false

/-- Vertex i of a primitive record, and its depth (R352). -/
def vertexOf (r : List Nat) (i : Nat) : Point := { x := fp32.val (r.getD (3 * i) 0), y := fp32.val (r.getD (3 * i + 1) 0) }
def depthOf (r : List Nat) (i : Nat) : Ex := fp32.val (r.getD (3 * i + 2) 0)

/-- Whether a primitive can cover anything: every coordinate is finite and its area is not zero (R352). -/
def drawable (r : List Nat) : Bool :=
  (r.take 9).all (fun x => exFinite (fp32.val x)) && exSgn (edgeFn (vertexOf r 0) (vertexOf r 1) (vertexOf r 2)) != 0

/-- The vertices in the order that makes the area positive (R352). -/
def ordered3 (r : List Nat) : List Point :=
  let (a, b, c) := (vertexOf r 0, vertexOf r 1, vertexOf r 2)
  if exSgn (edgeFn a b c) < 0 then [a, c, b] else [a, b, c]

/-- A point in sixteenths of a pixel. -/
def pointAt (x y : Nat) : Point := { x := .fin false x (-4), y := .fin false y (-4) }

/-- Whether a drawable primitive covers a point (R352). -/
def insideOf (vs : List Point) (p : Point) : Bool :=
  match vs with
  | [a, b, c] =>
    [(a, b), (b, c), (c, a)].all (fun (u, v) => exSgn (edgeFn u v p) == 1 || (exSgn (edgeFn u v p) == 0 && topLeft u v))
  | _ => false

/-- The sample positions in sixteenths of a pixel (R352). -/
def samplePlaces : Nat → List (Nat × Nat)
  | 1 => [(8, 8)]
  | 2 => [(4, 4), (12, 12)]
  | 4 => [(6, 2), (14, 6), (2, 10), (10, 14)]
  | _ => [(9, 5), (7, 11), (13, 9), (5, 3), (3, 13), (1, 7), (11, 15), (15, 1)]

/-- The samples of a pixel that a primitive covers; a pixel outside the target has none (R352). -/
def Pass.cover (p : Pass) (r : List Nat) (x y : Nat) : Nat :=
  if p.w ≤ x ∨ p.h ≤ y ∨ drawable r = false then 0
  else
    let vs := ordered3 r
    ((samplePlaces p.samples).zip (List.range p.samples)).foldl (fun m ((sx, sy), n) =>
      if insideOf vs (pointAt (16 * x + sx) (16 * y + sy)) then m + 2 ^ n else m) 0

/-- The depth and the two weights at a pixel's centre, each rounded once (R352). -/
def centreValues (r : List Nat) (x y : Nat) : Nat × Nat × Nat :=
  let (a, b, c) := (vertexOf r 0, vertexOf r 1, vertexOf r 2)
  let p := pointAt (16 * x + 8) (16 * y + 8)
  let area := edgeFn a b c
  let (e12, e20, e01) := (edgeFn b c p, edgeFn c a p, edgeFn a b p)
  let div (n : Ex) : Nat := (roundTo fp32 .rne (exDiv n area).1).1
  (div (exPlus (exPlus (exTimes e12 (depthOf r 0)) (exTimes e20 (depthOf r 1))) (exTimes e01 (depthOf r 2))), div e20, div e01)

/-- Tiles across and down a target (R347). -/
def Pass.tilesX (p : Pass) : Nat := (p.w + 63) / 64
def Pass.tilesY (p : Pass) : Nat := (p.h + 63) / 64

/-- The tile of a pixel (R347). -/
def Pass.tileOf (p : Pass) (x y : Nat) : Nat := y / 64 * p.tilesX + x / 64

/-- The cluster that serves a tile, and the tile's local number there (R347). -/
def Pass.clusterOfTile (p : Pass) (i : Nat) : Nat := p.clusters.getD (i % p.clusters.length) 0
def Pass.localTile (p : Pass) (i : Nat) : Nat := i / p.clusters.length

/-- The tiles that a cluster serves, rising (R347). -/
def Pass.tilesFor (p : Pass) (cluster : Nat) : List Nat :=
  (List.range (p.tilesX * p.tilesY)).filter (fun i => p.clusterOfTile i == cluster)

/-- A quad: the primitive's index in its DRAW, and its pixel of even x and y. -/
abbrev Quad := Nat × Nat × Nat

/-- The quads of a tile that primitives cover, by primitive and then row by row (R353). -/
def Pass.tileQuads (p : Pass) (prims : List (List Nat)) (i : Nat) : List Quad :=
  let x0 := i % p.tilesX * 64
  let y0 := i / p.tilesX * 64
  ((List.range prims.length).zip prims).flatMap (fun (j, r) =>
    ((List.range 1024).map (fun q => (j, x0 + 2 * (q % 32), y0 + 2 * (q / 32)))).filter (fun (_, x, y) =>
      [(x, y), (x + 1, y), (x, y + 1), (x + 1, y + 1)].any (fun (u, v) => p.cover r u v != 0)))

/-- Split a list into pieces of 16. -/
def sixteens : Nat → List Quad → List (List Quad)
  | 0, _ => []
  | n + 1, l => if l.isEmpty then [] else l.take 16 :: sixteens n (l.drop 16)

/-- The waves that a DRAW gives a cluster, tile by tile in ascending index (R353; the order of tiles is a DESIGN CHOICE, log entry 153). -/
def Pass.drawWaves (p : Pass) (d : Draw) (cluster : Nat) : List (List Quad) :=
  (p.tilesFor cluster).flatMap (fun i =>
    let qs := p.tileQuads d.prims i
    sixteens (qs.length + 1) qs)

/-- A pixel as a register holds it (R353). -/
def pixelWord (x y : Nat) : Word := BitVec.ofNat 32 (x + y * 2 ^ 14)

/-- The lane of a fragment wave for a pixel of a quad: its place on the scoreboard and its entry registers v1 to v6 (R353, R356). -/
def Pass.fragLane (p : Pass) (d : Draw) (q : Quad) (k : Nat) : Ord × List (Nat × Word) :=
  let (j, x0, y0) := q
  let x := x0 + k % 2
  let y := y0 + k / 2
  let r := d.prims.getD j []
  let m := p.cover r x y
  let (z, b1, b2) := centreValues r x y
  ({ pixel := pixelWord x y, seq := if m = 0 then 0 else d.seq + j, cover := m },
   [(1, pixelWord x y), (2, BitVec.ofNat 32 m), (3, BitVec.ofNat 32 z), (4, BitVec.ofNat 32 b1), (5, BitVec.ofNat 32 b2),
    (6, BitVec.ofNat 32 j)])

/-- The lane of an unused quad position (R353). -/
def unusedLane : Ord × List (Nat × Word) := ({ pixel := 0xFFFFFFFF }, [(1, 0xFFFFFFFF)])

/-- The 64 lanes of a fragment wave (R353). -/
def Pass.fragLanes (p : Pass) (d : Draw) (qs : List Quad) : List (Ord × List (Nat × Word)) :=
  (List.range 64).map (fun k =>
    match qs[k / 4]? with
    | some q => p.fragLane d q (k % 4)
    | none => unusedLane)

end Sys2Proof.Machine
end

