-- ==== Sys2Proof/Machine/Lists.lean ====
section
/-!
DEFINITION. Fragment lists (R346 to R349, R354, R361 to R365): handles, where heads and nodes lie, the ports' allocation, FLI, FLW and the
steps in which a port performs them.
-/
namespace Sys2Proof.Machine

/-- A graphics-operand trap (R344). -/
def gfxTrap (opc cause value : Nat) : Trap := { kind := 0x1F, i0 := dw (cause * 2 ^ 60 + opc * 2 ^ 52), i1 := dw value }

/-- The handle of a pass in a slot (R346). -/
def Pass.handle (p : Pass) (key : Nat) : Nat := key % 16 * 2 ^ 16 + p.gen

/-- The open pass that a handle names in an interface, with its key (R346). -/
def State.passOf (s : State) (vi h : Nat) : Option (Nat × Pass) := s.passes.find? (fun (k, p) => p.vi == vi && p.handle k == h)

/-- Where a head or a node lies (R348): in a core's window, or at a virtual address of the pool. -/
inductive GLoc where
  | spad (core off : Nat)
  | pool (va : Nat)
  deriving DecidableEq, Repr

/-- The frames that heads take in a cluster's space (R348). -/
def Pass.headFrames (p : Pass) (cluster : Nat) : Nat :=
  if p.imm then (8 * p.w * p.h + 0xFFFF) / 0x10000 else ((p.tilesFor cluster).length + 1) / 2

/-- A byte of a frame (R348). -/
def Pass.frameLoc (p : Pass) (cluster f byte : Nat) : GLoc :=
  if p.imm then .pool (p.pool.toNat + f * 0x10000 + byte)
  else .spad (coreOfCluster cluster (f / p.tpages)) (p.tsoff + f % p.tpages * 0x10000 + byte)

/-- The head of a pixel (R348). -/
def Pass.headLoc (p : Pass) (x y : Nat) : GLoc :=
  let i := p.tileOf x y
  if p.imm then .pool (p.pool.toNat + 8 * (y * p.w + x))
  else
    let b := p.localTile i * 0x8000 + 8 * (y % 64 * 64 + x % 64)
    p.frameLoc (p.clusterOfTile i) (b / 0x10000) (b % 0x10000)

/-- A node (R348, R349). -/
def Pass.nodeLoc (p : Pass) (cluster n : Nat) : GLoc := p.frameLoc cluster (n / 4096) (16 * (n % 4096))

/-- An access of a graphics unit in an interface's space, as a command of an engine makes it (R330, R433). -/
def gfxAgent (vi core : Nat) (level : BitVec 2) : Cmd := { kind := .sred, vi := vi, wid := 0, lane := 0, core := core, level := level }

/-- An access of a cluster's port: the port has its own translation cache (R437). -/
def portUnit (vi core : Nat) (level : BitVec 2) : Cmd := gfxAgent vi (portAgent core) level

/-- Read n bytes of a list: the number, or the fault's kind and address. -/
def State.readLoc (s : State) (p : Pass) (core n : Nat) (g : GLoc) : State × Except (Nat × Nat) Nat :=
  match g with
  | .spad c off => (s, .ok (s.wordsNum (keysAt c off (n / 4))))
  | .pool va =>
    match s.engNow (portUnit p.vi core p.level) va 0 with
    | (s, .ok (pa, _)) =>
      if s.lineOwned pa n then (s, .error (heldKind, va))
      else
        let (s, bs) := s.unitBytes p.vi pa n s.byteAt
        (s, .ok (ofBytes bs))
    | (s, .error k) => (s, .error (k, va))

/-- Whether a place of a list can be read or written, by the access code: the fault, or that the access is held. -/
def State.checkLoc (s : State) (p : Pass) (core acc : Nat) (g : GLoc) : State × Option (Nat × Nat) :=
  match g with
  | .spad _ _ => (s, none)
  | .pool va =>
    match s.engNow (portUnit p.vi core p.level) va acc with
    | (s, .ok (pa, _)) => (s, if s.lineOwned pa 1 then some (heldKind, va) else none)
    | (s, .error k) => (s, some (k, va))

/-- Write n bytes of a list at its home (R348). -/
def State.writeLoc (s : State) (p : Pass) (core n x : Nat) (g : GLoc) : State :=
  match g with
  | .spad c off => s.fillWords 0 (keysAt c off (n / 4)) x
  | .pool va =>
    match s.engNow (portUnit p.vi core p.level) va 1 with
    | (s, .ok (pa, _)) => s.unitWrite p.vi pa (toBytes n x)
    | (s, .error _) => s

/-- A node of a list with its index. -/
structure LNode where
  idx : Nat
  depth : Nat
  payload : Nat
  deriving DecidableEq, Repr

/-- Read up to n nodes of a list from an index on. -/
def State.nodesFrom (s : State) (p : Pass) (cluster core : Nat) : Nat → Nat → State × Except (Nat × Nat) (List LNode)
  | 0, _ => (s, .ok [])
  | n + 1, i =>
    if i = 0xFFFFFFFF then (s, .ok [])
    else
      match s.readLoc p core 16 (p.nodeLoc cluster i) with
      | (s, .error e) => (s, .error e)
      | (s, .ok x) =>
        match s.nodesFrom p cluster core n (bits x 63 32) with
        | (s, .ok l) => (s, .ok ({ idx := i, depth := bits x 31 0, payload := bits x 127 64 } :: l))
        | r => r

/-- The list of a pixel (R354). -/
def State.listOf (s : State) (p : Pass) (cluster core x y : Nat) : State × Except (Nat × Nat) (List LNode) :=
  match s.readLoc p core 8 (p.headLoc x y) with
  | (s, .error e) => (s, .error e)
  | (s, .ok h) => s.nodesFrom p cluster core (bits h 36 32) (bits h 31 0)

/-- Write a list's nodes with their links, and its head (R354, R362). -/
def State.writeList (s : State) (p : Pass) (cluster core x y : Nat) (l : List LNode) : State :=
  let links := (l.drop 1).map LNode.idx ++ [0xFFFFFFFF]
  let s := (l.zip links).foldl (fun s (n, k) =>
    s.writeLoc p core 16 (n.depth + k * 2 ^ 32 + n.payload * 2 ^ 64) (p.nodeLoc cluster n.idx)) s
  s.writeLoc p core 8 ((match l with | n :: _ => n.idx | [] => 0xFFFFFFFF) + l.length * 2 ^ 32) (p.headLoc x y)

/-- Insert a node after every node whose depth is not above its own (R362). -/
def insertNode (x : LNode) : List LNode → List LNode
  | [] => [x]
  | y :: t => if exLt (fp32.val x.depth) (fp32.val y.depth) then x :: y :: t else y :: insertNode x t

/-- One channel under a built-in rule, with its flags (R363). -/
def mergeChannel (rule fa f b : Nat) : Nat × BitVec 7 :=
  if rule = 0 then
    let (k, g) := exAdd .rne (.fin false 1 0) (exNeg (fp16.val fa))
    let (m, h) := exMul k (fp16.val b)
    let (t, u) := exAdd .rne (fp16.val f) m
    let (r, v) := roundTo fp16 .rne t
    (r, if exNan (fp16.val fa) || exNan (fp16.val f) || exNan (fp16.val b) then 0 else g ||| h ||| u ||| v)
  else fAdd fp16 .rne f b

/-- The merged payload of the two deepest nodes (R363). -/
def mergePayload (rule f b : Nat) : Nat × BitVec 7 :=
  if rule = 2 then (f, 0)
  else
    (List.range 4).foldl (fun (x, fl) c =>
      let (r, g) := mergeChannel rule (bits f 63 48) (bits f (16 * c + 15) (16 * c)) (bits b (16 * c + 15) (16 * c))
      (x + r * 2 ^ (16 * c), fl ||| g)) (0, 0)

/-- What performing an FLI gives: its status, the node it returns, the new list, and flags. -/
structure FliOut where
  status : Nat
  ret : Option LNode := none
  list : Option (List LNode) := none
  flags : BitVec 7 := 0
  deriving DecidableEq, Repr

/-- A list over its budget merges its two deepest nodes (R362, R363). The new node has index 2^32 until it gets one. -/
def tailMerge (rule budget : Nat) (old : List LNode) (x : LNode) : FliOut :=
  let l := insertNode x old
  match l[budget - 1]?, l[budget]? with
  | some f, some b =>
    let (pl, fl) := mergePayload rule f.payload b.payload
    let new := x.idx
    let m : LNode := { idx := if f.idx = new then b.idx else f.idx, depth := f.depth, payload := pl }
    let keep := (l.take (budget - 1)).map (fun n => if n.idx = new then { n with idx := b.idx } else n)
    { status := 1, list := some (keep ++ [m]), flags := fl }
  | _, _ => { status := 1 }

/-- FLI on a list that needs no new node (R362). -/
def fliOld (p : Pass) (rt : Bool) (old : List LNode) (depth payload : Nat) : FliOut :=
  let x : LNode := { idx := 2 ^ 32, depth := depth, payload := payload }
  if rt then
    match old.getLast? with
    | some t => { status := 0, list := some (insertNode { x with idx := t.idx } old.dropLast) }
    | none => { status := 0 }
  else if p.merge = 3 then { status := 3, ret := old.getLast? }
  else tailMerge p.merge p.budget old x

/-- The next node that a cluster's port can allocate (R348, R349): a new frame is taken when its own is full. -/
def State.allocNode (s : State) (key : Nat) (p : Pass) (cluster : Nat) : State × Option Nat :=
  let port := lookD p.ports cluster {}
  let give (s : State) (p : Pass) (port : Port) : State × Option Nat :=
    match port.taken.getLast? with
    | some f =>
      ({ s with passes := put s.passes key { p with ports := put p.ports cluster { port with next := port.next + 1 } } },
       some (f * 4096 + port.next))
    | none => (s, none)
  if !port.taken.isEmpty && decide (port.next < 4096) then give s p port
  else if p.imm then
    match s.tryNow p.ctr (coreOfCluster cluster 0) 1 with
    | (s, true) =>
      let f := p.headFrames cluster + p.pages
      give s { p with pages := p.pages + 1 } { taken := port.taken ++ [f], next := 0 }
    | (s, false) => (s, none)
  else
    let f := p.headFrames cluster + port.taken.length
    if f < 3 * p.tpages then give s p { taken := port.taken ++ [f], next := 0 } else (s, none)

/-- Whether a node index is one that a port of a pixel's space has allocated (R349, R364). -/
def Pass.allocated (p : Pass) (cluster n : Nat) : Bool :=
  let own (t : Port) : Bool :=
    t.taken.dropLast.contains (n / 4096) || (t.taken.getLast? == some (n / 4096) && decide (n % 4096 < t.next))
  if p.imm then p.ports.any (fun (_, t) => own t) else own (lookD p.ports cluster {})

/-- What performing an FLI answers. -/
inductive FliDone where
  | ok (o : FliOut)
  | fault (kind va : Nat)
  | empty
  deriving DecidableEq, Repr

/-- Perform one FLI on a pixel's list in one step (R362). -/
def State.fliStep (s : State) (key : Nat) (p : Pass) (rt : Bool) (pixel depth payload : Nat) : State × FliDone :=
  let x := bits pixel 13 0
  let y := bits pixel 27 14
  let cluster := p.clusterOfTile (p.tileOf x y)
  let core := coreOfCluster cluster 0
  match s.listOf p cluster core x y with
  | (s, .error (k, va)) => (s, .fault k va)
  | (s, .ok old) =>
    match s.checkLoc p core 1 (p.headLoc x y) with
    | (s, some (k, va)) => (s, .fault k va)
    | (s, none) =>
      if rt && old.isEmpty then (s, .empty)
      else if !rt && decide (old.length < p.budget) then
        match s.allocNode key p cluster with
        | (s, none) => (s, .ok { status := 2 })
        | (s', some n) =>
          match s'.checkLoc p core 1 (p.nodeLoc cluster n) with
          | (s', some (k, va)) =>
            let back := modKey s'.passes key (fun q => { q with ports := modKey q.ports cluster (fun t => { t with next := t.next - 1 }) })
            ({ s' with passes := back }, .fault k va)
          | (s', none) =>
            let l := insertNode { idx := n, depth := depth, payload := payload } old
            (s'.writeList p cluster core x y l, .ok { status := 0 })
      else
        let o := fliOld p rt old depth payload
        match o.list with
        | some l => (s.writeList p cluster core x y l, .ok o)
        | none => (s, .ok o)

/-- A list operation or ray that holds its lane ends with a trap and writes nothing (R178, R370). -/
def State.trapGfx (s : State) (id : Nat) (g : GfxReq) (t : Trap) : State :=
  let s : State := { s with gfx := del s.gfx id }
  s.takeTrap g.wid [g.lane] g.pc t

/-- A list operation that its port finds at fault: the trap is precise, since it holds its lane (R178, R348, log entry 134); one whose lane is gone
ends. -/
def State.failGfx (s : State) (id : Nat) (g : GfxReq) (t : Trap) : State :=
  if g.gone then { s with gfx := del s.gfx id } else s.trapGfx id g t

/-- The result quad of a list operation is filled, with its flags (R85, R112). -/
def State.fillGfx (s : State) (id : Nat) (g : GfxReq) (x : Nat) (flags : BitVec 7) : State :=
  let s := { s with gfx := del s.gfx id }
  if g.gone then s
  else
    let s := s.deliver id { wid := g.wid, lanes := [(g.lane, wordsFrom g.dst x 4)], flags := [(g.lane, flags)] }
    if g.waits then s.leave g.wid g.lane else s

/-- Whether a list operation may be performed: the operations of one issue reach a pixel by rising lane, those of one lane in program order
(R365). -/
def State.gfxReady (s : State) (id : Nat) (g : GfxReq) : Bool :=
  (match look s.passes g.pass with | some p => p.stored.isNone | none => true) &&
  !s.gfx.any (fun (j, h) => decide (j < id) && h.wid == g.wid && h.pass == g.pass && h.pixel == g.pixel &&
    (h.opc != 0xA5 || h.app) && (h.lane == g.lane || h.instr == g.instr))

/-- A lane's v1 at wave start (R44, R353, R360). -/
def State.startPixel (s : State) (w : Wave) (l : Lane) : Nat :=
  match l.ord with
  | some o => o.pixel.toNat
  | none =>
    match w.kind, s.issuer? l.item with
    | .spawned, some i => (i.arg.setWidth 32).toNat
    | _, _ => 0

/-- A wave's trap for a lane that is not inside its section (R357, R360, R361). -/
def State.notInside (s : State) (w : Wave) (l : Lane) (opc : Nat) : Trap :=
  { orderedTrap l opc 2 0 with i0 := dw (2 * 2 ^ 60 + opc * 2 ^ 52 + s.startPixel w l) }

/-- An FLI.RT that its lane may not make in a pass of MERGE 3: an empty list is its first trap (R343, R361). -/
def State.barGfx (s : State) (id : Nat) (g : GfxReq) (p : Pass) : State :=
  let x := bits g.pixel.toNat 13 0
  let y := bits g.pixel.toNat 27 14
  let cluster := p.clusterOfTile (p.tileOf x y)
  match s.listOf p cluster (coreOfCluster cluster 0) x y with
  | (t, .error (k, va)) => if k = heldKind then s.heldBy t else t.failGfx id g (accTrap k va 8 0)
  | (t, .ok l) =>
    t.failGfx id g (if l.isEmpty then gfxTrap 0xA3 5 g.pixel.toNat else t.notInside (t.waveAt g.wid) (t.laneAt g.wid g.lane) 0xA3)

/-- FLI_PERFORM (R362, R363, R365): a port performs an FLI. -/
def execFliPerform (s : State) : Out :=
  let id := s.occ.id
  match look s.gfx id with
  | none => .next s
  | some g =>
    if g.opc ≠ 0xA3 ∨ s.gfxReady id g = false then .next s
    else
      match look s.passes g.pass with
      | none => .next { s with gfx := del s.gfx id }
      | some p =>
        if !g.inside then .next (s.barGfx id g p)
        else match s.fliStep g.pass p g.rt g.pixel.toNat g.depth.toNat g.payload.toNat with
        | (t, .fault k va) => .next (if k = heldKind then s.heldBy t else t.failGfx id g (accTrap k va 16 1))
        | (s, .empty) => .next (s.failGfx id g (gfxTrap 0xA3 5 g.pixel.toNat))
        | (s, .ok o) =>
          let (d, pl) := match o.ret with
            | some n => (n.depth, n.payload)
            | none => (0, 0)
          .next (s.fillGfx id g (o.status + d * 2 ^ 32 + pl * 2 ^ 64) o.flags)

/-- FLW_PERFORM (R364): a port reads one node. -/
def execFlwPerform (s : State) : Out :=
  let id := s.occ.id
  match look s.gfx id with
  | none => .next s
  | some g =>
    if g.opc ≠ 0xA4 ∨ s.gfxReady id g = false then .next s
    else
      match look s.passes g.pass with
      | none => .next { s with gfx := del s.gfx id }
      | some p =>
        let x := bits g.pixel.toNat 13 0
        let y := bits g.pixel.toNat 27 14
        let cluster := p.clusterOfTile (p.tileOf x y)
        let core := coreOfCluster cluster 0
        let start : State × Except (Nat × Nat) Nat :=
          if g.cursor = 0xFFFFFFFE then
            match s.readLoc p core 8 (p.headLoc x y) with
            | (s, .ok h) => (s, .ok (bits h 31 0))
            | (s, .error e) => (s, .error e)
          else (s, .ok g.cursor.toNat)
        match start with
        | (t, .error (k, va)) => .next (if k = heldKind then s.heldBy t else t.failGfx id g (accTrap k va 8 0))
        | (s, .ok n) =>
          if n = 0xFFFFFFFF then .next (s.fillGfx id g (0xFFFFFFFF + 0x7F800000 * 2 ^ 32) 0)
          else if !p.allocated cluster n then .next (s.failGfx id g (gfxTrap 0xA4 4 g.cursor.toNat))
          else
            match s.readLoc p core 16 (p.nodeLoc cluster n) with
            | (t, .error (k, va)) => .next (if k = heldKind then s.heldBy t else t.failGfx id g (accTrap k va 16 0))
            | (s, .ok v) => .next (s.fillGfx id g (bits v 63 32 + bits v 31 0 * 2 ^ 32 + bits v 127 64 * 2 ^ 64) 0)

/-- Whether a pixel lies outside a pass's target (R361). -/
def Pass.badPixel (p : Pass) (v : Nat) : Bool := decide (p.w ≤ bits v 13 0) || decide (p.h ≤ bits v 27 14) || bits v 31 28 != 0

/-- The handle that a list instruction names (R361, R364, R367). -/
def handleOf (i : Instr) (w : Wave) (l : Lane) : Nat := (w.rw l.level (w2f (fieldsOf i) 5 0)).toNat

/-- What starting a list operation does to its lane: its quad is empty until it is performed, and a lane that its trap could stop waits
(R178, R361). -/
def GfxReq.start (g : GfxReq) (len id : Nat) (l : Lane) : Lane :=
  let l := l.setEmpty g.dst 4 id
  if g.waits then { l with wait := .held id, ilen := len } else l

/-- Start a list operation on one lane (R361). -/
def State.startGfx (s : State) (len : Nat) (g : GfxReq) : State :=
  let (id, s) := s.fresh
  ({ s with gfx := put s.gfx id g } : State).modLane g.wid g.lane (g.start len id)

/-- Whether a lane may merge in a pass: in one of MERGE 3, inside its section (R361). -/
def Pass.mayMerge (p : Pass) (l : Lane) : Bool := p.merge != 3 || l.inside

/-- The insertion that a lane asks for (R361): one that replaces a tail, or whose pages may fault, holds its lane until it is decided (R178,
R348). -/
def fliAsk (i : Instr) (instr : Nat) (c : Issue) (u : Wave) (k key : Nat) (p : Pass) : GfxReq :=
  { opc := 0xA3, waits := (fieldsOf i).w2.getLsbD 8 || p.imm, inside := p.mayMerge (u.lane k), rt := (fieldsOf i).w2.getLsbD 8, wid := c.wid, lane := k, core := u.core, vi := u.vi, pass := key,
    pixel := BitVec.ofNat 32 (opA i u (u.lane k) % 2 ^ 32), depth := BitVec.ofNat 32 (opB i u (u.lane k) % 2 ^ 32),
    payload := dw (opC i u (u.lane k)), instr := instr, pc := c.pc, dst := (fieldsOf i).dst.toNat }

/-- Whether a cursor may turn out to name no node: it names none at issue (R364). -/
def Pass.doubtful (p : Pass) (pixel cursor : Nat) : Bool :=
  cursor != 0xFFFFFFFE && cursor != 0xFFFFFFFF && !p.allocated (p.clusterOfTile (p.tileOf (bits pixel 13 0) (bits pixel 27 14))) cursor

/-- The walk that a lane asks for (R364): one whose pages may fault holds its lane until it is decided (R178, R348). -/
def flwAsk (i : Instr) (instr : Nat) (c : Issue) (u : Wave) (k key : Nat) (p : Pass) : GfxReq :=
  { opc := 0xA4, waits := p.imm || p.doubtful (opA i u (u.lane k) % 2 ^ 32) (opB i u (u.lane k) % 2 ^ 32), wid := c.wid, lane := k, core := u.core, vi := u.vi, pass := key,
    pixel := BitVec.ofNat 32 (opA i u (u.lane k) % 2 ^ 32), cursor := BitVec.ofNat 32 (opB i u (u.lane k)), instr := instr, pc := c.pc,
    dst := (fieldsOf i).dst.toNat }

/-- One lane of FLI (R361). -/
def fliLane (i : Instr) (instr : Nat) (c : Issue) (w : Wave) (d : Done) (k : Nat) : Done :=
  let l := w.lane k
  let h := handleOf i w l
  let px := opA i w l % 2 ^ 32
  let depth := opB i w l % 2 ^ 32
  let bad (t : Trap) : Done := { d with traps := d.traps ++ [(k, t)] }
  match d.s.passOf w.vi h with
  | none => bad (gfxTrap 0xA3 0 h)
  | some (key, p) =>
    if p.badPixel px then bad (gfxTrap 0xA3 1 px)
    else if exNan (fp32.val depth) then bad (gfxTrap 0xA3 2 depth)
    else if !p.mayMerge l && !(fieldsOf i).w2.getLsbD 8 then bad (d.s.notInside w l 0xA3)
    else
      let g := fliAsk i instr c w k key p
      { d with s := d.s.startGfx (wordsOf i) g, stay := if g.waits then k :: d.stay else d.stay }

/-- One lane of FLW (R364). -/
def flwLane (i : Instr) (instr : Nat) (c : Issue) (w : Wave) (d : Done) (k : Nat) : Done :=
  let l := w.lane k
  let h := handleOf i w l
  let px := opA i w l % 2 ^ 32
  let bad (t : Trap) : Done := { d with traps := d.traps ++ [(k, t)] }
  match d.s.passOf w.vi h with
  | none => bad (gfxTrap 0xA4 0 h)
  | some (key, p) =>
    if p.badPixel px then bad (gfxTrap 0xA4 1 px)
    else
      let g := flwAsk i instr c w k key p
      { d with s := d.s.startGfx (wordsOf i) g, stay := if g.waits then k :: d.stay else d.stay }

/-- FLI and FLI.RT (R361). -/
def fliEff (x : Fields) : Eff := fun s c w run =>
    let (instr, s) := s.fresh
    run.foldl (fliLane (.fli x) instr c w) ⟨s, [], []⟩

/-- `fliEff` in the common course of an issue (R178). -/
def execFli (x : Fields) (s : State) : Out := runLanes (.fli x) s (fliEff x)

/-- FLW (R364). -/
def flwEff (x : Fields) : Eff := fun s c w run =>
    let (instr, s) := s.fresh
    run.foldl (flwLane (.flw x) instr c w) ⟨s, [], []⟩

/-- `flwEff` in the common course of an issue (R178). -/
def execFlw (x : Fields) (s : State) : Out := runLanes (.flw x) s (flwEff x)

end Sys2Proof.Machine
end

