-- ==== Sys2Proof/Machine/Passes.lean ====
section
/-!
DEFINITION. Render passes (R345 to R353): RPASS and its checks, DRAW and the reading of its records, the waves that the raster engine and the
resolve phase form, and the close.
-/
namespace Sys2Proof.Machine

/-- A field of a pass descriptor's eight-byte word (R345). -/
def passField (x : List Nat) (i hi lo : Nat) : Nat := bits (x.getD i 0) hi lo

/-- Whether a reserved field of a pass descriptor is not zero (R345). -/
def passReserved (x : List Nat) : Bool :=
  let f := passField x
  f 0 63 57 != 0 || f 0 3 0 != 0 || f 1 63 57 != 0 || f 1 3 0 != 0 || f 2 63 57 != 0 || f 2 2 0 != 0 || f 3 63 57 != 0 || f 3 6 0 != 0 ||
  f 4 63 57 != 0 || f 4 15 0 != 0 || f 5 63 57 != 0 || f 5 2 0 != 0 || f 7 63 60 != 0

/-- The pass that a descriptor describes, without its programs and its slot (R345). -/
def passOfDesc (x : List Nat) (imm : Bool) (part vi : Nat) (level : BitVec 2) : Pass :=
  let f := passField x
  { part := part, vi := vi, gen := 0, imm := imm, level := level, args := dw (f 2 56 3 * 8), ctrVa := dw (f 3 56 7 * 128),
    pool := dw (f 4 56 16 * 0x10000), flag := dw (f 5 56 3 * 8), merge := f 6 63 62, budget := f 6 61 58 + 1, samples := 2 ^ f 6 57 56,
    h := f 6 55 42 + 1, w := f 6 41 28 + 1, tpages := f 6 27 21, tsoff := f 6 20 0,
    clusters := (List.range 60).filter (fun c => bit (f 7 59 0) c) }

/-- The first limit that a pass breaks, as the VALUE of its trap (R346). -/
def State.passLimit (s : State) (p : Pass) (x : List Nat) (flagD : Bool) : Option Nat :=
  let f := passField x
  let outside (c : Nat) : Bool := !(List.range 3).all (fun n => s.coreInPart p.part (coreOfCluster c n))
  if p.frag.width ≠ 64 then some (f 0 56 4)
  else if p.clusters.isEmpty ∨ p.clusters.any outside then some (f 7 59 0)
  else if !p.imm ∧ f 3 56 7 ≠ 0 then some (f 3 56 7)
  else if !p.imm ∧ f 4 56 16 ≠ 0 then some (f 4 56 16)
  else if p.imm ∧ p.tpages ≠ 0 then some p.tpages
  else if p.imm ∧ p.tsoff ≠ 0 then some p.tsoff
  else if !p.imm ∧ (p.tpages = 0 ∨ 24 < p.tpages) then some p.tpages
  else if !p.imm ∧ p.tsoff % 0x10000 ≠ 0 then some p.tsoff
  else if !p.imm ∧ 0x180000 < p.tsoff + p.tpages * 0x10000 then some p.tpages
  else if !p.imm ∧ p.clusters.any (fun c => decide (3 * p.tpages ≤ p.headFrames c)) then some p.tpages
  else if flagD then some (f 5 56 3)
  else none

/-- The first byte of a tile-mode store that may not be part of one (R346). -/
def State.storeFault (s : State) (p : Pass) : Option Nat :=
  if p.imm then none
  else
    let chunks := (List.range (p.tpages * 256)).map (fun k => p.tsoff + 256 * k)
    (p.clusters.flatMap (fun c => (List.range 3).map (coreOfCluster c))).findSome? (fun core =>
      chunks.find? (fun a => !s.areaFree core a 256))

/-- What reading for a held lane answers. -/
inductive LaneRead where
  | ok (bs : List Byte)
  | trap (t : Trap)
  | wait
  deriving DecidableEq, Repr

/-- Read n bytes as a load of a lane, past the accesses that its earlier ones order before it, and those of an engine command that owns a line
(R147, R153, R346). -/
def State.readAsLane (s : State) (wid k : Nat) (w : Wave) (va n : Nat) : State × LaneRead :=
  match s.checkAccess w (w.lane k).level { act := .flush, n := n, acc := 0 } va with
  | (s, .trap t) => (s, .trap t)
  | (s, .page _) => (s, .wait)
  | (s, .ok ps) =>
    let probe (p : Piece) : Op :=
      { act := .load .b4, place := if p.dpage then .dpage else .line, wid := wid, lane := k, core := w.core, pa := p.pa, size := p.n }
    match ps.find? (fun p => !isMemory p.pa) with
    | some p => (s, .trap (accTrap 0x06 p.va n 0))
    | none =>
      if !ps.all (fun p => s.localOk s.nid (probe p)) || ps.any (fun p => s.lineOwned p.pa p.n) then (s, .wait)
      else
        let item := (w.lane k).item
        let bs := ps.flatMap (fun p => (List.range p.n).map (fun j =>
          if p.dpage then s.dByte item (p.pa + j) else s.viewByte wid k w.core s.nid (p.pa + j)))
        (ps.foldl (fun s p => if p.dpage then s.noteRead item p.pa p.n else s) s, .ok bs)

/-- What an attempt to open a pass answers. -/
inductive PassCheck where
  | ready (p : Pass)
  | trap (t : Trap)
  | wait
  deriving DecidableEq, Repr

/-- A descriptor-format fault (R4, R39). -/
def formatTrap (va : Nat) : Trap := { kind := 0x0A, i0 := dw va }

/-- Checks 5 and 6 of R346, for a pass within its limits. -/
def State.checkStore (s : State) (p : Pass) (core : Nat) : State × PassCheck :=
  match s.storeFault p with
  | some a => (s, .trap (accTrap 0x07 a 4 1))
  | none =>
    if !p.imm then (s, .ready p)
    else
      match s.engNow (gfxAgent p.vi core p.level) p.ctrVa.toNat 1 with
      | (s, .error k) => (s, if k = heldKind then .wait else .trap (accTrap k p.ctrVa.toNat 8 1))
      | (s, .ok (pa, _)) =>
        match s.till? (lineOf pa) with
        | some t => (s, if t.byPart then .trap { kind := 0x11, i0 := p.ctrVa } else .ready { p with ctr := lineOf pa })
        | none => (s, .trap { kind := 0x11, i0 := p.ctrVa })

/-- The descriptor's formats and limits, with its two programs read at the level of the pass's waves (R39, R346). -/
def State.checkDesc (s : State) (x : List Nat) (p : Pass) (core va : Nat) (flagD : Bool) : State × PassCheck :=
  if passReserved x then (s, .trap (formatTrap va))
  else
    let (fa, ra) := (passField x 0 56 4 * 16, passField x 1 56 4 * 16)
    match s.readProg p.vi fa p.level with
    | (s, none) => (s, .trap (formatTrap fa))
    | (s, some f) =>
      match s.readProg p.vi ra p.level with
      | (s, none) => (s, .trap (formatTrap ra))
      | (s, some r) =>
        let p := { p with frag := f, resv := r }
        match s.passLimit p x flagD with
        | some v => (s, .trap (gfxTrap 0xA1 3 v))
        | none => s.checkStore p core

/-- Checks 1 to 6 of R346 for the lanes of an RPASS. -/
def State.checkPass (s : State) (a : GfxAsk) (w : Wave) : State × PassCheck :=
  let k := a.lanes.headD 0
  if a.va % 64 ≠ 0 then (s, .trap (accTrap 0x05 a.va 64 0))
  else
    match s.readAsLane a.wid k w a.va 64 with
    | (s, .trap t) => (s, .trap t)
    | (s, .wait) => (s, .wait)
    | (s, .ok bs) =>
      let x := (List.range 8).map (fun i => ofBytes ((bs.drop (8 * i)).take 8))
      match s.checkPieces w (w.lane k).level 8 1 [(passField x 5 56 3 * 8, 8)] with
      | (s, .trap t) => (s, .trap t)
      | (s, .page _) => (s, .wait)
      | (s, .ok ps) =>
        let p := passOfDesc x a.imm ((s.partOf w.vi).getD 64) w.vi (s.startLevel w)
        s.checkDesc x p w.core a.va (ps.any Piece.dpage)

/-- Write every head of a pass as empty (R346, R354): the fault's kind and address when a page of the pool faults. -/
def State.emptyHeads (s : State) (p : Pass) (core : Nat) : State × Option (Nat × Nat) :=
  if p.imm then
    match s.segsNow (portUnit p.vi core p.level) 1 (partsOf p.pool.toNat (8 * p.w * p.h)) with
    | (s, .error e) => (s, some e)
    | (s, .ok gs) =>
      if gs.any (fun g => s.lineOwned g.pa g.n) then (s, some (heldKind, p.pool.toNat))
      else (gs.foldl (fun s g => s.unitWrite p.vi g.pa ((List.range (g.n / 8)).flatMap (fun _ => toBytes 8 0xFFFFFFFF))) s, none)
  else
    let one (c : Nat) (s : State) (b : Nat) : State :=
      match p.frameLoc c (b / 0x10000) (b % 0x10000) with
      | .spad k off => s.fillWords 0 (keysAt k off 2) 0xFFFFFFFF
      | .pool _ => s
    (p.clusters.foldl (fun s c => ((List.range ((p.tilesFor c).length * 4096)).map (fun n => 8 * n)).foldl (one c) s) s, none)

/-- The priority of the passes that a wave opens (R410). -/
def State.passPri (s : State) (w : Wave) : Nat :=
  match w.kind with
  | .fragment | .resolve => (match look s.passes w.pass with | some p => p.pri | none => 0)
  | .boot | .launched | .spawned => (match s.job? w.lid with | some j => j.pri | none => 0)

/-- The launch that a wave's passes count as opened for (R410). -/
def State.passOpener (s : State) (w : Wave) : Nat :=
  match w.kind with
  | .fragment | .resolve => (match look s.passes w.pass with | some p => p.opener | none => 0)
  | .boot | .launched | .spawned => w.lid

/-- Open a checked pass in a slot: its heads, its stores, and the handle in the lanes' DST (R346). -/
def State.openPass (s : State) (id : Nat) (a : GfxAsk) (w : Wave) (p : Pass) (slot : Nat) : State × Option Trap :=
  match s.emptyHeads p w.core with
  | (s, some (k, va)) => (s, some (accTrap k va 8 1))
  | (s, none) =>
    let key := 16 * p.part + slot
    let n := (lookD s.opens key 0 + 1) % 2 ^ 16
    let p := { p with gen := n, pri := s.passPri w, opener := s.passOpener w }
    let s : State := { s with passes := put s.passes key p, opens := put s.opens key n, gfxAsks := del s.gfxAsks id }
    let s := s.modWave a.wid (fun w => { w with w := put w.w a.dst (dw (p.handle key)), we := del w.we a.dst })
    (a.lanes.foldl (fun s k => s.leave a.wid k) s, none)

/-- One attempt of a held RPASS: the lanes that trap (R346, R358). -/
def State.tryAsk (s : State) (id : Nat) : State × List (Nat × Trap) :=
  match look s.gfxAsks id with
  | none => (s, [])
  | some a =>
    match s.wave? a.wid with
    | none => ({ s with gfxAsks := del s.gfxAsks id }, [])
    | some w =>
      if a.draw then (s, [])
      else
        match s.checkPass a w with
        | (s, .trap t) => (s, a.lanes.map (fun k => (k, t)))
        | (s, .wait) => (s, [])
        | (s, .ready p) =>
          match (List.range 16).find? (fun n => !has s.passes (16 * p.part + n)) with
          | some slot =>
            match s.openPass id a w p slot with
            | (m, some t) => if t.kind = heldKind then (s.heldBy m, []) else (m, a.lanes.map (fun k => (k, t)))
            | (s, none) => (s, [])
          | none =>
            let due := if a.due = 0 then s.deadline w.vi else a.due
            let s : State := { s with gfxAsks := put s.gfxAsks id { a with due := due } }
            let s := a.lanes.foldl (fun s k => s.modLane a.wid k (fun l => { l with wait := .graphics due })) s
            let sec := a.lanes.filter (fun k => (w.lane k).inside)
            (s, sec.map (fun k => (k, orderedTrap (w.lane k) 0xA1 4 0)))

/-- Try the RPASS requests that a test names again, the oldest first. -/
def State.settleAsks (s : State) (p : GfxAsk → Bool) : State :=
  s.gfxAsks.foldl (fun s (id, a) =>
    if p a && has s.gfxAsks id then
      let pc := (s.laneAt a.wid (a.lanes.headD 0)).pc
      let (s, ts) := s.tryAsk id
      if ts.isEmpty then s else s.raiseTraps a.wid pc ts
    else s) s

/-- What an RPASS asks for (R345). -/
def passAsk (i : Instr) (c : Issue) (w : Wave) (run : List Nat) : GfxAsk :=
  let l := w.lane (run.headD 0)
  let x := fieldsOf i
  { wid := c.wid, lanes := run, draw := false, imm := (descOf i).sub == 1, va := (w.rw l.level x.sa.toNat).toNat,
    dst := wKey l.level x.dst.toNat }

/-- The part with the lanes of an RPASS held and its request made, under the next fresh identity. -/
def State.askPass (s : State) (i : Instr) (c : Issue) (w : Wave) (run : List Nat) : State :=
  let id := s.nid
  let s := run.foldl (fun s k => s.waitLane c.wid (wordsOf i) k (.graphics 0)) s
  { s with nid := id + 1, gfxAsks := put s.gfxAsks id (passAsk i c w run) }

/-- Hold the lanes of an RPASS and try it (R346). -/
def rpassEff (i : Instr) : Eff := fun s c w run =>
    let (t, ts) := (s.askPass i c w run).tryAsk s.nid
    ⟨t, ts, run⟩

/-- `rpassEff` in the common course of an issue (R178). -/
def rpassOp (i : Instr) (s : State) : Out := runLanes i s (rpassEff i)

/-- RPASS.TILE (R345, R346). -/
def execRpassTile (x : Fields) (s : State) : Out := rpassOp (.rpassTile x) s

/-- RPASS.IMM (R345, R346). -/
def execRpassImm (x : Fields) (s : State) : Out := rpassOp (.rpassImm x) s

/-- The graphics-operand trap that a DRAW takes (R351). -/
def Pass.drawTrap (p : Pass) (a : GfxAsk) : Option Trap :=
  if a.n = 0 ∧ !a.last ∨ 65536 < a.n then some (gfxTrap 0xA0 3 a.n)
  else if 0 < a.n ∧ 2 ^ 64 ≤ a.seq + a.n - 1 then some (gfxTrap 0xA0 8 a.seq)
  else if (match p.lastSeq with | some q => decide (a.seq ≤ q) | none => false) then some (gfxTrap 0xA0 8 a.seq)
  else if p.lastDraw then some (gfxTrap 0xA0 0 a.handle)
  else none

/-- What a DRAW asks for from the pass with a key (R351). -/
def drawAsk (s : State) (x : Fields) (c : Issue) (w : Wave) (run : List Nat) (key : Nat) : GfxAsk :=
  let l := w.lane (run.headD 0)
  let rd (n : Nat) : Nat := (w.rw l.level n).toNat
  { wid := c.wid, lanes := run, draw := true, va := rd x.sa.toNat, handle := rd x.dst.toNat, seq := rd x.sb.toNat, n := bits x.w2.toNat 16 0,
    last := x.w2.getLsbD 31, level := l.level, pass := key, due := s.deadline w.vi, before := s.opsOf (run.map (fun k => (c.wid, k))) }

/-- DRAW (R351): its lanes are held until the raster engine has read every record. -/
def drawEff (x : Fields) : Eff := fun s c w run =>
    let l := w.lane (run.headD 0)
    let h := (w.rw l.level x.dst.toNat).toNat
    let va := (w.rw l.level x.sa.toNat).toNat
    let all (s : State) (t : Trap) : Done := ⟨s, run.map (fun k => (k, t)), []⟩
    if va % 16 ≠ 0 then all s (accTrap 0x05 va 16 0)
    else
      match s.passOf w.vi h with
      | none => all s (gfxTrap 0xA0 0 h)
      | some (key, p) =>
        let a := drawAsk s x c w run key
        match p.drawTrap a with
        | some t => all s t
        | none =>
          let sec := if decide (64 ≤ p.draws.length) then run.filter (fun k => (w.lane k).inside) else []
          let s := run.foldl (fun s k => s.waitLane c.wid (wordsOf (.draw x)) k (.graphics a.due)) s
          ⟨{ s with nid := s.nid + 1, gfxAsks := put s.gfxAsks s.nid a }, sec.map (fun k => (k, orderedTrap (w.lane k) 0xA0 4 0)), run⟩

/-- `drawEff` in the common course of an issue (R178). -/
def execDraw (x : Fields) (s : State) : Out := runLanes (.draw x) s (drawEff x)

/-- Translate the records of a DRAW: the first fault, or the runs of each record (R351). -/
def State.recordSegs (s : State) (c : Cmd) : List Nat → State × Except Trap (List (List Seg))
  | [] => (s, .ok [])
  | va :: t =>
    match s.segsNow c 0 (partsOf va 48) with
    | (s, .error (k, x)) => (s, .error (accTrap k x 48 0))
    | (s, .ok gs) =>
      if gs.any (fun g => s.lineOwned g.pa g.n) then (s, .error { kind := heldKind })
      else if gs.any (fun g => s.poisoned g.pa g.n) then (s, .error { accTrap 0x06 va 48 0 with i2 := 2 })
      else
        match s.recordSegs c t with
        | (s, .ok rs) => (s, .ok (gs :: rs))
        | r => r

/-- The words of a primitive record (R352). -/
def State.recordWords (s : State) (c : Cmd) (gs : List Seg) : State × List Nat :=
  let (s, bs) := s.segBytes c State.deviceByte gs
  (s, (List.range 12).map (fun i => ofBytes ((bs.drop (4 * i)).take 4)))

/-- Read the primitive records of a DRAW (R351, R352). -/
def State.readRecords (s : State) (a : GfxAsk) (w : Wave) : State × Except Trap (List (List Nat)) :=
  let c := { portUnit w.vi w.core a.level with item := (w.lane (a.lanes.headD 0)).item }
  let vas := (List.range a.n).map (fun j => a.va + 48 * j)
  match s.recordSegs c vas with
  | (s, .error t) => (s, .error t)
  | (s, .ok rs) =>
    if (w.kind = .fragment ∨ w.kind = .resolve) ∧ rs.any (fun gs => gs.any Seg.dpage) then (s, .error (accTrap 0x10 a.va 48 0))
    else
      let (s, ws) := rs.foldl (fun ((s, ws) : State × List (List Nat)) gs =>
        let (s, x) := s.recordWords c gs
        (s, ws ++ [x])) (s, ([] : List (List Nat)))
      match (vas.zip ws).find? (fun (_, x) => x.getD 9 0 != 0) with
      | some (va, _) => (s, .error (formatTrap va))
      | none => (s, .ok ws)

/-- Whether the accesses that a DRAW's reads come after are performed (R351). -/
def State.drawBefore (s : State) (before : List Nat) : Bool :=
  before.all (fun j => match look s.ops j with | some o => o.visAt 4 | none => true)

/-- The oldest DRAW that waits at a pass. -/
def State.nextDraw (s : State) (key : Nat) : Option (Nat × GfxAsk) := s.gfxAsks.find? (fun (_, a) => a.draw && a.pass == key)

/-- Whether the oldest DRAW of a pass can be taken (R351). -/
def State.drawDue (s : State) (key : Nat) : Bool :=
  match look s.passes key, s.nextDraw key with
  | some p, some (_, a) => decide (p.draws.length < 64) && p.stored.isNone && s.drawBefore a.before
  | _, _ => false

/-- Take a DRAW into its pass (R351): a DRAW that gives no cluster a wave leaves the queue at once. -/
def State.acceptDraw (s : State) (id : Nat) (a : GfxAsk) (p : Pass) (prims : List (List Nat)) : State :=
  let d : Draw := { seq := a.seq, prims := prims }
  let some_ := p.clusters.any (fun c => !(p.drawWaves d c).isEmpty)
  let p := { p with
    lastSeq := if a.n = 0 then p.lastSeq else some (a.seq + a.n - 1)
    lastDraw := a.last
    draws := if some_ then p.draws ++ [d] else p.draws }
  let s : State := { s with passes := put s.passes a.pass p, gfxAsks := del s.gfxAsks id }
  a.lanes.foldl (fun s k => s.leave a.wid k) s

/-- DRAW_ACCEPT (R351): the raster engine has read every record of the oldest DRAW of a pass, and accepts it. -/
def execDrawAccept (s : State) : Out :=
  let key := s.occ.pass
  if s.drawDue key = false then .next s
  else
    match look s.passes key, s.nextDraw key with
    | some p, some (id, a) =>
      let pc := (s.laneAt a.wid (a.lanes.headD 0)).pc
      let all (s : State) (t : Trap) : Out := .next (s.raiseTraps a.wid pc (a.lanes.map (fun k => (k, t))))
      match p.drawTrap a with
      | some t => all s t
      | none =>
        match s.readRecords a (s.waveAt a.wid) with
        | (m, .error t) => if t.kind = heldKind then .next (s.heldBy m) else all m t
        | (s, .ok prims) => .next (s.acceptDraw id a p prims)
    | _, _ => .next s

/-- Whether the wait of held graphics lanes has run out (R346, R351): a DRAW's only while its queue is full. -/
def State.askExpired (s : State) (a : GfxAsk) : Bool :=
  s.expired a.due && (!a.draw || (match look s.passes a.pass with | some p => decide (64 ≤ p.draws.length) | none => false))

/-- The lanes of a wave's graphics request trap when its wait is over (R346, R351). -/
def State.trapAsk (s : State) (wid id : Nat) (a : GfxAsk) : State :=
  if a.wid = wid ∧ has s.gfxAsks id ∧ s.askExpired a then
    s.raiseTraps a.wid (s.laneAt a.wid (a.lanes.headD 0)).pc (a.lanes.map (fun k => (k, { kind := 0x21, i0 := dw a.handle })))
  else s

/-- GRAPHICS_TIMEOUT (R346, R351): the lanes of an RPASS or DRAW that waits for room take the graphics time-out trap. -/
def execGraphicsTimeout (s : State) : Out := .next (s.gfxAsks.foldl (fun m (id, a) => m.trapAsk s.occ.wid id a) s)

/-- The entry registers w0 to w5 of a fragment or resolve wave (R353). -/
def Pass.entryRegs (p : Pass) (key w1 w5 : Nat) : List (Nat × DWord) := [(0, p.args), (1, dw w1), (4, dw (p.handle key)), (5, dw w5)]

/-- The next wave that the raster engine forms for a cluster: the place of its DRAW, the DRAW and the quads (R353). -/
def Pass.nextFragWave (p : Pass) (cluster : Nat) : Option (Nat × Draw × List Quad) :=
  ((List.range p.draws.length).zip p.draws).findSome? (fun (n, d) =>
    ((p.drawWaves d cluster)[lookD d.formed cluster 0]?).map (fun qs => (n, d, qs)))

/-- Whether a DRAW has formed every wave. -/
def Pass.drawDone (p : Pass) (d : Draw) : Bool := p.clusters.all (fun c => decide ((p.drawWaves d c).length ≤ lookD d.formed c 0))

/-- A cluster's next fragment wave is formed, of quads of the draw n of a pass, and its fragments are registered (R353, R356). -/
def State.formFragments (s : State) (key cl : Nat) (p : Pass) (n : Nat) (d : Draw) (qs : List Quad) : State :=
  let (id, s) := s.fresh
  let lanes := p.fragLanes d qs
  let first := d.seq + (match qs with | (j, _, _) :: _ => j | [] => 0)
  let f : Formed :=
    { kind := .fragment, core := coreOfCluster cl 0, cluster := cl, vi := p.vi, pass := key, order := id, pri := p.pri, lanes := lanes,
      wregs := p.entryRegs key first d.seq, key := dw first, prog := p.frag, level := p.level, quads := qs.length }
  let regs := ((List.range 64).zip lanes).filterMap (fun (k, (o, _)) => if o.cover = 0 then none else some (64 * id + k, o))
  let draws := (modAt (fun d : Draw => { d with formed := put d.formed cl (lookD d.formed cl 0 + 1) }) p.draws n).filter (fun d => !p.drawDone d)
  { s with
    formed := put s.formed id f
    passes := put s.passes key { p with out := p.out ++ regs, draws := draws } }

/-- RASTER_WAVE_FORM (R353, R356): the raster engine forms a cluster's next fragment wave. -/
def execRasterWaveForm (s : State) : Out :=
  let key := s.occ.pass
  let cl := s.occ.n
  match look s.passes key with
  | none => .next s
  | some p =>
    match p.nextFragWave cl with
    | none => .next s
    | some (n, d, qs) => if p.stored.isSome then .next s else .next (s.formFragments key cl p n d qs)

/-- Whether a wave of a pass, of the kind a test accepts, is formed, resident or saved. -/
def State.hasPassWave (s : State) (key : Nat) (p : WaveKind → Bool) : Bool :=
  s.formed.any (fun (_, f) => f.pass == key && p f.kind) || s.waves.any (fun (_, w) => w.pass == key && p w.kind) ||
  s.saved.any (fun (_, x) => x.wave.pass == key && p x.wave.kind)

/-- The kinds of wave that belong to a pass (R353). -/
def isFragment : WaveKind → Bool
  | .fragment => true
  | .boot | .launched | .spawned | .resolve => false
def isPassKind : WaveKind → Bool
  | .fragment | .resolve => true
  | .boot | .launched | .spawned => false

/-- Whether the fragment phase of a pass has ended (R350). -/
def State.fragmentsDone (s : State) (key : Nat) (p : Pass) : Bool :=
  p.lastDraw && p.draws.isEmpty && p.stored.isNone && (s.nextDraw key).isNone && !s.hasPassWave key isFragment &&
  !s.gfx.any (fun (_, g) => g.pass == key && (g.opc != 0xA5 || g.app))

/-- Resolve waves in a tile, and the number of a cluster (R353). -/
def Pass.perTile (p : Pass) : Nat := 4096 / p.resv.width
def Pass.resolveWaves (p : Pass) (cluster : Nat) : Nat := (p.tilesFor cluster).length * p.perTile

/-- The first cluster of a pass whose resolve waves are not all formed. -/
def Pass.nextResolve (p : Pass) : Option Nat := p.clusters.find? (fun c => decide (lookD p.formedTo c 0 < p.resolveWaves c))

/-- A lane of a resolve wave: pixel p of a tile, and its list's COUNT, free where a page of the pool faults (R353). -/
def State.resolveLane (s : State) (p : Pass) (tile pix : Nat) : State × (Ord × List (Nat × Word)) :=
  let x := tile % p.tilesX * 64 + pix % 64
  let y := tile / p.tilesX * 64 + pix / 64
  if p.w ≤ x ∨ p.h ≤ y then (s, unusedLane)
  else
    let (s, n) := match s.readLoc p (coreOfCluster (p.clusterOfTile tile) 0) 8 (p.headLoc x y) with
      | (s, .ok h) => (s, bits h 36 32)
      | (s, .error _) => let (n, s) := s.freeBits 32; (s, n)
    (s, ({ pixel := pixelWord x y }, [(1, pixelWord x y), (2, BitVec.ofNat 32 n)]))

/-- The pass in its resolve phase; the sequence number it resolves at is free when no DRAW of it was accepted (R353). -/
def State.resolveAt (s : State) (p : Pass) : Pass × State :=
  match p.lastSeq with
  | some q => ({ p with resolving := true, lastSeq := some q }, s)
  | none =>
    let (q, s) := s.freeBits 64
    ({ p with resolving := true, lastSeq := some q }, s)

/-- The next resolve wave of a cluster of a pass is formed (R350, R353). -/
def State.formResolve (s : State) (key cl : Nat) (p : Pass) : State :=
  let last := p.lastSeq.getD 0
  let n := lookD p.formedTo cl 0
  let tile := (p.tilesFor cl).getD (n / p.perTile) 0
  let p0 := p.resv.width * (n % p.perTile)
  let (id, s) := s.fresh
  let (s, lanes) := (List.range p.resv.width).foldl (fun (s, ls) k =>
    let (s, l) := s.resolveLane p tile (p0 + k)
    (s, ls ++ [l])) ((s, []) : State × List (Ord × List (Nat × Word)))
  let f : Formed :=
    { kind := .resolve, core := coreOfCluster cl 0, cluster := cl, vi := p.vi, pass := key, order := id, pri := p.pri, lanes := lanes,
      wregs := p.entryRegs key (last + 1) tile, key := dw (last + 1), prog := p.resv, level := p.level }
  { s with formed := put s.formed id f, passes := put s.passes key { p with formedTo := put p.formedTo cl (n + 1) } }

/-- What a list head of the next resolve wave of a cluster that is held leaves: it lies in a line that an engine command owns, or its page is
in transit (R434, R436). -/
def State.resolveHeld (s : State) (cl : Nat) (p : Pass) : Option State :=
  let n := lookD p.formedTo cl 0
  let tile := (p.tilesFor cl).getD (n / p.perTile) 0
  (List.range p.resv.width).findSome? (fun k =>
    let pix := p.resv.width * (n % p.perTile) + k
    let x := tile % p.tilesX * 64 + pix % 64
    let y := tile / p.tilesX * 64 + pix / 64
    if p.w ≤ x ∨ p.h ≤ y then none
    else
      match s.checkLoc p (coreOfCluster cl 0) 0 (p.headLoc x y) with
      | (t, some (k, _)) => if k = heldKind then some t else none
      | (_, none) => none)

/-- RESOLVE_PHASE (R350, R353): the fragment phase has ended, and the pass forms its next resolve wave. -/
def execResolvePhase (s : State) : Out :=
  let key := s.occ.pass
  match look s.passes key with
  | none => .next s
  | some p =>
    if !p.resolving && !s.fragmentsDone key p || p.stored.isSome then .next s
    else
      let (p, m) := s.resolveAt p
      match p.nextResolve with
      | none => .next { m with passes := put m.passes key p }
      | some cl =>
        .next (match m.resolveHeld cl p with
          | some t => s.heldBy t
          | none => m.formResolve key cl p)

/-- Whether every resolve wave of a pass has retired with its list operations and accesses performed (R350). -/
def State.resolvesDone (s : State) (key : Nat) (p : Pass) : Bool :=
  p.resolving && p.nextResolve.isNone && !s.hasPassWave key isPassKind && !s.gfx.any (fun (_, g) => g.pass == key && (g.opc != 0xA5 || g.app)) &&
  s.ops.all (fun (_, o) => o.pass != some key || o.visAt 4)

/-- Give back the pages that a pass took (R350). -/
def State.givePages (s : State) (p : Pass) : State :=
  if p.imm then s.modTill p.ctr (fun t => { t with till := t.till + p.pages, examine := t.examine || !t.queue.isEmpty }) else s

/-- A pass closes: its pages go back, its stores and its slot are free, and FLAG becomes 1; a fault there is record 0x33 (R350). -/
def State.closePass (s : State) (key : Nat) (p : Pass) : State :=
  let s := s.givePages p
  let s : State := { s with passes := del s.passes key }
  let s := match s.partStore p.vi p.flag.toNat (toBytes 8 1) with
    | (s, true) => s
    | (s, false) =>
      s.postLaneless
        { vi := p.vi, word0 := dw (recordWord0 0x33 0 0 0 0 0 0), due := s.deadline p.vi,
          info := { kind := 0x33, i0 := p.flag, i1 := dw (8 + 256), i2 := dw (p.handle key) } }
  s.settleAsks (fun a => !a.draw)

/-- PASS_CLOSE (R350). -/
def execPassClose (s : State) : Out :=
  let key := s.occ.pass
  match look s.passes key with
  | none => .next s
  | some p => if s.resolvesDone key p = false then .next s else .next (s.closePass key p)

end Sys2Proof.Machine
end

