-- ==== Sys2Proof/Machine/OrdSec.lean ====
section
/-!
DEFINITION. The pixel-ordered section (R356 to R360): ORD.ENTER, ORD.LEAVE and the two time-outs.
-/
namespace Sys2Proof.Machine

/-- The trap of ORD in a wave that is not a fragment wave (R357). -/
def State.notFragment (s : State) (w : Wave) (l : Lane) : Trap :=
  { kind := 0x20, i0 := dw (8 * 2 ^ 60 + 0xA2 * 2 ^ 52 + s.startPixel w l) }

/-- One lane of ORD.ENTER (R357). -/
def ordEnterLane (i : Instr) (c : Issue) (w : Wave) (d : Done) (k : Nat) : Done :=
  let l := w.lane k
  let bad (t : Trap) : Done := { d with traps := d.traps ++ [(k, t)] }
  match w.kind, l.ord with
  | .fragment, some o =>
    if o.inside then bad (orderedTrap l 0xA2 0 0)
    else if o.left then bad (orderedTrap l 0xA2 1 0)
    else if (d.s.ordBlockers w.pass o).isEmpty then { d with s := d.s.enterSection c.wid k }
    else { d with s := d.s.waitLane c.wid (wordsOf i) k (.ordEnter (d.s.deadline w.vi)), stay := k :: d.stay }
  | _, _ => bad (d.s.notFragment w l)

/-- ORD.ENTER (R357). -/
def ordEnterEff (i : Instr) : Eff := fun s c w run => run.foldl (ordEnterLane i c w) ⟨s, [], []⟩

/-- `ordEnterEff` in the common course of an issue (R178). -/
def execOrdEnter (x : Fields) (s : State) : Out := runLanes (.ordEnter x) s (ordEnterEff (.ordEnter x))

/-- Whether a lane may leave its section (R357): its list operations are performed, and all that its release covers is visible at device
scope. -/
def State.mayLeave (s : State) (wid k : Nat) : Bool :=
  !s.gfx.any (fun (_, g) => g.wid == wid && g.lane == k && (g.opc == 0xA3 || (g.opc == 0xA5 && g.app))) &&
  (s.releaseSet wid k 0).all (fun j => match look s.ops j with | some o => o.visAt 4 | none => true)

/-- A lane leaves its section (R357). -/
def State.leaveSection (s : State) (wid k : Nat) : State :=
  let s := s.modLane wid k (fun l => { l with ord := l.ord.map (fun o => { o with inside := false, left := true, due := 0 }) })
  (s.addFence wid k .rel 4 (s.releaseSet wid k 0)).dropFragment wid k

/-- One lane of ORD.LEAVE (R357). -/
def ordLeaveLane (i : Instr) (c : Issue) (w : Wave) (d : Done) (k : Nat) : Done :=
  let l := w.lane k
  let bad (t : Trap) : Done := { d with traps := d.traps ++ [(k, t)] }
  if w.kind ≠ .fragment then bad (d.s.notFragment w l)
  else if !l.inside then bad (orderedTrap l 0xA2 2 0)
  else if d.s.mayLeave c.wid k then { d with s := d.s.leaveSection c.wid k }
  else { d with s := d.s.waitLane c.wid (wordsOf i) k .ordLeave, stay := k :: d.stay }

/-- ORD.LEAVE (R357). -/
def ordLeaveEff (i : Instr) : Eff := fun s c w run => run.foldl (ordLeaveLane i c w) ⟨s, [], []⟩

/-- `ordLeaveEff` in the common course of an issue (R178). -/
def execOrdLeave (x : Fields) (s : State) : Out := runLanes (.ordLeave x) s (ordLeaveEff (.ordLeave x))

/-- The lanes of a core that wait in ORD.LEAVE and may leave do so (R357). -/
def State.settleLeaves (s : State) (core : Nat) : State :=
  s.waves.foldl (fun s (wid, w) =>
    if w.core = core ∧ w.kind = .fragment then
      w.idx.foldl (fun s k =>
        if (s.laneAt wid k).wait = .ordLeave ∧ s.mayLeave wid k then (s.leaveSection wid k).leave wid k else s) s
    else s) s

/-- Raise a trap on a lane, or hold it until the lane can take it: after its handler, or after its record is written (R359). -/
def State.raiseNow (s : State) (wid k : Nat) (t : Trap) : State :=
  let l := s.laneAt wid k
  let busy := l.inh || (match l.wait with | .record _ | .restart | .stopped => true | _ => false)
  if busy then s.modLane wid k (fun l => { l with due := l.due ++ [t] }) else s.takeTrap wid [k] l.pc t

/-- ORD_ENTRY_TIMEOUT (R359): a lane waiting in ORD.ENTER takes the ordered-section trap with the lowest sequence number in its way. -/
def execOrdEntryTimeout (s : State) : Out :=
  let wid := s.occ.wid
  let k := s.occ.lane
  let w := s.waveAt wid
  let l := w.lane k
  match l.wait, l.ord with
  | .ordEnter due, some o =>
    if s.expired due then
      let bs := s.ordBlockers w.pass o
      let low := bs.foldl min (bs.headD 0)
      .next ((s.modLane wid k (fun l => { l with wait := .ordEnter 0 })).raiseNow wid k (orderedTrap l 0xA2 7 low))
    else .next s
  | _, _ => .next s

/-- ORD_SECTION_TIMEOUT (R359): a lane inside its section takes the trap at its current program counter, once. -/
def execOrdSectionTimeout (s : State) : Out :=
  let wid := s.occ.wid
  let k := s.occ.lane
  let w := s.waveAt wid
  let l := w.lane k
  match l.ord with
  | some o =>
    if o.inside && s.expired o.due then
      let t := orderedTrap l (descOf (s.peek w l)).opc 6 0
      .next ((s.modLane wid k (fun l => { l with ord := some { o with due := 0 } })).raiseNow wid k t)
    else .next s
  | none => .next s

end Sys2Proof.Machine
end

