-- ==== Sys2Proof/Machine/Rays.lean ====
section
/-!
DEFINITION. Rays (R366 to R370): exact intersection, the traversal, RAYQ and RAYQ.APP.
-/
namespace Sys2Proof.Machine

/-- A vector of exact values. -/
structure Vec3 where
  x : Ex
  y : Ex
  z : Ex
  deriving DecidableEq, Repr

def Vec3.sub (a b : Vec3) : Vec3 := { x := exSub a.x b.x, y := exSub a.y b.y, z := exSub a.z b.z }
def Vec3.dot (a b : Vec3) : Ex := exPlus (exPlus (exTimes a.x b.x) (exTimes a.y b.y)) (exTimes a.z b.z)
def Vec3.cross (a b : Vec3) : Vec3 :=
  { x := exSub (exTimes a.y b.z) (exTimes a.z b.y)
    y := exSub (exTimes a.z b.x) (exTimes a.x b.z)
    z := exSub (exTimes a.x b.y) (exTimes a.y b.x) }
def Vec3.finite (a : Vec3) : Bool := exFinite a.x && exFinite a.y && exFinite a.z

/-- A vector of FP32 words. -/
def vecOf (x : List Nat) (i : Nat) : Vec3 :=
  { x := fp32.val (x.getD i 0), y := fp32.val (x.getD (i + 1) 0), z := fp32.val (x.getD (i + 2) 0) }

/-- A fraction with a positive denominator. -/
structure Frac where
  n : Ex
  d : Ex
  deriving DecidableEq, Repr

/-- A whole value, and a quotient by a denominator that is not zero. -/
def Frac.whole (x : Ex) : Frac := { n := x, d := .fin false 1 0 }
def Frac.of (n d : Ex) : Frac := if exSgn d < 0 then { n := exNeg n, d := exNeg d } else { n := n, d := d }

def Frac.lt (a b : Frac) : Bool := exLt (exTimes a.n b.d) (exTimes b.n a.d)
def Frac.le (a b : Frac) : Bool := !b.lt a

/-- A fraction rounded once; zero is +0 (R368). -/
def Frac.round (f : Fmt) (a : Frac) : Nat × BitVec 7 :=
  if exSgn a.n = 0 then (0, 0) else finish f .rne (exDiv a.n a.d)

/-- A ray (R367). -/
structure Ray where
  o : Vec3
  d : Vec3
  tmin : Ex
  tmax : Ex
  deriving DecidableEq, Repr

def rayOf (x : List Nat) : Ray := { o := vecOf x 0, d := vecOf x 3, tmin := fp32.val (x.getD 6 0), tmax := fp32.val (x.getD 7 0) }

/-- Whether a ray can meet anything (R368); one from or toward infinity has no points. -/
def Ray.meets (r : Ray) : Bool :=
  r.o.finite && r.d.finite && !exNan r.tmin && !exNan r.tmax && !exLt r.tmax r.tmin &&
  !(exSgn r.d.x == 0 && exSgn r.d.y == 0 && exSgn r.d.z == 0)

/-- The part of a range of t in which one coordinate lies between two bounds (R368). -/
def clipAxis (o d lo hi : Ex) (t : Option (Frac × Frac)) : Option (Frac × Frac) :=
  match t with
  | none => none
  | some (a, b) =>
    if exNan lo || exNan hi || exLt hi lo then none
    else if exSgn d = 0 then (if exLt o lo || exLt hi o then none else some (a, b))
    else
      let p := Frac.of (exSub lo o) d
      let q := Frac.of (exSub hi o) d
      let (p, q) := if exSgn d < 0 then (q, p) else (p, q)
      let a := if a.lt p then p else a
      let b := if q.lt b then q else b
      if b.lt a then none else some (a, b)

/-- Whether a ray's segment meets a closed box of six words (R368). -/
def Ray.hitsBox (r : Ray) (x : List Nat) (i : Nat) : Bool :=
  let lo := vecOf x i
  let hi := vecOf x (i + 3)
  (clipAxis r.o.z r.d.z lo.z hi.z (clipAxis r.o.y r.d.y lo.y hi.y (clipAxis r.o.x r.d.x lo.x hi.x
    (some (.whole r.tmin, .whole r.tmax))))).isSome

/-- A triangle that a ray hits. -/
structure Hit where
  t : Frac
  b1 : Frac
  b2 : Frac
  prim : Nat
  leaf : Nat
  deriving DecidableEq, Repr

/-- The hit of a ray on a leaf's triangle (R366, R368). -/
def Ray.hitsLeaf (r : Ray) (x : List Nat) (leaf : Nat) : Option Hit :=
  let v0 := vecOf x 0
  let v1 := vecOf x 3
  let v2 := vecOf x 6
  if !(v0.finite && v1.finite && v2.finite) then none
  else
    let e1 := v1.sub v0
    let e2 := v2.sub v0
    let p := r.d.cross e2
    let det := e1.dot p
    if exSgn det = 0 then none
    else
      let s := r.o.sub v0
      let q := s.cross e1
      let b1 := Frac.of (s.dot p) det
      let b2 := Frac.of (r.d.dot q) det
      let t := Frac.of (e2.dot q) det
      let sum := Frac.of (exPlus (s.dot p) (r.d.dot q)) det
      let one := Frac.whole (.fin false 1 0)
      if exSgn b1.n < 0 ∨ exSgn b2.n < 0 ∨ one.lt sum = true ∨ t.lt (.whole r.tmin) = true ∨ (Frac.whole r.tmax).lt t = true then none
      else some { t := t, b1 := b1, b2 := b2, prim := x.getD 9 0, leaf := leaf }

/-- Whether a hit comes before another (R368). -/
def Hit.before (a b : Hit) : Bool :=
  a.t.lt b.t || (!b.t.lt a.t && (decide (a.prim < b.prim) || (a.prim == b.prim && decide (a.leaf < b.leaf))))

/-- Insert a hit in order. -/
def insertHit (h : Hit) : List Hit → List Hit
  | [] => [h]
  | x :: t => if h.before x then h :: x :: t else x :: insertHit h t

/-- What a traversal answers. -/
inductive RayDone where
  | hits (l : List Hit)
  | trap (t : Trap)
  | wait
  deriving DecidableEq, Repr

/-- Whether a node's references and reserved words are as its format asks (R366). -/
def nodeOk (leaf : Bool) (x : List Nat) : Bool :=
  let kind (i : Nat) : Nat := bits (x.getD i 0) 31 30
  if leaf then (kind 10 == 1 || kind 10 == 2) && (x.drop 11).all (fun v => v == 0)
  else kind 12 != 3 && kind 13 != 3 && (x.drop 14).all (fun v => v == 0)

/-- A reference that a node gives, as (whether it is a leaf, index). -/
def refOf (v : Nat) : List (Bool × Nat) := if bits v 31 30 = 2 then [] else [(bits v 31 30 == 1, bits v 29 0)]

/-- Visit the nodes on a work list, at most so many (R366, R368, R370). -/
def State.traverse (s : State) (g : GfxReq) (w : Wave) (r : Ray) : Nat → List (Bool × Nat) → List Hit → State × RayDone
  | _, [], hs => (s, .hits hs)
  | 0, _ :: _, _ => (s, .trap (gfxTrap 0xA5 6 0))
  | n + 1, (leaf, i) :: rest, hs =>
    let va := (g.base.toNat + 64 * i) % 2 ^ 64
    match s.readAsLane g.wid g.lane w va 64 with
    | (s, .trap t) => (s, .trap t)
    | (s, .wait) => (s, .wait)
    | (s, .ok bs) =>
      let x := (List.range 16).map (fun j => ofBytes ((bs.drop (4 * j)).take 4))
      if !nodeOk leaf x then (s, .trap (formatTrap va))
      else if leaf then
        let hs := match r.hitsLeaf x i with
          | some h => insertHit h hs
          | none => hs
        s.traverse g w r n (refOf (x.getD 10 0) ++ rest) hs
      else
        let a := if r.hitsBox x 0 then refOf (x.getD 12 0) else []
        let b := if r.hitsBox x 6 then refOf (x.getD 13 0) else []
        s.traverse g w r n (a ++ b ++ rest) hs

/-- The result of RAYQ, with its flags (R368). -/
def rayResult : List Hit → Nat × BitVec 7
  | [] => (0x7F800000 + 0xFFFFFFFF * 2 ^ 32, 0)
  | h :: _ =>
    let (t, ft) := h.t.round fp32
    let (a, fa) := h.b1.round fp32
    let (b, fb) := h.b2.round fp32
    (t + h.prim * 2 ^ 32 + a * 2 ^ 64 + b * 2 ^ 96, ft ||| fa ||| fb)

/-- Append hits to a pixel's list (R369): the counts by status and the flags, or the fault. -/
def State.appendHits (s : State) (g : GfxReq) : List Hit → List Nat → BitVec 7 → State × Except (Nat × Nat) (List Nat × BitVec 7)
  | [], cs, fl => (s, .ok (cs, fl))
  | h :: t, cs, fl =>
    match look s.passes g.pass with
    | none => (s, .ok (cs, fl))
    | some p =>
      let (d, fd) := h.t.round fp32
      let (a, fa) := h.b1.round bf16
      let (b, fb) := h.b2.round bf16
      match s.fliStep g.pass p false g.pixel.toNat d (h.prim + a * 2 ^ 32 + b * 2 ^ 48) with
      | (s, .fault k va) => (s, .error (k, va))
      | (s, .empty) => s.appendHits g t cs fl
      | (s, .ok o) => s.appendHits g t (modAt (fun n => n + 1) cs o.status) (fl ||| fd ||| fa ||| fb ||| o.flags)

/-- A ray ends with its result (R367): DST is full, and the lane goes on. -/
def State.endRay (s : State) (id : Nat) (g : GfxReq) (x : Nat) (fl : BitVec 7) : State :=
  let s : State := { s with gfx := del s.gfx id }
  ((s.putV g.wid g.lane g.dst 4 x).raise g.wid fl).leave g.wid g.lane

/-- Whether a ray's turn has come (R365). -/
def State.rayReady (s : State) (id : Nat) (g : GfxReq) : Bool := !g.app || s.gfxReady id g

/-- RAY_TRAVERSAL (R368 to R370): a ray visits its nodes, and writes its result or appends its hits. -/
def execRayTraversal (s : State) : Out :=
  let id := s.occ.id
  match look s.gfx id with
  | none => .next s
  | some g =>
    if g.opc ≠ 0xA5 ∨ s.rayReady id g = false then .next s
    else if g.gone then .next { s with gfx := del s.gfx id }
    else
      let w := s.waveAt g.wid
      let r := rayOf (g.ray.map BitVec.toNat)
      let found := if r.meets then s.traverse g w r 1048576 [(false, 0)] [] else (s, .hits [])
      match found with
      | (s, .wait) => .next s
      | (s, .trap t) => .next (s.trapGfx id g t)
      | (s, .hits hs) =>
        if !g.app then
          let (x, fl) := rayResult hs
          .next (s.endRay id g x fl)
        else
          match s.appendHits g hs [0, 0, 0] 0 with
          | (t, .error (k, va)) => .next (if k = heldKind then s.heldBy t else t.trapGfx id g (accTrap k va 16 1))
          | (s, .ok (cs, fl)) =>
            .next (s.endRay id g (hs.length + cs.getD 0 0 * 2 ^ 32 + cs.getD 1 0 * 2 ^ 64 + cs.getD 2 0 * 2 ^ 96) fl)

/-- The ray that a lane asks for (R367). -/
def rayAsk (i : Instr) (app : Bool) (instr : Nat) (c : Issue) (u : Wave) (k : Nat) : GfxReq :=
  { opc := 0xA5, app := app, wid := c.wid, lane := k, core := u.core, vi := u.vi, dst := (fieldsOf i).dst.toNat,
    ray := (List.range 8).map (fun n => (u.lane k).rv ((fieldsOf i).sa.toNat + n)),
    base := dw (u.rw (u.lane k).level (fieldsOf i).sb.toNat).toNat, instr := instr, pc := c.pc, level := (u.lane k).level }

/-- Hold a lane in a ray. -/
def State.startRay (s : State) (c : Issue) (len : Nat) (g : GfxReq) : State :=
  let (id, s) := s.fresh
  ({ s with gfx := put s.gfx id g } : State).waitLane c.wid len g.lane (.held id)

/-- One lane of RAYQ or RAYQ.APP (R367, R369). -/
def rayLane (i : Instr) (app : Bool) (instr : Nat) (c : Issue) (w : Wave) (d : Done) (k : Nat) : Done :=
  let l := w.lane k
  let x := fieldsOf i
  let base := (w.rw l.level x.sb.toNat).toNat
  let bad (t : Trap) : Done := { d with traps := d.traps ++ [(k, t)] }
  let g := rayAsk i app instr c w k
  let go (g : GfxReq) : Done := { d with s := d.s.startRay c (wordsOf i) g, stay := k :: d.stay }
  if base % 64 ≠ 0 then bad (accTrap 0x05 base 64 0)
  else if !app then go g
  else
    let h := handleOf i w l
    let px := (l.rv x.sc.toNat).toNat
    match d.s.passOf w.vi h with
    | none => bad (gfxTrap 0xA5 0 h)
    | some (key, p) =>
      if p.merge = 3 then bad (gfxTrap 0xA5 7 p.merge)
      else if p.badPixel px then bad (gfxTrap 0xA5 1 px)
      else go { g with pass := key, pixel := BitVec.ofNat 32 px }

/-- RAYQ (R367, R368). -/
def rayqEff (x : Fields) : Eff := fun s c w run =>
    let (instr, s) := s.fresh
    run.foldl (rayLane (.rayq x) false instr c w) ⟨s, [], []⟩

/-- `rayqEff` in the common course of an issue (R178). -/
def execRayq (x : Fields) (s : State) : Out := runLanes (.rayq x) s (rayqEff x)

/-- RAYQ.APP (R367, R369). -/
def rayqAppEff (x : Fields) : Eff := fun s c w run =>
    let (instr, s) := s.fresh
    run.foldl (rayLane (.rayqApp x) true instr c w) ⟨s, [], []⟩

/-- `rayqAppEff` in the common course of an issue (R178). -/
def execRayqApp (x : Fields) (s : State) : Out := runLanes (.rayqApp x) s (rayqAppEff x)

end Sys2Proof.Machine
end

