-- ==== Sys2Proof/Machine/Slice.lean ====
section
/-!
DEFINITION. Partitions in time (R405, R411 to R413, R417): pending work, slices and debt, pre-emption requests, the switch to the next
interface, and the occupancy bitmap of a save pool.
-/
namespace Sys2Proof.Machine

/-- Whether an interface is assigned to a partition and not stopped (R400, R405). -/
def State.active (s : State) (vi : Nat) : Bool := (s.partOf vi).isSome && !s.stopped vi

/-- The commands of an interface that are accepted and not complete (R406). -/
def State.acceptedCount (s : State) (vi : Nat) : Nat := (s.jobs.filter (fun (_, j) => j.vi == vi)).length

/-- Whether the scheduler can read a command of an interface (R406). -/
def State.canRead (s : State) (vi : Nat) : Bool :=
  s.active vi && !s.cqHeld.contains vi && s.sysBits 0x209 vi 31 0 != s.sysBits 0x20A vi 31 0 && decide (s.acceptedCount vi < 64)

/-- Whether an interface has pending work (R412); an accepted launch counts before its start as well, since it starts only while its interface
holds the partition (R409, log entry 79). -/
def State.pendingWork (s : State) (vi : Nat) : Bool :=
  s.active vi && (s.canRead vi || s.jobs.any (fun (_, j) => j.vi == vi && !j.isCancel) || s.saved.any (fun (_, x) => x.wave.vi == vi))

/-- The interfaces of a partition that have pending work, cyclically from the one after another (R412). -/
def State.candidates (s : State) (p after : Nat) : List Nat :=
  ((List.range 64).map (fun k => (after + 1 + k) % 64)).filter (fun v => s.partOf v == some p && s.pendingWork v)

/-- The holder of an interface's partition. -/
def State.holds (s : State) (vi : Nat) : Bool :=
  match s.partOf vi with
  | some p => !s.stopped vi && (match look s.holders p with | some h => h.vi == vi && !h.ending | none => false)
  | none => false

/-- Whether an interface may have a wave placed at a core now: it holds its partition, which is enabled and has the core (R404, R410). -/
def State.mayPlace (s : State) (vi core : Nat) : Bool := s.holds vi && s.coreOfVi vi core

/-- The resident waves of an interface on a partition. -/
def State.wavesIn (s : State) (p vi : Nat) : List (Nat × Wave) := s.waves.filter (fun (_, w) => w.vi == vi && s.coreInPart p w.core)

/-- Request the pre-emption of a wave (R413). -/
def State.requestSave (s : State) (wid : Nat) (w : Wave) : State :=
  s.modWave wid (fun x => { x with pending := true, asked := (s.coreAt w.core).cycle })

/-- SYS.VISCHED.SLICE, of which 0 acts as 1 (R411). -/
def State.sliceOf (s : State) (vi : Nat) : Nat := max 1 (s.sysBits 0x202 vi 63 32)

/-- The holder's slice ends (R412): its debt is repaid, and its waves are asked to save. -/
def State.endSlice (s : State) (p : Nat) : State :=
  match look s.holders p with
  | none => s
  | some h =>
    if h.ending then s
    else
      let debt := s.sysBits 0x203 h.vi 31 0
      let s := s.sysSetBits 0x203 h.vi 31 0 (if s.sliceOf h.vi ≤ debt then debt - s.sliceOf h.vi else 0)
      let s : State := { s with holders := put s.holders p { h with ending := true, asked := s.gt } }
      (s.wavesIn p h.vi).foldl (fun s (wid, w) => s.requestSave wid w) s

/-- A slice starts: it runs for SLICE less the debt (R412). -/
def State.startSlice (s : State) (p vi : Nat) : State :=
  { s with holders := put s.holders p { vi := vi, stop := s.gt + (s.sliceOf vi - s.sysBits 0x203 vi 31 0) } }

/-- The words of a tile-mode pass's stores (R346). -/
def Pass.storeKeys (p : Pass) : List (Nat × Nat) :=
  (p.clusters.flatMap (fun c => (List.range 3).map (coreOfCluster c))).map (fun core =>
    (wordKey core p.tsoff, wordKey core p.tsoff + p.tpages * 0x4000))

/-- Save the stores of an interface's passes (R412). -/
def State.saveStores (s : State) (vi : Nat) : State :=
  { s with passes := s.passes.map (fun ((k, p) : Nat × Pass) =>
      (k, if p.vi == vi && !p.imm && p.stored.isNone then
        { p with stored := some (s.spad.filter (fun (a, _) => p.storeKeys.any (fun (lo, hi) => decide (lo ≤ a) && decide (a < hi)))) }
      else p)) }

/-- Whether a pass's saved stores can be put back: their banks are in scratchpad mode, and nothing lies there. -/
def State.storesFit (s : State) (p : Pass) : Bool := (s.storeFault p).isNone

/-- Put the saved stores of a pass back (R412). -/
def State.restoreStores (s : State) (key : Nat) (p : Pass) : State :=
  match p.stored with
  | none => s
  | some ws =>
    let rest := s.spad.filter (fun (a, _) => !p.storeKeys.any (fun (lo, hi) => decide (lo ≤ a) && decide (a < hi)))
    { s with spad := ws.foldl (fun m (a, w) => put m a w) rest, passes := put s.passes key { p with stored := none } }

/-- The passes of a partition's holder whose stores can be put back. -/
def State.restorable (s : State) (p : Nat) : List (Nat × Pass) :=
  match look s.holders p with
  | some h => if h.ending then [] else s.passes.filter (fun (_, q) => q.vi == h.vi && q.stored.isSome && s.storesFit q)
  | none => []

/-- The restores of an interface that leaves its partition no longer wait for their claims (R313, R412). -/
def State.giveUpClaims (s : State) (vi : Nat) : State :=
  { s with saved := s.saved.map (fun ((wid, x) : Nat × Saved) => (wid, if x.wave.vi == vi then { x with asked := none } else x)) }

/-- The partition goes to the next interface with pending work (R412); the overrun is added to the debt of the one before. -/
def State.handOver (s : State) (p : Nat) (h : Holder) : State :=
  let debt := s.sysBits 0x203 h.vi 31 0 + (s.gt - h.asked)
  let s := s.sysSetBits 0x203 h.vi 31 0 (min debt (2 ^ 32 - 1))
  match (s.candidates p h.vi).head? with
  | none => { s with holders := put s.holders p { h with ending := false, stop := s.gt } }
  | some v =>
    if v = h.vi then s.startSlice p v else ((s.saveStores h.vi).giveUpClaims h.vi).startSlice p v

/-- Whether a holder has a debt and is the only interface of its partition with pending work: the debt is then set to 0 (R412). -/
def State.soleDebt (s : State) (p : Nat) (h : Holder) : Bool :=
  s.sysBits 0x203 h.vi 31 0 != 0 && !(s.candidates p h.vi).isEmpty && (s.candidates p h.vi).all (fun v => v == h.vi)

/-- Whether a partition's slice, its saves or its stores call for a step (R412). -/
def State.sliceDue (s : State) (p : Nat) : Bool :=
  s.sysBits 0x200 p 63 63 == 1 &&
  (match look s.holders p with
   | none => !(s.candidates p 63).isEmpty
   | some h =>
     if h.ending then (s.wavesIn p h.vi).isEmpty
     else (decide (h.stop ≤ s.gt) && !(s.candidates p h.vi).isEmpty) || !(s.restorable p).isEmpty || s.soleDebt p h)

/-- TIME_SLICE_END (R412): a partition's first holder is chosen, a holder keeps the partition or its slice ends, or the partition goes on to
the next interface once the last wave is saved; and the new holder's stores are put back. -/
def execTimeSliceEnd (s : State) : Out :=
  let p := s.occ.part
  if s.sliceDue p = false then .next s
  else
    match look s.holders p with
    | none =>
      match (s.candidates p 63).head? with
      | some v => .next (s.startSlice p v)
      | none => .next s
    | some h =>
      if h.ending then .next (s.handOver p h)
      else
        match (s.restorable p).head? with
        | some (key, q) => .next (s.restoreStores key q)
        | none =>
          if (s.candidates p h.vi).all (fun v => v == h.vi) then
            let t := s.sysSetBits 0x203 h.vi 31 0 0
            .next (if h.stop ≤ s.gt then t.startSlice p h.vi else t)
          else .next (s.endSlice p)

/-- VISTOP (R412): an interface ends its own slice at once. -/
def State.viStop (s : State) (vi : Nat) : State :=
  match s.partOf vi with
  | some p => if s.holds vi then s.endSlice p else s
  | none => s

/-- The event VISTOP (R412). -/
def execVistop (s : State) : Out := .next (s.viStop s.occ.vi)

/-- The save pool of an interface (R417): its address, and the address of a slot's image. -/
def State.poolVa (s : State) (vi : Nat) : Nat := s.sysBits 0x205 vi 56 22 * 2 ^ 22
def State.imageVa (s : State) (vi slot : Nat) : Nat := s.poolVa vi + 2 ^ 22 * (slot + 1)

/-- The interface's pool fails it (R417): the kind in the latch is free. -/
def State.poolFault (s : State) (vi : Nat) : State :=
  let (k, s) := s.freeBits 8
  s.fatal vi k

/-- The occupancy bitmap of a pool, when its page can be read (R417). -/
def State.poolBits (s : State) (vi : Nat) : State × Option Nat := s.partNum vi (s.poolVa vi) (s.sysBits 0x205 vi 12 0 / 8 + 1) 1

/-- Set or clear the bit of a slot (R417); false when the page faults. -/
def State.markSlot (s : State) (vi slot : Nat) (used : Bool) : State × Bool :=
  let va := s.poolVa vi + slot / 8
  match s.partNum vi va 1 1 with
  | (s, none) => (s, false)
  | (s, some b) => s.partStore vi va (toBytes 1 (setBits b (slot % 8) (slot % 8) (bCode used)))

end Sys2Proof.Machine
end

