-- ==== Sys2Proof/Machine/Reset.lean ====
section
/-!
DEFINITION. Resets (R453), the thermal trip (R464), the loss of a peer (R448), and the loss of power (R463).
-/
namespace Sys2Proof.Machine

/-- The state right after a reset, with what survives every reset: the lifetime histograms, and what the model keeps of its own (R453). -/
def State.afterReset (s : State) : State :=
  { State.reset with
    ctr := s.ctr, nid := s.nid, inputs := s.inputs, out := s.out, hist := s.hist, histSaved := s.histSaved, seconds := s.seconds,
    corrected := s.corrected, fabricDown := s.fabricDown }

/-- A cold reset (R453): everything else starts again, and power is there; TRIP is 1 after a thermal trip's (DESIGN CHOICE, log entry 146). -/
def State.coldStart (s : State) (trip : Bool) : State :=
  let s := s.afterReset
  if trip then s.sysPut 0x404 0xFF (setBits (sysReset 0x404 0xFF) 0 0 1) else s

/-- A warm reset (R453): as cold, but GT, SYS.GTSYNC and both memory tiers keep their values; COLD and TRIP are 0 after it (DESIGN CHOICE, log entry 146).
-/
def State.warmStart (s : State) : State :=
  let r := { s.afterReset with
    gt := s.gt, mem := s.mem, poison := s.poison, ptpRun := s.ptpRun, second := s.second, tenMinutes := s.tenMinutes }
  (r.sysPut 0x400 0xFF 0).sysPut 0x4C4 0xFF (s.sysAt 0x4C4 0xFF)

/-- COLD_RESET (R453). -/
def execColdReset (s : State) : Out := .next (s.coldStart false)

/-- WARM_RESET (R453). -/
def execWarmReset (s : State) : Out := .next s.warmStart

/-- THERMAL_TRIP (R464): at 110 degrees Celsius every interface stops as under R400, the fatal interrupt is raised, and a cold reset follows. -/
def execThermalTrip (s : State) : Out :=
  if s.occ.index < 110 then .next s
  else
  let s := (List.range 64).foldl (fun s vi => s.stopVi vi) s
  .next (s.fatalInterrupt.coldStart true)

/-- POWER_LOSS (R463): nothing runs until the next cold reset; the histograms since the last write to module storage are lost. -/
def execPowerLoss (s : State) : Out :=
  .next { s with power := false, hist := s.histSaved, issues := [], cur := none }

/-- Every register whose instance is the virtual interface goes back to its reset value (R453). -/
def State.resetRegs (s : State) (vi : Nat) : State :=
  { s with sys := s.sys.filter (fun (k, _) =>
      !(k % 256 == vi && (match sysReg? (k / 256) with | some r => r.inst == .vi | none => false))) }

/-- An interface reset (R453): its waves are killed, its saved images and open passes are dropped with their bits in the occupancy bitmap, a page
of which that faults fails the pool (R417), and its commands are forgotten with everything they started. -/
def State.resetVi (s : State) (vi : Nat) : State :=
  let s := (s.waves.filter (fun (_, w) => w.vi == vi)).foldl (fun s (wid, _) => s.killWave wid 2) s
  let slots := (s.saved.filter (fun (_, x) => x.wave.vi == vi)).map (fun (_, x) => x.slot) ++
    (s.dropped.filter (fun x => x.1 == vi)).map Prod.snd
  let s := slots.foldl (fun s n => match s.markSlot vi n false with | (s, true) => s | (s, false) => s.poolFault vi) s
  let s := (s.jobs.filter (fun (_, j) => j.vi == vi && j.started)).foldl (fun s (_, j) => s.endCounter j.sctrPa) s
  let mine (p : Nat) : Bool := match look s.passes p with | some q => q.vi == vi | none => false
  let s : State := { s with
    saved := s.saved.filter (fun (_, x) => x.wave.vi != vi)
    dropped := s.dropped.filter (fun x => x.1 != vi)
    formed := s.formed.filter (fun (_, f) => f.vi != vi)
    issuers := s.issuers.filter (fun (_, i) => i.vi != vi)
    jobs := s.jobs.filter (fun (_, j) => j.vi != vi)
    gfx := s.gfx.filter (fun (_, g) => !mine g.pass || g.vi != vi)
    passes := s.passes.filter (fun (_, p) => p.vi != vi)
    holders := s.holders.filter (fun (_, h) => h.vi != vi)
    trapReqs := s.trapReqs.filter (fun (_, r) => r.vi != vi)
    eventReqs := s.eventReqs.filter (fun (_, e) => e.vi != vi)
    cqHeld := s.cqHeld.filter (fun v => v != vi) }
  s.resetRegs vi

/-- INTERFACE_RESET (R453). -/
def execInterfaceReset (s : State) : Out := .next (s.resetVi s.occ.vi)

/-- A peer is lost (R448): UP is 0, loads in flight fault on their lanes, stores and atomics in flight give records, fences go on. -/
def State.losePeer (s : State) (p : Nat) : State :=
  let s := s.sysSetBits 0x304 p 62 62 0
  let mine (o : Op) : Bool := o.place == .peer p && !o.done
  let s := s.ops.foldl (fun s (id, o) =>
    if mine o && has s.ops id then s.refuse o 1 else s) s
  let s : State := { s with
    ops := s.ops.filter (fun (_, o) => !mine o)
    lineport := s.lineport.filter (fun (l, _) => !(isPeerPa l && peerOf l == p)) }
  s.settleOps

/-- Whether no flit of a peer has arrived for 40 microseconds (R448). -/
def State.peerSilent (s : State) (p : Nat) : Bool :=
  s.sysBits 0x304 p 62 62 == 1 && decide (lookD s.peerHeard p 0 + 40000 ≤ s.gt)

/-- PEER_LOST (R448). -/
def execPeerLost (s : State) : Out := if s.peerSilent s.occ.peer then .next (s.losePeer s.occ.peer) else .next s

end Sys2Proof.Machine
end

