-- ==== Sys2Proof/Machine/Present.lean ====
section
/-!
DEFINITION. Presentation streams (R450 to R452).
-/
namespace Sys2Proof.Machine

/-- A field of a stream's descriptor (R451). -/
def Stream.f (t : Stream) (i hi lo : Nat) : Nat := bits (t.desc.getD i 0) hi lo

/-- The presentation time of a frame, and its deadline (R452). -/
def Stream.timeOf (t : Stream) (n : Nat) : Nat := t.f 0 63 0 + n * t.f 1 63 32 / t.f 1 31 0
def Stream.deadline (t : Stream) (n : Nat) : Nat := t.timeOf n - t.f 2 63 32

/-- The owner of a stream (R450). -/
def State.streamVi (s : State) (i : Nat) : Nat := s.sysBits 0x4C8 i 62 57

/-- Read eight words for an interface, none when a page faults. -/
def State.partWords (s : State) (vi va : Nat) : Nat → State × Option (List Nat)
  | 0 => (s, some [])
  | n + 1 =>
    match s.partNum vi va 8 1 with
    | (s, none) => (s, none)
    | (s, some x) =>
      match s.partWords vi (va + 8) n with
      | (s, some xs) => (s, some (x :: xs))
      | r => r

/-- Whether a reserved field of a stream's descriptor is not zero (R4, R451). -/
def Stream.reserved (t : Stream) : Bool :=
  t.f 3 63 50 != 0 || t.f 3 15 4 != 0 || t.f 5 15 7 != 0 || t.f 7 31 0 != 0

/-- Whether a field of a stream's descriptor lies outside the limits of R451: the period, PITCH, the lines, LSLOT and RING. -/
def Stream.outside (t : Stream) : Bool :=
  t.f 1 31 0 == 0 || decide (t.f 1 63 32 < 4000000 * t.f 1 31 0) || t.f 2 31 0 % 64 != 0 || decide (4319 < t.f 3 49 36) ||
  decide (8191 < t.f 3 35 22) || t.f 3 3 0 == 0 || t.f 4 63 0 % 64 != 0

/-- Start a stream at its first deadline that has not passed: its descriptor is read now; a stream whose
descriptor faults, breaks R4 or lies outside the limits of R451 shows nothing (log entry 136). The first RTP sequence number is free. -/
def State.startStream (s : State) (i : Nat) : State :=
  match s.partWords (s.streamVi i) (s.sysBits 0x4C8 i 56 6 * 64) 8 with
  | (s, none) => { s with streams := put s.streams i {} }
  | (s, some xs) =>
    let (seq, s) := s.freeBits 16
    let t : Stream := { desc := xs, seq := seq }
    if t.reserved || t.outside then { s with streams := put s.streams i {} }
    else
      let late := s.gt + t.f 2 63 32 - t.f 0 63 0
      let period := max 1 (t.f 1 63 32)
      { s with streams := put s.streams i { t with frame := (late * t.f 1 31 0 + period - 1) / period } }

/-- Whether a frame's deadline has come: it is decided once its GT tick is over, so that every store of the tick counts (R452). -/
def State.frameDue (s : State) (i : Nat) : Bool :=
  s.sysBits 0x4C8 i 63 63 == 1 &&
  (match look s.streams i with
   | some t => !t.desc.isEmpty && t.f 1 31 0 != 0 && decide (t.deadline t.frame < s.gt)
   | none => false)

/-- The words of a ring slot, FRAMENO, IMAGE and SPARE first (R451); none when its page faults, or its reserved word is not zero (R4). -/
def State.ringSlot (s : State) (i : Nat) (t : Stream) (n : Nat) : State × Option (List Nat) :=
  match s.partWords (s.streamVi i) (t.f 4 63 0 + 32 * (n % 2 ^ t.f 3 3 0)) 4 with
  | (s, some xs) => (s, if xs.getD 3 0 = 0 then some xs else none)
  | r => r

/-- Octets of an image row, as ST 2110-20 packs its pgroups (R450). -/
def Stream.rowBytes (t : Stream) : Nat :=
  let w := t.f 3 35 22 + 1
  if t.f 3 21 20 = 0 then (if t.f 3 19 18 = 0 then 3 * w else 15 * ((w + 3) / 4))
  else (if t.f 3 19 18 = 0 then 4 * ((w + 1) / 2) else 5 * ((w + 1) / 2))

/-- Read image rows until one faults: their octets, and whether one faulted (R452). -/
def State.imageRows (s : State) (vi : Nat) (t : Stream) (va : Nat) : Nat → List Byte → State × List Byte × Bool
  | 0, acc => (s, acc, false)
  | n + 1, acc =>
    match (pageParts (t.rowBytes / 0x10000 + 2) 0 va t.rowBytes).foldl (fun (r : State × Option (List Byte)) (_, a, m) =>
        match r with
        | (s, none) => (s, none)
        | (s, some bs) =>
          match s.partNum vi a m 1 with
          | (s, some x) => (s, some (bs ++ toBytes m x))
          | (s, none) => (s, none)) (s, some []) with
    | (s, none) => (s, acc, true)
    | (s, some bs) => s.imageRows vi t (va + t.f 2 31 0) n (acc ++ bs)

/-- The octets of a frame packet by packet: block packing mode fills each but the last with seven blocks of 180 octets (R450, log entry 143). -/
def packets (bs : List Byte) : List (List Byte) := (List.range ((bs.length + 1259) / 1260)).map (fun k => (bs.drop (1260 * k)).take 1260)

/-- The RTP timestamp of a frame: its presentation time on the media clock of 90 kHz (R450). -/
def Stream.timestamp (t : Stream) (n : Nat) : Nat := t.timeOf n * 9 / 100000 % 2 ^ 32

/-- Send the packets of frame n of a stream: the last one of a whole frame has the marker (R450, R451). -/
def State.sendPackets (s : State) (i : Nat) (t : Stream) (n : Nat) (whole : Bool) (bs : List Byte) : State :=
  let ps := packets bs
  let s := (List.range ps.length).foldl (fun s k =>
    s.send
      { port := 1, dest := i, kind := 5, data := ps.getD k [], cage := s.sysBits 0x4C8 i 3 0
        rtp := [t.f 5 63 32, t.f 5 31 16, t.f 5 6 0, t.f 7 63 32, (t.seq + k) % 2 ^ 16, t.timestamp n, bCode (whole && k + 1 == ps.length),
                t.f 3 21 20, t.f 3 19 18, t.f 3 17 16] }) s
  { s with streams := modKey s.streams i (fun t => { t with seq := (t.seq + ps.length) % 2 ^ 16 }) }

/-- Send frame n of a stream from an image, and record what was sent (R451, R452). -/
def State.sendFrame (s : State) (i : Nat) (t : Stream) (n kind src va : Nat) : State :=
  let vi := s.streamVi i
  let (s, bs, bad) := s.imageRows vi t va (t.f 3 49 36 + 1) []
  let s := s.sendPackets i t n (!bad) bs
  (s.partStore vi (s.sysBits 0x4C8 i 56 6 * 64 + 0x30) (toBytes 8 (kind * 2 ^ 62 + bCode bad * 2 ^ 61 + src % 2 ^ 61))).1

/-- Whether a ring slot as read holds a frame (R451). -/
def slotIs (x : Option (List Nat)) (k : Nat) : Bool :=
  match x with
  | some (f :: _) => f == k
  | _ => false

/-- FRAME_DEADLINE (R452): a stream decides its next frame. IMAGE and SPARE of the frame last sent are as its slot held them when the part
decided for it; the slot is not read again, also where it is rejected or faults by then
(DESIGN CHOICE, log entry 89). -/
def execFrameDeadline (s : State) : Out :=
  let i := s.occ.index
  if s.frameDue i = false then .next s
  else
    match look s.streams i with
    | none => .next s
    | some t =>
      let n := t.frame
      let (s, a) := s.ringSlot i t n
      let keep (s : State) (last : Option Nat) (xs : List Nat) : State :=
        { s with streams := put s.streams i { t with frame := n + 1, last := last, image := xs.getD 1 0, spare := xs.getD 2 0 } }
      if slotIs a n then .next ((keep s (some n) (a.getD [])).sendFrame i t n 0 n ((a.getD []).getD 1 0))
      else
        let (s, b) := if n = 0 then (s, none) else s.ringSlot i t (n - 1)
        let fresh := slotIs b (n - 1) && t.last.all (fun l => decide (l < n - 1))
        let xs := if fresh then b.getD [] else [0, t.image, t.spare]
        match (if fresh then some (n - 1) else t.last) with
        | none =>
          let (x, s) := s.freeBits 61
          .next ((keep s none xs).partStore (s.streamVi i) (s.sysBits 0x4C8 i 56 6 * 64 + 0x30) (toBytes 8 (3 * 2 ^ 62 + x))).1
        | some l =>
          .next ((keep s (some l) xs).sendFrame i t n (if fresh then 1 else 2) l (if xs.getD 2 0 = 0 then xs.getD 1 0 else xs.getD 2 0))

end Sys2Proof.Machine
end

