-- ==== Sys2Proof/Machine/SysWrite.lean ====
section
/-!
DEFINITION. What a write of a system register does (R8, R385 to R464), and the instructions SYSRD, SYSWR, SYSOP and ERET (R389 to R391,
R438, R458).
-/
namespace Sys2Proof.Machine

/-- Keep the bits of a mask from a write, and the others as they are (R8). -/
def masked (old value mask : Nat) : Nat :=
  (List.range 64).foldl (fun m k => if bit mask k then setBit m k (bit value k) else m) old

/-- The bits of a register that a plain write stores (R8): RW fields whose writes do nothing else. -/
def writeMask (num : Nat) : Nat :=
  match num with
  | 0x10 => 0xC0
  | 0x11 | 0x202 | 0x4C0 => 0xFFFFFFFFFFFFFFFF
  | 0x12 => 0x01FFFFFFFFFFFFFC
  | 0x13 | 0x1F => 1
  | 0x18 | 0x20C => 0x01FFFFFFFFFFF00F
  | 0x19 | 0x20A | 0x20D | 0x206 => 0xFFFFFFFF
  | 0x200 => 0x800000000000FFFF
  | 0x201 => 0x800000000000001F
  | 0x205 => 0x01FFFFFFFFC01FFF
  | 0x207 => 0xFF
  | 0x208 => 0x01FFFFFFFFFFFF8F
  | 0x20F => 0x00003FFFFFFFFFF8
  | 0x300 => 0x8000FFFFFFFFF000
  | 0x302 => 0x1FF
  | 0x304 => 0x80000000FFFFFFFF
  | 0x305 | 0x4C2 => 0xC000FFFFFFFFF000
  | 0x400 => 0x80
  | 0x402 => 0x800000000000003F
  | 0x4C1 => 0x83FFFFFFFFFFFFFF
  | 0x4C4 => 0x4000FF0000000000
  | 0x4C8 => 0xFFFFFFFFFFFFFFCF
  | n =>
    if (0x410 ≤ n ∧ n ≤ 0x417) ∨ (0x420 ≤ n ∧ n ≤ 0x42F) then 0xFF800000000003FF
    else if (0x418 ≤ n ∧ n ≤ 0x41F) ∨ (0x430 ≤ n ∧ n ≤ 0x43F) then 0xFFFFFFFFFFFF
    else 0

/-- The bits of a register that a write of 1 clears (R8). -/
def clearMask (num : Nat) : Nat :=
  match num with
  | 0x08 | 0x19 => 0x8000000000000000
  | 0x31 => 0xFFFFFF000000
  | n => if (0x418 ≤ n ∧ n ≤ 0x41F) ∨ (0x430 ≤ n ∧ n ≤ 0x43F) then 0x8000000000000000 else 0

/-- Store the writable bits, and clear those written with 1 (R8). -/
def State.plainWrite (s : State) (num i v : Nat) : State :=
  let x := masked (s.sysAt num i) v (writeMask num)
  let clear := (List.range 64).foldl (fun m k => if bit (clearMask num) k && bit v k then m + 2 ^ k else m) 0
  s.sysPut num i (masked x 0 clear)

/-- Whether two rectangles of SYS.PART have a core in common. -/
def rectMeet (a b : Nat) : Bool :=
  decide (bits a 3 0 ≤ bits b 3 0 + bits b 11 8) && decide (bits b 3 0 ≤ bits a 3 0 + bits a 11 8) &&
  decide (bits a 7 4 ≤ bits b 7 4 + bits b 15 12) && decide (bits b 7 4 ≤ bits a 7 4 + bits a 15 12)

/-- Whether a write of SYS.PART is ignored (R404). -/
def State.partIgnored (s : State) (p v : Nat) : Bool :=
  let out := decide (15 ≤ bits v 3 0 + bits v 11 8) || decide (12 ≤ bits v 7 4 + bits v 15 12)
  let meets := bits v 63 63 == 1 && (List.range 16).any (fun q => q != p && s.sysBits 0x200 q 63 63 == 1 && rectMeet v (s.sysAt 0x200 q))
  let busy := s.waves.any (fun (_, w) => s.partOf w.vi == some p) || s.saved.any (fun (_, x) => s.partOf x.wave.vi == some p)
  out || meets || busy

/-- Whether a write of SYS.VSHARE is ignored (R439). -/
def State.shareIgnored (s : State) (vi v : Nat) : Bool :=
  decide (384 < bits v 8 0 + ((List.range 64).filter (fun k => k != vi)).foldl (fun n k => n + s.sysBits 0x302 k 8 0) 0)

/-- Clear the fatal latch and every STOPPED bit (R400). -/
def State.clearFatal (s : State) (v : Nat) : State :=
  if bit v 63 && s.sysBits 0x08 0xFF 63 63 == 1 then
    (List.range 64).foldl (fun s vi => if s.stopped vi then s.sysSetBits 0x10 vi 5 5 0 else s) (s.plainWrite 0x08 0xFF v)
  else s

/-- A queue's base is written: HEAD and TAIL, which stand next to it, become 0 (R393, R406, R422). -/
def State.writeBase (s : State) (num i v : Nat) : State := ((s.plainWrite num i v).sysPut (num + 1) i 0).sysPut (num + 2) i 0

/-- The scheduler may read a queue again (R406). -/
def State.wakeQueue (s : State) (vi : Nat) : State := { s with cqHeld := s.cqHeld.filter (fun v => v != vi) }

/-- The bytes of a measurement register (R458). -/
def State.measBytes (s : State) (m : Nat) : List Byte := (List.range 8).flatMap (fun w => toBytes 8 (s.sysAt 0x408 (8 * m + w)))

/-- Extend a measurement register with a digest (R458). -/
def State.extendMeas (s : State) (m : Nat) (d : List Byte) : State :=
  let h := Config.shake256 (s.measBytes m ++ d) 64
  (List.range 8).foldl (fun s w => s.sysPut 0x408 (8 * m + w) (ofBytes ((h.drop (8 * w)).take 8))) s

/-- A write of SYS.MEASEXT (R458): false when it raises the privilege trap. -/
def State.writeMeas (s : State) (i v : Nat) : State × Bool :=
  if i < 8 ∨ has s.measExt i then (s, false)
  else
    let s : State := { s with measExt := put s.measExt i (dw v) }
    let m := i / 8
    let ws := (List.range 8).map (fun w => look s.measExt (8 * m + w))
    if ws.all Option.isSome then
      let d := ws.flatMap (fun w => toBytes 8 (w.getD 0).toNat)
      ({ s with measExt := s.measExt.filter (fun (k, _) => k / 8 != m) }.extendMeas m d, true)
    else (s, true)

/-- A write of SYS.RSTCTL (R453). -/
def State.writeReset (s : State) (v : Nat) : State :=
  if bit v 8 then s.warmStart else if bit v 7 then s.resetVi (bits v 5 0) else s

/-- Boot is complete from a first write of 1 to BOOTSTAT.RUN (R456). -/
def State.writeRun (s : State) (v : Nat) : State :=
  if bit v 7 && s.sysBits 0x400 0xFF 7 7 == 0 then
    let s := s.plainWrite 0x400 0xFF v
    if s.boot = .halted then s else { s with boot := .service }
  else s

/-- A stream is started or stopped (R450, R451). -/
def State.writeStream (s : State) (i v : Nat) : State :=
  let s := s.plainWrite 0x4C8 i v
  if bit v 63 then s.startStream i else { s with streams := del s.streams i }

/-- A write of SYS.PEER (R441, R448): clearing EN loses the peer. -/
def State.writePeer (s : State) (p v : Nat) : State :=
  let s := s.plainWrite 0x304 p v
  if !bit v 63 && s.sysBits 0x304 p 62 62 == 1 then s.losePeer p else s

/-- Perform a write of a system register of one instance, at a level and for an interface (R8, R385); false when the register itself raises
the privilege trap. -/
def State.sysWrite (s : State) (num i v level vi : Nat) : State × Bool :=
  match num with
  | 0x08 => (s.clearFatal v, true)
  | 0x18 => (s.writeBase num i v, true)
  | 0x20C => ((s.writeBase num i v).drainEvents s.eventReqs.length i, true)
  | 0x20D => ((s.plainWrite num i v).drainEvents s.eventReqs.length i, true)
  | 0x208 => ((s.writeBase num i v).wakeQueue i, true)
  | 0x20A => ((s.plainWrite num i v).wakeQueue i, true)
  | 0x30 => (s.writeBankMode i v (level == 2 || s.mayForce vi), true)
  | 0x200 => (if s.partIgnored i v then s else s.plainWrite num i v, true)
  | 0x204 => (if bit v 0 then s.viStop i else s, true)
  | 0x302 => (if s.shareIgnored i v then s else s.plainWrite num i v, true)
  | 0x304 => (s.writePeer i v, true)
  | 0x400 => (s.writeRun v, true)
  | 0x401 => (s.writeReset v, true)
  | 0x409 => s.writeMeas i v
  | 0x4C8 => (s.writeStream i v, true)
  | n =>
    if level = 1 ∧ ((0x410 ≤ n ∧ n ≤ 0x417) ∨ (0x420 ≤ n ∧ n ≤ 0x42F)) then
      if bit v 61 && bits v 60 55 != vi then (s, false)
      else (s.plainWrite num i (setBits (setBits v 61 61 1) 60 55 vi), true)
    else (s.plainWrite num i v, true)

/-- Whether everything that a lane's system instruction comes after is performed at device scope (R389, R390). -/
def State.sysReady (s : State) (wid : Nat) (ks : List Nat) : Bool :=
  ks.all (fun k => (s.releaseSet wid k 0).all (fun j => match look s.ops j with | some o => o.visAt 4 && (o.done || !o.reads) | none => true))

/-- Hold lanes in a system instruction, or perform it between two full fences at device scope (R389, R390). -/
def sysEff (i : Instr) (wait : State → Issue → Wave → List Nat → Bool) (eff : State → Issue → Wave → List Nat → Done) : Eff := fun s c w run =>
    if !s.sysReady c.wid run || wait s c w run then ⟨run.foldl (fun s k => (s.waitLane c.wid (wordsOf i) k .sys).modLane c.wid k (fun l => { l with owes := some c.pc })) s, [], run⟩
    else eff (run.foldl (fun s k => s.addFence c.wid k .full 4 []) s) c w run

/-- `sysEff` in the common course of an issue (R178). -/
def sysOp (i : Instr) (wait : State → Issue → Wave → List Nat → Bool) (eff : State → Issue → Wave → List Nat → Done) (s : State) : Out := runLanes i s (sysEff i wait eff)

/-- No further wait. -/
def noWait : State → Issue → Wave → List Nat → Bool := fun _ _ _ _ => false

/-- Whether a system register belongs to each lane (R388). -/
def perLane (num : Nat) : Bool := decide (0x80 ≤ num) && decide (num ≤ 0x84)

/-- What SYSRD does for its lanes (R389): a register's value, or the privilege trap. -/
def sysrdEff (x : Fields) : Eff := fun s c w run =>
    run.foldl (fun d k =>
      let l := w.lane k
      match s.sysName x w l false with
      | none => { d with traps := d.traps ++ [(k, privilegeTrap c.pc)] }
      | some i =>
        let v := if perLane (sysNum x) then (laneSysRead l (sysNum x)).toNat else s.sysRead (sysNum x) i
        { d with s := d.s.putV c.wid k x.dst.toNat 2 v }) ⟨s, [], []⟩

/-- SYSRD (R389). -/
def execSysrd (x : Fields) (s : State) : Out := sysOp (.sysrd x) noWait (sysrdEff x) s

/-- What SYSWR does for its lanes (R389): one write, of the lowest lane that may write; a warm reset leaves no lane to go on. -/
def syswrEff (x : Fields) : Eff := fun s c w run =>
    let ok := run.filter (fun k => (s.sysName x w (w.lane k) true).isSome)
    let bad := (run.filter (fun k => !ok.contains k)).map (fun k => (k, privilegeTrap c.pc))
    let val (k : Nat) : Nat := (w.lane k).read x.sa.toNat 2
    if perLane (sysNum x) then
      ⟨ok.foldl (fun s k => s.modLane c.wid k (fun l => laneSysWrite l (sysNum x) (dw (val k)))) s, bad, []⟩
    else
      match ok with
      | [] => ⟨s, bad, []⟩
      | k :: _ =>
        let i := (s.sysName x w (w.lane k) true).getD 0
        match s.sysWrite (sysNum x) i (val k) (w.lane k).level.toNat w.vi with
        | (s', true) => ⟨s', bad, if sysNum x = 0x401 ∧ bit (val k) 8 = true then List.range 64 else []⟩
        | (s', false) => ⟨s', bad ++ ok.map (fun k => (k, privilegeTrap c.pc)), []⟩

/-- SYSWR (R389). -/
def execSyswr (x : Fields) (s : State) : Out := sysOp (.syswr x) noWait (syswrEff x) s

/-- The cores of a wave's partition; the firmware service, which has none, acts on its own core. -/
def State.coresOfWave (s : State) (w : Wave) : List Nat :=
  if w.vi < 64 then (List.range 180).filter (fun k => s.coreOfVi w.vi k) else [w.core]

/-- What SYSOP.ICINV does (R77, R390): the caches and loop buffers of the wave's cores hold nothing. -/
def icinvEff : Eff := fun s _ w _ =>
    let cs := s.coresOfWave w
    let s : State := { s with
      cores := s.cores.map (fun ((k, e) : Nat × Core) => (k, if cs.contains k then { e with icache := [] } else e))
      waves := s.waves.map (fun ((n, v) : Nat × Wave) =>
        (n, if cs.contains v.core then { v with lanes := v.lanes.map (fun l => { l with buf := [], bufAge := 0 }) } else v)) }
    ⟨s, [], []⟩

/-- SYSOP.ICINV (R77, R390). -/
def execSysopIcinv (x : Fields) (s : State) : Out := sysOp (.sysopIcinv x) noWait icinvEff s

/-- What SYSOP.DCWB does (R390): the dirty bytes of the core's L1 and of its cluster cache reach their home slices. -/
def dcwbEff : Eff := fun s _ w _ =>
    let lines := (s.ops.filter (fun (_, o) => o.isStore && o.place == .line &&
      ((o.vis == 2 && o.core == w.core) || (o.vis == 3 && clusterOf o.core == clusterOf w.core)))).map (fun (_, o) => lineOf o.pa)
    ⟨(lines.eraseDups.foldl (fun s n => s.writeBack w.core n) s).settleOps, [], []⟩

/-- SYSOP.DCWB (R390). -/
def execSysopDcwb (x : Fields) (s : State) : Out := sysOp (.sysopDcwb x) noWait dcwbEff s

/-- The cached translations of an interface that an XLINV removes: those of one page, or all (R390). -/
def State.removed (s : State) (vi : Nat) (va : Option Nat) : List TlbEntry :=
  s.tlb.filter (fun e => e.vi == vi && (match va with | some a => a / 2 ^ e.bits == e.page | none => true))

/-- The physical range of a cached leaf. -/
def TlbEntry.range (e : TlbEntry) : Nat × Nat :=
  let base := e.leaf.toNat / 2 ^ 16 % 2 ^ 32 * 2 ^ 16
  (base, base + 2 ^ e.bits)

/-- Whether a command still has an access to perform that it translated by a leaf of a physical range (R438): to a destination, or to the STATUS
and the flag of SRED. -/
def Cmd.touches (c : Cmd) (lo hi : Nat) : Bool :=
  let within (pa : Nat) : Bool := decide (lo ≤ pa) && decide (pa < hi)
  c.segs.any (fun r => r.any (fun g => within g.pa)) || (c.kind == .sred && (within c.statusPa || c.flagAt.any (fun g => within g.pa)))

/-- Whether an XLINV of an interface's page, or of all its pages, still waits for what used a removed leaf: an access to a peer or to the host
until it is acknowledged, a store to a private page until it is in its owner's L1, an engine command, a request to a till, and a page in
transit until its owner has written it back (R435, R438). -/
def State.xlinvWaits (s : State) (vi : Nat) (va : Option Nat) (es : List TlbEntry) : Bool :=
  es.any (fun e =>
    let (lo, hi) := e.range
    s.ops.any (fun (_, o) => o.vi == vi && o.place != .bank && decide (lo ≤ o.pa) && decide (o.pa < hi) &&
      !(if o.outside then o.done else o.visAt 4 && (o.done || !o.reads))) ||
    s.tillMsgs.any (fun (_, m) => m.vi == vi && decide (lo ≤ m.line) && decide (m.line < hi)) ||
    s.cmds.any (fun (_, c) => c.vi == vi && c.touches lo hi)) ||
  s.transit.any (fun (_, t) => t.vi == vi && xlinvCovers va t.page t.bits)

/-- Remove translations (R390, R438): private pages among them are recalled from their owners. -/
def State.xlinv (s : State) (es : List TlbEntry) : State :=
  let s := es.foldl (fun s e =>
    if bits e.leaf.toNat 55 54 = 1 then s.recallPage e.range.1 e.range.2 else s) s
  { s with tlb := s.tlb.filter (fun e => !es.contains e) }

/-- Remove pointers from the walk caches, and note the XLINV at the leaves that stores have changed (R432, R438). -/
def State.xlinvWalks (s : State) (vi : Nat) (va : Option Nat) : State :=
  { s with
    ptrs := s.ptrs.filter (fun p => !(p.vi == vi && xlinvCovers va p.page p.lo))
    leaves := s.leaves.map (fun m => if m.cleared.contains (vi, va) then m else { m with cleared := (vi, va) :: m.cleared }) }

/-- Remove an interface's translations of one page or of all from every cache of R437 (R390, R438). -/
def State.xlinvAt (s : State) (vi : Nat) (va : Option Nat) : State := ((s.xlinv (s.removed vi va)).xlinvWalks vi va).settleOps

/-- The page that a lane's SYSOP.XLINV names. -/
def xlinvVa (x : Fields) (w : Wave) (k : Nat) : Option Nat := some ((w.lane k).read x.sa.toNat 2)

/-- Whether a SYSOP.XLINV waits: some lane's translations are in use (R438). -/
def xlinvHeld (x : Fields) : State → Issue → Wave → List Nat → Bool := fun s _ w run =>
  run.any (fun k => s.xlinvWaits w.vi (xlinvVa x w k) (s.removed w.vi (xlinvVa x w k)))

/-- What SYSOP.XLINV does (R390, R438): per active lane. -/
def xlinvEff (x : Fields) : Eff := fun s _ w run =>
    ⟨run.foldl (fun s k => s.xlinvAt w.vi (xlinvVa x w k)) s, [], []⟩

/-- SYSOP.XLINV (R390, R438). -/
def execSysopXlinv (x : Fields) (s : State) : Out := sysOp (.sysopXlinv x) (xlinvHeld x) (xlinvEff x) s

/-- Whether a SYSOP.XLINV.ALL waits (R438). -/
def xlinvAllHeld : State → Issue → Wave → List Nat → Bool := fun s _ w _ => s.xlinvWaits w.vi none (s.removed w.vi none)

/-- What SYSOP.XLINV.ALL does (R390, R438). -/
def xlinvAllEff : Eff := fun s _ w _ => ⟨s.xlinvAt w.vi none, [], []⟩

/-- SYSOP.XLINV.ALL (R390, R438). -/
def execSysopXlinvAll (x : Fields) (s : State) : Out := sysOp (.sysopXlinvAll x) xlinvAllHeld xlinvAllEff s

/-- ERET (R391): each active lane returns from its handler; outside one its illegal-instruction trap is a double fault (R399). -/
def eretEff : Eff := fun s c w run =>
    let inside := run.filter (fun k => (w.lane k).inh)
    let bad := run.filter (fun k => !(w.lane k).inh)
    let s := inside.foldl (fun s k => s.eretLane c.wid k) s
    if bad.isEmpty then ⟨s, [], run⟩
    else if w.kind = .boot then ⟨s.firmwareTrap c.wid, [], run⟩
    else ⟨s.doubleFault c.wid w bad c.pc (illegalTrap c.pc), [], run⟩

/-- `eretEff` in the common course of an issue (R178). -/
def execEret (x : Fields) (s : State) : Out := runLanes (.eret x) s eretEff

end Sys2Proof.Machine
end

