-- ==== Sys2Proof/Machine/Sched.lean ====
section
/-!
DEFINITION. Scheduling (R46 to R61, R406 to R410, R420, R421): reading commands, starting launches, placing waves with their entry state,
deciding SPAWN, packing items, completion trees, and cancellation.
-/
namespace Sys2Proof.Machine

/-- The address of the queue entry at HEAD (R406). -/
def State.entryVa (s : State) (vi : Nat) : Nat :=
  s.sysBits 0x208 vi 56 7 * 128 + 128 * (s.sysBits 0x209 vi 31 0 % 2 ^ (min (s.sysBits 0x208 vi 3 0) 12 + 4))

/-- Field [hi:lo] of the i-th eight-byte word of an entry. -/
def entryField (x : List Nat) (i hi lo : Nat) : Nat := bits (x.getD i 0) hi lo

/-- A dependency of a command that holds it (R408): one that names a lower number. -/
def depHolds (own dep : Nat) : Bool := decide (0 < (own + 2 ^ 32 - dep) % 2 ^ 32) && decide ((own + 2 ^ 32 - dep) % 2 ^ 32 < 2 ^ 31)

/-- The dependencies of an entry (R407, R408). -/
def entryDeps (x : List Nat) (own : Nat) : List Nat :=
  let all := [entryField x 1 31 0, entryField x 1 63 32, entryField x 2 31 0, entryField x 2 63 32]
  ((List.range 4).filter (fun d => bit (entryField x 0 51 48) d && depHolds own (all.getD d 0))).map (fun d => all.getD d 0)

/-- Whether a reserved field of an entry is not zero, outside a launch descriptor (R407). -/
def entryReserved (x : List Nat) : Bool :=
  entryField x 0 56 52 != 0 || entryField x 0 47 32 != 0 || ((x.take 8).drop 3).any (fun v => v != 0) ||
  (entryField x 0 63 60 == 2 && (entryField x 8 63 32 != 0 || (x.drop 9).any (fun v => v != 0)))

/-- Whether a launch descriptor breaks a limit of its own (R46). -/
def launchBad (d : List Nat) : Bool :=
  let f := entryField d
  f 0 63 57 != 0 || f 0 3 0 != 0 || f 1 63 57 != 0 || f 1 2 0 != 0 || f 3 63 58 != 0 || f 3 47 45 != 0 || f 3 31 25 != 0 || f 3 23 21 != 0 ||
  f 4 63 57 != 0 || f 4 6 0 != 0 || (d.drop 5).any (fun v => v != 0) ||
  decide (14 < f 3 3 0) || decide (11 < f 3 7 4) || decide (14 < f 3 11 8) || decide (11 < f 3 15 12) || decide (4096 < f 3 44 32) ||
  decide (2 ^ 64 < f 2 63 0 + (f 3 11 8 + 1) * (f 3 15 12 + 1) * (f 3 20 16 + 1))

/-- The job of a launch entry, when its descriptor is in order (R46). -/
def State.launchJob (s : State) (vi num : Nat) (x : List Nat) : State × Option Job :=
  let d := x.drop 8
  let f := entryField d
  let supv := entryField x 0 57 57 == 1
  if launchBad d then (s, none)
  else
    match s.readProg vi (f 0 56 4 * 16) (if supv then 1 else 0) with
    | (s, none) => (s, none)
    | (s, some p) =>
      let j : Job :=
        { vi := vi, num := num, tag := entryField x 0 31 0, pri := entryField x 0 59 58, supv := supv, deps := entryDeps x num,
          accepted := s.gt, prog := p, args := dw (f 1 56 3 * 8), keybase := f 2 63 0, intr := f 3 57 53, evt := f 3 52 48, sroom := f 3 44 32,
          det := f 3 24 24 == 1, wpc := f 3 20 16 + 1, width := f 3 11 8 + 1, height := f 3 15 12 + 1, x0 := f 3 3 0, y0 := f 3 7 4,
          sctr := dw (f 4 56 7 * 128) }
      let inside := (List.range 180).all (fun c =>
        !(decide (j.x0 ≤ coreX c) && decide (coreX c < j.x0 + j.width) && decide (j.y0 ≤ coreY c) && decide (coreY c < j.y0 + j.height)) || s.coreOfVi vi c)
      if !inside || decide (15 < j.x0 + j.width) || decide (12 < j.y0 + j.height) || ((j.sroom == 0) != (p.sdepth == 0)) then (s, none)
      else (s, some j)

/-- The event record of a command error (R408, R423). -/
def State.cmdError (s : State) (vi num tag detail : Nat) : State := s.event vi 5 0 0 0 tag num detail true

/-- The entry at HEAD and the state with HEAD moved past it; a page that faults holds the queue (R406). -/
def State.takeEntry (s : State) (vi : Nat) : State × Option (Nat × List Nat) :=
  let num := s.sysBits 0x209 vi 31 0
  match s.partWords vi (s.entryVa vi) 16 with
  | (s, none) => (({ s with cqHeld := vi :: s.cqHeld } : State).cmdError vi num 0 6, none)
  | (s, some x) => (s.sysSetBits 0x209 vi 31 0 (num + 1), some (num, x))

/-- The error of an entry before its launch descriptor is looked at (R408): its DETAIL. -/
def State.entryError (s : State) (vi : Nat) (x : List Nat) : Option Nat :=
  if entryReserved x then some 1
  else if entryField x 0 63 60 ≠ 1 ∧ entryField x 0 63 60 ≠ 2 then some 2
  else if entryField x 0 57 57 = 1 ∧ s.sysBits 0x201 vi 4 4 = 0 then some 3
  else none

/-- The OP of the next entry of a queue; 1 when it cannot be read. -/
def State.nextOp (s : State) (vi : Nat) : Nat :=
  match s.partNum vi (s.entryVa vi) 8 1 with
  | (_, some x) => bits x 63 60
  | (_, none) => 1

/-- LAUNCH (R406 to R408): the scheduler accepts an entry that is no CANCEL; an entry in error completes at once. -/
def execLaunch (s : State) : Out :=
  let vi := s.occ.vi
  if s.canRead vi = false ∨ s.nextOp vi = 2 then .next s
  else
    match s.takeEntry vi with
    | (s, none) => .next s
    | (s, some (num, x)) =>
      let tag := entryField x 0 31 0
      match s.entryError vi x with
      | some e => .next (s.cmdError vi num tag e)
      | none =>
        match s.launchJob vi num x with
        | (s, none) => .next (s.cmdError vi num tag 4)
        | (s, some j) =>
          let (id, s) := s.fresh
          .next { s with jobs := put s.jobs id j }

/-- The top level of a launch's completion tree (R48). -/
def Job.top (j : Job) : Nat := ((List.range 5).find? (fun l => decide (max j.width j.height ≤ 2 ^ l))).getD 4

/-- The cores of a launch, row by row (R47). -/
def Job.cores (j : Job) : List Nat :=
  (List.range j.height).flatMap (fun ly => (List.range j.width).map (fun lx => 15 * (j.y0 + ly) + j.x0 + lx))

/-- The completion tree at the start of a launch (R48, R49). -/
def Job.nodes (j : Job) : FMap Nat :=
  let side (n l : Nat) : Nat := (n + 2 ^ l - 1) / 2 ^ l
  (List.range (j.top + 1)).flatMap (fun l =>
    (List.range (side j.height l)).flatMap (fun b => (List.range (side j.width l)).map (fun a =>
      (256 * l + 16 * b + a,
       if l = 0 then j.wpc
       else (min (side j.height (l - 1)) (2 * b + 2) - 2 * b) * (min (side j.width (l - 1)) (2 * a + 2) - 2 * a)))))

/-- A job ends (R49, R57, R421 to R423): its counter ends, its one record is written, and the CANCELs that wait for it complete. -/
def State.finishJob (s : State) (lid : Nat) (j : Job) : State :=
  let s := if j.started ∧ j.sroom ≠ 0 then s.endCounter j.sctrPa else s
  let detail := if j.cancelAt.isSome then 1 else j.failed
  let s := s.event j.vi (if detail = 0 then 2 else 3) j.top 0 0 j.tag j.num detail (bit j.intr j.top)
  let mine := s.jobs.filter (fun (_, c) => c.isCancel && c.target == lid)
  let s : State := { s with jobs := s.jobs.filter (fun (k, c) => k != lid && !(c.isCancel && c.target == lid)) }
  mine.foldl (fun s (_, c) => s.event c.vi 4 0 0 0 c.tag c.num 0 false) s

/-- Whether stores or atomics that a job's waves issued are not performed: of work that was dropped they go on (R421). -/
def State.storesOut (s : State) (lid : Nat) : Bool :=
  s.ops.any (fun (_, o) => o.lid == lid && o.writes && !o.done && !(o.isStore && o.place == .line && o.vis == 4))

/-- Whether a node of a job's tree with a count is to complete: the top one only once every store of the job is performed (R49, R421). -/
def State.nodeDue (s : State) (lid : Nat) (j : Job) (k n : Nat) : Bool := n == 0 && !(k / 256 == j.top && s.storesOut lid)

/-- Complete the nodes of one level of a job's tree whose count is zero (R49, R422). -/
def State.drainLevel (s : State) (lid l : Nat) : State :=
  match s.job? lid with
  | none => s
  | some j =>
    let done := (j.counts.filter (fun (k, n) => k / 256 == l && s.nodeDue lid j k n)).map Prod.fst
    done.foldl (fun s k =>
      let b := k / 16 % 16
      let a := k % 16
      let s := s.modJob lid (fun j =>
        { j with counts := modKey (del j.counts k) (256 * (l + 1) + 16 * (b / 2) + a / 2) (fun n => n - 1) })
      if l = j.top then s.finishJob lid j
      else if bit j.evt l || bit j.intr l then s.event j.vi 1 l b a j.tag j.num 0 (bit j.intr l)
      else s) s

/-- Complete every node whose count is zero, level by level (R49). -/
def State.drainJobs (s : State) : State :=
  s.jobs.foldl (fun s (lid, _) => (List.range 5).foldl (fun s l => s.drainLevel lid l) s) s

/-- Whether a job has a node that is to complete. -/
def State.drained (s : State) (lid : Nat) (j : Job) : Bool := j.counts.any (fun (k, n) => s.nodeDue lid j k n)

/-- CANCEL (R420, R421): the scheduler accepts a CANCEL and fixes the cancel point of a launch that is not complete. -/
def execCancel (s : State) : Out :=
  let vi := s.occ.vi
  if s.canRead vi = false ∨ s.nextOp vi ≠ 2 then .next s
  else
    match s.takeEntry vi with
    | (s, none) => .next s
    | (s, some (num, x)) =>
      let tag := entryField x 0 31 0
      match s.entryError vi x with
      | some e => .next (s.cmdError vi num tag e)
      | none =>
        match s.jobs.find? (fun (_, j) => j.vi == vi && j.num == entryField x 8 31 0 && !j.isCancel) with
        | none => .next (s.event vi 4 0 0 0 tag num 1 false)
        | some (lid, j) =>
          let (id, s) := s.fresh
          let s : State := { s with jobs := put s.jobs id { vi := vi, num := num, isCancel := true, target := lid, tag := tag, accepted := s.gt } }
          let j := { j with cancelAt := some (j.cancelAt.getD s.gt) }
          let s : State := { s with jobs := put s.jobs lid j }
          .next (if j.started then s else s.finishJob lid j)

/-- Whether a launch can start as far as its dependencies go (R408). -/
def State.jobReady (s : State) (j : Job) : Bool :=
  !j.isCancel && !j.started && j.deps.all (fun d => !s.jobs.any (fun (_, x) => x.vi == j.vi && x.num == d))

/-- Whether one ready launch of an interface starts before another (R409). -/
def jobBefore (a b : Nat × Job) : Bool := decide (b.2.pri < a.2.pri) || (a.2.pri == b.2.pri && decide (a.1 < b.1))

/-- Spawn room reserved on a core (R56, R409). -/
def State.roomOn (s : State) (core : Nat) : Nat :=
  s.jobs.foldl (fun n (_, j) => if j.started ∧ j.cores.contains core then n + j.sroom else n) 0

/-- Whether a launch is the next of its interface to start, and its room is free (R409). -/
def State.startDue (s : State) (lid : Nat) (j : Job) : Bool :=
  s.jobReady j && s.active j.vi && s.holds j.vi &&
  !s.jobs.any (fun (k, x) => k != lid && x.vi == j.vi && s.jobReady x && jobBefore (k, x) (lid, j)) &&
  j.cores.all (fun c => s.coreOfVi j.vi c && decide (s.roomOn c + j.sroom ≤ 4096))

/-- Start a launch: its tree and its waves (R47, R49, R409). -/
def State.startJob (s : State) (lid : Nat) (j : Job) : State :=
  let (order, s) := s.fresh
  let s : State := { s with jobs := put s.jobs lid { j with started := true, startOrder := order, counts := j.nodes } }
  j.cores.foldl (fun s c =>
    (List.range j.wpc).foldl (fun s n =>
      let (id, s) := s.fresh
      let key := j.keybase + ((coreY c - j.y0) * j.width + (coreX c - j.x0)) * j.wpc + n
      let i : Issuer := { vi := j.vi, lid := lid, core := c, widx := n, key := key, ord := lid, prog := j.prog, home := c }
      { s with issuers := put s.issuers id i }) s) s

/-- LAUNCH_START (R57, R409): the spawn counter's line is checked and made, and the launch starts. -/
def execLaunchStart (s : State) : Out :=
  let lid := s.occ.id
  match s.job? lid with
  | none => .next s
  | some j =>
    if s.startDue lid j = false then .next s
    else if j.sroom = 0 then .next (s.startJob lid j)
    else
      let fail (s : State) : Out := .next (({ s with jobs := del s.jobs lid } : State).cmdError j.vi j.num j.tag 5)
      match s.engNow (gfxAgent j.vi partCore j.level) j.sctr.toNat 1 with
      | (t, .error k) => if k = heldKind then .next (s.heldBy t) else fail t
      | (s, .ok (pa, d)) =>
        if d || !isMemory pa || (s.till? pa).isSome then fail s
        else if s.tillFree pa = false then .next s
        else .next ((s.createCounter pa (j.sroom * j.cores.length) j.vi).startJob lid { j with sctrPa := pa })

/-- The words of a new wave's area are empty and hold zero (R44). -/
def State.clearArea (s : State) (core a n : Nat) : State :=
  let lo := wordKey core a
  let hi := lo + n / 4
  { s with spad := s.spad.filter (fun (k, _) => !(decide (lo ≤ k) && decide (k < hi))) }

/-- A place that a wave was given. -/
abbrev Spot := Nat × Nat × Nat

/-- Place a launched wave (R42, R44), with the counts of barriers that an earlier run completed (R251). -/
def State.placeLaunched (s : State) (id : Nat) (i : Issuer) (j : Job) (p : Spot) : State :=
  let (slot, pos, area) := p
  let (wid, s) := s.fresh
  let w : Wave :=
    { kind := .launched, vi := j.vi, core := i.core, slot := slot, pos := pos, width := j.prog.width, regs := j.prog.regs, lid := i.lid,
      widx := i.widx, prog := j.prog.addr, key := dw i.key, lanes := launchedLanes j id i, w := launchedRegs j i area, area := area,
      areaSize := j.prog.scratch, start := (s.coreAt i.core).cycle, lastIssue := (s.coreAt i.core).cycle, lastCan := s.gt, bars := i.bars }
  let s := (s.clearArea i.core area j.prog.scratch).setWave wid w
  s.modIssuer id (fun x => { x with stage := .running wid 0 })

/-- Place a packed wave under its identity (R44, R59): lanes whose item is gone are absent. -/
def State.placeSpawned (s : State) (fid : Nat) (f : Formed) (j : Job) (p : Spot) : State :=
  let (slot, pos, area) := p
  let items := f.items.map (fun id => (id, (s.issuer? id).filter (fun i => i.stage == .unplaced)))
  let lanes := (List.range f.prog.width).map (fun k =>
    match items[k]? with
    | some (id, some i) => entryLane k f.prog.entry (dw i.key) j.level id (itemRegs i)
    | some (_, none) => { present := false }
    | none => { present := false })
  let live := (lanes.filter (fun l => l.present)).length
  let depth := items.foldl (fun d (_, i) => match i with | some i => i.depth | none => d) 0
  let w : Wave :=
    { kind := .spawned, vi := j.vi, core := f.core, slot := slot, pos := pos, width := f.prog.width, regs := f.prog.regs, lid := f.lid,
      prog := f.prog.addr, key := (lanes.find? (fun l => l.present)).elim 0 Lane.key, lanes := lanes,
      w := [(0, j.args), (1, dw live), (2, dw (positionRecord f.core j.x0 j.y0 0 depth)), (3, dw area)], area := area,
      areaSize := f.prog.scratch, start := (s.coreAt f.core).cycle, lastIssue := (s.coreAt f.core).cycle, lastCan := s.gt }
  let s : State := { s with formed := del s.formed fid }
  let s := (s.clearArea f.core area f.prog.scratch).setWave fid w
  (items.zip (List.range items.length)).foldl (fun s ((id, i), k) =>
    if i.isSome then s.modIssuer id (fun x => { x with stage := .running fid k }) else s) s

/-- Place a fragment or resolve wave under its identity (R44, R353, R355): it has no launch origin, so the position in one is free. -/
def State.placeGraphics (s : State) (fid : Nat) (f : Formed) (core : Nat) (p : Spot) : State :=
  let (slot, pos, area) := p
  let (rel, s) := s.freeBits 8
  let lanes := (List.range f.prog.width).map (fun k =>
    let (o, regs) := f.lanes.getD k ({}, [])
    { entryLane k f.prog.entry f.key f.level 0 regs with ord := some o })
  let w : Wave :=
    { kind := f.kind, vi := f.vi, core := core, slot := slot, pos := pos, width := f.prog.width, regs := f.prog.regs, pass := f.pass,
      prog := f.prog.addr, key := f.key, lanes := lanes,
      w := f.wregs.foldl (fun m (r, x) => put m r x) [(2, dw (coreY core * 2 ^ 12 + coreX core * 2 ^ 8 + rel)), (3, dw area)], area := area,
      areaSize := f.prog.scratch, start := (s.coreAt core).cycle, lastIssue := (s.coreAt core).cycle, lastCan := s.gt, quads := f.quads }
  let s : State := { s with formed := del s.formed fid }
  (s.clearArea core area f.prog.scratch).setWave fid w

/-- A wave that may be placed at a core next: priority, start order of its launch, whether it is launched, its order, and what it is. -/
inductive Unplaced where
  | launched (id : Nat) (i : Issuer) (j : Job)
  | formed (id : Nat) (f : Formed)
  deriving DecidableEq, Repr

/-- Its place in the order of R410: 3 less its priority, start order, class, number. -/
def State.rankOf (s : State) : Unplaced → Nat × Nat × Nat × Nat
  | .launched _ i j => (3 - j.pri, j.startOrder, 1, i.widx)
  | .formed _ f =>
    match f.kind with
    | .fragment | .resolve =>
      let start := match look s.passes f.pass with
        | some p => (match s.job? p.opener with | some j => j.startOrder | none => 0)
        | none => 0
      (3 - f.pri, start, 0, f.order)
    | .boot | .launched | .spawned =>
      match s.job? f.lid with
      | some j => (3 - j.pri, j.startOrder, 0, f.order)
      | none => (3, 0, 0, f.order)

def rankLt (a b : Nat × Nat × Nat × Nat) : Bool :=
  decide (a.1 < b.1) || (a.1 == b.1 && (decide (a.2.1 < b.2.1) || (a.2.1 == b.2.1 && (decide (a.2.2.1 < b.2.2.1) ||
    (a.2.2.1 == b.2.2.1 && decide (a.2.2.2 < b.2.2.2))))))

/-- The core of a cluster with the fewest resident lanes, the lowest position on a tie (R355). -/
def State.leastCore (s : State) (cluster : Nat) : Nat :=
  (List.range 3).foldl (fun c p =>
    if s.lanesOn (coreOfCluster cluster p) < s.lanesOn c then coreOfCluster cluster p else c) (coreOfCluster cluster 0)

/-- The oldest unplaced fragment or resolve wave of a cluster, among the passes of holders whose stores are in place (R355). -/
def State.nextGraphics (s : State) (cluster : Nat) : Option (Nat × Formed) :=
  s.formed.foldl (fun best ((id, f) : Nat × Formed) =>
    if isPassKind f.kind && f.cluster == cluster && s.mayPlace f.vi (coreOfCluster cluster 0) &&
        (match look s.passes f.pass with | some p => p.stored.isNone | none => false) then
      match best with
      | some (b, g) => if f.order < g.order then some (id, f) else some (b, g)
      | none => some (id, f)
    else best) none

/-- The waves that wait for a place at a core (R355, R410). -/
def State.waiting (s : State) (core : Nat) : List Unplaced :=
  let a := s.issuers.filterMap (fun (id, i) =>
    if i.core == core && i.stage == .unplaced && !i.isItem && s.mayPlace i.vi core then
      (s.job? i.lid).map (fun j => .launched id i j)
    else none)
  let b := (s.formed.filter (fun (_, f) => f.kind == .spawned && f.core == core && s.mayPlace f.vi core)).map (fun (id, f) => .formed id f)
  let c := match s.nextGraphics (clusterOf core) with
    | some (id, f) => if s.leastCore (clusterOf core) = core then [.formed id f] else []
    | none => []
  a ++ b ++ c

/-- The first wave in the order of R410 at a core, unless a saved wave comes before it. -/
def State.nextToPlace (s : State) (core : Nat) : Option Unplaced :=
  if s.saved.any (fun (_, x) => x.wave.core == core && s.mayPlace x.wave.vi core) then none
  else
    (s.waiting core).foldl (fun best u =>
      match best with
      | some b => if rankLt (s.rankOf u) (s.rankOf b) then some u else some b
      | none => some u) none

/-- The footprint of a wave that waits (R41). -/
def Unplaced.prog : Unplaced → Prog
  | .launched _ _ j => j.prog
  | .formed _ f => f.prog

/-- Where the next wave at a core goes, when it fits (R42, R43). -/
def State.placeFor (s : State) (core : Nat) : Option (Unplaced × Spot) :=
  match s.nextToPlace core with
  | some u => (s.fits core u.prog.width u.prog.regs u.prog.scratch).map (fun p => (u, p))
  | none => none

/-- WAVE_PLACE (R42, R410): the first wave that waits at a core is placed with its entry state. -/
def execWavePlace (s : State) : Out :=
  let core := s.occ.core
  match s.placeFor core with
  | none => .next s
  | some (u, p) =>
    let s : State := { s with ctr := s.ctr + 1 }
    match u with
    | .launched id i j => .next (s.placeLaunched id i j p)
    | .formed id f =>
      if isPassKind f.kind then .next (s.placeGraphics id f core p)
      else
        match s.job? f.lid with
        | none => .next { s with formed := del s.formed id }
        | some j =>
          if f.items.all (fun k => ((s.issuer? k).filter (fun i => i.stage == .unplaced)).isNone) then .next { s with formed := del s.formed id }
          else .next (s.placeSpawned id f j p)

/-- A range rounded out to 256 bytes; empty when its length is zero (R53). -/
def roundRange (lo len : Nat) : Nat × Nat := if len = 0 then (0, 0) else (lo / 256 * 256, (lo + len + 255) / 256 * 256)

/-- Whether a declared range breaks its limits (R260). -/
def rangeBad (lo len : Nat) : Bool :=
  len != 0 && (decide (2 ^ 32 < len) || bits lo 63 57 != 0 || decide (2 ^ 57 < lo + len))

/-- The cause of a lane's SPAWN trap (R260): 5 stands for the descriptor. -/
def State.spawnCause (s : State) (r : SpawnReq) (j : Job) (a : SpawnAsk) : State × Option Nat × Option Prog :=
  let depth := match s.issuer? a.item with
    | some i => i.depth
    | none => 0
  match s.readProg j.vi a.desc.toNat j.level with
  | (s, none) => (s, some 5, none)
  | (s, some p) =>
    let key := (s.laneAt r.wid a.lane).key
    if a.key.toNat ≤ key.toNat then (s, some 1, none)
    else if min j.prog.sdepth 8 < depth + 1 then (s, some 2, none)
    else if rangeBad a.rlo a.rlen || rangeBad a.wlo a.wlen then (s, some 3, none)
    else (s, none, some p)

/-- The trap of a lane of a refused SPAWN (R260). -/
def spawnTrap (a : SpawnAsk) (cause : Option Nat) : Trap :=
  match cause with
  | some 5 => formatTrap a.desc.toNat
  | some c => { kind := 0x0F, i0 := dw c }
  | none => { kind := 0x0F, i0 := 4 }

/-- Items of a launch queued at a core. -/
def State.queuedOn (s : State) (lid core : Nat) : Nat :=
  (s.issuers.filter (fun (_, i) => i.lid == lid && i.isItem && i.stage == .queued && i.core == core)).length

/-- The core whose queue takes a child (R56): the issuing core, or the nearest one with space. -/
def State.queueCore (s : State) (lid : Nat) (j : Job) (core : Nat) : Nat :=
  let dist (c : Nat) : Nat := (coreX c - coreX core) + (coreX core - coreX c) + (coreY c - coreY core) + (coreY core - coreY c)
  let free := j.cores.filter (fun c => decide (s.queuedOn lid c < j.sroom))
  free.foldl (fun b c => if dist c < dist b || (!free.contains b) then c else b) core

/-- One more item is counted by a node of a completion tree; a node that had completed opens again, with the nodes above it (R49, R50, log
entry 129). -/
def openNode (top : Nat) : Nat → FMap Nat → Nat → Nat → Nat → FMap Nat
  | 0, m, _, _, _ => m
  | f + 1, m, l, b, a =>
    let key := 256 * l + 16 * b + a
    if has m key then modKey m key (fun n => n + 1)
    else if top ≤ l then put m key 1
    else openNode top f (put m key 1) (l + 1) (b / 2) (a / 2)

/-- Create one child of a SPAWN that succeeds (R50, R53, R56); one that a cancel finds on a core it has reached is flushed (R420). -/
def State.createChild (s : State) (r : SpawnReq) (lid : Nat) (j : Job) (a : SpawnAsk) (p : Prog) : State :=
  let (id, s) := s.fresh
  let depth := match s.issuer? a.item with
    | some i => i.depth + 1
    | none => 1
  let (rlo, rhi) := roundRange a.rlo a.rlen
  let (wlo, whi) := roundRange a.wlo a.wlen
  let core := s.queueCore lid j r.core
  let i : Issuer :=
    { vi := j.vi, lid := lid, core := core, isItem := true, key := a.key.toNat, cls := 1, ord := id, parent := a.item, depth := depth, prog := p,
      arg := a.arg, rlo := rlo, rhi := rhi, wlo := wlo, whi := whi, home := r.core, enqueued := (s.coreAt core).cycle, stage := .queued }
  let s : State := { s with issuers := put s.issuers id i }
  let s := s.modJob lid (fun j => { j with counts := openNode j.top 5 j.counts 0 (coreY r.core - j.y0) (coreX r.core - j.x0) })
  if j.reached.contains core then s.discardIssuer id else s

/-- Every lane of a decided SPAWN receives its status and goes on (R261). -/
def State.answerSpawn (s : State) (id : Nat) (r : SpawnReq) (st : Nat) : State :=
  let s : State := { s with spawns := del s.spawns id }
  r.asks.foldl (fun s a => if a.gone then s else (s.putV r.wid a.lane a.dst 1 st).leave r.wid a.lane) s

/-- The lanes of a SPAWN that R54 step 1 refuses take their traps, those of the lower program counter first (R260, R395). -/
def State.refuseSpawn (s : State) (id : Nat) (r : SpawnReq) (cs : List (SpawnAsk × Option Nat)) : State :=
  let s : State := { s with spawns := del s.spawns id }
  let live := cs.filter (fun (a, _) => !a.gone)
  let s := live.foldl (fun s (a, _) => s.modLane r.wid a.lane (fun l => { l with wait := .run })) s
  ((live.map (fun (a, _) => a.pc)).eraseDups).foldl (fun s pc =>
    s.raiseTraps r.wid pc ((live.filter (fun (a, _) => a.pc == pc)).map (fun (a, c) => (a.lane, spawnTrap a c)))) s

/-- What is wrong with the requests of a SPAWN, and the programs of those with nothing wrong, in order (R260). -/
def State.spawnCauses (s : State) (r : SpawnReq) (j : Job) : State × List (SpawnAsk × Option Nat × Option Prog) :=
  r.asks.foldl (fun ((s, cs) : State × List (SpawnAsk × Option Nat × Option Prog)) a =>
    let (s, c, p) := s.spawnCause r j a
    (s, cs ++ [(a, c, p)])) (s, [])

/-- The items of a SPAWN that has its units are enqueued; the units of lanes that are gone go back (R54 to R56, R261). -/
def State.spawnItems (s : State) (id lid : Nat) (r : SpawnReq) (j : Job) (cs : List (SpawnAsk × Option Nat × Option Prog)) : State :=
  let s := s.giveUnits lid r.core (cs.filter (fun (a, _, _) => a.gone)).length
  let s := cs.foldl (fun s (a, _, p) =>
    match p with
    | some p => if a.gone then s else s.createChild r lid j a p
    | none => s) s
  s.answerSpawn id r 0

/-- SPAWN_DECISION (R54 to R56, R260, R261): a request is decided whole. -/
def execSpawnDecision (s : State) : Out :=
  let id := s.occ.id
  match look s.spawns id with
  | none => .next s
  | some r =>
    let lid := (s.waveAt r.wid).lid
    match s.job? lid with
    | none => .next (s.answerSpawn id r 1)
    | some j =>
      let (s, cs) := s.spawnCauses r j
      if cs.any (fun (_, c, _) => c.isSome) then .next (s.refuseSpawn id r (cs.map (fun (a, c, _) => (a, c))))
      else if (match j.cancelAt with | some t => decide (t < s.gt) | none => false) then .next (s.answerSpawn id r 2)
      else
        match s.tryNow j.sctrPa r.core cs.length with
        | (s, false) => .next (s.answerSpawn id r 1)
        | (s, true) => .next (s.spawnItems id lid r j cs)

/-- Whether two ranges overlap. -/
def meet (a b c d : Nat) : Bool := decide (a < d) && decide (c < b)

/-- Whether two items conflict (R58). -/
def itemsConflict (a b : Issuer) : Bool :=
  meet a.wlo a.whi b.rlo b.rhi || meet a.wlo a.whi b.wlo b.whi || meet b.wlo b.whi a.rlo a.rhi

/-- Whether an item comes before another of its launch (R58). -/
def itemBefore (a b : Nat × Issuer) : Bool := decide (a.2.key < b.2.key) || (a.2.key == b.2.key && decide (a.1 < b.1))

/-- Whether a queued item is eligible (R58). -/
def State.eligible (s : State) (x : Nat × Issuer) : Bool :=
  !s.issuers.any (fun (k, i) => k != x.1 && i.isItem && i.lid == x.2.lid && !i.done && itemsConflict i x.2 && itemBefore (k, i) x)

/-- The eligible items queued at a core, oldest first. -/
def State.eligibleOn (s : State) (core : Nat) : List (Nat × Issuer) :=
  s.issuers.filter (fun x => x.2.isItem && x.2.stage == .queued && x.2.core == core && s.eligible x)

/-- Whether two items belong to one group of the packing unit (R53, R59). -/
def sameGroup (a b : Issuer) : Bool := a.lid == b.lid && a.prog.addr == b.prog.addr && a.depth == b.depth

/-- Whether a wave is runnable (R63). -/
def State.runnable (s : State) (wid : Nat) (w : Wave) : Bool := w.idx.any (fun k => s.ready wid w (s.peek w (w.lane k)) k)

/-- Whether a launch has a runnable or an unplaced wave on a core (R59). The rule does not say what a saved wave counts as: here it is neither
(log entry 119). -/
def State.launchBusy (s : State) (lid core : Nat) : Bool :=
  s.waves.any (fun (wid, w) => w.lid == lid && w.core == core && (w.kind == .launched || w.kind == .spawned) && s.runnable wid w) ||
  s.issuers.any (fun (_, i) => i.lid == lid && i.core == core && !i.isItem && i.stage == .unplaced) ||
  s.formed.any (fun (_, f) => f.lid == lid && f.core == core && f.kind == .spawned)

/-- Whether a group forms a wave by rules 1 or 3 of R59, and whether by rule 2. The 512 cycles run from the item's enqueue, not from when it
became eligible: the rule leaves the start open (log entry 120). -/
def State.groupFull (s : State) (core : Nat) (g : List (Nat × Issuer)) : Bool :=
  match g with
  | (_, i) :: _ => decide (i.prog.width ≤ g.length) || !s.launchBusy i.lid core
  | [] => false
def State.groupOld (s : State) (core : Nat) (g : List (Nat × Issuer)) : Bool :=
  match g with
  | (_, i) :: _ =>
    decide (i.enqueued + 512 ≤ (s.coreAt core).cycle) && !(match s.job? i.lid with | some j => j.det | none => false)
  | [] => false

/-- The group that forms next at a core: of those that are ready, the one with the oldest eligible item (R59). -/
def State.nextGroup (s : State) (core : Nat) : Option (List (Nat × Issuer)) :=
  let es := s.eligibleOn core
  if (s.coreAt core).packed then none
  else
    es.findSome? (fun x =>
      let g := es.filter (fun y => sameGroup x.2 y.2)
      if s.groupFull core g || s.groupOld core g then some g else none)

/-- Insert an item by its order. -/
def insertItem (x : Nat × Issuer) : List (Nat × Issuer) → List (Nat × Issuer)
  | [] => [x]
  | y :: t => if itemBefore x y then x :: y :: t else y :: insertItem x t

/-- The items that a group's wave takes, in the order of its lanes (R59, R62). -/
def takeItems (det : Bool) (w : Nat) (g : List (Nat × Issuer)) : List (Nat × Issuer) :=
  if det && decide (w < g.length) then ((g.foldr insertItem []).take w) else g.take w

/-- Form a wave of a group; the items' units return to the counter (R56, R59). -/
def State.packGroup (s : State) (core : Nat) (g : List (Nat × Issuer)) : State :=
  match g with
  | [] => s
  | (_, i) :: _ =>
    let det := match s.job? i.lid with | some j => j.det | none => false
    let pri := match s.job? i.lid with | some j => j.pri | none => 0
    let xs := takeItems det i.prog.width g
    let (fid, s) := s.fresh
    let f : Formed := { kind := .spawned, core := core, vi := i.vi, lid := i.lid, items := xs.map Prod.fst, order := fid, pri := pri, prog := i.prog }
    let s := xs.foldl (fun s (id, _) => s.modIssuer id (fun x => { x with stage := .unplaced })) s
    let s := s.giveUnits i.lid core xs.length
    ({ s with formed := put s.formed fid f } : State).modCore core (fun k => { k with packed := true })

/-- PACK_WAVE (R59 rules 1 and 3): the packing unit forms a wave. -/
def execPackWave (s : State) : Out :=
  match s.nextGroup s.occ.core with
  | some g => if s.groupFull s.occ.core g then .next (s.packGroup s.occ.core g) else .next s
  | none => .next s

/-- PACK_WAIT_EXPIRE (R59 rule 2): a group whose oldest eligible item has waited 512 cycles forms a wave. -/
def execPackWaitExpire (s : State) : Out :=
  match s.nextGroup s.occ.core with
  | some g => if s.groupFull s.occ.core g then .next s else .next (s.packGroup s.occ.core g)
  | none => .next s

/-- Whether every store and atomic of an issuer at the banks is performed (R50, R143). -/
def State.bankStoresDone (s : State) (id : Nat) : Bool := !s.ops.any (fun (_, o) => o.item == id && o.writes && o.place == .bank && !o.done)

/-- Whether an issuer completes (R50, R51, R329, R396): it has retired, its stores are performed, its versions committed, and no record of
it waits. One that touched no D page completes before the token reaches it; it is then no longer there to be aborted, which the manual does
not settle (R162, log entry 121). -/
def State.completeDue (s : State) (id : Nat) (i : Issuer) : Bool :=
  i.stage == .retired && !i.done && i.trapped.isEmpty && s.storesDone id && s.bankStoresDone id && (i.committed || !s.touchedD id) &&
  !s.trapReqs.any (fun (_, r) => r.item == id && r.lanes.length ≤ 1 && r.wid == 0)

/-- An issuer that is complete leaves the table; one that is not committed, because it touched no D page, stays there as done while an issuer
that it spawned is listed, since an abort of its ancestors reaches its descendants through it (R162). -/
def State.completeIssuer (s : State) (id : Nat) : State :=
  if s.issuers.any (fun (_, i) => i.parent == id) then s.modIssuer id (fun i => { i with done := true, committed := true })
  else (({ s with issuers := del s.issuers id } : State)).pruneDone

/-- WAVE_COMPLETE (R49, R50): a launched wave or an item completes, and the nodes that drain complete with it. -/
def execWaveComplete (s : State) : Out :=
  let id := s.occ.id
  match s.issuer? id with
  | some i =>
    if s.completeDue id i then
      .next (((s.countDown i).completeIssuer id).settleBarriers.drainJobs)
    else .next s.drainJobs
  | none => .next s.drainJobs

/-- The slot of an image is free again; a page that faults fails the pool (R417). -/
def State.freeSlot (s : State) (x : Saved) : State :=
  match s.markSlot x.wave.vi x.slot false with
  | (s, true) => s
  | (s, false) => s.poolFault x.wave.vi

/-- Drop a saved wave and its image (R420): it is killed without a mark of failure of its own. -/
def State.dropSaved (s : State) (wid : Nat) (x : Saved) : State := (s.killSaved wid x 0).freeSlot x

/-- A saved wave that has no lane left is gone with its image; the reports kept with its claims become records (R299). -/
def State.forgetSaved (s : State) (wid : Nat) (x : Saved) : State :=
  let s := s.savedReports x
  let s := x.wave.idx.foldl (fun s k => s.dueRecords wid k true) s
  let s := (s.dropFlight wid (fun _ => true)).disarm x.wave.core wid
  ({ s with saved := del s.saved wid } : State).settleBarriers.freeSlot x

/-- A cancel of a job reaches a core: the job's waves there stop, its items are flushed, its other work is dropped; issuers that retired and
are not committed are aborted as well, and none starts again (R165, R420). -/
def State.cancelOn (s : State) (lid core : Nat) : State :=
  let s := s.modJob lid (fun j => { j with reached := core :: j.reached })
  let s := (s.waves.filter (fun (_, w) => w.lid == lid && w.core == core)).foldl (fun s (wid, _) => s.killWave wid 1) s
  let s := (s.saved.filter (fun (_, x) => x.wave.lid == lid && x.wave.core == core)).foldl (fun s (wid, x) => s.dropSaved wid x) s
  let gone := (s.issuers.filter (fun (_, i) => i.lid == lid && i.core == core && !i.committed)).map Prod.fst
  let s := gone.foldl (fun s id => (s.discardVersions id).discardIssuer id) s
  let s : State := { s with formed := s.formed.filter (fun (_, f) => !(f.lid == lid && f.core == core && f.kind == .spawned)) }
  let late := (s.issuers.filter (fun (_, i) => i.lid == lid && i.core == core)).map Prod.fst
  (s.stopCmds (fun c => late.contains c.item)).drainJobs

/-- CANCEL_REACH (R420). -/
def execCancelReach (s : State) : Out :=
  let lid := s.occ.id
  let core := s.occ.core
  match s.job? lid with
  | none => .next s
  | some j => if j.cancelAt.isNone ∨ j.reached.contains core ∨ s.coreOfVi j.vi core = false then .next s else .next (s.cancelOn lid core)

end Sys2Proof.Machine
end

