-- ==== Sys2Proof/Machine/Image.lean ====
section
/-!
DEFINITION. The context image (R313, R417 to R419): where its sections lie, what a save writes into each of them, and what a restore reads
back. The manual lists what each section holds; the place of an item within its section is the model's choice (log entry 127), and bytes
that no item fills are free.
-/
namespace Sys2Proof.Machine

/-- Round up to a multiple of 64 (R418). -/
def up64 (n : Nat) : Nat := (n + 63) / 64 * 64

/-- Where the sections of an image of L lanes of n registers and A area bytes start: wave state, lanes, registers, area, matrix (R418). -/
def headAt : Nat := 0x40
def lanesAt : Nat := 0x440
def regsAt (l : Nat) : Nat := up64 (lanesAt + 128 * l)
def areaAt (l n : Nat) : Nat := up64 (regsAt l + 4 * n * l + n * l / 8)
def restAt (l n a : Nat) : Nat := up64 (areaAt l n + a + a / 32)

/-- n bytes that nothing constrains. -/
def State.freeBytes (s : State) : Nat → State × List Byte
  | 0 => (s, [])
  | n + 1 =>
    let (b, s) := s.freeBits 8
    let (s, t) := s.freeBytes n
    (s, BitVec.ofNat 8 b :: t)

/-- Store bytes at a virtual address of the part, piece by piece of 64 KiB (R417). -/
def State.storeLong (s : State) (vi : Nat) : Nat → Nat → List Byte → State × Bool
  | 0, _, _ => (s, true)
  | f + 1, va, bs =>
    if bs.isEmpty then (s, true)
    else
      let n := 0x10000 - va % 0x10000
      match s.partStore vi va (bs.take n) with
      | (s, false) => (s, false)
      | (s, true) => s.storeLong vi f (va + n) (bs.drop n)

/-- The code of a wave's kind in the image's header (R419). -/
def kindCode : WaveKind → Nat
  | .boot | .launched => 0
  | .spawned => 1
  | .fragment => 2
  | .resolve => 3

/-- n bits, the first lowest. -/
def packBits (n : Nat) (p : Nat → Bool) : Nat := (List.range n).foldl (fun x k => if p k then x + 2 ^ k else x) 0

/-- The 64-bit words of the wave's own section (R418): w0 to w63, the supervisor w63, k1 to k7, WS, the full bits of the wave registers, those
of the supervisor w63 and of k1 to k7, eight block barrier counts, and MSTAT. -/
def State.headWords (s : State) (wid : Nat) (w : Wave) : List Nat :=
  (List.range 64).map (fun n => (w.rw 0 n).toNat) ++ [(w.rw 1 63).toNat] ++ (List.range 7).map (fun n => (w.rk (n + 1)).toNat) ++
    [w.ws.toNat, packBits 64 (fun n => !has w.we n), packBits 8 (fun n => if n = 0 then !has w.we 64 else !has w.ke n)] ++
    (List.range 8).map (fun l => lookD w.bars l 0) ++ [s.mstat wid w]

/-- The code of a lane's wait in its section (R418). -/
def waitCode : Wait → Nat
  | .run => 0 | .barrier _ => 1 | .sleep _ => 2 | .full _ => 3 | .empty _ => 4 | .sign _ _ _ => 5 | .spawn _ => 6 | .commit _ _ => 7
  | .held _ => 8 | .rowBar _ _ _ _ _ => 9 | .posting _ => 10 | .matrix => 11 | .arming _ => 12 | .claim _ _ _ => 13 | .graphics _ => 14
  | .banks _ _ _ _ => 15 | .ordEnter _ => 16 | .ordLeave => 17 | .room => 18 | .sys => 19 | .page _ => 20 | .record _ => 21
  | .restart => 22 | .stopped => 23

/-- SYS.TSTAT of a lane (R388). -/
def Lane.tstat (l : Lane) : Nat := l.level.toNat * 16 + bCode l.inh * 8 + bCode l.disc * 4 + l.prv.toNat

/-- The 64-bit words of a lane's section (R418): the program counter with the level in bits [58:57] and the wait above it, SYS.TPC, SYS.TSV,
SYS.TSTAT, SYS.KS0, SYS.KS1, ls0 to ls3, le0 to le3, and lc0 to lc3 two by two. -/
def Lane.imageWords (l : Lane) : List Nat :=
  [l.pc.toNat % 2 ^ 57 + l.level.toNat * 2 ^ 57 + waitCode l.wait * 2 ^ 59, l.tpc.toNat, l.tsv.toNat, l.tstat, l.ks0.toNat, l.ks1.toNat] ++
    (List.range 4).map (fun n => (lookD l.ls n 0).toNat) ++ (List.range 4).map (fun n => (lookD l.le n 0).toNat) ++
    (List.range 2).map (fun n => (lookD l.lc (2 * n) 0).toNat + 2 ^ 32 * (lookD l.lc (2 * n + 1) 0).toNat)

/-- The words of a wave's area, lowest first. -/
def State.areaWords (s : State) (w : Wave) : List SWord :=
  (List.range (w.areaSize / 4)).map (fun k => s.spadAt (wordKey w.core w.area + k))

/-- The tiles that a wave owns, rising. -/
def Core.tilesOf (k : Core) (wid : Nat) : List (Nat × Tile) := (k.tiles.filter (fun (_, t) => t.owner == some wid)).foldr insertFirst []

/-- An image element of a cell's value (R311). -/
def cellImage (kind v : Nat) : Nat := if kind = 1 then sx64 48 v else v

/-- Whether a tile's cells stand in the image of the even tile of its pair (R294). -/
def inPairImage (ts : List (Nat × Tile)) (t kind : Nat) : Bool := kind == 2 && t % 2 == 1 && ts.any (fun x => x.1 + 1 == t)

/-- The bytes of one tile in an image: its kind and OVF, then its rows as MST writes them (R311, R313). -/
def tileImage (ts : List (Nat × Tile)) (t : Nat) (x : Tile) : List Byte :=
  let e := if x.kind = 0 then 4 else 8
  let odd : Tile := (look ts (t + 1)).getD {}
  let value (m n : Nat) : Nat :=
    if x.kind = 2 then (if t % 2 = 0 then x.cell m n + 2 ^ 32 * odd.cell m n else 2 ^ 32 * x.cell m n) else cellImage x.kind (x.cell m n)
  toBytes 8 (x.kind + 4 * bCode x.ovf) ++
    (if inPairImage ts t x.kind then [] else (List.range 64).flatMap (fun m => (List.range 256).flatMap (fun n => toBytes e (value m n))))

/-- The bytes of an element of B in the latch; a codebook's stand expanded (R106). -/
def latchSize : MF → Nat
  | .cb => 2
  | .f32 => 4
  | .f64 => 8
  | .f16 | .bf16 => 2
  | .e4m3 | .e5m2 | .s8 | .z8 => 1

/-- The bytes of the latch in an image: its format, 15 for none, and N, four scales, B by columns, then the table slots and their bits (R303,
R313). -/
def latchImage (l : Latch) (slots : FMap Nat) : List Byte :=
  toBytes 8 ((match l.fmt with | some mf => mfCode mf | none => 15) + 16 * l.n) ++
    (List.range 4).flatMap (fun j => toBytes 4 (l.scales.getD j 0)) ++
    (match l.fmt with
     | some mf => l.b.flatMap (fun c => (List.range 128).flatMap (fun k => toBytes (latchSize mf) (c.getD k 0)))
     | none => []) ++
    (List.range 512).flatMap (fun n => toBytes 16 (lookD slots n 0)) ++ toBytes 64 (packBits 512 (fun n => has slots n))

/-- The bytes of an armed sign register, with its number in the reserved bits (R256, R258). -/
def signImage (g : Nat) (x : Sign) : List Byte := toBytes 8 (2 ^ 63 + x.slot * 2 ^ 58 + g) ++ toBytes 8 x.set.toNat ++ toBytes 8 x.signed.toNat

/-- The matrix section of a wave's image (R313, R418). -/
def matrixImage (ts : List (Nat × Tile)) (latch : Option Latch) (slots : FMap Nat) (signs : List (Nat × Sign)) : List Byte :=
  ts.flatMap (fun (t, x) => tileImage ts t x) ++
    (match latch with
     | some l => latchImage l slots
     | none => []) ++
    signs.flatMap (fun (g, x) => signImage g x)

/-- The sign registers that a wave armed, rising (R258). -/
def Core.signsOf (k : Core) (wid : Nat) : List (Nat × Sign) := (k.signs.filter (fun (_, g) => g.armed && g.wid == wid)).foldr insertFirst []

/-- The matrix section that the state of a core gives a wave. -/
def Core.matrixOf (k : Core) (wid : Nat) : List Byte :=
  let mine := k.latch.owner == some wid
  matrixImage (k.tilesOf wid) (if mine then some k.latch else none) (if mine then k.slots else []) (k.signsOf wid)

/-- The withdrawn accesses of a wave, in their order at the banks (R414). -/
def State.parkedOps (s : State) (wid : Nat) : List (Nat × Op) := (s.ops.filter (fun (_, o) => o.wid == wid && o.parked)).foldr insertOrder []

/-- The 32 bytes of a withdrawn access (R418): its address, lane, OPC, size and destination; its data; and its compare value. -/
def Op.image (o : Op) : List Byte :=
  let dst := match o.dst with
    | some (.v r) => r
    | _ => 0
  toBytes 8 (o.addr % 2 ^ 32 + o.lane * 2 ^ 32 + o.opc * 2 ^ 38 + o.total * 2 ^ 46 + dst * 2 ^ 51) ++ toBytes 16 o.data ++ toBytes 8 o.cmp

/-- The header's eight words but the first (R419). -/
def State.headerRest (s : State) (w : Wave) : List Nat :=
  let num (lid : Nat) : Nat := match s.job? lid with | some j => j.num | none => 0
  let lid := match look s.passes w.pass, isPassKind w.kind with
    | some p, true => p.opener
    | _, _ => w.lid
  [w.key.toNat, w.prog.toNat, s.gt, num lid * 2 ^ 32 + w.slot * 2 ^ 24 + coreY w.core * 2 ^ 20 + coreX w.core * 2 ^ 16 + w.pos,
   w.area * 2 ^ 32 + w.areaSize / 256, 0, 0]

/-- The header's first word, written last (R419). -/
def headerWord (w : Wave) (size : Nat) : Nat :=
  2 ^ 63 + 2 ^ 56 + kindCode w.kind * 2 ^ 54 + Nat.log2 (w.width / 8) * 2 ^ 52 + (w.regs / 16 - 1) * 2 ^ 48 + bCode w.forced * 2 ^ 47 +
    bCode (w.lanes.any (fun l => l.live && l.inside)) * 2 ^ 46 + size % 2 ^ 22

/-- Where the withdrawn accesses of an image start, after a matrix section of so many bytes (R418). -/
def Wave.parkedAt (w : Wave) (matrix : Nat) : Nat := up64 (restAt w.width w.regs w.areaSize + matrix)

/-- The sections of a wave's image after its header, each at its offset (R418). -/
def State.imageParts (s : State) (wid : Nat) (w : Wave) : List (Nat × List Byte) :=
  let m := (s.coreAt w.core).matrixOf wid
  [(headAt, (s.headWords wid w).flatMap (toBytes 8)),
   (lanesAt, w.lanes.flatMap (fun l => l.imageWords.flatMap (toBytes 8))),
   (regsAt w.width, w.lanes.flatMap (fun l => (List.range w.regs).flatMap (fun r => toBytes 4 (l.rv r).toNat)) ++
      w.lanes.flatMap (fun l => toBytes (w.regs / 8) (packBits w.regs (fun r => !has l.ve r)))),
   (areaAt w.width w.regs, (s.areaWords w).flatMap (fun x => toBytes 4 x.val.toNat) ++
      toBytes (w.areaSize / 32) (packBits (w.areaSize / 4) (fun k => ((s.areaWords w).getD k {}).full))),
   (restAt w.width w.regs w.areaSize, m),
   (w.parkedAt m.length, (s.parkedOps wid).flatMap (fun x => x.2.image))]

/-- The bytes of a wave's image (R419). -/
def State.imageSize (s : State) (wid : Nat) (w : Wave) : Nat :=
  w.parkedAt ((s.coreAt w.core).matrixOf wid).length + 32 * (s.parkedOps wid).length

/-- Write the image of a wave (R417 to R419): every section, the header, and its first word last. -/
def State.saveImage (s : State) (wid : Nat) (w : Wave) (slot : Nat) : State × Bool :=
  let va := s.imageVa w.vi slot
  let store (r : State × Bool) (x : Nat × List Byte) : State × Bool := if r.2 then r.1.storeLong w.vi 64 (va + x.1) x.2 else r
  let (t, body) := s.freeBytes (s.imageSize wid w - 0x40)
  ((0x40, body) :: s.imageParts wid w ++ [(8, (s.headerRest w).flatMap (toBytes 8)), (0, toBytes 8 (headerWord w (s.imageSize wid w)))]).foldl
    store (t, true)

/-- Read n words of four bytes of an image; none when a page faults (R417). -/
def State.imageWords (s : State) (vi va : Nat) : Nat → State × Option (List Nat)
  | 0 => (s, some [])
  | n + 1 =>
    match s.partNum vi va 4 1 with
    | (s, none) => (s, none)
    | (s, some x) =>
      match s.imageWords vi (va + 4) n with
      | (s, none) => (s, none)
      | (s, some t) => (s, some (x :: t))

/-- The number in n bytes at an offset of an image, from its words after the header. -/
def ctxNum (ws : List Nat) (at_ n : Nat) : Nat :=
  let k := (at_ - 0x40) / 4
  let x := (((ws.drop k).take ((at_ % 4 + n + 3) / 4)).foldr (fun x r => x + 2 ^ 32 * r) 0)
  x / 2 ^ (8 * (at_ % 4)) % 2 ^ (8 * n)

/-- Whether bit i of the bytes at an offset of an image is set. -/
def ctxBit (ws : List Nat) (at_ i : Nat) : Bool := bit (ctxNum ws (at_ + i / 8) 1) (i % 8)

/-- The empty registers among n, as an image's bits tell: each keeps the producer that it had. -/
def emptyFrom (ws : List Nat) (at_ base n : Nat) (old : FMap Nat) : FMap Nat :=
  ((List.range n).filter (fun k => !ctxBit ws at_ k)).foldl (fun m k => put m (base + k) (lookD old (base + k) 0)) []

/-- A lane as an image holds it; what an image does not hold stays with the saved wave. -/
def Lane.fromImage (l : Lane) (w : Wave) (ws : List Nat) (k : Nat) : Lane :=
  let d (n : Nat) : Nat := ctxNum ws (lanesAt + 128 * k + 8 * n) 8
  let regs := regsAt w.width
  { l with
    pc := dw (d 0 % 2 ^ 57), level := BitVec.ofNat 2 (bits (d 0) 58 57), tpc := dw (d 1), tsv := dw (d 2), inh := bit (d 3) 3, disc := bit (d 3) 2,
    prv := BitVec.ofNat 2 (d 3), ks0 := dw (d 4), ks1 := dw (d 5)
    ls := (List.range 4).foldl (fun m n => put m n (dw (d (6 + n)))) [], le := (List.range 4).foldl (fun m n => put m n (dw (d (10 + n)))) []
    lc := (List.range 4).foldl (fun m n => put m n (BitVec.ofNat 32 (ctxNum ws (lanesAt + 128 * k + 112 + 4 * n) 4))) []
    v := (List.range w.regs).foldl (fun m r => put m r (BitVec.ofNat 32 (ctxNum ws (regs + 4 * (k * w.regs + r)) 4))) []
    ve := emptyFrom ws (regs + 4 * w.regs * w.width + k * (w.regs / 8)) 0 w.regs l.ve }

/-- A wave as an image holds it. -/
def Wave.fromImage (w : Wave) (ws : List Nat) : Wave :=
  let d (n : Nat) : Nat := ctxNum ws (headAt + 8 * n) 8
  let masks := (List.range 7).map (fun n => n + 1)
  { w with
    w := (List.range 65).foldl (fun m n => put m n (dw (d n))) []
    we := emptyFrom ws (headAt + 8 * 73) 0 64 w.we ++ (if ctxBit ws (headAt + 8 * 74) 0 then [] else [(64, lookD w.we 64 0)])
    k := masks.foldl (fun m n => put m n (dw (d (64 + n)))) []
    ke := (masks.filter (fun n => !ctxBit ws (headAt + 8 * 74) n)).foldl (fun m n => put m n (lookD w.ke n 0)) []
    ws := BitVec.ofNat 7 (d 72)
    bars := ((List.range 8).filter (fun l => d (75 + l) != 0)).foldl (fun m l => put m l (d (75 + l))) []
    lanes := (w.lanes.zip (List.range w.lanes.length)).map (fun (l, k) => l.fromImage w ws k) }

/-- The words of a wave's area as an image holds them, with the last changers they had. -/
def Saved.areaFrom (x : Saved) (ws : List Nat) : List (Nat × SWord) :=
  let w := x.wave
  let at_ := areaAt w.width w.regs
  (List.range (w.areaSize / 4)).map (fun k =>
    (wordKey w.core w.area + k,
     { val := BitVec.ofNat 32 (ctxNum ws (at_ + 4 * k) 4), full := ctxBit ws (at_ + w.areaSize) k,
       last := (lookD x.area (wordKey w.core w.area + k) {}).last }))

/-- The cells of tile t of an image whose elements of e bytes start at an offset: a tile of kind D holds its half of each (R294). -/
def cellsFrom (ws : List Nat) (at_ kind t : Nat) : List (List Nat) :=
  let e := if kind = 0 then 4 else 8
  (List.range 64).map (fun m => (List.range 256).map (fun n =>
    let v := ctxNum ws (at_ + e * (256 * m + n)) e
    if kind = 0 then v else if kind = 1 then v % 2 ^ 48 else if t % 2 = 0 then v % 2 ^ 32 else v / 2 ^ 32))

/-- The tiles of a saved wave as an image holds them, and where the next item of its matrix section starts. -/
def Saved.tilesFrom (x : Saved) (ws : List Nat) : FMap Tile × Nat :=
  x.tiles.foldl (fun (m, at_) (t, y) =>
    let h := ctxNum ws at_ 8
    let n := (tileImage x.tiles t y).length
    let from_ := if inPairImage x.tiles t y.kind then at_ + 8 - (tileImage x.tiles (t - 1) ((look x.tiles (t - 1)).getD {})).length else at_ + 8
    (put m t { y with kind := h % 4, ovf := bit h 2, cells := cellsFrom ws from_ y.kind t }, at_ + n))
    (([] : FMap Tile), restAt x.wave.width x.wave.regs x.wave.areaSize)

/-- The latch of a saved wave and its table slots as an image holds them from an offset, and where the next item starts. -/
def Saved.latchFrom (x : Saved) (ws : List Nat) (at_ : Nat) : Option Latch × FMap Nat × Nat :=
  match x.latch with
  | none => (none, [], at_)
  | some l =>
    let sz := match l.fmt with
      | some mf => latchSize mf
      | none => 0
    let b := if l.fmt.isNone then [] else
      (List.range l.b.length).map (fun c => (List.range 128).map (fun k => ctxNum ws (at_ + 24 + sz * (128 * c + k)) sz))
    let tables := at_ + 24 + (if l.fmt.isNone then 0 else sz * 128 * l.b.length)
    let slots := ((List.range 512).filter (fun n => ctxBit ws (tables + 8192) n)).foldl (fun m n => put m n (ctxNum ws (tables + 16 * n) 16)) []
    (some { l with b := b, scales := (List.range l.scales.length).map (fun j => ctxNum ws (at_ + 8 + 4 * j) 4), n := ctxNum ws at_ 8 / 16 },
     slots, tables + 8256)

/-- The sign registers of a core with what an image holds of those that a saved wave armed, from an offset; they are no longer held, and name
the wave's slot (R258). -/
def Core.signsFrom (k : Core) (ws : List Nat) (at_ wid slot : Nat) : FMap Sign :=
  let mine := (k.signsOf wid).map Prod.fst
  k.signs.map (fun (g, x) =>
    if mine.contains g then
      let p := at_ + 24 * (mine.filter (fun y => decide (y < g))).length
      (g, { x with held := false, slot := slot, set := dw (ctxNum ws (p + 8) 8), signed := dw (ctxNum ws (p + 16) 8),
                   entry := x.entry.map (fun e => { e with slot := slot }) })
    else (g, x))

/-- A core with the matrix state that an image holds of a saved wave, in a slot (R313). -/
def Core.matrixBack (k : Core) (x : Saved) (ws : List Nat) (slot : Nat) : Core :=
  let (tiles, p) := x.tilesFrom ws
  let (latch, slots, q) := x.latchFrom ws p
  { k with
    tiles := tiles.foldl (fun m e => put m e.1 e.2) k.tiles
    latch := latch.getD k.latch
    slots := if latch.isSome then slots else k.slots
    signs := k.signsFrom ws q x.wid slot }

end Sys2Proof.Machine
end

