-- ==== Sys2Proof/Machine/Preempt.lean ====
section
/-!
DEFINITION. Pre-emption (R413 to R419): forced saves, the withdrawal of what a saved wave waits for, the context image and its slot, and
the restore of a wave.
-/
namespace Sys2Proof.Machine

/-- Cycles from a wave's pre-emption request (R413). -/
def State.sinceAsked (s : State) (w : Wave) : Nat := (s.coreAt w.core).cycle - w.asked

/-- Whether a wave's DEADLINE has passed without a yield (R413). -/
def State.forceDue (s : State) (w : Wave) : Bool :=
  w.pending && !w.yielding && !w.forced && decide (s.sysBits 0x202 w.vi 31 0 ≤ s.sinceAsked w)

/-- FORCED_SAVE (R413, R414): each lane stops before its next unissued instruction. -/
def execForcedSave (s : State) : Out :=
  match s.wave? s.occ.wid with
  | none => .next s
  | some w =>
    if s.forceDue w then .next ((s.countCore w.core w.vi false 0x009 1).modWave s.occ.wid (fun w => { w with forced := true }))
    else .next s

/-- Whether a lane waits in an instruction whose wait a save withdraws (R413, R414). -/
def State.withdrawn (s : State) (l : Lane) : Bool :=
  match l.wait with
  | .rowBar _ _ _ _ _ | .claim _ _ _ | .arming _ | .posting _ | .graphics _ | .ordEnter _ => true
  | .held id => (match look s.tillMsgs id with | some m => m.act == .take | none => false)
  | .run | .barrier _ | .sleep _ | .full _ | .empty _ | .sign _ _ _ | .spawn _ | .commit _ _ | .matrix | .banks _ _ _ _ | .ordLeave
  | .room | .sys | .page _ | .record _ | .restart | .stopped => false

/-- Whether a lane's instruction completes before a save (R413 step 3, R414). -/
def State.laneBusy (s : State) (l : Lane) : Bool :=
  l.live && !s.withdrawn l &&
  (match l.wait with
   | .held _ | .spawn _ | .banks _ _ _ _ | .ordLeave | .record _ | .sys => true
   | .run => l.owes == some l.pc
   | .barrier _ | .sleep _ | .full _ | .empty _ | .sign _ _ _ | .commit _ _ | .rowBar _ _ _ _ _ | .posting _ | .matrix | .arming _
   | .claim _ _ _ | .graphics _ | .ordEnter _ | .room | .page _ | .restart | .stopped => false)

/-- Whether an access has to be decided before its wave is saved: every one but a store beyond the banks, and an access that waits at a
bank (R413, R414). -/
def State.opBusy (s : State) (id : Nat) (o : Op) : Bool :=
  if o.place = .bank then o.done || s.bankDue id o
  else
    match o.act with
    | .store | .fence _ | .flush => false
    | .load _ | .atom _ _ | .cas _ | .fatom _ _ | .fill | .sete | .drain _ | .push | .pop | .rbrd | .rbadd => o.dst.isSome

/-- Whether a wave that yields or is forced has nothing left to complete before its image is written (R413). -/
def State.quiet (s : State) (wid : Nat) (w : Wave) : Bool :=
  let k := s.coreAt w.core
  !w.lanes.any s.laneBusy &&
  !s.ops.any (fun (id, o) => o.wid == wid && s.opBusy id o) &&
  !s.fills.any (fun (_, f) => f.wid == wid) &&
  !s.gfx.any (fun (_, g) => g.wid == wid && !g.gone) &&
  !s.tillMsgs.any (fun (_, m) => m.wid == wid && m.act != .take) &&
  !s.cmds.any (fun (_, c) => c.wid == wid && c.queued && c.local) &&
  !s.spawns.any (fun (_, r) => r.wid == wid) &&
  !k.mq.any (fun e => e.wid == wid) && !k.loader.any (fun e => e.wid == wid) &&
  !s.issues.any (fun c => c.wid == wid)

/-- The lowest free slot of a save pool: none when its page faults or it has no slots (R417). -/
def State.freeImage (s : State) (vi : Nat) : State × Option (Option Nat) :=
  let n := s.sysBits 0x205 vi 12 0
  if n = 0 then (s, none)
  else
    match s.poolBits vi with
    | (s, none) => (s, none)
    | (s, some b) => (s, some ((List.range n).find? (fun k => !bit b k)))

/-- Whether a wave can be saved now, or its pool fails it. -/
def State.saveDue (s : State) (wid : Nat) (w : Wave) : Bool :=
  (w.yielding || w.forced) && s.quiet wid w && (s.freeImage w.vi).2 != some none

/-- Take a wave's matrix state off its core, with what it held (R313): armed registers stay held there (R258). -/
def State.takeMatrix (s : State) (wid : Nat) (w : Wave) : FMap Tile × Option Latch × FMap Nat × State :=
  let k := s.coreAt w.core
  let mine := k.tilesOf wid
  let latch := k.latch.owner == some wid
  let s := s.modCore w.core (fun k => { k with
    tiles := k.tiles.map (fun ((n, t) : Nat × Tile) => (n, if t.owner == some wid then { t with owner := none, report := none } else t))
    latch := if latch then { k.latch with owner := none, report := none } else k.latch
    signs := k.signs.map (fun ((n, g) : Nat × Sign) => (n, if g.armed && g.wid == wid then { g with held := true } else g)) })
  (mine, if latch then some k.latch else none, if latch then k.slots else [], s)

/-- Withdraw what a save withdraws (R414): waits whose instruction executes again after restore, and accesses that wait at banks. -/
def State.withdrawForSave (s : State) (wid : Nat) (w : Wave) : State :=
  let p (k : Nat) : Bool := s.withdrawn (w.lane k)
  let again (l : Lane) : Lane :=
    { l with wait := if s.withdrawn l || l.wait == .room || l.wait == .matrix || (match l.wait with | .page _ => true | _ => false) then .run
      else l.wait }
  let s' := (s.withdraw wid p).modWave wid (fun w => { w with lanes := w.lanes.map again })
  { s' with ops := s'.ops.map (fun ((id, o) : Nat × Op) =>
      (id, if o.wid == wid && o.place == .bank && !o.done then { o with arrived := false, parked := true } else o)) }

/-- A wave whose image is written leaves its core, with its area, its matrix resources and its place among the saved (R413, R416). -/
def State.storeAway (s : State) (wid : Nat) (w : Wave) (slot : Nat) : State :=
  let lo := wordKey w.core w.area
  let words := s.spad.filter (fun (a, _) => decide (lo ≤ a) && decide (a < lo + w.areaSize / 4))
  let (tiles, latch, slots, s) := s.takeMatrix wid w
  let (order, s) := s.fresh
  let w' : Wave := { w with pending := false, yielding := false }
  let x : Saved := { wave := w', slot := slot, order := order, area := words, tiles := tiles, latch := latch, slots := slots, wid := wid }
  let s := w.issuers.foldl (fun s id => s.modIssuer id (fun i => match i.stage with
    | .running _ _ => { i with stage := .saved }
    | .unplaced | .queued | .saved | .retired => i)) s
  (({ s with waves := del s.waves wid, saved := put s.saved wid x } : State).shadowOps wid w).settleMatrix w.core

/-- A wave that stopped has its waits withdrawn and its image written in a slot of its pool, and leaves its core (R413, R416 to R419). -/
def State.saveWave (s : State) (wid slot : Nat) (w : Wave) : State :=
  match s.saveImage wid w slot with
  | (s, false) => s.poolFault w.vi
  | (s, true) => s.storeAway wid w slot

/-- A slot of the pool of an interface is marked in use for a wave, and the wave is saved in it. -/
def State.saveIn (s : State) (wid slot : Nat) (w : Wave) : State :=
  match s.markSlot w.vi slot true with
  | (s, false) => s.poolFault w.vi
  | (s, true) => (s.withdrawForSave wid w).saveWave wid slot ((s.withdrawForSave wid w).waveAt wid)

/-- SAVE_COMPLETE (R413, R416 to R419): a wave that yielded or was forced has its image written and leaves its core. -/
def execSaveComplete (s : State) : Out :=
  match s.wave? s.occ.wid with
  | none => .next s
  | some w =>
    if s.saveDue s.occ.wid w = false then .next s
    else
      match s.freeImage w.vi with
      | (t, none) => .next (t.poolFault w.vi)
      | (t, some none) => .next t
      | (t, some (some slot)) => .next (t.saveIn s.occ.wid slot w)

/-- The header of a saved wave's image (R419). -/
def State.imageWord (s : State) (x : Saved) : State × Option Nat := s.partNum x.wave.vi (s.imageVa x.wave.vi x.slot) 8 1

/-- Where a saved wave fits: the same slot if it is free, a position by R42, and the same area offset (R416). -/
def State.restoreSpot (s : State) (x : Saved) : Option (Nat × Nat) :=
  let w := x.wave
  let slot := if (s.wavesOn w.core).any (fun (_, y) => y.slot == w.slot) then s.findSlot w.core else some w.slot
  if 2048 < s.lanesOn w.core + w.width then none
  else if w.areaSize ≠ 0 ∧ s.areaFree w.core w.area w.areaSize = false then none
  else
    match slot, s.findPos w.core w.width w.regs with
    | some n, some p => some (n, p)
    | _, _ => none

/-- The armed registers that are held for a saved wave. -/
def State.heldSigns (s : State) (x : Saved) : Nat :=
  ((s.coreAt x.wave.core).signs.filter (fun (_, g) => g.armed && g.held && g.wid == x.wid)).length

/-- Whether a saved wave's claims can be made again: its tiles and the latch are free and not asked for by a waiting MWAIT, and the
queue has room for its armed operations (R258, R313). -/
def State.claimsFree (s : State) (x : Saved) : Bool :=
  let named := ((s.claimers x.wave.core).filter (fun c => decide (c.1 < x.asked.getD s.nid))).foldl (fun n c => n ||| c.2.2) 0
  s.claimable x.wave.core x.claims named && decide ((s.coreAt x.wave.core).queueUsed + s.heldSigns x ≤ 16)

/-- The saved wave of a core that is restored next: of its partition's holder, the one saved first (R410, R416). -/
def State.nextRestore (s : State) (core : Nat) : Option (Nat × Saved) :=
  s.saved.foldl (fun best ((wid, x) : Nat × Saved) =>
    if x.wave.core == core && s.mayPlace x.wave.vi core then
      match best with
      | some (b, y) => if x.order < y.order then some (wid, x) else some (b, y)
      | none => some (wid, x)
    else best) none

/-- Whether a saved wave is due: its lanes are all gone, or it is its core's next and everything it had is free; one that has to wait for its
claims begins to wait (R313). -/
def State.restoreDue (s : State) (wid : Nat) (x : Saved) : Bool :=
  x.wave.lanes.all (fun l => !l.live) ||
  ((s.nextRestore x.wave.core).map Prod.fst == some wid && (s.restoreSpot x).isSome && (s.claimsFree x || x.asked.isNone) &&
    (!isPassKind x.wave.kind || (match look s.passes x.wave.pass with | some p => p.stored.isNone | none => true)))

/-- The bytes of a saved wave's image after its header. -/
def State.savedSize (s : State) (x : Saved) : Nat :=
  let m := matrixImage x.tiles x.latch x.slots ((s.coreAt x.wave.core).signsOf x.wid)
  x.wave.parkedAt m.length + 32 * (s.parkedOps x.wid).length - 0x40

/-- The withdrawn accesses of a restored wave are posted again before it issues, in their original order, with what its image holds of them;
those that had not reached their banks are on their way again (R414). -/
def State.repost (s : State) (wid : Nat) (ws : List Nat) (at_ : Nat) : State :=
  let ps := s.parkedOps wid
  (ps.zip (List.range ps.length)).foldl (fun s ((id, o), k) =>
    let (n, s) := s.fresh
    let o : Op :=
      { o with parked := false, arrived := decide (0 < o.order) && !has s.switches (bankOfKey o.pa), order := if o.order = 0 then 0 else n,
               data := ctxNum ws (at_ + 32 * k + 8) 16, cmp := ctxNum ws (at_ + 32 * k + 24) 8 }
    { s with ops := put s.ops id o }) s

/-- Put a saved wave back on its core (R416) with what the words of its image hold; the rest is as it was. -/
def State.putBack (s : State) (wid : Nat) (x : Saved) (ws : List Nat) (slot pos : Nat) : State :=
  let m := matrixImage x.tiles x.latch x.slots ((s.coreAt x.wave.core).signsOf wid)
  let start := (s.coreAt x.wave.core).cycle
  let w := x.wave.fromImage ws
  let w : Wave := { w with
    slot := slot, pos := pos, start := start, lastCan := s.gt, pending := false, yielding := false, forced := false, wsCycle := 0,
    issues := 0, lanes := w.lanes.map (fun l => { l with buf := [], diverged := false, solo := none }) }
  let s : State := { (s.clearArea w.core w.area w.areaSize) with saved := del s.saved wid }
  let s : State := { s with spad := (x.areaFrom ws).foldl (fun m e => put m e.1 e.2) s.spad }
  let s := s.modCore w.core (fun k => k.matrixBack x ws slot)
  let s := (List.range w.lanes.length).foldl (fun s k =>
    let l := w.lane k
    if l.live && l.item != 0 then
      s.modIssuer l.item (fun i => if i.stage = .saved then { i with stage := .running wid (if i.isItem then k else 0) } else i)
    else s) (s.setWave wid w)
  s.repost wid ws (x.wave.parkedAt m.length)

/-- A wave whose image's header cannot be used is killed, with an event record (R419). -/
def State.killRestored (s : State) (wid : Nat) (x : Saved) : State :=
  let (tag, num) := match s.job? x.wave.lid with
    | some j => (j.tag, j.num)
    | none => (0, 0)
  (s.killWave wid 2).event x.wave.vi 7 0 0 0 tag num 0 true

/-- A saved wave is back in its slot and place; its header is whole and of version 1, or it is killed (R419). -/
def State.cameBack (s : State) (wid : Nat) (x : Saved) (h : Nat) : State :=
  if bits h 63 63 = 0 ∨ bits h 62 56 ≠ 1 then (s.killRestored wid x).freeSlot x
  else (((s.settleBanks).settleOrd).settleBarriers).freeSlot x

/-- A saved wave's image is read, and the wave is back with it (R416); a page of it that faults fails the pool (R417). -/
def State.bringBack (s : State) (wid : Nat) (x : Saved) (slot pos : Nat) : State :=
  match s.imageWord x with
  | (t, none) => t.poolFault x.wave.vi
  | (t, some h) =>
    match t.imageWords x.wave.vi (t.imageVa x.wave.vi x.slot + 0x40) ((t.savedSize x + 3) / 4) with
    | (t, none) => t.poolFault x.wave.vi
    | (t, some ws) => (t.putBack wid x ws slot pos).cameBack wid x h

/-- WAVE_RESTORE (R313, R410, R416, R419): a saved wave comes back, or begins to wait for its claims. -/
def execWaveRestore (s : State) : Out :=
  match look s.saved s.occ.wid with
  | none => .next s
  | some x =>
    if s.restoreDue s.occ.wid x = false then .next s
    else if x.wave.lanes.all (fun l => !l.live) then .next ((s.forgetSaved s.occ.wid x).drainJobs)
    else if s.claimsFree x = false then
      .next { s with nid := s.nid + 1, saved := put s.saved s.occ.wid { x with asked := some s.nid } }
    else
      match s.restoreSpot x with
      | none => .next s
      | some (slot, pos) => .next (s.bringBack s.occ.wid x slot pos)

end Sys2Proof.Machine
end

