-- ==== Sys2Proof/Machine/Events.lean ====
section
/-!
DEFINITION. What the part does on its own about waiting lanes and waiting records: barrier time-outs (R82, R83), sleepers (R252), trap
records that wait for room (R395, R396), late store faults (R397), event records that wait (R422), and the wait-cycle detector (R424, R425).
-/
namespace Sys2Proof.Machine

/-- The present lanes of a wave that have not arrived at a barrier instance. -/
def Barrier.missingLanes (b : Barrier) (wid : Nat) (w : Wave) : List Nat :=
  w.idx.filter (fun k => (w.lane k).live && !b.arrived.contains (wid, k))

/-- The wave of an issuer that is resident or saved, with its identity. -/
def State.issuerWave (s : State) (id : Nat) (i : Issuer) : Option (Nat × Wave) :=
  match i.stage with
  | .running wid _ => (s.wave? wid).map (fun w => (wid, w))
  | .saved => (s.saved.find? (fun (_, x) => (x.wave.lane 0).item == id)).map (fun (wid, x) => (wid, x.wave))
  | .unplaced | .queued | .retired => none

/-- The lowest distinct program counters of lanes with how many lanes stand at each: at most two entries (R83). -/
def pcEntries (pcs : List Nat) : List (Nat × Nat) :=
  let low (xs : List Nat) : Option Nat := xs.foldl (fun m x => match m with | some y => some (min x y) | none => some x) none
  match low pcs with
  | none => []
  | some a =>
    let rest := pcs.filter (fun x => x != a)
    let first := (a, pcs.length - rest.length)
    match low rest with
    | none => [first]
    | some b => [first, (b, (rest.filter (fun x => x == b)).length)]

/-- The info of a barrier time-out (R83). -/
def State.barrierInfo (s : State) (bid : Nat) (b : Barrier) : Trap :=
  let entry (e : Option (Nat × Nat)) : DWord := match e with | some (pc, n) => dw (min n 127 * 2 ^ 57 + pc) | none => 0
  if b.isWave then
    let w := match look s.saved b.wid with | some x => x.wave | none => s.waveAt b.wid
    let miss := b.missingLanes b.wid w
    let es := pcEntries (miss.map (fun k => (w.lane k).pc.toNat))
    { kind := 0x0C, i0 := dw (es.length * 2 ^ 46 + 2 ^ 42), i1 := dw (miss.foldl (fun m k => m + 2 ^ k) 0), i2 := entry es[0]?, i3 := entry es[1]? }
  else
    let miss := (s.blockWaves b).filter (fun (id, i) => !s.waveArrived b id i)
    let placed := miss.filterMap (fun (id, i) => s.issuerWave id i)
    let es := pcEntries (placed.flatMap (fun (wid, w) => (b.missingLanes wid w).map (fun k => (w.lane k).pc.toNat)))
    let key := miss.foldl (fun m (_, i) => match m with | some x => some (min x i.key) | none => some i.key) (none : Option Nat)
    { kind := 0x0C
      i0 := dw (min miss.length 255 * 2 ^ 56 + min (miss.length - placed.length) 255 * 2 ^ 48 + es.length * 2 ^ 46 + b.level * 2 ^ 43)
      i1 := dw (key.getD 0), i2 := entry es[0]?, i3 := entry es[1]? }

/-- Raise one trap on lanes, at the lowest of each record's program counters (R82, R395); lanes of a saved wave keep it until restore. -/
def State.raiseWaiting (s : State) (wid : Nat) (ks : List Nat) (t : Trap) : State :=
  match s.wave? wid with
  | some w =>
    (s.trapGroups wid (ks.map (fun k => (k, t)))).foldl (fun s g =>
      let lanes := g.map Prod.fst
      let pc := lanes.foldl (fun p k => if (w.lane k).pc.toNat < p.toNat then (w.lane k).pc else p) (w.lane (lanes.headD 0)).pc
      s.takeTrap wid lanes pc t) s
  | none => ks.foldl (fun s k => s.modLaneAny wid k (fun l => { l with wait := .run, due := l.due ++ [t] })) s

/-- Whether a barrier instance has expired (R82). -/
def State.barrierExpired (s : State) (b : Barrier) : Bool := b.timeout != 0 && decide (b.start + b.timeout ≤ s.gt)

/-- BARRIER_TIMEOUT (R82, R83): the waiting lanes of an expired instance trap, and the instance is void. -/
def execBarrierTimeout (s : State) : Out :=
  let bid := s.occ.id
  match look s.barriers bid with
  | none => .next s
  | some b =>
    if !s.barrierExpired b || s.barrierFull b then .next s
    else
      let t := s.barrierInfo bid b
      let s : State := { s with barriers := del s.barriers bid }
      .next (((b.arrived.map Prod.fst).eraseDups).foldl (fun s wid =>
        s.raiseWaiting wid ((b.arrived.filter (fun a => a.1 == wid)).map Prod.snd) t) s)

/-- SLEEP_WAKE (R252): a sleeper whose target has come leaves SLEEP. -/
def execSleepWake (s : State) : Out :=
  match (s.laneAt s.occ.wid s.occ.lane).wait with
  | .sleep t => if t ≤ s.gt then .next (s.leave s.occ.wid s.occ.lane) else .next s
  | _ => .next s

/-- Whether a waiting record is the first of its interface that is not written. -/
def State.firstRecord (s : State) (id : Nat) (r : TrapReq) : Bool :=
  !r.written && (s.trapReqs.find? (fun (_, x) => x.vi == r.vi && !x.written)).map Prod.fst == some id

/-- Whether the ring of an interface has room, or is absent. -/
def State.ringRoom (s : State) (vi : Nat) : Bool :=
  let base := s.sysAt 0x18 vi
  bits base 56 12 == 0 || (s.sysBits 0x1A vi 31 0 + 2 ^ 32 - s.sysBits 0x19 vi 31 0) % 2 ^ 32 != ringSlots base

/-- Whether a waiting record, or the entry that follows it, can go on. -/
def State.recordDue (s : State) (id : Nat) (r : TrapReq) : Bool :=
  if r.written then !s.entryBlocked r.wid r.lanes else s.firstRecord id r && s.ringRoom r.vi

/-- TRAP_HANDLER_ENTRY (R393, R395, R396): a record that waited is written; the lanes it holds enter their handler once v12 and v13 are
filled. -/
def execTrapHandlerEntry (s : State) : Out :=
  let id := s.occ.id
  match look s.trapReqs id with
  | none => .next s
  | some r =>
    if s.recordDue id r = false then .next s
    else
      let drop (s : State) : State := { s with trapReqs := del s.trapReqs id }
      let disc := bits r.word0.toNat 53 53 == 1
      let enter (s : State) (n : Nat) : State := (drop s).enterHandler r.wid r.lanes n disc r.word0.toNat r.pc r.key r.info
      if r.written then .next (enter s r.slot)
      else
        let mask := r.lanes.foldl (fun m k => m + 2 ^ k) 0
        match s.ringRecord r.vi r.word0.toNat r.pc.toNat r.key.toNat mask r.info with
        | (s, .full) => .next s
        | (s, .dead) => .next ((drop s).fatal r.vi r.info.kind)
        | (s, .slot n) =>
          if r.wid = 0 then .next (drop s)
          else if s.entryBlocked r.wid r.lanes then .next { s with trapReqs := put s.trapReqs id { r with written := true, slot := n } }
          else .next (enter s n)

/-- A fatal record of kind 0x3E for a record that waited too long (R396, R399). -/
def State.stallRecord (s : State) (r : TrapReq) : State :=
  let w0 := setBits r.word0.toNat 63 56 0x3E
  s.fatalRecord r.vi w0 r.pc.toNat r.key.toNat (r.lanes.foldl (fun m k => m + 2 ^ k) 0) { kind := 0x3E, i0 := dw r.info.kind }

/-- Whether a lane record has waited for room too long (R396). -/
def State.ringStalled (s : State) (r : TrapReq) : Bool := r.wid != 0 && !r.written && s.expired r.due

/-- TRAP_RING_TIMEOUT (R396): a lane record waited BARTO for room: a fatal record is written and the wave is killed. -/
def execTrapRingTimeout (s : State) : Out :=
  let id := s.occ.id
  match look s.trapReqs id with
  | none => .next s
  | some r =>
    if s.ringStalled r then .next ((({ s with trapReqs := del s.trapReqs id } : State).stallRecord r).killWave r.wid 2) else .next s

/-- Whether a record that may not be dropped still waits beyond its interface's buffer of 16 after its time-out (R396). -/
def State.lateStalled (s : State) (id : Nat) (r : TrapReq) : Bool :=
  r.wid == 0 && s.expired r.due && decide (16 ≤ (s.trapReqs.filter (fun (j, x) => x.vi == r.vi && x.wid == 0 && decide (j < id))).length)

/-- LATE_RECORD_TIMEOUT (R396): such a record is given up, its launch fails with DETAIL 3, and its wave may complete. -/
def execLateRecordTimeout (s : State) : Out :=
  let id := s.occ.id
  match look s.trapReqs id with
  | none => .next s
  | some r =>
    if s.lateStalled id r = false then .next s
    else
      let lid := match s.issuer? r.item with
        | some i => i.lid
        | none => r.lid
      .next ((({ s with trapReqs := del s.trapReqs id } : State).stallRecord r).modJob lid (fun j => { j with failed := 3 }))

/-- LATE_STORE_FAULT (R397): a store or atomic in flight faults: at a peer (causes 1 and 3), or at its home slice (cause 2). -/
def execLateStoreFault (s : State) : Out :=
  match look s.ops s.occ.id with
  | none => .next s
  | some o =>
    let peer := (match o.place with | .peer _ => true | _ => false)
    let ok := if s.occ.n = 2 then o.place == .line || o.place == .dpage else peer && (s.occ.n == 1 || s.occ.n == 3)
    if o.writes && !o.done && ok then .next (s.refuse o s.occ.n).settleOps else .next s

/-- Whether an event record is the first of its interface and has waited too long (R422). -/
def State.eventStalled (s : State) (id : Nat) (e : EventReq) : Bool :=
  s.expired e.due && (s.eventReqs.find? (fun (_, x) => x.vi == e.vi)).map Prod.fst == some id

/-- EVENT_RECORD_TIMEOUT (R396, R422): the record is dropped, with a fatal record. -/
def execEventRecordTimeout (s : State) : Out :=
  let id := s.occ.id
  match look s.eventReqs id with
  | none => .next s
  | some e =>
    if s.eventStalled id e = false then .next s
    else
      let s := ({ s with eventReqs := del s.eventReqs id } : State)
      let s := s.fatalRecord e.vi (recordWord0 0x3E 0 0 0 0 0 0) 0 0 0 { kind := 0x3E, i1 := 1 }
      .next (s.drainEvents s.eventReqs.length e.vi)

/-- Whether an access sets a word's bit as wanted: a store or a fill makes it full, a drain or SETE empty (R131, R274). -/
def Op.makes (o : Op) (want : Bool) : Bool :=
  match o.act with
  | .store | .fill => want
  | .drain _ | .sete => !want
  | .load _ | .atom _ _ | .cas _ | .fatom _ _ | .fence _ | .flush | .push | .pop | .rbrd | .rbadd => false

/-- Whether a running engine command still fills a scratchpad word (R328). -/
def Cmd.fills (c : Cmd) (key : Nat) : Bool :=
  c.queued && !c.toGlobal && c.kind != .sred &&
  (List.range c.rows).any (fun j => decide (c.done ≤ j) && !c.landed.contains j && (c.keys j).contains key)

/-- Whether an entry of a matrix queue fills a scratchpad word (R311). -/
def MatEntry.fills (core : Nat) (e : MatEntry) (key : Nat) : Bool :=
  match e.act with
  | .st k _ rows => (rowRuns e.addr e.stride rows (cellBytes k * e.n)).any (fun (a, n) => (keysAt core a (n / 4)).contains key)
  | .latb _ | .mma _ _ _ | .mmai _ _ _ _ | .zero _ | .rd _ _ _ | .mv _ _ _ _ => false

/-- Whether something on its way can satisfy a wait for a scratchpad word to be full, or empty: an access not yet performed, a running engine
command, or a queued matrix store (R424). -/
def State.wordComing (s : State) (want : Bool) (key : Nat) : Bool :=
  s.ops.any (fun (_, o) => o.place == .bank && !o.done && o.makes want && decide (o.pa ≤ key) && decide (key < o.pa + o.size) &&
    (!o.arrived || s.bankReady o)) ||
  (want && (s.cmds.any (fun (_, c) => c.fills key) || s.cores.any (fun (n, k) => k.mq.any (fun e => e.fills n key))))

/-- The last changer of the first word of a list that is not as wanted. -/
def State.changerOf (s : State) (want : Bool) (ks : List Nat) : List Nat :=
  match ks.find? (fun k => (s.spadAt k).full != want) with
  | some k => if s.wordComing want k then [] else [(s.spadAt k).last]
  | none => []

/-- The last changer of the word that a lane's posting waits for: of its block, of its index vector or of its bag boundaries (R321, R424). -/
def State.postingWaitsFor (s : State) (w : Wave) (p : Posting) : List Nat :=
  if p.kind = .sred ∨ s.postsLater p = true then []
  else
    let c := s.newCmd p w
    let n := blockBytes p.kind
    let ks := wordKeys c.core p.va n
    if !s.wordsFull ks then s.changerOf true ks
    else s.changerOf true { c with blk := (List.range (n / 8)).map (fun k => s.wordsNum ((ks.drop (2 * k)).take 2)) }.indexKeys

/-- The last changer of a FIFO that an access waits for, when no push or pop on its way can satisfy it (R424). -/
def State.fifoChanger (s : State) (o : Op) (other : Act) : List Nat :=
  if s.ops.any (fun (_, a) => a.act == other && a.place == .bank && !a.arrived && !a.done && bankOfKey a.pa == bankOfKey o.pa) then []
  else [(s.fifoAt (bankOfKey o.pa)).2]

/-- The waves that a bank access waiting at its bank waits for (R424). -/
def State.opWaitsFor (s : State) (o : Op) : List Nat :=
  match o.act with
  | .push => s.fifoChanger o .pop
  | .pop => s.fifoChanger o .push
  | .fill => s.changerOf false o.keys
  | .load _ | .store | .atom _ _ | .cas _ | .fatom _ _ | .fence _ | .flush | .sete | .drain _ | .rbrd | .rbadd => s.changerOf true o.keys

/-- The owner of a signing set that is not complete, for a lane that waits on its register (R424). -/
def State.signOwner (s : State) (core g : Nat) : List Nat :=
  let x := lookD (s.coreAt core).signs g {}
  if x.armed && !s.signComplete x then [x.wid] else []

/-- The last changer of the first empty table slot that an MLATB.CB at the head of a queue needs, unless a load on its way fills it (R303,
R424). -/
def Core.slotChanger (k : Core) (e : MatEntry) : List Nat :=
  match e.act with
  | .latb .cb =>
    match (List.range e.n).find? (fun n => !has k.slots n) with
    | some n =>
      if k.loader.any (fun x => decide (x.next ≤ n) && decide (n < x.stop)) then []
      else (look k.slotLast n).toList
    | none => []
  | .latb _ | .mma _ _ _ | .mmai _ _ _ _ | .zero _ | .rd _ _ _ | .st _ _ _ | .mv _ _ _ _ => []

/-- The waves that a wave's lane waits for in a wait of R241, RBWAIT or CMT.WAIT (R424). -/
def State.laneWaitsFor (s : State) (wid : Nat) (w : Wave) (l : Lane) : List Nat :=
  match l.wait with
  | .rowBar key _ _ _ _ =>
    if s.cmds.any (fun (_, c) => c.queued && c.row == some key) ||
       s.ops.any (fun (_, o) => o.act == .rbadd && o.place == .bank && !o.done && decide (o.pa ≤ key) && decide (key < o.pa + o.size)) then []
    else [(s.spadAt key).last]
  | .barrier bid =>
    match look s.barriers bid with
    | none => []
    | some b =>
      if b.isWave then (if (b.missingLanes wid w).isEmpty then [] else [wid])
      else ((s.blockWaves b).filter (fun (id, i) => !s.waveArrived b id i)).filterMap (fun (_, i) => i.wid?)
  | .sign g _ _ => s.signOwner w.core g
  | .arming id =>
    match look (s.coreAt w.core).armings id with
    | some a => s.signOwner w.core a.g
    | none => []
  | .commit _ _ =>
    match s.tokenHolder w.vi with
    | some id => (match s.issuer? id with | some i => i.wid?.toList | none => [])
    | none => []
  | .posting _ => (s.postings.filter (fun (_, p) => p.wid == wid && (w.lane p.lane) == l)).flatMap (fun (_, p) => s.postingWaitsFor w p)
  | _ => []

/-- The waves that a wave waits for (R424). -/
def State.waveWaitsFor (s : State) (wid : Nat) (w : Wave) : List Nat :=
  let banks := (s.ops.filter (fun (_, o) => o.wid == wid && o.place == .bank && o.arrived && !o.done)).flatMap (fun (_, o) => s.opWaitsFor o)
  let k := s.coreAt w.core
  let head := match k.mq.head? with
    | some e => if e.wid = wid then s.changerOf true (e.wordsRead w.core) ++ k.slotChanger e else []
    | none => []
  let load := match k.loader.head? with
    | some x => if x.wid = wid && decide (x.next < x.stop) then s.changerOf true (keysAt w.core x.addr 4) else []
    | none => []
  ((w.lanes.filter Lane.live).flatMap (s.laneWaitsFor wid w) ++ banks ++ head ++ load).eraseDups

/-- The closed paths from a wave through waves of higher identity, each as the waves it visits. -/
def cyclesFrom (edges : FMap (List Nat)) (start : Nat) : Nat → List Nat → Nat → List (List Nat)
  | 0, _, _ => []
  | n + 1, path, at_ =>
    (lookD edges at_ []).flatMap (fun v =>
      if v = start then [path]
      else if v < start ∨ path.contains v then []
      else cyclesFrom edges start n (path ++ [v]) v)

/-- The wait cycles of a partition whose waves have been unable to issue for a whole period (R425). -/
def State.waitCycles (s : State) (p period : Nat) : List (List Nat) :=
  let stuck := s.waves.filter (fun (wid, w) => s.coreInPart p w.core && decide (w.lastCan + period ≤ s.gt) && !s.runnable wid w)
  let edges : FMap (List Nat) := stuck.map (fun (wid, w) => (wid, (s.waveWaitsFor wid w).filter (fun v => stuck.any (fun x => x.1 == v))))
  stuck.flatMap (fun (wid, _) => cyclesFrom edges wid edges.length [wid] wid)

/-- Whether two lists name the same waves. -/
def sameSet (a b : List Nat) : Bool := a.all (fun x => b.contains x) && b.all (fun x => a.contains x)

/-- SYS.WCDCTL.PERIOD (R425). -/
def State.wcdPeriod (s : State) : Nat := s.sysBits 0x206 0xFF 31 0

/-- Whether the detector examines a partition now (R425). -/
def State.scanDue (s : State) (p : Nat) : Bool :=
  s.wcdPeriod != 0 && s.sysBits 0x200 p 63 63 == 1 && decide (lookD s.scanAt p s.wcdPeriod ≤ s.gt)

/-- A wait cycle of these waves is reported unless it was: the event record has the lowest order key in it; the manual does not say which
command it names (R424, R425). -/
def State.reportCycle (s : State) (c : List Nat) : State :=
  if s.reported.any (fun r => sameSet r c) then s
  else
    let keys := c.map (fun wid => (s.waveAt wid).key.toNat)
    let vi := (s.waveAt (c.headD 0)).vi
    let (x, s) := s.freeBits 64
    let s : State := { s with reported := c :: s.reported }
    s.event vi 6 0 0 0 (x / 2 ^ 32) (x % 2 ^ 32) (keys.foldl min (keys.headD 0)) true

/-- WAIT_CYCLE_SCAN (R424, R425): each wait cycle of a partition that was not reported is. -/
def execWaitCycleScan (s : State) : Out :=
  let p := s.occ.part
  if s.scanDue p = false then .next s
  else
    let found := s.waitCycles p s.wcdPeriod
    let s : State := { s with scanAt := put s.scanAt p (s.gt + s.wcdPeriod) }
    .next (found.foldl (fun s c => s.reportCycle c) s)

end Sys2Proof.Machine
end

