-- ==== Sys2Proof/Machine/Transit.lean ====
section
/-!
DEFINITION. Walks and reclassification as steps of their own (R428, R433, R434, R437), and the refusals of the on-die network (R426).
-/
namespace Sys2Proof.Machine

/-- TRANSLATION_WALK (R428 to R434, R437): a walk of a core completes: it caches the leaf with its class, starts a reclassification, or
faults and changes nothing. -/
def execTranslationWalk (s : State) : Out :=
  let ag : Agent := if s.occ.n = 2 then .atomic else .lane
  .next (s.translate s.occ.vi s.occ.core (if s.occ.ok then 1 else 0) s.occ.value.toNat s.occ.n ag).1

/-- OWNER_RECALL (R434 step 2): the recall reaches the owner of a page in transit, which gives up the page's translation. -/
def execOwnerRecall (s : State) : Out :=
  match look s.transit s.occ.pa with
  | none => .next s
  | some t =>
    if t.recalled then .next s
    else
      .next { s with
        tlb := s.tlb.filter (fun e => e.leafPa != s.occ.pa)
        transit := put s.transit s.occ.pa { t with recalled := true, since := s.gt } }

/-- Whether the last write-back of a page in transit can be acknowledged: every store its owner issued before the recall is in its L1
(R434 steps 2 and 3). After the 2,000 ticks that the rule gives a step, one that still waits for an access before it is not waited for any
longer and goes on under the directory (DEDUCED, log entry 41). -/
def State.reclassDue (s : State) (t : Transit) : Bool :=
  let base := t.pfn * 2 ^ 16
  t.recalled && (privOps s base (base + 2 ^ t.bits) 1).all (fun (id, o) => decide (t.since + 2000 ≤ s.gt) && !s.storeReady id o 2)

/-- RECLASSIFY_COMPLETE (R434 steps 3 and 4): the dirty bytes are written back, the leaf gets CLS 2, and the waiting accesses go on. -/
def execReclassifyComplete (s : State) : Out :=
  let leaf := s.occ.pa
  match look s.transit leaf with
  | none => .next s
  | some t => if s.reclassDue t then .next (s.reclassNow leaf).settleOps else .next s

/-- The replay window of a sender, a destination and a message class (R426). -/
def windowKey (o : Occ) : Nat := (o.core * 2 ^ 16 + o.index) * 16 + o.n

/-- The messages of a window from one on, in their order: at most 64 (R426). Accesses to home slices are its messages (log entry 135). -/
def State.windowFrom (s : State) (key id : Nat) : List Nat :=
  ((s.ops.filter (fun (j, o) => decide (id ≤ j) && o.onWay && o.window == key)).map Prod.fst).take 64

/-- NOC_REFUSAL (R426): a sender waits BASE x 2^min(k, 8) cycles, where k counts the refusals in a row; the home slice drops the refused
message and every later one of the window until the replay. -/
def execNocRefusal (s : State) : Out :=
  let key := windowKey s.occ
  let w := lookD s.noc key {}
  let base := max 1 (s.sysBits 0x207 0xFF 7 0)
  let k := w.refused + 1
  let w : Window := { msgs := s.windowFrom key s.occ.id, refused := k, wait := (s.coreAt s.occ.core).cycle + base * 2 ^ min k 8 }
  .next (({ s with noc := put s.noc key w } : State).countSlice s.occ.index s.occ.vi 0x107 1)

/-- NOC_REPLAY (R426): the back-off is over and the sender replays the refused message and the later ones; the home slice takes them in their
order. -/
def execNocReplay (s : State) : Out :=
  let key := windowKey s.occ
  match look s.noc key with
  | none => .next s
  | some w =>
    if w.replayed = true ∨ (s.coreAt s.occ.core).cycle < w.wait then .next s
    else
      let s := s.countSlice s.occ.index s.occ.vi 0x108 1
      .next { s with noc := put s.noc key { w with refused := 0, replayed := true } }

end Sys2Proof.Machine
end

