-- ==== Sys2Proof/Machine/Links.lean ====
section
/-!
DEFINITION. The links (R441 to R449): what the host and peers ask, doorbells, writes of system registers that are rows of their own,
acknowledgements, Tandem's keepalives and port changes, peers that come and connections that break, and 1588 time.
-/
namespace Sys2Proof.Machine

/-- Whether boot is complete, so that the host ports accept traffic (R456). -/
def State.booted (s : State) : Bool := s.sysBits 0x400 0xFF 7 7 == 1

/-- Whether every port is link-down: the ROM runs, or the boot has failed (R456). -/
def State.linkDown (s : State) : Bool := s.boot == .rom || (s.boot == .halted && !s.booted)

/-- Whether a register with the fields of SYS.PEERIN lets an access through (R441, R442, R444). -/
def inboundOk (reg pa n : Nat) (writes : Bool) : Bool :=
  bit reg 63 && (!writes || bit reg 62) && n != 0 &&
  decide (bits reg 47 30 ≤ pa / 2 ^ 30) && decide ((pa + n - 1) / 2 ^ 30 ≤ bits reg 29 12) && isMemory pa && isMemory (pa + n - 1)

/-- Refuse a request from outside, by the port it came by. -/
def State.refuseOuter (s : State) (port cage dest pa : Nat) : State := s.send { port := port, dest := dest, kind := 8, addr := pa, cage := cage }

/-- The kind of port and the port that a RoCE request came by: a host port, 0 to 3, or fabric port n given as n + 4 (R443, R447,
log entry 133). -/
def rocePort (n : Nat) : Nat × Nat := if n < 4 then (0, n) else (3, (n - 4) % 16)

/-- Whether the part takes a RoCE request by a port: its boot is complete, and a fabric port is not down (R447, R456). -/
def State.roceUp (s : State) (n : Nat) : Bool := s.booted && (decide (n < 4) || !s.fabricDown.contains ((n - 4) % 16))

/-- A RoCE request in a data region (R444). -/
def State.hostRequest (s : State) (vi pa : Nat) (req : PeerReq) : State :=
  let r := rocePort s.occ.port
  if !s.roceUp s.occ.port then s
  else if inboundOk (s.sysAt 0x4C2 vi) pa (reqSize req) (reqWrites req) then
    s.takeOuter { pa := pa, req := req, port := r.1, dest := vi, cage := r.2 }
  else s.refuseOuter r.1 r.2 vi pa

/-- Whether an earlier write of a queue pair is still held, so that its doorbells wait (R444). -/
def State.hostHeld (s : State) (vi : Nat) : Bool :=
  s.held.any (fun (_, h) => h.port == (rocePort s.occ.port).1 && h.cage == (rocePort s.occ.port).2 && h.dest == vi && reqWrites h.req)

/-- Write a register through a doorbell (R444): it waits behind earlier writes of its queue pair. -/
def State.doorbell (s : State) (i : Instr) (num value : Nat) : Out :=
  let vi := s.occ.vi
  if !s.roceUp s.occ.port then .next s
  else if s.hostHeld vi then .next { s with inputs := (i, s.occ) :: s.inputs }
  else .next ((s.sysWrite num vi value 2 vi).1.send { port := (rocePort s.occ.port).1, dest := vi, kind := 10, cage := (rocePort s.occ.port).2 })

/-- DOORBELL_CQTAIL (R406, R444). -/
def execDoorbellCqtail (s : State) : Out := s.doorbell .doorbellCqtail 0x20A (bits s.occ.value.toNat 31 0)

/-- DOORBELL_TQHEAD (R393, R444). -/
def execDoorbellTqhead (s : State) : Out := s.doorbell .doorbellTqhead 0x19 s.occ.value.toNat

/-- DOORBELL_EQHEAD (R422, R444). -/
def execDoorbellEqhead (s : State) : Out := s.doorbell .doorbellEqhead 0x20D (bits s.occ.value.toNat 31 0)

/-- The register behind an offset of the doorbell page (R444). -/
def doorbellReg (off : Nat) : Option Nat :=
  match off with
  | 0 => some 0x20A
  | 8 => some 0x19
  | 16 => some 0x20D
  | _ => none

/-- HOST_RDMA_WRITE (R444): a write in the data region, or in the doorbell page, where a write of another size or place is ignored. -/
def execHostRdmaWrite (s : State) : Out :=
  if s.occ.ok then
    match doorbellReg s.occ.pa, s.occ.data.length with
    | some num, 8 =>
      let v := ofBytes s.occ.data
      s.doorbell .hostRdmaWrite num (if num = 0x19 then v else v % 2 ^ 32)
    | _, _ => .next s
  else .next (s.hostRequest s.occ.vi s.occ.pa (.store s.occ.data))

/-- HOST_RDMA_READ (R444). -/
def execHostRdmaRead (s : State) : Out :=
  let vi := s.occ.vi
  if s.occ.ok then
    if !s.roceUp s.occ.port then .next s
    else
      let byte (a : Nat) : Byte :=
        match doorbellReg (a / 8 * 8) with
        | some num => BitVec.ofNat 8 (s.sysRead num vi / 2 ^ (8 * (a % 8)))
        | none => 0
      .next (s.send { port := (rocePort s.occ.port).1, dest := vi, kind := 9, addr := s.occ.pa, cage := (rocePort s.occ.port).2,
                      data := (List.range s.occ.len).map (fun k => byte (s.occ.pa + k)) })
  else .next (s.hostRequest vi s.occ.pa (.load s.occ.len))

/-- HOST_ATOMIC (R443): an 8-byte compare and swap or fetch and add, at an aligned address. -/
def execHostAtomic (s : State) : Out :=
  if s.occ.pa % 8 ≠ 0 then
    .next (if s.roceUp s.occ.port then s.refuseOuter (rocePort s.occ.port).1 (rocePort s.occ.port).2 s.occ.vi s.occ.pa else s)
  else
    .next (s.hostRequest s.occ.vi s.occ.pa
      (if s.occ.ok then .cas .z64 s.occ.cmp s.occ.value else .atomic .add .z64 s.occ.value))

/-- HOST_SEND (R443, R447): what the RoCE ports do not support is refused. -/
def execHostSend (s : State) : Out :=
  .next (if s.roceUp s.occ.port then s.refuseOuter (rocePort s.occ.port).1 (rocePort s.occ.port).2 s.occ.vi 0 else s)

/-- PEER_INBOUND (R157, R442, R448): a peer's access is checked and performed, or refused; its arrival counts as a flit. -/
def execPeerInbound (s : State) : Out :=
  if s.linkDown then .next s
  else
  let p := s.occ.peer
  let s : State := { s with peerHeard := put s.peerHeard p s.gt }
  match s.occ.req with
  | none => .next s
  | some req =>
    let up := s.sysBits 0x304 p 62 62 == 1
    if up && inboundOk (s.sysAt 0x305 p) s.occ.pa (reqSize req) (reqWrites req) then
      .next (s.takeOuter { pa := s.occ.pa, req := req, port := 1, dest := p })
    else .next (s.refuseOuter 1 (s.cageOf p s.occ.pa) p s.occ.pa)

/-- The end of an access sent outside: its line's port may change again (R447). -/
def State.lineEnd (s : State) (o : Op) : State :=
  match o.place with
  | .peer p => s.lineUse p o.pa false
  | .line | .dpage | .host | .bank => s

/-- PEER_ACKNOWLEDGEMENT (R157, R158, R442, R446): the far side of an access performed it, with the value it read, or refused it;
the flags of an atomic follow from the old value (R112, R279). -/
def execPeerAcknowledgement (s : State) : Out :=
  let id := s.occ.id
  match look s.ops id with
  | none => .next s
  | some o =>
    if !o.outside || !o.arrived || o.done then .next s
    else
      let s := s.lineEnd o
      let s : State := match o.place with
        | .peer p => { s with peerHeard := put s.peerHeard p s.gt }
        | .line | .dpage | .host | .bank => s
      if !s.occ.ok then .next (s.refuse o 3).settleOps
      else if o.reads then
        let x := ofBytes s.occ.data % 2 ^ (8 * o.size)
        .next ({ s with ops := put s.ops id { o with done := true, data := x, flags := (rmw o.act o.size x o.data o.cmp).2 } } : State).settleOps
      else .next ({ s with ops := del s.ops id } : State).settleOps

/-- A write of a system register by the level that may write it (R385, R389). -/
def State.regWrite (s : State) (num i : Nat) : Out := .next (s.sysWrite num i s.occ.value.toNat 2 s.occ.vi).1

/-- CQBASE_WRITE (R406). -/
def execCqbaseWrite (s : State) : Out := s.regWrite 0x208 s.occ.vi

/-- TQBASE_WRITE (R393). -/
def execTqbaseWrite (s : State) : Out := s.regWrite 0x18 s.occ.vi

/-- EQBASE_WRITE (R422). -/
def execEqbaseWrite (s : State) : Out := s.regWrite 0x20C s.occ.vi

/-- PART_WRITE (R404). -/
def execPartWrite (s : State) : Out := s.regWrite 0x200 s.occ.part

/-- VSHARE_WRITE (R439). -/
def execVshareWrite (s : State) : Out := s.regWrite 0x302 s.occ.vi

/-- FATAL_CLEAR (R400). -/
def execFatalClear (s : State) : Out := s.regWrite 0x08 0xFF

/-- PSTREAM_WRITE (R450). -/
def execPstreamWrite (s : State) : Out := s.regWrite 0x4C8 s.occ.index

/-- Whether a register has an instance of an index (R385). -/
def regInstance (num i : Nat) : Bool :=
  match sysReg? num with
  | none => false
  | some r =>
    match r.inst with
    | .part => i == 0xFF
    | .core => decide (i < 180)
    | .cluster => decide (i < 60)
    | .slice | .vi => decide (i < 64)
    | .lane => false
    | .upTo n => decide (i < n)

/-- REGISTER_WRITE (R389). -/
def execRegisterWrite (s : State) : Out := if regInstance s.occ.num s.occ.index then s.regWrite s.occ.num s.occ.index else .next s

/-- Whether a fabric port is due to send a keepalive (R447). -/
def State.keepaliveDue (s : State) (port : Nat) : Bool :=
  (s.boot == .firmware || s.boot == .service) && !s.fabricDown.contains port && decide (lookD s.portSent port 0 + 10000 ≤ s.gt)

/-- KEEPALIVE (R447): an idle port that is up sends a keepalive flit. -/
def execKeepalive (s : State) : Out :=
  let port := s.occ.port
  if s.keepaliveDue port then .next (s.send { port := 1, dest := 0, kind := 6, cage := port }) else .next s

/-- KEEPALIVE_RECEIVED (R448). -/
def execKeepaliveReceived (s : State) : Out := if s.linkDown then .next s else .next { s with peerHeard := put s.peerHeard s.occ.peer s.gt }

/-- FABRIC_PORT_DOWN (R447): lines move to the next port in use once their older messages are acknowledged. -/
def execFabricPortDown (s : State) : Out :=
  .next { s with fabricDown := if s.fabricDown.contains s.occ.port then s.fabricDown else s.occ.port :: s.fabricDown }

/-- FABRIC_PORT_UP (R447). -/
def execFabricPortUp (s : State) : Out := if s.linkDown then .next s else .next { s with fabricDown := s.fabricDown.filter (fun p => p != s.occ.port) }

/-- PEER_HANDSHAKE (R441, R448): a peer index in use whose module answers with its MODID is reached again. -/
def execPeerHandshake (s : State) : Out :=
  let p := s.occ.peer
  if s.linkDown = false ∧ s.sysBits 0x304 p 63 63 = 1 ∧ s.sysBits 0x304 p 31 0 = s.occ.value.toNat then
    .next (({ s with peerHeard := put s.peerHeard p s.gt } : State).sysSetBits 0x304 p 62 62 1)
  else .next s

/-- PTP_MESSAGE (R449): the last offset is kept, and LOCK tells whether the last 16 were within 50 ns. GT itself is the model's clock. -/
def execPtpMessage (s : State) : Out :=
  if s.linkDown then .next s
  else
  let x := signed 32 s.occ.value.toNat
  let run := if -50 ≤ x ∧ x ≤ 50 then min 16 (s.ptpRun + 1) else 0
  let s : State := { s with ptpRun := run }
  .next ((s.sysSetBits 0x4C4 0xFF 31 0 (bits s.occ.value.toNat 31 0)).sysSetBits 0x4C4 0xFF 63 63 (bCode (run == 16)))

/-- QUEUE_PAIR_CONNECTED (R445). -/
def execQueuePairConnected (s : State) : Out := if s.linkDown then .next s else .next (s.sysSetBits 0x4C1 s.occ.vi 62 62 1)

/-- A host window is lost, with its accesses in flight (R446). -/
def State.loseHost (s : State) (vi : Nat) : State :=
  let s := s.sysSetBits 0x4C1 vi 62 62 0
  let mine (o : Op) : Bool := o.place == .host && o.vi == vi && !o.done
  let s := s.ops.foldl (fun s (id, o) => if mine o && has s.ops id then s.refuse o 1 else s) s
  ({ s with ops := s.ops.filter (fun (_, o) => !mine o) } : State).settleOps

/-- BROKEN_CONNECTION (R446). -/
def execBrokenConnection (s : State) : Out := .next (s.loseHost s.occ.vi)

end Sys2Proof.Machine
end

