-- ==== Sys2Proof/Machine/Health.lean ====
section
/-!
DEFINITION. Boot (R455, R456), the firmware service's answers (R457 to R459), memory errors (R462), the lifetime histograms (R463), and
clocks (R464).
-/
namespace Sys2Proof.Machine

/-- A field of a firmware image of n bytes (R455). -/
def imageNum (img : List Byte) (off n : Nat) : Nat := ofBytes ((img.drop off).take n)

/-- The digest M of an image (R455). -/
def imageDigest (img : List Byte) : List Byte := Config.shake256 (img.take (0x800 + imageNum img 8 4)) 64

/-- What is wrong with an image, as BOOTSTAT.ERR, if anything (R455, R456); 0 for a wrong MAGIC, which has no code of its own. -/
def imageError (img : List Byte) : Option Nat :=
  let len := imageNum img 8 4
  let key := (img.drop 0x40).take 1952
  if imageNum img 0 4 ≠ 0x5746434F ∨ len % 64 ≠ 0 ∨ 0x400000 < len then some 0
  else if Config.shake256 key 32 ≠ Config.keyHash then some 1
  else if imageNum img 4 4 < Config.minSvn then some 2
  else if Config.mldsaVerify key (imageDigest img) ((img.drop (0x800 + len)).take 3309) = false then some 3
  else none

/-- Where the ROM loads the image in the GDDR-7 tier. -/
def bootBase : Nat := Config.imageBase % 2 ^ 30 * 128

/-- The ROM loads an image, extends SYS.MEAS 0 with M, and jumps to the body at firmware level (R456 steps 2 and 3). -/
def State.loadImage (s : State) (slot : Nat) (img : List Byte) : State :=
  let s := s.storeBytes bootBase img
  let s := s.extendMeas 0 (imageDigest img)
  let s := (s.sysSetBits 0x400 0xFF 2 1 slot).sysSetBits 0x400 0xFF 39 8 (imageNum img 4 4)
  let s : State := { s with boot := .firmware }
  s.modWave 0 (fun w => { w with lanes := w.lanes.map (fun l => { l with pc := dw (bootBase + 0x800), level := 2 }) })

/-- Both images failed (R456): the ROM halts with ERR; which image's failure it shows, and the code of a wrong MAGIC, are free. -/
def State.bootFails (s : State) (a b : Nat) : State :=
  let (c, s) := s.choose 2
  let (m, s) := s.choose 3
  let e := if c = 0 then a else b
  let s := s.sysSetBits 0x400 0xFF 6 4 (if e = 0 then m + 1 else e)
  { s with boot := .halted }

/-- The public key of the identity key pair, which Config.certificate certifies (R459). -/
def State.publicKey (s : State) : List Byte := Config.mldsaPublic s.identity

/-- BOOT_RUN (R456, R459): the ROM derives the identity key pair, checks the slots and starts the firmware; from the firmware, RUN is written and the boot wave goes on
as the firmware service. -/
def execBootRun (s : State) : Out :=
  match s.boot with
  | .rom =>
    let s := { s with identity := Config.shake256 Config.partSecret 32 }
    let a := Config.imageSlot 0
    let b := Config.imageSlot 1
    match imageError a, imageError b with
    | none, _ => .next (s.loadImage 1 a)
    | some _, none => .next (s.loadImage 2 b)
    | some x, some y => .next (s.bootFails x y)
  | .firmware => .next (s.writeRun 0x80)
  | .service | .halted => .next s

/-- MEASEXT_WRITE (R458); a write that raises the privilege trap is a trap of firmware (R384). -/
def execMeasextWrite (s : State) : Out :=
  match s.sysWrite 0x409 s.occ.index s.occ.value.toNat 2 64 with
  | (s, true) => .next s
  | (s, false) => .next (s.firmwareTrap 0)

/-- MANAGEMENT_REQUEST (R456, R457): the service writes the register that a request names, and answers; once it has halted every request is
refused, and after a failed boot no port is up. -/
def execManagementRequest (s : State) : Out :=
  if s.linkDown then .next s
  else if s.boot ≠ .service then .next (s.refuseOuter 2 0 0 0)
  else if regInstance s.occ.num s.occ.index then
    match s.sysWrite s.occ.num s.occ.index s.occ.value.toNat 2 64 with
    | (s, true) => .next (s.send { port := 2, dest := 0, kind := 10 })
    | (s, false) => .next ((s.firmwareTrap 0).refuseOuter 2 0 0 0)
  else .next (s.refuseOuter 2 0 0 0)

/-- The report of an attestation without its signature (R459). -/
def State.report (s : State) (nonce : List Byte) : List Byte :=
  let id := s.sysAt 0 0xFF
  toBytes 2 (bits id 63 48) ++ toBytes 1 (bits id 47 40) ++ toBytes 8 (s.sysAt 0x400 0xFF) ++ (List.range 8).flatMap s.measBytes ++ nonce ++
    toBytes 8 s.gt

/-- ATTESTATION (R459): the service answers a nonce of 32 bytes with a signed report. -/
def execAttestation (s : State) : Out :=
  if s.linkDown then .next s
  else if s.boot ≠ .service ∨ s.occ.data.length ≠ 32 then .next (s.refuseOuter 2 0 0 0)
  else
    let r := s.report s.occ.data
    .next (s.send { port := 2, dest := 0, kind := 7, data := r ++ Config.mldsaSign s.identity (Config.shake256 r 64) })

/-- Add to a bin, which saturates (R463). -/
def State.addBin (s : State) (h b n : Nat) : State :=
  { s with hist := put s.hist (16 * h + b) (min (2 ^ 32 - 1) (lookD s.hist (16 * h + b) 0 + n)) }

/-- The bin of an hour's corrected errors (R463). -/
def hourBin (n : Nat) : Nat := if n = 0 then 0 else min 15 (Nat.log2 n + 1)

/-- The bin of a temperature in degrees Celsius (R463). -/
def heatBin (t : Nat) : Nat := if t < 40 then 0 else min 15 ((t - 40) / 5 + 1)

/-- The bin of a droop by its depth in mV (R463). -/
def droopBin (mv : Nat) : Nat := min 15 (mv / 10)

/-- The bins of a second: its hottest temperature, its droop events and the ports of its link retrains (R463). -/
def State.addSecond (s : State) (o : Occ) : State :=
  let s := (s.sysSetBits 0x404 0xFF 47 40 o.n).addBin 0 (heatBin o.n) 1
  let s := o.nums.foldl (fun s mv => s.addBin 1 (droopBin mv) 1) s
  o.nums2.foldl (fun s p => s.addBin 3 (p % 16) 1) s

/-- Whether a second of GT has passed that is not in the histograms (R463). -/
def State.tickDue (s : State) : Bool := decide (s.second < s.gt / 10 ^ 9)

/-- Whether 10 minutes of GT have passed since the histograms were last in module storage (R463). -/
def State.histDue (s : State) : Bool := decide (s.tenMinutes < s.gt / (600 * 10 ^ 9))

/-- HISTOGRAM_TICK (R463): every second of GT its hottest temperature, droop events and link retrains are added; each hour, its corrected
errors. -/
def execHistogramTick (s : State) : Out :=
  let o := s.occ
  if s.tickDue = false then .next s
  else
  let s := (s.addSecond o).countSlice o.index o.vi 0x109 o.num
  let s : State := { s with second := s.second + 1, seconds := s.seconds + 1, corrected := s.corrected + o.num }
  if s.seconds % 3600 = 0 then .next { s.addBin 2 (hourBin s.corrected) 1 with corrected := 0 } else .next s

/-- HISTOGRAM_SAVE (R463): every 10 minutes of GT. -/
def execHistogramSave (s : State) : Out :=
  if s.histDue then .next { s with histSaved := s.hist, tenMinutes := s.gt / (600 * 10 ^ 9) } else .next s

/-- A record of kind 0x34 to the interface of SYS.ERRVI; with EN 0 it is counted and dropped (R462). -/
def State.errorRecord (s : State) (x : Nat) : State :=
  let e := s.sysAt 0x402 0xFF
  if bit e 63 then
    let vi := bits e 5 0
    s.postLaneless { vi := vi, word0 := dw (recordWord0 0x34 0 0 0 0 0 0), pc := 0, key := 0, info := { kind := 0x34, i0 := dw x },
                     due := s.deadline vi }
  else { s with unrecorded := s.unrecorded + 1 }

/-- An uncorrectable error of a scratchpad word: it is empty (R462). -/
def State.loseWord (s : State) (core off : Nat) : State :=
  let key := wordKey core off
  let s := s.setSpad key { s.spadAt key with full := false }
  (s.errorRecord (2 ^ 31 + coreY core * 2 ^ 27 + coreX core * 2 ^ 23 + off / 4 * 4)).settleBanks

/-- An uncorrectable error of a line: it is poisoned (R462). -/
def State.poisonLine (s : State) (vi line : Nat) : State :=
  let s := s.countSlice (homeSlice line) vi 0x10A 1
  ({ s with poison := put s.poison line [] } : State).errorRecord line

/-- An uncorrectable error of a line that its first reader is to find: that read faults as every later one, and there is no record of kind 0x34
(R462, log entry 122). -/
def State.hiddenError (s : State) (vi line : Nat) : State :=
  let s := s.countSlice (homeSlice line) vi 0x10A 1
  { s with poison := put s.poison line [] }

/-- SCRUB (R462): an uncorrectable error: with nobody waiting a line becomes poisoned, a scratchpad word empty; INDEX 1 stands for one that a lane
load, a fetch or an engine read finds first. -/
def execScrub (s : State) : Out :=
  let o := s.occ
  if o.ok then .next (s.loseWord o.core o.n)
  else if o.index = 1 then .next (s.hiddenError o.vi (lineOf o.pa))
  else .next (s.poisonLine o.vi (lineOf o.pa))

/-- REGISTER_ECC_ERROR (R462): the wave is killed; on the boot wave, which is never killed, it is a trap at firmware level (R457). -/
def execRegisterEccError (s : State) : Out :=
  match s.wave? s.occ.wid with
  | none => .next s
  | some w => if w.kind = .boot then .next (s.firmwareTrap s.occ.wid) else .next (s.killWave s.occ.wid 2).settleOps

/-- Whether an interface is known to hold state at a home slice: versions, read bounds, allowance counters, or lines in use (R462). -/
def State.holdsAt (s : State) (slice vi : Nat) : Bool :=
  let mine (id : Nat) : Bool := match s.issuer? id with | some i => i.vi == vi | none => false
  s.versions.any (fun v => homeSlice v.line == slice && mine v.issuer) || s.readers.any (fun r => homeSlice r.1 == slice && mine r.2) ||
  s.tills.any (fun (l, t) => homeSlice l == slice && t.vi == vi) ||
  s.ops.any (fun (_, o) => o.vi == vi && (o.place == .line || o.place == .dpage) && homeSlice o.pa == slice) ||
  s.cmds.any (fun (_, c) => c.vi == vi && c.segs.any (fun r => r.any (fun g => homeSlice g.pa == slice)))

/-- An interface that loses the state it held at a home slice is stopped, and gets a fatal record while FFULL is clear (R462). -/
def State.loseSlice (s : State) (n vi : Nat) : State :=
  let s := s.stopVi vi
  if s.sysBits 0x19 vi 63 63 = 1 ∨ s.sysBits 0x18 vi 56 12 = 0 then s
  else s.fatalRecord vi (recordWord0 0x3B 0 0 0 0 0 0) 0 0 0 { kind := 0x3B, i0 := dw n }

/-- The interfaces that hold state at a home slice: those that the model knows, and any of a partition's others that has a line in a cache or
in the directory there: which do is free (R400, R462, log entry 142). -/
def State.hitAt (s : State) (n : Nat) : State × List Nat :=
  (List.range 64).foldl (fun (s, vs) v =>
    if s.holdsAt n v then (s, vs ++ [v])
    else if (s.partOf v).isSome then
      let (c, s) := s.choose 2
      (s, if c = 0 then vs else vs ++ [v])
    else (s, vs)) (s, ([] : List Nat))

/-- SLICE_STATE_ERROR (R462): the fatal latch names the lowest interface hit, and each loses its state. -/
def execSliceStateError (s : State) : Out :=
  let n := s.occ.n
  let (s, hit) := s.hitAt n
  let (x, s) := s.choose 64
  let s := s.latch (hit.headD x) 0x3B
  let s := s.countSlice n (hit.headD x) 0x10A 1
  .next (hit.foldl (fun s vi => s.loseSlice n vi) s).settleOps

/-- The clock of a row in MHz (R34, R464). -/
def State.clock (s : State) (row : Nat) : Nat := lookD s.clocks row 2700

/-- Set a row's clock, with what SYS.PWRSTAT shows of it (R464). -/
def State.setClock (s : State) (row mhz : Nat) : State :=
  let s : State := { s with clocks := if 2700 ≤ mhz then del s.clocks row else put s.clocks row mhz }
  let low := (List.range 12).foldl (fun m y => min m (s.clock y)) 2700
  let rows := (List.range 12).foldl (fun m y => if s.clock y < 2700 then m + 2 ^ y else m) 0
  (s.sysSetBits 0x404 0xFF 27 16 low).sysSetBits 0x404 0xFF 39 28 rows

/-- Whether a row's clock is lowered for heat at a temperature of its hottest core: from 95 degrees Celsius on, until it falls below 92
(R464). -/
def State.tooHot (s : State) (row t : Nat) : Bool := decide (95 ≤ t) || (decide (92 ≤ t) && s.hot.contains row)

/-- THERMAL_THROTTLE (R34, R464): a row that is too hot runs 100 MHz slower; one that has cooled runs at the clock the part gives it. At 110
degrees Celsius the part trips. -/
def execThermalThrottle (s : State) : Out :=
  let o := s.occ
  if 110 ≤ o.index then execThermalTrip s
  else
    let hot := s.tooHot o.n o.index
    let s := s.sysSetBits 0x404 0xFF 47 40 o.index
    let s : State := { s with hot := if hot then (if s.hot.contains o.n then s.hot else o.n :: s.hot) else s.hot.filter (fun y => y != o.n) }
    .next (s.setClock o.n (if hot then s.clock o.n - 100 else max (s.clock o.n) o.num))

/-- The clock that a row gets when the module's power is measured: above 1,600 W a lower one, else at most the clock given where the row is not
too hot; how much lower is the part's choice (R34, R464, log entry 144). -/
def State.powerClock (s : State) (row watts mhz : Nat) : Nat :=
  if 1600 < watts then min (s.clock row - 1) mhz else if s.hot.contains row then s.clock row else max (s.clock row) mhz

/-- POWER_LIMIT (R34, R464): the power averaged over 1 ms is shown, and the rows that are named change their clocks. -/
def execPowerLimit (s : State) : Out :=
  let o := s.occ
  .next (((List.range 12).foldl (fun s y => if bit o.index y then s.setClock y (s.powerClock y o.n o.num) else s) s).sysSetBits 0x404 0xFF 63 48 o.n)

end Sys2Proof.Machine
end

