-- ==== Sys2Proof/Machine/Issue.lean ====
section
/-!
DEFINITION. A cycle of a core (R20, R63 to R76): what waiting lanes and the units do at its start, the delivery of traps that are due,
the vote, the fetch ports, solo issue and solo fetch.
-/
namespace Sys2Proof.Machine

/-- Whether a register is empty for a lane. -/
def emptyRef (w : Wave) (l : Lane) : RegRef → Bool
  | .v n => has l.ve n
  | .w n => w.emptyW l.level n
  | .k n => w.emptyK n

/-- Lanes in WAIT whose operand is as they want it go on (R253). -/
def State.wakeWaits (s : State) (wid : Nat) (w : Wave) : State :=
  w.idx.foldl (fun s k =>
    let l := w.lane k
    match l.wait with
    | .full r => if emptyRef w l r then s else s.leave wid k
    | .empty r => if emptyRef w l r then s.leave wid k else s
    | _ => s) s

/-- Whether a trap that is due can end what a lane waits for (R241, R261, R327): an access it is held for, a SPAWN and the like are decided
first. -/
def State.canDeliver (s : State) (l : Lane) : Bool :=
  match l.wait with
  | .held id => (match look s.tillMsgs id with | some m => m.act == .take | none => false)
  | .spawn _ | .banks _ _ _ _ | .ordLeave | .record _ | .restart | .stopped => false
  | .run | .barrier _ | .sleep _ | .full _ | .empty _ | .sign _ _ _ | .commit _ _ | .rowBar _ _ _ _ _ | .posting _ | .matrix | .arming _
  | .claim _ _ _ | .graphics _ | .ordEnter _ | .room | .sys | .page _ => true

/-- Remove the first trap of a lane's list that equals one. -/
def Lane.dropDue (l : Lane) (t : Trap) : Lane := { l with due := l.due.erase t }

/-- Deliver one lane's due trap, if it can take one (R327, R397, R402); a wave that is about to be saved keeps a late one with its image (R329); lanes of one wave with the same barrier time-out take it as one
record (R82). -/
def State.deliverTrap (s : State) (wid k : Nat) : State :=
  let w := s.waveAt wid
  let l := w.lane k
  match l.trapNow with
  | none => s
  | some t =>
    if !l.live || !s.canDeliver l || ((w.yielding || w.forced) && t.isLate) then s
    else if t.kind = 0x0C then
      let ks := w.idx.filter (fun j => (w.lane j).live && (w.lane j).trapNow == some t && s.canDeliver (w.lane j))
      (ks.foldl (fun s j => s.modLane wid j (fun l => l.dropDue t)) s).raiseWaiting wid ks t
    else (s.modLane wid k (fun l => l.dropDue t)).takeTrap wid [k] (t.pc0.getD l.pc) t

/-- What happens at the start of a core's cycle, before its lanes vote. -/
def State.startCycle (s : State) (core : Nat) : State :=
  let s := (s.turnCounters core).modCore core (fun k => { k with cycle := k.cycle + 1, packed := false, tiles0 := k.tiles, latch0 := k.latch })
  let s : State := { s with waves := s.waves.map (fun (n, w) => (n, if w.core = core then { w with wsCycle := 0 } else w)) }
  let s := ((s.issueSigned core).settleMatrix core).settleLeaves core
  let s := (s.wakeCommit).retryPostings core
  let s := s.settleAsks (fun a => !a.draw && (s.waveAt a.wid).core == core)
  (s.wavesOn core).foldl (fun s (wid, w) =>
    w.idx.foldl (fun s k => s.deliverTrap wid k) (s.wakeWaits wid w)) s

/-- Whether a wave may issue: not while it yields or is forced, when only what it owes goes on (R262, R413, R414), the boot wave only in
firmware (R456), and any other wave only on a core of an enabled partition (R404). -/
def State.mayIssue (s : State) (w : Wave) (l : Lane) : Bool :=
  (if w.kind = .boot then s.boot == .firmware || s.boot == .service else (List.range 16).any (fun p => s.coreInPart p w.core)) &&
  (!(w.yielding || w.forced) || l.owes == some l.pc)

/-- The lanes of a wave that can issue (R67), each with its next instruction. -/
def State.canLanes (s : State) (wid : Nat) (w : Wave) : List (Nat × Instr) :=
  w.idx.filterMap (fun k =>
    let l := w.lane k
    if !s.mayIssue w l || !l.live || l.wait != .run then none
    else
      let i := s.peek w l
      if s.ready wid w i k then some (k, i) else none)

/-- Distinct numbers, rising. -/
def insertNat (x : Nat) : List Nat → List Nat
  | [] => [x]
  | y :: t => if x < y then x :: y :: t else if x = y then y :: t else y :: insertNat x t
def risingOf (xs : List Nat) : List Nat := xs.foldr insertNat []

/-- Since which cycle a lane waits for its next issue (R64). -/
def Wave.waitsSince (w : Wave) (k : Nat) : Nat := max (w.lane k).lastIssue w.start

/-- The program counter whose lanes have waited longest, the lower on a tie (R64). -/
def Wave.longest (w : Wave) (can : List (Nat × Instr)) (pcs : List Nat) : Nat :=
  let since (pc : Nat) : Nat :=
    ((can.filter (fun (k, _) => (w.lane k).pc.toNat == pc)).map (fun (k, _) => w.waitsSince k)).foldl min (2 ^ 64)
  pcs.foldl (fun best pc => if since pc < since best then pc else best) (pcs.headD 0)

/-- The vote of an issue cycle (R64): one or two program counters, the lower first, and the one it forces in, if any. -/
def Wave.vote (w : Wave) (can : List (Nat × Instr)) : List Nat × Option Nat :=
  let pcs := risingOf (can.map (fun (k, _) => (w.lane k).pc.toNat))
  let n := w.issues + 1
  match pcs with
  | [] => ([], none)
  | [p] => ([p], none)
  | p :: q :: _ =>
    let forced := if n % 64 = 0 then pcs.getLastD q else if n % 64 = 32 then w.longest can pcs else q
    if n % 32 ≠ 0 ∨ forced = p then ([p, q], none) else ([p, forced], some forced)

/-- The shared unit that the issue group of a program counter needs (R70, R71), and whether it is at SPAWN. -/
def groupUnit (w : Wave) (can : List (Nat × Instr)) (pc : Nat) : SharedUnit × Bool :=
  match can.find? (fun (k, _) => (w.lane k).pc.toNat == pc) with
  | some (_, i) => if legal i then ((descOf i).unit, (descOf i).opc == 0x5B) else (.none, false)
  | none => (.none, false)

/-- What R70 leaves of a vote: both, or one of two that need the same shared unit; and whether both are at SPAWN. -/
def Wave.sharing (w : Wave) (can : List (Nat × Instr)) (pcs : List Nat) (forced : Option Nat) : List Nat × Bool :=
  match pcs with
  | [p, q] =>
    let (u, sp) := groupUnit w can p
    let (v, sq) := groupUnit w can q
    if sp && sq then (pcs, true)
    else if u ≠ .none ∧ u = v then ([forced.getD p], false)
    else (pcs, false)
  | _ => (pcs, false)

/-- A wave that the ports may serve: its identity, the wave, its lanes that can issue, its program counters, and whether they merge. -/
structure Cand where
  wid : Nat
  w : Wave
  can : List (Nat × Instr)
  pcs : List Nat
  both : Bool
  forced : Option Nat := none
  deriving DecidableEq, Repr

/-- Cycles since a wave's last issue (R69), also over a save and a restart in place; a wave that has not issued counts from the cycle it was
placed in, since the rule names no other instant (log entry 118). -/
def Cand.idle (c : Cand) (cycle : Nat) : Nat := cycle - c.w.lastIssue

/-- The order of candidates (R69): the longest since its last issue, then the lower position, then the lower slot. -/
def Cand.before (cycle : Nat) (a b : Cand) : Bool :=
  decide (b.idle cycle < a.idle cycle) ||
  (a.idle cycle == b.idle cycle && (decide (a.w.pos < b.w.pos) || (a.w.pos == b.w.pos && decide (a.w.slot ≤ b.w.slot))))

def insertCand (cycle : Nat) (x : Cand) : List Cand → List Cand
  | [] => [x]
  | y :: t => if x.before cycle y then x :: y :: t else y :: insertCand cycle x t

/-- The candidates of a core in the order of R69. -/
def State.cands (s : State) (core : Nat) : List Cand :=
  let cycle := (s.coreAt core).cycle
  let all := (s.wavesOn core).filterMap (fun (wid, w) =>
    let can := s.canLanes wid w
    let (pcs, forced) := w.vote can
    let (pcs, both) := w.sharing can pcs forced
    if pcs.isEmpty then none else some ({ wid := wid, w := w, can := can, pcs := pcs, both := both, forced := forced } : Cand))
  all.foldr (insertCand cycle) []

/-- Whether two waves share lane positions. -/
def Wave.meets (a b : Wave) : Bool := decide (a.pos < b.pos + b.width) && decide (b.pos < a.pos + a.width)

/-- The program counters of a candidate that get a port of those left: with one port left, the one that the vote forces in, so that R64's
bound holds; else the first voted (R64, R69, log entry 111). -/
def Cand.served (c : Cand) (left : Nat) : List Nat :=
  match c.forced, left with
  | some p, 1 => [p]
  | _, _ => c.pcs.take left

/-- Allocate the four fetch ports (R69): each candidate admitted, with the program counters that got a port. -/
def ports : List Cand → Nat → List (Cand × List Nat) → List (Cand × List Nat)
  | [], _, got => got
  | c :: t, left, got =>
    if left = 0 then got
    else if got.any (fun (x, _) => x.w.meets c.w) then ports t left got
    else
      let mine := c.served left
      ports t (left - mine.length) (got ++ [(c, mine)])

/-- The issues of a candidate (R68), each with its group. -/
def Cand.issues (c : Cand) (pcs : List Nat) : List Issue :=
  (pcs.zip (List.range pcs.length)).map (fun (pc, n) =>
    { wid := c.wid, pc := dw pc, lanes := (c.can.filter (fun (k, _) => (c.w.lane k).pc.toNat == pc)).map Prod.fst, ws0 := c.w.ws,
      joins := c.both && n == 1 })

/-- What a broadcast leaves of a lane's divergence (R74, R75). -/
def Lane.after (l : Lane) (pcs : List Nat) : Lane :=
  if pcs.contains l.pc.toNat then
    { l with diverged := false, solo := none, buf := l.buf.map (fun (a, e) => (a, { e with inUse := false })) }
  else { l with diverged := true }

/-- The positions of a core at which a broadcast executes. -/
def usedPositions (got : List (Cand × List Nat)) : List Nat :=
  got.flatMap (fun (c, pcs) => (c.issues pcs).flatMap (fun i => i.lanes.map (fun k => c.w.pos + k)))

/-- Whether a lane's next instruction is ready to run alone: held in its buffer, or fetched whole (R73, R76). -/
def Lane.soloReady (l : Lane) (i : Instr) : Bool :=
  legal i && (descOf i).laneLocal &&
  ((l.bufWords l.pc.toNat).isSome || l.solo == some (l.pc.toNat, wordsOf i))

/-- The solo issues of a cycle (R73): lanes that can issue, whose program counter is not voted, at positions that no broadcast uses. -/
def State.soloIssues (s : State) (core : Nat) (got : List (Cand × List Nat)) : List Issue :=
  let used := usedPositions got
  (s.cands core).flatMap (fun c =>
    let voted := (c.w.vote c.can).1
    (c.can.filter (fun (k, i) => !voted.contains (c.w.lane k).pc.toNat && !used.contains (c.w.pos + k) && (c.w.lane k).soloReady i)).map
      (fun (k, _) => { wid := c.wid, pc := (c.w.lane k).pc, lanes := [k], solo := true, ws0 := c.w.ws }))

/-- Accesses and lanes of a core that wait at what keeps a blocked-state register, each with its interface and whether it is at user level
(R424, R461). -/
def State.blockedWaiters (s : State) (core : Nat) : List (Nat × Bool) :=
  (s.ops.filter (fun (_, o) => o.place == .bank && o.arrived && !o.done && o.core == core)).map (fun (_, o) => (o.vi, o.level == 0)) ++
  (s.wavesOn core).flatMap (fun (_, w) => (w.lanes.filter (fun l => match l.wait with
    | .barrier _ | .sign _ _ _ | .commit _ _ | .rowBar _ _ _ _ _ => true
    | _ => false)).map (fun l => (w.vi, l.level == 0)))

/-- Lanes of a wave that only an empty source keeps from issuing (R86, R461). -/
def State.blockedLanes (s : State) (w : Wave) : Nat :=
  (w.idx.filter (fun k =>
    let l := w.lane k
    let i := s.peek w l
    l.live && l.wait == .run && legal i && maskBit (fieldsOf i) w k && l.blockedSource w i)).length

/-- Whether a core has a counter that counts. -/
def State.counting (s : State) (core : Nat) : Bool := !(s.coreAt core).sels.isEmpty

/-- Whether a wave has user lanes among some. -/
def Wave.userAmong (w : Wave) (ks : List Nat) : Bool := ks.any (fun k => (w.lane k).level == 0)

/-- Count a cycle's events (R461): those that the manual leaves to timing, cache misses, matrix cycles and late-table stalls, are free. -/
def State.countCycle (s : State) (core : Nat) (got : List (Cand × List Nat)) (solos : List Issue) : State :=
  if !s.counting core then s
  else
    let s := got.foldl (fun s (c, _) => s.countCore core c.w.vi (c.w.userAmong (c.can.map Prod.fst)) 0x001 1) s
    let s := solos.foldl (fun s i => s.countCore core (s.waveAt i.wid).vi ((s.waveAt i.wid).userAmong i.lanes) 0x002 1) s
    let s := (s.wavesOn core).foldl (fun s (_, w) => s.countCore core w.vi (w.userAmong w.idx) 0x005 (s.blockedLanes w)) s
    let here := (s.wavesOn core).map (fun (_, w) => (w.vi, w.userAmong w.idx))
    let s := if s.clock (coreY core) < 2700 then
      s.countWhere core 0x00A (fun v u => if (v.isNone && !u) || here.any (fun x => (v.isNone || v == some x.1) && (!u || x.2)) then 1 else 0) else s
    let waiters := s.blockedWaiters core
    let s := s.countWhere core 0x00B (fun v u => (waiters.filter (fun x => (v.isNone || v == some x.1) && (!u || x.2))).length)
    [0x004, 0x006, 0x007].foldl (fun s code =>
      let (n, s) := s.freeBits 16
      let (vi, s) := s.choose 64
      s.countCore core vi true code n) s

/-- What a core's cycle decides (R63 to R75): the part after it, and the issues in the order of their wave slots. -/
def State.decideIssues (s : State) (core : Nat) : State × List Issue :=
  let s := s.startCycle core
  let cycle := (s.coreAt core).cycle
  let cs := s.cands core
  let got := ports cs 4 []
  let solos := s.soloIssues core got
  let s : State := { s with waves := s.waves.map (fun ((wid, w) : Nat × Wave) =>
    if w.core = core then
      let can := cs.any (fun c => c.wid == wid)
      let w := if can then { w with lastCan := s.gt } else w
      let w := if w.pending && !can && !(s.runnable wid w) && !w.lanes.any (fun l => l.live && l.inh) then { w with yielding := true } else w
      match got.find? (fun (c, _) => c.wid == wid) with
      | some (_, pcs) => (wid, { w with lastIssue := cycle, issues := w.issues + 1, lanes := w.lanes.map (fun l => l.after pcs) })
      | none => (wid, w)
    else (wid, w)) }
  let s := s.countCycle core got solos
  (s, (List.range 32).flatMap (fun n =>
    (got.filter (fun (c, _) => c.w.slot == n)).flatMap (fun (c, pcs) => c.issues pcs) ++
    solos.filter (fun i => (s.waveAt i.wid).slot == n)))

/-- ISSUE_CYCLE (R63 to R75): one cycle of a core. The issues that it decides are executed by the next steps. -/
def execIssueCycle (s : State) : Out :=
  let (t, is) := s.decideIssues s.occ.core
  .next { t with issues := t.issues ++ is }

/-- Whether a lane asks for a solo fetch (R76): it is diverged, can issue a lane-local instruction, and misses a word of it. -/
def State.asksSolo (s : State) (wid : Nat) (w : Wave) (k : Nat) : Bool :=
  let l := w.lane k
  l.live && l.wait == .run && l.diverged && s.mayIssue w l &&
  (let i := s.peek w l
   s.ready wid w i k && legal i && (descOf i).laneLocal && !l.soloReady i)

/-- The lanes of a quadrant that ask for a solo fetch, as position, slot, wave and lane. -/
def State.soloAskers (s : State) (core q : Nat) : List (Nat × Nat × Nat × Nat) :=
  (s.wavesOn core).flatMap (fun (wid, w) =>
    (w.idx.filter (fun k => (w.pos + k) / 16 == q && s.asksSolo wid w k)).map (fun k => (w.pos + k, w.slot, wid, k)))

/-- The next lane of a quadrant in the round of R76: the first after the one last served, by position and then by slot; after the last one
the round begins again. -/
def State.nextSolo (s : State) (core q : Nat) : Option (Nat × Nat) :=
  let last := lookD (s.coreAt core).soloLast (4 + q) 2047
  let rank (x : Nat × Nat × Nat × Nat) : Nat := (x.1 * 32 + x.2.1 + 2047 - last) % 2048
  ((s.soloAskers core q).foldl (fun best x =>
    match best with
    | some b => if rank x < rank b then some x else some b
    | none => some x) none).map (fun x => (x.2.2.1, x.2.2.2))

/-- Whether a quadrant's solo-fetch path is free: it delivers one word every two cycles (R76). -/
def State.soloFree (s : State) (core q : Nat) : Bool := decide (lookD (s.coreAt core).soloLast q 0 + 2 ≤ (s.coreAt core).cycle)

/-- Whether a solo fetch of a lane is due. -/
def State.soloDue (s : State) (wid k : Nat) : Bool :=
  let w := s.waveAt wid
  let q := (w.pos + k) / 16
  s.soloFree w.core q && s.nextSolo w.core q == some (wid, k)

/-- A word of a lane's solo fetch arrives after `got` others; the unit of its lanes starts no other for two cycles (R76). -/
def State.soloArrives (s : State) (wid k : Nat) (w : Wave) (l : Lane) (got : Nat) (x : Word) : State :=
  let pc := l.pc.toNat
  let s := s.modLane wid k (fun l => { l.bufPut (pc + 4 * got) x with solo := some (pc, got + 1) })
  let s := s.modCore w.core (fun c =>
    { c with soloLast := put (put c.soloLast ((w.pos + k) / 16) c.cycle) (4 + (w.pos + k) / 16) ((w.pos + k) * 32 + w.slot) })
  s.countCore w.core w.vi (l.level == 0) 0x003 1

/-- How many words of the instruction at its program counter a lane's solo fetches have brought (R75). -/
def Lane.soloGot (l : Lane) : Nat :=
  match l.solo with
  | some (a, n) => if a = l.pc.toNat then n else 0
  | none => 0

/-- SOLO_FETCH (R75, R76): the next word of a diverged lane's instruction arrives. It enters the loop buffer unless every entry is in
use; the lane executes the instruction in a later cycle. -/
def execSoloFetch (s : State) : Out :=
  let wid := s.occ.wid
  let k := s.occ.lane
  if s.soloDue wid k = false then .next s
  else
    let w := s.waveAt wid
    let l := w.lane k
    match s.fetchWord w l.level (l.pc.toNat + 4 * l.soloGot) with
    | (s, .ok x) => .next (s.soloArrives wid k w l l.soloGot x)
    | (s, _) => .next s

end Sys2Proof.Machine
end

