-- ==== Sys2Proof/Machine/Dispatch.lean ====
section
/-!
DEFINITION. One arm for every constructor: a direct call of its meaning, or the name of an instruction not reached yet.
-/
namespace Sys2Proof.Machine

/-- The meaning of an instruction. -/
def exec (i : Instr) (s : State) : Host.Outcome State Fault Refusal :=
  match i with
  | .iaddShort b a d => Sys2Proof.Machine.execIaddShort b a d s
  | .iadd v ty x => Sys2Proof.Machine.execIadd v ty x s
  | .isubShort b a d => Sys2Proof.Machine.execIsubShort b a d s
  | .isub v ty x => Sys2Proof.Machine.execIsub v ty x s
  | .imulShort b a d => Sys2Proof.Machine.execImulShort b a d s
  | .imul v ty x => Sys2Proof.Machine.execImul v ty x s
  | .iaddImmShort imm a d => Sys2Proof.Machine.execIaddImmShort imm a d s
  | .iaddImm v ty x => Sys2Proof.Machine.execIaddImm v ty x s
  | .imadShort b a d => Sys2Proof.Machine.execImadShort b a d s
  | .imad v ty x => Sys2Proof.Machine.execImad v ty x s
  | .idivShort b a d => Sys2Proof.Machine.execIdivShort b a d s
  | .idiv ty x => Sys2Proof.Machine.execIdiv ty x s
  | .iremShort b a d => Sys2Proof.Machine.execIremShort b a d s
  | .irem ty x => Sys2Proof.Machine.execIrem ty x s
  | .iminShort b a d => Sys2Proof.Machine.execIminShort b a d s
  | .imin ty x => Sys2Proof.Machine.execImin ty x s
  | .imaxShort b a d => Sys2Proof.Machine.execImaxShort b a d s
  | .imax ty x => Sys2Proof.Machine.execImax ty x s
  | .iabsShort a d => Sys2Proof.Machine.execIabsShort a d s
  | .iabs v ty x => Sys2Proof.Machine.execIabs v ty x s
  | .inegShort a d => Sys2Proof.Machine.execInegShort a d s
  | .ineg v ty x => Sys2Proof.Machine.execIneg v ty x s
  | .andShort b a d => Sys2Proof.Machine.execAndShort b a d s
  | .and wd x => Sys2Proof.Machine.execAnd wd x s
  | .orShort b a d => Sys2Proof.Machine.execOrShort b a d s
  | .or wd x => Sys2Proof.Machine.execOr wd x s
  | .xorShort b a d => Sys2Proof.Machine.execXorShort b a d s
  | .xor wd x => Sys2Proof.Machine.execXor wd x s
  | .notShort a d => Sys2Proof.Machine.execNotShort a d s
  | .not wd x => Sys2Proof.Machine.execNot wd x s
  | .shlShort c a d => Sys2Proof.Machine.execShlShort c a d s
  | .shl wd x => Sys2Proof.Machine.execShl wd x s
  | .shrShort c a d => Sys2Proof.Machine.execShrShort c a d s
  | .shr wd x => Sys2Proof.Machine.execShr wd x s
  | .sarShort c a d => Sys2Proof.Machine.execSarShort c a d s
  | .sar wd x => Sys2Proof.Machine.execSar wd x s
  | .rotShort c a d => Sys2Proof.Machine.execRotShort c a d s
  | .rot wd x => Sys2Proof.Machine.execRot wd x s
  | .popcShort a d => Sys2Proof.Machine.execPopcShort a d s
  | .popc wd x => Sys2Proof.Machine.execPopc wd x s
  | .clzShort a d => Sys2Proof.Machine.execClzShort a d s
  | .clz wd x => Sys2Proof.Machine.execClz wd x s
  | .brevShort a d => Sys2Proof.Machine.execBrevShort a d s
  | .brev wd x => Sys2Proof.Machine.execBrev wd x s
  | .bfx sx wd x => Sys2Proof.Machine.execBfx sx wd x s
  | .bfi wd x => Sys2Proof.Machine.execBfi wd x s
  | .icmpShort b a k => Sys2Proof.Machine.execIcmpShort b a k s
  | .icmp r ty x => Sys2Proof.Machine.execIcmp r ty x s
  | .sel wd x => Sys2Proof.Machine.execSel wd x s
  | .leaShort b a d => Sys2Proof.Machine.execLeaShort b a d s
  | .lea xs x => Sys2Proof.Machine.execLea xs x s
  | .movShort b d => Sys2Proof.Machine.execMovShort b d s
  | .mov x => Sys2Proof.Machine.execMov x s
  | .movW x => Sys2Proof.Machine.execMovW x s
  | .movLo x => Sys2Proof.Machine.execMovLo x s
  | .movHi x => Sys2Proof.Machine.execMovHi x s
  | .movFws x => Sys2Proof.Machine.execMovFws x s
  | .movTws x => Sys2Proof.Machine.execMovTws x s
  | .faddShort b a d => Sys2Proof.Machine.execFaddShort b a d s
  | .fadd ft x => Sys2Proof.Machine.execFadd ft x s
  | .fsubShort b a d => Sys2Proof.Machine.execFsubShort b a d s
  | .fsub ft x => Sys2Proof.Machine.execFsub ft x s
  | .fmulShort b a d => Sys2Proof.Machine.execFmulShort b a d s
  | .fmul ft x => Sys2Proof.Machine.execFmul ft x s
  | .fmaShort b a d => Sys2Proof.Machine.execFmaShort b a d s
  | .fma ft x => Sys2Proof.Machine.execFma ft x s
  | .fdivShort b a d => Sys2Proof.Machine.execFdivShort b a d s
  | .fdiv ft x => Sys2Proof.Machine.execFdiv ft x s
  | .fsqrtShort a d => Sys2Proof.Machine.execFsqrtShort a d s
  | .fsqrt ft x => Sys2Proof.Machine.execFsqrt ft x s
  | .frcpShort a d => Sys2Proof.Machine.execFrcpShort a d s
  | .frcp ft x => Sys2Proof.Machine.execFrcp ft x s
  | .frsqShort a d => Sys2Proof.Machine.execFrsqShort a d s
  | .frsq ft x => Sys2Proof.Machine.execFrsq ft x s
  | .fminShort b a d => Sys2Proof.Machine.execFminShort b a d s
  | .fmin ft x => Sys2Proof.Machine.execFmin ft x s
  | .fmaxShort b a d => Sys2Proof.Machine.execFmaxShort b a d s
  | .fmax ft x => Sys2Proof.Machine.execFmax ft x s
  | .fabsShort a d => Sys2Proof.Machine.execFabsShort a d s
  | .fabs ft x => Sys2Proof.Machine.execFabs ft x s
  | .fnegShort a d => Sys2Proof.Machine.execFnegShort a d s
  | .fneg ft x => Sys2Proof.Machine.execFneg ft x s
  | .fcpsShort b a d => Sys2Proof.Machine.execFcpsShort b a d s
  | .fcps ft x => Sys2Proof.Machine.execFcps ft x s
  | .fcmpShort b a k => Sys2Proof.Machine.execFcmpShort b a k s
  | .fcmp r ft x => Sys2Proof.Machine.execFcmp r ft x s
  | .fclsShort a d => Sys2Proof.Machine.execFclsShort a d s
  | .fcls ft x => Sys2Proof.Machine.execFcls ft x s
  | .frndShort a d => Sys2Proof.Machine.execFrndShort a d s
  | .frnd ft x => Sys2Proof.Machine.execFrnd ft x s
  | .cvtf cd cs x => Sys2Proof.Machine.execCvtf cd cs x s
  | .cvtfi cs ty x => Sys2Proof.Machine.execCvtfi cs ty x s
  | .cvtif cd ty x => Sys2Proof.Machine.execCvtif cd ty x s
  | .cvtsc toSc x => Sys2Proof.Machine.execCvtsc toSc x s
  | .fexpShort a d => Sys2Proof.Machine.execFexpShort a d s
  | .fexp b2 x => Sys2Proof.Machine.execFexp b2 x s
  | .flogShort a d => Sys2Proof.Machine.execFlogShort a d s
  | .flog b2 x => Sys2Proof.Machine.execFlog b2 x s
  | .fsinShort a d => Sys2Proof.Machine.execFsinShort a d s
  | .fsin pi x => Sys2Proof.Machine.execFsin pi x s
  | .fcosShort a d => Sys2Proof.Machine.execFcosShort a d s
  | .fcos pi x => Sys2Proof.Machine.execFcos pi x s
  | .ftanShort a d => Sys2Proof.Machine.execFtanShort a d s
  | .ftan x => Sys2Proof.Machine.execFtan x s
  | .ftanhShort a d => Sys2Proof.Machine.execFtanhShort a d s
  | .ftanh x => Sys2Proof.Machine.execFtanh x s
  | .fatanShort a d => Sys2Proof.Machine.execFatanShort a d s
  | .fatan x => Sys2Proof.Machine.execFatan x s
  | .fpack cf x => Sys2Proof.Machine.execFpack cf x s
  | .shflShort b a d => Sys2Proof.Machine.execShflShort b a d s
  | .shfl wd x => Sys2Proof.Machine.execShfl wd x s
  | .shflupShort imm a d => Sys2Proof.Machine.execShflupShort imm a d s
  | .shflup wd x => Sys2Proof.Machine.execShflup wd x s
  | .shfldnShort imm a d => Sys2Proof.Machine.execShfldnShort imm a d s
  | .shfldn wd x => Sys2Proof.Machine.execShfldn wd x s
  | .shflxShort imm a d => Sys2Proof.Machine.execShflxShort imm a d s
  | .shflx wd x => Sys2Proof.Machine.execShflx wd x s
  | .bcast wd x => Sys2Proof.Machine.execBcast wd x s
  | .vote op x => Sys2Proof.Machine.execVote op x s
  | .kset w x => Sys2Proof.Machine.execKset w x s
  | .kop op x => Sys2Proof.Machine.execKop op x s
  | .kmov w x => Sys2Proof.Machine.execKmov w x s
  | .kpopc x => Sys2Proof.Machine.execKpopc x s
  | .reduce op ty x => Sys2Proof.Machine.execReduce op ty x s
  | .scan op ty x => Sys2Proof.Machine.execScan op ty x s
  | .braShort imm => Sys2Proof.Machine.execBraShort imm s
  | .bra x => Sys2Proof.Machine.execBra x s
  | .brc r ty x => Sys2Proof.Machine.execBrc r ty x s
  | .callShort imm => Sys2Proof.Machine.execCallShort imm s
  | .call x => Sys2Proof.Machine.execCall x s
  | .callInd x => Sys2Proof.Machine.execCallInd x s
  | .retShort => Sys2Proof.Machine.execRetShort s
  | .ret x => Sys2Proof.Machine.execRet x s
  | .loopShort l a e => Sys2Proof.Machine.execLoopShort l a e s
  | .loop l x => Sys2Proof.Machine.execLoop l x s
  | .loopI l x => Sys2Proof.Machine.execLoopI l x s
  | .barWvShort => Sys2Proof.Machine.execBarWvShort s
  | .barWv x => Sys2Proof.Machine.execBarWv x s
  | .barBlk x => Sys2Proof.Machine.execBarBlk x s
  | .sleepShort a => Sys2Proof.Machine.execSleepShort a s
  | .sleep x => Sys2Proof.Machine.execSleep x s
  | .sleepFor x => Sys2Proof.Machine.execSleepFor x s
  | .waitFullShort a => Sys2Proof.Machine.execWaitFullShort a s
  | .waitFull x => Sys2Proof.Machine.execWaitFull x s
  | .waitEmpty x => Sys2Proof.Machine.execWaitEmpty x s
  | .trapShort c => Sys2Proof.Machine.execTrapShort c s
  | .trap x => Sys2Proof.Machine.execTrap x s
  | .endShort => Sys2Proof.Machine.execEndShort s
  | .endLane x => Sys2Proof.Machine.execEndLane x s
  | .msignShort g => Sys2Proof.Machine.execMsignShort g s
  | .msign x => Sys2Proof.Machine.execMsign x s
  | .spawn rng x => Sys2Proof.Machine.execSpawn rng x s
  | .yieldShort => Sys2Proof.Machine.execYieldShort s
  | .yieldNow x => Sys2Proof.Machine.execYieldNow x s
  | .cmtWaitShort => Sys2Proof.Machine.execCmtWaitShort s
  | .cmtWait x => Sys2Proof.Machine.execCmtWait x s
  | .cmtPos x => Sys2Proof.Machine.execCmtPos x s
  | .ldShort w a d => Sys2Proof.Machine.execLdShort w a d s
  | .ld ms x => Sys2Proof.Machine.execLd ms x s
  | .stShort w a d => Sys2Proof.Machine.execStShort w a d s
  | .st ms x => Sys2Proof.Machine.execSt ms x s
  | .ldsShort a d => Sys2Proof.Machine.execLdsShort a d s
  | .lds ms x => Sys2Proof.Machine.execLds ms x s
  | .stsShort a d => Sys2Proof.Machine.execStsShort a d s
  | .sts ms x => Sys2Proof.Machine.execSts ms x s
  | .fillShort a d => Sys2Proof.Machine.execFillShort a d s
  | .fill ms x => Sys2Proof.Machine.execFill ms x s
  | .drainShort a d => Sys2Proof.Machine.execDrainShort a d s
  | .drain ms x => Sys2Proof.Machine.execDrain ms x s
  | .seteShort a => Sys2Proof.Machine.execSeteShort a s
  | .sete ms x => Sys2Proof.Machine.execSete ms x s
  | .pushShort a d => Sys2Proof.Machine.execPushShort a d s
  | .push x => Sys2Proof.Machine.execPush x s
  | .popShort a d => Sys2Proof.Machine.execPopShort a d s
  | .pop x => Sys2Proof.Machine.execPop x s
  | .rbwaitShort a d => Sys2Proof.Machine.execRbwaitShort a d s
  | .rbwait x => Sys2Proof.Machine.execRbwait x s
  | .rbrdShort a d => Sys2Proof.Machine.execRbrdShort a d s
  | .rbrd x => Sys2Proof.Machine.execRbrd x s
  | .rbaddShort a d => Sys2Proof.Machine.execRbaddShort a d s
  | .rbadd x => Sys2Proof.Machine.execRbadd x s
  | .atom op ty x => Sys2Proof.Machine.execAtom op ty x s
  | .atoms op ty x => Sys2Proof.Machine.execAtoms op ty x s
  | .cas ty x => Sys2Proof.Machine.execCas ty x s
  | .cass ty x => Sys2Proof.Machine.execCass ty x s
  | .fatom op ft x => Sys2Proof.Machine.execFatom op ft x s
  | .fatoms op ft x => Sys2Proof.Machine.execFatoms op ft x s
  | .fenceShort => Sys2Proof.Machine.execFenceShort s
  | .fence k x => Sys2Proof.Machine.execFence k x s
  | .take x => Sys2Proof.Machine.execTake x s
  | .takeTry x => Sys2Proof.Machine.execTakeTry x s
  | .give x => Sys2Proof.Machine.execGive x s
  | .acinit x => Sys2Proof.Machine.execAcinit x s
  | .stock x => Sys2Proof.Machine.execStock x s
  | .bankreq x => Sys2Proof.Machine.execBankreq x s
  | .prefShort w a => Sys2Proof.Machine.execPrefShort w a s
  | .pref x => Sys2Proof.Machine.execPref x s
  | .ldw ms x => Sys2Proof.Machine.execLdw ms x s
  | .stw ms x => Sys2Proof.Machine.execStw ms x s
  | .flushShort w a => Sys2Proof.Machine.execFlushShort w a s
  | .flush x => Sys2Proof.Machine.execFlush x s
  | .mlatb mf x => Sys2Proof.Machine.execMlatb mf x s
  | .mma mf x => Sys2Proof.Machine.execMma mf x s
  | .mmas mf x => Sys2Proof.Machine.execMmas mf x s
  | .mmai mf x => Sys2Proof.Machine.execMmai mf x s
  | .mcbt x => Sys2Proof.Machine.execMcbt x s
  | .mzero x => Sys2Proof.Machine.execMzero x s
  | .mrd x => Sys2Proof.Machine.execMrd x s
  | .mst x => Sys2Proof.Machine.execMst x s
  | .mmv x => Sys2Proof.Machine.execMmv x s
  | .mstat x => Sys2Proof.Machine.execMstat x s
  | .mstatClr x => Sys2Proof.Machine.execMstatClr x s
  | .mwait x => Sys2Proof.Machine.execMwait x s
  | .mrel x => Sys2Proof.Machine.execMrel x s
  | .band x => Sys2Proof.Machine.execBand x s
  | .ppopc x => Sys2Proof.Machine.execPpopc x s
  | .igath wd x => Sys2Proof.Machine.execIgath wd x s
  | .cmpr wd x => Sys2Proof.Machine.execCmpr wd x s
  | .expd wd x => Sys2Proof.Machine.execExpd wd x s
  | .topk nz f x => Sys2Proof.Machine.execTopk nz f x s
  | .tcopy x => Sys2Proof.Machine.execTcopy x s
  | .tgath x => Sys2Proof.Machine.execTgath x s
  | .tscat x => Sys2Proof.Machine.execTscat x s
  | .fconv x => Sys2Proof.Machine.execFconv x s
  | .sred x => Sys2Proof.Machine.execSred x s
  | .embag x => Sys2Proof.Machine.execEmbag x s
  | .draw x => Sys2Proof.Machine.execDraw x s
  | .rpassTile x => Sys2Proof.Machine.execRpassTile x s
  | .rpassImm x => Sys2Proof.Machine.execRpassImm x s
  | .ordEnter x => Sys2Proof.Machine.execOrdEnter x s
  | .ordLeave x => Sys2Proof.Machine.execOrdLeave x s
  | .fli x => Sys2Proof.Machine.execFli x s
  | .flw x => Sys2Proof.Machine.execFlw x s
  | .rayq x => Sys2Proof.Machine.execRayq x s
  | .rayqApp x => Sys2Proof.Machine.execRayqApp x s
  | .sysrd x => Sys2Proof.Machine.execSysrd x s
  | .syswr x => Sys2Proof.Machine.execSyswr x s
  | .sysopIcinv x => Sys2Proof.Machine.execSysopIcinv x s
  | .sysopDcwb x => Sys2Proof.Machine.execSysopDcwb x s
  | .sysopXlinv x => Sys2Proof.Machine.execSysopXlinv x s
  | .sysopXlinvAll x => Sys2Proof.Machine.execSysopXlinvAll x s
  | .eret x => Sys2Proof.Machine.execEret x s
  | .issueCycle => Sys2Proof.Machine.execIssueCycle s
  | .soloFetch => Sys2Proof.Machine.execSoloFetch s
  | .destinationFill => Sys2Proof.Machine.execDestinationFill s
  | .barrierTimeout => Sys2Proof.Machine.execBarrierTimeout s
  | .sleepWake => Sys2Proof.Machine.execSleepWake s
  | .signingTimeout => Sys2Proof.Machine.execSigningTimeout s
  | .armingTimeout => Sys2Proof.Machine.execArmingTimeout s
  | .waveComplete => Sys2Proof.Machine.execWaveComplete s
  | .launch => Sys2Proof.Machine.execLaunch s
  | .cancel => Sys2Proof.Machine.execCancel s
  | .cancelReach => Sys2Proof.Machine.execCancelReach s
  | .launchStart => Sys2Proof.Machine.execLaunchStart s
  | .wavePlace => Sys2Proof.Machine.execWavePlace s
  | .spawnDecision => Sys2Proof.Machine.execSpawnDecision s
  | .packWave => Sys2Proof.Machine.execPackWave s
  | .packWaitExpire => Sys2Proof.Machine.execPackWaitExpire s
  | .commit => Sys2Proof.Machine.execCommit s
  | .dPageAccess => Sys2Proof.Machine.execDPageAccess s
  | .versionShareAbort => Sys2Proof.Machine.execVersionShareAbort s
  | .heldWrite => Sys2Proof.Machine.execHeldWrite s
  | .homeSliceStore => Sys2Proof.Machine.execHomeSliceStore s
  | .remoteScratchpadAccess => Sys2Proof.Machine.execRemoteScratchpadAccess s
  | .bankmodeWrite => Sys2Proof.Machine.execBankmodeWrite s
  | .bankSwitchComplete => Sys2Proof.Machine.execBankSwitchComplete s
  | .tileCopyRow => Sys2Proof.Machine.execTileCopyRow s
  | .lateDelivery => Sys2Proof.Machine.execLateDelivery s
  | .engineQueueTimeout => Sys2Proof.Machine.execEngineQueueTimeout s
  | .fconvTile => Sys2Proof.Machine.execFconvTile s
  | .sredElement => Sys2Proof.Machine.execSredElement s
  | .embagBag => Sys2Proof.Machine.execEmbagBag s
  | .matrixEntry => Sys2Proof.Machine.execMatrixEntry s
  | .tableSlotFill => Sys2Proof.Machine.execTableSlotFill s
  | .matrixClaimTimeout => Sys2Proof.Machine.execMatrixClaimTimeout s
  | .tillTake => Sys2Proof.Machine.execTillTake s
  | .tillGive => Sys2Proof.Machine.execTillGive s
  | .tillAcinit => Sys2Proof.Machine.execTillAcinit s
  | .tillStock => Sys2Proof.Machine.execTillStock s
  | .stocktakeRecall => Sys2Proof.Machine.execStocktakeRecall s
  | .allowanceWaitTimeout => Sys2Proof.Machine.execAllowanceWaitTimeout s
  | .rowBarrierTimeout => Sys2Proof.Machine.execRowBarrierTimeout s
  | .commitWaitTimeout => Sys2Proof.Machine.execCommitWaitTimeout s
  | .drawAccept => Sys2Proof.Machine.execDrawAccept s
  | .rasterWaveForm => Sys2Proof.Machine.execRasterWaveForm s
  | .ordEntryTimeout => Sys2Proof.Machine.execOrdEntryTimeout s
  | .ordSectionTimeout => Sys2Proof.Machine.execOrdSectionTimeout s
  | .fliPerform => Sys2Proof.Machine.execFliPerform s
  | .flwPerform => Sys2Proof.Machine.execFlwPerform s
  | .rayTraversal => Sys2Proof.Machine.execRayTraversal s
  | .graphicsTimeout => Sys2Proof.Machine.execGraphicsTimeout s
  | .resolvePhase => Sys2Proof.Machine.execResolvePhase s
  | .passClose => Sys2Proof.Machine.execPassClose s
  | .trapHandlerEntry => Sys2Proof.Machine.execTrapHandlerEntry s
  | .trapRingTimeout => Sys2Proof.Machine.execTrapRingTimeout s
  | .lateRecordTimeout => Sys2Proof.Machine.execLateRecordTimeout s
  | .lateStoreFault => Sys2Proof.Machine.execLateStoreFault s
  | .eventRecordTimeout => Sys2Proof.Machine.execEventRecordTimeout s
  | .timeSliceEnd => Sys2Proof.Machine.execTimeSliceEnd s
  | .forcedSave => Sys2Proof.Machine.execForcedSave s
  | .saveComplete => Sys2Proof.Machine.execSaveComplete s
  | .waveRestore => Sys2Proof.Machine.execWaveRestore s
  | .vistop => Sys2Proof.Machine.execVistop s
  | .waitCycleScan => Sys2Proof.Machine.execWaitCycleScan s
  | .nocRefusal => Sys2Proof.Machine.execNocRefusal s
  | .nocReplay => Sys2Proof.Machine.execNocReplay s
  | .translationWalk => Sys2Proof.Machine.execTranslationWalk s
  | .ownerRecall => Sys2Proof.Machine.execOwnerRecall s
  | .reclassifyComplete => Sys2Proof.Machine.execReclassifyComplete s
  | .hostRdmaWrite => Sys2Proof.Machine.execHostRdmaWrite s
  | .hostRdmaRead => Sys2Proof.Machine.execHostRdmaRead s
  | .hostAtomic => Sys2Proof.Machine.execHostAtomic s
  | .doorbellCqtail => Sys2Proof.Machine.execDoorbellCqtail s
  | .doorbellTqhead => Sys2Proof.Machine.execDoorbellTqhead s
  | .doorbellEqhead => Sys2Proof.Machine.execDoorbellEqhead s
  | .cqbaseWrite => Sys2Proof.Machine.execCqbaseWrite s
  | .tqbaseWrite => Sys2Proof.Machine.execTqbaseWrite s
  | .eqbaseWrite => Sys2Proof.Machine.execEqbaseWrite s
  | .partWrite => Sys2Proof.Machine.execPartWrite s
  | .vshareWrite => Sys2Proof.Machine.execVshareWrite s
  | .fatalClear => Sys2Proof.Machine.execFatalClear s
  | .registerWrite => Sys2Proof.Machine.execRegisterWrite s
  | .peerInbound => Sys2Proof.Machine.execPeerInbound s
  | .keepalive => Sys2Proof.Machine.execKeepalive s
  | .fabricPortDown => Sys2Proof.Machine.execFabricPortDown s
  | .peerLost => Sys2Proof.Machine.execPeerLost s
  | .peerHandshake => Sys2Proof.Machine.execPeerHandshake s
  | .ptpMessage => Sys2Proof.Machine.execPtpMessage s
  | .pstreamWrite => Sys2Proof.Machine.execPstreamWrite s
  | .frameDeadline => Sys2Proof.Machine.execFrameDeadline s
  | .coldReset => Sys2Proof.Machine.execColdReset s
  | .warmReset => Sys2Proof.Machine.execWarmReset s
  | .interfaceReset => Sys2Proof.Machine.execInterfaceReset s
  | .thermalTrip => Sys2Proof.Machine.execThermalTrip s
  | .thermalThrottle => Sys2Proof.Machine.execThermalThrottle s
  | .powerLimit => Sys2Proof.Machine.execPowerLimit s
  | .bootRun => Sys2Proof.Machine.execBootRun s
  | .measextWrite => Sys2Proof.Machine.execMeasextWrite s
  | .managementRequest => Sys2Proof.Machine.execManagementRequest s
  | .attestation => Sys2Proof.Machine.execAttestation s
  | .histogramTick => Sys2Proof.Machine.execHistogramTick s
  | .histogramSave => Sys2Proof.Machine.execHistogramSave s
  | .scrub => Sys2Proof.Machine.execScrub s
  | .registerEccError => Sys2Proof.Machine.execRegisterEccError s
  | .sliceStateError => Sys2Proof.Machine.execSliceStateError s
  | .illegalInstruction => Sys2Proof.Machine.execIllegalInstruction s
  | .peerAcknowledgement => Sys2Proof.Machine.execPeerAcknowledgement s
  | .keepaliveReceived => Sys2Proof.Machine.execKeepaliveReceived s
  | .fabricPortUp => Sys2Proof.Machine.execFabricPortUp s
  | .queuePairConnected => Sys2Proof.Machine.execQueuePairConnected s
  | .brokenConnection => Sys2Proof.Machine.execBrokenConnection s
  | .powerLoss => Sys2Proof.Machine.execPowerLoss s
  | .hostSend => Sys2Proof.Machine.execHostSend s

end Sys2Proof.Machine
end

