-- ==== Sys2Proof/Machine/Due.lean ====
section
/-!
DEFINITION. Which of the part's own steps may come next (R12 and the rule of each step): the steps that are due, those bound to an
instant of GT, the choice among them where the manual gives no order, and the passing of a GT tick (R31).
-/
namespace Sys2Proof.Machine

/-- An event with what it is about. -/
abbrev Ev := Instr × Occ

/-- The lanes of the resident waves that a test picks, as events. -/
def State.laneEvents (s : State) (i : Instr) (p : Wave → Lane → Bool) : List Ev :=
  s.waves.flatMap (fun (wid, w) => (w.idx.filter (fun k => p w (w.lane k))).map (fun k => (i, { wid := wid, lane := k })))

/-- The entries of a table that a test picks, as events about their keys. -/
def idEvents {α : Type} (m : FMap α) (i : Instr) (p : Nat → α → Bool) : List Ev :=
  (m.filter (fun (id, x) => p id x)).map (fun (id, _) => (i, { id := id }))

/-- Sleepers whose target has come (R252). -/
def State.dueWakes (s : State) : List Ev :=
  s.laneEvents .sleepWake (fun _ l => match l.wait with | .sleep t => decide (t ≤ s.gt) | _ => false)

/-- What is bound to an instant that has come: frames, lost peers, keepalives, late deliveries, slices, the detector (R323, R412, R425,
R447, R448, R452). -/
def State.dueInstants (s : State) : List Ev :=
  ((List.range 4).filter s.frameDue).map (fun i => (.frameDeadline, { index := i })) ++
  ((List.range 64).filter s.peerSilent).map (fun p => (.peerLost, { peer := p })) ++
  ((List.range 16).filter s.keepaliveDue).map (fun p => (.keepalive, { port := p })) ++
  idEvents s.cmds .lateDelivery (fun _ c => s.lateDue c) ++
  ((List.range 16).filter s.sliceDue).map (fun p => (.timeSliceEnd, { part := p })) ++
  ((List.range 16).filter s.scanDue).map (fun p => (.waitCycleScan, { part := p }))

/-- The time-outs that fall due in the current tick, raised at its end (R82, R258, R264, R276, R291, R300, R307, R324, R346, R359, R396,
R422). -/
def State.dueTimeouts (s : State) : List Ev :=
  idEvents s.barriers .barrierTimeout (fun id b => s.barrierExpired b && !s.barrierFull b) ++
  s.laneEvents .rowBarrierTimeout (fun _ l => match l.wait with | .rowBar _ _ _ due _ => s.expired due | _ => false) ++
  s.laneEvents .commitWaitTimeout (fun _ l => match l.wait with | .commit due _ => s.expired due && !s.holdsToken l.item | _ => false) ++
  s.laneEvents .signingTimeout (fun _ l => match l.wait with | .sign _ due _ => s.expired due | _ => false) ++
  s.waves.filterMap (fun (wid, w) =>
    if (s.coreAt w.core).armings.any (fun (_, a) => a.wid == wid && s.expired a.due) then some (.armingTimeout, { wid := wid }) else none) ++
  s.waves.filterMap (fun (wid, w) =>
    if w.lanes.any (fun l => match l.wait with | .claim _ _ due => s.expired due | _ => false) then
      some (.matrixClaimTimeout, { wid := wid })
    else none) ++
  ((s.gfxAsks.filter (fun (_, a) => s.askExpired a)).map (fun (_, a) => a.wid)).eraseDups.map (fun wid => (.graphicsTimeout, { wid := wid })) ++
  s.laneEvents .ordEntryTimeout (fun _ l => match l.wait with | .ordEnter due => s.expired due | _ => false) ++
  s.laneEvents .ordSectionTimeout (fun _ l => match l.ord with | some o => o.inside && s.expired o.due | none => false) ++
  idEvents s.tillMsgs .allowanceWaitTimeout (fun _ m => m.act == .take && s.expired m.due) ++
  (s.cmds.filter (fun (_, c) => !c.queued && s.expired c.due)).map (fun (_, c) => (.engineQueueTimeout, { wid := c.wid, lane := c.lane })) ++
  idEvents s.trapReqs .trapRingTimeout (fun _ r => s.ringStalled r) ++
  idEvents s.trapReqs .lateRecordTimeout (fun id r => s.lateStalled id r) ++
  idEvents s.eventReqs .eventRecordTimeout (fun id e => s.eventStalled id e)

/-- The cycles, fetches, saves and restores that may come next (R69, R76, R413, R416). -/
def State.dueIssue (s : State) : List Ev :=
  (List.range 180).map (fun c => (.issueCycle, { core := c })) ++
  s.waves.flatMap (fun (wid, w) => (w.idx.filter (fun k => s.soloDue wid k)).map (fun k => (.soloFetch, { wid := wid, lane := k }))) ++
  (s.waves.filter (fun (_, w) => s.forceDue w)).map (fun (wid, _) => (.forcedSave, { wid := wid })) ++
  (s.waves.filter (fun (wid, w) => s.saveDue wid w)).map (fun (wid, _) => (.saveComplete, { wid := wid })) ++
  (s.saved.filter (fun (wid, x) => s.restoreDue wid x)).map (fun (wid, _) => (.waveRestore, { wid := wid }))

/-- The accesses that may go on (R85, R135, R142, R274, R434). -/
def State.dueMemory (s : State) : List Ev :=
  idEvents s.fills .destinationFill (fun _ _ => true) ++
  idEvents s.ops .destinationFill (fun id o => s.fillDue id o) ++
  [2, 3, 4].flatMap (fun n => (s.ops.filter (fun (id, o) => s.storeDue id o n)).map (fun (id, _) => (.homeSliceStore, { id := id, n := n }))) ++
  idEvents s.ops .dPageAccess (fun id o => s.dDue id o) ++
  idEvents s.ops .remoteScratchpadAccess (fun id o => s.bankDue id o || s.bankWoken id o) ++
  idEvents s.held .heldWrite (fun id h => s.heldDue id h) ++
  ((List.range 64).filter s.commitDue).map (fun v => (.commit, { vi := v })) ++
  (List.range 64).flatMap (fun v => ((List.range 64).filter (fun n => (s.shareVictim v n).isSome)).map (fun n => (.versionShareAbort, { vi := v, n := n }))) ++
  s.switches.filterMap (fun (b, _) => if s.switchDue (b / 24) (b % 24) then some (.bankSwitchComplete, { index := b / 24, n := b % 24 }) else none) ++
  s.transit.filterMap (fun (leaf, t) => if t.recalled then none else some (.ownerRecall, { pa := leaf })) ++
  s.noc.filterMap (fun (k, w) =>
    if !w.replayed && decide (w.wait ≤ (s.coreAt (k / 2 ^ 20)).cycle) then some (.nocReplay, { core := k / 2 ^ 20, index := k / 16 % 2 ^ 16, n := k % 16, ok := true })
    else none) ++
  s.transit.filterMap (fun (leaf, t) => if s.reclassDue t then some (.reclassifyComplete, { pa := leaf }) else none)

/-- Whether a request may reach its till; a waiting TAKE is served with its queue (R284 to R289). -/
def State.tillDue (s : State) (id : Nat) (m : TillMsg) : Bool :=
  s.tillOpen id m &&
  (match m.act with
   | .take | .tryTake => !m.queued || (match s.till? m.line with | some t => t.examine | none => true)
   | .acinit => s.lineClear m
   | .give | .stock => true)

/-- The event of a request to a till. -/
def tillEvent : TillAct → Instr
  | .take | .tryTake => .tillTake
  | .give => .tillGive
  | .acinit => .tillAcinit
  | .stock => .tillStock

/-- The tills' and engines' next decisions (R282 to R289, R321 to R342). -/
def State.dueUnits (s : State) : List Ev :=
  s.tillMsgs.filterMap (fun (id, m) => if s.tillDue id m then some (tillEvent m.act, { id := id }) else none) ++
  s.tills.filterMap (fun (line, t) => if t.stock.isSome then some (.stocktakeRecall, { pa := line }) else none) ++
  s.cmds.flatMap (fun (id, c) =>
    match c.kind with
    | .tcopy | .tgath | .tscat => ((List.range c.rows).filter (fun j => s.engineDue id c j)).map (fun j => (.tileCopyRow, { id := id, n := j }))
    | .fconv => if s.engineDue id c 0 then [(.fconvTile, { id := id })] else []
    | .sred => if s.engineDue id c 0 then [(.sredElement, { id := id })] else []
    | .embag => if s.engineDue id c 0 then [(.embagBag, { id := id })] else []) ++
  s.cores.filterMap (fun (c, k) =>
    match k.mq.head? with
    | some e => if s.entryDue c e then some (.matrixEntry, { core := c }) else none
    | none => none) ++
  s.cores.filterMap (fun (c, _) => if s.slotDue c then some (.tableSlotFill, { core := c }) else none)

/-- The graphics units' next steps (R347 to R370). -/
def State.dueGraphics (s : State) : List Ev :=
  s.gfx.filterMap (fun (id, g) =>
    if g.opc = 0xA3 ∧ s.gfxReady id g then some (.fliPerform, { id := id })
    else if g.opc = 0xA4 ∧ s.gfxReady id g then some (.flwPerform, { id := id })
    else if g.opc = 0xA5 ∧ s.rayReady id g then some (.rayTraversal, { id := id })
    else none) ++
  s.passes.flatMap (fun (key, p) =>
    (if s.drawDue key then [(.drawAccept, { pass := key })] else []) ++
    (if p.stored.isSome then []
     else
       ((p.clusters.filter (fun c => (p.nextFragWave c).isSome)).map (fun c => (.rasterWaveForm, { pass := key, n := c }))) ++
       (if (p.resolving && p.nextResolve.isSome) || (!p.resolving && s.fragmentsDone key p) then [(.resolvePhase, { pass := key })] else [])) ++
    (if s.resolvesDone key p then [(.passClose, { pass := key })] else []))

/-- The scheduler's and the record writers' next steps (R46 to R61, R393 to R396, R406 to R410, R420). -/
def State.dueWork (s : State) : List Ev :=
  ((List.range 64).filter s.canRead).map (fun v => (if s.nextOp v = 2 then .cancel else .launch, { vi := v })) ++
  idEvents s.jobs .launchStart (fun id j => s.startDue id j) ++
  ((List.range 180).filter (fun c => (s.placeFor c).isSome)).map (fun c => (.wavePlace, { core := c })) ++
  idEvents s.spawns .spawnDecision (fun _ _ => true) ++
  (List.range 180).filterMap (fun c =>
    match s.nextGroup c with
    | some g => some (if s.groupFull c g then .packWave else .packWaitExpire, { core := c })
    | none => none) ++
  idEvents s.issuers .waveComplete (fun id i => s.completeDue id i) ++
  idEvents s.jobs .waveComplete (fun id j => s.drained id j) ++
  s.jobs.flatMap (fun (lid, j) =>
    if j.cancelAt.isNone then []
    else ((List.range 180).filter (fun c => s.coreOfVi j.vi c && !j.reached.contains c)).map (fun c => (.cancelReach, { id := lid, core := c }))) ++
  idEvents s.trapReqs .trapHandlerEntry (fun id r => s.recordDue id r) ++
  (if s.boot = .rom then [(.bootRun, ({ id := 0 } : Occ))] else [])

/-- The outside event that comes next: a doorbell waits behind earlier writes of its queue pair (R444), and only events come from
outside. -/
def State.dueInput (s : State) : List Ev :=
  match s.inputs with
  | [] => []
  | (i, o) :: _ =>
    let bell := (match i with
      | .doorbellCqtail | .doorbellTqhead | .doorbellEqhead => true
      | .hostRdmaWrite => o.ok
      | _ => false)
    if isLane i || (bell && s.hostHeld o.vi) then [] else [(i, o)]

/-- Whether a slice has a counter that counts. -/
def State.sliceCounts (s : State) (n : Nat) : Bool := (List.range 16).any (fun k => s.sysBits (0x420 + k) n 63 63 == 1)

/-- Pass one GT tick (R31), with the time that pages spent in transit, and what the manual leaves to the caches, counted (R461). -/
def State.tick (s : State) : State :=
  let slices := (s.transit.map (fun (leaf, _) => homeSlice leaf)).eraseDups
  let s := slices.foldl (fun s n =>
    s.countShared n ((s.transit.filter (fun (leaf, _) => homeSlice leaf == n)).map (fun (_, t) => t.vi)) 0x106 1) s
  let s := ((List.range 64).filter s.sliceCounts).foldl (fun s n =>
    [0x101, 0x102].foldl (fun s code =>
      let (x, s) := s.freeBits 16
      let (vi, s) := s.choose 64
      s.countSlice n vi code x) s) s
  { s with gt := (s.gt + 1) % 2 ^ 64, closing := false }

/-- A SPAWN that is not decided and of which a step would stop a lane (R261): its lane waits before and no longer after. -/
def State.lostSpawn (s t : State) : Option Nat :=
  s.spawns.findSome? (fun (id, r) =>
    if (look t.spawns id).isSome &&
       r.asks.any (fun a => ((s.anyWave r.wid).lane a.lane).wait == .spawn id && ((t.anyWave r.wid).lane a.lane).wait != .spawn id) then some id
    else none)

/-- What a step comes to when it would stop a lane of an undecided SPAWN: the decision comes first, and no lane drops out of it (R261). -/
def State.afterSpawns (s : State) (o : Out) : Out :=
  match o with
  | .next t =>
    match s.lostSpawn t with
    | some id => execSpawnDecision { s with occ := { id := id } }
    | none => .next t
  | o => o

/-- Whether an access of the part itself still waits: its page is in transit (R434), or an engine command owns its line (R436). -/
def State.stalled (s : State) : Bool :=
  match s.stall with
  | some a => has s.transit a || s.lineOwned a 1
  | none => false

/-- What a step comes to: one that makes an access of the part which has to wait does not come about, and `base` goes on, with the
reclassification that the access has started (R434, R436). -/
def State.settle (base : State) (o : Out) : Out :=
  match o with
  | .next t =>
    match t.stall with
    | none => .next t
    | some a => .next { base with stall := some a, transit := (match look t.transit a with | some x => put base.transit a x | none => base.transit) }
  | o => o

/-- The next event, or none for a GT tick. What is bound to an instant comes first; the rest, the next outside event and the passing of the
tick come in an order that nothing constrains (R12); the time-outs of a tick are raised at its end (R82). While an access of the part waits,
what is bound to an instant waits behind it. -/
def State.nextEvent (s : State) : State × Option Ev :=
  let stalled := s.stalled
  match s.dueWakes ++ (if stalled then [] else s.dueInstants) with
  | e :: _ => (s, some e)
  | [] =>
    let own := s.dueIssue ++ s.dueMemory ++ s.dueUnits ++ s.dueGraphics ++ s.dueWork
    let out := s.dueInput
    let n := if s.closing && !stalled then own.length + out.length else Config.pick s.ctr % (own.length + out.length + 1)
    let s : State := { s with ctr := s.ctr + 1 }
    match (own ++ out)[n]? with
    | some e => ({ s with inputs := if own.length ≤ n then s.inputs.drop 1 else s.inputs }, some e)
    | none =>
      match (if stalled then [] else s.dueTimeouts) with
      | e :: _ => ({ s with closing := true }, some e)
      | [] => (s, none)

end Sys2Proof.Machine
end

