-- ==== Sys2Proof/Machine/Step.lean ====
section
/-!
DEFINITION. One step of the part: the next decided issue is fetched, decoded and executed; without one, the next event of the
part or of the outside happens, or a GT tick passes.
-/
namespace Sys2Proof.Machine

/-- One step. A part without power stops until a cold reset comes (R453). -/
def step (s : State) : Host.Outcome State Fault Refusal :=
  match s.issues with
  | c :: rest =>
    let base := { s with issues := rest, stall := none }
    let f := base.fetchIssue c
    match f.go with
    | some (c, i) => base.settle (s.afterSpawns (exec i { f.s with cur := some c }))
    | none => base.settle (s.afterSpawns (.next f.s))
  | [] =>
    if s.power then
      match s.nextEvent with
      | (t, some (i, o)) => State.settle { s with ctr := t.ctr } (s.afterSpawns (exec i { t with occ := o, stall := none }))
      | (s, none) => .next s.tick
    else
      match s.inputs with
      | (.coldReset, o) :: rest => exec .coldReset { s with inputs := rest, occ := o }
      | _ :: rest => .next { s with inputs := rest }
      | [] => .fault .noPower

/-- An instruction whose bits are w, stored where the boot wave fetches next, with the boot wave's lanes as the next issue. -/
def State.withFetchWord (s : State) (nbits w : Nat) : State := s.placeBoot (w % 2 ^ nbits)

end Sys2Proof.Machine
end

