-- ==== Sys2Proof/WellFormed.lean ====
section
/-!
DEFINITION. Well-formedness of an instruction: it is an instruction of the part by R190, so that a decoder may answer it and
an encoder has words for it.
-/
namespace Sys2Proof

/-- Well-formed: no pattern of R190. -/
def WellFormed (i : Instr) : Bool := Machine.legal i

end Sys2Proof
end

