-- ==== Sys2Proof/Laws/Decoding.lean ====
section
/-!
SUPPORT. Laws of the encoding: the fields of the words that the encoder writes, and what the decoder reads from words laid out so.
-/
namespace Sys2Proof
open Machine
theorem bit_append {m n p : Nat} (a : BitVec m) (b : BitVec n) (c : BitVec p) (h : p = m + n) (hc : c.toNat = (a ++ b).toNat) (j : Nat) :
    c.getLsbD j = if j < n then b.getLsbD j else a.getLsbD (j - n) := by
  subst h
  rw [BitVec.eq_of_toNat_eq hc, BitVec.getLsbD_append]
theorem baseWord_bit (f6 : BitVec 6) (sa dst opc : BitVec 8) (len : BitVec 2) (j : Nat) :
    (baseWord f6 sa dst opc len).getLsbD j = if j < 2 then len.getLsbD j else if j - 2 < 8 then opc.getLsbD (j - 2)
      else if j - 2 - 8 < 8 then dst.getLsbD (j - 2 - 8) else if j - 2 - 8 - 8 < 8 then sa.getLsbD (j - 2 - 8 - 8)
      else f6.getLsbD (j - 2 - 8 - 8 - 8) := by
  unfold baseWord
  rw [bit_append (f6 ++ sa ++ dst ++ opc) len _ rfl rfl, bit_append (f6 ++ sa ++ dst) opc _ rfl rfl,
    bit_append (f6 ++ sa) dst _ rfl rfl, bit_append f6 sa _ rfl rfl]
theorem baseWord_f6 (f6 : BitVec 6) (sa dst opc : BitVec 8) (len : BitVec 2) : (baseWord f6 sa dst opc len).extractLsb' 26 6 = f6 := by
  apply BitVec.eq_of_getLsbD_eq
  intro i hi
  rw [BitVec.getLsbD_extractLsb', baseWord_bit, if_neg (by omega), if_neg (by omega), if_neg (by omega), if_neg (by omega)]
  simp [hi, show 26 + i - 2 - 8 - 8 - 8 = i by omega]
theorem baseWord_sa (f6 : BitVec 6) (sa dst opc : BitVec 8) (len : BitVec 2) : (baseWord f6 sa dst opc len).extractLsb' 18 8 = sa := by
  apply BitVec.eq_of_getLsbD_eq
  intro i hi
  rw [BitVec.getLsbD_extractLsb', baseWord_bit, if_neg (by omega), if_neg (by omega), if_neg (by omega), if_pos (by omega)]
  simp [hi, show 18 + i - 2 - 8 - 8 = i by omega]
theorem baseWord_dst (f6 : BitVec 6) (sa dst opc : BitVec 8) (len : BitVec 2) : (baseWord f6 sa dst opc len).extractLsb' 10 8 = dst := by
  apply BitVec.eq_of_getLsbD_eq
  intro i hi
  rw [BitVec.getLsbD_extractLsb', baseWord_bit, if_neg (by omega), if_neg (by omega), if_pos (by omega)]
  simp [hi, show 10 + i - 2 - 8 = i by omega]
theorem baseWord_opc (f6 : BitVec 6) (sa dst opc : BitVec 8) (len : BitVec 2) : (baseWord f6 sa dst opc len).extractLsb' 2 8 = opc := by
  apply BitVec.eq_of_getLsbD_eq
  intro i hi
  rw [BitVec.getLsbD_extractLsb', baseWord_bit, if_neg (by omega), if_pos (by omega)]
  simp [hi, show 2 + i - 2 = i by omega]
theorem baseWord_len (f6 : BitVec 6) (sa dst opc : BitVec 8) (len : BitVec 2) : (baseWord f6 sa dst opc len).extractLsb' 0 2 = len := by
  apply BitVec.eq_of_getLsbD_eq
  intro i hi
  rw [BitVec.getLsbD_extractLsb', baseWord_bit, if_pos (by omega)]
  simp [hi]
theorem extWord1_bit (x : Fields) (j : Nat) : (extWord1 x).getLsbD j =
    if j < 8 then x.sb.getLsbD j else if j - 8 < 8 then x.sc.getLsbD (j - 8) else if j - 8 - 8 < 3 then x.km.getLsbD (j - 8 - 8)
    else if j - 8 - 8 - 3 < 1 then (BitVec.ofBool x.kn).getLsbD (j - 8 - 8 - 3)
    else if j - 8 - 8 - 3 - 1 < 1 then (BitVec.ofBool x.epa).getLsbD (j - 8 - 8 - 3 - 1)
    else if j - 8 - 8 - 3 - 1 - 1 < 1 then (BitVec.ofBool x.epb).getLsbD (j - 8 - 8 - 3 - 1 - 1)
    else if j - 8 - 8 - 3 - 1 - 1 - 1 < 1 then (BitVec.ofBool x.epc).getLsbD (j - 8 - 8 - 3 - 1 - 1 - 1)
    else if j - 8 - 8 - 3 - 1 - 1 - 1 - 1 < 3 then x.scope.getLsbD (j - 8 - 8 - 3 - 1 - 1 - 1 - 1)
    else if j - 8 - 8 - 3 - 1 - 1 - 1 - 1 - 3 < 2 then x.hint.getLsbD (j - 8 - 8 - 3 - 1 - 1 - 1 - 1 - 3)
    else if j - 8 - 8 - 3 - 1 - 1 - 1 - 1 - 3 - 2 < 2 then x.rnd.getLsbD (j - 8 - 8 - 3 - 1 - 1 - 1 - 1 - 3 - 2)
    else x.mode.getLsbD (j - 8 - 8 - 3 - 1 - 1 - 1 - 1 - 3 - 2 - 2) := by
  unfold extWord1
  rw [bit_append _ x.sb _ rfl rfl, bit_append _ x.sc _ rfl rfl, bit_append _ x.km _ rfl rfl, bit_append _ (BitVec.ofBool x.kn) _ rfl rfl,
    bit_append _ (BitVec.ofBool x.epa) _ rfl rfl, bit_append _ (BitVec.ofBool x.epb) _ rfl rfl, bit_append _ (BitVec.ofBool x.epc) _ rfl rfl,
    bit_append _ x.scope _ rfl rfl, bit_append _ x.hint _ rfl rfl, bit_append _ x.rnd _ rfl rfl]
theorem extWord1_fields (x : Fields) :
    (extWord1 x).extractLsb' 0 8 = x.sb ∧ (extWord1 x).extractLsb' 8 8 = x.sc ∧ (extWord1 x).extractLsb' 16 3 = x.km ∧
    (extWord1 x).getLsbD 19 = x.kn ∧ (extWord1 x).getLsbD 20 = x.epa ∧ (extWord1 x).getLsbD 21 = x.epb ∧ (extWord1 x).getLsbD 22 = x.epc ∧
    (extWord1 x).extractLsb' 23 3 = x.scope ∧ (extWord1 x).extractLsb' 26 2 = x.hint ∧ (extWord1 x).extractLsb' 28 2 = x.rnd ∧
    (extWord1 x).extractLsb' 30 2 = x.mode := by
  refine ⟨?_, ?_, ?_, ?_, ?_, ?_, ?_, ?_, ?_, ?_, ?_⟩
  case refine_4 => rw [extWord1_bit]; simp
  case refine_5 => rw [extWord1_bit]; simp
  case refine_6 => rw [extWord1_bit]; simp
  case refine_7 => rw [extWord1_bit]; simp
  all_goals
    apply BitVec.eq_of_getLsbD_eq
    intro i hi
    rw [BitVec.getLsbD_extractLsb', extWord1_bit]
    repeat (first | rw [if_pos (by omega)] | rw [if_neg (by omega)])
    simp only [hi, decide_true, Bool.true_and]
    congr 1
    try omega
/-- The literal of a form stands in its two words. -/
theorem lit_words (l : DWord) : (l.extractLsb' 32 32 ++ l.extractLsb' 0 32 : BitVec 64) = l := by
  apply BitVec.eq_of_getLsbD_eq
  intro i hi
  rw [BitVec.getLsbD_append, BitVec.getLsbD_extractLsb', BitVec.getLsbD_extractLsb']
  split
  · rename_i h; simp [h]
  · rename_i h; simp [show i - 32 < 32 by omega, show 32 + (i - 32) = i by omega]
theorem extFields_words (x : Fields) (f : Form) (f6 : BitVec 6) (opc : BitVec 8) (len : BitVec 2) :
    extFields f (baseWord f6 x.sa x.dst opc len) (extWord1 x) x.w2 = { x with form := f } := by
  obtain ⟨h1, h2, h3, h4, h5, h6, h7, h8, h9, h10, h11⟩ := extWord1_fields x
  unfold extFields
  rw [baseWord_sa, baseWord_dst, h1, h2, h3, h4, h5, h6, h7, h8, h9, h10, h11]
/-- The decoder on a base word of three words. -/
theorem decode_len2 (f6 : BitVec 6) (sa dst opc : BitVec 8) (w1 w2 : Word) (rest : List Word) (ha : assigned opc.toNat = true) :
    decode (baseWord f6 sa dst opc 2 :: w1 :: w2 :: rest) =
      subOrError (decodeSub opc.toNat f6.toNat (extFields .ext (baseWord f6 sa dst opc 2) w1 w2)) := by
  unfold decode
  dsimp only
  simp only [baseWord_opc, baseWord_len, baseWord_f6, ha]
  simp only [Bool.not_true, Bool.false_eq_true, if_false]
  rfl
theorem decode_len1 (sa dst opc : BitVec 8) (l0 l1 : Word) (rest : List Word) (ha : assigned opc.toNat = true) (hl : litOpc opc.toNat = true)
    (hn : opc.toNat ≠ 0x1A) :
    decode (baseWord 0 sa dst opc 1 :: l0 :: l1 :: rest) =
      subOrError (decodeSub opc.toNat 0 (litFields (l1 ++ l0) opc.toNat (baseWord 0 sa dst opc 1))) := by
  unfold decode
  dsimp only
  simp only [baseWord_opc, baseWord_len, baseWord_f6, ha, hl, hn]
  simp only [Bool.not_true, Bool.false_eq_true, if_false]
  rfl
theorem decode_len3 (f6 : BitVec 6) (sa dst opc : BitVec 8) (w1 w2 l0 l1 : Word) (rest : List Word) (ha : assigned opc.toNat = true)
    (hl : litOpc opc.toNat = true) :
    decode (baseWord f6 sa dst opc 3 :: w1 :: w2 :: l0 :: l1 :: rest) =
      subOrError (decodeSub opc.toNat f6.toNat (extFields (.extLit (l1 ++ l0)) (baseWord f6 sa dst opc 3) w1 w2)) := by
  unfold decode
  dsimp only
  simp only [baseWord_opc, baseWord_len, baseWord_f6, ha, hl]
  simp only [Bool.not_true, Bool.false_eq_true, if_false]
  rfl
theorem decode_len0 (f6 : BitVec 6) (sa dst opc : BitVec 8) (rest : List Word) (ha : assigned opc.toNat = true) :
    decode (baseWord f6 sa dst opc 0 :: rest) = decodeShort opc.toNat (baseWord f6 sa dst opc 0) := by
  unfold decode
  dsimp only
  simp only [baseWord_opc, baseWord_len, baseWord_f6, ha]
  simp only [Bool.not_true, Bool.false_eq_true, if_false]
  rfl
/-- What the decoder reads from the words of an extended instruction. -/
theorem decode_encodeExt (d : Desc) (x : Fields) (ho : d.opc < 256) (hs : d.sub < 64) (ha : assigned d.opc = true)
    (hl : (d.lit == .no || litOpc d.opc) = true) (hf : formOk d x = true) : decode (encodeExt d x) = subOrError (decodeSub d.opc d.sub x) := by
  have hopc : (BitVec.ofNat 8 d.opc).toNat = d.opc := by rw [BitVec.toNat_ofNat]; omega
  have hsub : (BitVec.ofNat 6 d.sub).toNat = d.sub := by rw [BitVec.toNat_ofNat]; omega
  have hx : ∀ f, x.form = f → ({ x with form := f } : Fields) = x := by rintro f rfl; rfl
  unfold formOk at hf
  unfold encodeExt
  cases hx' : x.form with
  | short => rw [hx'] at hf; simp at hf
  | ext =>
    simp only
    rw [decode_len2 _ _ _ _ _ _ _ (by rw [hopc]; exact ha), hopc, hsub, extFields_words, hx _ hx']
  | extLit l =>
    rw [hx'] at hf
    simp only at hf
    have hlit : litOpc d.opc = true := by
      cases hd : d.lit <;> rw [hd] at hl hf <;> first | exact hl | simp at hf
    simp only
    rw [decode_len3 _ _ _ _ _ _ _ _ _ (by rw [hopc]; exact ha) (by rw [hopc]; exact hlit), hopc, hsub, lit_words, extFields_words, hx _ hx']
  | shortLit l =>
    rw [hx'] at hf
    simp only [Bool.and_eq_true, beq_iff_eq, Bool.not_eq_true', bne_iff_ne] at hf
    obtain ⟨⟨⟨⟨⟨⟨⟨⟨⟨⟨⟨⟨⟨⟨g1, g2⟩, g3⟩, g4⟩, g5⟩, g6⟩, g7⟩, g8⟩, g9⟩, g10⟩, g11⟩, g12⟩, g13⟩, g14⟩, g15⟩ := hf
    have hlit : litOpc d.opc = true := by
      cases hd : d.lit <;> rw [hd] at hl g1 <;> first | exact hl | simp at g1
    have hfl : litFields l d.opc (baseWord 0 x.sa x.dst (BitVec.ofNat 8 d.opc) 1) = x := by
      unfold litFields
      rw [baseWord_sa, baseWord_dst, ← g4, ← hx']
      cases x
      simp_all
    simp only
    rw [decode_len1 _ _ _ _ _ _ (by rw [hopc]; exact ha) (by rw [hopc]; exact hlit) (by rw [hopc]; exact g15), hopc, lit_words, hfl, g2]
theorem legal_eq (i : Instr) : Machine.legal i = (isLane i && subOk i && (isShort i || formOk (descForm i) (fieldsOf i)) && modOk (descForm i) (fieldsOf i) &&
  opdOk (descForm i).dst (fieldsOf i).dst && opdOk (descForm i).a (fieldsOf i).sa && opdOk (descForm i).b (fieldsOf i).sb && opdOk (descForm i).c (fieldsOf i).sc &&
  ((fieldsOf i).w2 &&& ~~~(descForm i).w2) == 0 && extraOk i) := rfl
theorem and9 (a b c d e f g h p q : Bool) (hh : (a && b && c && d && e && f && g && h && p && q) = true) : c = true := by
  revert hh; cases c <;> simp
theorem formOk_of_legal {i : Instr} (hs : isShort i = false) (h : WellFormed i = true) : formOk (descForm i) (fieldsOf i) = true := by
  have h1 : Machine.legal i = true := h
  rw [legal_eq] at h1
  have h2 := and9 _ _ _ _ _ _ _ _ _ _ h1
  rw [hs, Bool.false_or] at h2
  exact h2

/-- What the decoder reads from the words of an extended instruction of the opcode o and the SUB m. -/
theorem decode_ext {d : Desc} {x : Fields} {o m : Nat} (ho : d.opc = o) (hm : m < 64) (ha : (decide (o < 256) && assigned o) = true)
    (hs : d.sub = m) (hl : (d.lit == .no || litOpc d.opc) = true) (hf : formOk d x = true) :
    decode (encodeExt d x) = subOrError (decodeSub o m x) := by
  subst hs
  subst ho
  simp only [Bool.and_eq_true, decide_eq_true_eq] at ha
  exact decode_encodeExt d x ha.1 hm ha.2 hl hf

theorem subOrError_some {r : Option Instr} {i : Instr} (h : r = some i) : subOrError r = .ok i := by rw [h]; rfl

/-- Two codes in one SUB are read back. -/
theorem pair_code {α β γ : Type} {f : Nat → Option α} {g : Nat → Option β} {a b : Nat} {x : α} {y : β} (hb : b < 8) (hf : f a = some x)
    (hg : g b = some y) (k : α → β → γ) : (f ((8 * a + b) / 8)).bind (fun m => (g ((8 * a + b) % 8)).map (fun t => k m t)) = some (k x y) := by
  rw [show (8 * a + b) / 8 = a by omega, show (8 * a + b) % 8 = b by omega, hf, hg]
  rfl

/-- One code in SUB is read back. -/
theorem single_code {α γ : Type} {f : Nat → Option α} {a : Nat} {x : α} (hf : f a = some x) (k : α → γ) : (f a).map (fun m => k m) = some (k x) := by
  rw [hf]; rfl

theorem pair_lt {a b : Nat} (ha : a < 8) (hb : b < 8) : 8 * a + b < 64 := by omega

/-- The words of a jump: a 22-bit offset above the opcode. -/
theorem jump_bit (i : BitVec 22) (opc : BitVec 8) (w : Word) (hw : w.toNat = (i ++ opc ++ (0 : BitVec 2)).toNat) (j : Nat) :
    w.getLsbD j = if j < 2 then (0 : BitVec 2).getLsbD j else if j - 2 < 8 then opc.getLsbD (j - 2) else i.getLsbD (j - 2 - 8) := by
  rw [bit_append (i ++ opc) (0 : BitVec 2) _ rfl hw, bit_append i opc _ rfl rfl]

theorem jump_opc (i : BitVec 22) (opc : BitVec 8) (w : Word) (hw : w.toNat = (i ++ opc ++ (0 : BitVec 2)).toNat) : w.extractLsb' 2 8 = opc := by
  apply BitVec.eq_of_getLsbD_eq
  intro k hk
  rw [BitVec.getLsbD_extractLsb', jump_bit i opc w hw, if_neg (by omega), if_pos (by omega)]
  simp [hk, show 2 + k - 2 = k by omega]

theorem jump_len (i : BitVec 22) (opc : BitVec 8) (w : Word) (hw : w.toNat = (i ++ opc ++ (0 : BitVec 2)).toNat) : w.extractLsb' 0 2 = 0 := by
  apply BitVec.eq_of_getLsbD_eq
  intro k hk
  rw [BitVec.getLsbD_extractLsb', jump_bit i opc w hw, if_pos (by omega)]
  simp [hk]

theorem jump_field (i : BitVec 22) (opc : BitVec 8) (w : Word) (hw : w.toNat = (i ++ opc ++ (0 : BitVec 2)).toNat) : w.extractLsb' 10 22 = i := by
  apply BitVec.eq_of_getLsbD_eq
  intro k hk
  rw [BitVec.getLsbD_extractLsb', jump_bit i opc w hw, if_neg (by omega), if_neg (by omega)]
  simp [hk, show 10 + k - 2 - 8 = k by omega]

theorem decode_jump (i : BitVec 22) (opc : BitVec 8) (w : Word) (hw : w.toNat = (i ++ opc ++ (0 : BitVec 2)).toNat)
    (ha : assigned opc.toNat = true) : decode [w] = decodeShort opc.toNat w := by
  unfold decode
  dsimp only
  simp only [jump_opc i opc w hw, jump_len i opc w hw, ha]
  rfl

theorem baseWord_low (f6 : BitVec 6) (sa dst opc : BitVec 8) (len : BitVec 2) : (baseWord f6 sa dst opc len).extractLsb' 26 2 = f6.extractLsb' 0 2 := by
  apply BitVec.eq_of_getLsbD_eq
  intro i hi
  rw [BitVec.getLsbD_extractLsb', BitVec.getLsbD_extractLsb', baseWord_bit, if_neg (by omega), if_neg (by omega), if_neg (by omega), if_neg (by omega),
    show 26 + i - 2 - 8 - 8 - 8 = 0 + i by omega]

theorem baseWord_high (f6 : BitVec 6) (sa dst opc : BitVec 8) (len : BitVec 2) : (baseWord f6 sa dst opc len).extractLsb' 28 4 = f6.extractLsb' 2 4 := by
  apply BitVec.eq_of_getLsbD_eq
  intro i hi
  rw [BitVec.getLsbD_extractLsb', BitVec.getLsbD_extractLsb', baseWord_bit, if_neg (by omega), if_neg (by omega), if_neg (by omega), if_neg (by omega),
    show 28 + i - 2 - 8 - 8 - 8 = 2 + i by omega]

theorem lvl_cases (l : Lvl) : l = 0 ∨ l = 1 ∨ l = 2 ∨ l = 3 := by
  revert l; decide

/-- `addVarOfCode` reads back what `addVarCode` gives. -/
theorem addVarOfCode_addVarCode (t : AddVar) : addVarOfCode (addVarCode t) = some t := by cases t <;> rfl
theorem addVarCode_lt (t : AddVar) : addVarCode t < 8 := by cases t <;> decide
/-- `intTyOfCode` reads back what `tyCode` gives. -/
theorem intTyOfCode_tyCode (t : IntTy) : intTyOfCode (tyCode t) = some t := by cases t <;> rfl
theorem tyCode_lt (t : IntTy) : tyCode t < 8 := by cases t <;> decide
/-- `mulVarOfCode` reads back what `mulVarCode` gives. -/
theorem mulVarOfCode_mulVarCode (t : MulVar) : mulVarOfCode (mulVarCode t) = some t := by cases t <;> rfl
theorem mulVarCode_lt (t : MulVar) : mulVarCode t < 8 := by cases t <;> decide
/-- `wdOfCode` reads back what `wdCode` gives. -/
theorem wdOfCode_wdCode (t : Wd) : wdOfCode (wdCode t) = some t := by cases t <;> rfl
theorem wdCode_lt (t : Wd) : wdCode t < 8 := by cases t <;> decide
/-- `relOfCode` reads back what `relCode` gives. -/
theorem relOfCode_relCode (t : Rel) : relOfCode (relCode t) = some t := by cases t <;> rfl
theorem relCode_lt (t : Rel) : relCode t < 8 := by cases t <;> decide
/-- `leaScaleOfCode` reads back what `leaCode` gives. -/
theorem leaScaleOfCode_leaCode (t : LeaScale) : leaScaleOfCode (leaCode t) = some t := by cases t <;> rfl
theorem leaCode_lt (t : LeaScale) : leaCode t < 8 := by cases t <;> decide
/-- `fTOfCode` reads back what `ftCode` gives. -/
theorem fTOfCode_ftCode (t : FT) : fTOfCode (ftCode t) = some t := by cases t <;> rfl
theorem ftCode_lt (t : FT) : ftCode t < 8 := by cases t <;> decide
/-- `cFOfCode` reads back what `cfCode` gives. -/
theorem cFOfCode_cfCode (t : CF) : cFOfCode (cfCode t) = some t := by cases t <;> rfl
theorem cfCode_lt (t : CF) : cfCode t < 8 := by cases t <;> decide
/-- `mSOfCode` reads back what `msCode` gives. -/
theorem mSOfCode_msCode (t : MS) : mSOfCode (msCode t) = some t := by cases t <;> rfl
theorem msCode_lt (t : MS) : msCode t < 8 := by cases t <;> decide
/-- `mFOfCode` reads back what `mfCode` gives. -/
theorem mFOfCode_mfCode (t : MF) : mFOfCode (mfCode t) = some t := by cases t <;> rfl
theorem mfCode_lt (t : MF) : mfCode t < 9 := by cases t <;> decide
/-- `voteOpOfCode` reads back what `voteCode` gives. -/
theorem voteOpOfCode_voteCode (t : VoteOp) : voteOpOfCode (voteCode t) = some t := by cases t <;> rfl
theorem voteCode_lt (t : VoteOp) : voteCode t < 8 := by cases t <;> decide
/-- `kopOpOfCode` reads back what `kopCode` gives. -/
theorem kopOpOfCode_kopCode (t : KopOp) : kopOpOfCode (kopCode t) = some t := by cases t <;> rfl
theorem kopCode_lt (t : KopOp) : kopCode t < 8 := by cases t <;> decide
/-- `redOpOfCode` reads back what `redCode` gives. -/
theorem redOpOfCode_redCode (t : RedOp) : redOpOfCode (redCode t) = some t := by cases t <;> rfl
theorem redCode_lt (t : RedOp) : redCode t < 8 := by cases t <;> decide
/-- `scanOpOfCode` reads back what `scanCode` gives. -/
theorem scanOpOfCode_scanCode (t : ScanOp) : scanOpOfCode (scanCode t) = some t := by cases t <;> rfl
theorem scanCode_lt (t : ScanOp) : scanCode t < 8 := by cases t <;> decide
/-- `atomOpOfCode` reads back what `atomCode` gives. -/
theorem atomOpOfCode_atomCode (t : AtomOp) : atomOpOfCode (atomCode t) = some t := by cases t <;> rfl
theorem atomCode_lt (t : AtomOp) : atomCode t < 8 := by cases t <;> decide
/-- `fAtomOpOfCode` reads back what `fatomCode` gives. -/
theorem fAtomOpOfCode_fatomCode (t : FAtomOp) : fAtomOpOfCode (fatomCode t) = some t := by cases t <;> rfl
theorem fatomCode_lt (t : FAtomOp) : fatomCode t < 8 := by cases t <;> decide
/-- `fenceKindOfCode` reads back what `fenceCode` gives. -/
theorem fenceKindOfCode_fenceCode (t : FenceKind) : fenceKindOfCode (fenceCode t) = some t := by cases t <;> rfl
theorem fenceCode_lt (t : FenceKind) : fenceCode t < 8 := by cases t <;> decide
/-- `topFmtOfCode` reads back what `topCode` gives. -/
theorem topFmtOfCode_topCode (t : TopFmt) : topFmtOfCode (topCode t) = some t := by cases t <;> rfl
theorem topCode_lt (t : TopFmt) : topCode t < 8 := by cases t <;> decide
/-- `boolOfCode` reads back what `bCode` gives. -/
theorem boolOfCode_bCode (t : Bool) : boolOfCode (bCode t) = some t := by cases t <;> rfl
theorem bCode_lt (t : Bool) : bCode t < 8 := by cases t <;> decide
/-- The bit of word 2 that tells two instructions of one SUB apart (R252, R390). -/
theorem w2_of_legal {i : Instr} (h : WellFormed i = true) : ((fieldsOf i).w2 &&& ~~~(descForm i).w2) = 0 := by
  have h1 : Machine.legal i = true := h
  rw [legal_eq, Bool.and_eq_true, Bool.and_eq_true] at h1
  exact eq_of_beq h1.1.2

theorem extra_of_legal {i : Instr} (h : WellFormed i = true) : extraOk i = true := by
  have h1 : Machine.legal i = true := h
  rw [legal_eq, Bool.and_eq_true] at h1
  exact h1.2

theorem bit_of_mask {x m : Word} {k : Nat} (h : x &&& ~~~m = 0) (hk : m.getLsbD k = false) : x.getLsbD k = false := by
  by_cases hl : k < 32
  · have := congrArg (fun y => y.getLsbD k) h
    simp only [BitVec.getLsbD_and, BitVec.getLsbD_not, hl, hk] at this
    simpa using this
  · exact BitVec.getLsbD_of_ge _ _ (by omega)

theorem sleep_bit {x : Fields} (h : WellFormed (.sleep x) = true) : x.w2.getLsbD 31 = false :=
  bit_of_mask (m := 0x7FFFFFFF) (w2_of_legal h) (by decide)

theorem sleepFor_bit {x : Fields} (h : WellFormed (.sleepFor x) = true) : x.w2.getLsbD 31 = true := extra_of_legal h

theorem sysopXlinv_bit {x : Fields} (h : WellFormed (.sysopXlinv x) = true) : x.w2.getLsbD 0 = false :=
  bit_of_mask (m := 0) (w2_of_legal h) (by decide)

theorem sysopXlinvAll_bit {x : Fields} (h : WellFormed (.sysopXlinvAll x) = true) : x.w2.getLsbD 0 = true := by
  have e : x.w2 = 1 := eq_of_beq (extra_of_legal h)
  rw [e]; rfl


end Sys2Proof
end

