-- ==== Sys2Proof/Laws/PerInstr.lean ====
section
/-!
SUPPORT. The family Decodes: the decoder reads back the words that the encoder writes for an instruction, one lemma for each
constructor of Instr.
-/
namespace Sys2Proof.Laws.Decodes
open Sys2Proof Sys2Proof.Machine

/-- The decoder reads back the words of a well-formed lane instruction. -/
def Statement (i : Instr) : Prop := isLane i = true → WellFormed i = true → decode (encode i) = .ok i

theorem iaddShort (b : BitVec 6) (a : BitVec 8) (d : BitVec 8) : Statement (.iaddShort b a d) := fun _ _ => (decode_len0 _ _ _ _ [] (by decide)).trans (by simp [decodeShort, baseWord_f6, baseWord_sa, baseWord_dst])
theorem iadd (v : AddVar) (ty : IntTy) (x : Fields) : Statement (.iadd v ty x) := fun _ h =>
  (decode_ext (d := descExt (.iadd v ty x)) (x := x) (o := 0x01) (m := 8 * addVarCode v + tyCode ty) rfl (pair_lt (addVarCode_lt v) (tyCode_lt ty)) (by decide) rfl rfl (formOk_of_legal rfl h)).trans (subOrError_some (pair_code (tyCode_lt ty) (addVarOfCode_addVarCode v) (intTyOfCode_tyCode ty) (fun m t => Instr.iadd m t x)))
theorem isubShort (b : BitVec 6) (a : BitVec 8) (d : BitVec 8) : Statement (.isubShort b a d) := fun _ _ => (decode_len0 _ _ _ _ [] (by decide)).trans (by simp [decodeShort, baseWord_f6, baseWord_sa, baseWord_dst])
theorem isub (v : AddVar) (ty : IntTy) (x : Fields) : Statement (.isub v ty x) := fun _ h =>
  (decode_ext (d := descExt (.isub v ty x)) (x := x) (o := 0x02) (m := 8 * addVarCode v + tyCode ty) rfl (pair_lt (addVarCode_lt v) (tyCode_lt ty)) (by decide) rfl rfl (formOk_of_legal rfl h)).trans (subOrError_some (pair_code (tyCode_lt ty) (addVarOfCode_addVarCode v) (intTyOfCode_tyCode ty) (fun m t => Instr.isub m t x)))
theorem imulShort (b : BitVec 6) (a : BitVec 8) (d : BitVec 8) : Statement (.imulShort b a d) := fun _ _ => (decode_len0 _ _ _ _ [] (by decide)).trans (by simp [decodeShort, baseWord_f6, baseWord_sa, baseWord_dst])
theorem imul (v : MulVar) (ty : IntTy) (x : Fields) : Statement (.imul v ty x) := fun _ h =>
  (decode_ext (d := descExt (.imul v ty x)) (x := x) (o := 0x03) (m := 8 * mulVarCode v + tyCode ty) rfl (pair_lt (mulVarCode_lt v) (tyCode_lt ty)) (by decide) rfl rfl (formOk_of_legal rfl h)).trans (subOrError_some (pair_code (tyCode_lt ty) (mulVarOfCode_mulVarCode v) (intTyOfCode_tyCode ty) (fun m t => Instr.imul m t x)))
theorem iaddImmShort (i : BitVec 6) (a : BitVec 8) (d : BitVec 8) : Statement (.iaddImmShort i a d) := fun _ _ => (decode_len0 _ _ _ _ [] (by decide)).trans (by simp [decodeShort, baseWord_f6, baseWord_sa, baseWord_dst])
theorem iaddImm (v : AddVar) (ty : IntTy) (x : Fields) : Statement (.iaddImm v ty x) := fun _ h =>
  (decode_ext (d := descExt (.iaddImm v ty x)) (x := x) (o := 0x04) (m := 8 * addVarCode v + tyCode ty) rfl (pair_lt (addVarCode_lt v) (tyCode_lt ty)) (by decide) rfl rfl (formOk_of_legal rfl h)).trans (subOrError_some (pair_code (tyCode_lt ty) (addVarOfCode_addVarCode v) (intTyOfCode_tyCode ty) (fun m t => Instr.iaddImm m t x)))
theorem imadShort (b : BitVec 6) (a : BitVec 8) (d : BitVec 8) : Statement (.imadShort b a d) := fun _ _ => (decode_len0 _ _ _ _ [] (by decide)).trans (by simp [decodeShort, baseWord_f6, baseWord_sa, baseWord_dst])
theorem imad (v : AddVar) (ty : IntTy) (x : Fields) : Statement (.imad v ty x) := fun _ h =>
  (decode_ext (d := descExt (.imad v ty x)) (x := x) (o := 0x05) (m := 8 * addVarCode v + tyCode ty) rfl (pair_lt (addVarCode_lt v) (tyCode_lt ty)) (by decide) rfl rfl (formOk_of_legal rfl h)).trans (subOrError_some (pair_code (tyCode_lt ty) (addVarOfCode_addVarCode v) (intTyOfCode_tyCode ty) (fun m t => Instr.imad m t x)))
theorem idivShort (b : BitVec 6) (a : BitVec 8) (d : BitVec 8) : Statement (.idivShort b a d) := fun _ _ => (decode_len0 _ _ _ _ [] (by decide)).trans (by simp [decodeShort, baseWord_f6, baseWord_sa, baseWord_dst])
theorem idiv (ty : IntTy) (x : Fields) : Statement (.idiv ty x) := fun _ h =>
  (decode_ext (d := descExt (.idiv ty x)) (x := x) (o := 0x06) (m := tyCode ty) rfl (Nat.lt_trans (tyCode_lt ty) (by decide)) (by decide) rfl rfl (formOk_of_legal rfl h)).trans (subOrError_some (single_code (intTyOfCode_tyCode ty) (fun m => Instr.idiv m x)))
theorem iremShort (b : BitVec 6) (a : BitVec 8) (d : BitVec 8) : Statement (.iremShort b a d) := fun _ _ => (decode_len0 _ _ _ _ [] (by decide)).trans (by simp [decodeShort, baseWord_f6, baseWord_sa, baseWord_dst])
theorem irem (ty : IntTy) (x : Fields) : Statement (.irem ty x) := fun _ h =>
  (decode_ext (d := descExt (.irem ty x)) (x := x) (o := 0x07) (m := tyCode ty) rfl (Nat.lt_trans (tyCode_lt ty) (by decide)) (by decide) rfl rfl (formOk_of_legal rfl h)).trans (subOrError_some (single_code (intTyOfCode_tyCode ty) (fun m => Instr.irem m x)))
theorem iminShort (b : BitVec 6) (a : BitVec 8) (d : BitVec 8) : Statement (.iminShort b a d) := fun _ _ => (decode_len0 _ _ _ _ [] (by decide)).trans (by simp [decodeShort, baseWord_f6, baseWord_sa, baseWord_dst])
theorem imin (ty : IntTy) (x : Fields) : Statement (.imin ty x) := fun _ h =>
  (decode_ext (d := descExt (.imin ty x)) (x := x) (o := 0x08) (m := tyCode ty) rfl (Nat.lt_trans (tyCode_lt ty) (by decide)) (by decide) rfl rfl (formOk_of_legal rfl h)).trans (subOrError_some (single_code (intTyOfCode_tyCode ty) (fun m => Instr.imin m x)))
theorem imaxShort (b : BitVec 6) (a : BitVec 8) (d : BitVec 8) : Statement (.imaxShort b a d) := fun _ _ => (decode_len0 _ _ _ _ [] (by decide)).trans (by simp [decodeShort, baseWord_f6, baseWord_sa, baseWord_dst])
theorem imax (ty : IntTy) (x : Fields) : Statement (.imax ty x) := fun _ h =>
  (decode_ext (d := descExt (.imax ty x)) (x := x) (o := 0x09) (m := tyCode ty) rfl (Nat.lt_trans (tyCode_lt ty) (by decide)) (by decide) rfl rfl (formOk_of_legal rfl h)).trans (subOrError_some (single_code (intTyOfCode_tyCode ty) (fun m => Instr.imax m x)))
theorem iabsShort (a : BitVec 8) (d : BitVec 8) : Statement (.iabsShort a d) := fun _ _ => (decode_len0 _ _ _ _ [] (by decide)).trans (by simp [decodeShort, baseWord_f6, baseWord_sa, baseWord_dst])
theorem iabs (v : AddVar) (ty : IntTy) (x : Fields) : Statement (.iabs v ty x) := fun _ h =>
  (decode_ext (d := descExt (.iabs v ty x)) (x := x) (o := 0x0A) (m := 8 * addVarCode v + tyCode ty) rfl (pair_lt (addVarCode_lt v) (tyCode_lt ty)) (by decide) rfl rfl (formOk_of_legal rfl h)).trans (subOrError_some (pair_code (tyCode_lt ty) (addVarOfCode_addVarCode v) (intTyOfCode_tyCode ty) (fun m t => Instr.iabs m t x)))
theorem inegShort (a : BitVec 8) (d : BitVec 8) : Statement (.inegShort a d) := fun _ _ => (decode_len0 _ _ _ _ [] (by decide)).trans (by simp [decodeShort, baseWord_f6, baseWord_sa, baseWord_dst])
theorem ineg (v : AddVar) (ty : IntTy) (x : Fields) : Statement (.ineg v ty x) := fun _ h =>
  (decode_ext (d := descExt (.ineg v ty x)) (x := x) (o := 0x0B) (m := 8 * addVarCode v + tyCode ty) rfl (pair_lt (addVarCode_lt v) (tyCode_lt ty)) (by decide) rfl rfl (formOk_of_legal rfl h)).trans (subOrError_some (pair_code (tyCode_lt ty) (addVarOfCode_addVarCode v) (intTyOfCode_tyCode ty) (fun m t => Instr.ineg m t x)))
theorem andShort (b : BitVec 6) (a : BitVec 8) (d : BitVec 8) : Statement (.andShort b a d) := fun _ _ => (decode_len0 _ _ _ _ [] (by decide)).trans (by simp [decodeShort, baseWord_f6, baseWord_sa, baseWord_dst])
theorem and (wd : Wd) (x : Fields) : Statement (.and wd x) := fun _ h =>
  (decode_ext (d := descExt (.and wd x)) (x := x) (o := 0x0C) (m := wdCode wd) rfl (Nat.lt_trans (wdCode_lt wd) (by decide)) (by decide) rfl rfl (formOk_of_legal rfl h)).trans (subOrError_some (single_code (wdOfCode_wdCode wd) (fun m => Instr.and m x)))
theorem orShort (b : BitVec 6) (a : BitVec 8) (d : BitVec 8) : Statement (.orShort b a d) := fun _ _ => (decode_len0 _ _ _ _ [] (by decide)).trans (by simp [decodeShort, baseWord_f6, baseWord_sa, baseWord_dst])
theorem or (wd : Wd) (x : Fields) : Statement (.or wd x) := fun _ h =>
  (decode_ext (d := descExt (.or wd x)) (x := x) (o := 0x0D) (m := wdCode wd) rfl (Nat.lt_trans (wdCode_lt wd) (by decide)) (by decide) rfl rfl (formOk_of_legal rfl h)).trans (subOrError_some (single_code (wdOfCode_wdCode wd) (fun m => Instr.or m x)))
theorem xorShort (b : BitVec 6) (a : BitVec 8) (d : BitVec 8) : Statement (.xorShort b a d) := fun _ _ => (decode_len0 _ _ _ _ [] (by decide)).trans (by simp [decodeShort, baseWord_f6, baseWord_sa, baseWord_dst])
theorem xor (wd : Wd) (x : Fields) : Statement (.xor wd x) := fun _ h =>
  (decode_ext (d := descExt (.xor wd x)) (x := x) (o := 0x0E) (m := wdCode wd) rfl (Nat.lt_trans (wdCode_lt wd) (by decide)) (by decide) rfl rfl (formOk_of_legal rfl h)).trans (subOrError_some (single_code (wdOfCode_wdCode wd) (fun m => Instr.xor m x)))
theorem notShort (a : BitVec 8) (d : BitVec 8) : Statement (.notShort a d) := fun _ _ => (decode_len0 _ _ _ _ [] (by decide)).trans (by simp [decodeShort, baseWord_f6, baseWord_sa, baseWord_dst])
theorem not (wd : Wd) (x : Fields) : Statement (.not wd x) := fun _ h =>
  (decode_ext (d := descExt (.not wd x)) (x := x) (o := 0x0F) (m := wdCode wd) rfl (Nat.lt_trans (wdCode_lt wd) (by decide)) (by decide) rfl rfl (formOk_of_legal rfl h)).trans (subOrError_some (single_code (wdOfCode_wdCode wd) (fun m => Instr.not m x)))
theorem shlShort (c : BitVec 6) (a : BitVec 8) (d : BitVec 8) : Statement (.shlShort c a d) := fun _ _ => (decode_len0 _ _ _ _ [] (by decide)).trans (by simp [decodeShort, baseWord_f6, baseWord_sa, baseWord_dst])
theorem shl (wd : Wd) (x : Fields) : Statement (.shl wd x) := fun _ h =>
  (decode_ext (d := descExt (.shl wd x)) (x := x) (o := 0x10) (m := wdCode wd) rfl (Nat.lt_trans (wdCode_lt wd) (by decide)) (by decide) rfl rfl (formOk_of_legal rfl h)).trans (subOrError_some (single_code (wdOfCode_wdCode wd) (fun m => Instr.shl m x)))
theorem shrShort (c : BitVec 6) (a : BitVec 8) (d : BitVec 8) : Statement (.shrShort c a d) := fun _ _ => (decode_len0 _ _ _ _ [] (by decide)).trans (by simp [decodeShort, baseWord_f6, baseWord_sa, baseWord_dst])
theorem shr (wd : Wd) (x : Fields) : Statement (.shr wd x) := fun _ h =>
  (decode_ext (d := descExt (.shr wd x)) (x := x) (o := 0x11) (m := wdCode wd) rfl (Nat.lt_trans (wdCode_lt wd) (by decide)) (by decide) rfl rfl (formOk_of_legal rfl h)).trans (subOrError_some (single_code (wdOfCode_wdCode wd) (fun m => Instr.shr m x)))
theorem sarShort (c : BitVec 6) (a : BitVec 8) (d : BitVec 8) : Statement (.sarShort c a d) := fun _ _ => (decode_len0 _ _ _ _ [] (by decide)).trans (by simp [decodeShort, baseWord_f6, baseWord_sa, baseWord_dst])
theorem sar (wd : Wd) (x : Fields) : Statement (.sar wd x) := fun _ h =>
  (decode_ext (d := descExt (.sar wd x)) (x := x) (o := 0x12) (m := wdCode wd) rfl (Nat.lt_trans (wdCode_lt wd) (by decide)) (by decide) rfl rfl (formOk_of_legal rfl h)).trans (subOrError_some (single_code (wdOfCode_wdCode wd) (fun m => Instr.sar m x)))
theorem rotShort (c : BitVec 6) (a : BitVec 8) (d : BitVec 8) : Statement (.rotShort c a d) := fun _ _ => (decode_len0 _ _ _ _ [] (by decide)).trans (by simp [decodeShort, baseWord_f6, baseWord_sa, baseWord_dst])
theorem rot (wd : Wd) (x : Fields) : Statement (.rot wd x) := fun _ h =>
  (decode_ext (d := descExt (.rot wd x)) (x := x) (o := 0x13) (m := wdCode wd) rfl (Nat.lt_trans (wdCode_lt wd) (by decide)) (by decide) rfl rfl (formOk_of_legal rfl h)).trans (subOrError_some (single_code (wdOfCode_wdCode wd) (fun m => Instr.rot m x)))
theorem popcShort (a : BitVec 8) (d : BitVec 8) : Statement (.popcShort a d) := fun _ _ => (decode_len0 _ _ _ _ [] (by decide)).trans (by simp [decodeShort, baseWord_f6, baseWord_sa, baseWord_dst])
theorem popc (wd : Wd) (x : Fields) : Statement (.popc wd x) := fun _ h =>
  (decode_ext (d := descExt (.popc wd x)) (x := x) (o := 0x14) (m := wdCode wd) rfl (Nat.lt_trans (wdCode_lt wd) (by decide)) (by decide) rfl rfl (formOk_of_legal rfl h)).trans (subOrError_some (single_code (wdOfCode_wdCode wd) (fun m => Instr.popc m x)))
theorem clzShort (a : BitVec 8) (d : BitVec 8) : Statement (.clzShort a d) := fun _ _ => (decode_len0 _ _ _ _ [] (by decide)).trans (by simp [decodeShort, baseWord_f6, baseWord_sa, baseWord_dst])
theorem clz (wd : Wd) (x : Fields) : Statement (.clz wd x) := fun _ h =>
  (decode_ext (d := descExt (.clz wd x)) (x := x) (o := 0x15) (m := wdCode wd) rfl (Nat.lt_trans (wdCode_lt wd) (by decide)) (by decide) rfl rfl (formOk_of_legal rfl h)).trans (subOrError_some (single_code (wdOfCode_wdCode wd) (fun m => Instr.clz m x)))
theorem brevShort (a : BitVec 8) (d : BitVec 8) : Statement (.brevShort a d) := fun _ _ => (decode_len0 _ _ _ _ [] (by decide)).trans (by simp [decodeShort, baseWord_f6, baseWord_sa, baseWord_dst])
theorem brev (wd : Wd) (x : Fields) : Statement (.brev wd x) := fun _ h =>
  (decode_ext (d := descExt (.brev wd x)) (x := x) (o := 0x16) (m := wdCode wd) rfl (Nat.lt_trans (wdCode_lt wd) (by decide)) (by decide) rfl rfl (formOk_of_legal rfl h)).trans (subOrError_some (single_code (wdOfCode_wdCode wd) (fun m => Instr.brev m x)))
theorem bfx (sx : Bool) (wd : Wd) (x : Fields) : Statement (.bfx sx wd x) := fun _ h =>
  (decode_ext (d := descExt (.bfx sx wd x)) (x := x) (o := 0x17) (m := 8 * bCode sx + wdCode wd) rfl (pair_lt (bCode_lt sx) (wdCode_lt wd)) (by decide) rfl rfl (formOk_of_legal rfl h)).trans (subOrError_some (pair_code (wdCode_lt wd) (boolOfCode_bCode sx) (wdOfCode_wdCode wd) (fun m t => Instr.bfx m t x)))
theorem bfi (wd : Wd) (x : Fields) : Statement (.bfi wd x) := fun _ h =>
  (decode_ext (d := descExt (.bfi wd x)) (x := x) (o := 0x18) (m := wdCode wd) rfl (Nat.lt_trans (wdCode_lt wd) (by decide)) (by decide) rfl rfl (formOk_of_legal rfl h)).trans (subOrError_some (single_code (wdOfCode_wdCode wd) (fun m => Instr.bfi m x)))
theorem icmpShort (b : BitVec 6) (a : BitVec 8) (k : BitVec 8) : Statement (.icmpShort b a k) := fun _ _ => (decode_len0 _ _ _ _ [] (by decide)).trans (by simp [decodeShort, baseWord_f6, baseWord_sa, baseWord_dst])
theorem icmp (r : Rel) (ty : IntTy) (x : Fields) : Statement (.icmp r ty x) := fun _ h =>
  (decode_ext (d := descExt (.icmp r ty x)) (x := x) (o := 0x19) (m := 8 * relCode r + tyCode ty) rfl (pair_lt (relCode_lt r) (tyCode_lt ty)) (by decide) rfl rfl (formOk_of_legal rfl h)).trans (subOrError_some (pair_code (tyCode_lt ty) (relOfCode_relCode r) (intTyOfCode_tyCode ty) (fun m t => Instr.icmp m t x)))
theorem sel (wd : Wd) (x : Fields) : Statement (.sel wd x) := fun _ h =>
  (decode_ext (d := descExt (.sel wd x)) (x := x) (o := 0x1A) (m := wdCode wd) rfl (Nat.lt_trans (wdCode_lt wd) (by decide)) (by decide) rfl rfl (formOk_of_legal rfl h)).trans (subOrError_some (single_code (wdOfCode_wdCode wd) (fun m => Instr.sel m x)))
theorem leaShort (b : BitVec 6) (a : BitVec 8) (d : BitVec 8) : Statement (.leaShort b a d) := fun _ _ => (decode_len0 _ _ _ _ [] (by decide)).trans (by simp [decodeShort, baseWord_f6, baseWord_sa, baseWord_dst])
theorem lea (xs : LeaScale) (x : Fields) : Statement (.lea xs x) := fun _ h =>
  (decode_ext (d := descExt (.lea xs x)) (x := x) (o := 0x1B) (m := leaCode xs) rfl (Nat.lt_trans (leaCode_lt xs) (by decide)) (by decide) rfl rfl (formOk_of_legal rfl h)).trans (subOrError_some (single_code (leaScaleOfCode_leaCode xs) (fun m => Instr.lea m x)))
theorem movShort (b : BitVec 6) (d : BitVec 8) : Statement (.movShort b d) := fun _ _ => (decode_len0 _ _ _ _ [] (by decide)).trans (by simp [decodeShort, baseWord_f6, baseWord_sa, baseWord_dst])
theorem mov (x : Fields) : Statement (.mov x) := fun _ h =>
  (decode_ext (d := descExt (.mov x)) (x := x) (o := 0x1C) (m := 0) rfl ((by decide)) (by decide) rfl rfl (formOk_of_legal rfl h)).trans (subOrError_some (rfl))
theorem movW (x : Fields) : Statement (.movW x) := fun _ h =>
  (decode_ext (d := descExt (.movW x)) (x := x) (o := 0x1C) (m := 1) rfl ((by decide)) (by decide) rfl rfl (formOk_of_legal rfl h)).trans (subOrError_some (rfl))
theorem movLo (x : Fields) : Statement (.movLo x) := fun _ h =>
  (decode_ext (d := descExt (.movLo x)) (x := x) (o := 0x1C) (m := 2) rfl ((by decide)) (by decide) rfl rfl (formOk_of_legal rfl h)).trans (subOrError_some (rfl))
theorem movHi (x : Fields) : Statement (.movHi x) := fun _ h =>
  (decode_ext (d := descExt (.movHi x)) (x := x) (o := 0x1C) (m := 3) rfl ((by decide)) (by decide) rfl rfl (formOk_of_legal rfl h)).trans (subOrError_some (rfl))
theorem movFws (x : Fields) : Statement (.movFws x) := fun _ h =>
  (decode_ext (d := descExt (.movFws x)) (x := x) (o := 0x1C) (m := 4) rfl ((by decide)) (by decide) rfl rfl (formOk_of_legal rfl h)).trans (subOrError_some (rfl))
theorem movTws (x : Fields) : Statement (.movTws x) := fun _ h =>
  (decode_ext (d := descExt (.movTws x)) (x := x) (o := 0x1C) (m := 5) rfl ((by decide)) (by decide) rfl rfl (formOk_of_legal rfl h)).trans (subOrError_some (rfl))
theorem faddShort (b : BitVec 6) (a : BitVec 8) (d : BitVec 8) : Statement (.faddShort b a d) := fun _ _ => (decode_len0 _ _ _ _ [] (by decide)).trans (by simp [decodeShort, baseWord_f6, baseWord_sa, baseWord_dst])
theorem fadd (ft : FT) (x : Fields) : Statement (.fadd ft x) := fun _ h =>
  (decode_ext (d := descExt (.fadd ft x)) (x := x) (o := 0x20) (m := ftCode ft) rfl (Nat.lt_trans (ftCode_lt ft) (by decide)) (by decide) rfl rfl (formOk_of_legal rfl h)).trans (subOrError_some (single_code (fTOfCode_ftCode ft) (fun m => Instr.fadd m x)))
theorem fsubShort (b : BitVec 6) (a : BitVec 8) (d : BitVec 8) : Statement (.fsubShort b a d) := fun _ _ => (decode_len0 _ _ _ _ [] (by decide)).trans (by simp [decodeShort, baseWord_f6, baseWord_sa, baseWord_dst])
theorem fsub (ft : FT) (x : Fields) : Statement (.fsub ft x) := fun _ h =>
  (decode_ext (d := descExt (.fsub ft x)) (x := x) (o := 0x21) (m := ftCode ft) rfl (Nat.lt_trans (ftCode_lt ft) (by decide)) (by decide) rfl rfl (formOk_of_legal rfl h)).trans (subOrError_some (single_code (fTOfCode_ftCode ft) (fun m => Instr.fsub m x)))
theorem fmulShort (b : BitVec 6) (a : BitVec 8) (d : BitVec 8) : Statement (.fmulShort b a d) := fun _ _ => (decode_len0 _ _ _ _ [] (by decide)).trans (by simp [decodeShort, baseWord_f6, baseWord_sa, baseWord_dst])
theorem fmul (ft : FT) (x : Fields) : Statement (.fmul ft x) := fun _ h =>
  (decode_ext (d := descExt (.fmul ft x)) (x := x) (o := 0x22) (m := ftCode ft) rfl (Nat.lt_trans (ftCode_lt ft) (by decide)) (by decide) rfl rfl (formOk_of_legal rfl h)).trans (subOrError_some (single_code (fTOfCode_ftCode ft) (fun m => Instr.fmul m x)))
theorem fmaShort (b : BitVec 6) (a : BitVec 8) (d : BitVec 8) : Statement (.fmaShort b a d) := fun _ _ => (decode_len0 _ _ _ _ [] (by decide)).trans (by simp [decodeShort, baseWord_f6, baseWord_sa, baseWord_dst])
theorem fma (ft : FT) (x : Fields) : Statement (.fma ft x) := fun _ h =>
  (decode_ext (d := descExt (.fma ft x)) (x := x) (o := 0x23) (m := ftCode ft) rfl (Nat.lt_trans (ftCode_lt ft) (by decide)) (by decide) rfl rfl (formOk_of_legal rfl h)).trans (subOrError_some (single_code (fTOfCode_ftCode ft) (fun m => Instr.fma m x)))
theorem fdivShort (b : BitVec 6) (a : BitVec 8) (d : BitVec 8) : Statement (.fdivShort b a d) := fun _ _ => (decode_len0 _ _ _ _ [] (by decide)).trans (by simp [decodeShort, baseWord_f6, baseWord_sa, baseWord_dst])
theorem fdiv (ft : FT) (x : Fields) : Statement (.fdiv ft x) := fun _ h =>
  (decode_ext (d := descExt (.fdiv ft x)) (x := x) (o := 0x24) (m := ftCode ft) rfl (Nat.lt_trans (ftCode_lt ft) (by decide)) (by decide) rfl rfl (formOk_of_legal rfl h)).trans (subOrError_some (single_code (fTOfCode_ftCode ft) (fun m => Instr.fdiv m x)))
theorem fsqrtShort (a : BitVec 8) (d : BitVec 8) : Statement (.fsqrtShort a d) := fun _ _ => (decode_len0 _ _ _ _ [] (by decide)).trans (by simp [decodeShort, baseWord_f6, baseWord_sa, baseWord_dst])
theorem fsqrt (ft : FT) (x : Fields) : Statement (.fsqrt ft x) := fun _ h =>
  (decode_ext (d := descExt (.fsqrt ft x)) (x := x) (o := 0x25) (m := ftCode ft) rfl (Nat.lt_trans (ftCode_lt ft) (by decide)) (by decide) rfl rfl (formOk_of_legal rfl h)).trans (subOrError_some (single_code (fTOfCode_ftCode ft) (fun m => Instr.fsqrt m x)))
theorem frcpShort (a : BitVec 8) (d : BitVec 8) : Statement (.frcpShort a d) := fun _ _ => (decode_len0 _ _ _ _ [] (by decide)).trans (by simp [decodeShort, baseWord_f6, baseWord_sa, baseWord_dst])
theorem frcp (ft : FT) (x : Fields) : Statement (.frcp ft x) := fun _ h =>
  (decode_ext (d := descExt (.frcp ft x)) (x := x) (o := 0x26) (m := ftCode ft) rfl (Nat.lt_trans (ftCode_lt ft) (by decide)) (by decide) rfl rfl (formOk_of_legal rfl h)).trans (subOrError_some (single_code (fTOfCode_ftCode ft) (fun m => Instr.frcp m x)))
theorem frsqShort (a : BitVec 8) (d : BitVec 8) : Statement (.frsqShort a d) := fun _ _ => (decode_len0 _ _ _ _ [] (by decide)).trans (by simp [decodeShort, baseWord_f6, baseWord_sa, baseWord_dst])
theorem frsq (ft : FT) (x : Fields) : Statement (.frsq ft x) := fun _ h =>
  (decode_ext (d := descExt (.frsq ft x)) (x := x) (o := 0x27) (m := ftCode ft) rfl (Nat.lt_trans (ftCode_lt ft) (by decide)) (by decide) rfl rfl (formOk_of_legal rfl h)).trans (subOrError_some (single_code (fTOfCode_ftCode ft) (fun m => Instr.frsq m x)))
theorem fminShort (b : BitVec 6) (a : BitVec 8) (d : BitVec 8) : Statement (.fminShort b a d) := fun _ _ => (decode_len0 _ _ _ _ [] (by decide)).trans (by simp [decodeShort, baseWord_f6, baseWord_sa, baseWord_dst])
theorem fmin (ft : FT) (x : Fields) : Statement (.fmin ft x) := fun _ h =>
  (decode_ext (d := descExt (.fmin ft x)) (x := x) (o := 0x28) (m := ftCode ft) rfl (Nat.lt_trans (ftCode_lt ft) (by decide)) (by decide) rfl rfl (formOk_of_legal rfl h)).trans (subOrError_some (single_code (fTOfCode_ftCode ft) (fun m => Instr.fmin m x)))
theorem fmaxShort (b : BitVec 6) (a : BitVec 8) (d : BitVec 8) : Statement (.fmaxShort b a d) := fun _ _ => (decode_len0 _ _ _ _ [] (by decide)).trans (by simp [decodeShort, baseWord_f6, baseWord_sa, baseWord_dst])
theorem fmax (ft : FT) (x : Fields) : Statement (.fmax ft x) := fun _ h =>
  (decode_ext (d := descExt (.fmax ft x)) (x := x) (o := 0x29) (m := ftCode ft) rfl (Nat.lt_trans (ftCode_lt ft) (by decide)) (by decide) rfl rfl (formOk_of_legal rfl h)).trans (subOrError_some (single_code (fTOfCode_ftCode ft) (fun m => Instr.fmax m x)))
theorem fabsShort (a : BitVec 8) (d : BitVec 8) : Statement (.fabsShort a d) := fun _ _ => (decode_len0 _ _ _ _ [] (by decide)).trans (by simp [decodeShort, baseWord_f6, baseWord_sa, baseWord_dst])
theorem fabs (ft : FT) (x : Fields) : Statement (.fabs ft x) := fun _ h =>
  (decode_ext (d := descExt (.fabs ft x)) (x := x) (o := 0x2A) (m := ftCode ft) rfl (Nat.lt_trans (ftCode_lt ft) (by decide)) (by decide) rfl rfl (formOk_of_legal rfl h)).trans (subOrError_some (single_code (fTOfCode_ftCode ft) (fun m => Instr.fabs m x)))
theorem fnegShort (a : BitVec 8) (d : BitVec 8) : Statement (.fnegShort a d) := fun _ _ => (decode_len0 _ _ _ _ [] (by decide)).trans (by simp [decodeShort, baseWord_f6, baseWord_sa, baseWord_dst])
theorem fneg (ft : FT) (x : Fields) : Statement (.fneg ft x) := fun _ h =>
  (decode_ext (d := descExt (.fneg ft x)) (x := x) (o := 0x2B) (m := ftCode ft) rfl (Nat.lt_trans (ftCode_lt ft) (by decide)) (by decide) rfl rfl (formOk_of_legal rfl h)).trans (subOrError_some (single_code (fTOfCode_ftCode ft) (fun m => Instr.fneg m x)))
theorem fcpsShort (b : BitVec 6) (a : BitVec 8) (d : BitVec 8) : Statement (.fcpsShort b a d) := fun _ _ => (decode_len0 _ _ _ _ [] (by decide)).trans (by simp [decodeShort, baseWord_f6, baseWord_sa, baseWord_dst])
theorem fcps (ft : FT) (x : Fields) : Statement (.fcps ft x) := fun _ h =>
  (decode_ext (d := descExt (.fcps ft x)) (x := x) (o := 0x2C) (m := ftCode ft) rfl (Nat.lt_trans (ftCode_lt ft) (by decide)) (by decide) rfl rfl (formOk_of_legal rfl h)).trans (subOrError_some (single_code (fTOfCode_ftCode ft) (fun m => Instr.fcps m x)))
theorem fcmpShort (b : BitVec 6) (a : BitVec 8) (k : BitVec 8) : Statement (.fcmpShort b a k) := fun _ _ => (decode_len0 _ _ _ _ [] (by decide)).trans (by simp [decodeShort, baseWord_f6, baseWord_sa, baseWord_dst])
theorem fcmp (r : Rel) (ft : FT) (x : Fields) : Statement (.fcmp r ft x) := fun _ h =>
  (decode_ext (d := descExt (.fcmp r ft x)) (x := x) (o := 0x2D) (m := 8 * relCode r + ftCode ft) rfl (pair_lt (relCode_lt r) (ftCode_lt ft)) (by decide) rfl rfl (formOk_of_legal rfl h)).trans (subOrError_some (pair_code (ftCode_lt ft) (relOfCode_relCode r) (fTOfCode_ftCode ft) (fun m t => Instr.fcmp m t x)))
theorem fclsShort (a : BitVec 8) (d : BitVec 8) : Statement (.fclsShort a d) := fun _ _ => (decode_len0 _ _ _ _ [] (by decide)).trans (by simp [decodeShort, baseWord_f6, baseWord_sa, baseWord_dst])
theorem fcls (ft : FT) (x : Fields) : Statement (.fcls ft x) := fun _ h =>
  (decode_ext (d := descExt (.fcls ft x)) (x := x) (o := 0x2E) (m := ftCode ft) rfl (Nat.lt_trans (ftCode_lt ft) (by decide)) (by decide) rfl rfl (formOk_of_legal rfl h)).trans (subOrError_some (single_code (fTOfCode_ftCode ft) (fun m => Instr.fcls m x)))
theorem frndShort (a : BitVec 8) (d : BitVec 8) : Statement (.frndShort a d) := fun _ _ => (decode_len0 _ _ _ _ [] (by decide)).trans (by simp [decodeShort, baseWord_f6, baseWord_sa, baseWord_dst])
theorem frnd (ft : FT) (x : Fields) : Statement (.frnd ft x) := fun _ h =>
  (decode_ext (d := descExt (.frnd ft x)) (x := x) (o := 0x2F) (m := ftCode ft) rfl (Nat.lt_trans (ftCode_lt ft) (by decide)) (by decide) rfl rfl (formOk_of_legal rfl h)).trans (subOrError_some (single_code (fTOfCode_ftCode ft) (fun m => Instr.frnd m x)))
theorem cvtf (cd : CF) (cs : CF) (x : Fields) : Statement (.cvtf cd cs x) := fun _ h =>
  (decode_ext (d := descExt (.cvtf cd cs x)) (x := x) (o := 0x30) (m := 8 * cfCode cd + cfCode cs) rfl (pair_lt (cfCode_lt cd) (cfCode_lt cs)) (by decide) rfl rfl (formOk_of_legal rfl h)).trans (subOrError_some (pair_code (cfCode_lt cs) (cFOfCode_cfCode cd) (cFOfCode_cfCode cs) (fun m t => Instr.cvtf m t x)))
theorem cvtfi (cs : CF) (ty : IntTy) (x : Fields) : Statement (.cvtfi cs ty x) := fun _ h =>
  (decode_ext (d := descExt (.cvtfi cs ty x)) (x := x) (o := 0x31) (m := 8 * cfCode cs + tyCode ty) rfl (pair_lt (cfCode_lt cs) (tyCode_lt ty)) (by decide) rfl rfl (formOk_of_legal rfl h)).trans (subOrError_some (pair_code (tyCode_lt ty) (cFOfCode_cfCode cs) (intTyOfCode_tyCode ty) (fun m t => Instr.cvtfi m t x)))
theorem cvtif (cd : CF) (ty : IntTy) (x : Fields) : Statement (.cvtif cd ty x) := fun _ h =>
  (decode_ext (d := descExt (.cvtif cd ty x)) (x := x) (o := 0x32) (m := 8 * cfCode cd + tyCode ty) rfl (pair_lt (cfCode_lt cd) (tyCode_lt ty)) (by decide) rfl rfl (formOk_of_legal rfl h)).trans (subOrError_some (pair_code (tyCode_lt ty) (cFOfCode_cfCode cd) (intTyOfCode_tyCode ty) (fun m t => Instr.cvtif m t x)))
theorem cvtsc (toSc : Bool) (x : Fields) : Statement (.cvtsc toSc x) := fun _ h =>
  (decode_ext (d := descExt (.cvtsc toSc x)) (x := x) (o := 0x33) (m := bCode toSc) rfl (Nat.lt_trans (bCode_lt toSc) (by decide)) (by decide) rfl rfl (formOk_of_legal rfl h)).trans (subOrError_some (single_code (boolOfCode_bCode toSc) (fun m => Instr.cvtsc m x)))
theorem fexpShort (a : BitVec 8) (d : BitVec 8) : Statement (.fexpShort a d) := fun _ _ => (decode_len0 _ _ _ _ [] (by decide)).trans (by simp [decodeShort, baseWord_f6, baseWord_sa, baseWord_dst])
theorem fexp (b2 : Bool) (x : Fields) : Statement (.fexp b2 x) := fun _ h => by
  cases b2
  · exact (decode_ext (d := descExt (Instr.fexp false x)) (x := x) (o := 0x34) (m := 0) rfl (by decide) (by decide) rfl rfl (formOk_of_legal rfl h)).trans (subOrError_some rfl)
  · exact (decode_ext (d := descExt (Instr.fexp true x)) (x := x) (o := 0x34) (m := 8) rfl (by decide) (by decide) rfl rfl (formOk_of_legal rfl h)).trans (subOrError_some rfl)
theorem flogShort (a : BitVec 8) (d : BitVec 8) : Statement (.flogShort a d) := fun _ _ => (decode_len0 _ _ _ _ [] (by decide)).trans (by simp [decodeShort, baseWord_f6, baseWord_sa, baseWord_dst])
theorem flog (b2 : Bool) (x : Fields) : Statement (.flog b2 x) := fun _ h => by
  cases b2
  · exact (decode_ext (d := descExt (Instr.flog false x)) (x := x) (o := 0x35) (m := 0) rfl (by decide) (by decide) rfl rfl (formOk_of_legal rfl h)).trans (subOrError_some rfl)
  · exact (decode_ext (d := descExt (Instr.flog true x)) (x := x) (o := 0x35) (m := 8) rfl (by decide) (by decide) rfl rfl (formOk_of_legal rfl h)).trans (subOrError_some rfl)
theorem fsinShort (a : BitVec 8) (d : BitVec 8) : Statement (.fsinShort a d) := fun _ _ => (decode_len0 _ _ _ _ [] (by decide)).trans (by simp [decodeShort, baseWord_f6, baseWord_sa, baseWord_dst])
theorem fsin (pi : Bool) (x : Fields) : Statement (.fsin pi x) := fun _ h => by
  cases pi
  · exact (decode_ext (d := descExt (Instr.fsin false x)) (x := x) (o := 0x36) (m := 0) rfl (by decide) (by decide) rfl rfl (formOk_of_legal rfl h)).trans (subOrError_some rfl)
  · exact (decode_ext (d := descExt (Instr.fsin true x)) (x := x) (o := 0x36) (m := 8) rfl (by decide) (by decide) rfl rfl (formOk_of_legal rfl h)).trans (subOrError_some rfl)
theorem fcosShort (a : BitVec 8) (d : BitVec 8) : Statement (.fcosShort a d) := fun _ _ => (decode_len0 _ _ _ _ [] (by decide)).trans (by simp [decodeShort, baseWord_f6, baseWord_sa, baseWord_dst])
theorem fcos (pi : Bool) (x : Fields) : Statement (.fcos pi x) := fun _ h => by
  cases pi
  · exact (decode_ext (d := descExt (Instr.fcos false x)) (x := x) (o := 0x37) (m := 0) rfl (by decide) (by decide) rfl rfl (formOk_of_legal rfl h)).trans (subOrError_some rfl)
  · exact (decode_ext (d := descExt (Instr.fcos true x)) (x := x) (o := 0x37) (m := 8) rfl (by decide) (by decide) rfl rfl (formOk_of_legal rfl h)).trans (subOrError_some rfl)
theorem ftanShort (a : BitVec 8) (d : BitVec 8) : Statement (.ftanShort a d) := fun _ _ => (decode_len0 _ _ _ _ [] (by decide)).trans (by simp [decodeShort, baseWord_f6, baseWord_sa, baseWord_dst])
theorem ftan (x : Fields) : Statement (.ftan x) := fun _ h =>
  (decode_ext (d := descExt (.ftan x)) (x := x) (o := 0x38) (m := 0) rfl ((by decide)) (by decide) rfl rfl (formOk_of_legal rfl h)).trans (subOrError_some (rfl))
theorem ftanhShort (a : BitVec 8) (d : BitVec 8) : Statement (.ftanhShort a d) := fun _ _ => (decode_len0 _ _ _ _ [] (by decide)).trans (by simp [decodeShort, baseWord_f6, baseWord_sa, baseWord_dst])
theorem ftanh (x : Fields) : Statement (.ftanh x) := fun _ h =>
  (decode_ext (d := descExt (.ftanh x)) (x := x) (o := 0x39) (m := 0) rfl ((by decide)) (by decide) rfl rfl (formOk_of_legal rfl h)).trans (subOrError_some (rfl))
theorem fatanShort (a : BitVec 8) (d : BitVec 8) : Statement (.fatanShort a d) := fun _ _ => (decode_len0 _ _ _ _ [] (by decide)).trans (by simp [decodeShort, baseWord_f6, baseWord_sa, baseWord_dst])
theorem fatan (x : Fields) : Statement (.fatan x) := fun _ h =>
  (decode_ext (d := descExt (.fatan x)) (x := x) (o := 0x3A) (m := 0) rfl ((by decide)) (by decide) rfl rfl (formOk_of_legal rfl h)).trans (subOrError_some (rfl))
theorem fpack (cf : CF) (x : Fields) : Statement (.fpack cf x) := fun _ h =>
  (decode_ext (d := descExt (.fpack cf x)) (x := x) (o := 0x3B) (m := cfCode cf) rfl (Nat.lt_trans (cfCode_lt cf) (by decide)) (by decide) rfl rfl (formOk_of_legal rfl h)).trans (subOrError_some (single_code (cFOfCode_cfCode cf) (fun m => Instr.fpack m x)))
theorem shflShort (b : BitVec 6) (a : BitVec 8) (d : BitVec 8) : Statement (.shflShort b a d) := fun _ _ => (decode_len0 _ _ _ _ [] (by decide)).trans (by simp [decodeShort, baseWord_f6, baseWord_sa, baseWord_dst])
theorem shfl (wd : Wd) (x : Fields) : Statement (.shfl wd x) := fun _ h =>
  (decode_ext (d := descExt (.shfl wd x)) (x := x) (o := 0x40) (m := wdCode wd) rfl (Nat.lt_trans (wdCode_lt wd) (by decide)) (by decide) rfl rfl (formOk_of_legal rfl h)).trans (subOrError_some (single_code (wdOfCode_wdCode wd) (fun m => Instr.shfl m x)))
theorem shflupShort (i : BitVec 6) (a : BitVec 8) (d : BitVec 8) : Statement (.shflupShort i a d) := fun _ _ => (decode_len0 _ _ _ _ [] (by decide)).trans (by simp [decodeShort, baseWord_f6, baseWord_sa, baseWord_dst])
theorem shflup (wd : Wd) (x : Fields) : Statement (.shflup wd x) := fun _ h =>
  (decode_ext (d := descExt (.shflup wd x)) (x := x) (o := 0x41) (m := wdCode wd) rfl (Nat.lt_trans (wdCode_lt wd) (by decide)) (by decide) rfl rfl (formOk_of_legal rfl h)).trans (subOrError_some (single_code (wdOfCode_wdCode wd) (fun m => Instr.shflup m x)))
theorem shfldnShort (i : BitVec 6) (a : BitVec 8) (d : BitVec 8) : Statement (.shfldnShort i a d) := fun _ _ => (decode_len0 _ _ _ _ [] (by decide)).trans (by simp [decodeShort, baseWord_f6, baseWord_sa, baseWord_dst])
theorem shfldn (wd : Wd) (x : Fields) : Statement (.shfldn wd x) := fun _ h =>
  (decode_ext (d := descExt (.shfldn wd x)) (x := x) (o := 0x42) (m := wdCode wd) rfl (Nat.lt_trans (wdCode_lt wd) (by decide)) (by decide) rfl rfl (formOk_of_legal rfl h)).trans (subOrError_some (single_code (wdOfCode_wdCode wd) (fun m => Instr.shfldn m x)))
theorem shflxShort (i : BitVec 6) (a : BitVec 8) (d : BitVec 8) : Statement (.shflxShort i a d) := fun _ _ => (decode_len0 _ _ _ _ [] (by decide)).trans (by simp [decodeShort, baseWord_f6, baseWord_sa, baseWord_dst])
theorem shflx (wd : Wd) (x : Fields) : Statement (.shflx wd x) := fun _ h =>
  (decode_ext (d := descExt (.shflx wd x)) (x := x) (o := 0x43) (m := wdCode wd) rfl (Nat.lt_trans (wdCode_lt wd) (by decide)) (by decide) rfl rfl (formOk_of_legal rfl h)).trans (subOrError_some (single_code (wdOfCode_wdCode wd) (fun m => Instr.shflx m x)))
theorem bcast (wd : Wd) (x : Fields) : Statement (.bcast wd x) := fun _ h =>
  (decode_ext (d := descExt (.bcast wd x)) (x := x) (o := 0x44) (m := wdCode wd) rfl (Nat.lt_trans (wdCode_lt wd) (by decide)) (by decide) rfl rfl (formOk_of_legal rfl h)).trans (subOrError_some (single_code (wdOfCode_wdCode wd) (fun m => Instr.bcast m x)))
theorem vote (op : VoteOp) (x : Fields) : Statement (.vote op x) := fun _ h =>
  (decode_ext (d := descExt (.vote op x)) (x := x) (o := 0x45) (m := voteCode op) rfl (Nat.lt_trans (voteCode_lt op) (by decide)) (by decide) rfl rfl (formOk_of_legal rfl h)).trans (subOrError_some (single_code (voteOpOfCode_voteCode op) (fun m => Instr.vote m x)))
theorem kset (w : Bool) (x : Fields) : Statement (.kset w x) := fun _ h =>
  (decode_ext (d := descExt (.kset w x)) (x := x) (o := 0x46) (m := bCode w) rfl (Nat.lt_trans (bCode_lt w) (by decide)) (by decide) rfl rfl (formOk_of_legal rfl h)).trans (subOrError_some (single_code (boolOfCode_bCode w) (fun m => Instr.kset m x)))
theorem kop (op : KopOp) (x : Fields) : Statement (.kop op x) := fun _ h =>
  (decode_ext (d := descExt (.kop op x)) (x := x) (o := 0x47) (m := kopCode op) rfl (Nat.lt_trans (kopCode_lt op) (by decide)) (by decide) rfl rfl (formOk_of_legal rfl h)).trans (subOrError_some (single_code (kopOpOfCode_kopCode op) (fun m => Instr.kop m x)))
theorem kmov (w : Bool) (x : Fields) : Statement (.kmov w x) := fun _ h =>
  (decode_ext (d := descExt (.kmov w x)) (x := x) (o := 0x48) (m := bCode w) rfl (Nat.lt_trans (bCode_lt w) (by decide)) (by decide) rfl rfl (formOk_of_legal rfl h)).trans (subOrError_some (single_code (boolOfCode_bCode w) (fun m => Instr.kmov m x)))
theorem kpopc (x : Fields) : Statement (.kpopc x) := fun _ h =>
  (decode_ext (d := descExt (.kpopc x)) (x := x) (o := 0x49) (m := 0) rfl ((by decide)) (by decide) rfl rfl (formOk_of_legal rfl h)).trans (subOrError_some (rfl))
theorem reduce (op : RedOp) (ty : IntTy) (x : Fields) : Statement (.reduce op ty x) := fun _ h =>
  (decode_ext (d := descExt (.reduce op ty x)) (x := x) (o := 0x4A) (m := 8 * redCode op + tyCode ty) rfl (pair_lt (redCode_lt op) (tyCode_lt ty)) (by decide) rfl rfl (formOk_of_legal rfl h)).trans (subOrError_some (pair_code (tyCode_lt ty) (redOpOfCode_redCode op) (intTyOfCode_tyCode ty) (fun m t => Instr.reduce m t x)))
theorem scan (op : ScanOp) (ty : IntTy) (x : Fields) : Statement (.scan op ty x) := fun _ h =>
  (decode_ext (d := descExt (.scan op ty x)) (x := x) (o := 0x4B) (m := 8 * scanCode op + tyCode ty) rfl (pair_lt (scanCode_lt op) (tyCode_lt ty)) (by decide) rfl rfl (formOk_of_legal rfl h)).trans (subOrError_some (pair_code (tyCode_lt ty) (scanOpOfCode_scanCode op) (intTyOfCode_tyCode ty) (fun m t => Instr.scan m t x)))
theorem braShort (i : BitVec 22) : Statement (.braShort i) := fun _ _ => by
  refine (decode_jump i 0x50 _ rfl (by decide)).trans ?_
  exact congrArg (fun j => Except.ok (Instr.braShort j)) (jump_field i 0x50 _ rfl)
theorem bra (x : Fields) : Statement (.bra x) := fun _ h =>
  (decode_ext (d := descExt (.bra x)) (x := x) (o := 0x50) (m := 0) rfl ((by decide)) (by decide) rfl rfl (formOk_of_legal rfl h)).trans (subOrError_some (rfl))
theorem brc (r : Rel) (ty : IntTy) (x : Fields) : Statement (.brc r ty x) := fun _ h =>
  (decode_ext (d := descExt (.brc r ty x)) (x := x) (o := 0x51) (m := 8 * relCode r + tyCode ty) rfl (pair_lt (relCode_lt r) (tyCode_lt ty)) (by decide) rfl rfl (formOk_of_legal rfl h)).trans (subOrError_some (pair_code (tyCode_lt ty) (relOfCode_relCode r) (intTyOfCode_tyCode ty) (fun m t => Instr.brc m t x)))
theorem callShort (i : BitVec 22) : Statement (.callShort i) := fun _ _ => by
  refine (decode_jump i 0x52 _ rfl (by decide)).trans ?_
  exact congrArg (fun j => Except.ok (Instr.callShort j)) (jump_field i 0x52 _ rfl)
theorem call (x : Fields) : Statement (.call x) := fun _ h =>
  (decode_ext (d := descExt (.call x)) (x := x) (o := 0x52) (m := 0) rfl ((by decide)) (by decide) rfl rfl (formOk_of_legal rfl h)).trans (subOrError_some (rfl))
theorem callInd (x : Fields) : Statement (.callInd x) := fun _ h =>
  (decode_ext (d := descExt (.callInd x)) (x := x) (o := 0x52) (m := 1) rfl ((by decide)) (by decide) rfl rfl (formOk_of_legal rfl h)).trans (subOrError_some (rfl))
theorem retShort : Statement .retShort := fun _ _ => (decode_len0 _ _ _ _ [] (by decide)).trans (by simp [decodeShort, baseWord_f6, baseWord_sa, baseWord_dst])
theorem ret (x : Fields) : Statement (.ret x) := fun _ h =>
  (decode_ext (d := descExt (.ret x)) (x := x) (o := 0x53) (m := 0) rfl ((by decide)) (by decide) rfl rfl (formOk_of_legal rfl h)).trans (subOrError_some (rfl))
theorem loopShort (l : BitVec 2) (a : BitVec 8) (e : BitVec 8) : Statement (.loopShort l a e) := fun _ _ => (decode_len0 _ _ _ _ [] (by decide)).trans (by
    rcases lvl_cases l with h | h | h | h <;> subst h <;> simp [decodeShort, baseWord_sa, baseWord_dst, baseWord_low, baseWord_high])
theorem loop (l : Lvl) (x : Fields) : Statement (.loop l x) := fun _ h => by
  rcases lvl_cases l with e | e | e | e <;> subst e
  · exact (decode_ext (d := descExt (Instr.loop 0 x)) (x := x) (o := 0x54) (m := 0) rfl (by decide) (by decide) rfl rfl (formOk_of_legal rfl h)).trans (subOrError_some rfl)
  · exact (decode_ext (d := descExt (Instr.loop 1 x)) (x := x) (o := 0x54) (m := 1) rfl (by decide) (by decide) rfl rfl (formOk_of_legal rfl h)).trans (subOrError_some rfl)
  · exact (decode_ext (d := descExt (Instr.loop 2 x)) (x := x) (o := 0x54) (m := 2) rfl (by decide) (by decide) rfl rfl (formOk_of_legal rfl h)).trans (subOrError_some rfl)
  · exact (decode_ext (d := descExt (Instr.loop 3 x)) (x := x) (o := 0x54) (m := 3) rfl (by decide) (by decide) rfl rfl (formOk_of_legal rfl h)).trans (subOrError_some rfl)
theorem loopI (l : Lvl) (x : Fields) : Statement (.loopI l x) := fun _ h => by
  rcases lvl_cases l with e | e | e | e <;> subst e
  · exact (decode_ext (d := descExt (Instr.loopI 0 x)) (x := x) (o := 0x54) (m := 8) rfl (by decide) (by decide) rfl rfl (formOk_of_legal rfl h)).trans (subOrError_some rfl)
  · exact (decode_ext (d := descExt (Instr.loopI 1 x)) (x := x) (o := 0x54) (m := 9) rfl (by decide) (by decide) rfl rfl (formOk_of_legal rfl h)).trans (subOrError_some rfl)
  · exact (decode_ext (d := descExt (Instr.loopI 2 x)) (x := x) (o := 0x54) (m := 10) rfl (by decide) (by decide) rfl rfl (formOk_of_legal rfl h)).trans (subOrError_some rfl)
  · exact (decode_ext (d := descExt (Instr.loopI 3 x)) (x := x) (o := 0x54) (m := 11) rfl (by decide) (by decide) rfl rfl (formOk_of_legal rfl h)).trans (subOrError_some rfl)
theorem barWvShort : Statement .barWvShort := fun _ _ => (decode_len0 _ _ _ _ [] (by decide)).trans (by simp [decodeShort, baseWord_f6, baseWord_sa, baseWord_dst])
theorem barWv (x : Fields) : Statement (.barWv x) := fun _ h =>
  (decode_ext (d := descExt (.barWv x)) (x := x) (o := 0x55) (m := 0) rfl ((by decide)) (by decide) rfl rfl (formOk_of_legal rfl h)).trans (subOrError_some (rfl))
theorem barBlk (x : Fields) : Statement (.barBlk x) := fun _ h =>
  (decode_ext (d := descExt (.barBlk x)) (x := x) (o := 0x55) (m := 1) rfl ((by decide)) (by decide) rfl rfl (formOk_of_legal rfl h)).trans (subOrError_some (rfl))
theorem sleepShort (a : BitVec 8) : Statement (.sleepShort a) := fun _ _ => (decode_len0 _ _ _ _ [] (by decide)).trans (by simp [decodeShort, baseWord_f6, baseWord_sa, baseWord_dst])
theorem sleep (x : Fields) : Statement (.sleep x) := fun _ h =>
  (decode_ext (d := descExt (.sleep x)) (x := x) (o := 0x56) (m := 0) rfl ((by decide)) (by decide) rfl rfl (formOk_of_legal rfl h)).trans (subOrError_some (congrArg (fun b : Bool => (some (if b = true then Instr.sleepFor x else Instr.sleep x) : Option Instr)) (sleep_bit h)))
theorem sleepFor (x : Fields) : Statement (.sleepFor x) := fun _ h =>
  (decode_ext (d := descExt (.sleepFor x)) (x := x) (o := 0x56) (m := 0) rfl ((by decide)) (by decide) rfl rfl (formOk_of_legal rfl h)).trans (subOrError_some (congrArg (fun b : Bool => (some (if b = true then Instr.sleepFor x else Instr.sleep x) : Option Instr)) (sleepFor_bit h)))
theorem waitFullShort (a : BitVec 8) : Statement (.waitFullShort a) := fun _ _ => (decode_len0 _ _ _ _ [] (by decide)).trans (by simp [decodeShort, baseWord_f6, baseWord_sa, baseWord_dst])
theorem waitFull (x : Fields) : Statement (.waitFull x) := fun _ h =>
  (decode_ext (d := descExt (.waitFull x)) (x := x) (o := 0x57) (m := 0) rfl ((by decide)) (by decide) rfl rfl (formOk_of_legal rfl h)).trans (subOrError_some (rfl))
theorem waitEmpty (x : Fields) : Statement (.waitEmpty x) := fun _ h =>
  (decode_ext (d := descExt (.waitEmpty x)) (x := x) (o := 0x57) (m := 1) rfl ((by decide)) (by decide) rfl rfl (formOk_of_legal rfl h)).trans (subOrError_some (rfl))
theorem trapShort (c : BitVec 6) : Statement (.trapShort c) := fun _ _ => (decode_len0 _ _ _ _ [] (by decide)).trans (by simp [decodeShort, baseWord_f6, baseWord_sa, baseWord_dst])
theorem trap (x : Fields) : Statement (.trap x) := fun _ h =>
  (decode_ext (d := descExt (.trap x)) (x := x) (o := 0x58) (m := 0) rfl ((by decide)) (by decide) rfl rfl (formOk_of_legal rfl h)).trans (subOrError_some (rfl))
theorem endShort : Statement .endShort := fun _ _ => (decode_len0 _ _ _ _ [] (by decide)).trans (by simp [decodeShort, baseWord_f6, baseWord_sa, baseWord_dst])
theorem endLane (x : Fields) : Statement (.endLane x) := fun _ h =>
  (decode_ext (d := descExt (.endLane x)) (x := x) (o := 0x59) (m := 0) rfl ((by decide)) (by decide) rfl rfl (formOk_of_legal rfl h)).trans (subOrError_some (rfl))
theorem msignShort (g : BitVec 6) : Statement (.msignShort g) := fun _ _ => (decode_len0 _ _ _ _ [] (by decide)).trans (by simp [decodeShort, baseWord_f6, baseWord_sa, baseWord_dst])
theorem msign (x : Fields) : Statement (.msign x) := fun _ h =>
  (decode_ext (d := descExt (.msign x)) (x := x) (o := 0x5A) (m := 0) rfl ((by decide)) (by decide) rfl rfl (formOk_of_legal rfl h)).trans (subOrError_some (rfl))
theorem spawn (rng : Bool) (x : Fields) : Statement (.spawn rng x) := fun _ h =>
  (decode_ext (d := descExt (.spawn rng x)) (x := x) (o := 0x5B) (m := bCode rng) rfl (Nat.lt_trans (bCode_lt rng) (by decide)) (by decide) rfl rfl (formOk_of_legal rfl h)).trans (subOrError_some (single_code (boolOfCode_bCode rng) (fun m => Instr.spawn m x)))
theorem yieldShort : Statement .yieldShort := fun _ _ => (decode_len0 _ _ _ _ [] (by decide)).trans (by simp [decodeShort, baseWord_f6, baseWord_sa, baseWord_dst])
theorem yieldNow (x : Fields) : Statement (.yieldNow x) := fun _ h =>
  (decode_ext (d := descExt (.yieldNow x)) (x := x) (o := 0x5C) (m := 0) rfl ((by decide)) (by decide) rfl rfl (formOk_of_legal rfl h)).trans (subOrError_some (rfl))
theorem cmtWaitShort : Statement .cmtWaitShort := fun _ _ => (decode_len0 _ _ _ _ [] (by decide)).trans (by simp [decodeShort, baseWord_f6, baseWord_sa, baseWord_dst])
theorem cmtWait (x : Fields) : Statement (.cmtWait x) := fun _ h =>
  (decode_ext (d := descExt (.cmtWait x)) (x := x) (o := 0x5D) (m := 0) rfl ((by decide)) (by decide) rfl rfl (formOk_of_legal rfl h)).trans (subOrError_some (rfl))
theorem cmtPos (x : Fields) : Statement (.cmtPos x) := fun _ h =>
  (decode_ext (d := descExt (.cmtPos x)) (x := x) (o := 0x5D) (m := 1) rfl ((by decide)) (by decide) rfl rfl (formOk_of_legal rfl h)).trans (subOrError_some (rfl))
theorem ldShort (w : BitVec 6) (a : BitVec 8) (d : BitVec 8) : Statement (.ldShort w a d) := fun _ _ => (decode_len0 _ _ _ _ [] (by decide)).trans (by simp [decodeShort, baseWord_f6, baseWord_sa, baseWord_dst])
theorem ld (ms : MS) (x : Fields) : Statement (.ld ms x) := fun _ h =>
  (decode_ext (d := descExt (.ld ms x)) (x := x) (o := 0x60) (m := msCode ms) rfl (Nat.lt_trans (msCode_lt ms) (by decide)) (by decide) rfl rfl (formOk_of_legal rfl h)).trans (subOrError_some (single_code (mSOfCode_msCode ms) (fun m => Instr.ld m x)))
theorem stShort (w : BitVec 6) (a : BitVec 8) (d : BitVec 8) : Statement (.stShort w a d) := fun _ _ => (decode_len0 _ _ _ _ [] (by decide)).trans (by simp [decodeShort, baseWord_f6, baseWord_sa, baseWord_dst])
theorem st (ms : MS) (x : Fields) : Statement (.st ms x) := fun _ h =>
  (decode_ext (d := descExt (.st ms x)) (x := x) (o := 0x61) (m := msCode ms) rfl (Nat.lt_trans (msCode_lt ms) (by decide)) (by decide) rfl rfl (formOk_of_legal rfl h)).trans (subOrError_some (single_code (mSOfCode_msCode ms) (fun m => Instr.st m x)))
theorem ldsShort (a : BitVec 8) (d : BitVec 8) : Statement (.ldsShort a d) := fun _ _ => (decode_len0 _ _ _ _ [] (by decide)).trans (by simp [decodeShort, baseWord_f6, baseWord_sa, baseWord_dst])
theorem lds (ms : MS) (x : Fields) : Statement (.lds ms x) := fun _ h =>
  (decode_ext (d := descExt (.lds ms x)) (x := x) (o := 0x62) (m := msCode ms) rfl (Nat.lt_trans (msCode_lt ms) (by decide)) (by decide) rfl rfl (formOk_of_legal rfl h)).trans (subOrError_some (single_code (mSOfCode_msCode ms) (fun m => Instr.lds m x)))
theorem stsShort (a : BitVec 8) (d : BitVec 8) : Statement (.stsShort a d) := fun _ _ => (decode_len0 _ _ _ _ [] (by decide)).trans (by simp [decodeShort, baseWord_f6, baseWord_sa, baseWord_dst])
theorem sts (ms : MS) (x : Fields) : Statement (.sts ms x) := fun _ h =>
  (decode_ext (d := descExt (.sts ms x)) (x := x) (o := 0x63) (m := msCode ms) rfl (Nat.lt_trans (msCode_lt ms) (by decide)) (by decide) rfl rfl (formOk_of_legal rfl h)).trans (subOrError_some (single_code (mSOfCode_msCode ms) (fun m => Instr.sts m x)))
theorem fillShort (a : BitVec 8) (d : BitVec 8) : Statement (.fillShort a d) := fun _ _ => (decode_len0 _ _ _ _ [] (by decide)).trans (by simp [decodeShort, baseWord_f6, baseWord_sa, baseWord_dst])
theorem fill (ms : MS) (x : Fields) : Statement (.fill ms x) := fun _ h =>
  (decode_ext (d := descExt (.fill ms x)) (x := x) (o := 0x64) (m := msCode ms) rfl (Nat.lt_trans (msCode_lt ms) (by decide)) (by decide) rfl rfl (formOk_of_legal rfl h)).trans (subOrError_some (single_code (mSOfCode_msCode ms) (fun m => Instr.fill m x)))
theorem drainShort (a : BitVec 8) (d : BitVec 8) : Statement (.drainShort a d) := fun _ _ => (decode_len0 _ _ _ _ [] (by decide)).trans (by simp [decodeShort, baseWord_f6, baseWord_sa, baseWord_dst])
theorem drain (ms : MS) (x : Fields) : Statement (.drain ms x) := fun _ h =>
  (decode_ext (d := descExt (.drain ms x)) (x := x) (o := 0x65) (m := msCode ms) rfl (Nat.lt_trans (msCode_lt ms) (by decide)) (by decide) rfl rfl (formOk_of_legal rfl h)).trans (subOrError_some (single_code (mSOfCode_msCode ms) (fun m => Instr.drain m x)))
theorem seteShort (a : BitVec 8) : Statement (.seteShort a) := fun _ _ => (decode_len0 _ _ _ _ [] (by decide)).trans (by simp [decodeShort, baseWord_f6, baseWord_sa, baseWord_dst])
theorem sete (ms : MS) (x : Fields) : Statement (.sete ms x) := fun _ h =>
  (decode_ext (d := descExt (.sete ms x)) (x := x) (o := 0x66) (m := msCode ms) rfl (Nat.lt_trans (msCode_lt ms) (by decide)) (by decide) rfl rfl (formOk_of_legal rfl h)).trans (subOrError_some (single_code (mSOfCode_msCode ms) (fun m => Instr.sete m x)))
theorem pushShort (a : BitVec 8) (d : BitVec 8) : Statement (.pushShort a d) := fun _ _ => (decode_len0 _ _ _ _ [] (by decide)).trans (by simp [decodeShort, baseWord_f6, baseWord_sa, baseWord_dst])
theorem push (x : Fields) : Statement (.push x) := fun _ h =>
  (decode_ext (d := descExt (.push x)) (x := x) (o := 0x67) (m := 0) rfl ((by decide)) (by decide) rfl rfl (formOk_of_legal rfl h)).trans (subOrError_some (rfl))
theorem popShort (a : BitVec 8) (d : BitVec 8) : Statement (.popShort a d) := fun _ _ => (decode_len0 _ _ _ _ [] (by decide)).trans (by simp [decodeShort, baseWord_f6, baseWord_sa, baseWord_dst])
theorem pop (x : Fields) : Statement (.pop x) := fun _ h =>
  (decode_ext (d := descExt (.pop x)) (x := x) (o := 0x68) (m := 0) rfl ((by decide)) (by decide) rfl rfl (formOk_of_legal rfl h)).trans (subOrError_some (rfl))
theorem rbwaitShort (a : BitVec 8) (d : BitVec 8) : Statement (.rbwaitShort a d) := fun _ _ => (decode_len0 _ _ _ _ [] (by decide)).trans (by simp [decodeShort, baseWord_f6, baseWord_sa, baseWord_dst])
theorem rbwait (x : Fields) : Statement (.rbwait x) := fun _ h =>
  (decode_ext (d := descExt (.rbwait x)) (x := x) (o := 0x69) (m := 0) rfl ((by decide)) (by decide) rfl rfl (formOk_of_legal rfl h)).trans (subOrError_some (rfl))
theorem rbrdShort (a : BitVec 8) (d : BitVec 8) : Statement (.rbrdShort a d) := fun _ _ => (decode_len0 _ _ _ _ [] (by decide)).trans (by simp [decodeShort, baseWord_f6, baseWord_sa, baseWord_dst])
theorem rbrd (x : Fields) : Statement (.rbrd x) := fun _ h =>
  (decode_ext (d := descExt (.rbrd x)) (x := x) (o := 0x6A) (m := 0) rfl ((by decide)) (by decide) rfl rfl (formOk_of_legal rfl h)).trans (subOrError_some (rfl))
theorem rbaddShort (a : BitVec 8) (d : BitVec 8) : Statement (.rbaddShort a d) := fun _ _ => (decode_len0 _ _ _ _ [] (by decide)).trans (by simp [decodeShort, baseWord_f6, baseWord_sa, baseWord_dst])
theorem rbadd (x : Fields) : Statement (.rbadd x) := fun _ h =>
  (decode_ext (d := descExt (.rbadd x)) (x := x) (o := 0x7B) (m := 0) rfl ((by decide)) (by decide) rfl rfl (formOk_of_legal rfl h)).trans (subOrError_some (rfl))
theorem atom (op : AtomOp) (ty : IntTy) (x : Fields) : Statement (.atom op ty x) := fun _ h =>
  (decode_ext (d := descExt (.atom op ty x)) (x := x) (o := 0x6B) (m := 8 * atomCode op + tyCode ty) rfl (pair_lt (atomCode_lt op) (tyCode_lt ty)) (by decide) rfl rfl (formOk_of_legal rfl h)).trans (subOrError_some (pair_code (tyCode_lt ty) (atomOpOfCode_atomCode op) (intTyOfCode_tyCode ty) (fun m t => Instr.atom m t x)))
theorem atoms (op : AtomOp) (ty : IntTy) (x : Fields) : Statement (.atoms op ty x) := fun _ h =>
  (decode_ext (d := descExt (.atoms op ty x)) (x := x) (o := 0x6C) (m := 8 * atomCode op + tyCode ty) rfl (pair_lt (atomCode_lt op) (tyCode_lt ty)) (by decide) rfl rfl (formOk_of_legal rfl h)).trans (subOrError_some (pair_code (tyCode_lt ty) (atomOpOfCode_atomCode op) (intTyOfCode_tyCode ty) (fun m t => Instr.atoms m t x)))
theorem cas (ty : IntTy) (x : Fields) : Statement (.cas ty x) := fun _ h =>
  (decode_ext (d := descExt (.cas ty x)) (x := x) (o := 0x6D) (m := tyCode ty) rfl (Nat.lt_trans (tyCode_lt ty) (by decide)) (by decide) rfl rfl (formOk_of_legal rfl h)).trans (subOrError_some (single_code (intTyOfCode_tyCode ty) (fun m => Instr.cas m x)))
theorem cass (ty : IntTy) (x : Fields) : Statement (.cass ty x) := fun _ h =>
  (decode_ext (d := descExt (.cass ty x)) (x := x) (o := 0x6E) (m := tyCode ty) rfl (Nat.lt_trans (tyCode_lt ty) (by decide)) (by decide) rfl rfl (formOk_of_legal rfl h)).trans (subOrError_some (single_code (intTyOfCode_tyCode ty) (fun m => Instr.cass m x)))
theorem fatom (op : FAtomOp) (ft : FT) (x : Fields) : Statement (.fatom op ft x) := fun _ h =>
  (decode_ext (d := descExt (.fatom op ft x)) (x := x) (o := 0x6F) (m := 8 * fatomCode op + ftCode ft) rfl (pair_lt (fatomCode_lt op) (ftCode_lt ft)) (by decide) rfl rfl (formOk_of_legal rfl h)).trans (subOrError_some (pair_code (ftCode_lt ft) (fAtomOpOfCode_fatomCode op) (fTOfCode_ftCode ft) (fun m t => Instr.fatom m t x)))
theorem fatoms (op : FAtomOp) (ft : FT) (x : Fields) : Statement (.fatoms op ft x) := fun _ h =>
  (decode_ext (d := descExt (.fatoms op ft x)) (x := x) (o := 0x70) (m := 8 * fatomCode op + ftCode ft) rfl (pair_lt (fatomCode_lt op) (ftCode_lt ft)) (by decide) rfl rfl (formOk_of_legal rfl h)).trans (subOrError_some (pair_code (ftCode_lt ft) (fAtomOpOfCode_fatomCode op) (fTOfCode_ftCode ft) (fun m t => Instr.fatoms m t x)))
theorem fenceShort : Statement .fenceShort := fun _ _ => (decode_len0 _ _ _ _ [] (by decide)).trans (by simp [decodeShort, baseWord_f6, baseWord_sa, baseWord_dst])
theorem fence (k : FenceKind) (x : Fields) : Statement (.fence k x) := fun _ h =>
  (decode_ext (d := descExt (.fence k x)) (x := x) (o := 0x71) (m := fenceCode k) rfl (Nat.lt_trans (fenceCode_lt k) (by decide)) (by decide) rfl rfl (formOk_of_legal rfl h)).trans (subOrError_some (single_code (fenceKindOfCode_fenceCode k) (fun m => Instr.fence m x)))
theorem take (x : Fields) : Statement (.take x) := fun _ h =>
  (decode_ext (d := descExt (.take x)) (x := x) (o := 0x72) (m := 0) rfl ((by decide)) (by decide) rfl rfl (formOk_of_legal rfl h)).trans (subOrError_some (rfl))
theorem takeTry (x : Fields) : Statement (.takeTry x) := fun _ h =>
  (decode_ext (d := descExt (.takeTry x)) (x := x) (o := 0x72) (m := 1) rfl ((by decide)) (by decide) rfl rfl (formOk_of_legal rfl h)).trans (subOrError_some (rfl))
theorem give (x : Fields) : Statement (.give x) := fun _ h =>
  (decode_ext (d := descExt (.give x)) (x := x) (o := 0x73) (m := 0) rfl ((by decide)) (by decide) rfl rfl (formOk_of_legal rfl h)).trans (subOrError_some (rfl))
theorem acinit (x : Fields) : Statement (.acinit x) := fun _ h =>
  (decode_ext (d := descExt (.acinit x)) (x := x) (o := 0x74) (m := 0) rfl ((by decide)) (by decide) rfl rfl (formOk_of_legal rfl h)).trans (subOrError_some (rfl))
theorem stock (x : Fields) : Statement (.stock x) := fun _ h =>
  (decode_ext (d := descExt (.stock x)) (x := x) (o := 0x75) (m := 0) rfl ((by decide)) (by decide) rfl rfl (formOk_of_legal rfl h)).trans (subOrError_some (rfl))
theorem bankreq (x : Fields) : Statement (.bankreq x) := fun _ h =>
  (decode_ext (d := descExt (.bankreq x)) (x := x) (o := 0x76) (m := 0) rfl ((by decide)) (by decide) rfl rfl (formOk_of_legal rfl h)).trans (subOrError_some (rfl))
theorem prefShort (w : BitVec 6) (a : BitVec 8) : Statement (.prefShort w a) := fun _ _ => (decode_len0 _ _ _ _ [] (by decide)).trans (by simp [decodeShort, baseWord_f6, baseWord_sa, baseWord_dst])
theorem pref (x : Fields) : Statement (.pref x) := fun _ h =>
  (decode_ext (d := descExt (.pref x)) (x := x) (o := 0x77) (m := 0) rfl ((by decide)) (by decide) rfl rfl (formOk_of_legal rfl h)).trans (subOrError_some (rfl))
theorem ldw (ms : MS) (x : Fields) : Statement (.ldw ms x) := fun _ h =>
  (decode_ext (d := descExt (.ldw ms x)) (x := x) (o := 0x78) (m := msCode ms) rfl (Nat.lt_trans (msCode_lt ms) (by decide)) (by decide) rfl rfl (formOk_of_legal rfl h)).trans (subOrError_some (single_code (mSOfCode_msCode ms) (fun m => Instr.ldw m x)))
theorem stw (ms : MS) (x : Fields) : Statement (.stw ms x) := fun _ h =>
  (decode_ext (d := descExt (.stw ms x)) (x := x) (o := 0x79) (m := msCode ms) rfl (Nat.lt_trans (msCode_lt ms) (by decide)) (by decide) rfl rfl (formOk_of_legal rfl h)).trans (subOrError_some (single_code (mSOfCode_msCode ms) (fun m => Instr.stw m x)))
theorem flushShort (w : BitVec 6) (a : BitVec 8) : Statement (.flushShort w a) := fun _ _ => (decode_len0 _ _ _ _ [] (by decide)).trans (by simp [decodeShort, baseWord_f6, baseWord_sa, baseWord_dst])
theorem flush (x : Fields) : Statement (.flush x) := fun _ h =>
  (decode_ext (d := descExt (.flush x)) (x := x) (o := 0x7A) (m := 0) rfl ((by decide)) (by decide) rfl rfl (formOk_of_legal rfl h)).trans (subOrError_some (rfl))
theorem mlatb (mf : MF) (x : Fields) : Statement (.mlatb mf x) := fun _ h =>
  (decode_ext (d := descExt (.mlatb mf x)) (x := x) (o := 0x80) (m := mfCode mf) rfl (Nat.lt_trans (mfCode_lt mf) (by decide)) (by decide) rfl rfl (formOk_of_legal rfl h)).trans (subOrError_some (single_code (mFOfCode_mfCode mf) (fun m => Instr.mlatb m x)))
theorem mma (mf : MF) (x : Fields) : Statement (.mma mf x) := fun _ h =>
  (decode_ext (d := descExt (.mma mf x)) (x := x) (o := 0x81) (m := mfCode mf) rfl (Nat.lt_trans (mfCode_lt mf) (by decide)) (by decide) rfl rfl (formOk_of_legal rfl h)).trans (subOrError_some (single_code (mFOfCode_mfCode mf) (fun m => Instr.mma m x)))
theorem mmas (mf : MF) (x : Fields) : Statement (.mmas mf x) := fun _ h =>
  (decode_ext (d := descExt (.mmas mf x)) (x := x) (o := 0x82) (m := mfCode mf) rfl (Nat.lt_trans (mfCode_lt mf) (by decide)) (by decide) rfl rfl (formOk_of_legal rfl h)).trans (subOrError_some (single_code (mFOfCode_mfCode mf) (fun m => Instr.mmas m x)))
theorem mmai (mf : MF) (x : Fields) : Statement (.mmai mf x) := fun _ h =>
  (decode_ext (d := descExt (.mmai mf x)) (x := x) (o := 0x83) (m := mfCode mf) rfl (Nat.lt_trans (mfCode_lt mf) (by decide)) (by decide) rfl rfl (formOk_of_legal rfl h)).trans (subOrError_some (single_code (mFOfCode_mfCode mf) (fun m => Instr.mmai m x)))
theorem mcbt (x : Fields) : Statement (.mcbt x) := fun _ h =>
  (decode_ext (d := descExt (.mcbt x)) (x := x) (o := 0x84) (m := 0) rfl ((by decide)) (by decide) rfl rfl (formOk_of_legal rfl h)).trans (subOrError_some (rfl))
theorem mzero (x : Fields) : Statement (.mzero x) := fun _ h =>
  (decode_ext (d := descExt (.mzero x)) (x := x) (o := 0x85) (m := 0) rfl ((by decide)) (by decide) rfl rfl (formOk_of_legal rfl h)).trans (subOrError_some (rfl))
theorem mrd (x : Fields) : Statement (.mrd x) := fun _ h =>
  (decode_ext (d := descExt (.mrd x)) (x := x) (o := 0x86) (m := 0) rfl ((by decide)) (by decide) rfl rfl (formOk_of_legal rfl h)).trans (subOrError_some (rfl))
theorem mst (x : Fields) : Statement (.mst x) := fun _ h =>
  (decode_ext (d := descExt (.mst x)) (x := x) (o := 0x87) (m := 0) rfl ((by decide)) (by decide) rfl rfl (formOk_of_legal rfl h)).trans (subOrError_some (rfl))
theorem mmv (x : Fields) : Statement (.mmv x) := fun _ h =>
  (decode_ext (d := descExt (.mmv x)) (x := x) (o := 0x88) (m := 0) rfl ((by decide)) (by decide) rfl rfl (formOk_of_legal rfl h)).trans (subOrError_some (rfl))
theorem mstat (x : Fields) : Statement (.mstat x) := fun _ h =>
  (decode_ext (d := descExt (.mstat x)) (x := x) (o := 0x89) (m := 0) rfl ((by decide)) (by decide) rfl rfl (formOk_of_legal rfl h)).trans (subOrError_some (rfl))
theorem mstatClr (x : Fields) : Statement (.mstatClr x) := fun _ h =>
  (decode_ext (d := descExt (.mstatClr x)) (x := x) (o := 0x89) (m := 1) rfl ((by decide)) (by decide) rfl rfl (formOk_of_legal rfl h)).trans (subOrError_some (rfl))
theorem mwait (x : Fields) : Statement (.mwait x) := fun _ h =>
  (decode_ext (d := descExt (.mwait x)) (x := x) (o := 0x8A) (m := 0) rfl ((by decide)) (by decide) rfl rfl (formOk_of_legal rfl h)).trans (subOrError_some (rfl))
theorem mrel (x : Fields) : Statement (.mrel x) := fun _ h =>
  (decode_ext (d := descExt (.mrel x)) (x := x) (o := 0x8B) (m := 0) rfl ((by decide)) (by decide) rfl rfl (formOk_of_legal rfl h)).trans (subOrError_some (rfl))
theorem band (x : Fields) : Statement (.band x) := fun _ h =>
  (decode_ext (d := descExt (.band x)) (x := x) (o := 0x90) (m := 0) rfl ((by decide)) (by decide) rfl rfl (formOk_of_legal rfl h)).trans (subOrError_some (rfl))
theorem ppopc (x : Fields) : Statement (.ppopc x) := fun _ h =>
  (decode_ext (d := descExt (.ppopc x)) (x := x) (o := 0x91) (m := 0) rfl ((by decide)) (by decide) rfl rfl (formOk_of_legal rfl h)).trans (subOrError_some (rfl))
theorem igath (wd : Wd) (x : Fields) : Statement (.igath wd x) := fun _ h =>
  (decode_ext (d := descExt (.igath wd x)) (x := x) (o := 0x92) (m := wdCode wd) rfl (Nat.lt_trans (wdCode_lt wd) (by decide)) (by decide) rfl rfl (formOk_of_legal rfl h)).trans (subOrError_some (single_code (wdOfCode_wdCode wd) (fun m => Instr.igath m x)))
theorem cmpr (wd : Wd) (x : Fields) : Statement (.cmpr wd x) := fun _ h =>
  (decode_ext (d := descExt (.cmpr wd x)) (x := x) (o := 0x93) (m := wdCode wd) rfl (Nat.lt_trans (wdCode_lt wd) (by decide)) (by decide) rfl rfl (formOk_of_legal rfl h)).trans (subOrError_some (single_code (wdOfCode_wdCode wd) (fun m => Instr.cmpr m x)))
theorem expd (wd : Wd) (x : Fields) : Statement (.expd wd x) := fun _ h =>
  (decode_ext (d := descExt (.expd wd x)) (x := x) (o := 0x94) (m := wdCode wd) rfl (Nat.lt_trans (wdCode_lt wd) (by decide)) (by decide) rfl rfl (formOk_of_legal rfl h)).trans (subOrError_some (single_code (wdOfCode_wdCode wd) (fun m => Instr.expd m x)))
theorem topk (nz : Bool) (f : TopFmt) (x : Fields) : Statement (.topk nz f x) := fun _ h =>
  (decode_ext (d := descExt (.topk nz f x)) (x := x) (o := 0x95) (m := 8 * bCode nz + topCode f) rfl (pair_lt (bCode_lt nz) (topCode_lt f)) (by decide) rfl rfl (formOk_of_legal rfl h)).trans (subOrError_some (pair_code (topCode_lt f) (boolOfCode_bCode nz) (topFmtOfCode_topCode f) (fun m t => Instr.topk m t x)))
theorem tcopy (x : Fields) : Statement (.tcopy x) := fun _ h =>
  (decode_ext (d := descExt (.tcopy x)) (x := x) (o := 0x98) (m := 0) rfl ((by decide)) (by decide) rfl rfl (formOk_of_legal rfl h)).trans (subOrError_some (rfl))
theorem tgath (x : Fields) : Statement (.tgath x) := fun _ h =>
  (decode_ext (d := descExt (.tgath x)) (x := x) (o := 0x99) (m := 0) rfl ((by decide)) (by decide) rfl rfl (formOk_of_legal rfl h)).trans (subOrError_some (rfl))
theorem tscat (x : Fields) : Statement (.tscat x) := fun _ h =>
  (decode_ext (d := descExt (.tscat x)) (x := x) (o := 0x9A) (m := 0) rfl ((by decide)) (by decide) rfl rfl (formOk_of_legal rfl h)).trans (subOrError_some (rfl))
theorem fconv (x : Fields) : Statement (.fconv x) := fun _ h =>
  (decode_ext (d := descExt (.fconv x)) (x := x) (o := 0x9B) (m := 0) rfl ((by decide)) (by decide) rfl rfl (formOk_of_legal rfl h)).trans (subOrError_some (rfl))
theorem sred (x : Fields) : Statement (.sred x) := fun _ h =>
  (decode_ext (d := descExt (.sred x)) (x := x) (o := 0x9C) (m := 0) rfl ((by decide)) (by decide) rfl rfl (formOk_of_legal rfl h)).trans (subOrError_some (rfl))
theorem embag (x : Fields) : Statement (.embag x) := fun _ h =>
  (decode_ext (d := descExt (.embag x)) (x := x) (o := 0x9D) (m := 0) rfl ((by decide)) (by decide) rfl rfl (formOk_of_legal rfl h)).trans (subOrError_some (rfl))
theorem draw (x : Fields) : Statement (.draw x) := fun _ h =>
  (decode_ext (d := descExt (.draw x)) (x := x) (o := 0xA0) (m := 0) rfl ((by decide)) (by decide) rfl rfl (formOk_of_legal rfl h)).trans (subOrError_some (rfl))
theorem rpassTile (x : Fields) : Statement (.rpassTile x) := fun _ h =>
  (decode_ext (d := descExt (.rpassTile x)) (x := x) (o := 0xA1) (m := 0) rfl ((by decide)) (by decide) rfl rfl (formOk_of_legal rfl h)).trans (subOrError_some (rfl))
theorem rpassImm (x : Fields) : Statement (.rpassImm x) := fun _ h =>
  (decode_ext (d := descExt (.rpassImm x)) (x := x) (o := 0xA1) (m := 1) rfl ((by decide)) (by decide) rfl rfl (formOk_of_legal rfl h)).trans (subOrError_some (rfl))
theorem ordEnter (x : Fields) : Statement (.ordEnter x) := fun _ h =>
  (decode_ext (d := descExt (.ordEnter x)) (x := x) (o := 0xA2) (m := 0) rfl ((by decide)) (by decide) rfl rfl (formOk_of_legal rfl h)).trans (subOrError_some (rfl))
theorem ordLeave (x : Fields) : Statement (.ordLeave x) := fun _ h =>
  (decode_ext (d := descExt (.ordLeave x)) (x := x) (o := 0xA2) (m := 1) rfl ((by decide)) (by decide) rfl rfl (formOk_of_legal rfl h)).trans (subOrError_some (rfl))
theorem fli (x : Fields) : Statement (.fli x) := fun _ h =>
  (decode_ext (d := descExt (.fli x)) (x := x) (o := 0xA3) (m := 0) rfl ((by decide)) (by decide) rfl rfl (formOk_of_legal rfl h)).trans (subOrError_some (rfl))
theorem flw (x : Fields) : Statement (.flw x) := fun _ h =>
  (decode_ext (d := descExt (.flw x)) (x := x) (o := 0xA4) (m := 0) rfl ((by decide)) (by decide) rfl rfl (formOk_of_legal rfl h)).trans (subOrError_some (rfl))
theorem rayq (x : Fields) : Statement (.rayq x) := fun _ h =>
  (decode_ext (d := descExt (.rayq x)) (x := x) (o := 0xA5) (m := 0) rfl ((by decide)) (by decide) rfl rfl (formOk_of_legal rfl h)).trans (subOrError_some (rfl))
theorem rayqApp (x : Fields) : Statement (.rayqApp x) := fun _ h =>
  (decode_ext (d := descExt (.rayqApp x)) (x := x) (o := 0xA5) (m := 1) rfl ((by decide)) (by decide) rfl rfl (formOk_of_legal rfl h)).trans (subOrError_some (rfl))
theorem sysrd (x : Fields) : Statement (.sysrd x) := fun _ h =>
  (decode_ext (d := descExt (.sysrd x)) (x := x) (o := 0xB0) (m := 0) rfl ((by decide)) (by decide) rfl rfl (formOk_of_legal rfl h)).trans (subOrError_some (rfl))
theorem syswr (x : Fields) : Statement (.syswr x) := fun _ h =>
  (decode_ext (d := descExt (.syswr x)) (x := x) (o := 0xB1) (m := 0) rfl ((by decide)) (by decide) rfl rfl (formOk_of_legal rfl h)).trans (subOrError_some (rfl))
theorem sysopIcinv (x : Fields) : Statement (.sysopIcinv x) := fun _ h =>
  (decode_ext (d := descExt (.sysopIcinv x)) (x := x) (o := 0xB2) (m := 0) rfl ((by decide)) (by decide) rfl rfl (formOk_of_legal rfl h)).trans (subOrError_some (rfl))
theorem sysopDcwb (x : Fields) : Statement (.sysopDcwb x) := fun _ h =>
  (decode_ext (d := descExt (.sysopDcwb x)) (x := x) (o := 0xB2) (m := 1) rfl ((by decide)) (by decide) rfl rfl (formOk_of_legal rfl h)).trans (subOrError_some (rfl))
theorem sysopXlinv (x : Fields) : Statement (.sysopXlinv x) := fun _ h =>
  (decode_ext (d := descExt (.sysopXlinv x)) (x := x) (o := 0xB2) (m := 2) rfl ((by decide)) (by decide) rfl rfl (formOk_of_legal rfl h)).trans (subOrError_some (congrArg (fun b : Bool => (some (if b = true then Instr.sysopXlinvAll x else Instr.sysopXlinv x) : Option Instr)) (sysopXlinv_bit h)))
theorem sysopXlinvAll (x : Fields) : Statement (.sysopXlinvAll x) := fun _ h =>
  (decode_ext (d := descExt (.sysopXlinvAll x)) (x := x) (o := 0xB2) (m := 2) rfl ((by decide)) (by decide) rfl rfl (formOk_of_legal rfl h)).trans (subOrError_some (congrArg (fun b : Bool => (some (if b = true then Instr.sysopXlinvAll x else Instr.sysopXlinv x) : Option Instr)) (sysopXlinvAll_bit h)))
theorem eret (x : Fields) : Statement (.eret x) := fun _ h =>
  (decode_ext (d := descExt (.eret x)) (x := x) (o := 0xB3) (m := 0) rfl ((by decide)) (by decide) rfl rfl (formOk_of_legal rfl h)).trans (subOrError_some (rfl))
theorem issueCycle : Statement .issueCycle := fun h => absurd h (by decide)
theorem soloFetch : Statement .soloFetch := fun h => absurd h (by decide)
theorem destinationFill : Statement .destinationFill := fun h => absurd h (by decide)
theorem barrierTimeout : Statement .barrierTimeout := fun h => absurd h (by decide)
theorem sleepWake : Statement .sleepWake := fun h => absurd h (by decide)
theorem signingTimeout : Statement .signingTimeout := fun h => absurd h (by decide)
theorem armingTimeout : Statement .armingTimeout := fun h => absurd h (by decide)
theorem waveComplete : Statement .waveComplete := fun h => absurd h (by decide)
theorem launch : Statement .launch := fun h => absurd h (by decide)
theorem cancel : Statement .cancel := fun h => absurd h (by decide)
theorem cancelReach : Statement .cancelReach := fun h => absurd h (by decide)
theorem launchStart : Statement .launchStart := fun h => absurd h (by decide)
theorem wavePlace : Statement .wavePlace := fun h => absurd h (by decide)
theorem spawnDecision : Statement .spawnDecision := fun h => absurd h (by decide)
theorem packWave : Statement .packWave := fun h => absurd h (by decide)
theorem packWaitExpire : Statement .packWaitExpire := fun h => absurd h (by decide)
theorem commit : Statement .commit := fun h => absurd h (by decide)
theorem dPageAccess : Statement .dPageAccess := fun h => absurd h (by decide)
theorem versionShareAbort : Statement .versionShareAbort := fun h => absurd h (by decide)
theorem heldWrite : Statement .heldWrite := fun h => absurd h (by decide)
theorem homeSliceStore : Statement .homeSliceStore := fun h => absurd h (by decide)
theorem remoteScratchpadAccess : Statement .remoteScratchpadAccess := fun h => absurd h (by decide)
theorem bankmodeWrite : Statement .bankmodeWrite := fun h => absurd h (by decide)
theorem bankSwitchComplete : Statement .bankSwitchComplete := fun h => absurd h (by decide)
theorem tileCopyRow : Statement .tileCopyRow := fun h => absurd h (by decide)
theorem lateDelivery : Statement .lateDelivery := fun h => absurd h (by decide)
theorem engineQueueTimeout : Statement .engineQueueTimeout := fun h => absurd h (by decide)
theorem fconvTile : Statement .fconvTile := fun h => absurd h (by decide)
theorem sredElement : Statement .sredElement := fun h => absurd h (by decide)
theorem embagBag : Statement .embagBag := fun h => absurd h (by decide)
theorem matrixEntry : Statement .matrixEntry := fun h => absurd h (by decide)
theorem tableSlotFill : Statement .tableSlotFill := fun h => absurd h (by decide)
theorem matrixClaimTimeout : Statement .matrixClaimTimeout := fun h => absurd h (by decide)
theorem tillTake : Statement .tillTake := fun h => absurd h (by decide)
theorem tillGive : Statement .tillGive := fun h => absurd h (by decide)
theorem tillAcinit : Statement .tillAcinit := fun h => absurd h (by decide)
theorem tillStock : Statement .tillStock := fun h => absurd h (by decide)
theorem stocktakeRecall : Statement .stocktakeRecall := fun h => absurd h (by decide)
theorem allowanceWaitTimeout : Statement .allowanceWaitTimeout := fun h => absurd h (by decide)
theorem rowBarrierTimeout : Statement .rowBarrierTimeout := fun h => absurd h (by decide)
theorem commitWaitTimeout : Statement .commitWaitTimeout := fun h => absurd h (by decide)
theorem drawAccept : Statement .drawAccept := fun h => absurd h (by decide)
theorem rasterWaveForm : Statement .rasterWaveForm := fun h => absurd h (by decide)
theorem ordEntryTimeout : Statement .ordEntryTimeout := fun h => absurd h (by decide)
theorem ordSectionTimeout : Statement .ordSectionTimeout := fun h => absurd h (by decide)
theorem fliPerform : Statement .fliPerform := fun h => absurd h (by decide)
theorem flwPerform : Statement .flwPerform := fun h => absurd h (by decide)
theorem rayTraversal : Statement .rayTraversal := fun h => absurd h (by decide)
theorem graphicsTimeout : Statement .graphicsTimeout := fun h => absurd h (by decide)
theorem resolvePhase : Statement .resolvePhase := fun h => absurd h (by decide)
theorem passClose : Statement .passClose := fun h => absurd h (by decide)
theorem trapHandlerEntry : Statement .trapHandlerEntry := fun h => absurd h (by decide)
theorem trapRingTimeout : Statement .trapRingTimeout := fun h => absurd h (by decide)
theorem lateRecordTimeout : Statement .lateRecordTimeout := fun h => absurd h (by decide)
theorem lateStoreFault : Statement .lateStoreFault := fun h => absurd h (by decide)
theorem eventRecordTimeout : Statement .eventRecordTimeout := fun h => absurd h (by decide)
theorem timeSliceEnd : Statement .timeSliceEnd := fun h => absurd h (by decide)
theorem forcedSave : Statement .forcedSave := fun h => absurd h (by decide)
theorem saveComplete : Statement .saveComplete := fun h => absurd h (by decide)
theorem waveRestore : Statement .waveRestore := fun h => absurd h (by decide)
theorem vistop : Statement .vistop := fun h => absurd h (by decide)
theorem waitCycleScan : Statement .waitCycleScan := fun h => absurd h (by decide)
theorem nocRefusal : Statement .nocRefusal := fun h => absurd h (by decide)
theorem nocReplay : Statement .nocReplay := fun h => absurd h (by decide)
theorem translationWalk : Statement .translationWalk := fun h => absurd h (by decide)
theorem ownerRecall : Statement .ownerRecall := fun h => absurd h (by decide)
theorem reclassifyComplete : Statement .reclassifyComplete := fun h => absurd h (by decide)
theorem hostRdmaWrite : Statement .hostRdmaWrite := fun h => absurd h (by decide)
theorem hostRdmaRead : Statement .hostRdmaRead := fun h => absurd h (by decide)
theorem hostAtomic : Statement .hostAtomic := fun h => absurd h (by decide)
theorem doorbellCqtail : Statement .doorbellCqtail := fun h => absurd h (by decide)
theorem doorbellTqhead : Statement .doorbellTqhead := fun h => absurd h (by decide)
theorem doorbellEqhead : Statement .doorbellEqhead := fun h => absurd h (by decide)
theorem cqbaseWrite : Statement .cqbaseWrite := fun h => absurd h (by decide)
theorem tqbaseWrite : Statement .tqbaseWrite := fun h => absurd h (by decide)
theorem eqbaseWrite : Statement .eqbaseWrite := fun h => absurd h (by decide)
theorem partWrite : Statement .partWrite := fun h => absurd h (by decide)
theorem vshareWrite : Statement .vshareWrite := fun h => absurd h (by decide)
theorem fatalClear : Statement .fatalClear := fun h => absurd h (by decide)
theorem registerWrite : Statement .registerWrite := fun h => absurd h (by decide)
theorem peerInbound : Statement .peerInbound := fun h => absurd h (by decide)
theorem keepalive : Statement .keepalive := fun h => absurd h (by decide)
theorem fabricPortDown : Statement .fabricPortDown := fun h => absurd h (by decide)
theorem peerLost : Statement .peerLost := fun h => absurd h (by decide)
theorem peerHandshake : Statement .peerHandshake := fun h => absurd h (by decide)
theorem ptpMessage : Statement .ptpMessage := fun h => absurd h (by decide)
theorem pstreamWrite : Statement .pstreamWrite := fun h => absurd h (by decide)
theorem frameDeadline : Statement .frameDeadline := fun h => absurd h (by decide)
theorem coldReset : Statement .coldReset := fun h => absurd h (by decide)
theorem warmReset : Statement .warmReset := fun h => absurd h (by decide)
theorem interfaceReset : Statement .interfaceReset := fun h => absurd h (by decide)
theorem thermalTrip : Statement .thermalTrip := fun h => absurd h (by decide)
theorem thermalThrottle : Statement .thermalThrottle := fun h => absurd h (by decide)
theorem powerLimit : Statement .powerLimit := fun h => absurd h (by decide)
theorem bootRun : Statement .bootRun := fun h => absurd h (by decide)
theorem measextWrite : Statement .measextWrite := fun h => absurd h (by decide)
theorem managementRequest : Statement .managementRequest := fun h => absurd h (by decide)
theorem attestation : Statement .attestation := fun h => absurd h (by decide)
theorem histogramTick : Statement .histogramTick := fun h => absurd h (by decide)
theorem histogramSave : Statement .histogramSave := fun h => absurd h (by decide)
theorem scrub : Statement .scrub := fun h => absurd h (by decide)
theorem registerEccError : Statement .registerEccError := fun h => absurd h (by decide)
theorem sliceStateError : Statement .sliceStateError := fun h => absurd h (by decide)
theorem illegalInstruction : Statement .illegalInstruction := fun h => absurd h (by decide)
theorem peerAcknowledgement : Statement .peerAcknowledgement := fun h => absurd h (by decide)
theorem keepaliveReceived : Statement .keepaliveReceived := fun h => absurd h (by decide)
theorem fabricPortUp : Statement .fabricPortUp := fun h => absurd h (by decide)
theorem queuePairConnected : Statement .queuePairConnected := fun h => absurd h (by decide)
theorem brokenConnection : Statement .brokenConnection := fun h => absurd h (by decide)
theorem powerLoss : Statement .powerLoss := fun h => absurd h (by decide)
theorem hostSend : Statement .hostSend := fun h => absurd h (by decide)

end Sys2Proof.Laws.Decodes
end

