-- ==== Sys2Proof/Safety.lean ====
section
/-!
DEFINITION. What counts as a sound state of the model, and the terms in which the statements speak of an issue: the issue that a
state executes, its lanes, where they go on, and what of the state may change.
-/
namespace Sys2Proof.Machine

/-- Memory keeps its canonical form. -/
def State.memOk (s : State) : Bool := Memory.wf s.mem

/-- Every sparse table of the part keeps its canonical form: its keys rise. -/
def State.tablesOk (s : State) : Bool :=
  rising s.poison && rising s.sys && rising s.measExt && rising s.histSaved && rising s.hist && rising s.streams && rising s.portSent &&
  rising s.clocks && rising s.peerHeard && rising s.lineport && rising s.noc && rising s.cores && rising s.waves && rising s.spad &&
  rising s.fifo && rising s.switches && rising s.ops && rising s.relAt && rising s.fills && rising s.barriers && rising s.jobs &&
  rising s.issuers && rising s.formed && rising s.spawns && rising s.held && rising s.tills && rising s.tillMsgs && rising s.cmds &&
  rising s.postings && rising s.promises && rising s.passes && rising s.opens && rising s.gfxAsks && rising s.gfx && rising s.trapReqs &&
  rising s.eventReqs && rising s.holders && rising s.saved && rising s.transit && rising s.scanAt

/-- The state executes the issue c of a resident wave w, whose wave may execute the pattern i (R40, R68, R190); its lanes are
distinct. -/
structure State.Issues (s : State) (c : Issue) (w : Wave) (i : Instr) : Prop where
  cur : s.cur = some c
  wave : s.wave? c.wid = some w
  legal : s.issueLegal w i = true
  once : c.lanes.Nodup

/-- The state with its issue taken: what an instruction starts from. -/
def State.taken (s : State) : State := { s with cur := none }

/-- The wave as it executes an issue: the cycle is noted for the lanes of the issue group (R72). -/
def State.noted (s : State) (c : Issue) (w : Wave) (i : Instr) : Wave := w.note (s.coreAt w.core).cycle (s.group c.wid w c i)

/-- Lane k after the issue, when the instruction leaves it as l: a lane of the issue group goes on (R79). -/
def State.onward (s : State) (c : Issue) (w : Wave) (i : Instr) (k : Nat) (l : Lane) : Lane :=
  if k ∈ s.group c.wid w c i then (l.advance (wordsOf i)).1 else l

/-- A wave that differs from another in its lanes, and in whether it has passed a safe point, alone. -/
def Wave.LanesOf (v u : Wave) : Prop := v = { u with lanes := v.lanes, yielding := v.yielding } ∧ v.lanes.length = u.lanes.length

/-- The state goes on from a state n with the wave of its issue become v, whose lanes are f. -/
def State.GoesOn (n : State) (wid : Nat) (u : Wave) (f : Nat → Lane) (t : State) : Prop :=
  ∃ v : Wave, t = n.setWave wid v ∧ v.LanesOf u ∧ ∀ k, k < u.lanes.length → v.lane k = f k

/-- Flags raised by lanes together (R111). -/
def flagsOn (run : List Nat) (f : Nat → BitVec 7) : BitVec 7 := run.foldl (fun m k => m ||| f k) 0

/-- An instruction whose active lanes each write their destination at once (R201): lane k gets the number and raises the flags of
`val`, nothing else of the part changes, and the lanes of the group go on. -/
def LaneResult (i : Instr) (val : Wave → Nat → Nat × BitVec 7) : Prop :=
  ∀ (s : State) (c : Issue) (w : Wave), s.Issues c w i → s.earlyTraps c w i = [] →
    ∃ t, exec i s = .next t ∧
      s.taken.GoesOn c.wid ((s.noted c w i).flag (flagsOn (s.activeLanes c w i) (fun k => (val (s.noted c w i) k).2)))
        (fun k => s.onward c w i k
          (if k ∈ s.activeLanes c w i then
            ((s.noted c w i).lane k).write (fieldsOf i).dst.toNat (dstRegs i) (val (s.noted c w i) k).1
          else (s.noted c w i).lane k)) t

/-- A fill of n registers from r in lanes, each with its number, and the flags that lanes raise. -/
def lanesFill (r n : Nat) (vals : List (Nat × Nat)) (fl : List (Nat × BitVec 7)) : Fill :=
  { wid := 0, lanes := vals.map (fun x => (x.1, wordsFrom r x.2 n)), flags := fl }

/-- An instruction whose results come later (R85): one fill with the results is on its way under a fresh identity, the registers of
the active lanes and the wave registers that it names are empty until it lands, nothing else of the part changes, and the lanes of the
group go on. -/
def LaterResult (i : Instr) (fill : Wave → List Nat → Fill) : Prop :=
  ∀ (s : State) (c : Issue) (w : Wave), s.Issues c w i → s.earlyTraps c w i = [] → s.activeLanes c w i ≠ [] →
    ∃ t, exec i s = .next t ∧
      (s.taken.withFill { fill (s.noted c w i) (s.activeLanes c w i) with wid := c.wid }).GoesOn c.wid
        { s.noted c w i with we := (fill (s.noted c w i) (s.activeLanes c w i)).wave.foldl (fun m x => put m x.1 s.nid) (s.noted c w i).we }
        (fun k => s.onward c w i k
          (if k ∈ (fill (s.noted c w i) (s.activeLanes c w i)).lanes.map Prod.fst then
            ((s.noted c w i).lane k).setEmpty (fieldsOf i).dst.toNat (dstRegs i) s.nid
          else (s.noted c w i).lane k)) t

/-- The fill of an instruction that each active lane runs on its own: one result a lane, and its flags. -/
def unitFill (f : Instr → Wave → Lane → Nat × BitVec 7) (i : Instr) (u : Wave) (run : List Nat) : Fill :=
  lanesFill (fieldsOf i).dst.toNat (dstRegs i) (run.map (fun k => (k, (f i u (u.lane k)).1))) (run.map (fun k => (k, (f i u (u.lane k)).2)))

/-- The fill of a row operation (R314): a result for lanes of the row, and perhaps one for the wave register SC. -/
def rowFill (i : Instr) (f : Wave → Lane → List (Nat × Nat × Nat × Nat) → List (Nat × Nat) × Option Nat) (u : Wave) (run : List Nat) : Fill :=
  { wid := 0, team := run
    lanes := (f u (u.lane (run.headD 0)) (rowOf i u run)).1.map (fun x => (x.1, wordsFrom (fieldsOf i).dst.toNat x.2 (dstRegs i)))
    wave := ((f u (u.lane (run.headD 0)) (rowOf i u run)).2.map (fun v => (wKey (u.lane (run.headD 0)).level (fieldsOf i).sc.toNat, v))).toList.map
      (fun x => (x.1, dw x.2)) }

/-- A wave-level instruction (R202): it changes the wave once, from the values of its active lanes, nothing else of the part changes,
and the lanes of the group go on. -/
def WaveResult (i : Instr) (res : Issue → Wave → List Nat → Wave) : Prop :=
  ∀ (s : State) (c : Issue) (w : Wave), s.Issues c w i → s.earlyTraps c w i = [] → s.activeLanes c w i ≠ [] →
    ∃ t, exec i s = .next t ∧
      s.taken.GoesOn c.wid (res c (s.noted c w i) (s.activeLanes c w i))
        (fun k => s.onward c w i k ((s.noted c w i).lane k)) t

/-- An instruction whose active lanes each write their bit of the mask DST (R212): the bits of the other lanes and every other mask
keep their values, the mask is full, and the lanes of the group go on. -/
def BitResult (i : Instr) (val : Wave → Lane → Bool × BitVec 7) : Prop :=
  ∀ (s : State) (c : Issue) (w : Wave), s.Issues c w i → s.earlyTraps c w i = [] → s.activeLanes c w i ≠ [] →
    ∃ (t : State) (u : Wave), exec i s = .next t ∧
      u = { (s.noted c w i).flag (flagsOn (s.activeLanes c w i) (fun k => (val (s.noted c w i) ((s.noted c w i).lane k)).2)) with
            k := u.k, ke := u.ke } ∧
      (∀ k, k < w.width → k < 64 → bit (u.rk (fieldsOf i).dst.toNat).toNat k =
        if k ∈ s.activeLanes c w i then (val (s.noted c w i) ((s.noted c w i).lane k)).1 else bit (w.rk (fieldsOf i).dst.toNat).toNat k) ∧
      u.emptyK (fieldsOf i).dst.toNat = false ∧
      (∀ r, r ≠ (fieldsOf i).dst.toNat → u.rk r = w.rk r ∧ u.emptyK r = w.emptyK r) ∧
      s.taken.GoesOn c.wid u (fun k => s.onward c w i k ((s.noted c w i).lane k)) t

/-- An instruction that sends lanes to a target (R240): when every target is a word address below 2^57, an active lane with a target
becomes what `go` makes of it, the other lanes of the group go on, and nothing else of the part changes. -/
def BranchResult (i : Instr) (target : Issue → Wave → Nat → Option DWord) (go : Issue → Lane → DWord → Lane) : Prop :=
  ∀ (s : State) (c : Issue) (w : Wave), s.Issues c w i → s.earlyTraps c w i = [] →
    (∀ k ∈ s.activeLanes c w i, ∀ a, target c (s.noted c w i) k = some a → a.toNat % 4 = 0 ∧ a.toNat < 2 ^ 57) →
    ∃ t, exec i s = .next t ∧
      s.taken.GoesOn c.wid (s.noted c w i)
        (fun k => match (if k ∈ s.activeLanes c w i then target c (s.noted c w i) k else none) with
          | some a => go c ((s.noted c w i).lane k) a
          | none => s.onward c w i k ((s.noted c w i).lane k)) t

/-- An instruction in which lanes wait (R241): outside pixel-ordered sections, an active lane with a wait is held in the instruction,
the other lanes of the group go on, and nothing else of the part changes. -/
def WaitResult (i : Instr) (wait : State → Wave → Lane → Option Wait) : Prop :=
  ∀ (s : State) (c : Issue) (w : Wave), s.Issues c w i → s.earlyTraps c w i = [] →
    (∀ k ∈ s.activeLanes c w i, (w.lane k).inside = false) →
    ∃ t, exec i s = .next t ∧
      s.taken.GoesOn c.wid (s.noted c w i)
        (fun k => match (if k ∈ s.activeLanes c w i then wait s (s.noted c w i) ((s.noted c w i).lane k) else none) with
          | some x => { (s.noted c w i).lane k with wait := x, ilen := wordsOf i }
          | none => s.onward c w i k ((s.noted c w i).lane k)) t

/-- The course of an issue (R178): some lanes run the instruction's effect, and the answer is the closing of what it did, with the traps
that lanes took before it. -/
def Course (i : Instr) (eff : Eff) : Prop :=
  ∀ (s : State) (c : Issue) (w : Wave), s.Issues c w i → s.runSet c w i ≠ [] →
    exec i s = .next
      ({ eff (s.issued c w i) c (s.noted c w i) (s.runSet c w i) with
          traps := s.earlyTraps c w i ++ (eff (s.issued c w i) c (s.noted c w i) (s.runSet c w i)).traps }.close
        c.wid (wordsOf i) c.pc (s.group c.wid w c i))

/-- What one lane does in its turn: the part after it, what becomes of the lane, and whether it is held in the instruction. -/
structure Turn where
  part : State
  lane : Lane → Lane
  held : Bool

/-- The part after lanes that act in turn. -/
def State.afterTurns (n : State) (act : State → Nat → Option Turn) (ks : List Nat) : State :=
  ks.foldl (fun m k => ((act m k).map Turn.part).getD m) n

/-- The part as lane k of an issue finds it, when the lanes act one after another. -/
def State.foundBy (n : State) (act : State → Nat → Option Turn) (ks : List Nat) (k : Nat) : State :=
  n.afterTurns act (ks.takeWhile (fun j => j != k))

/-- An instruction whose active lanes act in turn, lowest first, from the part as the issue begins: when no lane's turn ends in a trap,
the part is that after the turns, each active lane is what its turn makes of it and goes on unless it is held, and the other lanes of the
group go on. -/
def TurnResult (i : Instr) (start : State → State) (act : State → Issue → Wave → State → Nat → Option Turn) : Prop :=
  ∀ (s : State) (c : Issue) (w : Wave), s.Issues c w i → s.earlyTraps c w i = [] → s.activeLanes c w i ≠ [] →
    (∀ k ∈ s.activeLanes c w i, (act (s.issued c w i) c (s.noted c w i)
      ((start (s.issued c w i)).foundBy (act (s.issued c w i) c (s.noted c w i)) (s.activeLanes c w i) k) k).isSome) →
    ∃ t, exec i s = .next t ∧
      ((start (s.issued c w i)).afterTurns (act (s.issued c w i) c (s.noted c w i)) (s.activeLanes c w i)).GoesOn c.wid (s.noted c w i)
        (fun k => match (if k ∈ s.activeLanes c w i then act (s.issued c w i) c (s.noted c w i)
            ((start (s.issued c w i)).foundBy (act (s.issued c w i) c (s.noted c w i)) (s.activeLanes c w i) k) k else none) with
          | some r => if r.held then r.lane ((s.noted c w i).lane k) else s.onward c w i k (r.lane ((s.noted c w i).lane k))
          | none => s.onward c w i k ((s.noted c w i).lane k)) t

/-- A lane held in its instruction by a wait. -/
def Lane.await (i : Instr) (x : Wait) (l : Lane) : Lane := { l with wait := x, ilen := wordsOf i }

/-- The turn of a lane in a global access (R268, R270): none of it happens when a check fails; the lane waits for a page in transit
(R434); else its pieces are in flight and its destination is empty. A lane waits when its wave has no room for the access (R398). -/
def accessTurn (i : Instr) (s : State) (c : Issue) (u : Wave) (m : State) (k : Nat) : Option Turn :=
  let want := wantOf i u (u.lane k)
  let va := globalAddr i u (u.lane k)
  if s.noRoom i c u then some { part := m, lane := Lane.await i .room, held := true }
  else
    match m.checkAccess u (u.lane k).level want va with
    | (_, .trap _) => none
    | (n, .page leaf) => some { part := n, lane := Lane.await i (.page leaf), held := true }
    | (n, .ok ps) =>
      let o := sentOp c u k s.nid want va n.nid (readsOutside want ps) []
      some {
        part := n.withPieces (n.ordered o (decide (2 ≤ want.mode)) want.scope) want va ps
        lane := fun l =>
          let l := match want.dst with
            | some (.v r) => l.setEmpty r want.dstN n.nid
            | some (.w _) | some (.k _) | none => l
          if readsOutside want ps then l.await i (.held n.nid) else l
        held := readsOutside want ps }

/-- The turn of a lane in FENCE (R147, R149, R281): the fence is in flight, ordered after the lane's accesses that are, and the lane
carries its orderings; at lane scope it does nothing. -/
def fenceTurn (kind : FenceKind) (scope : Nat) (_ : State) (c : Issue) (u : Wave) (m : State) (k : Nat) : Option Turn :=
  if scope = 0 then some { part := m, lane := fun l => l, held := false }
  else
    some {
      part := if (m.releaseSet c.wid k 0).isEmpty then m
        else m.withOp { act := .fence kind, vi := u.vi, wid := c.wid, lane := k, core := u.core, scope := scope,
                        before := (m.releaseSet c.wid k 0).map (fun j => (scope, j)) }
      lane := fun l => l.fenced kind scope (m.releaseSet c.wid k 0)
      held := false }

/-- The turn of a lane in PREF (R273, R433): a translation, and nothing else. -/
def prefTurn (i : Instr) (_ : State) (_ : Issue) (u : Wave) (m : State) (k : Nat) : Option Turn :=
  some {
    part := if 2 ^ 57 ≤ globalAddr i u (u.lane k) then m
      else (m.translateFor u (u.lane k).level (globalAddr i u (u.lane k)) 0 .lane).1
    lane := fun l => l
    held := false }

/-- The turn of a lane in FLUSH (R273): it faults as a load of one byte; of a line of the module's memory outside D pages a flush is in
flight, and of another line it does nothing. -/
def flushTurn (i : Instr) (s : State) (c : Issue) (u : Wave) (m : State) (k : Nat) : Option Turn :=
  let va := globalAddr i u (u.lane k)
  match m.checkAccess u (u.lane k).level { act := .flush, n := 1, acc := 0 } va with
  | (_, .trap _) => none
  | (n, .page leaf) => some { part := n, lane := Lane.await i (.page leaf), held := true }
  | (n, .ok []) => some { part := n, lane := fun l => l, held := false }
  | (n, .ok (p :: _)) =>
    some {
      part := if p.dpage || isPeerPa p.pa || isHostPa p.pa then n else n.withOp (flushOf c u k s.nid va n.nid p)
      lane := fun l => l
      held := false }

/-- The wave with the wave register that an access loads empty until it arrives (R85). -/
def awaitWave (want : Want) (id : Nat) (u : Wave) : Wave :=
  match want.dst with
  | some (.w r) => { u with we := put u.we r id }
  | some (.v _) | some (.k _) | none => u

/-- A wave access (R271): one access for the lowest active lane, whose wait is that of every active lane. When every check passes, its
pieces are in flight, a load's wave register is empty, and the lanes of the group go on unless the access holds them. -/
def WaveAccessResult (i : Instr) : Prop :=
  ∀ (s : State) (c : Issue) (w : Wave) (k : Nat) (team : List Nat) (n : State) (ps : List Piece),
    s.Issues c w i → s.earlyTraps c w i = [] → s.activeLanes c w i = k :: team →
    let u := s.noted c w i
    let want := wantOf i u (u.lane k)
    let va := globalAddr i u (u.lane k)
    s.noRoom i c u = false → (s.issued c w i).fresh.2.checkAccess u (u.lane k).level want va = (n, .ok ps) →
    ∃ t, exec i s = .next t ∧
      (n.withPieces (n.ordered (sentOp c u k s.nid want va n.nid (readsOutside want ps) team) (decide (2 ≤ want.mode)) want.scope)
          want va ps).GoesOn c.wid
        (awaitWave want n.nid u) (fun j => if readsOutside want ps && (k :: team).contains j then (u.lane j).await i (.held n.nid) else s.onward c w i j (u.lane j)) t

/-- The turn of a lane in a scratchpad access (R268, R272): none of it happens when a check fails; it waits while its bank changes mode
or has no room for it (R132, R415); else it is on its way to its bank and its destination is empty, and an access that may not wait there, or
for which no room is sure, holds its lane (R358, R415). -/
def spadTurn (i : Instr) (s : State) (c : Issue) (u : Wave) (m : State) (k : Nat) : Option Turn :=
  let a := spadAddress i u (u.lane k)
  match m.checkSpad u (spadWant i u (u.lane k)) a with
  | .trap _ => none
  | .wait => some { part := m, lane := Lane.await i .room, held := true }
  | .ok core off q =>
    if m.bankFull i c (u.lane k) q core off then some { part := m, lane := Lane.await i .room, held := true }
    else
      let o := m.orderedBank (bankOp i c u k s.nid q a core off m.nid)
      some {
        part := m.withOp o
        lane := fun l =>
          let l := match q.dst with
            | some (.v r) => l.setEmpty r q.dstN m.nid
            | some (.w _) | some (.k _) | none => l
          if o.waits || o.probe then l.await i (.held m.nid) else l
        held := o.waits || o.probe }

/-- The turn of a lane in LOOP (R246, R247): it sets the level's start, end and count; a count of zero leaves the body behind, to the
instruction after the word at its end. -/
def loopTurn (i : Instr) (count : Lane → Nat) (_ : State) (c : Issue) (u : Wave) (m : State) (k : Nat) : Option Turn :=
  let ls := c.pc + dw (4 * wordsOf i)
  let le := c.pc + dw (4 * w2f (fieldsOf i) 15 0)
  if count (u.lane k) ≠ 0 then
    some { part := m, lane := fun l => l.setLoop (loopLevel i) ls le (BitVec.ofNat 32 (count (u.lane k))), held := false }
  else
    match m.fetchWord u (u.lane k).level le.toNat with
    | (_, .fault _) => none
    | (n, .wait leaf) => some { part := n, lane := Lane.await i (.page leaf), held := true }
    | (n, .ok x) =>
      if (targetTrap (le + dw (4 * lenWords x))).isSome then none
      else
        some { part := n, lane := fun l => ((l.setLoop (loopLevel i) ls le 0).jump (le + dw (4 * lenWords x))).1, held := true }

/-- The turn of a lane in RBWAIT (R147, R276, R358): it waits while what comes before its read is under way, and passes when the word's count has
come, taking over what the counting operations released; it traps on an empty word under the trapping policy, and inside a section; else it waits. -/
def rbwaitTurn (i : Instr) (_ : State) (c : Issue) (u : Wave) (m : State) (k : Nat) : Option Turn :=
  let a := spadAddress i u (u.lane k)
  let target := opD i u (u.lane k) % 2 ^ 32
  match m.checkSpad u { act := .rbrd, n := 4, acc := 0 } a with
  | .trap _ => none
  | .wait => some { part := m, lane := Lane.await i .room, held := true }
  | .ok core off _ =>
    if m.rowHeld c.wid k u.core (wordKey core off) then some { part := m, lane := Lane.await i .room, held := true }
    else if m.rowPasses (wordKey core off) target then
      some { part := m, lane := m.passedRow c.wid u.core (wordKey core off), held := false }
    else if (m.rowTrap c.wid k (wordKey core off) (fieldsOf i).epb).isSome then none
    else some { part := m, lane := Lane.await i (.rowBar (wordKey core off) target a (m.deadline u.vi) (fieldsOf i).epb), held := true }

/-- What an issue makes of the part at once: the part, the registers of its wave, what becomes of each active lane, and which active lanes
are held in the instruction. -/
structure Outcome where
  part : State
  wave : Wave
  lane : Nat → Lane → Lane := fun _ l => l
  held : Nat → Bool := fun _ => false

/-- An instruction whose issue has an outcome: when it has one, the part is that of the outcome, each active lane is what it makes of the
lane and goes on unless it is held, and the other lanes of the group go on. -/
def OutcomeResult (i : Instr) (out : State → Issue → Wave → List Nat → Option Outcome) : Prop :=
  ∀ (s : State) (c : Issue) (w : Wave) (r : Outcome), s.Issues c w i → s.earlyTraps c w i = [] → s.activeLanes c w i ≠ [] →
    out (s.issued c w i) c (s.noted c w i) (s.activeLanes c w i) = some r →
    ∃ t, exec i s = .next t ∧
      r.part.GoesOn c.wid r.wave
        (fun k => if k ∈ s.activeLanes c w i then
            if r.held k then r.lane k ((s.noted c w i).lane k) else s.onward c w i k (r.lane k ((s.noted c w i).lane k))
          else s.onward c w i k ((s.noted c w i).lane k)) t

/-- The active lanes are held in the instruction. -/
def holdOutcome (i : Instr) (m : State) (u : Wave) (x : Wait) : Outcome :=
  { part := m, wave := u, lane := fun _ l => l.await i x, held := fun _ => true }

/-- The outcome of a wave-level matrix instruction (R295, R296): it waits while a span's bank changes mode; when no check traps, it does
`done` if the queue has room, and waits for room outside pixel-ordered sections (R313). -/
def matOut (i : Instr) (mk : State → Wave → Lane → MatUse) (done : State → Issue → Wave → List Nat → MatUse → Option Outcome)
    (n : State) (c : Issue) (u : Wave) (run : List Nat) : Option Outcome :=
  let use := mk n u (u.lane (run.headD 0))
  if use.misaligned.isNone ∧ badRun (n.matSpan u.vi u.core) use.acc use.runs = some none then some (holdOutcome i n u .room)
  else if (n.matCheck c.wid u use).2.isSome then none
  else if n.matRoom u.core then done n c u run use
  else if run.any (fun k => (u.lane k).inside) then none
  else some (holdOutcome i n u .matrix)

/-- What a matrix instruction does to the part alone. -/
def partOnly (go : State → Issue → Wave → List Nat → MatUse → Done) (n : State) (c : Issue) (u : Wave) (run : List Nat) (use : MatUse) :
    Option Outcome := some { part := (go n c u run use).s, wave := u }

/-- The entry of an MMA with SIGN: it names the signing set (R307). -/
def signSet (i : Instr) (u : Wave) (run : List Nat) : DWord := dw (u.presentIn (opB i u (u.lane (run.headD 0))))

/-- What a checked MMA, MMAS or MMAI does: without SIGN its entry enters the queue; with SIGN it arms its sign register, when that is free
and no lane waits to sign it yet, and waits for a register that is not free, outside pixel-ordered sections (R307). -/
def mmaDone (i : Instr) (n : State) (c : Issue) (u : Wave) (run : List Nat) (use : MatUse) : Option Outcome :=
  let g := w2f (fieldsOf i) 27 24
  let e := (n.ownEntry c u use).1
  let m := (n.ownEntry c u use).2
  if (fieldsOf i).w2.getLsbD 28 = false then some { part := (matEnter n c u run use).s, wave := u }
  else if (m.coreAt u.core).signFree g then
    if u.idx.any (fun k => (u.lane k).waitsSign g) then none
    else
      some {
        part := m.modCore u.core (fun k => { k with
          signs := put k.signs g { armed := true, wid := c.wid, slot := u.slot, set := signSet i u run, entry := some e } })
        wave := u }
  else if run.any (fun k => (u.lane k).inside) then none
  else
    some { holdOutcome i (m.modCore u.core (fun k => { k with
      armings := put k.armings e.id { wid := c.wid, g := g, set := signSet i u run, entry := e, due := m.deadline u.vi, lanes := run } })) u
      (.arming e.id) with }

/-- The outcome of MRD when every lane's checks pass (R296, R310): one entry reads a cell for each lane, whose destination is empty until
then. -/
def mrdOut (i : Instr) (n : State) (c : Issue) (u : Wave) (run : List Nat) : Option Outcome :=
  if run.any (fun k => (n.mrdLane i c.wid u k).toOption.isNone) then none
  else if n.matRoom u.core then
    let e := (n.ownEntry c u (mrdUse i (run.filterMap (fun k => (n.mrdLane i c.wid u k).toOption)))).1
    some {
      part := (n.ownEntry c u (mrdUse i (run.filterMap (fun k => (n.mrdLane i c.wid u k).toOption)))).2.enterQueue u.core e
      wave := u
      lane := fun k => awaitCell i e.id (n.mrdLane i c.wid u k).toOption }
  else if run.any (fun k => (u.lane k).inside) then none
  else some (holdOutcome i n u .matrix)

/-- The outcome of MSTAT (R312): the register holds the state of the resources, and then the OVF bits of owned tiles that the instruction names
are clear; a tile of them with a deferred report takes that trap instead (R299). -/
def mstatOut (i : Instr) (clr : Nat) (n : State) (c : Issue) (u : Wave) (run : List Nat) : Option Outcome :=
  if (n.ownDeferred c.wid u.core clr).isSome then none
  else some {
    part := n.clearOvf c.wid u.core clr
    wave := u.ww (u.lane (run.headD 0)).level (fieldsOf i).dst.toNat (dw (n.mstat c.wid u)) }

/-- The outcome of MWAIT (R300): it claims its resources when they can be claimed, and waits for them otherwise, outside pixel-ordered
sections; a resource of its wave with a deferred report takes that trap instead (R299). -/
def mwaitOut (i : Instr) (n : State) (c : Issue) (u : Wave) (run : List Nat) : Option Outcome :=
  let res := w2f (fieldsOf i) 4 0
  if (n.ownDeferred c.wid u.core res).isSome then none
  else if n.claimable u.core (n.wanted u.core c.wid res) ((n.claimers u.core).foldl (fun m x => m ||| x.2.2) 0) then
    some { part := n.claim u.core c.wid (n.wanted u.core c.wid res), wave := u }
  else if run.any (fun k => (u.lane k).inside) then none
  else some (holdOutcome i n.fresh.2 u (.claim n.nid res (n.deadline u.vi)))

/-- The outcome of MREL (R301): it waits for the operations that name its resources, outside pixel-ordered sections; else the resources are
free, and the claims and armings that wait for them are served. It is given here when that lets no lane go on. -/
def mrelOut (i : Instr) (n : State) (c : Issue) (u : Wave) (run : List Nat) : Option Outcome :=
  let res := w2f (fieldsOf i) 4 0
  let m := (n.freeMatrix c.wid u res).settleMatrix u.core
  if (n.coreAt u.core).busyRes c.wid res then
    if run.any (fun k => (u.lane k).inside) then none else some (holdOutcome i n u .matrix)
  else if m.waves = n.waves then some { part := m, wave := u }
  else none

/-- The outcome of MSIGN (R257, R258), outside pixel-ordered sections: each lane is held; on its wave's armed register, of whose set it must be,
it has signed. -/
def msignOut (i : Instr) (n : State) (c : Issue) (u : Wave) (run : List Nat) : Option Outcome :=
  let g := signOf i
  let x := lookD (n.coreAt u.core).signs g {}
  let due := n.deadline u.vi
  if run.any (fun k => (u.lane k).inside) then none
  else if x.armed && !x.held && x.wid == c.wid then
    if run.any (fun k => !bit x.set.toNat k) then none
    else
      some { holdOutcome i (run.foldl (fun s k => s.addSignature u.core c.wid g k (lookD (s.coreAt u.core).signs g {})) n) u (.sign g due true)
        with }
  else some (holdOutcome i n u (.sign g due false))

/-- The turn of a lane in TAKE, TAKE.TRY, GIVE, ACINIT or STOCK (R284, R287 to R289): none of it happens when a check fails; it waits for a
page in transit; else it is done on the core's allowance, or its request is on its way to the till and its lane waits for the answer. -/
def tillTurn (i : Instr) (s : State) (c : Issue) (u : Wave) (m : State) (k : Nat) : Option Turn :=
  let va := globalAddr i u (u.lane k)
  if va % 128 ≠ 0 then none
  else
    match m.checkPieces u (u.lane k).level 128 2 [(va, 128)] with
    | (_, .trap _) => none
    | (n, .page leaf) => some { part := n, lane := Lane.await i (.page leaf), held := true }
    | (n, .ok []) => some { part := n, lane := fun l => l, held := false }
    | (n, .ok (p :: _)) =>
      let q := n.tillMsg i s.nid c u k va p.pa
      if n.lineRefused (tillAct i) p.pa p.dpage then none
      else if q.act = .take ∧ (u.lane k).inside then none
      else if !n.needsTill q && n.spendHeld q then some { part := n, lane := Lane.await i .room, held := true }
      else
        some {
          part := if n.needsTill q then n.sendTill q else n.spend q
          lane := tillChange i q (n.needsTill q) n.nid (n.linksAt c.wid u.core p.pa)
          held := n.needsTill q && q.act != .stock }

/-- The turn of a lane in YIELD (R262): it goes on; whether its wave passed a safe point stands in the wave alone. -/
def yieldTurn (_ : State) (_ : Issue) (_ : Wave) (m : State) (_ : Nat) : Option Turn := some { part := m, lane := fun l => l, held := false }

/-- The outcome of CMT.POS (R263): the core's copy of the token's position may catch up, and each lane reads whether that copy names its issuer
as the holder, which it is. -/
def cmtPosOut (i : Instr) (n : State) (_ : Issue) (u : Wave) (_ : List Nat) : Option Outcome :=
  some {
    part := n.tokenCopy u.core u.vi
    wave := u
    lane := fun k l => l.write (fieldsOf i).dst.toNat 1 (bCode ((n.tokenCopy u.core u.vi).copyHolds u.core u.vi (u.lane k).item)) }

/-- The part with the requests of a SPAWN, and the identity of their decision (R55, R259, R260). -/
def State.askedSpawn (n : State) (c : Issue) (u : Wave) (asks : List SpawnAsk) : Nat × State :=
  match n.openSpawn c u with
  | some (id, r) => (id, { n with spawns := put n.spawns id { r with asks := r.asks ++ asks } })
  | none =>
    (n.nid, { n with nid := n.nid + 1,
                     spawns := put n.spawns n.nid { wid := c.wid, core := u.core, cycle := (n.coreAt u.core).cycle, asks := asks } })

/-- The outcome of SPAWN outside pixel-ordered sections (R259 to R261): the lanes of launched and spawned work are held until their requests are
decided; other work finds no room, which is the answer 1. -/
def spawnOut (i : Instr) (n : State) (c : Issue) (u : Wave) (run : List Nat) : Option Outcome :=
  if run.any (fun k => (u.lane k).inside) then none
  else if u.kind = .launched ∨ u.kind = .spawned then
    some { holdOutcome i (n.askedSpawn c u (run.map (spawnAsk i c u))).2 u (.spawn (n.askedSpawn c u (run.map (spawnAsk i c u))).1) with }
  else some { part := n, wave := u, lane := fun _ l => l.write (fieldsOf i).dst.toNat 1 1 }

/-- The outcome of ERET for lanes in handlers whose entry discarded no versions (R391): each goes to SYS.TPC. -/
def eretOut (n : State) (_ : Issue) (u : Wave) (run : List Nat) : Option Outcome :=
  if run.any (fun k => !(u.lane k).inh || (u.lane k).disc) then none
  else some { part := n, wave := u, lane := fun _ l => l.eret, held := fun _ => true }

/-- A lane with what the two full fences of a system instruction leave in its orderings (R389, R390). -/
def Lane.sysFenced (l : Lane) : Lane := l.fenced .full 4 []

/-- The part with those fences for the lanes of an issue. -/
def State.sysFence (n : State) (c : Issue) (run : List Nat) : State := run.foldl (fun s k => s.addFence c.wid k .full 4 []) n

/-- A lane held in a system instruction. -/
def Lane.owesSys (i : Instr) (c : Issue) (l : Lane) : Lane := { l.await i .sys with owes := some c.pc }

/-- The outcome of a system instruction (R389, R390): it is held until what its lanes did before is performed at device scope and it need not
wait for more; then it is `done`. -/
def sysOut (i : Instr) (wait : State → Issue → Wave → List Nat → Bool) (done : State → Issue → Wave → List Nat → Option Outcome)
    (n : State) (c : Issue) (u : Wave) (run : List Nat) : Option Outcome :=
  if !n.sysReady c.wid run || wait n c u run then some { part := n, wave := u, lane := fun _ => Lane.owesSys i c, held := fun _ => true }
  else done n c u run

/-- The value that a lane reads from a system register (R388, R389). -/
def State.sysValue (n : State) (x : Fields) (u : Wave) (l : Lane) : Option Nat :=
  (n.sysName x u l false).map (fun j => if perLane (sysNum x) then (laneSysRead l (sysNum x)).toNat else n.sysRead (sysNum x) j)

/-- What SYSRD does once it is not held (R389): each lane holds the register's value in its destination. -/
def sysrdDone (x : Fields) (n : State) (_ : Issue) (u : Wave) (run : List Nat) : Option Outcome :=
  if run.any (fun k => (n.sysValue x u (u.lane k)).isNone) then none
  else
    some { part := n, wave := u, lane := fun k l => l.sysFenced.write x.dst.toNat 2 ((n.sysValue x u (u.lane k)).getD 0) }

/-- What SYSWR does once it is not held (R388, R389): a lane's own register is written by each lane; another register by the lowest, with what
that write does to the part. It is given here when the write changes no wave and resets nothing. -/
def syswrDone (x : Fields) (n : State) (c : Issue) (u : Wave) (run : List Nat) : Option Outcome :=
  let k := run.headD 0
  let val (j : Nat) : Nat := (u.lane j).read x.sa.toNat 2
  let m := n.sysFence c run
  let r := m.sysWrite (sysNum x) ((n.sysName x u (u.lane k) true).getD 0) (val k) (u.lane k).level.toNat u.vi
  if run.any (fun j => (n.sysName x u (u.lane j) true).isNone) then none
  else if perLane (sysNum x) then
    some { part := n, wave := u, lane := fun j l => laneSysWrite l.sysFenced (sysNum x) (dw (val j)) }
  else if r.2 = false ∨ sysNum x = 0x401 ∨ r.1.waves ≠ m.waves then none
  else some { part := r.1, wave := u, lane := fun _ => Lane.sysFenced }

/-- What a SYSOP does once it is not held: what `eff` makes of the part, given here when that changes no wave. -/
def sysopDone (eff : Eff) (n : State) (c : Issue) (u : Wave) (run : List Nat) : Option Outcome :=
  let m := n.sysFence c run
  if (eff m c u run).s.waves = m.waves then some { part := (eff m c u run).s, wave := u, lane := fun _ => Lane.sysFenced } else none

/-- The outcome of BANKREQ for an interface that may switch banks (R292): the refused and the started switches stand in its destination at once when
none started; else the lanes are held until they end. It is given here when that changes no wave. -/
def bankreqOut (x : Fields) (n : State) (_ : Issue) (u : Wave) (run : List Nat) : Option Outcome :=
  let l := u.lane (run.headD 0)
  let base := 8 * posInCluster u.core
  let r := n.askBanks (clusterOf u.core) base (opA (.bankreq x) u l)
  let value := bankMask r.2.2 * 256 + bankMask r.2.1
  let dst := wKey l.level x.dst.toNat
  if r.1.waves ≠ n.waves then none
  else if r.2.1.isEmpty then some { part := r.1, wave := { u with w := put u.w dst (dw value), we := del u.we dst } }
  else some (holdOutcome (.bankreq x) r.1 u (.banks (clusterOf u.core) (r.2.1.map (fun b => base + b)) dst value))

/-- The outcome of END outside pixel-ordered sections, in a launched wave of which another lane is live, while no barrier is open and no lane's
issuer is in a handler that discarded its versions, nor a lane has a trap due that is recorded (R37, R255, R327, R402): each active lane has
ended, and its pending register fills are discarded. -/
def endOut (n : State) (c : Issue) (u : Wave) (run : List Nat) : Option Outcome :=
  if run.any (fun k => (u.lane k).inside) then none
  else if u.kind = .launched ∧ n.barriers = [] ∧ (u.idx.any (fun k => !run.contains k && (u.lane k).live)) = true ∧
      run.all (fun k => !n.fragmentHeld c.wid k && (u.lane k).lateDue.isEmpty && (n.issuer? (u.lane k).item).all (fun i => !i.trapped.contains k)) = true then
    some { part := run.foldl (fun m k => m.dropFills c.wid k) n, wave := u, lane := fun _ l => { l.atEnd with due := [] }, held := fun _ => true }
  else none

/-- An instruction that traps on its active lanes (R254): the other lanes of the group go on, and then the traps are raised together. -/
def TrapResult (i : Instr) (trap : Trap) : Prop :=
  ∀ (s : State) (c : Issue) (w : Wave), s.Issues c w i → s.earlyTraps c w i = [] →
    ∃ n, exec i s = .next (n.raiseTraps c.wid c.pc ((s.activeLanes c w i).map (fun k => (k, trap)))) ∧
      s.taken.GoesOn c.wid (s.noted c w i)
        (fun k => if k ∈ s.activeLanes c w i then (s.noted c w i).lane k else s.onward c w i k ((s.noted c w i).lane k)) n

/-- Lanes of a wave held together. -/
def Wave.holding (u : Wave) (i : Instr) (run : List Nat) (x : Wait) : Wave := run.foldl (fun v k => v.modLane k (Lane.await i x)) u

/-- The barrier instance that lanes join, and the part with their arrival (R249); the first lane opens it and starts its time (R82). -/
def State.joinedBarrier (n : State) (b : Barrier) (wid : Nat) (run : List Nat) : Nat × State :=
  match n.findBarrier b with
  | some (id, x) => (id, { n with barriers := put n.barriers id { x with arrived := x.arrived ++ run.map (fun k => (wid, k)) } })
  | none =>
    (n.nid, { n with nid := n.nid + 1,
                     barriers := put n.barriers n.nid { b with start := n.gt, arrived := run.map (fun k => (wid, k)) } })

/-- The outcome of BAR outside pixel-ordered sections, when no lane passes a barrier of an earlier run (R249 to R251): the lanes have arrived; while
no barrier is complete they are held in it, and else it is as the completion of barriers leaves it. -/
def barOut (i : Instr) (n : State) (c : Issue) (u : Wave) (run : List Nat) : Option Outcome :=
  let b := n.barrierOf i c u
  let id := (n.joinedBarrier b c.wid run).1
  let m := (n.joinedBarrier b c.wid run).2
  let held := m.setWave c.wid (u.holding i run (.barrier id))
  if run.any (fun k => (u.lane k).inside || u.barPassed b k) then none
  else if held.barriers.any (fun x => held.barrierFull x.2) then none
  else some (holdOutcome i m u (.barrier id))

/-- BAR when its arrival completes a barrier: the answer is what the completion of barriers makes of the part with the lanes arrived. -/
def BarrierResult (i : Instr) : Prop :=
  ∀ (s : State) (c : Issue) (w : Wave), s.Issues c w i → s.earlyTraps c w i = [] → s.activeLanes c w i ≠ [] →
    let n := s.issued c w i
    let u := s.noted c w i
    let run := s.activeLanes c w i
    let b := n.barrierOf i c u
    run.any (fun k => (u.lane k).inside || u.barPassed b k) = false →
    exec i s = .next ((⟨((n.joinedBarrier b c.wid run).2.setWave c.wid (u.holding i run (.barrier (n.joinedBarrier b c.wid run).1))).settleBarriers,
      [], run⟩ : Done).close c.wid (wordsOf i) c.pc (s.group c.wid w c i))

/-- A lane with a list operation on its way: the quad of its destination is empty until it is performed, and the lane is held when its own
trap is still to be decided. -/
def listSent (i : Instr) (m : State) (g : GfxReq) : Turn :=
  { part := { m with nid := m.nid + 1, gfx := put m.gfx m.nid g }, lane := g.start (wordsOf i) m.nid, held := g.waits }

/-- The turn of a lane in FLI (R361): its request is on its way, and the quad of its destination is empty until it is performed. -/
def fliTurn (i : Instr) (s : State) (c : Issue) (u : Wave) (m : State) (k : Nat) : Option Turn :=
  let l := u.lane k
  let px := opA i u l % 2 ^ 32
  let depth := opB i u l % 2 ^ 32
  (m.passOf u.vi (handleOf i u l)).bind fun x =>
    if x.2.badPixel px ∨ exNan (fp32.val depth) = true ∨ (x.2.mayMerge l = false ∧ (fieldsOf i).w2.getLsbD 8 = false) then none
    else
      some (listSent i m (fliAsk i s.nid c u k x.1 x.2))

/-- The turn of a lane in FLW (R364). -/
def flwTurn (i : Instr) (s : State) (c : Issue) (u : Wave) (m : State) (k : Nat) : Option Turn :=
  let l := u.lane k
  let px := opA i u l % 2 ^ 32
  (m.passOf u.vi (handleOf i u l)).bind fun x =>
    if x.2.badPixel px then none
    else
      some (listSent i m (flwAsk i s.nid c u k x.1 x.2))

/-- A lane held in a ray that is on its way. -/
def rayHeld (i : Instr) (m : State) (g : GfxReq) : Turn :=
  { part := { m with nid := m.nid + 1, gfx := put m.gfx m.nid g }, lane := Lane.await i (.held m.nid), held := true }

/-- The turn of a lane in RAYQ (R367, R368): it is held until its ray has its answer. -/
def rayqTurn (i : Instr) (s : State) (c : Issue) (u : Wave) (m : State) (k : Nat) : Option Turn :=
  if (u.rw (u.lane k).level (fieldsOf i).sb.toNat).toNat % 64 ≠ 0 then none else some (rayHeld i m (rayAsk i false s.nid c u k))

/-- The turn of a lane in RAYQ.APP (R367, R369). -/
def rayqAppTurn (i : Instr) (s : State) (c : Issue) (u : Wave) (m : State) (k : Nat) : Option Turn :=
  let px := ((u.lane k).rv (fieldsOf i).sc.toNat).toNat
  if (u.rw (u.lane k).level (fieldsOf i).sb.toNat).toNat % 64 ≠ 0 then none
  else
    (m.passOf u.vi (handleOf i u (u.lane k))).bind fun x =>
      if x.2.merge = 3 ∨ x.2.badPixel px = true then none
      else some (rayHeld i m { rayAsk i true s.nid c u k with pass := x.1, pixel := BitVec.ofNat 32 px })

/-- A lane that enters its section in the part m, after the accesses before (R357, R359). -/
def Lane.entered (m : State) (vi : Nat) (before : List Nat) (l : Lane) : Lane :=
  let due := if m.ordto vi = 0 then 0 else m.gt + m.ordto vi
  Lane.fenced { l with ord := l.ord.map (fun o => { o with inside := true, since := m.gt, due := due }) } .acq 4 before

/-- The turn of a lane in ORD.ENTER (R357, R359): a fragment's lane before its section enters it, with a device-scope acquire, when no earlier
fragment that overlaps it is still out; else it waits. -/
def ordEnterTurn (i : Instr) (_ : State) (c : Issue) (u : Wave) (m : State) (k : Nat) : Option Turn :=
  if u.kind ≠ .fragment then none
  else
    (u.lane k).ord.bind fun o =>
      if o.inside ∨ o.left then none
      else if (m.ordBlockers u.pass o).isEmpty then
        some {
          part := if (m.opsOf [(c.wid, k)]).isEmpty then m
            else m.withOp { act := .fence .acq, vi := u.vi, wid := c.wid, lane := k, core := u.core, scope := 4,
                              before := (m.opsOf [(c.wid, k)]).map (fun j => (4, j)) }
          lane := Lane.entered m u.vi (m.opsOf [(c.wid, k)])
          held := false }
      else some { part := m, lane := Lane.await i (.ordEnter (m.deadline u.vi)), held := true }

/-- The outcome of a DRAW that passes its checks (R351): its request is made, and its lanes are held until every record is read; with a full
queue, outside pixel-ordered sections. -/
def drawOut (x : Fields) (n : State) (c : Issue) (u : Wave) (run : List Nat) : Option Outcome :=
  let l := u.lane (run.headD 0)
  if (u.rw l.level x.sa.toNat).toNat % 16 ≠ 0 then none
  else
    (n.passOf u.vi (u.rw l.level x.dst.toNat).toNat).bind fun y =>
      let a := drawAsk n x c u run y.1
      if (y.2.drawTrap a).isSome ∨ 64 ≤ y.2.draws.length ∧ run.any (fun k => (u.lane k).inside) = true then none
      else some (holdOutcome (.draw x) { n with nid := n.nid + 1, gfxAsks := put n.gfxAsks n.nid a } u (.graphics a.due))

/-- The closing of an issue whose instruction says itself which of its lanes do not go on. -/
def State.closing1 (s : State) (c : Issue) (w : Wave) (i : Instr) (stay : List Nat) (m : State) : State :=
  (⟨m, [], stay⟩ : Done).close c.wid (wordsOf i) c.pc (s.group c.wid w c i)

/-- What an instruction does at once, whatever becomes of other waves: when `ok` holds of the part, the wave and the active lanes, the answer is
the closing of the part that `act` gives, whose lanes in `act`'s list do not go on. -/
def EffectResult (i : Instr) (ok : State → Issue → Wave → List Nat → Bool) (act : State → Issue → Wave → List Nat → State × List Nat) : Prop :=
  ∀ (s : State) (c : Issue) (w : Wave), s.Issues c w i → s.earlyTraps c w i = [] → s.activeLanes c w i ≠ [] →
    ok (s.issued c w i) c (s.noted c w i) (s.activeLanes c w i) = true →
    exec i s = .next (s.closing1 c w i (act (s.issued c w i) c (s.noted c w i) (s.activeLanes c w i)).2
      (act (s.issued c w i) c (s.noted c w i) (s.activeLanes c w i)).1)

/-- No active lane is inside its pixel-ordered section. -/
def allOutside (_ : State) (_ : Issue) (u : Wave) (run : List Nat) : Bool := !run.any (fun k => (u.lane k).inside)

/-- What END does (R37, R255): its lanes end one after another, and the last lane of a wave that ends retires it. -/
def endAct (n : State) (c : Issue) (u : Wave) (run : List Nat) : State × List Nat :=
  (run.foldl (fun s k => (s.settleDisc (u.lane k).item k c.wid false).endLane c.wid k) n, run)

/-- What MREL does when no operation names its resources (R301): the wave's are free, and claims and armings that wait for them are served. -/
def mrelAct (x : Fields) (n : State) (c : Issue) (u : Wave) (_ : List Nat) : State × List Nat :=
  ((n.freeMatrix c.wid u (w2f x 4 0)).settleMatrix u.core, [])

/-- What BANKREQ does (R128, R129, R292): the switches it asks for, whose banks' lanes in flight take the bank-mode fault where one leaves FIFO mode;
its destination is written at once when none started, and else its lanes wait for them. -/
def bankreqAct (x : Fields) (n : State) (c : Issue) (u : Wave) (run : List Nat) : State × List Nat :=
  let l := u.lane (run.headD 0)
  let base := 8 * posInCluster u.core
  let dst := wKey l.level x.dst.toNat
  match n.askBanks (clusterOf u.core) base (opA (.bankreq x) u l) with
  | (m, started, refused) =>
    let value := bankMask refused * 256 + bankMask started
    if started.isEmpty then (m.modWave c.wid (fun w => { w with w := put w.w dst (dw value), we := del w.we dst }), [])
    else
      (run.foldl (fun s k => s.waitLane c.wid (wordsOf (.bankreq x)) k (.banks (clusterOf u.core) (started.map (fun b => base + b)) dst value)) m,
       run)

/-- A system instruction is not held, and every active lane may write the register (R388, R389). -/
def syswrFree (x : Fields) (n : State) (c : Issue) (u : Wave) (run : List Nat) : Bool :=
  n.sysReady c.wid run && !perLane (sysNum x) && run.all (fun k => (n.sysName x u (u.lane k) true).isSome)

/-- The write of SYSWR to a register that is not a lane's own: by the lowest lane, with all that it does to the part (R389). -/
def syswrWrite (x : Fields) (n : State) (c : Issue) (u : Wave) (run : List Nat) : State × Bool :=
  let k := run.headD 0
  (n.sysFence c run).sysWrite (sysNum x) ((n.sysName x u (u.lane k) true).getD 0) ((u.lane k).read x.sa.toNat 2) (u.lane k).level.toNat u.vi

/-- What SYSWR does when that write is let through; the warm reset that SYS.RUN asks for leaves no lane to go on. -/
def syswrAct (x : Fields) (n : State) (c : Issue) (u : Wave) (run : List Nat) : State × List Nat :=
  ((syswrWrite x n c u run).1, if sysNum x = 0x401 ∧ bit ((u.lane (run.headD 0)).read x.sa.toNat 2) 8 = true then List.range 64 else [])

/-- What ERET does for lanes in handlers (R391, R402): they return one after another. -/
def eretAct (n : State) (c : Issue) (_ : Wave) (run : List Nat) : State × List Nat :=
  (run.foldl (fun s k => s.eretLane c.wid k) n, run)

/-- An engine instruction of one active lane whose posting passes steps 1 to 7 of R321, outside pixel-ordered sections, while no lower lane of
its issue has still to post: the answer is the part with the command taken (its lines recalled, its destination words empty, and the command
in its queue when there is room). -/
def PostResult (i : Instr) : Prop :=
  ∀ (s : State) (c : Issue) (w : Wave) (k : Nat) (v : Wave) (m : State) (cmd : Cmd),
    s.Issues c w i → s.earlyTraps c w i = [] → s.activeLanes c w i = [k] →
    let u := s.noted c w i
    let p := postingOf i c u (s.issued c w i).nid k
    let n := ((s.issued c w i).openGroup i c u [k]).withPosting p
    n.wave? c.wid = some v → (v.lane k).inside = false → n.postsLater p = false → n.tryPost p v = (m, .ready cmd) →
    exec i s = .next (s.closing1 c w i [k] (m.takeCommand cmd))

/-- An RPASS that passes its checks while a slot of its partition is free (R346): the answer is the part with the pass open, and its handle in the
wave register DST. -/
def PassResult (i : Instr) : Prop :=
  ∀ (s : State) (c : Issue) (w : Wave) (v : Wave) (m t : State) (p : Pass) (slot : Nat),
    s.Issues c w i → s.earlyTraps c w i = [] → s.activeLanes c w i ≠ [] →
    let run := s.activeLanes c w i
    let a := passAsk i c (s.noted c w i) run
    let n := (s.issued c w i).askPass i c (s.noted c w i) run
    n.wave? c.wid = some v → n.checkPass a v = (m, .ready p) →
    (List.range 16).find? (fun k => !has m.passes (16 * p.part + k)) = some slot →
    m.openPass (s.issued c w i).nid a v p slot = (t, none) →
    exec i s = .next (s.closing1 c w i run t) ∧
      ∃ q, look t.passes (16 * p.part + slot) = some q ∧ q = { p with gen := q.gen, pri := q.pri, opener := q.opener }

/-- ORD.LEAVE of one lane inside its section, when all that its release covers is visible at device scope (R357): the answer is the part with
the section left. -/
def SectionLeft (i : Instr) : Prop :=
  ∀ (s : State) (c : Issue) (w : Wave) (k : Nat), s.Issues c w i → s.earlyTraps c w i = [] → s.activeLanes c w i = [k] →
    w.kind = .fragment → (w.lane k).inside = true → (s.issued c w i).mayLeave c.wid k = true →
    exec i s = .next (s.closing1 c w i [] ((s.issued c w i).leaveSection c.wid k))

/-- The parts of the state that only memory, scratchpad and queue accesses change are the same in two states. -/
def State.SameStores (s t : State) : Prop := t.mem = s.mem ∧ t.spad = s.spad ∧ t.fifo = s.fifo ∧ t.poison = s.poison

/-- The number of a second source of n registers: its registers, or the low bits of the literal that stands for it (R173). -/
def Lane.bValue (l : Lane) (x : Fields) (n : Nat) : Nat :=
  if hasLit x.form then (litOf x.form).toNat % 2 ^ (32 * n) else l.read x.sb.toNat n

/-- The lane registers that an operand field names (R96, R174). -/
def Opd.laneRegs (o : Opd) (f : BitVec 8) : List Nat :=
  match o with
  | .v _ n => (List.range n).map (fun k => f.toNat + k)
  | .zero | .w | .k | .kd | .t | .lvl => []

/-- The lane registers that an instruction names (R40, R259, R305, R367). -/
def laneRegsNamed (i : Instr) : List Nat :=
  (descForm i).dst.laneRegs (fieldsOf i).dst ++ (descForm i).a.laneRegs (fieldsOf i).sa ++
  (if hasLit (fieldsOf i).form then [] else (descForm i).b.laneRegs (fieldsOf i).sb) ++ (descForm i).c.laneRegs (fieldsOf i).sc ++
  (match i with
   | .spawn true y => (List.range 8).map (fun k => w2f y 7 0 + k)
   | .mma mf y => if y.w2.getLsbD 31 then [] else (List.range (32 * mfBytes mf)).map (fun k => w2f y 15 8 + k)
   | .mmas mf y => if y.w2.getLsbD 31 then [] else (List.range (32 * mfBytes mf)).map (fun k => w2f y 15 8 + k)
   | .mmai mf y => if y.w2.getLsbD 31 then [] else (List.range (32 * mfBytes mf)).map (fun k => w2f y 15 8 + k)
   | _ => [])

end Sys2Proof.Machine
end

