-- ==== Sys2Proof/Certificates/Slice0/Obligations.lean ====
section
/-! DEFINITION. Obligations of the model, stated from the numbered rules of the manual. The shapes of the conclusions (LaneResult,
TurnResult, OutcomeResult and the rest) are in Sys2Proof/Safety.lean: each says that the instruction answers a next state, and which. -/
open Sys2Proof Sys2Proof.Machine Host

/-- A step runs the decoded instruction of the issue at the head of the cycle. When the head of the cycle's issues has lanes that
are all at its PC and can run, and the words at that PC (through the user mapping for user lanes, through the supervisor mapping
for the others, or from a solo lane's buffer) decode to a well-formed instruction i, the step is exec of i at the state with the
issue as the current one and the loop buffers filled, unless that would stop a lane of a SPAWN that is not decided: then the
decision comes first (R261), and unless it makes an access of the part itself that has to wait for a page or line: then the step
does not come about and the part goes on with the reclassification started (log entry 145); the last clauses say both. Words
that decode to no well-formed instruction run the illegal-instruction meaning. The model executes one issue of a cycle per step
(log entry 4). (R68, R69, R73, R190, R261, R434.) -/
def Obligations.StepRunsTheIssuedInstruction : Prop :=
  (∀ (s n : State) (c : Issue) (rest : List Issue) (w : Wave) (ws : List Word) (i : Instr) (level : BitVec 2),
    s.issues = c :: rest → c.solo = false → c.lanes ≠ [] → s.wave? c.wid = some w →
    (∀ k ∈ c.lanes, (w.lane k).live = true ∧ (w.lane k).pc = c.pc ∧ (w.lane k).wait = .run) →
    (level = 0 ∧ (∀ k ∈ c.lanes, (w.lane k).level = 0) ∨ level = 1 ∧ (∀ k ∈ c.lanes, (w.lane k).level ≠ 0)) →
    ({ s with issues := rest, stall := none } : State).fetchInstr w level c.pc.toNat = (n, .ok ws) → decode ws = .ok i → WellFormed i = true →
    step s = ({ s with issues := rest, stall := none } : State).settle (s.afterSpawns (exec i { n.fillBuffers c i ws with cur := some c }))) ∧
  (∀ (s : State) (c : Issue) (rest : List Issue) (w : Wave) (k : Nat) (ws : List Word) (i : Instr),
    s.issues = c :: rest → c.solo = true → c.lanes = [k] → s.wave? c.wid = some w →
    (w.lane k).live = true → (w.lane k).pc = c.pc → (w.lane k).wait = .run →
    (w.lane k).bufWords c.pc.toNat = some ws → decode ws = .ok i → WellFormed i = true →
    step s = ({ s with issues := rest, stall := none } : State).settle
      (s.afterSpawns (exec i { ({ s with issues := rest, stall := none } : State).fillBuffers c i ws with cur := some c }))) ∧
  (∀ ws : List Word, (∀ i, decode ws = .ok i → WellFormed i = false) → instrOf ws = .illegalInstruction) ∧
  (∀ s t : State, s.lostSpawn t = none → s.afterSpawns (.next t) = .next t) ∧
  (∀ (s t : State) (id : Nat), s.lostSpawn t = some id → s.afterSpawns (.next t) = exec .spawnDecision { s with occ := { id := id } }) ∧
  (∀ s t : State, s.spawns = [] → s.lostSpawn t = none) ∧
  (∀ b t : State, t.stall = none → b.settle (.next t) = .next t) ∧
  (∀ (b t : State) (a : Nat) (x : Transit), t.stall = some a → look t.transit a = some x →
    b.settle (.next t) = .next { b with stall := some a, transit := put b.transit a x }) ∧
  (∀ (b t : State) (a : Nat), t.stall = some a → look t.transit a = none → b.settle (.next t) = .next { b with stall := some a })

/-- With no issue left, a step performs the next event, or advances GT by one; without power only a cold reset; no instruction
stops. With the part powered and no issue left in the cycle: when the model's scheduler of events (log entries 5 and 6) picks an
event, the step is exec of that event about what it is about, with the same words on undecided SPAWNs and on waiting accesses of
the part as the statement before; when it picks none, the step closes the tick and GT advances by 1 modulo 2^64. With the part
off: no input gives the fault noPower, a cold reset as the next input is performed, and any other input is dropped. For every
instruction, lane instruction or event, and every state, exec answers a next state: so noPower, which a step without power and
input alone ends in, is the model's only fault, no instruction raises it, and none is refused (log entry 9). (R31, R453, R463,
R436.) -/
def Obligations.StepWithoutAnIssue : Prop :=
  (∀ (s n : State) (e : Instr) (o : Occ), s.issues = [] → s.power = true → s.nextEvent = (n, some (e, o)) →
    step s = State.settle { s with ctr := n.ctr } (s.afterSpawns (exec e { n with occ := o, stall := none }))) ∧
  (∀ (s n : State), s.issues = [] → s.power = true → s.nextEvent = (n, none) →
    step s = .next n.tick ∧ n.tick.gt = (n.gt + 1) % 2 ^ 64) ∧
  (∀ s : State, s.issues = [] → s.power = false →
    (s.inputs = [] → step s = .fault .noPower) ∧
    (∀ o rest, s.inputs = (.coldReset, o) :: rest → step s = exec .coldReset { s with inputs := rest, occ := o }) ∧
    (∀ i o rest, s.inputs = (i, o) :: rest → i ≠ .coldReset → step s = .next { s with inputs := rest })) ∧
  (∀ (i : Instr) (s : State), ∃ t, exec i s = .next t)

/-- What the state after a cold reset holds. GT is 0, no byte of memory is listed and memory and every sparse table have their
canonical form (a byte not yet stored to reads the opaque Config.coldByte, log entry 2), no access, wave of a launch, barrier,
counter or command exists, every system register reads its "After reset" value, SYS.BOOTSTAT reports a cold reset, and the boot
wave of 8 lanes is at firmware level with v0 the lane index and every other register zero and full. The PC 0 and the registers
of the boot wave are the model's choice (log entry 1). (R453, R456, R44, R387, R411, R425, R426.) -/
def Obligations.ResetValues : Prop :=
  State.reset.gt = 0 ∧ State.reset.mem = [] ∧ State.reset.memOk = true ∧ State.reset.tablesOk = true ∧ (∀ a, State.reset.byteAt a = Config.coldByte a) ∧
  State.reset.ops = [] ∧ State.reset.fills = [] ∧ State.reset.barriers = [] ∧ State.reset.jobs = [] ∧ State.reset.issuers = [] ∧
  State.reset.tills = [] ∧ State.reset.cmds = [] ∧ State.reset.passes = [] ∧ State.reset.trapReqs = [] ∧ State.reset.versions = [] ∧
  State.reset.boot = .rom ∧ State.reset.power = true ∧
  (∀ n i, i < 256 → State.reset.sysAt n i = if n = 0x400 ∧ i = 0xFF then 1 else sysReset n i % 2 ^ 64) ∧
  (∀ i, sysReset 0x11 i = 0x3B9ACA00000F4240 ∧ sysReset 0x202 i = 0x000F424000010000 ∧ sysReset 0x206 i = 0x00989680 ∧
    sysReset 0x207 i = 0x10 ∧ sysReset 0x10 i = 0 ∧ sysReset 0x12 i = 0 ∧ sysReset 0x13 i = 0 ∧ sysReset 0x18 i = 0 ∧ sysReset 0x208 i = 0) ∧
  State.reset.waves = [(0, State.reset.waveAt 0)] ∧ (State.reset.waveAt 0).kind = .boot ∧ (State.reset.waveAt 0).core = 0 ∧
  (State.reset.waveAt 0).width = 8 ∧ (State.reset.waveAt 0).regs = 32 ∧ (State.reset.waveAt 0).lanes.length = 8 ∧
  (∀ k, k < 8 → ((State.reset.waveAt 0).lane k).level = 2 ∧ ((State.reset.waveAt 0).lane k).live = true ∧
    ((State.reset.waveAt 0).lane k).pc = 0 ∧ ((State.reset.waveAt 0).lane k).wait = .run ∧
    ∀ r, ((State.reset.waveAt 0).lane k).rv r = (if r = 0 then BitVec.ofNat 32 k else 0) ∧ ((State.reset.waveAt 0).lane k).emptyV r 1 = false) ∧
  (∀ b r, (State.reset.waveAt 0).rw b r = 0 ∧ (State.reset.waveAt 0).emptyW b r = false) ∧
  (∀ r, r ≠ 0 → (State.reset.waveAt 0).rk r = 0 ∧ (State.reset.waveAt 0).emptyK r = false)

/-- For every well-formed lane instruction, decoding its encoding gives it back. For every instruction of the 242 rows of the table
that lanes execute, with every operand, form, modifier and literal that the encoding admits, the decoder reads the words that
the encoder writes as that same instruction. So no bit of an encoding is dropped. (R168, R169, R171, R172, R189.) -/
def Obligations.EncodedInstructionsDecode : Prop :=
  ∀ i : Instr, isLane i = true → WellFormed i = true → decode (encode i) = .ok i

/-- Worked words of the manual decode to the instructions the manual gives for them. Words that the chapters write out beside an
instruction, one or more from most families, are read by the decoder as that instruction. (R168, R170, R203, R211, R240, R269,
R273.) -/
def Obligations.WorkedWordsDecode : Prop :=
  decode [0x30080806, 0x00000003, 0] = .ok (.iadd .sat .s16 { dst := 2, sa := 2, sb := 3 }) ∧
  decode [0x0010145E, 0, 0x308] = .ok (.bfx false .b32 { dst := 5, sa := 4, w2 := 0x308 }) ∧
  decode [0x60181CC2, 0x10000000, 0] = .ok (.cvtf .bf16 .f32 { dst := 7, sa := 6, rnd := 1 }) ∧
  decode [0x0420250C] = .ok (.shflxShort 1 8 9) ∧
  decode [0xFFFFE140] = .ok (.braShort 0x3FFFF8) ∧
  decode [0x28000152, 0, 0x00640006] = .ok (.loopI 2 { w2 := 0x00640006 }) ∧
  decode [0x18242182, 0x41800005, 0x10] = .ok (.ld .b16 { dst := 8, sa := 9, sb := 5, mode := 1, scope := 3, w2 := 0x10 }) ∧
  decode [0x0C2411B6, 0xC2000605, 0] = .ok (.cas .z64 { dst := 4, sa := 9, sb := 5, sc := 6, mode := 3, scope := 4 }) ∧
  decode [0x0024118A, 0x01200000, 0] = .ok (.lds .b4 { dst := 4, sa := 9, epb := true, scope := 2 }) ∧
  decode [0x040451CA, 0x00001504, 0] = .ok (.takeTry { dst := 20, sa := 1, sb := 4, sc := 21 }) ∧
  decode [0x0C1C0206, 1, 0x92000000] = .ok (.mma .bf16 { sa := 7, sb := 1, w2 := 0x92000000 }) ∧
  decode [0x00100E42, 0x00000205, 0] = .ok (.band { dst := 3, sa := 4, sb := 5, sc := 2 }) ∧
  decode [0x00241A6E, 0, 0] = .ok (.fconv { dst := 6, sa := 9 }) ∧
  decode [0x00201282, 9, 0x8000000C] = .ok (.draw { dst := 4, sa := 8, sb := 9, w2 := 0x8000000C }) ∧
  decode [0x001802C6, 0, 0x00FF0080] = .ok (.syswr { sa := 6, w2 := 0x00FF0080 })

/-- An instruction none of whose lanes is active changes nothing, and its lanes go on. For every lane instruction: when the issue is
legal and its mask leaves no lane active, it answers the next state in which nothing of the part changes but the current issue
being taken and the lanes of the issue group going on past it. (R175, R79, R201.) -/
def Obligations.MaskedLanesGoOn : Prop :=
  ∀ (i : Instr) (s : State) (c : Issue) (w : Wave), isLane i = true → s.Issues c w i → s.activeLanes c w i = [] →
    ∃ t, exec i s = .next t ∧ s.taken.GoesOn c.wid (s.noted c w i) (fun k => s.onward c w i k ((s.noted c w i).lane k)) t

/-- An illegal pattern raises the precise illegal-instruction trap on the lanes that would execute it. For every lane instruction:
when the instruction is not legal, names a lane register above the declared count, or breaks a rule checked at issue, the answer
is the state in which the lanes of the group take the trap of kind 0x02 with the PC in its information after the cycle is noted
as the last in which they issued, and nothing else happens. (R190, R178, R40.) -/
def Obligations.IllegalPatternsTrap : Prop :=
  ∀ (i : Instr) (s : State) (c : Issue) (w : Wave), isLane i = true → s.cur = some c → s.wave? c.wid = some w →
    (legal i = false ∨ declOk i w.regs = false ∨ s.issueOk w i = false) →
    exec i s = .next ((s.taken.noteIssue c.wid (s.group c.wid w c i)).raiseTraps c.wid c.pc ((s.group c.wid w c i).map (fun k => (k, { kind := 0x02, i0 := c.pc }))))

/-- A user lane that executes an opcode from 0xB0 to 0xB3 takes the privilege trap. For every instruction of the system opcodes 0xB0
to 0xB3: when every active lane is at user level, the answer is that of the issue with the trap of kind 0x03 on each active
lane, with the PC in its information. (R384, R389.) -/
def Obligations.UserLanesTrapOnSystemOpcodes : Prop :=
  ∀ (i : Instr) (s : State) (c : Issue) (w : Wave), isLane i = true → 0xB0 ≤ (descOf i).opc → (descOf i).opc ≤ 0xB3 →
    s.Issues c w i → (∀ k ∈ s.activeLanes c w i, (w.lane k).level = 0) →
    exec i s = .next ((⟨s.issued c w i, (s.activeLanes c w i).map (fun k => (k, { kind := 0x03, i0 := c.pc })), []⟩ : Done).close
      c.wid (wordsOf i) c.pc (s.group c.wid w c i))

/-- What a trap's handler entry saves and where it goes, and what ERET restores. Entering the handler gives each lane of the record
the HENTRY address, supervisor level, the in-handler bit, its PC in TPC, its level in PRV, v12 and v13 in TSV, 64 times the ring
slot in v12 and the kind in v13, and writes the ring's address to the supervisor w63; every other register keeps its value. ERET
of that lane, with a PC that is a word address, restores the PC, the level and every lane register. (R395, R391.) -/
def Obligations.HandlerEntryAndReturn : Prop :=
  (∀ (s : State) (wid : Nat) (w : Wave) (lanes : List Nat) (slot : Nat) (disc : Bool) (word0 : Nat) (at0 key : DWord) (tr : Trap),
    s.wave? wid = some w → lanes.Nodup → s.sysBits 0x12 w.vi 56 2 * 4 ≠ 0 →
    ∃ v : Wave, s.enterHandler wid lanes slot disc word0 at0 key tr = s.setWave wid v ∧
      v.rw 1 63 = dw (ringBase (s.sysAt 0x18 w.vi)) ∧ v.emptyW 1 63 = false ∧ (∀ r, r < 64 → v.rw 0 r = w.rw 0 r) ∧
      v = { w with lanes := v.lanes, w := v.w, we := v.we } ∧ v.lanes.length = w.lanes.length ∧
      ∀ k, k < w.lanes.length → v.lane k = if k ∈ lanes then
        (w.lane k).enter (w.lane k).pc slot tr.kind disc (dw (s.sysBits 0x12 w.vi 56 2 * 4)) else w.lane k) ∧
  (∀ (l : Lane) (pc entry : DWord) (slot kind : Nat) (disc : Bool),
    let m := l.enter pc slot kind disc entry
    m.pc = entry ∧ m.level = 1 ∧ m.inh = true ∧ m.disc = disc ∧ m.prv = l.level ∧ m.wait = .run ∧
    m.tpc = pc &&& 0x01FFFFFFFFFFFFFC ∧ m.tsv = dw (l.read 12 2) ∧
    m.rv 12 = BitVec.ofNat 32 (64 * slot) ∧ m.rv 13 = BitVec.ofNat 32 kind ∧ m.emptyV 12 2 = false ∧
    (∀ r, r ≠ 12 → r ≠ 13 → m.rv r = l.rv r ∧ m.emptyV r 1 = l.emptyV r 1) ∧
    m = { l with pc := entry, level := 1, inh := true, disc := disc, prv := l.level, wait := .run, tpc := m.tpc, tsv := m.tsv,
                 v := m.v, ve := m.ve }) ∧
  (∀ (l : Lane) (pc entry : DWord) (slot kind : Nat), pc.toNat % 4 = 0 → pc.toNat < 2 ^ 57 → (l.level = 0 ∨ l.level = 1) →
    let m := (l.enter pc slot kind false entry).eret
    m.pc = pc ∧ m.level = l.level ∧ m.inh = false ∧ m.wait = .run ∧ ∀ r, m.rv r = l.rv r)

/-- A store that becomes visible at device scope changes exactly the bytes it stores to. When a plain store of one lane that no
pending store and no access of another size touches, of an interface with no open pass, becomes visible at its home slice, every
byte from its physical address on, for its size, reads the stored data in little-endian order, and every other byte of memory
reads as before. (R143, R137.) -/
def Obligations.PerformedStoreChangesItsBytes : Prop :=
  ∀ (s : State) (o : Op), look s.ops s.occ.id = some o → s.storeDue s.occ.id o 4 = true → s.occ.n = 4 → o.act = .store → o.outside = false →
    s.groupOf s.occ.id o = [(s.occ.id, o)] → s.mixedWith s.occ.id o = [] → o.torn = [] → (∀ p ∈ s.passes, p.2.vi ≠ o.vi) →
    ∃ t, exec .homeSliceStore s = .next t ∧
      ∀ a, t.byteAt a = if o.pa ≤ a ∧ a < o.pa + o.size then BitVec.ofNat 8 (o.data / 2 ^ (8 * (a - o.pa))) else s.byteAt a

/-- AND, OR, XOR and NOT write the bitwise function of their full width and set no flags. For every form of the four instructions:
the opcode and SUB, the short forms, the literal slot, and the value that each active lane writes, with no flags raised and
nothing else changed. (R208.) -/
def Obligations.BitwiseLogic : Prop :=
  (∀ wd x, (descExt (.and wd x)).opc = 0x0C ∧ (descExt (.or wd x)).opc = 0x0D ∧ (descExt (.xor wd x)).opc = 0x0E ∧
    (descExt (.not wd x)).opc = 0x0F ∧
    ∀ i ∈ [Instr.and wd x, .or wd x, .xor wd x, .not wd x], (descExt i).sub = (match wd with | .b32 => 0 | .b64 => 1)) ∧
  (∀ wd x, (descExt (.not wd x)).lit = .no ∧ (descExt (.and wd x)).lit = .sb ∧
    (descExt (.or wd x)).lit = .sb ∧ (descExt (.xor wd x)).lit = .sb) ∧
  (∀ a d, encode (.notShort a d) = [baseWord 0 a d 0x0F 0]) ∧
  (∀ b a d, LaneResult (.andShort b a d) (fun w k => (((w.lane k).rv a.toNat &&& (w.lane k).rv b.toNat).toNat, 0))) ∧
  (∀ b a d, LaneResult (.orShort b a d) (fun w k => (((w.lane k).rv a.toNat ||| (w.lane k).rv b.toNat).toNat, 0))) ∧
  (∀ b a d, LaneResult (.xorShort b a d) (fun w k => (((w.lane k).rv a.toNat ^^^ (w.lane k).rv b.toNat).toNat, 0))) ∧
  (∀ a d, LaneResult (.notShort a d) (fun w k => ((~~~ (w.lane k).rv a.toNat).toNat, 0))) ∧
  (∀ wd x, LaneResult (.and wd x) (fun w k => ((w.lane k).read x.sa.toNat (wdRegs wd) &&& (w.lane k).bValue x (wdRegs wd), 0))) ∧
  (∀ wd x, LaneResult (.or wd x) (fun w k => ((w.lane k).read x.sa.toNat (wdRegs wd) ||| (w.lane k).bValue x (wdRegs wd), 0))) ∧
  (∀ wd x, LaneResult (.xor wd x) (fun w k => ((w.lane k).read x.sa.toNat (wdRegs wd) ^^^ (w.lane k).bValue x (wdRegs wd), 0))) ∧
  (∀ wd x, LaneResult (.not wd x) (fun w k => (2 ^ (32 * wdRegs wd) - 1 - (w.lane k).read x.sa.toNat (wdRegs wd), 0)))

/-- POPC, CLZ and BREV count and reverse bits. For every form of the three instructions: the opcode, the class of the destination,
and the value that each active lane writes; POPC is the number of set bits, CLZ the number of leading zero bits (n for zero),
BREV moves bit k to bit n - 1 - k. (R210.) -/
def Obligations.BitCounts : Prop :=
  (∀ wd x, (descExt (.popc wd x)).opc = 0x14 ∧ (descExt (.clz wd x)).opc = 0x15 ∧ (descExt (.brev wd x)).opc = 0x16 ∧
    dstRegs (.popc wd x) = 1 ∧ dstRegs (.clz wd x) = 1 ∧ dstRegs (.brev wd x) = wdRegs wd) ∧
  (∀ a d, encode (.popcShort a d) = [baseWord 0 a d 0x14 0] ∧ encode (.clzShort a d) = [baseWord 0 a d 0x15 0] ∧
    encode (.brevShort a d) = [baseWord 0 a d 0x16 0]) ∧
  (∀ wd x, LaneResult (.popc wd x) (fun w k => (popcount ((w.lane k).read x.sa.toNat (wdRegs wd)) (32 * wdRegs wd), 0))) ∧
  (∀ wd x, LaneResult (.clz wd x) (fun w k => (leadingZeros ((w.lane k).read x.sa.toNat (wdRegs wd)) (32 * wdRegs wd), 0))) ∧
  (∀ wd x, LaneResult (.brev wd x) (fun w k => (reverseBits ((w.lane k).read x.sa.toNat (wdRegs wd)) (32 * wdRegs wd), 0))) ∧
  (∀ a d, LaneResult (.popcShort a d) (fun w k => (popcount ((w.lane k).rv a.toNat).toNat 32, 0))) ∧
  (∀ a d, LaneResult (.clzShort a d) (fun w k => (leadingZeros ((w.lane k).rv a.toNat).toNat 32, 0))) ∧
  (∀ a d, LaneResult (.brevShort a d) (fun w k => (reverseBits ((w.lane k).rv a.toNat).toNat 32, 0))) ∧
  (∀ x n : Nat, popcount x n = ((List.range n).filter (fun k => bit x k)).length) ∧
  (∀ x n : Nat, leadingZeros x n ≤ n ∧ (∀ k, n - leadingZeros x n ≤ k → k < n → bit x k = false) ∧
    (leadingZeros x n < n → bit x (n - 1 - leadingZeros x n) = true)) ∧
  (∀ n : Nat, leadingZeros 0 n = n) ∧
  (∀ x n k : Nat, k < n → bit (reverseBits x n) (n - 1 - k) = bit x k)

/-- LEA adds a scaled index to a pair modulo 2^64. For every scale and the short form: each active lane writes the pair (pair a + b
x scale) mod 2^64, with no flags raised and no address checked. (R214.) -/
def Obligations.AddressesAreScaled : Prop :=
  (∀ xs x, (descExt (.lea xs x)).opc = 0x1B ∧
    (descExt (.lea xs x)).sub = (match xs with | .x1 => 0 | .x2 => 1 | .x4 => 2 | .x8 => 3 | .x16 => 4) ∧
    (descExt (.lea xs x)).dst = .v 2 2 ∧ (descExt (.lea xs x)).a = .v 2 2 ∧ (descExt (.lea xs x)).b = .v 1 1 ∧ (descExt (.lea xs x)).lit = .no) ∧
  (∀ xs x, LaneResult (.lea xs x) (fun w k =>
    (((w.lane k).read x.sa.toNat 2 + (w.lane k).bValue x 1 * (match xs with | .x1 => 1 | .x2 => 2 | .x4 => 4 | .x8 => 8 | .x16 => 16)) % 2 ^ 64, 0))) ∧
  (∀ b a d, LaneResult (.leaShort b a d) (fun w k => (((w.lane k).read a.toNat 2 + ((w.lane k).rv b.toNat).toNat) % 2 ^ 64, 0)))

/-- IABS and INEG wrap or saturate at the most negative value. For every signed type: variant 0 writes |a| or -a wrapped, so that
the most negative value maps to itself with no flag; variant 1 writes the maximum of the type and raises SAT for that input. An
unsigned type is illegal. (R207.) -/
def Obligations.AbsoluteValueAndNegation : Prop :=
  (∀ v ty x, (descExt (.iabs v ty x)).opc = 0x0A ∧ (descExt (.ineg v ty x)).opc = 0x0B ∧
    (descExt (.iabs v ty x)).sub = 8 * (match v with | .wrap => 0 | .sat => 1) + tyCode ty ∧
    (descExt (.ineg v ty x)).sub = 8 * (match v with | .wrap => 0 | .sat => 1) + tyCode ty) ∧
  (∀ v ty x, tySigned ty = false → legal (.iabs v ty x) = false ∧ legal (.ineg v ty x) = false) ∧
  (∀ a d, encode (.iabsShort a d) = [baseWord 0 a d 0x0A 0] ∧ encode (.inegShort a d) = [baseWord 0 a d 0x0B 0]) ∧
  (∀ ty x, tySigned ty = true →
    LaneResult (.iabs .wrap ty x) (fun w k => (tyPut ty (tyVal ty ((w.lane k).read x.sa.toNat (tyRegs ty))).natAbs, 0)) ∧
    LaneResult (.ineg .wrap ty x) (fun w k => (tyPut ty (-tyVal ty ((w.lane k).read x.sa.toNat (tyRegs ty))), 0)) ∧
    LaneResult (.iabs .sat ty x) (fun w k =>
      if tyVal ty ((w.lane k).read x.sa.toNat (tyRegs ty)) = tyMin ty then (tyPut ty (tyMax ty), fSAT)
      else (tyPut ty (tyVal ty ((w.lane k).read x.sa.toNat (tyRegs ty))).natAbs, 0)) ∧
    LaneResult (.ineg .sat ty x) (fun w k =>
      if tyVal ty ((w.lane k).read x.sa.toNat (tyRegs ty)) = tyMin ty then (tyPut ty (tyMax ty), fSAT)
      else (tyPut ty (-tyVal ty ((w.lane k).read x.sa.toNat (tyRegs ty))), 0)) ∧
    tyVal ty (tyPut ty (-tyMin ty)) = tyMin ty)

/-- Masks hold one bit per lane below the wave width, k0 reads all ones, and an empty mask in KM blocks. A write to k1 to k7 keeps
the bits below the width and fills the mask, leaving the others alone; k0 reads as ones, is always full and ignores writes; an
instruction that no rule refuses at issue and whose KM names an empty mask is ready on no lane, so that its group is empty.
(R175.) -/
def Obligations.MasksAreWaveWide : Prop :=
  (∀ (w : Wave) (r k : Nat) (x : DWord), r ≠ 0 → k < 64 →
    bit ((w.wk r x).rk r).toNat k = (decide (k < w.width) && bit x.toNat k)) ∧
  (∀ (w : Wave) (k : Nat), k < w.width → k < 64 → bit (w.rk 0).toNat k = true) ∧
  (∀ (w : Wave) (x : DWord), w.emptyK 0 = false ∧ w.wk 0 x = w) ∧
  (∀ (w : Wave) (r : Nat) (x : DWord), r ≠ 0 → (w.wk r x).emptyK r = false ∧
    ∀ j, j ≠ r → (w.wk r x).rk j = w.rk j ∧ (w.wk r x).emptyK j = w.emptyK j) ∧
  (∀ (w : Wave) (r id : Nat), r ≠ 0 → ({ w with ke := put w.ke r id } : Wave).emptyK r = true) ∧
  (∀ (s : State) (wid : Nat) (w : Wave) (i : Instr) (k : Nat), s.issueLegal w i = true → w.emptyK (fieldsOf i).km.toNat = true →
    s.ready wid w i k = false) ∧
  (∀ (s : State) (c : Issue) (w : Wave) (i : Instr), s.issueLegal w i = true → w.emptyK (fieldsOf i).km.toNat = true → s.group c.wid w c i = [])

/-- KOP, KMOV and KPOPC work on whole masks. The encodings, the illegal destinations, and what the wave holds after each: the
bitwise function of two masks, a copied mask, a mask in a wave register, and the number of set bits below the width, which for
k0 is the width. (R234, R235.) -/
def Obligations.MaskOperations : Prop :=
  (∀ op x, (descExt (.kop op x)).opc = 0x47 ∧
    (descExt (.kop op x)).sub = (match op with | .and => 0 | .or => 1 | .xor => 2 | .andn => 3 | .not => 4) ∧
    (descExt (.kop op x)).waveLevel = true) ∧
  (∀ x, (descExt (.kmov false x)).opc = 0x48 ∧ (descExt (.kmov false x)).sub = 0 ∧ (descExt (.kmov true x)).opc = 0x48 ∧
    (descExt (.kmov true x)).sub = 1 ∧ (descExt (.kpopc x)).opc = 0x49 ∧ (descExt (.kpopc x)).sub = 0 ∧
    (descExt (.kmov false x)).waveLevel = true ∧ (descExt (.kmov true x)).waveLevel = true ∧ (descExt (.kpopc x)).waveLevel = true) ∧
  (∀ op x, x.dst = 0 → legal (.kop op x) = false) ∧ (∀ x, x.dst = 0 → legal (.kmov false x) = false) ∧
  (∀ x, x.sb ≠ 0 → legal (.kop .not x) = false) ∧
  (∀ op x, hasLit x.form = false → WaveResult (.kop op x) (fun _ u _ => u.wk x.dst.toNat
    (match op with
     | .and => u.rk x.sa.toNat &&& u.rk x.sb.toNat
     | .or => u.rk x.sa.toNat ||| u.rk x.sb.toNat
     | .xor => u.rk x.sa.toNat ^^^ u.rk x.sb.toNat
     | .andn => u.rk x.sa.toNat &&& ~~~ u.rk x.sb.toNat
     | .not => ~~~ u.rk x.sa.toNat))) ∧
  (∀ x, WaveResult (.kmov false x) (fun _ u _ => u.wk x.dst.toNat (u.rk x.sa.toNat))) ∧
  (∀ x, WaveResult (.kmov true x) (fun _ u run => u.ww (u.lane (run.headD 0)).level x.dst.toNat (u.rk x.sa.toNat))) ∧
  (∀ x, WaveResult (.kpopc x) (fun _ u run => u.ww (u.lane (run.headD 0)).level x.dst.toNat
    (dw ((List.range u.width).filter (fun k => bit (u.rk x.sa.toNat).toNat k)).length))) ∧
  (∀ u : Wave, u.width ≤ 64 → ((List.range u.width).filter (fun k => bit (u.rk 0).toNat k)).length = u.width) ∧
  (∀ (u : Wave) (r k : Nat) (x : DWord), r ≠ 0 → u.width ≤ k → bit ((u.wk r x).rk r).toNat k = false)

/-- BAND intersects rows and counts the bits; PPOPC gives each lane the count before it. The encodings, and the result that is on
its way: BAND writes a AND b to each active lane and the number of set bits of the row to a wave register; PPOPC writes to the
lane at position j the base plus the set bits over positions 0 to j - 1, modulo 2^32. (R315, R316.) -/
def Obligations.BitmapRows : Prop :=
  (∀ x, (descExt (.band x)).opc = 0x90 ∧ (descExt (.band x)).sub = 0 ∧ (descExt (.band x)).a = .v 1 1 ∧ (descExt (.band x)).b = .v 1 1 ∧
    (descExt (.band x)).c = .w ∧ (descExt (.ppopc x)).opc = 0x91 ∧ (descExt (.ppopc x)).sub = 0 ∧ (descExt (.ppopc x)).a = .v 1 1 ∧
    (descExt (.ppopc x)).b = .w ∧ (descExt (.ppopc x)).c = .zero) ∧
  (∀ x, hasLit x.form = false → LaterResult (.band x) (fun u run =>
    { wid := 0, team := run
      lanes := run.map (fun k => (k, [(x.dst.toNat, (u.lane k).rv x.sa.toNat &&& (u.lane k).rv x.sb.toNat)]))
      wave := [(wKey (u.lane (run.headD 0)).level x.sc.toNat,
        dw ((run.map (fun k => popcount ((u.lane k).rv x.sa.toNat &&& (u.lane k).rv x.sb.toNat).toNat 32)).foldl (· + ·) 0))] })) ∧
  (∀ x, hasLit x.form = false → LaterResult (.ppopc x) (fun u run =>
    { wid := 0, team := run
      lanes := ((List.range run.length).zip run).map (fun p => (p.2, [(x.dst.toNat, BitVec.ofNat 32
        (((u.rw (u.lane (run.headD 0)).level x.sb.toNat).toNat % 2 ^ 32 +
          ((run.take p.1).map (fun k => popcount ((u.lane k).rv x.sa.toNat).toNat 32)).foldl (· + ·) 0) % 2 ^ 32))])) }))

/-- Naming a lane register above the declared count raises the illegal-instruction trap and changes no state. An instruction that
names a lane register at or above the wave's declared count takes the precise trap of kind 0x02 on the lanes of its group, after
the cycle is noted as the last in which they issued, and nothing else happens; a legal instruction all of whose lane registers
lie below the count passes this check; wave registers, masks and loop registers play no part in it. (R40.) -/
def Obligations.DeclaredLaneRegisters : Prop :=
  (∀ (i : Instr) (s : State) (c : Issue) (w : Wave), isLane i = true → s.cur = some c → s.wave? c.wid = some w →
    (∃ r ∈ laneRegsNamed i, w.regs ≤ r) →
    exec i s = .next ((s.taken.noteIssue c.wid (s.group c.wid w c i)).raiseTraps c.wid c.pc ((s.group c.wid w c i).map (fun k => (k, { kind := 0x02, i0 := c.pc }))))) ∧
  (∀ (i : Instr) (n : Nat), legal i = true → (∀ r ∈ laneRegsNamed i, r < n) → declOk i n = true) ∧
  (∀ (i : Instr) (n m : Nat), legal i = true → laneRegsNamed i = [] → declOk i n = declOk i m) ∧
  (∀ (o : Opd) (f : BitVec 8), o = .w ∨ o = .k ∨ o = .kd ∨ o = .lvl → o.laneRegs f = [])

/-- Every step keeps memory in its canonical form. For every state whose memory lists its addresses in strictly rising order, a step
that answers a next state answers one whose memory does so too; the state at reset has that form (another statement). So equal
memories are equal data, whatever instruction or event a step performs; that form is the model's own (log entry 2). (R142,
R453.) -/
def Obligations.MemoryStaysCanonical : Prop :=
  ∀ s t : State, s.memOk = true → step s = .next t → t.memOk = true

/-- Every step keeps every sparse table of the part in its canonical form. For every state all of whose sparse tables (the waves,
the cores, the scratchpad words, the FIFOs, the system registers, the accesses in flight, and the rest that State.tablesOk
names) have strictly rising keys, a step that answers a next state answers one with that form too; the state at reset has it
(another statement). So no wave, access or register is listed twice. (R44, R142, R387.) -/
def Obligations.TablesStayCanonical : Prop :=
  ∀ s t : State, s.tablesOk = true → step s = .next t → t.tablesOk = true

/-- Integer arithmetic completes on its active lanes, each writing what the value function of its instruction gives. Each active
lane writes what the value function of the instruction (the one its meaning uses) gives for its operands and raises its sticky
flags; nothing else of the part changes and the lanes go on, on the hypotheses of a legal issue with active lanes and no early
trap, for every state and every operand, and says what is left unchanged. It names: IADD_SHORT, IADD, ISUB_SHORT, ISUB,
IMUL_SHORT, IMUL, IADD_IMM_SHORT, IADD_IMM, IMAD_SHORT, IMAD, IDIV_SHORT, IDIV, IREM_SHORT, IREM, IMIN_SHORT, IMIN, IMAX_SHORT,
IMAX, IABS_SHORT, IABS, INEG_SHORT, INEG. (R201, R203, R205, R206, R207.) -/
def Obligations.IntegerArithmeticCompletes : Prop :=
  (∀ b a d, LaneResult (.iaddShort b a d) (fun w k => valIadd .wrap .s32 (.iaddShort b a d) w (w.lane k))) ∧
  (∀ v ty x, LaneResult (.iadd v ty x) (fun w k => valIadd v ty (.iadd v ty x) w (w.lane k))) ∧
  (∀ b a d, LaneResult (.isubShort b a d) (fun w k => valIsub .wrap .s32 (.isubShort b a d) w (w.lane k))) ∧
  (∀ v ty x, LaneResult (.isub v ty x) (fun w k => valIsub v ty (.isub v ty x) w (w.lane k))) ∧
  (∀ b a d, LaneResult (.imulShort b a d) (fun w k => valImul .wrap .s32 (.imulShort b a d) w (w.lane k))) ∧
  (∀ v ty x, LaneResult (.imul v ty x) (fun w k => valImul v ty (.imul v ty x) w (w.lane k))) ∧
  (∀ i a d, LaneResult (.iaddImmShort i a d) (fun w k => valIaddImm .wrap .s32 (.iaddImmShort i a d) w (w.lane k))) ∧
  (∀ v ty x, LaneResult (.iaddImm v ty x) (fun w k => valIaddImm v ty (.iaddImm v ty x) w (w.lane k))) ∧
  (∀ b a d, LaneResult (.imadShort b a d) (fun w k => valImad .wrap .s32 (.imadShort b a d) w (w.lane k))) ∧
  (∀ v ty x, LaneResult (.imad v ty x) (fun w k => valImad v ty (.imad v ty x) w (w.lane k))) ∧
  (∀ b a d, LaneResult (.idivShort b a d) (fun w k => valIdiv .s32 (.idivShort b a d) w (w.lane k))) ∧
  (∀ ty x, LaneResult (.idiv ty x) (fun w k => valIdiv ty (.idiv ty x) w (w.lane k))) ∧
  (∀ b a d, LaneResult (.iremShort b a d) (fun w k => valIrem .s32 (.iremShort b a d) w (w.lane k))) ∧
  (∀ ty x, LaneResult (.irem ty x) (fun w k => valIrem ty (.irem ty x) w (w.lane k))) ∧
  (∀ b a d, LaneResult (.iminShort b a d) (fun w k => valImin .s32 (.iminShort b a d) w (w.lane k))) ∧
  (∀ ty x, LaneResult (.imin ty x) (fun w k => valImin ty (.imin ty x) w (w.lane k))) ∧
  (∀ b a d, LaneResult (.imaxShort b a d) (fun w k => valImax .s32 (.imaxShort b a d) w (w.lane k))) ∧
  (∀ ty x, LaneResult (.imax ty x) (fun w k => valImax ty (.imax ty x) w (w.lane k))) ∧
  (∀ a d, LaneResult (.iabsShort a d) (fun w k => valIabs .wrap .s32 (.iabsShort a d) w (w.lane k))) ∧
  (∀ v ty x, LaneResult (.iabs v ty x) (fun w k => valIabs v ty (.iabs v ty x) w (w.lane k))) ∧
  (∀ a d, LaneResult (.inegShort a d) (fun w k => valIneg .wrap .s32 (.inegShort a d) w (w.lane k))) ∧
  (∀ v ty x, LaneResult (.ineg v ty x) (fun w k => valIneg v ty (.ineg v ty x) w (w.lane k)))

/-- Logic, shifts and bit-field instructions complete on their active lanes. Each active lane writes the value of the instruction;
nothing else of the part changes and the lanes go on, on the hypotheses of a legal issue with active lanes and no early trap,
for every state and every operand, and says what is left unchanged. It names: AND_SHORT, AND, OR_SHORT, OR, XOR_SHORT, XOR,
NOT_SHORT, NOT, SHL_SHORT, SHL, SHR_SHORT, SHR, SAR_SHORT, SAR, ROT_SHORT, ROT, POPC_SHORT, POPC, CLZ_SHORT, CLZ, BREV_SHORT,
BREV, BFX, BFI. (R201, R208, R209, R210, R211.) -/
def Obligations.LogicAndShiftsComplete : Prop :=
  (∀ b a d, LaneResult (.andShort b a d) (fun w k => valAnd (.andShort b a d) w (w.lane k))) ∧
  (∀ wd x, LaneResult (.and wd x) (fun w k => valAnd (.and wd x) w (w.lane k))) ∧
  (∀ b a d, LaneResult (.orShort b a d) (fun w k => valOr (.orShort b a d) w (w.lane k))) ∧
  (∀ wd x, LaneResult (.or wd x) (fun w k => valOr (.or wd x) w (w.lane k))) ∧
  (∀ b a d, LaneResult (.xorShort b a d) (fun w k => valXor (.xorShort b a d) w (w.lane k))) ∧
  (∀ wd x, LaneResult (.xor wd x) (fun w k => valXor (.xor wd x) w (w.lane k))) ∧
  (∀ a d, LaneResult (.notShort a d) (fun w k => valNot .b32 (.notShort a d) w (w.lane k))) ∧
  (∀ wd x, LaneResult (.not wd x) (fun w k => valNot wd (.not wd x) w (w.lane k))) ∧
  (∀ c a d, LaneResult (.shlShort c a d) (fun w k => valShl .b32 (.shlShort c a d) w (w.lane k))) ∧
  (∀ wd x, LaneResult (.shl wd x) (fun w k => valShl wd (.shl wd x) w (w.lane k))) ∧
  (∀ c a d, LaneResult (.shrShort c a d) (fun w k => valShr .b32 (.shrShort c a d) w (w.lane k))) ∧
  (∀ wd x, LaneResult (.shr wd x) (fun w k => valShr wd (.shr wd x) w (w.lane k))) ∧
  (∀ c a d, LaneResult (.sarShort c a d) (fun w k => valSar .b32 (.sarShort c a d) w (w.lane k))) ∧
  (∀ wd x, LaneResult (.sar wd x) (fun w k => valSar wd (.sar wd x) w (w.lane k))) ∧
  (∀ c a d, LaneResult (.rotShort c a d) (fun w k => valRot .b32 (.rotShort c a d) w (w.lane k))) ∧
  (∀ wd x, LaneResult (.rot wd x) (fun w k => valRot wd (.rot wd x) w (w.lane k))) ∧
  (∀ a d, LaneResult (.popcShort a d) (fun w k => valPopc .b32 (.popcShort a d) w (w.lane k))) ∧
  (∀ wd x, LaneResult (.popc wd x) (fun w k => valPopc wd (.popc wd x) w (w.lane k))) ∧
  (∀ a d, LaneResult (.clzShort a d) (fun w k => valClz .b32 (.clzShort a d) w (w.lane k))) ∧
  (∀ wd x, LaneResult (.clz wd x) (fun w k => valClz wd (.clz wd x) w (w.lane k))) ∧
  (∀ a d, LaneResult (.brevShort a d) (fun w k => valBrev .b32 (.brevShort a d) w (w.lane k))) ∧
  (∀ wd x, LaneResult (.brev wd x) (fun w k => valBrev wd (.brev wd x) w (w.lane k))) ∧
  (∀ sx wd x, LaneResult (.bfx sx wd x) (fun w k => valBfx sx wd (.bfx sx wd x) w (w.lane k))) ∧
  (∀ wd x, LaneResult (.bfi wd x) (fun w k => valBfi (.bfi wd x) w (w.lane k)))

/-- Moves, selects and address arithmetic complete on their active lanes. Each active lane writes the value of the instruction;
nothing else of the part changes and the lanes go on, on the hypotheses of a legal issue with active lanes and no early trap,
for every state and every operand, and says what is left unchanged. It names: LEA_SHORT, LEA, MOV_SHORT, MOV, MOV_LO, MOV_HI,
SEL. (R201, R213, R214, R215.) -/
def Obligations.MovesComplete : Prop :=
  (∀ b a d, LaneResult (.leaShort b a d) (fun w k => valLea .x1 (.leaShort b a d) w (w.lane k))) ∧
  (∀ xs x, LaneResult (.lea xs x) (fun w k => valLea xs (.lea xs x) w (w.lane k))) ∧
  (∀ b d, LaneResult (.movShort b d) (fun w k => valMov (.movShort b d) w (w.lane k))) ∧
  (∀ x, LaneResult (.mov x) (fun w k => valMov (.mov x) w (w.lane k))) ∧
  (∀ x, LaneResult (.movLo x) (fun w k => valMov (.movLo x) w (w.lane k))) ∧
  (∀ x, LaneResult (.movHi x) (fun w k => valMovHi (.movHi x) w (w.lane k))) ∧
  (∀ wd x, LaneResult (.sel wd x) (fun u k => (if bit (opC (.sel wd x) u (u.lane k)) k then opA (.sel wd x) u (u.lane k) else opB (.sel wd x) u (u.lane k), 0)))

/-- Compares write the mask bits of their active lanes. Each active lane writes its bit of the mask; the bits of the other lanes and
every other mask keep their values, the mask is full, and the lanes go on, on the hypotheses of a legal issue with active lanes
and no early trap, for every state and every operand, and says what is left unchanged. It names: ICMP_SHORT, ICMP, FCMP_SHORT,
FCMP, KSET. (R201, R212, R220, R233.) -/
def Obligations.CompareCompletes : Prop :=
  (∀ b a k, BitResult (.icmpShort b a k) (bitIcmp .eq .s32 (.icmpShort b a k))) ∧
  (∀ r ty x, BitResult (.icmp r ty x) (bitIcmp r ty (.icmp r ty x))) ∧
  (∀ b a k, BitResult (.fcmpShort b a k) (bitFcmp .eq .f32 (.fcmpShort b a k))) ∧
  (∀ r ft x, BitResult (.fcmp r ft x) (bitFcmp r ft (.fcmp r ft x))) ∧
  (∀ x, BitResult (.kset false x) (bitKset (.kset false x)))

/-- Floating-point arithmetic completes on its active lanes. Each active lane writes the rounded result and raises its sticky flags;
nothing else of the part changes and the lanes go on, on the hypotheses of a legal issue with active lanes and no early trap,
for every state and every operand, and says what is left unchanged. It names: FADD_SHORT, FADD, FSUB_SHORT, FSUB, FMUL_SHORT,
FMUL, FMA_SHORT, FMA, FMIN_SHORT, FMIN, FMAX_SHORT, FMAX, FABS_SHORT, FABS, FNEG_SHORT, FNEG, FCPS_SHORT, FCPS. (R201, R216,
R218, R219.) -/
def Obligations.FloatArithmeticCompletes : Prop :=
  (∀ b a d, LaneResult (.faddShort b a d) (fun w k => valFadd .f32 (.faddShort b a d) w (w.lane k))) ∧
  (∀ ft x, LaneResult (.fadd ft x) (fun w k => valFadd ft (.fadd ft x) w (w.lane k))) ∧
  (∀ b a d, LaneResult (.fsubShort b a d) (fun w k => valFsub .f32 (.fsubShort b a d) w (w.lane k))) ∧
  (∀ ft x, LaneResult (.fsub ft x) (fun w k => valFsub ft (.fsub ft x) w (w.lane k))) ∧
  (∀ b a d, LaneResult (.fmulShort b a d) (fun w k => valFmul .f32 (.fmulShort b a d) w (w.lane k))) ∧
  (∀ ft x, LaneResult (.fmul ft x) (fun w k => valFmul ft (.fmul ft x) w (w.lane k))) ∧
  (∀ b a d, LaneResult (.fmaShort b a d) (fun w k => valFma .f32 (.fmaShort b a d) w (w.lane k))) ∧
  (∀ ft x, LaneResult (.fma ft x) (fun w k => valFma ft (.fma ft x) w (w.lane k))) ∧
  (∀ b a d, LaneResult (.fminShort b a d) (fun w k => valFmin .f32 (.fminShort b a d) w (w.lane k))) ∧
  (∀ ft x, LaneResult (.fmin ft x) (fun w k => valFmin ft (.fmin ft x) w (w.lane k))) ∧
  (∀ b a d, LaneResult (.fmaxShort b a d) (fun w k => valFmax .f32 (.fmaxShort b a d) w (w.lane k))) ∧
  (∀ ft x, LaneResult (.fmax ft x) (fun w k => valFmax ft (.fmax ft x) w (w.lane k))) ∧
  (∀ a d, LaneResult (.fabsShort a d) (fun w k => valFabs .f32 (.fabsShort a d) w (w.lane k))) ∧
  (∀ ft x, LaneResult (.fabs ft x) (fun w k => valFabs ft (.fabs ft x) w (w.lane k))) ∧
  (∀ a d, LaneResult (.fnegShort a d) (fun w k => valFneg .f32 (.fnegShort a d) w (w.lane k))) ∧
  (∀ ft x, LaneResult (.fneg ft x) (fun w k => valFneg ft (.fneg ft x) w (w.lane k))) ∧
  (∀ b a d, LaneResult (.fcpsShort b a d) (fun w k => valFcps .f32 (.fcpsShort b a d) w (w.lane k))) ∧
  (∀ ft x, LaneResult (.fcps ft x) (fun w k => valFcps ft (.fcps ft x) w (w.lane k)))

/-- Classification, rounding, conversion and packing complete on their active lanes. Each active lane writes the converted value and
raises its sticky flags; nothing else of the part changes and the lanes go on, on the hypotheses of a legal issue with active
lanes and no early trap, for every state and every operand, and says what is left unchanged. It names: FCLS_SHORT, FCLS,
FRND_SHORT, FRND, CVTF, CVTFI, CVTIF, CVTSC, FPACK. (R201, R221, R222, R223, R224, R225, R226, R228.) -/
def Obligations.FloatConversionCompletes : Prop :=
  (∀ a d, LaneResult (.fclsShort a d) (fun w k => valFcls .f32 (.fclsShort a d) w (w.lane k))) ∧
  (∀ ft x, LaneResult (.fcls ft x) (fun w k => valFcls ft (.fcls ft x) w (w.lane k))) ∧
  (∀ a d, LaneResult (.frndShort a d) (fun w k => valFrnd .f32 (.frndShort a d) w (w.lane k))) ∧
  (∀ ft x, LaneResult (.frnd ft x) (fun w k => valFrnd ft (.frnd ft x) w (w.lane k))) ∧
  (∀ cd cs x, LaneResult (.cvtf cd cs x) (fun w k => valCvtf cd cs (.cvtf cd cs x) w (w.lane k))) ∧
  (∀ cs ty x, LaneResult (.cvtfi cs ty x) (fun w k => valCvtfi cs ty (.cvtfi cs ty x) w (w.lane k))) ∧
  (∀ cd ty x, LaneResult (.cvtif cd ty x) (fun w k => valCvtif cd ty (.cvtif cd ty x) w (w.lane k))) ∧
  (∀ toSc x, LaneResult (.cvtsc toSc x) (fun w k => valCvtsc toSc (.cvtsc toSc x) w (w.lane k))) ∧
  (∀ cf x, LaneResult (.fpack cf x) (fun w k => valFpack cf (.fpack cf x) w (w.lane k)))

/-- Function-unit instructions complete with one result on its way to their active lanes. One result with the values and flags of
the active lanes is on its way and their destinations are empty until it lands; nothing else of the part changes and the lanes
go on; the result of a function that no precision decides is the model's free value Config.hardCase (log entry 12), on the
hypotheses of a legal issue with active lanes and no early trap, for every state and every operand, and says what is left
unchanged. It names: FDIV_SHORT, FDIV, FSQRT_SHORT, FSQRT, FRCP_SHORT, FRCP, FRSQ_SHORT, FRSQ, FEXP_SHORT, FEXP, FLOG_SHORT,
FLOG, FSIN_SHORT, FSIN, FCOS_SHORT, FCOS, FTAN_SHORT, FTAN, FTANH_SHORT, FTANH, FATAN_SHORT, FATAN. (R85, R217, R227.) -/
def Obligations.FunctionUnitCompletes : Prop :=
  (∀ b a d, LaterResult (.fdivShort b a d) (fun w run => unitFill (valFdiv .f32) (.fdivShort b a d) w run)) ∧
  (∀ ft x, LaterResult (.fdiv ft x) (fun w run => unitFill (valFdiv ft) (.fdiv ft x) w run)) ∧
  (∀ a d, LaterResult (.fsqrtShort a d) (fun w run => unitFill (valFsqrt .f32) (.fsqrtShort a d) w run)) ∧
  (∀ ft x, LaterResult (.fsqrt ft x) (fun w run => unitFill (valFsqrt ft) (.fsqrt ft x) w run)) ∧
  (∀ a d, LaterResult (.frcpShort a d) (fun w run => unitFill (valFrcp .f32) (.frcpShort a d) w run)) ∧
  (∀ ft x, LaterResult (.frcp ft x) (fun w run => unitFill (valFrcp ft) (.frcp ft x) w run)) ∧
  (∀ a d, LaterResult (.frsqShort a d) (fun w run => unitFill (valFrsq .f32) (.frsqShort a d) w run)) ∧
  (∀ ft x, LaterResult (.frsq ft x) (fun w run => unitFill (valFrsq ft) (.frsq ft x) w run)) ∧
  (∀ a d, LaterResult (.fexpShort a d) (fun w run => unitFill (valFn .exp) (.fexpShort a d) w run)) ∧
  (∀ b2 x, LaterResult (.fexp b2 x) (fun w run => unitFill (valFn (if b2 then .exp2 else .exp)) (.fexp b2 x) w run)) ∧
  (∀ a d, LaterResult (.flogShort a d) (fun w run => unitFill (valFn .log) (.flogShort a d) w run)) ∧
  (∀ b2 x, LaterResult (.flog b2 x) (fun w run => unitFill (valFn (if b2 then .log2 else .log)) (.flog b2 x) w run)) ∧
  (∀ a d, LaterResult (.fsinShort a d) (fun w run => unitFill (valFn .sin) (.fsinShort a d) w run)) ∧
  (∀ pi x, LaterResult (.fsin pi x) (fun w run => unitFill (valFn (if pi then .sinpi else .sin)) (.fsin pi x) w run)) ∧
  (∀ a d, LaterResult (.fcosShort a d) (fun w run => unitFill (valFn .cos) (.fcosShort a d) w run)) ∧
  (∀ pi x, LaterResult (.fcos pi x) (fun w run => unitFill (valFn (if pi then .cospi else .cos)) (.fcos pi x) w run)) ∧
  (∀ a d, LaterResult (.ftanShort a d) (fun w run => unitFill (valFn .tan) (.ftanShort a d) w run)) ∧
  (∀ x, LaterResult (.ftan x) (fun w run => unitFill (valFn .tan) (.ftan x) w run)) ∧
  (∀ a d, LaterResult (.ftanhShort a d) (fun w run => unitFill (valFn .tanh) (.ftanhShort a d) w run)) ∧
  (∀ x, LaterResult (.ftanh x) (fun w run => unitFill (valFn .tanh) (.ftanh x) w run)) ∧
  (∀ a d, LaterResult (.fatanShort a d) (fun w run => unitFill (valFn .atan) (.fatanShort a d) w run)) ∧
  (∀ x, LaterResult (.fatan x) (fun w run => unitFill (valFn .atan) (.fatan x) w run))

/-- Exchanges, scans and reductions complete with one result on its way. One result with the values taken from the lanes of the wave
is on its way and the destinations are empty until it lands; nothing else of the part changes and the lanes go on, on the
hypotheses of a legal issue with active lanes and no early trap, for every state and every operand, and says what is left
unchanged. It names: SHFL_SHORT, SHFL, SHFLUP_SHORT, SHFLUP, SHFLDN_SHORT, SHFLDN, SHFLX_SHORT, SHFLX, BCAST, SCAN, REDUCE.
(R85, R229, R230, R231, R236, R237.) -/
def Obligations.ExchangeCompletes : Prop :=
  (∀ b a d, LaterResult (.shflShort b a d) (fun w run => lanesFill (fieldsOf (.shflShort b a d)).dst.toNat (dstRegs (.shflShort b a d)) (run.map (fun k => (k, xsrc (.shflShort b a d) w run k (shuffleFrom (.shflShort b a d) w k)))) [])) ∧
  (∀ wd x, LaterResult (.shfl wd x) (fun w run => lanesFill (fieldsOf (.shfl wd x)).dst.toNat (dstRegs (.shfl wd x)) (run.map (fun k => (k, xsrc (.shfl wd x) w run k (shuffleFrom (.shfl wd x) w k)))) [])) ∧
  (∀ i a d, LaterResult (.shflupShort i a d) (fun w run => lanesFill (fieldsOf (.shflupShort i a d)).dst.toNat (dstRegs (.shflupShort i a d)) (run.map (fun k => (k, xsrc (.shflupShort i a d) w run k (shuffleFrom (.shflupShort i a d) w k)))) [])) ∧
  (∀ wd x, LaterResult (.shflup wd x) (fun w run => lanesFill (fieldsOf (.shflup wd x)).dst.toNat (dstRegs (.shflup wd x)) (run.map (fun k => (k, xsrc (.shflup wd x) w run k (shuffleFrom (.shflup wd x) w k)))) [])) ∧
  (∀ i a d, LaterResult (.shfldnShort i a d) (fun w run => lanesFill (fieldsOf (.shfldnShort i a d)).dst.toNat (dstRegs (.shfldnShort i a d)) (run.map (fun k => (k, xsrc (.shfldnShort i a d) w run k (shuffleFrom (.shfldnShort i a d) w k)))) [])) ∧
  (∀ wd x, LaterResult (.shfldn wd x) (fun w run => lanesFill (fieldsOf (.shfldn wd x)).dst.toNat (dstRegs (.shfldn wd x)) (run.map (fun k => (k, xsrc (.shfldn wd x) w run k (shuffleFrom (.shfldn wd x) w k)))) [])) ∧
  (∀ i a d, LaterResult (.shflxShort i a d) (fun w run => lanesFill (fieldsOf (.shflxShort i a d)).dst.toNat (dstRegs (.shflxShort i a d)) (run.map (fun k => (k, xsrc (.shflxShort i a d) w run k (shuffleFrom (.shflxShort i a d) w k)))) [])) ∧
  (∀ wd x, LaterResult (.shflx wd x) (fun w run => lanesFill (fieldsOf (.shflx wd x)).dst.toNat (dstRegs (.shflx wd x)) (run.map (fun k => (k, xsrc (.shflx wd x) w run k (shuffleFrom (.shflx wd x) w k)))) [])) ∧
  (∀ wd x, LaterResult (.bcast wd x) (fun w run => lanesFill (fieldsOf (.bcast wd x)).dst.toNat (dstRegs (.bcast wd x)) (run.map (fun k => (k, xsrc (.bcast wd x) w run k (shuffleFrom (.bcast wd x) w k)))) [])) ∧
  (∀ op ty x, LaterResult (.scan op ty x) (fun w run => lanesFill (fieldsOf (.scan op ty x)).dst.toNat (dstRegs (.scan op ty x)) (prefixes (scanRed op) ty none (run.map (fun k => (k, opA (.scan op ty x) w (w.lane k))))) [])) ∧
  (∀ op ty x, LaterResult (.reduce op ty x) (fun u run => { wid := 0, team := run, wave := [(wKey (u.lane (run.headD 0)).level x.dst.toNat, dw (reduceVal op ty (run.map (fun k => (k, opA (.reduce op ty x) u (u.lane k))))))] }))

/-- Row operations complete with one result on its way. One result computed from the row of active lanes is on its way and the
destinations are empty until it lands; nothing else of the part changes and the lanes go on, on the hypotheses of a legal issue
with active lanes and no early trap, for every state and every operand, and says what is left unchanged. It names: BAND, PPOPC,
IGATH, CMPR, EXPD, TOPK. (R85, R314, R315, R316, R317, R318, R319.) -/
def Obligations.RowOperationsComplete : Prop :=
  (∀ x, LaterResult (.band x) (rowFill (.band x) rowBand)) ∧
  (∀ x, LaterResult (.ppopc x) (rowFill (.ppopc x) (rowPpopc (.ppopc x)))) ∧
  (∀ wd x, LaterResult (.igath wd x) (rowFill (.igath wd x) (rowIgath wd (.igath wd x)))) ∧
  (∀ wd x, LaterResult (.cmpr wd x) (rowFill (.cmpr wd x) (rowCmpr (.cmpr wd x)))) ∧
  (∀ wd x, LaterResult (.expd wd x) (rowFill (.expd wd x) (rowExpd (.expd wd x)))) ∧
  (∀ nz f x, LaterResult (.topk nz f x) (rowFill (.topk nz f x) (rowTopk nz f (.topk nz f x))))

/-- Wave-level instructions change the wave once. The wave register or mask that the instruction names gets its value once, from the
active lanes; nothing else of the part changes and the lanes go on, on the hypotheses of a legal issue with active lanes and no
early trap, for every state and every operand, and says what is left unchanged. It names: MOV_W, MOV_FWS, MOV_TWS, KOP, KMOV,
KPOPC, VOTE, KSET. (R202, R215, R232, R233, R234, R235.) -/
def Obligations.WaveLevelCompletes : Prop :=
  (∀ x, WaveResult (.movW x) (fun _ u run => u.ww (u.lane (run.headD 0)).level x.dst.toNat (dw (opB (.movW x) u (u.lane (run.headD 0)))))) ∧
  (∀ x, WaveResult (.movFws x) (fun c u run => u.ww (u.lane (run.headD 0)).level x.dst.toNat (dw c.ws0.toNat))) ∧
  (∀ x, WaveResult (.movTws x) (fun _ u run => { u with ws := BitVec.ofNat 7 (opB (.movTws x) u (u.lane (run.headD 0))) ||| u.wsCycle })) ∧
  (∀ op x, WaveResult (.kop op x) (fun _ u run => u.wk x.dst.toNat (dw (kopVal op (opA (.kop op x) u (u.lane (run.headD 0))) (opB (.kop op x) u (u.lane (run.headD 0))))))) ∧
  (∀ toW x, WaveResult (.kmov toW x) (fun _ u run => if toW then u.ww (u.lane (run.headD 0)).level x.dst.toNat (dw (opA (.kmov toW x) u (u.lane (run.headD 0)))) else u.wk x.dst.toNat (dw (opA (.kmov toW x) u (u.lane (run.headD 0)))))) ∧
  (∀ x, WaveResult (.kpopc x) (fun _ u run => u.ww (u.lane (run.headD 0)).level x.dst.toNat (dw (popcount (opA (.kpopc x) u (u.lane (run.headD 0))) u.width)))) ∧
  (∀ op x, WaveResult (.vote op x) (fun _ u run => u.ww (u.lane (run.headD 0)).level x.dst.toNat (dw (voteVal op (run.map (fun k => (k, opA (.vote op x) u (u.lane k)))))))) ∧
  (∀ x, WaveResult (.kset true x) (fun _ u run => u.wk x.dst.toNat (dw (opA (.kset true x) u (u.lane (run.headD 0))))))

/-- Branches, calls and returns send their active lanes to their targets. When every target is a word address below 2^57, an active
lane that branches goes to its target and the others go on; nothing else of the part changes, on the hypotheses of a legal issue
with active lanes and no early trap, for every state and every operand, and says what is left unchanged. It names: BRA_SHORT,
BRA, BRC, CALL_SHORT, CALL, CALL_IND, RET_SHORT, RET. (R240, R242, R243, R244, R245.) -/
def Obligations.BranchesComplete : Prop :=
  (∀ i, BranchResult (.braShort i) (fun c _ _ => some (directTarget c (.braShort i))) (fun _ l a => (l.jump a).1)) ∧
  (∀ x, BranchResult (.bra x) (fun c _ _ => some (directTarget c (.bra x))) (fun _ l a => (l.jump a).1)) ∧
  (∀ r ty x, BranchResult (.brc r ty x) (brcGo r ty (.brc r ty x)) (fun _ l a => (l.jump a).1)) ∧
  (∀ i, BranchResult (.callShort i) (fun c _ _ => some (directTarget c (.callShort i))) (fun c l a => { l.write 14 2 (c.pc + dw (4 * wordsOf (.callShort i))).toNat with pc := a })) ∧
  (∀ x, BranchResult (.call x) (fun c _ _ => some (directTarget c (.call x))) (fun c l a => { l.write 14 2 (c.pc + dw (4 * wordsOf (.call x))).toNat with pc := a })) ∧
  (∀ x, BranchResult (.callInd x) (fun _ w k => some (dw (opA (.callInd x) w (w.lane k)))) (fun c l a => { l.write 14 2 (c.pc + dw (4 * wordsOf (.callInd x))).toNat with pc := a })) ∧
  (BranchResult .retShort (fun _ w k => some (dw ((w.lane k).read 14 2))) (fun _ l a => { l with pc := a })) ∧
  (∀ x, BranchResult (.ret x) (fun _ w k => some (dw ((w.lane k).read 14 2))) (fun _ l a => { l with pc := a }))

/-- LOOP starts a hardware loop on its active lanes, or skips it. In turn, each active lane whose count is not zero writes its loop
registers and goes on, and one whose count is zero goes to the loop's end, on the hypotheses of a legal issue with active lanes
and no early trap, for every state and every operand, and says what is left unchanged. It names: LOOP_SHORT, LOOP, LOOP_I. (R78,
R246, R247.) -/
def Obligations.LoopsComplete : Prop :=
  (∀ l a e, TurnResult (.loopShort l a e) id (loopTurn (.loopShort l a e) (fun ln => (ln.rv (fieldsOf (.loopShort l a e)).sa.toNat).toNat))) ∧
  (∀ l x, TurnResult (.loop l x) id (loopTurn (.loop l x) (fun ln => (ln.rv (fieldsOf (.loop l x)).sa.toNat).toNat))) ∧
  (∀ l x, TurnResult (.loopI l x) id (loopTurn (.loopI l x) (fun _ => loopImm (.loopI l x))))

/-- SLEEP, WAIT and CMT.WAIT hold their active lanes until what they wait for. Outside pixel-ordered sections, an active lane with
something to wait for is held in the instruction and the others go on; nothing else of the part changes, on the hypotheses of a
legal issue with active lanes and no early trap, for every state and every operand, and says what is left unchanged. It names:
SLEEP_SHORT, SLEEP, SLEEP_FOR, WAIT_FULL_SHORT, WAIT_FULL, WAIT_EMPTY, CMT_WAIT_SHORT, CMT_WAIT. (R241, R252, R253, R264.) -/
def Obligations.WaitsComplete : Prop :=
  (∀ a, WaitResult (.sleepShort a) (fun s w l => if decide (s.gt < opA (.sleepShort a) w l) then some (.sleep (opA (.sleepShort a) w l)) else none)) ∧
  (∀ x, WaitResult (.sleep x) (fun s w l => if decide (s.gt < (opA (.sleep x) w l + w2f x 30 0) % 2 ^ 64) then some (.sleep ((opA (.sleep x) w l + w2f x 30 0) % 2 ^ 64)) else none)) ∧
  (∀ x, WaitResult (.sleepFor x) (fun s w l => if decide (s.gt < s.gt + w2f x 30 0) then some (.sleep (s.gt + w2f x 30 0)) else none)) ∧
  (∀ a, (fieldsOf (.waitFullShort a)).epa = false → WaitResult (.waitFullShort a) (fun _ w l => if w.emptyRef l (waitRef (.waitFullShort a)) then some (.full (waitRef (.waitFullShort a))) else none)) ∧
  (∀ x, (fieldsOf (.waitFull x)).epa = false → WaitResult (.waitFull x) (fun _ w l => if w.emptyRef l (waitRef (.waitFull x)) then some (.full (waitRef (.waitFull x))) else none)) ∧
  (∀ x, WaitResult (.waitEmpty x) (fun _ w l => if !w.emptyRef l (waitRef (.waitEmpty x)) then some (.empty (waitRef (.waitEmpty x))) else none)) ∧
  (WaitResult .cmtWaitShort (fun s _ l => if !s.holdsToken l.item then some (.commit (if (fieldsOf .cmtWaitShort).w2 = 0 then 0 else s.gt + (fieldsOf .cmtWaitShort).w2.toNat) (fieldsOf .cmtWaitShort).w2.toNat) else none)) ∧
  (∀ x, WaitResult (.cmtWait x) (fun s _ l => if !s.holdsToken l.item then some (.commit (if (fieldsOf (.cmtWait x)).w2 = 0 then 0 else s.gt + (fieldsOf (.cmtWait x)).w2.toNat) (fieldsOf (.cmtWait x)).w2.toNat) else none))

/-- BAR registers the arrival of its active lanes, and the last arrival completes it. An arrival that does not complete the barrier
holds the lanes in it; one that does completes the barrier's instance, on the hypotheses of a legal issue with active lanes and
no early trap, for every state and every operand, and says what is left unchanged. It names: BAR_WV_SHORT, BAR_WV, BAR_BLK.
(R81, R248, R249, R250, R251.) -/
def Obligations.BarriersComplete : Prop :=
  (OutcomeResult .barWvShort (barOut .barWvShort) ∧ BarrierResult .barWvShort) ∧
  (∀ x, OutcomeResult (.barWv x) (barOut (.barWv x)) ∧ BarrierResult (.barWv x)) ∧
  (∀ x, OutcomeResult (.barBlk x) (barOut (.barBlk x)) ∧ BarrierResult (.barBlk x))

/-- TRAP, END, SPAWN, YIELD and CMT.POS take their effect on their active lanes. TRAP takes the trap that its rule gives; END ends
its lanes one after another, in every kind of wave, and the last lane of a wave retires it (a second clause of each END form
says so outside pixel-ordered sections, whatever becomes of other waves); SPAWN sends its request, YIELD and CMT.POS complete in
turn, on the hypotheses of a legal issue with active lanes and no early trap, for every state and every operand, and says what
is left unchanged. It names: TRAP_SHORT, TRAP, END_SHORT, END, SPAWN, YIELD_SHORT, YIELD, CMT_POS. (R254, R255, R259, R260,
R261, R262, R263.) -/
def Obligations.ThreadControlCompletes : Prop :=
  (∀ c, TrapResult (.trapShort c) { kind := 0x0B, i0 := dw (wordsOf (.trapShort c) * 256 + w2f (fieldsOf (.trapShort c)) 5 0) }) ∧
  (∀ x, TrapResult (.trap x) { kind := 0x0B, i0 := dw (wordsOf (.trap x) * 256 + w2f (fieldsOf (.trap x)) 5 0) }) ∧
  (OutcomeResult .endShort endOut ∧ EffectResult .endShort allOutside endAct) ∧
  (∀ x, OutcomeResult (.endLane x) endOut ∧ EffectResult (.endLane x) allOutside endAct) ∧
  (∀ rng x, OutcomeResult (.spawn rng x) (spawnOut (.spawn rng x))) ∧
  (TurnResult .yieldShort id yieldTurn) ∧
  (∀ x, TurnResult (.yieldNow x) id yieldTurn) ∧
  (∀ x, OutcomeResult (.cmtPos x) (cmtPosOut (.cmtPos x)))

/-- Loads, stores and atomics of the global space put their accesses in flight. When every check passes, each active lane's pieces
are in flight in its program order, a load's destination is empty until the access returns, and the lanes go on unless the
policy holds them, on the hypotheses of a legal issue with active lanes and no early trap, for every state and every operand,
and says what is left unchanged. It names: LD_SHORT, LD, ST_SHORT, ST, ATOM, CAS, FATOM. (R266, R267, R268, R269, R270, R277,
R278, R279.) -/
def Obligations.GlobalAccessesComplete : Prop :=
  (∀ w a d, TurnResult (.ldShort w a d) (fun s => s.fresh.2) (accessTurn (.ldShort w a d))) ∧
  (∀ ms x, TurnResult (.ld ms x) (fun s => s.fresh.2) (accessTurn (.ld ms x))) ∧
  (∀ w a d, TurnResult (.stShort w a d) (fun s => s.fresh.2) (accessTurn (.stShort w a d))) ∧
  (∀ ms x, TurnResult (.st ms x) (fun s => s.fresh.2) (accessTurn (.st ms x))) ∧
  (∀ op ty x, TurnResult (.atom op ty x) (fun s => s.fresh.2) (accessTurn (.atom op ty x))) ∧
  (∀ ty x, TurnResult (.cas ty x) (fun s => s.fresh.2) (accessTurn (.cas ty x))) ∧
  (∀ op ft x, TurnResult (.fatom op ft x) (fun s => s.fresh.2) (accessTurn (.fatom op ft x)))

/-- Wave accesses, fences, prefetches and flushes complete. A wave access puts one access of the lowest active lane in flight; a
fence, a prefetch and a flush complete in turn, each with the wait or the hint that its rule gives, on the hypotheses of a legal
issue with active lanes and no early trap, for every state and every operand, and says what is left unchanged. It names: LDW,
STW, FENCE_SHORT, FENCE, PREF_SHORT, PREF, FLUSH_SHORT, FLUSH. (R271, R273, R281, R148.) -/
def Obligations.WaveAccessesAndHintsComplete : Prop :=
  (∀ ms x, WaveAccessResult (.ldw ms x)) ∧
  (∀ ms x, WaveAccessResult (.stw ms x)) ∧
  (TurnResult .fenceShort id (fenceTurn .full 4)) ∧
  (∀ k x, TurnResult (.fence k x) id (fenceTurn k x.scope.toNat)) ∧
  (∀ w a, TurnResult (.prefShort w a) id (prefTurn (.prefShort w a))) ∧
  (∀ x, TurnResult (.pref x) id (prefTurn (.pref x))) ∧
  (∀ w a, TurnResult (.flushShort w a) (fun s => s.fresh.2) (flushTurn (.flushShort w a))) ∧
  (∀ x, TurnResult (.flush x) (fun s => s.fresh.2) (flushTurn (.flush x)))

/-- Scratchpad and bank instructions put their accesses in flight in turn. When every check passes, each active lane's access to its
words is in flight with its policy, in turn from the lowest lane, and the lanes go on unless they are held, on the hypotheses of
a legal issue with active lanes and no early trap, for every state and every operand, and says what is left unchanged. It names:
LDS_SHORT, LDS, STS_SHORT, STS, FILL_SHORT, FILL, DRAIN_SHORT, DRAIN, SETE_SHORT, SETE, PUSH_SHORT, PUSH, POP_SHORT, POP,
RBRD_SHORT, RBRD, RBADD_SHORT, RBADD, ATOMS, CASS, FATOMS. (R272, R274, R275, R276, R131.) -/
def Obligations.ScratchpadAccessesComplete : Prop :=
  (∀ a d, TurnResult (.ldsShort a d) (fun s => s.fresh.2) (spadTurn (.ldsShort a d))) ∧
  (∀ ms x, TurnResult (.lds ms x) (fun s => s.fresh.2) (spadTurn (.lds ms x))) ∧
  (∀ a d, TurnResult (.stsShort a d) (fun s => s.fresh.2) (spadTurn (.stsShort a d))) ∧
  (∀ ms x, TurnResult (.sts ms x) (fun s => s.fresh.2) (spadTurn (.sts ms x))) ∧
  (∀ a d, TurnResult (.fillShort a d) (fun s => s.fresh.2) (spadTurn (.fillShort a d))) ∧
  (∀ ms x, TurnResult (.fill ms x) (fun s => s.fresh.2) (spadTurn (.fill ms x))) ∧
  (∀ a d, TurnResult (.drainShort a d) (fun s => s.fresh.2) (spadTurn (.drainShort a d))) ∧
  (∀ ms x, TurnResult (.drain ms x) (fun s => s.fresh.2) (spadTurn (.drain ms x))) ∧
  (∀ a, TurnResult (.seteShort a) (fun s => s.fresh.2) (spadTurn (.seteShort a))) ∧
  (∀ ms x, TurnResult (.sete ms x) (fun s => s.fresh.2) (spadTurn (.sete ms x))) ∧
  (∀ a d, TurnResult (.pushShort a d) (fun s => s.fresh.2) (spadTurn (.pushShort a d))) ∧
  (∀ x, TurnResult (.push x) (fun s => s.fresh.2) (spadTurn (.push x))) ∧
  (∀ a d, TurnResult (.popShort a d) (fun s => s.fresh.2) (spadTurn (.popShort a d))) ∧
  (∀ x, TurnResult (.pop x) (fun s => s.fresh.2) (spadTurn (.pop x))) ∧
  (∀ a d, TurnResult (.rbrdShort a d) (fun s => s.fresh.2) (spadTurn (.rbrdShort a d))) ∧
  (∀ x, TurnResult (.rbrd x) (fun s => s.fresh.2) (spadTurn (.rbrd x))) ∧
  (∀ a d, TurnResult (.rbaddShort a d) (fun s => s.fresh.2) (spadTurn (.rbaddShort a d))) ∧
  (∀ x, TurnResult (.rbadd x) (fun s => s.fresh.2) (spadTurn (.rbadd x))) ∧
  (∀ op ty x, TurnResult (.atoms op ty x) (fun s => s.fresh.2) (spadTurn (.atoms op ty x))) ∧
  (∀ ty x, TurnResult (.cass ty x) (fun s => s.fresh.2) (spadTurn (.cass ty x))) ∧
  (∀ op ft x, TurnResult (.fatoms op ft x) (fun s => s.fresh.2) (spadTurn (.fatoms op ft x)))

/-- RBWAIT holds its lanes until their row word, and BANKREQ asks for a bank mode. Each active lane with a row word to wait for is
held; a bank request starts the switches it may and writes its answer, and a second clause of BANKREQ says so too where a bank
leaves FIFO mode and lanes of other waves take the bank-mode fault, on the hypotheses of a legal issue with active lanes and no
early trap, for every state and every operand, and says what is left unchanged. It names: RBWAIT_SHORT, RBWAIT, BANKREQ. (R128,
R129, R276, R292.) -/
def Obligations.RowWaitsAndBankRequestsComplete : Prop :=
  (∀ a d, TurnResult (.rbwaitShort a d) id (rbwaitTurn (.rbwaitShort a d))) ∧
  (∀ x, TurnResult (.rbwait x) id (rbwaitTurn (.rbwait x))) ∧
  (∀ x, OutcomeResult (.bankreq x) (bankreqOut x) ∧ EffectResult (.bankreq x) (fun _ _ _ _ => true) (bankreqAct x))

/-- TAKE, GIVE, ACINIT and STOCK act on the allowance of their counter. In turn from the lowest lane, each takes from the core's
allowance or sends its request to the till and waits for the answer, on the hypotheses of a legal issue with active lanes and no
early trap, for every state and every operand, and says what is left unchanged. It names: TAKE, TAKE_TRY, GIVE, ACINIT, STOCK.
(R284, R287, R288, R289.) -/
def Obligations.AllowancesComplete : Prop :=
  (∀ x, TurnResult (.take x) (fun s => s.fresh.2) (tillTurn (.take x))) ∧
  (∀ x, TurnResult (.takeTry x) (fun s => s.fresh.2) (tillTurn (.takeTry x))) ∧
  (∀ x, TurnResult (.give x) (fun s => s.fresh.2) (tillTurn (.give x))) ∧
  (∀ x, TurnResult (.acinit x) (fun s => s.fresh.2) (tillTurn (.acinit x))) ∧
  (∀ x, TurnResult (.stock x) (fun s => s.fresh.2) (tillTurn (.stock x)))

/-- Matrix instructions enter their unit on the resources they name. When the checks pass and the resources it names are its wave's
or free, the entry is on the matrix engine in order and the lanes go on, or they wait for room in the queue, on the hypotheses
of a legal issue with active lanes and no early trap, for every state and every operand, and says what is left unchanged. It
names: MLATB, MCBT, MZERO, MST, MMV, MMA, MMAS, MMAI. (R295, R296, R297, R298, R302, R303, R304, R305, R306, R307, R309, R311.) -/
def Obligations.MatrixOperationsComplete : Prop :=
  (∀ mf x, OutcomeResult (.mlatb mf x) (matOut (.mlatb mf x) (useMlatb mf (.mlatb mf x)) (partOnly (enterMlatb mf)))) ∧
  (∀ x, OutcomeResult (.mcbt x) (matOut (.mcbt x) (useMcbt (.mcbt x)) (partOnly (enterMcbt (.mcbt x))))) ∧
  (∀ x, OutcomeResult (.mzero x) (matOut (.mzero x) (useMzero (.mzero x)) (partOnly enterMzero))) ∧
  (∀ x, OutcomeResult (.mst x) (matOut (.mst x) (fun s w l => useRows (.mst x) (s.tileAt w.core x.dst.toNat).kind false s w l) (partOnly matEnter))) ∧
  (∀ x, OutcomeResult (.mmv x) (matOut (.mmv x) (fun s w l => useRows (.mmv x) (w2f x 17 16) true s w l) (partOnly enterMmv))) ∧
  (∀ mf x, OutcomeResult (.mma mf x) (matOut (.mma mf x) (useMma mf (.mma mf x)) (mmaDone (.mma mf x)))) ∧
  (∀ mf x, OutcomeResult (.mmas mf x) (matOut (.mmas mf x) (useMma mf (.mmas mf x)) (mmaDone (.mmas mf x)))) ∧
  (∀ mf x, OutcomeResult (.mmai mf x) (matOut (.mmai mf x) (useMma mf (.mmai mf x)) (mmaDone (.mmai mf x))))

/-- MRD, MSTAT, MWAIT, MREL and MSIGN read, wait for, release and sign matrix resources. Each has its effect on the signing state
and on its destination, or waits for what its rule names; MSTAT.CLR and MWAIT take the deferred reports of their resources; a
second clause of MREL says what a release does that serves waiting claims and armings of other waves, on the hypotheses of a
legal issue with active lanes and no early trap, for every state and every operand, and says what is left unchanged. It names:
MRD, MSTAT, MSTAT_CLR, MWAIT, MREL, MSIGN_SHORT, MSIGN. (R257, R258, R299, R300, R301, R310, R312.) -/
def Obligations.MatrixStateCompletes : Prop :=
  (∀ x, OutcomeResult (.mrd x) (mrdOut (.mrd x))) ∧
  (∀ x, OutcomeResult (.mstat x) (mstatOut (.mstat x) 0)) ∧
  (∀ x, OutcomeResult (.mstatClr x) (mstatOut (.mstatClr x) (w2f x 3 0))) ∧
  (∀ x, OutcomeResult (.mwait x) (mwaitOut (.mwait x))) ∧
  (∀ x, OutcomeResult (.mrel x) (mrelOut (.mrel x)) ∧ EffectResult (.mrel x) (fun n c u _ => !(n.coreAt u.core).busyRes c.wid (w2f x 4 0)) (mrelAct x)) ∧
  (∀ g, OutcomeResult (.msignShort g) (msignOut (.msignShort g))) ∧
  (∀ x, OutcomeResult (.msign x) (msignOut (.msign x)))

/-- Engine instructions post their command. A posting of one active lane that passes its checks in order recalls its lines, empties
its destination words and puts the command in its queue when there is room, on the hypotheses of a legal issue with active lanes
and no early trap, for every state and every operand, and says what is left unchanged. It names: TCOPY, TGATH, TSCAT, FCONV,
SRED, EMBAG. (R320, R321, R322.) -/
def Obligations.EnginePostingsComplete : Prop :=
  (∀ x, PostResult (.tcopy x)) ∧
  (∀ x, PostResult (.tgath x)) ∧
  (∀ x, PostResult (.tscat x)) ∧
  (∀ x, PostResult (.fconv x)) ∧
  (∀ x, PostResult (.sred x)) ∧
  (∀ x, PostResult (.embag x))

/-- Graphics instructions open passes, draw, enter and leave sections, and ask their units. RPASS opens its pass when a slot is
free, DRAW queues its draw, ORD.ENTER and ORD.LEAVE move the lanes through their sections, the list and ray instructions send
their requests, on the hypotheses of a legal issue with active lanes and no early trap, for every state and every operand, and
says what is left unchanged. It names: DRAW, RPASS_TILE, RPASS_IMM, ORD_ENTER, ORD_LEAVE, FLI, FLW, RAYQ, RAYQ_APP. (R343, R345,
R346, R351, R355, R357, R361, R364, R367, R369.) -/
def Obligations.GraphicsInstructionsComplete : Prop :=
  (∀ x, OutcomeResult (.draw x) (drawOut x)) ∧
  (∀ x, PassResult (.rpassTile x)) ∧
  (∀ x, PassResult (.rpassImm x)) ∧
  (∀ x, TurnResult (.ordEnter x) id (ordEnterTurn (.ordEnter x))) ∧
  (∀ x, SectionLeft (.ordLeave x)) ∧
  (∀ x, TurnResult (.fli x) (fun s => s.fresh.2) (fliTurn (.fli x))) ∧
  (∀ x, TurnResult (.flw x) (fun s => s.fresh.2) (flwTurn (.flw x))) ∧
  (∀ x, TurnResult (.rayq x) (fun s => s.fresh.2) (rayqTurn (.rayq x))) ∧
  (∀ x, TurnResult (.rayqApp x) (fun s => s.fresh.2) (rayqAppTurn (.rayqApp x)))

/-- SYSRD, SYSWR, SYSOP and ERET take their effect at the levels that may execute them. At a level that may execute it, a read
writes the register's value, a write changes the register as its map says, a service completes, and ERET returns its lanes;
second clauses say the same of SYSWR, of each SYSOP form and of ERET (with DISC 1 too) whatever becomes of other waves, the
reset that SYS.RUN asks for among them (number 0x401), on the hypotheses of a legal issue with active lanes and no early trap,
for every state and every operand, and says what is left unchanged. It names: SYSRD, SYSWR, SYSOP_ICINV, SYSOP_DCWB,
SYSOP_XLINV, SYSOP_XLINV_ALL, ERET. (R384, R385, R388, R389, R390, R391, R402, R453.) -/
def Obligations.SystemInstructionsComplete : Prop :=
  (∀ x, OutcomeResult (.sysrd x) (sysOut (.sysrd x) noWait (sysrdDone x))) ∧
  (∀ x, OutcomeResult (.syswr x) (sysOut (.syswr x) noWait (syswrDone x)) ∧ EffectResult (.syswr x) (fun n c u run => syswrFree x n c u run && (syswrWrite x n c u run).2) (syswrAct x)) ∧
  (∀ x, OutcomeResult (.sysopIcinv x) (sysOut (.sysopIcinv x) noWait (sysopDone icinvEff)) ∧ EffectResult (.sysopIcinv x) (fun n c u run => n.sysReady c.wid run && !noWait n c u run) (fun n c u run => ((icinvEff (n.sysFence c run) c u run).s, (icinvEff (n.sysFence c run) c u run).stay))) ∧
  (∀ x, OutcomeResult (.sysopDcwb x) (sysOut (.sysopDcwb x) noWait (sysopDone dcwbEff)) ∧ EffectResult (.sysopDcwb x) (fun n c u run => n.sysReady c.wid run && !noWait n c u run) (fun n c u run => ((dcwbEff (n.sysFence c run) c u run).s, (dcwbEff (n.sysFence c run) c u run).stay))) ∧
  (∀ x, OutcomeResult (.sysopXlinv x) (sysOut (.sysopXlinv x) (xlinvHeld x) (sysopDone (xlinvEff x))) ∧ EffectResult (.sysopXlinv x) (fun n c u run => n.sysReady c.wid run && !(xlinvHeld x) n c u run) (fun n c u run => (((xlinvEff x) (n.sysFence c run) c u run).s, ((xlinvEff x) (n.sysFence c run) c u run).stay))) ∧
  (∀ x, OutcomeResult (.sysopXlinvAll x) (sysOut (.sysopXlinvAll x) xlinvAllHeld (sysopDone xlinvAllEff)) ∧ EffectResult (.sysopXlinvAll x) (fun n c u run => n.sysReady c.wid run && !xlinvAllHeld n c u run) (fun n c u run => ((xlinvAllEff (n.sysFence c run) c u run).s, (xlinvAllEff (n.sysFence c run) c u run).stay))) ∧
  (∀ x, OutcomeResult (.eret x) eretOut ∧ EffectResult (.eret x) (fun _ _ u run => run.all (fun k => (u.lane k).inh)) eretAct)

/-- Results, stores, bank accesses and held writes land. A result on its way fills its destination; a store, a D-page access, a bank
access and a held write are performed when they may be; a refused store becomes a late fault. Each clause about an event gives
the whole state after it, under conditions on the state alone; the names of what an event is about are the model's own (log
entry 5). It names: DESTINATION_FILL, HOME_SLICE_STORE, D_PAGE_ACCESS, HELD_WRITE, REMOTE_SCRATCHPAD_ACCESS, LATE_STORE_FAULT.
(R85, R143, R160, R131, R166, R268, R397.) -/
def Obligations.AccessesLand : Prop :=
  (∀ (s : State) (f : Fill), look s.fills s.occ.id = some f → exec .destinationFill s = .next ({ s with fills := del s.fills s.occ.id }.deliver s.occ.id f)) ∧
  (∀ (s : State) (o : Op), look s.ops s.occ.id = some o → s.storeDue s.occ.id o s.occ.n = true → o.act = .store → o.outside = false → exec .homeSliceStore s = .next ((s.groupOf s.occ.id o).foldl (fun m x => match look m.ops x.1 with | some a => m.promote x.1 a s.occ.n | none => m) s).settleOps) ∧
  (∀ (s : State) (o : Op), look s.ops s.occ.id = some o → s.dDue s.occ.id o = true → exec .dPageAccess s = .next ((s.dBatch s.occ.id o).foldl (fun m x => match look m.ops x.1 with | some a => m.performD x.1 a | none => m) s).settleOps) ∧
  (∀ (s : State) (h : Held), look s.held s.occ.id = some h → s.heldDue s.occ.id h = true → exec .heldWrite s = .next (({ s with held := del s.held s.occ.id } : State).serveOuter h).settleOps) ∧
  (∀ (s : State) (o : Op), look s.ops s.occ.id = some o → s.bankDue s.occ.id o = true → exec .remoteScratchpadAccess s = .next ((s.bankGroup s.occ.id o).foldl (fun m x => m.arriveAt x.1 x.2) s).settleBanks) ∧
  (∀ (s : State) (o : Op), look s.ops s.occ.id = some o → s.bankDue s.occ.id o = false → s.bankWoken s.occ.id o = true → exec .remoteScratchpadAccess s = .next s.settleBanks) ∧
  (∀ (s : State) (o : Op), look s.ops s.occ.id = some o → o.writes = true → o.done = false → o.place = .line ∨ o.place = .dpage → s.occ.n = 2 → exec .lateStoreFault s = .next (s.refuse o 2).settleOps) ∧
  (∀ (s : State) (o : Op) (p : Nat), look s.ops s.occ.id = some o → o.writes = true → o.done = false → o.place = .peer p → (s.occ.n = 1 ∨ s.occ.n = 3) → exec .lateStoreFault s = .next (s.refuse o s.occ.n).settleOps)

/-- Bank modes change; translations, reclassifications and refused messages proceed. A write of BANKMODE asks for the 24 banks in
turn; a request for the mode that a bank has changes nothing, one that must be refused sets its REFUSED bit alone, and one that
is accepted clears the bit, sets the switching bit and starts the switch, which completes when it is due. An owner recall
removes the owner's translations, a reclassification completes, a walk answers from the agent's leaves, without translation, or
by walking the tables, and a message that the network refuses is counted, waits BASE x 2^min(k, 8) cycles and is replayed. Each
clause about an event gives the whole state after it, under conditions on the state alone; the names of what an event is about
are the model's own (log entry 5, 98, 99, 135). It names: BANKMODE_WRITE, BANK_SWITCH_COMPLETE, TRANSLATION_WALK, OWNER_RECALL,
RECLASSIFY_COMPLETE, NOC_REFUSAL, NOC_REPLAY. (R126, R127, R128, R129, R426, R428, R433, R434, R435.) -/
def Obligations.TranslationTrafficProceeds : Prop :=
  (∀ (s : State), s.occ.index < 60 → exec .bankmodeWrite s = .next ((List.range 24).foldl (fun m i => (m.requestSwitch s.occ.index i (bits s.occ.value.toNat (2 * i + 1) (2 * i)) (s.sysBits 0x1F s.occ.vi 0 0 == 1)).1) s)) ∧
  (∀ (s : State) (cluster i mode : Nat) (force : Bool), mode = s.bankMode cluster i → s.requestSwitch cluster i mode force = (s, false, false)) ∧
  (∀ (s : State) (cluster i mode : Nat) (force : Bool), mode ≠ s.bankMode cluster i → (mode = 3 ∨ has s.switches (24 * cluster + i) = true ∨ s.switchRefused cluster i mode force = true) → s.requestSwitch cluster i mode force = (s.sysSetBits 0x31 cluster (24 + i) (24 + i) 1, false, true)) ∧
  (∀ (s : State) (cluster i mode : Nat) (force : Bool), mode ≠ s.bankMode cluster i → s.switchRefused cluster i mode force = false → s.bankMode cluster i ≠ 2 → s.requestSwitch cluster i mode force = ({ (s.sysSetBits 0x31 cluster (24 + i) (24 + i) 0).sysSetBits 0x31 cluster i i 1 with switches := put s.switches (24 * cluster + i) mode }, true, false)) ∧
  (∀ (s : State) (mode : Nat), look s.switches (24 * s.occ.index + s.occ.n) = some mode → s.switchDue s.occ.index s.occ.n = true → exec .bankSwitchComplete s = .next (s.switched s.occ.index s.occ.n mode)) ∧
  (∀ (s : State), (tlbHit s.tlb s.occ.vi s.occ.core s.occ.value.toNat) = none → bits (s.sysAt 0x300 s.occ.vi) 63 63 = 0 → exec .translationWalk s = .next s) ∧
  (∀ (s : State) (m : State) (r : Xlat), s.translate s.occ.vi s.occ.core (if s.occ.ok then 1 else 0) s.occ.value.toNat s.occ.n (if s.occ.n = 2 then .atomic else .lane) = (m, r) → exec .translationWalk s = .next m) ∧
  (∀ (s : State) (t : Transit), look s.transit s.occ.pa = some t → t.recalled = false → exec .ownerRecall s = .next { s with tlb := s.tlb.filter (fun e => e.leafPa != s.occ.pa), transit := put s.transit s.occ.pa { t with recalled := true, since := s.gt } }) ∧
  (∀ (s : State) (t : Transit), look s.transit s.occ.pa = some t → s.reclassDue t = true → ∃ m, m.transit = del m.transit s.occ.pa ∧ (∀ e ∈ m.tlb, e.leafPa ≠ s.occ.pa) ∧ m = s.reclassNow s.occ.pa ∧ exec .reclassifyComplete s = .next m.settleOps) ∧
  (∀ (s : State), ∃ w : Window, w.refused = (lookD s.noc (windowKey s.occ) {}).refused + 1 ∧ w.wait = (s.coreAt s.occ.core).cycle + max 1 (s.sysBits 0x207 0xFF 7 0) * 2 ^ min w.refused 8 ∧ w.msgs = s.windowFrom (windowKey s.occ) s.occ.id ∧ exec .nocRefusal s = .next (({ s with noc := put s.noc (windowKey s.occ) w } : State).countSlice s.occ.index s.occ.vi 0x107 1)) ∧
  (∀ (s : State) (w : Window), look s.noc (windowKey s.occ) = some w → w.replayed = false → w.wait ≤ (s.coreAt s.occ.core).cycle → exec .nocReplay s = .next (let t := s.countSlice s.occ.index s.occ.vi 0x108 1; { t with noc := put t.noc (windowKey s.occ) { w with refused := 0, replayed := true } }))

/-- Sleeping lanes wake and waiting lanes time out with their traps. When its time has come, a lane wakes, or takes the trap of the
time-out that its wait is bounded by, with the information that the rule gives. Each clause about an event gives the whole state
after it, under conditions on the state alone; the names of what an event is about are the model's own (log entry 5, 75, 87). It
names: SLEEP_WAKE, BARRIER_TIMEOUT, COMMIT_WAIT_TIMEOUT, ROW_BARRIER_TIMEOUT, SIGNING_TIMEOUT, ARMING_TIMEOUT,
MATRIX_CLAIM_TIMEOUT, ENGINE_QUEUE_TIMEOUT, ALLOWANCE_WAIT_TIMEOUT, ORD_ENTRY_TIMEOUT, ORD_SECTION_TIMEOUT, GRAPHICS_TIMEOUT.
(R82, R252, R258, R264, R276, R291, R300, R307, R321, R346, R358, R359.) -/
def Obligations.LanesWakeAndTimeOut : Prop :=
  (∀ (s : State) (d : Nat), (s.laneAt s.occ.wid s.occ.lane).wait = .sleep d → d ≤ s.gt → exec .sleepWake s = .next (s.leave s.occ.wid s.occ.lane)) ∧
  (∀ (s : State) (b : Barrier), look s.barriers s.occ.id = some b → s.barrierExpired b = true → s.barrierFull b = false → exec .barrierTimeout s = .next (((b.arrived.map Prod.fst).eraseDups).foldl (fun m wid => m.raiseWaiting wid ((b.arrived.filter (fun a => a.1 == wid)).map Prod.snd) (s.barrierInfo s.occ.id b)) { s with barriers := del s.barriers s.occ.id })) ∧
  (∀ (s : State) (due ticks : Nat), (s.laneAt s.occ.wid s.occ.lane).wait = .commit due ticks → s.expired due = true → s.holdsToken (s.laneAt s.occ.wid s.occ.lane).item = false → exec .commitWaitTimeout s = .next (s.takeTrap s.occ.wid [s.occ.lane] (s.laneAt s.occ.wid s.occ.lane).pc { kind := 0x15, i0 := dw ticks })) ∧
  (∀ (s : State) (a b addr due : Nat) (traps : Bool), (s.laneAt s.occ.wid s.occ.lane).wait = .rowBar a b addr due traps → s.expired due = true → exec .rowBarrierTimeout s = .next (s.takeTrap s.occ.wid [s.occ.lane] (s.laneAt s.occ.wid s.occ.lane).pc { kind := 0x16, i0 := dw addr })) ∧
  (∀ (s : State) (g due : Nat) (b : Bool), (s.laneAt s.occ.wid s.occ.lane).wait = .sign g due b → s.expired due = true → exec .signingTimeout s = .next (s.takeTrap s.occ.wid [s.occ.lane] (s.laneAt s.occ.wid s.occ.lane).pc (resTrap 0x0E g))) ∧
  (∀ (s : State) (id : Nat) (a : Arming), (s.coreAt (s.waveAt s.occ.wid).core).armings.find? (fun x => x.2.wid == s.occ.wid && s.expired x.2.due) = some (id, a) → exec .armingTimeout s = .next ((s.raiseTraps s.occ.wid (s.laneAt s.occ.wid (a.lanes.headD 0)).pc (a.lanes.map (fun k => (k, resTrap 0x0E a.g)))).settleMatrix (s.waveAt s.occ.wid).core)) ∧
  (∀ (s : State) (o r : Nat), (s.waveAt s.occ.wid).idx.findSome? (fun k => s.claimOver ((s.waveAt s.occ.wid).lane k)) = some (o, r) → exec .matrixClaimTimeout s = .next ((s.raiseTraps s.occ.wid ((s.waveAt s.occ.wid).lane (((s.waveAt s.occ.wid).idx.filter (fun k => ((s.waveAt s.occ.wid).lane k).claims o)).headD 0)).pc (((s.waveAt s.occ.wid).idx.filter (fun k => ((s.waveAt s.occ.wid).lane k).claims o)).map (fun k => (k, resTrap 0x1A r)))).serveClaims (s.waveAt s.occ.wid).core)) ∧
  (∀ (s : State) (id : Nat) (c : Cmd), s.cmds.find? (fun x => !x.2.queued && x.2.wid == s.occ.wid && x.2.lane == s.occ.lane) = some (id, c) → s.expired c.due = true → exec .engineQueueTimeout s = .next (s.takeTrap s.occ.wid [s.occ.lane] (s.laneAt s.occ.wid s.occ.lane).pc { kind := 0x1C, i0 := dw c.blkAddr }).settleOps) ∧
  (∀ (s : State) (m : TillMsg), look s.tillMsgs s.occ.id = some m → m.act = .take → s.expired m.due = true → exec .allowanceWaitTimeout s = .next (s.takeTrap m.wid [m.lane] (s.laneAt m.wid m.lane).pc { kind := 0x14, i0 := m.va })) ∧
  (∀ (s : State) (due : Nat) (o : Ord), ((s.waveAt s.occ.wid).lane s.occ.lane).wait = .ordEnter due → ((s.waveAt s.occ.wid).lane s.occ.lane).ord = some o → s.expired due = true → exec .ordEntryTimeout s = .next ((s.modLane s.occ.wid s.occ.lane (fun l => { l with wait := .ordEnter 0 })).raiseNow s.occ.wid s.occ.lane (orderedTrap ((s.waveAt s.occ.wid).lane s.occ.lane) 0xA2 7 ((s.ordBlockers (s.waveAt s.occ.wid).pass o).foldl min ((s.ordBlockers (s.waveAt s.occ.wid).pass o).headD 0))))) ∧
  (∀ (s : State) (o : Ord), ((s.waveAt s.occ.wid).lane s.occ.lane).ord = some o → o.inside = true → s.expired o.due = true → exec .ordSectionTimeout s = .next ((s.modLane s.occ.wid s.occ.lane (fun l => { l with ord := some { o with due := 0 } })).raiseNow s.occ.wid s.occ.lane (orderedTrap ((s.waveAt s.occ.wid).lane s.occ.lane) (descOf (s.peek (s.waveAt s.occ.wid) ((s.waveAt s.occ.wid).lane s.occ.lane))).opc 6 0))) ∧
  (∀ (s : State), exec .graphicsTimeout s = .next (s.gfxAsks.foldl (fun m x => m.trapAsk s.occ.wid x.1 x.2) s))

/-- Trap and event records reach their rings or time out; wait cycles are reported. A written record enters the handler, a ring that
stays full stalls its record as the rule says, the detector scans and reports, and an illegal word traps. Each clause about an
event gives the whole state after it, under conditions on the state alone; the names of what an event is about are the model's
own (log entry 5). It names: TRAP_HANDLER_ENTRY, TRAP_RING_TIMEOUT, LATE_RECORD_TIMEOUT, EVENT_RECORD_TIMEOUT, WAIT_CYCLE_SCAN,
ILLEGAL_INSTRUCTION. (R392, R395, R396, R397, R399, R422, R425, R190.) -/
def Obligations.RecordsReachTheirRings : Prop :=
  (∀ (s : State) (r : TrapReq), look s.trapReqs s.occ.id = some r → s.recordDue s.occ.id r = true → r.written = true → exec .trapHandlerEntry s = .next (({ s with trapReqs := del s.trapReqs s.occ.id } : State).enterHandler r.wid r.lanes r.slot (bits r.word0.toNat 53 53 == 1) r.word0.toNat r.pc r.key r.info)) ∧
  (∀ (s : State) (r : TrapReq), look s.trapReqs s.occ.id = some r → s.ringStalled r = true → exec .trapRingTimeout s = .next ((({ s with trapReqs := del s.trapReqs s.occ.id } : State).stallRecord r).killWave r.wid 2)) ∧
  (∀ (s : State) (r : TrapReq) (i : Issuer), look s.trapReqs s.occ.id = some r → s.lateStalled s.occ.id r = true → s.issuer? r.item = some i → exec .lateRecordTimeout s = .next ((({ s with trapReqs := del s.trapReqs s.occ.id } : State).stallRecord r).modJob i.lid (fun j => { j with failed := 3 }))) ∧
  (∀ (s : State) (e : EventReq), look s.eventReqs s.occ.id = some e → s.eventStalled s.occ.id e = true → ∃ m : State, m = ({ s with eventReqs := del s.eventReqs s.occ.id } : State).fatalRecord e.vi (recordWord0 0x3E 0 0 0 0 0 0) 0 0 0 { kind := 0x3E, i1 := 1 } ∧ exec .eventRecordTimeout s = .next (m.drainEvents m.eventReqs.length e.vi)) ∧
  (∀ (s : State), s.scanDue s.occ.part = true → s.waitCycles s.occ.part s.wcdPeriod = [] → exec .waitCycleScan s = .next { s with scanAt := put s.scanAt s.occ.part (s.gt + s.wcdPeriod) }) ∧
  (∀ (s : State) (ws : List Nat), s.scanDue s.occ.part = true → s.waitCycles s.occ.part s.wcdPeriod = [ws] → s.reported.any (fun r => sameSet r ws) = false → exec .waitCycleScan s = .next (({ s with scanAt := put s.scanAt s.occ.part (s.gt + s.wcdPeriod) } : State).reportCycle ws)) ∧
  (∀ (s : State) (c : Issue) (w : Wave), s.cur = some c → s.wave? c.wid = some w → exec .illegalInstruction s = .next ((s.taken.noteIssue c.wid (c.lanes.filter (fun k => (w.lane k).live && (w.lane k).wait == .run && (w.lane k).pc == c.pc && (w.lane k).trapNow.isNone))).raiseTraps c.wid c.pc ((c.lanes.filter (fun k => (w.lane k).live && (w.lane k).wait == .run && (w.lane k).pc == c.pc && (w.lane k).trapNow.isNone)).map (fun k => (k, illegalTrap c.pc)))))

/-- A core decides its issues of a cycle, and a solo fetch brings its word. The issues that a core decides for a cycle are appended
to those to execute, and the word of a lane in solo execution arrives in its buffer. Each clause about an event gives the whole
state after it, under conditions on the state alone; the names of what an event is about are the model's own (log entry 5). It
names: ISSUE_CYCLE, SOLO_FETCH. (R67, R68, R69, R70, R71, R72, R73, R74, R76.) -/
def Obligations.CoresIssue : Prop :=
  (∀ (s : State), exec .issueCycle s = .next { (s.decideIssues s.occ.core).1 with issues := (s.decideIssues s.occ.core).1.issues ++ (s.decideIssues s.occ.core).2 } ∧ ∀ i ∈ (s.decideIssues s.occ.core).2, i.solo = true ∨ ∃ x ∈ ports ((s.startCycle s.occ.core).cands s.occ.core) 4 [], i ∈ x.1.issues x.2) ∧
  (∀ (cs : List Cand), ((ports cs 4 []).map (fun x => x.2.length)).sum ≤ 4 ∧ (ports cs 4 []).Pairwise (fun a b => a.1.w.meets b.1.w = false)) ∧
  (∀ (s : State) (x : Word) (m : State), s.soloDue s.occ.wid s.occ.lane = true → s.fetchWord (s.waveAt s.occ.wid) (s.laneAt s.occ.wid s.occ.lane).level ((s.laneAt s.occ.wid s.occ.lane).pc.toNat + 4 * (s.laneAt s.occ.wid s.occ.lane).soloGot) = (m, .ok x) → exec .soloFetch s = .next (m.soloArrives s.occ.wid s.occ.lane (s.waveAt s.occ.wid) (s.laneAt s.occ.wid s.occ.lane) (s.laneAt s.occ.wid s.occ.lane).soloGot x))

/-- The scheduler accepts, starts, places, packs, completes and cancels work. A launch is accepted from its queue, starts, its waves
and items are placed, spawned groups are packed, issuers complete, and a cancel is accepted and reaches the cores. Each clause
about an event gives the whole state after it, under conditions on the state alone; the names of what an event is about are the
model's own (log entry 5). It names: LAUNCH, LAUNCH_START, WAVE_PLACE, SPAWN_DECISION, PACK_WAVE, PACK_WAIT_EXPIRE,
WAVE_COMPLETE, CANCEL, CANCEL_REACH. (R46, R49, R50, R53, R55, R58, R59, R60, R260, R406, R409, R420.) -/
def Obligations.SchedulerWorks : Prop :=
  (∀ (s : State) (num : Nat) (x : List Nat) (j : Job) (m n : State), s.canRead s.occ.vi = true → s.nextOp s.occ.vi ≠ 2 → s.takeEntry s.occ.vi = (m, some (num, x)) → m.entryError s.occ.vi x = none → m.launchJob s.occ.vi num x = (n, some j) → exec .launch s = .next { n with nid := n.nid + 1, jobs := put n.jobs n.nid j }) ∧
  (∀ (s : State) (j : Job), s.job? s.occ.id = some j → s.startDue s.occ.id j = true → j.sroom = 0 → exec .launchStart s = .next (s.startJob s.occ.id j)) ∧
  (∀ (s : State) (j : Job) (m : State) (pa : Nat), s.job? s.occ.id = some j → s.startDue s.occ.id j = true → j.sroom ≠ 0 → s.engNow (gfxAgent j.vi partCore j.level) j.sctr.toNat 1 = (m, .ok (pa, false)) → isMemory pa = true → m.till? pa = none → m.tillFree pa = true → exec .launchStart s = .next ((m.createCounter pa (j.sroom * j.cores.length) j.vi).startJob s.occ.id { j with sctrPa := pa })) ∧
  (∀ (s : State) (id : Nat) (i : Issuer) (j : Job) (p : Spot), s.placeFor s.occ.core = some (.launched id i j, p) → exec .wavePlace s = .next (({ s with ctr := s.ctr + 1 } : State).placeLaunched id i j p)) ∧
  (∀ (s : State) (id : Nat) (f : Formed) (p : Spot), s.placeFor s.occ.core = some (.formed id f, p) → isPassKind f.kind = true → exec .wavePlace s = .next (({ s with ctr := s.ctr + 1 } : State).placeGraphics id f s.occ.core p)) ∧
  (∀ (s : State) (id : Nat) (f : Formed) (j : Job) (p : Spot), s.placeFor s.occ.core = some (.formed id f, p) → isPassKind f.kind = false → s.job? f.lid = some j → f.items.all (fun k => ((s.issuer? k).filter (fun i => i.stage == .unplaced)).isNone) = false → exec .wavePlace s = .next (({ s with ctr := s.ctr + 1 } : State).placeSpawned id f j p)) ∧
  (∀ (s : State) (r : SpawnReq) (j : Job) (cs : List (SpawnAsk × Option Nat × Option Prog)) (m n : State), look s.spawns s.occ.id = some r → s.job? (s.waveAt r.wid).lid = some j → s.spawnCauses r j = (m, cs) → cs.any (fun x => x.2.1.isSome) = false → j.cancelAt = none → m.tryNow j.sctrPa r.core cs.length = (n, true) → exec .spawnDecision s = .next (n.spawnItems s.occ.id (s.waveAt r.wid).lid r j cs)) ∧
  (∀ (s : State) (es : List (Nat × Issuer)), s.nextGroup s.occ.core = some es → s.groupFull s.occ.core es = true → exec .packWave s = .next (s.packGroup s.occ.core es)) ∧
  (∀ (s : State) (es : List (Nat × Issuer)), s.nextGroup s.occ.core = some es → s.groupFull s.occ.core es = false → exec .packWaitExpire s = .next (s.packGroup s.occ.core es)) ∧
  (∀ (s : State) (i : Issuer), s.issuer? s.occ.id = some i → s.completeDue s.occ.id i = true → exec .waveComplete s = .next (((s.countDown i).completeIssuer s.occ.id).settleBarriers.drainJobs)) ∧
  (∀ (s : State) (num : Nat) (x : List Nat) (lid : Nat) (j : Job) (m : State), s.canRead s.occ.vi = true → s.nextOp s.occ.vi = 2 → s.takeEntry s.occ.vi = (m, some (num, x)) → m.entryError s.occ.vi x = none → m.jobs.find? (fun y => y.2.vi == s.occ.vi && y.2.num == entryField x 8 31 0 && !y.2.isCancel) = some (lid, j) → j.started = true → exec .cancel s = .next { m with nid := m.nid + 1, jobs := put (put m.jobs m.nid { vi := s.occ.vi, num := num, isCancel := true, target := lid, tag := entryField x 0 31 0, accepted := m.gt }) lid { j with cancelAt := some (j.cancelAt.getD m.gt) } }) ∧
  (∀ (s : State) (j : Job), s.job? s.occ.id = some j → j.cancelAt.isSome = true → j.reached.contains s.occ.core = false → s.coreOfVi j.vi s.occ.core = true → exec .cancelReach s = .next (s.cancelOn s.occ.id s.occ.core))

/-- Issuers commit in order, and requests at tills are decided. The token holder commits, a full version share aborts the highest
holder, and takes, gives, inits and stocktakes are decided at their till. Each clause about an event gives the whole state after
it, under conditions on the state alone; the names of what an event is about are the model's own (log entry 5). It names:
COMMIT, VERSION_SHARE_ABORT, TILL_TAKE, TILL_GIVE, TILL_ACINIT, TILL_STOCK, STOCKTAKE_RECALL. (R160, R161, R165, R284, R285,
R286, R287, R288, R289.) -/
def Obligations.CommitsAndTillsProceed : Prop :=
  (∀ (s : State) (id : Nat), s.commitDue s.occ.vi = true → s.tokenHolder s.occ.vi = some id → exec .commit s = .next (s.commitIssuer s.occ.vi id)) ∧
  (∀ (s : State) (id : Nat), s.shareVictim s.occ.vi s.occ.n = some id → exec .versionShareAbort s = .next ((s.countSlice s.occ.n s.occ.vi 0x104 (s.spreadAll s.issuers.length [id]).length).abortAll [id]).settleOps) ∧
  (∀ (s : State) (m : TillMsg) (t : Till), look s.tillMsgs s.occ.id = some m → s.tillOpen s.occ.id m = true → s.till? m.line = some t → m.act = .tryTake → m.n ≤ t.till → exec .tillTake s = .next ((((s.grant m.line m.core m.n (t.queue.length + 1)).tillLinks m.wid m.core m.lane m.line).endTill s.occ.id m (some 0)).modTill m.line (fun t => { t with examine := !t.queue.isEmpty }))) ∧
  (∀ (s : State) (m : TillMsg) (t : Till), look s.tillMsgs s.occ.id = some m → s.tillOpen s.occ.id m = true → s.till? m.line = some t → m.act = .take → m.queued = false → m.n ≤ t.limit → exec .tillTake s = .next (s.queueTake s.occ.id m)) ∧
  (∀ (s : State) (m : TillMsg) (t : Till), look s.tillMsgs s.occ.id = some m → s.tillOpen s.occ.id m = true → s.till? m.line = some t → m.act = .take → m.queued = true → t.examine = true → exec .tillTake s = .next ((s.modTill m.line (fun t => { t with examine := false })).examine m.line)) ∧
  (∀ (s : State) (m : TillMsg) (t : Till), look s.tillMsgs s.occ.id = some m → s.tillOpen s.occ.id m = true → s.till? m.line = some t → m.act = .give → m.n ≠ 0 → t.till + m.n + (vals t.grants).foldl (· + ·) 0 ≤ t.limit → exec .tillGive s = .next (((s.modTill m.line (fun t => { t with till := t.till + m.n, examine := !t.queue.isEmpty })).markTill m).endTill s.occ.id m none)) ∧
  (∀ (s : State) (m : TillMsg) (t : Till), look s.tillMsgs s.occ.id = some m → s.tillOpen s.occ.id m = true → s.till? m.line = some t → m.act = .give → m.n = 0 → exec .tillGive s = .next (((s.modTill m.line (fun t => { t with examine := !t.queue.isEmpty })).markTill m).endTill s.occ.id m none)) ∧
  (∀ (s : State) (m : TillMsg), look s.tillMsgs s.occ.id = some m → m.act = .acinit → s.tillOpen s.occ.id m = true → s.lineClear m = true → s.till? m.line = none → s.tillFree m.line = true → m.n ≤ m.lim → 0 < m.lim → exec .tillAcinit s = .next (((({ s.recallLine m.line with tills := put (s.recallLine m.line).tills m.line { till := m.n, limit := m.lim, vi := m.vi } } : State).writeImage m.line m.n m.lim 0).markTill m).endTill s.occ.id m none)) ∧
  (∀ (s : State) (m : TillMsg) (t : Till), look s.tillMsgs s.occ.id = some m → s.tillOpen s.occ.id m = true → s.till? m.line = some t → m.act = .stock → exec .tillStock s = .next (s.startStock m.line s.occ.id)) ∧
  (∀ (s : State) (t : Till) (c : Nat), s.till? s.occ.pa = some t → t.stock = some [c] → exec .stocktakeRecall s = .next ((s.returnAllowance c s.occ.pa).finishStock s.occ.pa)) ∧
  (∀ (s : State) (t : Till) (c d : Nat) (rest : List Nat), s.till? s.occ.pa = some t → t.stock = some (c :: d :: rest) → exec .stocktakeRecall s = .next ((s.returnAllowance c s.occ.pa).modTill s.occ.pa (fun t => { t with stock := some (d :: rest) })))

/-- Engines perform the next part of their commands. The next word of a copy, of a conversion's source or tile, of a reduction's
sources, results, flag or status, and of a bag's rows or pooled values is moved; a late delivery, a matrix entry and a table
slot are performed. Each clause about an event gives the whole state after it, under conditions on the state alone; the names of
what an event is about are the model's own (log entry 5, 30, 31, 124, 125). It names: TILE_COPY_ROW, FCONV_TILE, SRED_ELEMENT,
EMBAG_BAG, LATE_DELIVERY, MATRIX_ENTRY, TABLE_SLOT_FILL. (R304, R308, R325, R326, R327, R331, R334, R335, R336, R337, R338,
R341.) -/
def Obligations.EnginesPerform : Prop :=
  (∀ (s : State) (c : Cmd) (m : State) (a x : Nat), look s.cmds s.occ.id = some c → c.kind.copies = true → s.running c = true → s.occ.n < c.rows → c.done ≤ s.occ.n → c.landed.contains s.occ.n = false → c.toGlobal = false → c.globalRow s.occ.n = some a → s.engRead s.occ.id c ((a + 4 * c.at? s.occ.n) % 2 ^ 64) 4 = (m, .got x) → (c.ending && c.at? s.occ.n == 0) = false → m.wordSpan c (c.wordVa s.occ.n (c.at? s.occ.n)) = .got 0 → exec .tileCopyRow s = .next ((m.landWord c (c.wordAt s.occ.n (c.at? s.occ.n)) x).stepRow s.occ.id c s.occ.n c.width)) ∧
  (∀ (s : State) (c : Cmd) (a : Nat), look s.cmds s.occ.id = some c → c.kind.copies = true → s.running c = true → s.occ.n < c.rows → c.done ≤ s.occ.n → c.landed.contains s.occ.n = false → c.toGlobal = true → s.occ.n = c.done → c.globalRow s.occ.n = some a → c.rowFar a = false → s.wordsFull [c.wordAt s.occ.n (c.at? s.occ.n)] = true → s.segsReady s.occ.id c (c.segAt s.occ.n (4 * c.at? s.occ.n) 4) = true → (c.ending && c.at? s.occ.n == 0) = false → s.wordSpan c (c.wordVa s.occ.n (c.at? s.occ.n)) = .got 0 → exec .tileCopyRow s = .next ((s.writeSegs c (c.segAt s.occ.n (4 * c.at? s.occ.n) 4) (toBytes 4 (s.spadAt (c.wordAt s.occ.n (c.at? s.occ.n))).val.toNat)).stepRow s.occ.id c s.occ.n c.width)) ∧
  (∀ (s : State) (c : Cmd), look s.cmds s.occ.id = some c → c.kind = .fconv → s.running c = true → c.at? c.done < 64 * c.elt → s.wordsFull [c.wordAt c.done (c.at? c.done)] = true → s.wordSpan c (c.wordVa c.done (c.at? c.done)) = .got 0 → exec .fconvTile s = .next (s.keepWord s.occ.id c (s.spadAt (c.wordAt c.done (c.at? c.done))).val.toNat)) ∧
  (∀ (s : State) (c : Cmd) (off x : Nat), look s.cmds s.occ.id = some c → c.kind = .fconv → s.running c = true → 64 * c.elt ≤ c.at? c.done → c.slot?[c.at? c.done - 64 * c.elt]? = some (off, x) → s.segsReady s.occ.id c (c.segAt c.done off 4) = true → exec .fconvTile s = .next ((s.writeSegs c (c.segAt c.done off 4) (toBytes 4 x)).stepRow s.occ.id c c.done (64 * c.elt + c.slot?.length))) ∧
  (∀ (s : State) (c : Cmd) (m : State) (x : Nat), look s.cmds s.occ.id = some c → c.kind = .sred → s.running c = true → c.phase = 0 → c.at? c.done < c.idx.length * c.redWords → s.engRead s.occ.id c ((c.idx.getD (c.at? c.done / c.redWords) 0 + c.done * c.redBytes + 4 * (c.at? c.done % c.redWords)) % 2 ^ 64) 4 = (m, .got x) → exec .sredElement s = .next (m.keepWord s.occ.id c x)) ∧
  (∀ (s : State) (c : Cmd) (m : State), look s.cmds s.occ.id = some c → c.kind = .sred → s.running c = true → c.phase = 0 → c.idx.length * c.redWords ≤ c.at? c.done → s.sumWord s.occ.id c (c.at? c.done - c.idx.length * c.redWords) = some m → exec .sredElement s = .next m) ∧
  (∀ (s : State) (c : Cmd) (m : State), look s.cmds s.occ.id = some c → c.kind = .sred → s.running c = true → 1 ≤ c.phase → (if 3 ≤ c.phase then s.flagStep s.occ.id c else s.statusStep s.occ.id c) = some m → exec .sredElement s = .next m) ∧
  (∀ (s : State) (c : Cmd) (m : State) (x : Nat), look s.cmds s.occ.id = some c → c.kind = .embag → s.running c = true → c.at? c.done < c.bagPlaces.length * c.bagStride → s.bagWord s.occ.id c (c.bagPlaces.getD (c.at? c.done / c.bagStride) 0) (c.at? c.done % c.bagStride) (c.acc.getD (c.at? c.done / c.bagStride * c.bagStride) 0) = (m, .got x) → exec .embagBag s = .next (m.keepWord s.occ.id c x)) ∧
  (∀ (s : State) (c : Cmd), look s.cmds s.occ.id = some c → c.kind = .embag → s.running c = true → c.bagPlaces.length * c.bagStride ≤ c.at? c.done → s.wordSpan c (c.wordVa c.done (c.at? c.done - c.bagPlaces.length * c.bagStride)) = .got 0 → exec .embagBag s = .next (s.poolWord s.occ.id c (c.at? c.done - c.bagPlaces.length * c.bagStride) (c.bagPlaces.length * c.bagStride))) ∧
  (∀ (s : State) (c : Cmd), look s.cmds s.occ.id = some c → s.lateDue c = true → exec .lateDelivery s = .next (({ s with cmds := put s.cmds s.occ.id { c with late := true } } : State).engineTrap s.occ.id c (c.info 0x1D 0 0))) ∧
  (∀ (s : State) (e : MatEntry) (rest : List MatEntry), (s.coreAt s.occ.core).mq = e :: rest → s.entryDue s.occ.core e = true → exec .matrixEntry s = .next (s.performHead s.occ.core e rest)) ∧
  (∀ (s : State) (x : TableLoad) (rest : List TableLoad), (s.coreAt s.occ.core).loader = x :: rest → s.slotDue s.occ.core = true → s.checkRuns x.vi s.occ.core true 0 [(x.addr, 16)] = .full → exec .tableSlotFill s = .next (s.fillSlot s.occ.core x rest))

/-- The graphics units perform lists, rays, draws, resolves and closes. The list port and the ray unit perform their requests, the
raster accepts a draw and forms waves, and a pass resolves and closes. Each clause about an event gives the whole state after
it, under conditions on the state alone; the names of what an event is about are the model's own (log entry 5, 30, 59, 78). It
names: FLI_PERFORM, FLW_PERFORM, RAY_TRAVERSAL, DRAW_ACCEPT, RASTER_WAVE_FORM, RESOLVE_PHASE, PASS_CLOSE. (R347, R350, R351,
R352, R353, R362, R363, R364, R366, R367, R368, R370.) -/
def Obligations.GraphicsUnitsPerform : Prop :=
  (∀ (s : State) (q : GfxReq) (p : Pass) (m : State) (o : FliOut), look s.gfx s.occ.id = some q → q.opc = 0xA3 → q.inside = true → s.gfxReady s.occ.id q = true → look s.passes q.pass = some p → s.fliStep q.pass p q.rt q.pixel.toNat q.depth.toNat q.payload.toNat = (m, .ok o) → exec .fliPerform s = .next (m.fillGfx s.occ.id q (o.status + (o.ret.map LNode.depth).getD 0 * 2 ^ 32 + (o.ret.map LNode.payload).getD 0 * 2 ^ 64) o.flags)) ∧
  (∀ (s : State) (q : GfxReq) (p : Pass) (m : State) (v : Nat), look s.gfx s.occ.id = some q → q.opc = 0xA4 → s.gfxReady s.occ.id q = true → look s.passes q.pass = some p → q.cursor ≠ 0xFFFFFFFE → q.cursor ≠ 0xFFFFFFFF → p.allocated (p.clusterOfTile (p.tileOf (bits q.pixel.toNat 13 0) (bits q.pixel.toNat 27 14))) q.cursor.toNat = true → s.readLoc p (coreOfCluster (p.clusterOfTile (p.tileOf (bits q.pixel.toNat 13 0) (bits q.pixel.toNat 27 14))) 0) 16 (p.nodeLoc (p.clusterOfTile (p.tileOf (bits q.pixel.toNat 13 0) (bits q.pixel.toNat 27 14))) q.cursor.toNat) = (m, .ok v) → exec .flwPerform s = .next (m.fillGfx s.occ.id q (bits v 63 32 + bits v 31 0 * 2 ^ 32 + bits v 127 64 * 2 ^ 64) 0)) ∧
  (∀ (s : State) (q : GfxReq) (m : State) (hs : List Hit), look s.gfx s.occ.id = some q → q.opc = 0xA5 → s.rayReady s.occ.id q = true → q.gone = false → q.app = false → (rayOf (q.ray.map BitVec.toNat)).meets = true → s.traverse q (s.waveAt q.wid) (rayOf (q.ray.map BitVec.toNat)) 1048576 [(false, 0)] [] = (m, .hits hs) → exec .rayTraversal s = .next (m.endRay s.occ.id q (rayResult hs).1 (rayResult hs).2)) ∧
  (∀ (s : State) (p : Pass) (id : Nat) (a : GfxAsk) (m : State) (prims : List (List Nat)), s.drawDue s.occ.pass = true → look s.passes s.occ.pass = some p → s.nextDraw s.occ.pass = some (id, a) → p.drawTrap a = none → s.readRecords a (s.waveAt a.wid) = (m, .ok prims) → exec .drawAccept s = .next (m.acceptDraw id a p prims)) ∧
  (∀ (s : State) (p : Pass) (n : Nat) (d : Draw) (qs : List Quad), look s.passes s.occ.pass = some p → p.nextFragWave s.occ.n = some (n, d, qs) → p.stored = none → exec .rasterWaveForm s = .next (s.formFragments s.occ.pass s.occ.n p n d qs)) ∧
  (∀ (s : State) (p q : Pass) (m : State) (cl : Nat), look s.passes s.occ.pass = some p → p.resolving = true ∨ s.fragmentsDone s.occ.pass p = true → p.stored = none → s.resolveAt p = (q, m) → q.nextResolve = some cl → m.resolveHeld cl q = none → exec .resolvePhase s = .next (m.formResolve s.occ.pass cl q)) ∧
  (∀ (s : State) (p : Pass), look s.passes s.occ.pass = some p → s.resolvesDone s.occ.pass p = true → exec .passClose s = .next (s.closePass s.occ.pass p))

/-- Requests of the host are performed inside its windows and refused outside them. An RDMA write, an RDMA read and an atomic that
lie in a region of the interface's inbound window are performed, and are refused outside it; a write to a doorbell writes its
register; a send is refused; a connection that is made or breaks changes HOSTLINK, and a break fails the accesses on their way.
Each clause about an event gives the whole state after it, under conditions on the state alone; the names of what an event is
about are the model's own (log entry 5, 100, 102, 133). It names: HOST_RDMA_WRITE, HOST_RDMA_READ, HOST_ATOMIC, HOST_SEND,
QUEUE_PAIR_CONNECTED, BROKEN_CONNECTION. (R443, R444, R445, R446, R447.) -/
def Obligations.HostRequestsAreServed : Prop :=
  (∀ (s : State), s.roceUp s.occ.port = true → s.occ.ok = false → inboundOk (s.sysAt 0x4C2 s.occ.vi) s.occ.pa (reqSize (.store s.occ.data)) (reqWrites (.store s.occ.data)) = true → exec .hostRdmaWrite s = .next (s.takeOuter { pa := s.occ.pa, req := (.store s.occ.data), port := (rocePort s.occ.port).1, dest := s.occ.vi, cage := (rocePort s.occ.port).2 })) ∧
  (∀ (s : State), s.roceUp s.occ.port = true → s.occ.ok = false → inboundOk (s.sysAt 0x4C2 s.occ.vi) s.occ.pa (reqSize (.store s.occ.data)) (reqWrites (.store s.occ.data)) = false → exec .hostRdmaWrite s = .next (s.send { port := (rocePort s.occ.port).1, dest := s.occ.vi, kind := 8, addr := s.occ.pa, cage := (rocePort s.occ.port).2 })) ∧
  (∀ (s : State) (num : Nat), s.roceUp s.occ.port = true → s.occ.ok = true → doorbellReg s.occ.pa = some num → s.occ.data.length = 8 → s.hostHeld s.occ.vi = false → exec .hostRdmaWrite s = .next ((s.sysWrite num s.occ.vi (if num = 0x19 then ofBytes s.occ.data else ofBytes s.occ.data % 2 ^ 32) 2 s.occ.vi).1.send { port := (rocePort s.occ.port).1, dest := s.occ.vi, kind := 10, cage := (rocePort s.occ.port).2 })) ∧
  (∀ (s : State), s.occ.ok = true → doorbellReg s.occ.pa = none ∨ s.occ.data.length ≠ 8 → exec .hostRdmaWrite s = .next s) ∧
  (∀ (s : State), s.roceUp s.occ.port = true → s.occ.ok = false → inboundOk (s.sysAt 0x4C2 s.occ.vi) s.occ.pa (reqSize (.load s.occ.len)) (reqWrites (.load s.occ.len)) = true → exec .hostRdmaRead s = .next (s.takeOuter { pa := s.occ.pa, req := (.load s.occ.len), port := (rocePort s.occ.port).1, dest := s.occ.vi, cage := (rocePort s.occ.port).2 })) ∧
  (∀ (s : State), s.roceUp s.occ.port = true → s.occ.ok = false → inboundOk (s.sysAt 0x4C2 s.occ.vi) s.occ.pa (reqSize (.load s.occ.len)) (reqWrites (.load s.occ.len)) = false → exec .hostRdmaRead s = .next (s.send { port := (rocePort s.occ.port).1, dest := s.occ.vi, kind := 8, addr := s.occ.pa, cage := (rocePort s.occ.port).2 })) ∧
  (∀ (s : State), s.roceUp s.occ.port = true → s.occ.ok = true → exec .hostRdmaRead s = .next (s.send { port := (rocePort s.occ.port).1, dest := s.occ.vi, kind := 9, addr := s.occ.pa, cage := (rocePort s.occ.port).2, data := (List.range s.occ.len).map (fun k => match doorbellReg ((s.occ.pa + k) / 8 * 8) with | some num => BitVec.ofNat 8 (s.sysRead num s.occ.vi / 2 ^ (8 * ((s.occ.pa + k) % 8))) | none => 0) })) ∧
  (∀ (s : State), s.roceUp s.occ.port = true → s.occ.pa % 8 = 0 → inboundOk (s.sysAt 0x4C2 s.occ.vi) s.occ.pa (reqSize (if s.occ.ok then .cas .z64 s.occ.cmp s.occ.value else .atomic .add .z64 s.occ.value)) (reqWrites (if s.occ.ok then .cas .z64 s.occ.cmp s.occ.value else .atomic .add .z64 s.occ.value)) = true → exec .hostAtomic s = .next (s.takeOuter { pa := s.occ.pa, req := (if s.occ.ok then .cas .z64 s.occ.cmp s.occ.value else .atomic .add .z64 s.occ.value), port := (rocePort s.occ.port).1, dest := s.occ.vi, cage := (rocePort s.occ.port).2 })) ∧
  (∀ (s : State), s.roceUp s.occ.port = true → s.occ.pa % 8 = 0 → inboundOk (s.sysAt 0x4C2 s.occ.vi) s.occ.pa (reqSize (if s.occ.ok then .cas .z64 s.occ.cmp s.occ.value else .atomic .add .z64 s.occ.value)) (reqWrites (if s.occ.ok then .cas .z64 s.occ.cmp s.occ.value else .atomic .add .z64 s.occ.value)) = false → exec .hostAtomic s = .next (s.send { port := (rocePort s.occ.port).1, dest := s.occ.vi, kind := 8, addr := s.occ.pa, cage := (rocePort s.occ.port).2 })) ∧
  (∀ (s : State), s.roceUp s.occ.port = true → s.occ.pa % 8 ≠ 0 → exec .hostAtomic s = .next (s.send { port := (rocePort s.occ.port).1, dest := s.occ.vi, kind := 8, addr := s.occ.pa, cage := (rocePort s.occ.port).2 })) ∧
  (∀ (s : State), s.roceUp s.occ.port = true → exec .hostSend s = .next (s.send { port := (rocePort s.occ.port).1, dest := s.occ.vi, kind := 8, addr := 0, cage := (rocePort s.occ.port).2 })) ∧
  (∀ (s : State), s.roceUp s.occ.port = false → exec .hostSend s = .next s ∧ exec .hostRdmaRead s = .next s ∧ exec .hostAtomic s = .next s ∧ exec .hostRdmaWrite s = .next s) ∧
  (∀ (s : State), s.linkDown = false → exec .queuePairConnected s = .next (s.sysSetBits 0x4C1 s.occ.vi 62 62 1)) ∧
  (∀ (s : State), ∃ m : State, m = s.ops.foldl (fun m x => if (x.2.place == .host && x.2.vi == s.occ.vi && !x.2.done) && has m.ops x.1 then m.refuse x.2 1 else m) (s.sysSetBits 0x4C1 s.occ.vi 62 62 0) ∧ exec .brokenConnection s = .next ({ m with ops := m.ops.filter (fun x => !(x.2.place == .host && x.2.vi == s.occ.vi && !x.2.done)) } : State).settleOps)

/-- Requests of the peers, the network and the presentation clock are served. Peer requests inside their windows are performed and
are refused outside them; acknowledgements and refusals, keepalives, port changes, handshakes, time messages, the loss of a peer
and frame deadlines take their effect. Each clause about an event gives the whole state after it, under conditions on the state
alone; the names of what an event is about are the model's own (log entry 5, 89, 100, 103, 133, 135, 143). It names:
PEER_INBOUND, PEER_ACKNOWLEDGEMENT, KEEPALIVE, KEEPALIVE_RECEIVED, FABRIC_PORT_DOWN, FABRIC_PORT_UP, PEER_HANDSHAKE,
PTP_MESSAGE, PEER_LOST, FRAME_DEADLINE. (R112, R441, R442, R447, R448, R449, R450, R451, R452.) -/
def Obligations.OutsideRequestsAreServed : Prop :=
  (∀ (s : State) (req : PeerReq), s.linkDown = false → s.occ.req = some req → s.sysBits 0x304 s.occ.peer 62 62 = 1 → inboundOk (s.sysAt 0x305 s.occ.peer) s.occ.pa (reqSize req) (reqWrites req) = true → exec .peerInbound s = .next (({ s with peerHeard := put s.peerHeard s.occ.peer s.gt } : State).takeOuter { pa := s.occ.pa, req := req, port := 1, dest := s.occ.peer })) ∧
  (∀ (s : State) (req : PeerReq), s.linkDown = false → s.occ.req = some req → s.sysBits 0x304 s.occ.peer 62 62 ≠ 1 ∨ inboundOk (s.sysAt 0x305 s.occ.peer) s.occ.pa (reqSize req) (reqWrites req) = false → exec .peerInbound s = .next (({ s with peerHeard := put s.peerHeard s.occ.peer s.gt } : State).send { port := 1, dest := s.occ.peer, kind := 8, addr := s.occ.pa, cage := s.cageOf s.occ.peer s.occ.pa })) ∧
  (∀ (s : State) (o : Op), look s.ops s.occ.id = some o → o.arrived = true → o.done = false → o.place = .host → s.occ.ok = true → o.reads = true → exec .peerAcknowledgement s = .next ({ s with ops := put s.ops s.occ.id { o with done := true, data := ofBytes s.occ.data % 2 ^ (8 * o.size), flags := (rmw o.act o.size (ofBytes s.occ.data % 2 ^ (8 * o.size)) o.data o.cmp).2 } } : State).settleOps) ∧
  (∀ (s : State) (o : Op), look s.ops s.occ.id = some o → o.arrived = true → o.done = false → o.place = .host → s.occ.ok = true → o.reads = false → exec .peerAcknowledgement s = .next ({ s with ops := del s.ops s.occ.id } : State).settleOps) ∧
  (∀ (s : State) (o : Op), look s.ops s.occ.id = some o → o.arrived = true → o.done = false → o.place = .host → s.occ.ok = false → exec .peerAcknowledgement s = .next (s.refuse o 3).settleOps) ∧
  (∀ (s : State) (o : Op) (p : Nat), look s.ops s.occ.id = some o → o.arrived = true → o.done = false → o.place = .peer p → s.occ.ok = true → o.reads = true → exec .peerAcknowledgement s = .next ({ ({ (s.lineUse p o.pa false) with peerHeard := put (s.lineUse p o.pa false).peerHeard p (s.lineUse p o.pa false).gt } : State) with ops := put ({ (s.lineUse p o.pa false) with peerHeard := put (s.lineUse p o.pa false).peerHeard p (s.lineUse p o.pa false).gt } : State).ops s.occ.id { o with done := true, data := ofBytes s.occ.data % 2 ^ (8 * o.size), flags := (rmw o.act o.size (ofBytes s.occ.data % 2 ^ (8 * o.size)) o.data o.cmp).2 } } : State).settleOps) ∧
  (∀ (s : State) (o : Op) (p : Nat), look s.ops s.occ.id = some o → o.arrived = true → o.done = false → o.place = .peer p → s.occ.ok = true → o.reads = false → exec .peerAcknowledgement s = .next ({ ({ (s.lineUse p o.pa false) with peerHeard := put (s.lineUse p o.pa false).peerHeard p (s.lineUse p o.pa false).gt } : State) with ops := del ({ (s.lineUse p o.pa false) with peerHeard := put (s.lineUse p o.pa false).peerHeard p (s.lineUse p o.pa false).gt } : State).ops s.occ.id } : State).settleOps) ∧
  (∀ (s : State) (o : Op) (p : Nat), look s.ops s.occ.id = some o → o.arrived = true → o.done = false → o.place = .peer p → s.occ.ok = false → exec .peerAcknowledgement s = .next (({ (s.lineUse p o.pa false) with peerHeard := put (s.lineUse p o.pa false).peerHeard p (s.lineUse p o.pa false).gt } : State).refuse o 3).settleOps) ∧
  (∀ (s : State), s.keepaliveDue s.occ.port = true → exec .keepalive s = .next (s.send { port := 1, dest := 0, kind := 6, cage := s.occ.port })) ∧
  (∀ (s : State), s.linkDown = false → exec .keepaliveReceived s = .next ({ s with peerHeard := put s.peerHeard s.occ.peer s.gt } : State)) ∧
  (∀ (s : State), s.fabricDown.contains s.occ.port = false → exec .fabricPortDown s = .next { s with fabricDown := s.occ.port :: s.fabricDown }) ∧
  (∀ (s : State), s.fabricDown.contains s.occ.port = true → exec .fabricPortDown s = .next s) ∧
  (∀ (s : State), s.linkDown = false → exec .fabricPortUp s = .next { s with fabricDown := s.fabricDown.filter (fun p => p != s.occ.port) }) ∧
  (∀ (s : State), s.linkDown = false → s.sysBits 0x304 s.occ.peer 63 63 = 1 → s.sysBits 0x304 s.occ.peer 31 0 = s.occ.value.toNat → exec .peerHandshake s = .next (({ s with peerHeard := put s.peerHeard s.occ.peer s.gt } : State).sysSetBits 0x304 s.occ.peer 62 62 1)) ∧
  (∀ (s : State), s.linkDown = false → -50 ≤ signed 32 s.occ.value.toNat → signed 32 s.occ.value.toNat ≤ 50 → exec .ptpMessage s = .next ((({ s with ptpRun := (min 16 (s.ptpRun + 1)) } : State).sysSetBits 0x4C4 0xFF 31 0 (bits s.occ.value.toNat 31 0)).sysSetBits 0x4C4 0xFF 63 63 (bCode ((min 16 (s.ptpRun + 1)) == 16)))) ∧
  (∀ (s : State), s.linkDown = false → (signed 32 s.occ.value.toNat < -50 ∨ 50 < signed 32 s.occ.value.toNat) → exec .ptpMessage s = .next ((({ s with ptpRun := 0 } : State).sysSetBits 0x4C4 0xFF 31 0 (bits s.occ.value.toNat 31 0)).sysSetBits 0x4C4 0xFF 63 63 (bCode (0 == 16)))) ∧
  (∀ (s : State), s.peerSilent s.occ.peer = true → ∃ m : State, m = s.ops.foldl (fun m x => if (x.2.place == .peer s.occ.peer && !x.2.done) && has m.ops x.1 then m.refuse x.2 1 else m) (s.sysSetBits 0x304 s.occ.peer 62 62 0) ∧ exec .peerLost s = .next ({ m with ops := m.ops.filter (fun x => !(x.2.place == .peer s.occ.peer && !x.2.done)), lineport := m.lineport.filter (fun x => !(isPeerPa x.1 && peerOf x.1 == s.occ.peer)) } : State).settleOps) ∧
  (∀ (s : State) (t : Stream) (m : State) (ws : List Nat), s.frameDue s.occ.index = true → look s.streams s.occ.index = some t → s.ringSlot s.occ.index t t.frame = (m, some (t.frame :: ws)) → exec .frameDeadline s = .next (({ m with streams := put m.streams s.occ.index { t with frame := t.frame + 1, last := some t.frame, image := ws.getD 0 0, spare := ws.getD 1 0 } } : State).sendFrame s.occ.index t t.frame 0 t.frame (ws.getD 0 0))) ∧
  (∀ (s : State) (t : Stream) (m : State) (a : Option (List Nat)), s.frameDue s.occ.index = true → look s.streams s.occ.index = some t → s.ringSlot s.occ.index t t.frame = (m, a) → slotIs a t.frame = false → t.frame = 0 → t.last = none → ∃ x : Nat, x < 2 ^ 61 ∧ exec .frameDeadline s = .next (({ m with ctr := m.ctr + 1, streams := put m.streams s.occ.index { t with frame := 0 + 1, last := none } } : State).partStore (m.streamVi s.occ.index) (m.sysBits 0x4C8 s.occ.index 56 6 * 64 + 0x30) (toBytes 8 (3 * 2 ^ 62 + x))).1) ∧
  (∀ (s : State) (t : Stream) (m u : State) (n : Nat) (a : Option (List Nat)) (ws : List Nat), s.frameDue s.occ.index = true → look s.streams s.occ.index = some t → s.ringSlot s.occ.index t t.frame = (m, a) → slotIs a t.frame = false → t.frame = n + 1 → m.ringSlot s.occ.index t n = (u, some (n :: ws)) → t.last.all (fun k => decide (k < n)) = true → exec .frameDeadline s = .next (({ u with streams := put u.streams s.occ.index { t with frame := (n + 1) + 1, last := some n, image := ws.getD 0 0, spare := ws.getD 1 0 } } : State).sendFrame s.occ.index t (n + 1) 1 n (if ws.getD 1 0 = 0 then ws.getD 0 0 else ws.getD 1 0))) ∧
  (∀ (s : State) (t : Stream) (m u : State) (n k : Nat) (a b : Option (List Nat)), s.frameDue s.occ.index = true → look s.streams s.occ.index = some t → s.ringSlot s.occ.index t t.frame = (m, a) → slotIs a t.frame = false → t.frame = n + 1 → m.ringSlot s.occ.index t n = (u, b) → (slotIs b n && t.last.all (fun k => decide (k < n))) = false → t.last = some k → exec .frameDeadline s = .next (({ u with streams := put u.streams s.occ.index { t with frame := (n + 1) + 1, last := some k, image := t.image, spare := t.spare } } : State).sendFrame s.occ.index t (n + 1) 2 k (if t.spare = 0 then t.image else t.spare))) ∧
  (∀ (s : State) (t : Stream) (m u : State) (n : Nat) (a b : Option (List Nat)), s.frameDue s.occ.index = true → look s.streams s.occ.index = some t → s.ringSlot s.occ.index t t.frame = (m, a) → slotIs a t.frame = false → t.frame = n + 1 → m.ringSlot s.occ.index t n = (u, b) → slotIs b n = false → t.last = none → ∃ x : Nat, x < 2 ^ 61 ∧ exec .frameDeadline s = .next (({ u with ctr := u.ctr + 1, streams := put u.streams s.occ.index { t with frame := (n + 1) + 1, last := none } } : State).partStore (u.streamVi s.occ.index) (u.sysBits 0x4C8 s.occ.index 56 6 * 64 + 0x30) (toBytes 8 (3 * 2 ^ 62 + x))).1)

/-- Doorbells and management requests write the registers they name. A doorbell writes its queue register, and the management port
writes the register of its request. Each clause about an event gives the whole state after it, under conditions on the state
alone; the names of what an event is about are the model's own (log entry 5, 100, 133). It names: DOORBELL_CQTAIL,
DOORBELL_TQHEAD, DOORBELL_EQHEAD, CQBASE_WRITE, TQBASE_WRITE, EQBASE_WRITE, PART_WRITE, VSHARE_WRITE, FATAL_CLEAR,
PSTREAM_WRITE, REGISTER_WRITE, MEASEXT_WRITE, MANAGEMENT_REQUEST. (R387, R389, R393, R400, R404, R406, R422, R439, R444, R450,
R457, R458.) -/
def Obligations.RegistersAreWrittenFromOutside : Prop :=
  (∀ (s : State), s.roceUp s.occ.port = true → s.hostHeld s.occ.vi = false → exec .doorbellCqtail s = .next ((s.sysWrite 0x20A s.occ.vi (bits s.occ.value.toNat 31 0) 2 s.occ.vi).1.send { port := (rocePort s.occ.port).1, dest := s.occ.vi, kind := 10, cage := (rocePort s.occ.port).2 })) ∧
  (∀ (s : State), s.roceUp s.occ.port = true → s.hostHeld s.occ.vi = false → exec .doorbellTqhead s = .next ((s.sysWrite 0x19 s.occ.vi s.occ.value.toNat 2 s.occ.vi).1.send { port := (rocePort s.occ.port).1, dest := s.occ.vi, kind := 10, cage := (rocePort s.occ.port).2 })) ∧
  (∀ (s : State), s.roceUp s.occ.port = true → s.hostHeld s.occ.vi = false → exec .doorbellEqhead s = .next ((s.sysWrite 0x20D s.occ.vi (bits s.occ.value.toNat 31 0) 2 s.occ.vi).1.send { port := (rocePort s.occ.port).1, dest := s.occ.vi, kind := 10, cage := (rocePort s.occ.port).2 })) ∧
  (∀ (s : State), exec .cqbaseWrite s = .next (s.sysWrite 0x208 s.occ.vi s.occ.value.toNat 2 s.occ.vi).1) ∧
  (∀ (s : State), exec .tqbaseWrite s = .next (s.sysWrite 0x18 s.occ.vi s.occ.value.toNat 2 s.occ.vi).1) ∧
  (∀ (s : State), exec .eqbaseWrite s = .next (s.sysWrite 0x20C s.occ.vi s.occ.value.toNat 2 s.occ.vi).1) ∧
  (∀ (s : State), exec .partWrite s = .next (s.sysWrite 0x200 s.occ.part s.occ.value.toNat 2 s.occ.vi).1) ∧
  (∀ (s : State), exec .vshareWrite s = .next (s.sysWrite 0x302 s.occ.vi s.occ.value.toNat 2 s.occ.vi).1) ∧
  (∀ (s : State), exec .fatalClear s = .next (s.sysWrite 0x08 0xFF s.occ.value.toNat 2 s.occ.vi).1) ∧
  (∀ (s : State), exec .pstreamWrite s = .next (s.sysWrite 0x4C8 s.occ.index s.occ.value.toNat 2 s.occ.vi).1) ∧
  (∀ (s : State), regInstance s.occ.num s.occ.index = true → exec .registerWrite s = .next (s.sysWrite s.occ.num s.occ.index s.occ.value.toNat 2 s.occ.vi).1) ∧
  (∀ (s : State) (m : State), s.sysWrite 0x409 s.occ.index s.occ.value.toNat 2 64 = (m, true) → exec .measextWrite s = .next m) ∧
  (∀ (s : State) (m : State), s.linkDown = false → s.boot = .service → regInstance s.occ.num s.occ.index = true → s.sysWrite s.occ.num s.occ.index s.occ.value.toNat 2 64 = (m, true) → exec .managementRequest s = .next (m.send { port := 2, dest := 0, kind := 10 }))

/-- Boot, attestation, power, temperature, histograms, scrubs and errors take their effect. The clocks follow power and temperature,
the boot loads an image or runs firmware, an attestation request gets its signed report, the histograms tick and are saved, and
memory, register and slice errors take their effect. Each clause about an event gives the whole state after it, under conditions
on the state alone; the names of what an event is about are the model's own (log entry 5, 104, 105, 106, 107, 142, 144). It
names: THERMAL_THROTTLE, POWER_LIMIT, BOOT_RUN, HISTOGRAM_SAVE, HISTOGRAM_TICK, SCRUB, REGISTER_ECC_ERROR, SLICE_STATE_ERROR,
ATTESTATION. (R34, R456, R457, R459, R462, R463, R464.) -/
def Obligations.HealthIsKept : Prop :=
  (∀ (s : State), s.occ.index < 110 → s.tooHot s.occ.n s.occ.index = true → exec .thermalThrottle s = .next (({ (s.sysSetBits 0x404 0xFF 47 40 s.occ.index) with hot := if s.hot.contains s.occ.n then s.hot else s.occ.n :: s.hot } : State).setClock s.occ.n (s.clock s.occ.n - 100))) ∧
  (∀ (s : State), s.occ.index < 110 → s.tooHot s.occ.n s.occ.index = false → exec .thermalThrottle s = .next (({ (s.sysSetBits 0x404 0xFF 47 40 s.occ.index) with hot := s.hot.filter (fun y => y != s.occ.n) } : State).setClock s.occ.n (max (s.clock s.occ.n) s.occ.num))) ∧
  (∀ (s : State), 110 ≤ s.occ.index → exec .thermalThrottle s = exec .thermalTrip s) ∧
  (∀ (s : State), exec .powerLimit s = .next (((List.range 12).foldl (fun m y => if bit s.occ.index y then m.setClock y (if 1600 < s.occ.n then min (m.clock y - 1) s.occ.num else if m.hot.contains y then m.clock y else max (m.clock y) s.occ.num) else m) s).sysSetBits 0x404 0xFF 63 48 s.occ.n)) ∧
  (∀ (s : State) (m : State), s.boot = .rom → ({ s with identity := Config.shake256 Config.partSecret 32 } : State) = m → exec .bootRun s = .next (match imageError (Config.imageSlot 0), imageError (Config.imageSlot 1) with | none, _ => m.loadImage 1 (Config.imageSlot 0) | some _, none => m.loadImage 2 (Config.imageSlot 1) | some x, some y => m.bootFails x y)) ∧
  (∀ (s : State), s.boot = .firmware → exec .bootRun s = .next (s.writeRun 0x80)) ∧
  (∀ (s : State), s.boot = .service ∨ s.boot = .halted → exec .bootRun s = .next s) ∧
  (∀ (s : State), s.histDue = true → exec .histogramSave s = .next { s with histSaved := s.hist, tenMinutes := s.gt / (600 * 10 ^ 9) }) ∧
  (∀ (s : State), s.tickDue = true → (((s.addSecond s.occ).countSlice s.occ.index s.occ.vi 0x109 s.occ.num).seconds + 1) % 3600 ≠ 0 → exec .histogramTick s = .next ({ ((s.addSecond s.occ).countSlice s.occ.index s.occ.vi 0x109 s.occ.num) with second := ((s.addSecond s.occ).countSlice s.occ.index s.occ.vi 0x109 s.occ.num).second + 1, seconds := ((s.addSecond s.occ).countSlice s.occ.index s.occ.vi 0x109 s.occ.num).seconds + 1, corrected := ((s.addSecond s.occ).countSlice s.occ.index s.occ.vi 0x109 s.occ.num).corrected + s.occ.num } : State)) ∧
  (∀ (s : State), s.tickDue = true → (((s.addSecond s.occ).countSlice s.occ.index s.occ.vi 0x109 s.occ.num).seconds + 1) % 3600 = 0 → exec .histogramTick s = .next { ({ ((s.addSecond s.occ).countSlice s.occ.index s.occ.vi 0x109 s.occ.num) with second := ((s.addSecond s.occ).countSlice s.occ.index s.occ.vi 0x109 s.occ.num).second + 1, seconds := ((s.addSecond s.occ).countSlice s.occ.index s.occ.vi 0x109 s.occ.num).seconds + 1, corrected := ((s.addSecond s.occ).countSlice s.occ.index s.occ.vi 0x109 s.occ.num).corrected + s.occ.num } : State).addBin 2 (hourBin ({ ((s.addSecond s.occ).countSlice s.occ.index s.occ.vi 0x109 s.occ.num) with second := ((s.addSecond s.occ).countSlice s.occ.index s.occ.vi 0x109 s.occ.num).second + 1, seconds := ((s.addSecond s.occ).countSlice s.occ.index s.occ.vi 0x109 s.occ.num).seconds + 1, corrected := ((s.addSecond s.occ).countSlice s.occ.index s.occ.vi 0x109 s.occ.num).corrected + s.occ.num } : State).corrected) 1 with corrected := 0 }) ∧
  (∀ (s : State), s.occ.ok = true → exec .scrub s = .next (s.loseWord s.occ.core s.occ.n)) ∧
  (∀ (s : State), s.occ.ok = false → s.occ.index ≠ 1 → exec .scrub s = .next (s.poisonLine s.occ.vi (lineOf s.occ.pa))) ∧
  (∀ (s : State), s.occ.ok = false → s.occ.index = 1 → exec .scrub s = .next (s.hiddenError s.occ.vi (lineOf s.occ.pa))) ∧
  (∀ (s : State) (w : Wave), s.wave? s.occ.wid = some w → w.kind ≠ .boot → exec .registerEccError s = .next (s.killWave s.occ.wid 2).settleOps) ∧
  (∀ (s : State) (w : Wave), s.wave? s.occ.wid = some w → w.kind = .boot → exec .registerEccError s = .next (s.firmwareTrap s.occ.wid)) ∧
  (∀ (s : State) (m u : State) (hit : List Nat) (x : Nat), s.hitAt s.occ.n = (m, hit) → m.choose 64 = (x, u) → exec .sliceStateError s = .next ((hit.foldl (fun v vi => v.loseSlice s.occ.n vi) ((u.latch (hit.headD x) 0x3B).countSlice s.occ.n (hit.headD x) 0x10A 1)).settleOps)) ∧
  (∀ (s : State), s.linkDown = false → s.boot = .service → s.occ.data.length = 32 → exec .attestation s = .next (s.send { port := 2, dest := 0, kind := 7, data := s.report s.occ.data ++ Config.mldsaSign s.identity (Config.shake256 (s.report s.occ.data) 64) }))

/-- Cold, warm and interface resets, thermal trips and power loss. Each reset gives the state of its reach; a power loss keeps the
saved histograms and leaves the part off. Each clause about an event gives the whole state after it, under conditions on the
state alone; the names of what an event is about are the model's own (log entry 5, 3, 8, 9, 83, 144, 146). It names: COLD_RESET,
WARM_RESET, INTERFACE_RESET, THERMAL_TRIP, POWER_LOSS. (R399, R400, R453, R463, R464.) -/
def Obligations.ResetsAndPower : Prop :=
  (∀ (s : State), exec .coldReset s = .next { State.reset with ctr := s.ctr, nid := s.nid, inputs := s.inputs, out := s.out, hist := s.hist, histSaved := s.histSaved, seconds := s.seconds, corrected := s.corrected, fabricDown := s.fabricDown }) ∧
  (∀ (s : State), ∃ t : State, exec .warmReset s = .next t ∧ t = { State.reset with gt := s.gt, mem := s.mem, poison := s.poison, ptpRun := s.ptpRun, second := s.second, tenMinutes := s.tenMinutes, sys := t.sys, ctr := s.ctr, nid := s.nid, inputs := s.inputs, out := s.out, hist := s.hist, histSaved := s.histSaved, seconds := s.seconds, corrected := s.corrected, fabricDown := s.fabricDown } ∧ (∀ num i, num ≠ 0x400 → (num ≠ 0x4C4 ∨ i ≠ 0xFF) → i < 256 → t.sysAt num i = State.reset.sysAt num i) ∧ t.sysAt 0x4C4 0xFF = s.sysAt 0x4C4 0xFF ∧ t.sysAt 0x400 0xFF = 0) ∧
  (∀ (s : State), ∃ t : State, t = s.resetVi s.occ.vi ∧ exec .interfaceReset s = .next t ∧ (∀ num r, sysReg? num = some r → r.inst = .vi → s.occ.vi < 64 → t.sysAt num s.occ.vi = sysReset num s.occ.vi % 2 ^ 64) ∧ (∀ x ∈ t.saved, x.2.wave.vi ≠ s.occ.vi) ∧ (∀ x ∈ t.formed, x.2.vi ≠ s.occ.vi) ∧ (∀ x ∈ t.issuers, x.2.vi ≠ s.occ.vi) ∧ (∀ x ∈ t.jobs, x.2.vi ≠ s.occ.vi) ∧ (∀ x ∈ t.passes, x.2.vi ≠ s.occ.vi) ∧ (∀ x ∈ t.trapReqs, x.2.vi ≠ s.occ.vi) ∧ (∀ x ∈ t.eventReqs, x.2.vi ≠ s.occ.vi)) ∧
  (∀ (s : State), 110 ≤ s.occ.index → ∃ m : State, m = ((List.range 64).foldl (fun m vi => m.stopVi vi) s).fatalInterrupt ∧ exec .thermalTrip s = .next ({ State.reset with ctr := m.ctr, nid := m.nid, inputs := m.inputs, out := m.out, hist := m.hist, histSaved := m.histSaved, seconds := m.seconds, corrected := m.corrected, fabricDown := m.fabricDown, sys := put State.reset.sys (sysKey 0x404 0xFF) (dw (setBits (sysReset 0x404 0xFF) 0 0 1)) } : State)) ∧
  (∀ (s : State), exec .powerLoss s = .next { s with power := false, hist := s.histSaved, issues := [], cur := none })

/-- Time slices start, end and turn, and waves are saved and restored. A partition with no holder starts the slice of its first
candidate, a slice that ends hands over, a stop ends it, and waves are forced, saved and restored. Each clause about an event
gives the whole state after it, under conditions on the state alone; the names of what an event is about are the model's own
(log entry 5, 79, 80, 81). It names: TIME_SLICE_END, VISTOP, FORCED_SAVE, SAVE_COMPLETE, WAVE_RESTORE. (R411, R412, R413, R414,
R415, R416, R417, R418, R419.) -/
def Obligations.SlicesTurnAndWavesMove : Prop :=
  (∀ (s : State) (v : Nat) (vs : List Nat), s.sliceDue s.occ.part = true → look s.holders s.occ.part = none → s.candidates s.occ.part 63 = v :: vs → exec .timeSliceEnd s = .next (s.startSlice s.occ.part v)) ∧
  (∀ (s : State) (h : Holder), s.sliceDue s.occ.part = true → look s.holders s.occ.part = some h → h.ending = true → exec .timeSliceEnd s = .next (s.handOver s.occ.part h)) ∧
  (∀ (s : State) (h : Holder), s.sliceDue s.occ.part = true → look s.holders s.occ.part = some h → h.ending = false → s.restorable s.occ.part = [] → (s.candidates s.occ.part h.vi).all (fun v => v == h.vi) = false → exec .timeSliceEnd s = .next (s.endSlice s.occ.part)) ∧
  (∀ (s : State) (p : Nat), s.partOf s.occ.vi = some p → s.holds s.occ.vi = true → exec .vistop s = .next (s.endSlice p)) ∧
  (∀ (s : State) (w : Wave), s.wave? s.occ.wid = some w → s.forceDue w = true → exec .forcedSave s = .next ((s.countCore w.core w.vi false 0x009 1).modWave s.occ.wid (fun w => { w with forced := true }))) ∧
  (∀ (s : State) (w : Wave) (slot : Nat) (a : State), s.wave? s.occ.wid = some w → s.saveDue s.occ.wid w = true → s.freeImage w.vi = (a, some (some slot)) → exec .saveComplete s = .next (a.saveIn s.occ.wid slot w)) ∧
  (∀ (s : State) (x : Saved) (slot pos : Nat), look s.saved s.occ.wid = some x → s.restoreDue s.occ.wid x = true → x.wave.lanes.all (fun l => !l.live) = false → s.claimsFree x = true → s.restoreSpot x = some (slot, pos) → exec .waveRestore s = .next (s.bringBack s.occ.wid x slot pos)) ∧
  (∀ (s : State) (x : Saved), look s.saved s.occ.wid = some x → s.restoreDue s.occ.wid x = true → x.wave.lanes.all (fun l => !l.live) = false → s.claimsFree x = false → exec .waveRestore s = .next { s with nid := s.nid + 1, saved := put s.saved s.occ.wid { x with asked := some s.nid } })
end

