-- ==== Sys2Proof/Laws/Tables.lean ====
section
/-!
SUPPORT. Laws of sparse tables and of memory: a read after a write, what a write leaves alone, and that the canonical form is kept.
-/
namespace Sys2Proof.Machine

@[simp] theorem look_put_same {α : Type} (m : FMap α) (k : Nat) (v : α) : look (put m k v) k = some v := by
  induction m with
  | nil => simp [put, look]
  | cons h t ih =>
    obtain ⟨a, w⟩ := h
    unfold put
    split
    · simp [look]
    · split
      · simp [look]
      · rename_i h1 h2
        simp [look, ih]
        intro h; exact absurd h.symm h2

theorem look_put_ne {α : Type} (m : FMap α) {k j : Nat} (v : α) (h : j ≠ k) : look (put m k v) j = look m j := by
  induction m with
  | nil => simp [put, look, Ne.symm h]
  | cons e t ih =>
    obtain ⟨a, w⟩ := e
    unfold put
    split
    · simp [look, Ne.symm h]
    · split
      · rename_i h1 h2; subst h2; simp [look, Ne.symm h]
      · simp only [look, ih]

theorem look_put {α : Type} (m : FMap α) (k j : Nat) (v : α) : look (put m k v) j = if j = k then some v else look m j := by
  split
  · rename_i h; subst h; simp
  · rename_i h; exact look_put_ne m v h

@[simp] theorem put_put_same {α : Type} (m : FMap α) (k : Nat) (v u : α) : put (put m k v) k u = put m k u := by
  induction m with
  | nil => simp [put]
  | cons e t ih =>
    obtain ⟨a, w⟩ := e
    by_cases h1 : k < a
    · simp [put, h1]
    · by_cases h2 : k = a
      · subst h2; simp [put]
      · simp [put, h1, h2, ih]

@[simp] theorem look_del_same {α : Type} (m : FMap α) (k : Nat) : look (del m k) k = none := by
  induction m with
  | nil => simp [del, look]
  | cons e t ih =>
    obtain ⟨a, w⟩ := e
    unfold del
    split
    · exact ih
    · rename_i h; simp [look, h, ih]

theorem look_del_ne {α : Type} (m : FMap α) {k j : Nat} (h : j ≠ k) : look (del m k) j = look m j := by
  induction m with
  | nil => simp [del]
  | cons e t ih =>
    obtain ⟨a, w⟩ := e
    unfold del
    split
    · rename_i h2; subst h2; simp [look, Ne.symm h, ih]
    · simp only [look, ih]

theorem lookD_put {α : Type} (m : FMap α) (k j : Nat) (v d : α) : lookD (put m k v) j d = if j = k then v else lookD m j d := by
  simp only [lookD, look_put]
  split <;> rfl

theorem lookD_some {α : Type} {m : FMap α} {k : Nat} {v : α} (d : α) (h : look m k = some v) : lookD m k d = v := by
  simp [lookD, h]

theorem modKey_some {α : Type} {m : FMap α} {k : Nat} {v : α} (f : α → α) (h : look m k = some v) :
    modKey m k f = put m k (f v) := by simp [modKey, h]

theorem modKey_none {α : Type} {m : FMap α} {k : Nat} (f : α → α) (h : look m k = none) : modKey m k f = m := by
  simp [modKey, h]

theorem look_modKey_ne {α : Type} (m : FMap α) {k j : Nat} (f : α → α) (h : j ≠ k) : look (modKey m k f) j = look m j := by
  unfold modKey
  split
  · exact look_put_ne m _ h
  · rfl

theorem rising_cons {α : Type} (a : Nat) (v : α) (t : FMap α) :
    rising ((a, v) :: t) = true ↔ rising t = true ∧ ∀ b, b ∈ t.head? → a < b.1 := by
  cases t with
  | nil => simp [rising]
  | cons e t => obtain ⟨b, w⟩ := e; simp [rising, and_comm]

theorem head_put {α : Type} (m : FMap α) (k : Nat) (v : α) (b : Nat × α) (h : b ∈ (put m k v).head?) :
    b.1 = k ∨ b ∈ m.head? := by
  cases m with
  | nil => simp [put] at h; simp [← h]
  | cons e t =>
    obtain ⟨a, w⟩ := e
    unfold put at h
    split at h
    · simp at h; simp [← h]
    · split at h
      · simp at h; simp [← h]
      · simp at h; simp [h]

/-- Listing a value keeps a table's canonical form. -/
theorem rising_put {α : Type} (m : FMap α) (k : Nat) (v : α) (h : rising m = true) : rising (put m k v) = true := by
  induction m with
  | nil => simp [put, rising]
  | cons e t ih =>
    obtain ⟨a, w⟩ := e
    obtain ⟨h1, h2⟩ := (rising_cons a w t).mp h
    unfold put
    split
    · rename_i hk; simp [rising, hk, h]
    · split
      · rename_i hk; subst hk; exact (rising_cons k v t).mpr ⟨h1, h2⟩
      · rename_i h3 h4
        refine (rising_cons a w _).mpr ⟨ih h1, fun b hb => ?_⟩
        rcases head_put t k v b hb with hb | hb
        · omega
        · exact h2 b hb

/-- The canonical form, as an order of every two entries. -/
theorem rising_iff {α : Type} (m : FMap α) : rising m = true ↔ m.Pairwise (fun x y => x.1 < y.1) := by
  induction m with
  | nil => simp [rising]
  | cons x t ih =>
    cases t with
    | nil => simp [rising]
    | cons y u =>
      obtain ⟨a, v⟩ := x
      obtain ⟨b, w⟩ := y
      rw [show rising ((a, v) :: (b, w) :: u) = (decide (a < b) && rising ((b, w) :: u)) from rfl, Bool.and_eq_true, decide_eq_true_eq, ih,
        List.pairwise_cons (l := (b, w) :: u)]
      refine ⟨fun ⟨h1, h2⟩ => ⟨fun z hz => ?_, h2⟩, fun ⟨h1, h2⟩ => ⟨h1 (b, w) (by simp), h2⟩⟩
      rcases List.mem_cons.mp hz with h | h
      · rw [h]; exact h1
      · exact Nat.lt_trans h1 ((List.pairwise_cons.mp h2).1 z h)

/-- What keeps its keys keeps the canonical form, also where it drops entries. -/
theorem rising_filterMap {α β : Type} (m : FMap α) (f : Nat × α → Option (Nat × β)) (hf : ∀ x y, f x = some y → y.1 = x.1)
    (h : rising m = true) : rising (m.filterMap f) = true := by
  rw [rising_iff] at h ⊢
  exact h.filterMap f fun x y hxy a ha b hb => by rw [hf x a ha, hf y b hb]; exact hxy

theorem rising_map {α β : Type} (m : FMap α) (f : Nat × α → Nat × β) (hf : ∀ x, (f x).1 = x.1) (h : rising m = true) :
    rising (m.map f) = true := by
  rw [rising_iff] at h ⊢
  exact h.map f fun x y hxy => by rw [hf x, hf y]; exact hxy

theorem rising_filter {α : Type} (m : FMap α) (p : Nat × α → Bool) (h : rising m = true) : rising (m.filter p) = true := by
  rw [rising_iff] at h ⊢
  exact h.filter p

/-- Removing a key drops its entry. -/
theorem del_filter {α : Type} (m : FMap α) (k : Nat) : del m k = m.filter (fun x => x.1 != k) := by
  induction m with
  | nil => rfl
  | cons x t ih =>
    obtain ⟨a, v⟩ := x
    by_cases h : a = k <;> simp [del, h, ih]

theorem rising_del {α : Type} (m : FMap α) (k : Nat) (h : rising m = true) : rising (del m k) = true := by
  rw [del_filter]
  exact rising_filter m _ h

theorem rising_modKey {α : Type} (m : FMap α) (k : Nat) (f : α → α) (h : rising m = true) : rising (modKey m k f) = true := by
  unfold modKey
  split
  · exact rising_put m k _ h
  · exact h
/-- A write keeps memory's canonical form. -/
theorem memory_write_wf (m : List Host.Cell) (pa : Nat) (b : Byte) (h : Memory.wf m = true) :
    Memory.wf (Memory.write m pa b) = true := rising_put m pa b h

/-- Writing bytes keeps memory's canonical form. -/
theorem memory_writes_wf (m : List Host.Cell) (pa : Nat) (bs : List Byte) (h : Memory.wf m = true) :
    Memory.wf (Memory.writes m pa bs) = true := by
  induction bs generalizing m pa with
  | nil => exact h
  | cons b t ih => exact ih _ _ (memory_write_wf m pa b h)

/-- A byte read after it was written. -/
@[simp] theorem memory_read_write_same (m : List Host.Cell) (pa : Nat) (b : Byte) : Memory.read (Memory.write m pa b) pa = b := by
  simp [Memory.read, Memory.write, lookD]

/-- A write leaves every other byte alone. -/
theorem memory_read_write_ne (m : List Host.Cell) {pa a : Nat} (b : Byte) (h : a ≠ pa) :
    Memory.read (Memory.write m pa b) a = Memory.read m a := by
  simp [Memory.read, Memory.write, lookD, look_put_ne _ _ h]

/-- Writing bytes leaves every byte outside them alone. -/
theorem memory_read_writes_out (m : List Host.Cell) (pa : Nat) (bs : List Byte) (a : Nat) (h : a < pa ∨ pa + bs.length ≤ a) :
    Memory.read (Memory.writes m pa bs) a = Memory.read m a := by
  induction bs generalizing m pa with
  | nil => rfl
  | cons b t ih =>
    simp only [Memory.writes, List.length_cons] at *
    rw [ih _ _ (by omega), memory_read_write_ne _ _ (by omega)]

/-- Each byte written reads as written. -/
theorem memory_read_writes_in (m : List Host.Cell) (pa : Nat) (bs : List Byte) (j : Nat) (h : j < bs.length) :
    Memory.read (Memory.writes m pa bs) (pa + j) = bs[j] := by
  induction bs generalizing m pa j with
  | nil => simp at h
  | cons b t ih =>
    cases j with
    | zero =>
      simp only [Memory.writes, Nat.add_zero, List.getElem_cons_zero]
      rw [memory_read_writes_out _ _ _ _ (Or.inl (by omega))]
      simp
    | succ j =>
      simp only [Memory.writes, List.getElem_cons_succ]
      have := ih (Memory.write m pa b) (pa + 1) j (by simpa using h)
      rw [← this]; congr 1; omega

end Sys2Proof.Machine
end

