-- ==== Sys2Proof/Laws/Course.lean ====
section
/-!
SUPPORT. Laws of the common course of an issue: reading a wave after a change of it, what advancing lanes does, and the issue in
which no lane traps.
-/
namespace Sys2Proof.Machine

@[simp] theorem waveAt_setWave (s : State) (wid : Nat) (v : Wave) : (s.setWave wid v).waveAt wid = v := by
  simp [State.waveAt, State.setWave, lookD]

@[simp] theorem wave?_setWave (s : State) (wid : Nat) (v : Wave) : (s.setWave wid v).wave? wid = some v := by
  simp [State.wave?, State.setWave]

theorem wave?_setWave_ne (s : State) {wid j : Nat} (v : Wave) (h : j ≠ wid) : (s.setWave wid v).wave? j = s.wave? j := by
  simp [State.wave?, State.setWave, look_put_ne _ _ h]

@[simp] theorem setWave_setWave (s : State) (wid : Nat) (v u : Wave) : (s.setWave wid v).setWave wid u = s.setWave wid u := by
  simp [State.setWave]

@[simp] theorem modWave_setWave (s : State) (wid : Nat) (v : Wave) (f : Wave → Wave) :
    (s.setWave wid v).modWave wid f = s.setWave wid (f v) := by
  simp [State.modWave, State.setWave, modKey_some f (look_put_same s.waves wid v)]

theorem withFill_setWave (s : State) (wid : Nat) (v : Wave) (f : Fill) : (s.setWave wid v).withFill f = (s.withFill f).setWave wid v := rfl

@[simp] theorem modLane_setWave (s : State) (wid k : Nat) (v : Wave) (f : Lane → Lane) :
    (s.setWave wid v).modLane wid k f = s.setWave wid (v.modLane k f) := modWave_setWave s wid v _

@[simp] theorem laneAt_setWave (s : State) (wid k : Nat) (v : Wave) : (s.setWave wid v).laneAt wid k = v.lane k := by
  simp [State.laneAt]

@[simp] theorem anyWave_setWave (s : State) (wid : Nat) (v : Wave) : (s.setWave wid v).anyWave wid = v := by
  simp [State.anyWave]

@[simp] theorem modLaneAny_setWave (s : State) (wid k : Nat) (v : Wave) (f : Lane → Lane) :
    (s.setWave wid v).modLaneAny wid k f = s.setWave wid (v.modLane k f) := by
  simp [State.modLaneAny]

theorem modWave_some {s : State} {wid : Nat} {w : Wave} (f : Wave → Wave) (h : s.wave? wid = some w) :
    s.modWave wid f = s.setWave wid (f w) := by
  simp [State.modWave, State.setWave, modKey_some f h]

@[simp] theorem length_modAt {α : Type} (f : α → α) (l : List α) (n : Nat) : (modAt f l n).length = l.length := by
  induction l generalizing n with
  | nil => rfl
  | cons a t ih => cases n <;> simp [modAt, ih]

theorem getD_modAt {α : Type} (f : α → α) (l : List α) (n k : Nat) (d : α) :
    (modAt f l n).getD k d = if k = n ∧ n < l.length then f (l.getD k d) else l.getD k d := by
  induction l generalizing n k with
  | nil => simp [modAt]
  | cons a t ih =>
    cases n with
    | zero => cases k <;> simp [modAt]
    | succ n =>
      cases k with
      | zero => simp [modAt]
      | succ k => simpa [modAt] using ih n k

@[simp] theorem length_lanes_modLane (w : Wave) (k : Nat) (f : Lane → Lane) : (w.modLane k f).lanes.length = w.lanes.length := by
  simp [Wave.modLane]

theorem lane_modLane (w : Wave) (n k : Nat) (f : Lane → Lane) :
    (w.modLane n f).lane k = if k = n ∧ n < w.lanes.length then f (w.lane k) else w.lane k :=
  getD_modAt f w.lanes n k _

theorem modLane_lanesOf (w : Wave) (k : Nat) (f : Lane → Lane) : (w.modLane k f).LanesOf w := ⟨rfl, by simp⟩

theorem Wave.LanesOf.refl (w : Wave) : w.LanesOf w := ⟨rfl, rfl⟩

theorem Wave.LanesOf.trans {a b c : Wave} (h : a.LanesOf b) (g : b.LanesOf c) : a.LanesOf c := by
  obtain ⟨h1, h2⟩ := h
  obtain ⟨g1, g2⟩ := g
  exact ⟨by rw [h1, g1], h2.trans g2⟩

/-- A wave whose lane goes on (R79); a loop back passes a safe point (R262). -/
def Wave.goOn (w : Wave) (len k : Nat) : Wave :=
  let r := (w.lane k).advance len
  let v := w.modLane k (fun _ => r.1)
  if r.2 && v.yieldsAt (v.lane k) then { v with yielding := true } else v

theorem advanceLane_setWave (s : State) (wid len k : Nat) (v : Wave) :
    (s.setWave wid v).advanceLane wid len k = s.setWave wid (v.goOn len k) := by
  unfold State.advanceLane Wave.goOn
  simp only [laneAt_setWave, modLane_setWave, State.safePoint]
  by_cases h : ((v.lane k).advance len).2 = true
  · simp only [h, Bool.true_and, if_true, modWave_setWave]
  · simp [h]

theorem goOn_lanesOf (w : Wave) (len k : Nat) : (w.goOn len k).LanesOf w := by
  unfold Wave.goOn
  by_cases h : (((w.lane k).advance len).2 && (w.modLane k (fun _ => ((w.lane k).advance len).1)).yieldsAt
      ((w.modLane k (fun _ => ((w.lane k).advance len).1)).lane k)) = true
  · simp only [h]; exact ⟨rfl, by simp⟩
  · simp only [h]; exact ⟨rfl, by simp⟩

theorem lane_goOn (w : Wave) (len n k : Nat) :
    (w.goOn len n).lane k = if k = n ∧ n < w.lanes.length then ((w.lane k).advance len).1 else w.lane k := by
  have h : (w.goOn len n).lane k = (w.modLane n (fun _ => ((w.lane n).advance len).1)).lane k := by
    unfold Wave.goOn; simp only []; split <;> rfl
  rw [h, lane_modLane]
  split
  · rename_i h; rw [h.1]
  · rfl

theorem advance_fold (s : State) (wid len : Nat) (g : List Nat) (v : Wave) :
    g.foldl (fun s k => s.advanceLane wid len k) (s.setWave wid v) = s.setWave wid (g.foldl (fun v k => v.goOn len k) v) := by
  induction g generalizing v with
  | nil => rfl
  | cons a t ih => simp only [List.foldl_cons, advanceLane_setWave, ih]

theorem goOn_fold_lanesOf (len : Nat) (g : List Nat) (v : Wave) : (g.foldl (fun v k => v.goOn len k) v).LanesOf v := by
  induction g generalizing v with
  | nil => exact .refl v
  | cons a t ih => exact (ih _).trans (goOn_lanesOf v len a)

theorem goOn_fold_lane (len : Nat) (g : List Nat) (v : Wave) (hg : g.Nodup) (k : Nat) :
    (g.foldl (fun v k => v.goOn len k) v).lane k =
      if k ∈ g ∧ k < v.lanes.length then ((v.lane k).advance len).1 else v.lane k := by
  induction g generalizing v with
  | nil => simp
  | cons a t ih =>
    have hn := List.nodup_cons.mp hg
    have hl : (v.goOn len a).lanes.length = v.lanes.length := (goOn_lanesOf v len a).2
    simp only [List.foldl_cons, ih _ hn.2, hl, lane_goOn, List.mem_cons]
    by_cases hk : k = a
    · subst hk; simp [hn.1]
    · simp [hk]

@[simp] theorem length_note (w : Wave) (c : Nat) (g : List Nat) : (w.note c g).lanes.length = w.lanes.length := by
  simp [Wave.note]

@[simp] theorem length_noted (s : State) (c : Issue) (w : Wave) (i : Instr) : (s.noted c w i).lanes.length = w.lanes.length := by
  simp [State.noted]

/-- The state in which an issue's effect is computed. -/
theorem issued_eq {s : State} {c : Issue} {w : Wave} (i : Instr) (h : s.wave? c.wid = some w) :
    s.issued c w i = s.taken.setWave c.wid (s.noted c w i) := by
  have h' : s.taken.wave? c.wid = some w := h
  unfold State.issued State.noteIssue
  exact modWave_some _ h'

theorem group_sub (s : State) (wid : Nat) (w : Wave) (c : Issue) (i : Instr) (k : Nat) (h : k ∈ s.group wid w c i) :
    k ∈ c.lanes ∧ (w.lane k).pc = c.pc ∧ s.ready wid w i k = true := by
  simpa [State.group] using h

theorem group_nodup {s : State} {wid : Nat} {w : Wave} {c : Issue} {i : Instr} (h : c.lanes.Nodup) :
    (s.group wid w c i).Nodup := h.filter _

theorem activeLanes_nodup {s : State} {c : Issue} {w : Wave} {i : Instr} (h : c.lanes.Nodup) : (s.activeLanes c w i).Nodup :=
  (group_nodup h).filter _

theorem activeLanes_sub {s : State} {c : Issue} {w : Wave} {i : Instr} {k : Nat} (h : k ∈ s.activeLanes c w i) :
    k ∈ s.group c.wid w c i := (List.mem_filter.mp h).1

/-- A lane that is ready is a lane of its wave. -/
theorem ready_lt {s : State} {wid : Nat} {w : Wave} {i : Instr} {k : Nat} (h : s.ready wid w i k = true) : k < w.lanes.length := by
  apply Classical.byContradiction
  intro hk
  have : w.lane k = { present := false } := by
    unfold Wave.lane
    rw [List.getD_eq_getElem?_getD, List.getElem?_eq_none (by omega)]
    rfl
  simp [State.ready, this, Lane.live] at h

theorem group_lt {s : State} {wid : Nat} {w : Wave} {c : Issue} {i : Instr} {k : Nat} (h : k ∈ s.group wid w c i) :
    k < w.lanes.length := ready_lt (group_sub s wid w c i k h).2.2

theorem runSet_clean {s : State} {c : Issue} {w : Wave} {i : Instr} (h : s.earlyTraps c w i = []) :
    s.runSet c w i = s.activeLanes c w i := by
  simp [State.runSet, h]

/-- The issue in which no lane traps before the instruction has an effect. -/
theorem runLanes_eq {s : State} {c : Issue} {w : Wave} {i : Instr} (eff : Eff) (h : s.Issues c w i)
    (he : s.earlyTraps c w i = []) :
    runLanes i s eff =
      .next ((if (s.activeLanes c w i).isEmpty then ⟨s.taken.setWave c.wid (s.noted c w i), [], []⟩
        else eff (s.taken.setWave c.wid (s.noted c w i)) c (s.noted c w i) (s.activeLanes c w i) : Done).close c.wid (wordsOf i) c.pc
          (s.group c.wid w c i)) := by
  unfold runLanes
  simp only [h.cur, h.wave, h.legal, Bool.not_true, Bool.false_eq_true, if_false, he, List.nil_append, runSet_clean he,
    issued_eq i h.wave, waveAt_setWave]

/-- With no trap no issuer loses its versions. -/
@[simp] theorem discardFor_nil (n : State) (wid : Nat) : n.discardFor wid [] = n := by
  simp [State.discardFor]

/-- Closing an issue in which no lane trapped, when the effect left the state at the issuing wave. -/
theorem close_clean (n : State) (wid len : Nat) (pc : DWord) (g stay : List Nat) :
    (⟨n, [], stay⟩ : Done).close wid len pc g = (g.filter (fun k => !stay.contains k)).foldl (fun s k => s.advanceLane wid len k) n := by
  have h : (List.range 64).filter (fun _ => false) = [] := by simp
  simp [Done.close, State.raiseTraps, State.trapGroups, ranksOf, h]

/-- The issue goes on from an effect that raised no trap: its lanes go on, but for those that stay. -/
theorem close_goesOn (n : State) (wid len : Nat) (pc : DWord) (g stay : List Nat) (u v : Wave) (hg : g.Nodup)
    (hv : v.LanesOf u) :
    n.GoesOn wid u (fun k => if k ∈ g ∧ k ∉ stay then ((v.lane k).advance len).1 else v.lane k)
      ((⟨n.setWave wid v, [], stay⟩ : Done).close wid len pc g) := by
  refine ⟨(g.filter (fun k => !stay.contains k)).foldl (fun v k => v.goOn len k) v, ?_, (goOn_fold_lanesOf len _ v).trans hv,
    fun k hk => ?_⟩
  · rw [close_clean]; exact advance_fold n wid len _ v
  · rw [goOn_fold_lane len _ v (hg.filter _), hv.2]
    simp [hk]

/-- Changing lanes one by one. -/
theorem modLane_fold_lanesOf (F : Nat → Lane → Lane) (ks : List Nat) (u : Wave) :
    (ks.foldl (fun v k => v.modLane k (F k)) u).LanesOf u := by
  induction ks generalizing u with
  | nil => exact .refl u
  | cons a t ih => exact (ih _).trans (modLane_lanesOf u a (F a))

theorem modLane_fold_lane (F : Nat → Lane → Lane) (ks : List Nat) (u : Wave) (h : ks.Nodup) (k : Nat) :
    (ks.foldl (fun v k => v.modLane k (F k)) u).lane k = if k ∈ ks ∧ k < u.lanes.length then F k (u.lane k) else u.lane k := by
  induction ks generalizing u with
  | nil => simp
  | cons a t ih =>
    have hn := List.nodup_cons.mp h
    simp only [List.foldl_cons, ih _ hn.2, length_lanes_modLane, lane_modLane, List.mem_cons]
    by_cases hk : k = a
    · subst hk; simp [hn.1]
    · simp [hk]

/-- A fold of changes of the issuing wave is a change of that wave. -/
theorem fold_setWave (n : State) (wid : Nat) (F : State → Nat → State) (G : Wave → Nat → Wave)
    (h : ∀ v k, F (n.setWave wid v) k = n.setWave wid (G v k)) (ks : List Nat) (u : Wave) :
    ks.foldl F (n.setWave wid u) = n.setWave wid (ks.foldl G u) := by
  induction ks generalizing u with
  | nil => rfl
  | cons a t ih => simp only [List.foldl_cons, h, ih]

theorem fold_setWave' {α : Type} (n : State) (wid : Nat) (F : State → α → State) (G : Wave → α → Wave)
    (h : ∀ v k, F (n.setWave wid v) k = n.setWave wid (G v k)) (ks : List α) (u : Wave) :
    ks.foldl F (n.setWave wid u) = n.setWave wid (ks.foldl G u) := by
  induction ks generalizing u with
  | nil => rfl
  | cons a t ih => simp only [List.foldl_cons, h, ih]

theorem GoesOn_congr {n : State} {wid : Nat} {u : Wave} {f g : Nat → Lane} {t : State} (h : n.GoesOn wid u f t)
    (e : ∀ k, k < u.lanes.length → f k = g k) : n.GoesOn wid u g t := by
  obtain ⟨v, h1, h2, h3⟩ := h
  exact ⟨v, h1, h2, fun k hk => (h3 k hk).trans (e k hk)⟩

@[simp] theorem flag_zero (w : Wave) : w.flag 0#7 = w := by simp [Wave.flag]

theorem raise_setWave (n : State) (wid : Nat) (v : Wave) (f : BitVec 7) :
    (n.setWave wid v).raise wid f = n.setWave wid (v.flag f) := by
  unfold State.raise
  split
  · rename_i h; subst h; exact (congrArg (n.setWave wid) (flag_zero v)).symm
  · simp

end Sys2Proof.Machine
end

