-- ==== Sys2Proof/Laws/Lanes.lean ====
section
/-!
SUPPORT. What the shared operations of the lane instructions do: one law for each, which gives an instruction's statement.
-/
namespace Sys2Proof.Machine

theorem activeLanes_lt {s : State} {c : Issue} {w : Wave} {i : Instr} {k : Nat} (h : k ∈ s.activeLanes c w i) :
    k < w.lanes.length := group_lt (activeLanes_sub h)

/-- The course of an issue without traps, when the effect changes the issuing wave alone, over a base state. -/
theorem runLanes_goesOn {s : State} {c : Issue} {w : Wave} {i : Instr} (eff : Eff) (h : s.Issues c w i)
    (he : s.earlyTraps c w i = []) (n : State) (u v : Wave) (stay : List Nat) (hv : v.LanesOf u)
    (hd : (if (s.activeLanes c w i).isEmpty then ⟨s.taken.setWave c.wid (s.noted c w i), [], []⟩
        else eff (s.taken.setWave c.wid (s.noted c w i)) c (s.noted c w i) (s.activeLanes c w i) : Done) =
      ⟨n.setWave c.wid v, [], stay⟩) :
    ∃ t, runLanes i s eff = .next t ∧
      n.GoesOn c.wid u
        (fun k => if k ∈ s.group c.wid w c i ∧ k ∉ stay then ((v.lane k).advance (wordsOf i)).1 else v.lane k) t := by
  refine ⟨_, runLanes_eq eff h he, ?_⟩
  rw [hd]
  exact close_goesOn n c.wid (wordsOf i) c.pc _ stay u v (group_nodup h.once) hv

/-- The course of an issue of an instruction that is its effect in the common course. -/
theorem course_of {i : Instr} {eff : Eff} (h : ∀ s, exec i s = runLanes i s eff) : Course i eff := by
  intro s c w hi hr
  have hw : (s.issued c w i).waveAt c.wid = s.noted c w i := by rw [issued_eq i hi.wave, waveAt_setWave]
  rw [h]
  unfold runLanes
  simp only [hi.cur, hi.wave, hi.legal, Bool.not_true, Bool.false_eq_true, if_false, List.isEmpty_iff, hr, hw]

theorem putV_setWave (n : State) (wid k r c x : Nat) (v : Wave) :
    (n.setWave wid v).putV wid k r c x = n.setWave wid (v.modLane k (fun l => l.write r c x)) := by
  simp [State.putV]

/-- The effect of a lane-local instruction, by lane. -/
def writeEff (i : Instr) (val : Wave → Nat → Nat × BitVec 7) : Eff := fun s c w run =>
  ⟨(run.foldl (fun s k => s.putV c.wid k (fieldsOf i).dst.toNat (dstRegs i) (val w k).1) s).raise c.wid
    (flagsOn run (fun k => (val w k).2)), [], []⟩

/-- A lane-local instruction (R201). -/
theorem laneResult_of {i : Instr} {val : Wave → Nat → Nat × BitVec 7}
    (h : ∀ s, exec i s = runLanes i s (writeEff i val)) : LaneResult i val := by
  intro s c w hi he
  rw [h]
  have hv := modLane_fold_lanesOf (fun k l => l.write (fieldsOf i).dst.toNat (dstRegs i) (val (s.noted c w i) k).1)
    (s.activeLanes c w i) (s.noted c w i)
  have hl := modLane_fold_lane (fun k l => l.write (fieldsOf i).dst.toNat (dstRegs i) (val (s.noted c w i) k).1)
    (s.activeLanes c w i) (s.noted c w i) (activeLanes_nodup hi.once)
  obtain ⟨t, ht, hg⟩ := runLanes_goesOn (writeEff i val) hi he s.taken
    ((s.noted c w i).flag (flagsOn (s.activeLanes c w i) (fun k => (val (s.noted c w i) k).2)))
    (((s.activeLanes c w i).foldl (fun v k => v.modLane k (fun l => l.write (fieldsOf i).dst.toNat (dstRegs i) (val (s.noted c w i) k).1))
      (s.noted c w i)).flag (flagsOn (s.activeLanes c w i) (fun k => (val (s.noted c w i) k).2))) []
    (by
      refine ⟨?_, by simpa [Wave.flag] using hv.2⟩
      simp only [Wave.flag]
      rw [hv.1])
    (by
      by_cases hn : s.activeLanes c w i = []
      · simp [hn, flagsOn]
      · simp only [List.isEmpty_iff, hn, if_false, writeEff]
        rw [fold_setWave s.taken c.wid _ (fun v k => v.modLane k (fun l => l.write (fieldsOf i).dst.toNat (dstRegs i)
          (val (s.noted c w i) k).1)) (fun v k => putV_setWave _ _ _ _ _ _ v), raise_setWave])
  refine ⟨t, ht, GoesOn_congr hg fun k hk => ?_⟩
  have hk' : k < (s.noted c w i).lanes.length := by simpa [Wave.flag] using hk
  have hl := hl k
  simp only [hk', and_true] at hl
  simp only [Wave.flag, State.onward, List.not_mem_nil, not_false_eq_true, and_true]
  change (if k ∈ s.group c.wid w c i then (Lane.advance (Wave.lane _ k) (wordsOf i)).1 else Wave.lane _ k) = _
  rw [← hl]
  rfl

/-- `laneOp`: the value of each active lane comes from the lane itself. -/
theorem laneOp_result {i : Instr} {f : Instr → Wave → Lane → Nat × BitVec 7} (h : ∀ s, exec i s = laneOp i f s) :
    LaneResult i (fun w k => f i w (w.lane k)) := by
  refine laneResult_of fun s => (h s).trans (congrArg (runLanes i s) ?_)
  funext s c w run
  simp only [eachLane, writeEff, List.foldl_map, flagsOn]
  rfl

/-- The lane changes of a result on its way. -/
theorem emptyFold_lanes (r n id : Nat) (ls : List (Nat × List (Nat × Word))) (u : Wave) :
    ls.foldl (fun v x => v.modLane x.1 (fun l => l.setEmpty r n id)) u =
      (ls.map Prod.fst).foldl (fun v k => v.modLane k (fun l => l.setEmpty r n id)) u := by
  rw [List.foldl_map]

/-- An instruction whose results come later (R85). -/
theorem laterResult_of {i : Instr} {fill : Wave → List Nat → Fill} {eff : Eff} (h : ∀ s, exec i s = runLanes i s eff)
    (hd : ∀ (n : State) (c : Issue) (u : Wave) (run : List Nat), run ≠ [] →
      eff (n.setWave c.wid u) c u run =
        ⟨(n.withFill { fill u run with wid := c.wid }).setWave c.wid
          (((fill u run).lanes.map Prod.fst).foldl (fun v k => v.modLane k (fun l => l.setEmpty (fieldsOf i).dst.toNat (dstRegs i) n.nid))
            { u with we := (fill u run).wave.foldl (fun m x => put m x.1 n.nid) u.we }), [], []⟩)
    (hk : ∀ u run, run.Nodup → ((fill u run).lanes.map Prod.fst).Nodup) : LaterResult i fill := by
  intro s c w hi he ha
  rw [h]
  let u := s.noted c w i
  let f := fill u (s.activeLanes c w i)
  let u' : Wave := { u with we := f.wave.foldl (fun m x => put m x.1 s.nid) u.we }
  have hv := modLane_fold_lanesOf (fun _ l => l.setEmpty (fieldsOf i).dst.toNat (dstRegs i) s.nid) (f.lanes.map Prod.fst) u'
  have hl := modLane_fold_lane (fun _ l => l.setEmpty (fieldsOf i).dst.toNat (dstRegs i) s.nid) (f.lanes.map Prod.fst) u'
    (hk _ _ (activeLanes_nodup hi.once))
  obtain ⟨t, ht, hg⟩ := runLanes_goesOn eff hi he (s.taken.withFill { f with wid := c.wid }) u' _ [] hv
    (by
      simp only [List.isEmpty_iff, ha, if_false]
      exact hd s.taken c u _ ha)
  refine ⟨t, ht, GoesOn_congr hg fun k hk => ?_⟩
  have hk' : k < u'.lanes.length := hk
  have hl := hl k
  simp only [hk', and_true] at hl
  simp only [State.onward, List.not_mem_nil, not_false_eq_true, and_true]
  rw [hl]
  rfl

theorem later_setWave (n : State) (wid r c : Nat) (vals : List (Nat × Nat)) (fl : List (Nat × BitVec 7)) (u : Wave) (hv : vals ≠ []) :
    (n.setWave wid u).later wid r c vals fl =
      (n.withFill { wid := wid, lanes := vals.map (fun x => (x.1, wordsFrom r x.2 c)), flags := fl }).setWave wid
        ((vals.map Prod.fst).foldl (fun v k => v.modLane k (fun l => l.setEmpty r c n.nid)) u) := by
  unfold State.later
  simp only [List.isEmpty_iff, hv, if_false]
  rw [List.foldl_map]
  exact fold_setWave' (n.withFill { wid := wid, lanes := vals.map (fun x => (x.1, wordsFrom r x.2 c)), flags := fl }) wid _ _
    (fun v x => modLane_setWave _ _ _ _ _) vals u

/-- `State.later` as an effect. -/
theorem later_result {i : Instr} {eff : Eff} {vals : Wave → List Nat → List (Nat × Nat)} {fl : Wave → List Nat → List (Nat × BitVec 7)}
    (h : ∀ s, exec i s = runLanes i s eff)
    (hd : ∀ s c w run, eff s c w run = ⟨s.later c.wid (fieldsOf i).dst.toNat (dstRegs i) (vals w run) (fl w run), [], []⟩)
    (hk : ∀ w run, (vals w run).map Prod.fst = run) :
    LaterResult i (fun w run => lanesFill (fieldsOf i).dst.toNat (dstRegs i) (vals w run) (fl w run)) := by
  refine laterResult_of h (fun n c u run hr => ?_) (fun u run hr => ?_)
  · have hv : vals u run ≠ [] := fun e => hr (by rw [← hk u run, e]; rfl)
    rw [hd, later_setWave _ _ _ _ _ _ _ hv]
    simp only [lanesFill, List.map_map]
    rfl
  · change (((vals u run).map _).map Prod.fst).Nodup
    rw [List.map_map]
    change ((vals u run).map Prod.fst).Nodup
    rw [hk]
    exact hr

/-- `laterOp`: a function unit's result. -/
theorem laterOp_result {i : Instr} {f : Instr → Wave → Lane → Nat × BitVec 7} (h : ∀ s, exec i s = laterOp i f s) :
    LaterResult i (fun w run => lanesFill (fieldsOf i).dst.toNat (dstRegs i) (run.map (fun k => (k, (f i w (w.lane k)).1)))
      (run.map (fun k => (k, (f i w (w.lane k)).2)))) := by
  refine later_result h (vals := fun w run => run.map (fun k => (k, (f i w (w.lane k)).1)))
    (fl := fun w run => run.map (fun k => (k, (f i w (w.lane k)).2))) (fun s c w run => ?_) (fun w run => by simp [Function.comp_def])
  simp only [eachLater, List.map_map, List.foldl_map, flagsOn]
  rfl

/-- Shuffles and broadcasts. -/
theorem shuffleOp_result {i : Instr} (h : ∀ s, exec i s = shuffleOp i s) :
    LaterResult i (fun w run => lanesFill (fieldsOf i).dst.toNat (dstRegs i) (run.map (fun k => (k, xsrc i w run k (shuffleFrom i w k)))) []) :=
  later_result h (fun _ _ _ _ => rfl) (fun w run => by simp [Function.comp_def])

theorem prefixes_keys (op : RedOp) (ty : IntTy) (a : Option Nat) (vs : List (Nat × Nat)) :
    (prefixes op ty a vs).map Prod.fst = vs.map Prod.fst := by
  induction vs generalizing a with
  | nil => rfl
  | cons e t ih => obtain ⟨k, x⟩ := e; simp only [prefixes, List.map_cons, ih]

/-- SCAN. -/
theorem scanOp_result {i : Instr} {op : ScanOp} {ty : IntTy} (h : ∀ s, exec i s = scanOp op ty i s) :
    LaterResult i (fun w run => lanesFill (fieldsOf i).dst.toNat (dstRegs i)
      (prefixes (scanRed op) ty none (run.map (fun k => (k, opA i w (w.lane k))))) []) :=
  later_result h (fun _ _ _ _ => rfl) (fun w run => by rw [prefixes_keys]; simp [Function.comp_def])

/-- A wave-level instruction (R202). -/
theorem waveResult_of {i : Instr} {res : Issue → Wave → List Nat → Wave} {eff : Eff} (h : ∀ s, exec i s = runLanes i s eff)
    (hd : ∀ (n : State) (c : Issue) (u : Wave) (run : List Nat), run ≠ [] →
      eff (n.setWave c.wid u) c u run = ⟨n.setWave c.wid (res c u run), [], []⟩)
    (hr : ∀ c u run, (res c u run).lanes = u.lanes) : WaveResult i res := by
  intro s c w hi he ha
  rw [h]
  obtain ⟨t, ht, hg⟩ := runLanes_goesOn eff hi he s.taken (res c (s.noted c w i) (s.activeLanes c w i)) _ [] (.refl _)
    (by
      simp only [List.isEmpty_iff, ha, if_false]
      exact hd _ _ _ _ ha)
  refine ⟨t, ht, GoesOn_congr hg fun k hk => ?_⟩
  simp only [State.onward, List.not_mem_nil, not_false_eq_true, and_true, Wave.lane, hr]

end Sys2Proof.Machine
end

