-- ==== Sys2Proof/Laws/Turns.lean ====
section
/-!
SUPPORT. Instructions whose lanes act in turn: what the shared course makes of the turns.
-/
namespace Sys2Proof.Machine

theorem afterTurns_cons (n : State) (act : State → Nat → Option Turn) (k : Nat) (t : List Nat) :
    n.afterTurns act (k :: t) = (((act n k).map Turn.part).getD n).afterTurns act t := rfl

/-- Turns of lanes on the issuing wave, from any part and wave. -/
theorem turns_fold (wid : Nat) (step : Done → Nat → Done) (act : State → Nat → Option Turn) (u : Wave)
    (hstep : ∀ (m : State) (v : Wave) (stay : List Nat) (k : Nat) (r : Turn), v.LanesOf u → v.lane k = u.lane k →
      m.wave? wid = some u → act m k = some r → r.part.wave? wid = some u ∧
      ∃ x : Wave, x.LanesOf v ∧ (∀ j, x.lane j = (v.modLane k r.lane).lane j) ∧ step ⟨m.setWave wid v, [], stay⟩ k =
        ⟨r.part.setWave wid x, [], if r.held then k :: stay else stay⟩) :
    ∀ (run : List Nat) (m : State) (v : Wave) (stay : List Nat), m.wave? wid = some u → run.Nodup → v.LanesOf u → (∀ k ∈ run, v.lane k = u.lane k) →
      (∀ k ∈ run, k < u.lanes.length) →
      (∀ k ∈ run, (act (m.foundBy act run k) k).isSome) →
      ∃ (v' : Wave) (stay' : List Nat),
        run.foldl step ⟨m.setWave wid v, [], stay⟩ = ⟨(m.afterTurns act run).setWave wid v', [], stay'⟩ ∧ v'.LanesOf u ∧
        (∀ k, k ∉ run → v'.lane k = v.lane k) ∧
        (∀ k ∈ run, ∀ r, act (m.foundBy act run k) k = some r → v'.lane k = r.lane (u.lane k)) ∧
        (∀ k, k ∈ stay' ↔ k ∈ stay ∨ (k ∈ run ∧ ∃ r, act (m.foundBy act run k) k = some r ∧ r.held = true)) := by
  intro run
  induction run with
  | nil => intro m v stay _ _ hv _ _ _; exact ⟨v, stay, rfl, hv, fun _ _ => rfl, by simp, by simp⟩
  | cons a t ih =>
    intro m v stay hm hn hv hl hlt ha
    have hn' := List.nodup_cons.mp hn
    have f0 : m.foundBy act (a :: t) a = m := by simp [State.foundBy, State.afterTurns]
    have ha0 := ha a (by simp)
    rw [f0] at ha0
    obtain ⟨r, hr⟩ := Option.isSome_iff_exists.mp ha0
    have fk : ∀ k ∈ t, m.foundBy act (a :: t) k = r.part.foundBy act t k := by
      intro k hk
      have hne : a ≠ k := fun e => hn'.1 (e ▸ hk)
      simp [State.foundBy, State.afterTurns, hne, hr]
    obtain ⟨hm', x, hx1, hx2, hs⟩ := hstep m v stay a r hv (hl a (by simp)) hm hr
    have hv' : x.LanesOf u := hx1.trans hv
    obtain ⟨v', stay', e, h1, h2, h3, h4⟩ := ih r.part x (if r.held then a :: stay else stay) hm' hn'.2 hv'
      (fun k hk => by
        have hne : ¬ (k = a ∧ a < v.lanes.length) := fun h => hn'.1 (h.1 ▸ hk)
        rw [hx2, lane_modLane, if_neg hne]
        exact hl k (by simp [hk]))
      (fun k hk => hlt k (by simp [hk]))
      (fun k hk => by rw [← fk k hk]; exact ha k (by simp [hk]))
    refine ⟨v', stay', ?_, h1, fun k hk => ?_, fun k hk q hq => ?_, fun k => ?_⟩
    · rw [List.foldl_cons, hs, e, afterTurns_cons, hr]; rfl
    · have hk' : k ≠ a ∧ k ∉ t := by simpa [not_or] using hk
      have hne : ¬ (k = a ∧ a < v.lanes.length) := fun h => hk'.1 h.1
      rw [h2 k hk'.2, hx2, lane_modLane, if_neg hne]
    · rcases List.mem_cons.mp hk with rfl | hk
      · rw [f0, hr] at hq
        obtain rfl := Option.some.inj hq
        rw [h2 k hn'.1, hx2, lane_modLane, if_pos ⟨rfl, by rw [hv.2]; exact hlt k (by simp)⟩, hl k (by simp)]
      · rw [fk k hk] at hq
        exact h3 k hk q hq
    · rw [h4]
      by_cases hka : k = a
      · subst hka
        simp only [f0, hr, hn'.1, false_and, or_false, List.mem_cons, true_or, true_and]
        cases hh : r.held <;> simp [hh]
      · have : (k ∈ (if r.held = true then a :: stay else stay)) ↔ k ∈ stay := by
          split <;> simp [hka]
        rw [this]
        simp only [List.mem_cons, hka, false_or]
        constructor
        · rintro (h | ⟨h, q, hq⟩)
          · exact .inl h
          · exact .inr ⟨h, q, by rw [fk k h]; exact hq⟩
        · rintro (h | ⟨h, q, hq⟩)
          · exact .inl h
          · exact .inr ⟨h, q, by rw [← fk k h]; exact hq⟩

/-- An instruction whose lanes act in turn; a turn may also have the wave pass a safe point (R262). -/
theorem turnResult_of' {i : Instr} {start : State → State} {act : State → Issue → Wave → State → Nat → Option Turn}
    {step : State → Issue → Wave → Done → Nat → Done}
    (h : ∀ s, exec i s = runLanes i s (fun s c w run => run.foldl (step s c w) ⟨start s, [], []⟩))
    (hstart : ∀ (s : State) (wid : Nat) (v : Wave), (start (s.setWave wid v)).setWave wid v = start (s.setWave wid v) ∧
      (start (s.setWave wid v)).wave? wid = some v)
    (hstep : ∀ (s : State) (c : Issue) (u : Wave) (m : State) (v : Wave) (stay : List Nat) (k : Nat) (r : Turn), v.LanesOf u →
      v.lane k = u.lane k → m.wave? c.wid = some u → act s c u m k = some r →
      r.part.wave? c.wid = some u ∧ ∃ x : Wave, x.LanesOf v ∧ (∀ j, x.lane j = (v.modLane k r.lane).lane j) ∧
        step s c u ⟨m.setWave c.wid v, [], stay⟩ k = ⟨r.part.setWave c.wid x, [], if r.held then k :: stay else stay⟩) : TurnResult i start act := by
  intro s c w hi he ha hk
  rw [h]
  have hu := issued_eq i hi.wave
  have hlt : ∀ k ∈ s.activeLanes c w i, k < (s.noted c w i).lanes.length := fun k hk => by
    rw [length_noted]; exact activeLanes_lt hk
  have hs := hstart s.taken c.wid (s.noted c w i)
  rw [← hu] at hs
  obtain ⟨v, stay, e, h1, h2, h3, h4⟩ := turns_fold c.wid (step (s.issued c w i) c (s.noted c w i))
    (act (s.issued c w i) c (s.noted c w i)) (s.noted c w i)
    (hstep (s.issued c w i) c (s.noted c w i)) (s.activeLanes c w i) (start (s.issued c w i)) (s.noted c w i) [] hs.2
    (activeLanes_nodup hi.once) (.refl _) (fun _ _ => rfl) hlt hk
  obtain ⟨t, ht, hg⟩ := runLanes_goesOn (fun s c w run => run.foldl (step s c w) ⟨start s, [], []⟩) hi he
    ((start (s.issued c w i)).afterTurns (act (s.issued c w i) c (s.noted c w i)) (s.activeLanes c w i)) (s.noted c w i) v stay h1
    (by
      simp only [List.isEmpty_iff, ha, if_false]
      rw [← e, ← hu, hs.1])
  refine ⟨t, ht, GoesOn_congr hg fun k hkl => ?_⟩
  simp only [List.not_mem_nil, false_or] at h4
  by_cases hka : k ∈ s.activeLanes c w i
  · obtain ⟨r, hr⟩ := Option.isSome_iff_exists.mp (hk k hka)
    simp only [hka, if_true, hr, h3 k hka r hr, activeLanes_sub hka, true_and, State.onward]
    have : k ∈ stay ↔ r.held = true := by
      rw [h4]
      exact ⟨fun ⟨_, q, hq, hh⟩ => by rw [hr] at hq; exact Option.some.inj hq ▸ hh, fun hh => ⟨hka, r, hr, hh⟩⟩
    simp only [this]
    cases r.held <;> rfl
  · have : k ∉ stay := by rw [h4]; exact fun hh => hka hh.1
    simp only [hka, if_false, h2 k hka, this, not_false_eq_true, and_true, State.onward]

/-- An instruction whose lanes act in turn. -/
theorem turnResult_of {i : Instr} {start : State → State} {act : State → Issue → Wave → State → Nat → Option Turn}
    {step : State → Issue → Wave → Done → Nat → Done}
    (h : ∀ s, exec i s = runLanes i s (fun s c w run => run.foldl (step s c w) ⟨start s, [], []⟩))
    (hstart : ∀ (s : State) (wid : Nat) (v : Wave), (start (s.setWave wid v)).setWave wid v = start (s.setWave wid v) ∧
      (start (s.setWave wid v)).wave? wid = some v)
    (hstep : ∀ (s : State) (c : Issue) (u : Wave) (m : State) (v : Wave) (stay : List Nat) (k : Nat) (r : Turn), v.LanesOf u →
      v.lane k = u.lane k → m.wave? c.wid = some u → act s c u m k = some r →
      r.part.wave? c.wid = some u ∧ step s c u ⟨m.setWave c.wid v, [], stay⟩ k =
        ⟨r.part.setWave c.wid (v.modLane k r.lane), [], if r.held then k :: stay else stay⟩) : TurnResult i start act := by
  exact turnResult_of' h hstart fun s c u m v stay k r hv hl hm hr =>
    ⟨(hstep s c u m v stay k r hv hl hm hr).1, v.modLane k r.lane, modLane_lanesOf v k r.lane, fun _ => rfl,
      (hstep s c u m v stay k r hv hl hm hr).2⟩

end Sys2Proof.Machine
end

