-- ==== Sys2Proof/Laws/Checks.lean ====
section
/-!
SUPPORT. Translating and checking accesses depends on nothing of the waves, and changes nothing of them.
-/
namespace Sys2Proof.Machine

/-- The state with other waves. -/
def State.withWaves (s : State) (x : FMap Wave) : State := { s with waves := x }

theorem setWave_eq (s : State) (wid : Nat) (v : Wave) : s.setWave wid v = s.withWaves (put s.waves wid v) := rfl

theorem walkFrom_waves (s : State) (x : FMap Wave) (va : Nat) (ls : List (Nat × Nat × Nat)) (t : Nat) :
    walkFrom (s.withWaves x) va ls t = walkFrom s va ls t := by
  induction ls generalizing t with
  | nil => rfl
  | cons a ls ih =>
    obtain ⟨level, lo, n⟩ := a
    simp only [walkFrom, ih]
    rfl

theorem countWhere_waves (s : State) (x : FMap Wave) (core code : Nat) (f : Option Nat → Bool → Nat) :
    (s.withWaves x).countWhere core code f = (s.countWhere core code f).withWaves x := by
  unfold State.countWhere
  rw [show (s.withWaves x).coreAt core = s.coreAt core from rfl]
  dsimp only
  split <;> rfl

theorem countCore_waves (s : State) (x : FMap Wave) (core vi : Nat) (user : Bool) (code n : Nat) :
    (s.withWaves x).countCore core vi user code n = (s.countCore core vi user code n).withWaves x := countWhere_waves ..

theorem keepLeaf_waves (s : State) (x : FMap Wave) (vi core va leafPa leaf leaf' pbits : Nat) :
    (s.withWaves x).keepLeaf vi core va leafPa leaf leaf' pbits = (s.keepLeaf vi core va leafPa leaf leaf' pbits).withWaves x := by
  unfold State.keepLeaf
  by_cases h : leaf' = leaf
  · simp only [h, if_true]; rfl
  · simp only [h, if_false]; rfl

theorem walkOwned_waves (s : State) (x : FMap Wave) (va : Nat) (ls : List (Nat × Nat × Nat)) (t : Nat) :
    (s.withWaves x).walkOwned va ls t = s.walkOwned va ls t := by
  induction ls generalizing t with
  | nil => rfl
  | cons a ls ih =>
    obtain ⟨level, lo, n⟩ := a
    simp only [State.walkOwned, ih]
    rfl

theorem walkPtrs_waves (s : State) (x : FMap Wave) (va : Nat) (ls : List (Nat × Nat × Nat)) (t : Nat) :
    walkPtrs (s.withWaves x) va ls t = walkPtrs s va ls t := by
  induction ls generalizing t with
  | nil => rfl
  | cons a ls ih =>
    obtain ⟨level, lo, n⟩ := a
    simp only [walkPtrs, ih]
    rfl

theorem keepPtrs_waves (s : State) (x : FMap Wave) (vi core va : Nat) (xs : List (Nat × Nat)) :
    (s.withWaves x).keepPtrs vi core va xs = (s.keepPtrs vi core va xs).withWaves x := by
  unfold State.keepPtrs
  split <;> rfl

theorem walkStart_waves (s : State) (x : FMap Wave) (vi core va root : Nat) :
    (s.withWaves x).walkStart vi core va root = ((s.walkStart vi core va root).1, (s.walkStart vi core va root).2.withWaves x) := by
  unfold State.walkStart
  have e : (s.withWaves x).walkStarts vi core va root = s.walkStarts vi core va root := rfl
  rw [e]
  simp only [walkFrom_waves]
  split
  · rfl
  · split <;> rfl

theorem useLeaf_waves (s : State) (x : FMap Wave) (vi core : Nat) (level : BitVec 2) (va acc : Nat) (ag : Agent) (cached : Bool)
    (leafPa leaf pbits : Nat) :
    (s.withWaves x).useLeaf vi core level va acc ag cached leafPa leaf pbits =
      ((s.useLeaf vi core level va acc ag cached leafPa leaf pbits).1.withWaves x,
        (s.useLeaf vi core level va acc ag cached leafPa leaf pbits).2) := by
  unfold State.useLeaf
  have e : (s.withWaves x).leafBlocked core ag cached leafPa = s.leafBlocked core ag cached leafPa := rfl
  rw [e]
  by_cases h1 : s.leafBlocked core ag cached leafPa = true
  · simp only [h1, if_true]
  · by_cases h2 : (!permits leaf acc level) = true
    · simp only [h1, h2, if_true, if_false, Bool.false_eq_true]
    · simp only [h1, h2, if_false, Bool.false_eq_true]
      by_cases h3 : acc = 3 ∧ (!isGddr (bits leaf 47 16 * 2 ^ 16 + va % 2 ^ pbits)) = true
      · simp only [h3, and_self, if_true]
      · simp only [h3, if_false]
        cases classAfter leaf core ag with
        | none =>
          simp only [State.startTransit]
          have e : (s.withWaves x).transit = s.transit := rfl
          rw [e]
          by_cases h : has s.transit leafPa = true
          · simp only [h, if_true]
          · simp only [h, if_false]; rfl
        | some y =>
          simp only [keepLeaf_waves]

theorem translate_waves (s : State) (x : FMap Wave) (vi core : Nat) (level : BitVec 2) (va acc : Nat) (ag : Agent) :
    (s.withWaves x).translate vi core level va acc ag =
      ((s.translate vi core level va acc ag).1.withWaves x, (s.translate vi core level va acc ag).2) := by
  unfold State.translate
  have e1 : (s.withWaves x).tlb = s.tlb := rfl
  have e2 : (s.withWaves x).sysAt 0x300 vi = s.sysAt 0x300 vi := rfl
  simp only [e1, e2, walkStart_waves, walkFrom_waves, walkOwned_waves, walkPtrs_waves, keepPtrs_waves, countCore_waves, useLeaf_waves]
  cases tlbHit s.tlb vi core va with
  | some e => rfl
  | none =>
    simp only
    by_cases h : bits (s.sysAt 0x300 vi) 63 63 = 0
    · simp only [h, if_true]
    · simp only [h, if_false]
      generalize s.walkStart vi core va (bits (s.sysAt 768 vi) 47 12 * 2 ^ 12) = st
      obtain ⟨⟨ls, table⟩, r⟩ := st
      simp only
      by_cases ho : (r.walkOwned va ls table).isSome = true
      · simp only [ho, if_true]
      · simp only [ho, if_false, Bool.false_eq_true]
        cases walkFrom r va ls table with
        | error e => rfl
        | ok y =>
          obtain ⟨leafPa, leaf, pbits⟩ := y
          simp only
          generalize ((r.countCore core vi (level == 0) 8 1).useLeaf vi core level va acc ag false leafPa leaf pbits) = z
          obtain ⟨z, v⟩ := z
          cases v <;> simp only [keepPtrs_waves]

theorem translateFor_waves (s : State) (x : FMap Wave) (w : Wave) (level : BitVec 2) (va acc : Nat) (ag : Agent) :
    (s.withWaves x).translateFor w level va acc ag =
      ((s.translateFor w level va acc ag).1.withWaves x, (s.translateFor w level va acc ag).2) := by
  unfold State.translateFor
  split
  · rfl
  · exact translate_waves ..

theorem checkPiece_waves (s : State) (x : FMap Wave) (w : Wave) (level : BitVec 2) (n acc : Nat) (own : Piece → Option Trap) (va m : Nat) :
    (s.withWaves x).checkPiece w level n acc own va m =
      ((s.checkPiece w level n acc own va m).1.withWaves x, (s.checkPiece w level n acc own va m).2) := by
  unfold State.checkPiece
  by_cases h : 2 ^ 57 ≤ va
  · simp only [h, if_true]
  · simp only [h, if_false]
    rw [translateFor_waves]
    generalize s.translateFor w level va acc (if acc = 2 then .atomic else .lane) = r
    obtain ⟨r, y⟩ := r
    cases y with
    | wait leaf => rfl
    | fault k i =>
      by_cases hk : k = 0x0A
      · subst hk; rfl
      · split <;> simp_all
    | ok pa priv dpage =>
      simp only
      by_cases hp : (!isMemory pa && !isPeerPa pa && !isHostPa pa) = true
      · simp only [hp, if_true]
      · simp only [hp, if_false, Bool.false_eq_true]

theorem checkAll_waves (s : State) (x : FMap Wave) (w : Wave) (level : BitVec 2) (n acc : Nat) (own : Piece → Option Trap)
    (ps : List (Nat × Nat)) :
    (s.withWaves x).checkAll w level n acc own ps =
      ((s.checkAll w level n acc own ps).1.withWaves x, (s.checkAll w level n acc own ps).2) := by
  induction ps generalizing s with
  | nil => rfl
  | cons a t ih =>
    obtain ⟨va, m⟩ := a
    simp only [State.checkAll, checkPiece_waves, ih]

theorem checkPieces_waves (s : State) (x : FMap Wave) (w : Wave) (level : BitVec 2) (n acc : Nat) (ps : List (Nat × Nat)) :
    (s.withWaves x).checkPieces w level n acc ps =
      ((s.checkPieces w level n acc ps).1.withWaves x, (s.checkPieces w level n acc ps).2) := checkAll_waves ..

theorem checkAccess_waves (s : State) (x : FMap Wave) (w : Wave) (level : BitVec 2) (want : Want) (va : Nat) :
    (s.withWaves x).checkAccess w level want va =
      ((s.checkAccess w level want va).1.withWaves x, (s.checkAccess w level want va).2) := by
  unfold State.checkAccess
  by_cases h : want.acc = 2 ∧ va % want.n ≠ 0
  · simp only [h, and_self, if_true, ne_eq, not_false_eq_true]
  · simp only [h, if_false]
    rw [checkAll_waves]
    rfl

theorem fetchWord_waves (s : State) (x : FMap Wave) (w : Wave) (level : BitVec 2) (va : Nat) :
    (s.withWaves x).fetchWord w level va = ((s.fetchWord w level va).1.withWaves x, (s.fetchWord w level va).2) := by
  unfold State.fetchWord
  by_cases h : 2 ^ 57 ≤ va
  · simp only [h, if_true]
  · simp only [h, if_false]
    rw [translateFor_waves]
    generalize s.translateFor w level va 3 .lane = r
    obtain ⟨r, y⟩ := r
    cases y with
    | wait leaf => rfl
    | fault k i =>
      by_cases hk : k = 0x0A
      · subst hk; rfl
      · split <;> simp_all
    | ok pa priv dpage =>
      simp only
      have e1 : (r.withWaves x).coreAt w.core = r.coreAt w.core := rfl
      have e2 : (r.withWaves x).deviceNum pa 4 = r.deviceNum pa 4 := rfl
      have e3 : (r.withWaves x).poisoned pa 4 = r.poisoned pa 4 := rfl
      rw [e1, e2, e3]
      by_cases hm : (!isMemory pa) = true
      · simp only [hm, if_true]
      · simp only [hm, if_false, Bool.false_eq_true]
        cases look (r.coreAt w.core).icache pa with
        | none =>
          simp only
          rw [show (r.withWaves x).lineOwned pa 4 = r.lineOwned pa 4 from rfl]
          cases r.lineOwned pa 4 <;> cases r.poisoned pa 4 <;> rfl
        | some old =>
          simp only
          by_cases ho : old = BitVec.ofNat 32 (r.deviceNum pa 4)
          · simp only [ho, if_true]
          · simp only [ho, if_false]; rfl

theorem fetchWord_keeps (s : State) (w : Wave) (level : BitVec 2) (va : Nat) : (s.fetchWord w level va).1.waves = s.waves := by
  have h := fetchWord_waves s s.waves w level va
  exact congrArg (fun r => r.1.waves) h

/-- Checking does not depend on the issuing wave's lanes, and leaves the waves. -/
theorem checkAccess_setWave (s : State) (wid : Nat) (v : Wave) (w : Wave) (level : BitVec 2) (want : Want) (va : Nat) :
    (s.setWave wid v).checkAccess w level want va =
      ((s.checkAccess w level want va).1.withWaves (put s.waves wid v), (s.checkAccess w level want va).2) :=
  checkAccess_waves s _ w level want va

theorem withWaves_self (s : State) : s.withWaves s.waves = s := rfl

theorem checkAccess_keeps (s : State) (w : Wave) (level : BitVec 2) (want : Want) (va : Nat) :
    (s.checkAccess w level want va).1.waves = s.waves := by
  have h := checkAccess_waves s s.waves w level want va
  rw [withWaves_self] at h
  exact congrArg (fun r => r.1.waves) h

end Sys2Proof.Machine
end

