-- ==== Sys2Proof/Laws/Masks.lean ====
section
/-!
SUPPORT. Laws of masks (R175, R212): one bit replaced, a mask read after a write, and the instructions that write a mask by lane.
-/
namespace Sys2Proof.Machine

theorem split_at_bit (x i : Nat) :
    x = 2 ^ i * (2 * (x / 2 ^ (i + 1)) + x / 2 ^ i % 2) + x % 2 ^ i := by
  have h1 := Nat.div_add_mod x (2 ^ i)
  have h2 : x / 2 ^ (i + 1) = x / 2 ^ i / 2 := by rw [Nat.pow_succ, Nat.div_div_eq_div_mul]
  have h3 := Nat.div_add_mod (x / 2 ^ i) 2
  rw [h2, h3, h1]

theorem setBit_eq (x i : Nat) (b : Bool) :
    setBit x i b = 2 ^ i * (2 * (x / 2 ^ (i + 1)) + b.toNat) + x % 2 ^ i := by
  have hx := split_at_bit x i
  have hd : bits x i i = x / 2 ^ i % 2 := by
    simp only [bits, Nat.add_sub_cancel_left, Nat.pow_one]
  unfold setBit setBits
  rw [hd]
  have hb : (if b = true then 1 else 0) % 2 ^ (i + 1 - i) = b.toNat := by
    cases b <;> simp
  rw [hb]
  have e1 : 2 ^ i * (2 * (x / 2 ^ (i + 1)) + x / 2 ^ i % 2) = 2 ^ i * (2 * (x / 2 ^ (i + 1))) + x / 2 ^ i % 2 * 2 ^ i := by
    rw [Nat.mul_add, Nat.mul_comm (2 ^ i) (x / 2 ^ i % 2)]
  have e2 : 2 ^ i * (2 * (x / 2 ^ (i + 1)) + b.toNat) = 2 ^ i * (2 * (x / 2 ^ (i + 1))) + b.toNat * 2 ^ i := by
    rw [Nat.mul_add, Nat.mul_comm (2 ^ i) b.toNat]
  omega

/-- Bits of a number in which one bit was replaced. -/
theorem bit_setBit (x i : Nat) (b : Bool) (j : Nat) : bit (setBit x i b) j = if j = i then b else bit x j := by
  have hlt : x % 2 ^ i < 2 ^ i := Nat.mod_lt _ (Nat.two_pow_pos i)
  unfold bit
  rw [setBit_eq]
  rw [Nat.testBit_two_pow_mul_add _ hlt]
  by_cases h : j = i
  · subst h
    simp only [Nat.lt_irrefl, if_false, Nat.sub_self, if_true]
    cases b <;> simp [Nat.testBit_zero]
  · simp only [h, if_false]
    conv => rhs; rw [split_at_bit x i, Nat.testBit_two_pow_mul_add _ hlt]
    split
    · rfl
    · have e : j - i = (j - i - 1) + 1 := by omega
      have hb : (2 * (x / 2 ^ (i + 1)) + b.toNat) / 2 = x / 2 ^ (i + 1) := by cases b <;> simp <;> omega
      have hc : (2 * (x / 2 ^ (i + 1)) + x / 2 ^ i % 2) / 2 = x / 2 ^ (i + 1) := by omega
      rw [e, Nat.testBit_succ, Nat.testBit_succ, hb, hc]

theorem bit_dw (x k : Nat) (h : k < 64) : bit (dw x).toNat k = bit x k := by
  unfold bit dw
  rw [BitVec.toNat_ofNat, Nat.testBit_mod_two_pow, decide_eq_true h, Bool.true_and]

theorem bit_ones (w : Wave) (k : Nat) (h : k < w.width) (h' : k < 64) : bit w.ones.toNat k = true := by
  unfold bit Wave.ones
  rw [BitVec.toNat_ofNat, Nat.testBit_mod_two_pow, decide_eq_true h', Bool.true_and, Nat.testBit_two_pow_sub_one, decide_eq_true h]

theorem bit_and (x y : DWord) (k : Nat) : bit (x &&& y).toNat k = (bit x.toNat k && bit y.toNat k) := by
  simp [bit, BitVec.toNat_and, Nat.testBit_and]

/-- A mask read after it was written, below the width. -/
theorem bit_rk_wk (w : Wave) (r : Nat) (x : DWord) (k : Nat) (hr : r ≠ 0) (h : k < w.width) (h' : k < 64) :
    bit ((w.wk r x).rk r).toNat k = bit x.toNat k := by
  have e : (w.wk r x).rk r = x &&& w.ones := by simp [Wave.wk, Wave.rk, hr, lookD]
  rw [e, bit_and, bit_ones w k h h', Bool.and_true]

/-- A write of a mask leaves the others alone. -/
theorem rk_wk_ne (w : Wave) {r j : Nat} (x : DWord) (h : j ≠ r) : (w.wk r x).rk j = w.rk j := by
  unfold Wave.wk
  split
  · rfl
  · simp only [Wave.rk, lookD, look_put_ne _ _ h]
    rfl

theorem emptyK_wk_ne (w : Wave) {r j : Nat} (x : DWord) (h : j ≠ r) : (w.wk r x).emptyK j = w.emptyK j := by
  unfold Wave.wk
  split
  · rfl
  · simp only [Wave.emptyK, has, look_del_ne _ h]

theorem emptyK_wk (w : Wave) (r : Nat) (x : DWord) : (w.wk r x).emptyK r = false := by
  unfold Wave.wk Wave.emptyK
  split
  · rename_i h; simp [h]
  · simp [has]

theorem wk_frame (w : Wave) (r : Nat) (x : DWord) : w.wk r x = { w with k := (w.wk r x).k, ke := (w.wk r x).ke } := by
  unfold Wave.wk
  split <;> rfl

/-- Writing one lane's bit of a mask. -/
def Wave.wkBit (r : Nat) (w : Wave) (k : Nat) (b : Bool) : Wave := w.wk r (dw (setBit (w.rk r).toNat k b))

theorem wkFold_frame (r : Nat) (b : Nat → Bool) (ks : List Nat) (w : Wave) :
    ks.foldl (fun v k => v.wkBit r k (b k)) w = { w with
      k := (ks.foldl (fun v k => v.wkBit r k (b k)) w).k
      ke := (ks.foldl (fun v k => v.wkBit r k (b k)) w).ke } := by
  induction ks generalizing w with
  | nil => rfl
  | cons a t ih =>
    rw [List.foldl_cons, ih (w.wkBit r a (b a))]
    have h := wk_frame w r (dw (setBit (w.rk r).toNat a (b a)))
    unfold Wave.wkBit
    rw [h]

theorem wkFold_width (r : Nat) (b : Nat → Bool) (ks : List Nat) (w : Wave) :
    (ks.foldl (fun v k => v.wkBit r k (b k)) w).width = w.width := by rw [wkFold_frame]

theorem wkFold_other (r : Nat) (b : Nat → Bool) (ks : List Nat) (w : Wave) (j : Nat) (h : j ≠ r) :
    (ks.foldl (fun v k => v.wkBit r k (b k)) w).rk j = w.rk j ∧ (ks.foldl (fun v k => v.wkBit r k (b k)) w).emptyK j = w.emptyK j := by
  induction ks generalizing w with
  | nil => exact ⟨rfl, rfl⟩
  | cons a t ih =>
    rw [List.foldl_cons]
    obtain ⟨h1, h2⟩ := ih (w.wkBit r a (b a))
    exact ⟨h1.trans (rk_wk_ne w _ h), h2.trans (emptyK_wk_ne w _ h)⟩

theorem wkFold_bit (r : Nat) (hr : r ≠ 0) (b : Nat → Bool) (ks : List Nat) (w : Wave) (k : Nat) (h : k < w.width) (h' : k < 64) :
    bit ((ks.foldl (fun v k => v.wkBit r k (b k)) w).rk r).toNat k = if k ∈ ks then b k else bit (w.rk r).toNat k := by
  induction ks generalizing w with
  | nil => simp
  | cons a t ih =>
    have hw : k < (w.wkBit r a (b a)).width := by
      unfold Wave.wkBit; rw [wk_frame]; exact h
    rw [List.foldl_cons, ih _ hw]
    unfold Wave.wkBit
    rw [bit_rk_wk w r _ k hr h h', bit_dw _ _ h', bit_setBit]
    by_cases hk : k = a
    · subst hk; simp
    · simp [hk]

theorem wkFold_full (r : Nat) (b : Nat → Bool) (ks : List Nat) (w : Wave) (h : ks ≠ [] ∨ w.emptyK r = false) :
    (ks.foldl (fun v k => v.wkBit r k (b k)) w).emptyK r = false := by
  induction ks generalizing w with
  | nil => simpa using h
  | cons a t ih => exact ih _ (.inr (emptyK_wk w r _))

theorem putKBit_setWave (n : State) (wid r k : Nat) (b : Bool) (v : Wave) :
    (n.setWave wid v).putKBit wid r k b = n.setWave wid (v.wkBit r k b) := by
  simp [State.putKBit, Wave.wkBit]

theorem rk_noted (s : State) (c : Issue) (w : Wave) (i : Instr) (r : Nat) : (s.noted c w i).rk r = w.rk r := rfl

/-- `bitOp`: each active lane writes its bit of a mask (R212, R220, R233). -/
theorem bitOp_result {i : Instr} {f : Instr → Wave → Lane → Bool × BitVec 7} (h : ∀ s, exec i s = bitOp i f s)
    (hd : (descForm i).dst = .kd) : BitResult i (f i) := by
  intro s c w hi he ha
  have hne : (fieldsOf i).dst.toNat ≠ 0 := by
    have hl := hi.legal
    simp only [State.issueLegal, legal, Bool.and_eq_true, hd, opdOk, decide_eq_true_eq] at hl
    omega
  rw [h]
  let u := s.noted c w i
  let b : Nat → Bool := fun k => (f i u (u.lane k)).1
  let fl := flagsOn (s.activeLanes c w i) (fun k => (f i u (u.lane k)).2)
  let v := (s.activeLanes c w i).foldl (fun v k => v.wkBit (fieldsOf i).dst.toNat k (b k)) u
  have hf : v = { u with k := v.k, ke := v.ke } := wkFold_frame _ b _ u
  have hlanes : (v.flag fl).lanes = u.lanes := by rw [hf]; rfl
  obtain ⟨t, ht, hg⟩ := runLanes_goesOn (eachBit (f i) (fieldsOf i).dst) hi he s.taken (v.flag fl) (v.flag fl) [] (.refl _)
    (by
      simp only [List.isEmpty_iff, ha, if_false, eachBit, List.foldl_map]
      rw [fold_setWave s.taken c.wid _ (fun v k => v.wkBit (fieldsOf i).dst.toNat k (b k)) (fun v k => putKBit_setWave _ _ _ _ _ v),
        raise_setWave]
      rfl)
  refine ⟨t, v.flag fl, ht, ?_, fun k hk hk' => wkFold_bit _ hne b _ u k hk hk', wkFold_full _ b _ u (.inl ha), fun r hr => wkFold_other _ b _ u r hr, GoesOn_congr hg fun k hk => ?_⟩
  · rw [hf]; rfl
  · simp only [State.onward, List.not_mem_nil, not_false_eq_true, and_true, Wave.lane, hlanes]
    rfl

end Sys2Proof.Machine
end

