-- ==== Sys2Proof/Laws/Control.lean ====
section
/-!
SUPPORT. Laws of branches, calls, returns and waits: which lanes go where, and which are held (R80, R240 to R253).
-/
namespace Sys2Proof.Machine

/-- A word address below 2^57 is no refused target (R240). -/
theorem targetTrap_none {a : DWord} (h : a.toNat % 4 = 0 ∧ a.toNat < 2 ^ 57) : targetTrap a = none := by
  have h3 : a &&& 3 = 0 := by
    apply BitVec.eq_of_toNat_eq
    rw [BitVec.toNat_and]
    change a.toNat &&& 3 = 0
    rw [show (3 : Nat) = 2 ^ 2 - 1 from rfl, Nat.and_two_pow_sub_one_eq_mod]
    exact h.1
  have hh : highBits a = false := by
    simp only [highBits, decide_eq_false_iff_not]
    have := h.2
    omega
  unfold targetTrap
  rw [h3, hh]
  rfl

/-- The state of a branch whose targets are all taken. -/
theorem branchDone_ok (go : Wave → Nat → Option DWord) (f : State → Nat → DWord → State) (w : Wave) (run : List Nat)
    (h : ∀ k ∈ run, ∀ a, go w k = some a → a.toNat % 4 = 0 ∧ a.toNat < 2 ^ 57) (d : Done) :
    run.foldl (branchLane go f w) d =
      { d with
        s := run.foldl (fun s k => (go w k).elim s (f s k)) d.s
        stay := (run.filter (fun k => (go w k).isSome)).reverse ++ d.stay } := by
  induction run generalizing d with
  | nil => rfl
  | cons k t ih =>
    have ht : ∀ j ∈ t, ∀ a, go w j = some a → a.toNat % 4 = 0 ∧ a.toNat < 2 ^ 57 := fun j hj => h j (List.mem_cons_of_mem _ hj)
    rw [List.foldl_cons, List.foldl_cons, ih ht]
    cases hg : go w k with
    | none => simp [branchLane, hg]
    | some a => simp [branchLane, hg, targetTrap_none (h k (List.mem_cons_self ..) a hg)]

/-- A wave whose lane jumps (R80); a jump back passes a safe point (R240). -/
def Wave.jumpTo (w : Wave) (k : Nat) (a : DWord) : Wave :=
  let r := (w.lane k).jump a
  let v := w.modLane k (fun _ => r.1)
  if r.2 && v.yieldsAt (v.lane k) then { v with yielding := true } else v

theorem jumpLane_setWave (s : State) (wid k : Nat) (a : DWord) (v : Wave) :
    (s.setWave wid v).jumpLane wid k a = s.setWave wid (v.jumpTo k a) := by
  unfold State.jumpLane Wave.jumpTo
  simp only [laneAt_setWave, modLane_setWave, State.safePoint]
  by_cases h : ((v.lane k).jump a).2 = true
  · simp only [h, Bool.true_and, if_true, modWave_setWave]
  · simp [h]

/-- A change of one lane of a wave, up to whether the wave yields. -/
structure LaneStep (G : Wave → Nat → Wave) (F : Nat → Lane → Lane) : Prop where
  frame : ∀ v k, (G v k).LanesOf v
  lane : ∀ v n k, (G v n).lane k = if k = n ∧ n < v.lanes.length then F n (v.lane k) else v.lane k

theorem LaneStep.fold_lanesOf {G : Wave → Nat → Wave} {F : Nat → Lane → Lane} (h : LaneStep G F) (ks : List Nat) (v : Wave) :
    (ks.foldl G v).LanesOf v := by
  induction ks generalizing v with
  | nil => exact .refl v
  | cons a t ih => exact (ih _).trans (h.frame v a)

theorem LaneStep.fold_lane {G : Wave → Nat → Wave} {F : Nat → Lane → Lane} (h : LaneStep G F) (ks : List Nat) (v : Wave)
    (hn : ks.Nodup) (k : Nat) : (ks.foldl G v).lane k = if k ∈ ks ∧ k < v.lanes.length then F k (v.lane k) else v.lane k := by
  induction ks generalizing v with
  | nil => simp
  | cons a t ih =>
    have hn := List.nodup_cons.mp hn
    simp only [List.foldl_cons, ih _ hn.2, (h.frame v a).2, h.lane, List.mem_cons]
    by_cases hk : k = a
    · subst hk; simp [hn.1]
    · simp [hk]

theorem jumpTo_step (go : Nat → Option DWord) :
    LaneStep (fun v k => (go k).elim v (v.jumpTo k)) (fun k l => (go k).elim l (fun a => (l.jump a).1)) := by
  refine ⟨fun v k => ?_, fun v n k => ?_⟩
  · cases go k with
    | none => exact .refl v
    | some a =>
      simp only [Wave.jumpTo, Option.elim_some]
      split <;> exact ⟨rfl, by simp⟩
  · cases go n with
    | none => simp
    | some a =>
      have h : (v.jumpTo n a).lane k = (v.modLane n (fun _ => ((v.lane n).jump a).1)).lane k := by
        unfold Wave.jumpTo; simp only []; split <;> rfl
      simp only [h, lane_modLane, Option.elim_some]
      split
      · rename_i h; rw [h.1]
      · rfl

theorem modLane_step (go : Nat → Option DWord) (F : Lane → DWord → Lane) :
    LaneStep (fun v k => (go k).elim v (fun a => v.modLane k (fun l => F l a))) (fun k l => (go k).elim l (F l)) := by
  refine ⟨fun v k => ?_, fun v n k => ?_⟩
  · cases go k with
    | none => exact .refl v
    | some a => exact modLane_lanesOf v k _
  · cases go n with
    | none => simp
    | some a => simp only [lane_modLane, Option.elim_some]

/-- An instruction that sends lanes to targets (R240). -/
theorem branchResult_of {i : Instr} {target : Issue → Wave → Nat → Option DWord} {go : Issue → Lane → DWord → Lane}
    {f : Issue → State → Nat → DWord → State} {G : Issue → Wave → Nat → DWord → Wave}
    (h : ∀ s, exec i s = runLanes i s (fun s c w run => branchDone (target c) (f c) s c w run))
    (hf : ∀ (n : State) c v k a, f c (n.setWave c.wid v) k a = n.setWave c.wid (G c v k a))
    (hs : ∀ c (g : Nat → Option DWord), LaneStep (fun v k => (g k).elim v (G c v k)) (fun k l => (g k).elim l (go c l))) :
    BranchResult i target go := by
  intro s c w hi he ha
  rw [h]
  have hL := hs c (target c (s.noted c w i))
  have hd : branchDone (target c) (f c) (s.taken.setWave c.wid (s.noted c w i)) c (s.noted c w i) (s.activeLanes c w i) =
      ⟨s.taken.setWave c.wid ((s.activeLanes c w i).foldl (fun v k => (target c (s.noted c w i) k).elim v (G c v k)) (s.noted c w i)), [],
        ((s.activeLanes c w i).filter (fun k => (target c (s.noted c w i) k).isSome)).reverse⟩ := by
    unfold branchDone
    rw [branchDone_ok _ _ _ _ ha]
    rw [fold_setWave s.taken c.wid _ (fun v k => (target c (s.noted c w i) k).elim v (G c v k)) (fun v k => by
      cases target c (s.noted c w i) k with
      | none => rfl
      | some a => exact hf _ _ _ _ _)]
    simp
  obtain ⟨t, ht, hg⟩ := runLanes_goesOn (fun s c w run => branchDone (target c) (f c) s c w run) hi he s.taken (s.noted c w i)
    _ ((s.activeLanes c w i).filter (fun k => (target c (s.noted c w i) k).isSome)).reverse (hL.fold_lanesOf (s.activeLanes c w i) (s.noted c w i))
    (by
      by_cases hn : s.activeLanes c w i = []
      · simp only [hn, List.isEmpty_nil, if_true, List.foldl_nil, List.filter_nil, List.reverse_nil]
      · simp only [List.isEmpty_iff, hn, if_false]
        exact hd)
  refine ⟨t, ht, GoesOn_congr hg fun k hk => ?_⟩
  rw [hL.fold_lane _ _ (activeLanes_nodup hi.once) k]
  simp only [State.onward, List.mem_reverse, List.mem_filter, hk, and_true]
  by_cases hr : k ∈ s.activeLanes c w i
  · have hgr : k ∈ s.group c.wid w c i := activeLanes_sub hr
    simp only [hr, hgr, true_and, if_true]
    cases hx : target c (s.noted c w i) k with
    | none => simp
    | some a => simp
  · simp [hr]

/-- BRA, BRC (R242, R243). -/
theorem branchOp_result {i : Instr} {target : Issue → Wave → Nat → Option DWord} (h : ∀ s, exec i s = branchOp i target s) :
    BranchResult i target (fun _ l a => (l.jump a).1) :=
  branchResult_of (f := fun c s k a => s.jumpLane c.wid k a) (G := fun _ v k a => v.jumpTo k a) h
    (fun n c v k a => jumpLane_setWave n c.wid k a v) (fun _ g => jumpTo_step g)

/-- CALL (R244). -/
theorem callOp_result {i : Instr} {target : Issue → Wave → Nat → DWord} (h : ∀ s, exec i s = callOp i target s) :
    BranchResult i (fun c w k => some (target c w k))
      (fun c l a => { l.write 14 2 (c.pc + dw (4 * wordsOf i)).toNat with pc := a }) :=
  branchResult_of (f := fun c s k a => (s.putV c.wid k 14 2 (c.pc + dw (4 * wordsOf i)).toNat).goLane c.wid k a)
    (G := fun c v k a => v.modLane k (fun l => { l.write 14 2 (c.pc + dw (4 * wordsOf i)).toNat with pc := a })) h
    (fun n c v k a => by
      simp only [putV_setWave, State.goLane, modLane_setWave]
      congr 1
      simp only [Wave.modLane]
      congr 1
      generalize v.lanes = ls
      induction ls generalizing k with
      | nil => rfl
      | cons x t ih => cases k with
        | zero => rfl
        | succ k => simp only [modAt]; rw [ih])
    (fun c g => modLane_step g _)

/-- RET (R245). -/
theorem retOp_result {i : Instr} (h : ∀ s, exec i s = retOp i s) :
    BranchResult i (fun _ w k => some (dw ((w.lane k).read 14 2))) (fun _ l a => { l with pc := a }) :=
  branchResult_of (f := fun c s k a => s.goLane c.wid k a) (G := fun _ v k a => v.modLane k (fun l => { l with pc := a })) h
    (fun n c v k a => by simp only [State.goLane, modLane_setWave]) (fun c g => modLane_step g _)

end Sys2Proof.Machine
end

