-- ==== Sys2Proof/Laws/Waits.lean ====
section
/-!
SUPPORT. Laws of the instructions in which lanes wait: SLEEP, WAIT and CMT.WAIT (R241, R252, R253, R264).
-/
namespace Sys2Proof.Machine

/-- Letting a lane wait changes the issuing wave alone. -/
theorem waitLane_setWave (n : State) (wid len k : Nat) (x : Wait) (v : Wave) :
    (n.setWave wid v).waitLane wid len k x = n.setWave wid (v.modLane k (fun l => { l with wait := x, ilen := len })) := by
  simp [State.waitLane]

theorem outsideLanes_all {w : Wave} {run : List Nat} (h : ∀ k ∈ run, (w.lane k).inside = false) : outsideLanes w run = run := by
  unfold outsideLanes
  rw [List.filter_eq_self]
  intro k hk
  simp [h k hk]

theorem forbidInside_none {w : Wave} {run : List Nat} (opc cause : Nat) (h : ∀ k ∈ run, (w.lane k).inside = false) :
    forbidInside opc cause w run = [] := by
  unfold forbidInside
  have : run.filter (fun k => (w.lane k).inside) = [] := by
    rw [List.filter_eq_nil_iff]
    intro k hk
    simp [h k hk]
  rw [this]
  rfl

theorem lane_note (w : Wave) (c : Nat) (g : List Nat) (k : Nat) :
    (w.note c g).lane k = if k < w.lanes.length then (if g.contains k then { w.lane k with lastIssue := c, solo := none } else w.lane k)
      else { present := false } := by
  unfold Wave.note Wave.lane
  simp only [List.getD_eq_getElem?_getD, List.getElem?_map]
  by_cases h : k < w.lanes.length
  · simp [h]
  · simp [h]

theorem lane_noted (s : State) (c : Issue) (w : Wave) (i : Instr) (k : Nat) (h : k < w.lanes.length) :
    (s.noted c w i).lane k =
      if k ∈ s.group c.wid w c i then { w.lane k with lastIssue := (s.coreAt w.core).cycle, solo := none } else w.lane k := by
  unfold State.noted
  rw [lane_note]
  simp [h]

theorem inside_noted {s : State} {c : Issue} {w : Wave} {i : Instr} {k : Nat} (h : k ∈ s.activeLanes c w i) :
    ((s.noted c w i).lane k).inside = (w.lane k).inside := by
  rw [lane_noted _ _ _ _ _ (activeLanes_lt h)]
  split <;> rfl

/-- An instruction in which lanes wait (R241). -/
theorem waitResult_of {i : Instr} {wait : State → Wave → Lane → Option Wait} {eff : Eff} (h : ∀ s, exec i s = runLanes i s eff)
    (hd : ∀ (s : State) (c : Issue) (u : Wave) (run : List Nat), (∀ k ∈ run, (u.lane k).inside = false) →
      ∃ stay : List Nat, (∀ k, k ∈ stay ↔ k ∈ run ∧ (wait s u (u.lane k)).isSome = true) ∧
        eff (s.taken.setWave c.wid u) c u run = ⟨(run.filter (fun k => (wait s u (u.lane k)).isSome)).foldl
          (fun n k => n.waitLane c.wid (wordsOf i) k ((wait s u (u.lane k)).getD .run)) (s.taken.setWave c.wid u), [], stay⟩) :
    WaitResult i wait := by
  intro s c w hi he ho
  rw [h]
  obtain ⟨stay, hs, hd⟩ := hd s c (s.noted c w i) (s.activeLanes c w i) (fun k hk => (inside_noted hk).trans (ho k hk))
  rw [fold_setWave s.taken c.wid _ (fun v k => v.modLane k (fun l => { l with
    wait := (wait s (s.noted c w i) ((s.noted c w i).lane k)).getD .run, ilen := wordsOf i })) (fun v k => waitLane_setWave _ _ _ _ _ v)] at hd
  have hL := modLane_fold_lanesOf (fun k l => { l with wait := (wait s (s.noted c w i) ((s.noted c w i).lane k)).getD .run, ilen := wordsOf i })
    ((s.activeLanes c w i).filter (fun k => (wait s (s.noted c w i) ((s.noted c w i).lane k)).isSome)) (s.noted c w i)
  have hl := modLane_fold_lane (fun k l => { l with wait := (wait s (s.noted c w i) ((s.noted c w i).lane k)).getD .run, ilen := wordsOf i })
    ((s.activeLanes c w i).filter (fun k => (wait s (s.noted c w i) ((s.noted c w i).lane k)).isSome)) (s.noted c w i)
    ((activeLanes_nodup hi.once).filter _)
  by_cases hn : s.activeLanes c w i = []
  · obtain ⟨t, ht, hg⟩ := runLanes_goesOn eff hi he s.taken (s.noted c w i) (s.noted c w i) [] (.refl _) (by simp [hn])
    refine ⟨t, ht, GoesOn_congr hg fun k hk => ?_⟩
    simp [hn, State.onward]
  · obtain ⟨t, ht, hg⟩ := runLanes_goesOn eff hi he s.taken (s.noted c w i) _ stay hL (by
      simp only [List.isEmpty_iff, hn, if_false]
      exact hd)
    refine ⟨t, ht, GoesOn_congr hg fun k hk => ?_⟩
    simp only [hl, hs, hk, and_true, List.mem_filter]
    by_cases hr : k ∈ s.activeLanes c w i
    · cases hx : wait s (s.noted c w i) ((s.noted c w i).lane k) with
      | none => simp [hr, State.onward]
      | some x => simp [hr]
    · simp [hr, State.onward]

theorem foldl_congr_mem {α β : Type} {f g : β → α → β} {l : List α} (h : ∀ b, ∀ a ∈ l, f b a = g b a) (b : β) :
    l.foldl f b = l.foldl g b := by
  induction l generalizing b with
  | nil => rfl
  | cons a t ih =>
    rw [List.foldl_cons, List.foldl_cons, h b a (List.mem_cons_self ..)]
    exact ih (fun b x hx => h b x (List.mem_cons_of_mem _ hx)) _

/-- The lanes that wait, from a test. -/
theorem filter_wait (p : Nat → Bool) (x : Nat → Wait) (run : List Nat) :
    run.filter (fun k => (if p k then some (x k) else none).isSome) = run.filter p := by
  congr 1
  funext k
  cases p k <;> rfl

/-- An instruction whose lanes wait by a test. -/
theorem waitResult_test {i : Instr} {p : State → Wave → Lane → Bool} {x : State → Wave → Lane → Wait} {eff : Eff}
    (h : ∀ s, exec i s = runLanes i s eff)
    (hd : ∀ (s : State) (c : Issue) (u : Wave) (run : List Nat), (∀ k ∈ run, (u.lane k).inside = false) →
      eff (s.taken.setWave c.wid u) c u run = ⟨(run.filter (fun k => p s u (u.lane k))).foldl
          (fun n k => n.waitLane c.wid (wordsOf i) k (x s u (u.lane k))) (s.taken.setWave c.wid u), [],
          run.filter (fun k => p s u (u.lane k))⟩) :
    WaitResult i (fun s w l => if p s w l then some (x s w l) else none) := by
  refine waitResult_of h fun s c u run ho => ⟨run.filter (fun k => p s u (u.lane k)), fun k => ?_, ?_⟩
  · rw [List.mem_filter]
    cases p s u (u.lane k) <;> simp
  · rw [hd s c u run ho, filter_wait (fun k => p s u (u.lane k))]
    congr 1
    refine foldl_congr_mem (fun n k hk => ?_) _
    rw [List.mem_filter] at hk
    simp [hk.2]

/-- SLEEP (R252). -/
theorem sleepOp_result {i : Instr} {target : State → Wave → Lane → Nat} (h : ∀ s, exec i s = sleepOp i target s)
    (ht : ∀ (s : State) (wid : Nat) (v u : Wave) (l : Lane), target (s.taken.setWave wid v) u l = target s u l) :
    WaitResult i (fun s w l => if decide (s.gt < target s w l) then some (.sleep (target s w l)) else none) := by
  refine waitResult_test (p := fun s w l => decide (s.gt < target s w l)) (x := fun s w l => .sleep (target s w l)) h fun s c u run ho => ?_
  simp only [sleepEff, outsideLanes_all ho, forbidInside_none _ _ ho, ht]
  rfl

/-- CMT.WAIT (R264). -/
theorem cmtWaitOp_result {i : Instr} (h : ∀ s, exec i s = cmtWaitOp i s) :
    WaitResult i (fun s _ l => if !s.holdsToken l.item then
      some (.commit (if (fieldsOf i).w2 = 0 then 0 else s.gt + (fieldsOf i).w2.toNat) (fieldsOf i).w2.toNat) else none) := by
  refine waitResult_test (p := fun s _ l => !s.holdsToken l.item)
    (x := fun s _ _ => .commit (if (fieldsOf i).w2 = 0 then 0 else s.gt + (fieldsOf i).w2.toNat) (fieldsOf i).w2.toNat) h fun s c u run ho => ?_
  have hl : ∀ k ∈ run.filter (fun k => !(s.taken.setWave c.wid u).holdsToken (u.lane k).item), (u.lane k).inside = false :=
    fun k hk => ho k (List.mem_filter.mp hk).1
  simp only [cmtWaitEff, outsideLanes_all hl, forbidInside_none _ _ hl]
  rfl

/-- The fold of WAIT's lanes, when none traps. -/
theorem waitFold (i : Instr) (c : Issue) (w : Wave) (f : Instr → Issue → Wave → Done → Nat → Done) (p : Nat → Bool) (x : Wait)
    (run : List Nat)
    (hf : ∀ d, ∀ k ∈ run, f i c w d k = if p k then { d with s := d.s.waitLane c.wid (wordsOf i) k x, stay := k :: d.stay } else d) (d : Done) :
    run.foldl (f i c w) d = ⟨(run.filter p).foldl (fun n k => n.waitLane c.wid (wordsOf i) k x) d.s, d.traps, (run.filter p).reverse ++ d.stay⟩ := by
  induction run generalizing d with
  | nil => rfl
  | cons k t ih =>
    rw [List.foldl_cons, hf d k (List.mem_cons_self ..), ih (fun d k hk => hf d k (List.mem_cons_of_mem _ hk))]
    cases hp : p k with
    | false => simp [hp]
    | true => simp [hp]

/-- WAIT, from what one lane does. -/
theorem waitOp_of {i : Instr} {f : Instr → Issue → Wave → Done → Nat → Done} {p : Wave → Lane → Bool} {x : Wait}
    (h : ∀ s, exec i s = waitOp i f s)
    (hf : ∀ c w d k, (w.lane k).inside = false →
      f i c w d k = if p w (w.lane k) then { d with s := d.s.waitLane c.wid (wordsOf i) k x, stay := k :: d.stay } else d) :
    WaitResult i (fun _ w l => if p w l then some x else none) := by
  refine waitResult_of h fun s c u run ho => ⟨(run.filter (fun k => p u (u.lane k))).reverse, fun k => ?_, ?_⟩
  · rw [List.mem_reverse, List.mem_filter]
    cases p u (u.lane k) <;> simp
  · simp only [waitEff]
    rw [waitFold i c u f (fun k => p u (u.lane k)) x run (fun d k hk => hf c u d k (ho k hk)), filter_wait (fun k => p u (u.lane k))]
    simp only [List.append_nil]
    congr 1
    refine foldl_congr_mem (fun n k hk => ?_) _
    rw [List.mem_filter] at hk
    simp [hk.2]

/-- WAIT.FULL under the blocking policy (R253). -/
theorem waitFull_result {i : Instr} (h : ∀ s, exec i s = waitOp i waitFullLane s) (hp : (fieldsOf i).epa = false) :
    WaitResult i (fun _ w l => if w.emptyRef l (waitRef i) then some (.full (waitRef i)) else none) := by
  refine waitOp_of (p := fun w l => w.emptyRef l (waitRef i)) h fun c w d k hk => ?_
  cases he : w.emptyRef (w.lane k) (waitRef i) <;> simp [waitFullLane, he, hp, hk]

/-- WAIT.EMPTY (R253). -/
theorem waitEmpty_result {i : Instr} (h : ∀ s, exec i s = waitOp i waitEmptyLane s) :
    WaitResult i (fun _ w l => if !w.emptyRef l (waitRef i) then some (.empty (waitRef i)) else none) := by
  refine waitOp_of (p := fun w l => !w.emptyRef l (waitRef i)) h fun c w d k hk => ?_
  cases he : w.emptyRef (w.lane k) (waitRef i) <;> simp [waitEmptyLane, he, hk]

end Sys2Proof.Machine
end

