-- ==== Sys2Proof/Laws/Access.lean ====
section
/-!
SUPPORT. What issuing an access to the global space does, lane by lane.
-/
namespace Sys2Proof.Machine

/-- Checking in the issue's fold: the same answer, and the same change beside the issuing wave. -/
theorem checkAccess_at (m : State) (wid : Nat) (v w : Wave) (level : BitVec 2) (want : Want) (va : Nat) :
    (m.setWave wid v).checkAccess w level want va =
      ((m.checkAccess w level want va).1.setWave wid v, (m.checkAccess w level want va).2) := by
  rw [checkAccess_setWave, setWave_eq, checkAccess_keeps]

theorem wave?_congr {m n : State} (h : n.waves = m.waves) (wid : Nat) : n.wave? wid = m.wave? wid := by
  unfold State.wave?; rw [h]

theorem waveAt_of {n : State} {wid : Nat} {u : Wave} (h : n.wave? wid = some u) : n.waveAt wid = u := by
  unfold State.wave? at h
  unfold State.waveAt lookD
  rw [h]
  rfl

theorem withPieces_setWave (m : State) (wid : Nat) (v : Wave) (o : Op) (want : Want) (va : Nat) (ps : List Piece) :
    (m.setWave wid v).withPieces o want va ps = (m.withPieces o want va ps).setWave wid v := by
  unfold State.withPieces
  induction ps generalizing m with
  | nil => rfl
  | cons p t ih => exact ih (m.withOp (pieceOp o want va p))

theorem withPieces_waves (m : State) (o : Op) (want : Want) (va : Nat) (ps : List Piece) :
    (m.withPieces o want va ps).waves = m.waves := by
  unfold State.withPieces
  induction ps generalizing m with
  | nil => rfl
  | cons p t ih => exact ih (m.withOp (pieceOp o want va p))

/-- An access is ordered by its own lane's orderings, which the turns of other lanes leave. -/
theorem ordered_setWave (m : State) (wid : Nat) (v : Wave) (o : Op) (r : Bool) (sc : Nat) (hw : o.wid = wid)
    (h : v.lane o.lane = (m.waveAt wid).lane o.lane) : (m.setWave wid v).ordered o r sc = m.ordered o r sc := by
  have e : (m.setWave wid v).laneAt o.wid o.lane = m.laneAt o.wid o.lane := by
    rw [hw, laneAt_setWave, h]; rfl
  have e2 : (m.setWave wid v).releaseSet o.wid o.lane o.instr = m.releaseSet o.wid o.lane o.instr := by
    unfold State.releaseSet
    rw [e]; rfl
  unfold State.ordered State.releaseBefore State.fencedBefore
  rw [e, e2]
  rfl

theorem ordered_dst (m : State) (o : Op) (r : Bool) (sc : Nat) :
    (m.ordered o r sc).dst = o.dst ∧ (m.ordered o r sc).dstN = o.dstN ∧ (m.ordered o r sc).head = o.head ∧
      (m.ordered o r sc).lane = o.lane := by
  unfold State.ordered
  split <;> exact ⟨rfl, rfl, rfl, rfl⟩

theorem ordered_wid (m : State) (o : Op) (r : Bool) (sc : Nat) : (m.ordered o r sc).wid = o.wid := by
  unfold State.ordered
  split <;> rfl

/-- What awaiting an access's destination changes in its lane (R85). -/
theorem awaitDst_setWave (m : State) (wid : Nat) (v : Wave) (o : Op) (hw : o.wid = wid) :
    (m.setWave wid v).awaitDst o = m.setWave wid (match o.dst with
      | some (.v r) => v.modLane o.lane (fun l => l.setEmpty r o.dstN o.head)
      | some (.w r) => { v with we := put v.we r o.head }
      | some (.k _) | none => v) := by
  subst hw
  unfold State.awaitDst
  cases o.dst with
  | none => rfl
  | some d => cases d <;> simp

theorem modLane_modLane (v : Wave) (k : Nat) (f g : Lane → Lane) : (v.modLane k f).modLane k g = v.modLane k (fun l => g (f l)) := by
  unfold Wave.modLane
  simp only
  congr 1
  generalize v.lanes = ls
  induction ls generalizing k with
  | nil => rfl
  | cons a t ih => cases k <;> simp [modAt, ih]

theorem modLane_id (v : Wave) (k : Nat) : v.modLane k (fun l => l) = v := by
  unfold Wave.modLane
  congr 1
  generalize v.lanes = ls
  induction ls generalizing k with
  | nil => rfl
  | cons a t ih => cases k <;> simp [modAt, ih]

/-- What putting an access of one lane in flight does. -/
theorem startAccess_at (n : State) (c : Issue) (u v : Wave) (k instr : Nat) (want : Want) (va len : Nat) (ps : List Piece)
    (hn : n.waveAt c.wid = u) (hl : v.lane k = u.lane k) :
    (n.setWave c.wid v).startAccess c u k instr want va len [] ps =
      ((n.withPieces (n.ordered (sentOp c u k instr want va n.nid (readsOutside want ps) []) (decide (2 ≤ want.mode)) want.scope) want va
          ps).setWave c.wid
        (let x := match want.dst with
          | some (.v r) => v.modLane k (fun l => l.setEmpty r want.dstN n.nid)
          | some (.w r) => { v with we := put v.we r n.nid }
          | some (.k _) | none => v
         if readsOutside want ps then x.modLane k (fun l => { l with wait := .held n.nid, ilen := len }) else x),
       readsOutside want ps) := by
  unfold State.startAccess
  have e0 : (n.setWave c.wid v).nid = n.nid := rfl
  simp only [e0]
  rw [ordered_setWave n c.wid v (sentOp c u k instr want va n.nid (readsOutside want ps) []) _ _ rfl (by rw [hn]; exact hl),
    withPieces_setWave]
  have e1 := ordered_dst n (sentOp c u k instr want va n.nid (readsOutside want ps) []) (decide (2 ≤ want.mode)) want.scope
  have e2 := ordered_wid n (sentOp c u k instr want va n.nid (readsOutside want ps) []) (decide (2 ≤ want.mode)) want.scope
  generalize n.ordered _ _ _ = o at e1 e2 ⊢
  rw [awaitDst_setWave _ c.wid v o e2, e1.1, e1.2.1, e1.2.2.1, e1.2.2.2]
  cases readsOutside want ps
  · simp only [Bool.false_eq_true, if_false]; rfl
  · simp only [if_true, List.foldl_cons, List.foldl_nil]
    rw [waitLane_setWave]
    rfl

/-- A global access, lane by lane (R268, R270). -/
theorem globalOp_result {i : Instr} (h : ∀ s, exec i s = globalOp i s)
    (hd : ∀ u l, (wantOf i u l).dst = some (.v (fieldsOf i).dst.toNat) ∨ (wantOf i u l).dst = none) :
    TurnResult i (fun s => s.fresh.2) (accessTurn i) := by
  refine turnResult_of (step := fun s c u => globalLane i (s.noRoom i c u) s.nid c u) h (fun s wid v => ⟨?_, ?_⟩)
    (fun s c u m v stay k r hv hl hm hr => ?_)
  · exact setWave_setWave ({ s with nid := s.nid + 1 } : State) wid v v
  · exact wave?_setWave s wid v
  · unfold accessTurn at hr
    unfold globalLane
    by_cases hf : s.noRoom i c u = true
    · simp only [hf, if_true, Option.some.injEq] at hr
      subst hr
      simp only [hf, if_true]
      refine ⟨hm, ?_⟩
      rw [waitLane_setWave]
      rfl
    · simp only [hf, Bool.false_eq_true, if_false] at hr ⊢
      rw [checkAccess_at]
      have hk := checkAccess_keeps m u (u.lane k).level (wantOf i u (u.lane k)) (globalAddr i u (u.lane k))
      generalize m.checkAccess u (u.lane k).level (wantOf i u (u.lane k)) (globalAddr i u (u.lane k)) = q at hr hk ⊢
      obtain ⟨n, y⟩ := q
      have hn : n.wave? c.wid = some u := (wave?_congr hk c.wid).trans hm
      cases y with
      | trap t => simp at hr
      | page leaf =>
        simp only [Option.some.injEq] at hr
        subst hr
        refine ⟨hn, ?_⟩
        simp only
        rw [waitLane_setWave]
        rfl
      | ok ps =>
        simp only [Option.some.injEq] at hr
        subst hr
        simp only
        refine ⟨(wave?_congr (withPieces_waves _ _ _ _ _) c.wid).trans hn, ?_⟩
        rw [startAccess_at n c u v k s.nid _ _ (wordsOf i) ps (waveAt_of hn) hl]
        cases hh : readsOutside (wantOf i u (u.lane k)) ps
        · rcases hd u (u.lane k) with hd | hd <;> simp [hd, hh, modLane_id]
        · rcases hd u (u.lane k) with hd | hd <;> simp [hd, hh, modLane_modLane, Lane.await]

/-- A fold of states as a fold of what the lanes did. -/
theorem fold_done (f : State → Nat → State) (run : List Nat) (s : State) :
    (⟨run.foldl f s, [], []⟩ : Done) = run.foldl (fun d k => { d with s := f d.s k }) ⟨s, [], []⟩ := by
  induction run generalizing s with
  | nil => rfl
  | cons a t ih => exact ih (f s a)

theorem releaseSet_setWave (m : State) (wid k x : Nat) (v : Wave) (h : v.lane k = (m.waveAt wid).lane k) :
    (m.setWave wid v).releaseSet wid k x = m.releaseSet wid k x := by
  unfold State.releaseSet
  rw [laneAt_setWave, h]
  rfl

theorem id_start (s : State) (wid : Nat) (v : Wave) : (id (s.setWave wid v)).setWave wid v = id (s.setWave wid v) ∧
    (id (s.setWave wid v)).wave? wid = some v := ⟨setWave_setWave s wid v v, wave?_setWave s wid v⟩

/-- FENCE (R281). -/
theorem fenceOp_result {i : Instr} {kind : FenceKind} {scope : Nat} (h : ∀ s, exec i s = fenceOp i kind scope s) :
    TurnResult i id (fenceTurn kind scope) := by
  refine turnResult_of (start := id) (step := fun _ c _ d k =>
      { d with s := (if scope = 0 then d.s else d.s.addFence c.wid k kind scope (d.s.releaseSet c.wid k 0)) })
    (fun s => (h s).trans (congrArg (runLanes i s) ?_)) id_start (fun s c u m v stay k r hv hl hm hr => ?_)
  · funext s c w run
    unfold fenceEff
    rw [← fold_done (fun s k => if scope = 0 then s else s.addFence c.wid k kind scope (s.releaseSet c.wid k 0))]
    congr 1
    by_cases hs : scope = 0
    · simp only [hs, if_true]
      induction run with
      | nil => rfl
      | cons a t ih => exact ih
    · simp only [hs, if_false]; rfl
  · unfold fenceTurn at hr
    by_cases hs : scope = 0
    · simp only [hs, if_true, Option.some.injEq] at hr
      subst hr
      exact ⟨hm, by simp [hs, modLane_id]⟩
    · simp only [hs, if_false, Option.some.injEq] at hr
      subst hr
      have he := releaseSet_setWave m c.wid k 0 v (by rw [waveAt_of hm]; exact hl)
      simp only [hs, if_false, State.addFence, he, modLaneAny_setWave]
      have hvi : v.vi = u.vi ∧ v.core = u.core := by rw [hv.1]; exact ⟨rfl, rfl⟩
      by_cases hb : (m.releaseSet c.wid k 0).isEmpty = true
      · simp only [hb, if_true]
        exact ⟨hm, by simp⟩
      · simp only [hb, if_false, anyWave_setWave, hvi]
        exact ⟨hm, rfl⟩

theorem translateFor_at (m : State) (wid : Nat) (v w : Wave) (level : BitVec 2) (va acc : Nat) (ag : Agent) :
    (m.setWave wid v).translateFor w level va acc ag =
      ((m.translateFor w level va acc ag).1.setWave wid v, (m.translateFor w level va acc ag).2) ∧
    (m.translateFor w level va acc ag).1.waves = m.waves := by
  have h := translateFor_waves m m.waves w level va acc ag
  rw [withWaves_self] at h
  have hk : (m.translateFor w level va acc ag).1.waves = m.waves := congrArg (fun r => r.1.waves) h
  refine ⟨?_, hk⟩
  rw [setWave_eq, translateFor_waves, setWave_eq, hk]

/-- PREF (R273). -/
theorem prefOp_result {i : Instr} (h : ∀ s, exec i s = prefOp i s) : TurnResult i id (prefTurn i) := by
  refine turnResult_of (start := id) (step := fun _ c u d k =>
      { d with s := (if 2 ^ 57 ≤ globalAddr i u (u.lane k) then d.s
                     else (d.s.translateFor u (u.lane k).level (globalAddr i u (u.lane k)) 0 .lane).1) })
    (fun s => (h s).trans (congrArg (runLanes i s) ?_)) id_start (fun s c u m v stay k r hv hl hm hr => ?_)
  · funext s c w run
    exact fold_done _ run s
  · simp only [prefTurn, Option.some.injEq] at hr
    subst hr
    by_cases hs : 2 ^ 57 ≤ globalAddr i u (u.lane k)
    · simp only [hs, if_true]
      exact ⟨hm, by simp [modLane_id]⟩
    · have ht := translateFor_at m c.wid v u (u.lane k).level (globalAddr i u (u.lane k)) 0 .lane
      simp only [hs, if_false, ht.1]
      exact ⟨(wave?_congr ht.2 c.wid).trans hm, by simp [modLane_id]⟩

/-- FLUSH (R273). -/
theorem flushOp_result {i : Instr} (h : ∀ s, exec i s = flushOp i s) : TurnResult i (fun s => s.fresh.2) (flushTurn i) := by
  refine turnResult_of (step := fun s c u => flushLane i s.nid c u) h (fun s wid v => ⟨?_, ?_⟩)
    (fun s c u m v stay k r hv hl hm hr => ?_)
  · exact setWave_setWave ({ s with nid := s.nid + 1 } : State) wid v v
  · exact wave?_setWave s wid v
  · unfold flushTurn at hr
    unfold flushLane
    simp only at hr ⊢
    rw [checkAccess_at]
    have hk := checkAccess_keeps m u (u.lane k).level { act := .flush, n := 1, acc := 0 } (globalAddr i u (u.lane k))
    generalize m.checkAccess u (u.lane k).level { act := .flush, n := 1, acc := 0 } (globalAddr i u (u.lane k)) = q at hr hk ⊢
    obtain ⟨n, y⟩ := q
    have hn : n.wave? c.wid = some u := (wave?_congr hk c.wid).trans hm
    cases y with
    | trap t => simp at hr
    | page leaf =>
      simp only [Option.some.injEq] at hr
      subst hr
      refine ⟨hn, ?_⟩
      simp only
      rw [waitLane_setWave]
      rfl
    | ok ps =>
      cases ps with
      | nil =>
        simp only [Option.some.injEq] at hr
        subst hr
        exact ⟨hn, by simp [modLane_id]⟩
      | cons p t =>
        simp only [Option.some.injEq] at hr
        subst hr
        cases hp : (p.dpage || isPeerPa p.pa || isHostPa p.pa)
        · simp only [Bool.false_eq_true, if_false]
          exact ⟨hn, by simp only [modLane_id, hp]; rfl⟩
        · simp only [if_true]
          exact ⟨hn, by simp only [modLane_id, hp]; rfl⟩

/-- Holding lanes one after another. -/
theorem wait_fold (n : State) (wid len : Nat) (x : Wait) (ks : List Nat) (v : Wave) :
    ks.foldl (fun s k => s.waitLane wid len k x) (n.setWave wid v) =
      n.setWave wid (ks.foldl (fun v k => v.modLane k (fun l => { l with wait := x, ilen := len })) v) :=
  fold_setWave n wid _ _ (fun v k => waitLane_setWave n wid len k x v) ks v

@[simp] theorem lane_awaitWave (want : Want) (id : Nat) (u : Wave) (k : Nat) : (awaitWave want id u).lane k = u.lane k := by
  unfold awaitWave
  split <;> rfl

/-- What putting a wave access in flight does. -/
theorem startWave_at (n : State) (c : Issue) (u : Wave) (k instr : Nat) (want : Want) (va len : Nat) (team : List Nat) (ps : List Piece)
    (hn : n.waveAt c.wid = u) (hd : (∃ r, want.dst = some (.w r)) ∨ want.dst = none) :
    (n.setWave c.wid u).startAccess c u k instr want va len team ps =
      ((n.withPieces (n.ordered (sentOp c u k instr want va n.nid (readsOutside want ps) team) (decide (2 ≤ want.mode)) want.scope) want va
          ps).setWave c.wid
        (if readsOutside want ps then
          (k :: team).foldl (fun v k => v.modLane k (fun l => { l with wait := .held n.nid, ilen := len })) (awaitWave want n.nid u)
         else awaitWave want n.nid u),
       readsOutside want ps) := by
  unfold State.startAccess
  have e0 : (n.setWave c.wid u).nid = n.nid := rfl
  simp only [e0]
  rw [ordered_setWave n c.wid u (sentOp c u k instr want va n.nid (readsOutside want ps) team) _ _ rfl (by rw [hn]),
    withPieces_setWave]
  have e1 := ordered_dst n (sentOp c u k instr want va n.nid (readsOutside want ps) team) (decide (2 ≤ want.mode)) want.scope
  have e2 := ordered_wid n (sentOp c u k instr want va n.nid (readsOutside want ps) team) (decide (2 ≤ want.mode)) want.scope
  generalize n.ordered _ _ _ = o at e1 e2 ⊢
  have ea : (match o.dst with
      | some (.v r) => u.modLane o.lane (fun l => l.setEmpty r o.dstN o.head)
      | some (.w r) => { u with we := put u.we r o.head }
      | some (.k _) | none => u) = awaitWave want n.nid u := by
    have e3 : o.dst = want.dst := e1.1
    have e4 : o.head = n.nid := e1.2.2.1
    unfold awaitWave
    rw [e3, e4]
    rcases hd with ⟨r, hd⟩ | hd <;> rw [hd]
  rw [awaitDst_setWave _ c.wid u o e2, ea]
  cases readsOutside want ps
  · simp only [Bool.false_eq_true, if_false]
  · simp only [if_true]
    rw [wait_fold]

/-- LDW and STW (R271). -/
theorem waveAccess_result {i : Instr} (h : ∀ s, exec i s = waveAccessOp i s)
    (hd : ∀ u l, (∃ r, (wantOf i u l).dst = some (.w r)) ∨ (wantOf i u l).dst = none) : WaveAccessResult i := by
  intro s c w k team n ps hi he ha u want va hroom hc
  rw [h]
  have hu := issued_eq i hi.wave
  have hs2 : (s.issued c w i).fresh.2.wave? c.wid = some u := by rw [hu]; exact wave?_setWave s.taken c.wid u
  have hw : n.waves = (s.issued c w i).fresh.2.waves := by
    have := checkAccess_keeps (s.issued c w i).fresh.2 u (u.lane k).level want va
    rw [hc] at this; exact this
  have hn : n.wave? c.wid = some u := (wave?_congr hw c.wid).trans hs2
  have hset : n = n.setWave c.wid u := by
    have e : (s.issued c w i).fresh.2.setWave c.wid u = (s.issued c w i).fresh.2 := by
      rw [hu]; exact setWave_setWave ({ s.taken with nid := s.nid + 1 } : State) c.wid u u
    rw [setWave_eq, hw]
    have : put (s.issued c w i).fresh.2.waves c.wid u = (s.issued c w i).fresh.2.waves := congrArg State.waves e
    rw [this, ← hw]
    rfl
  have hl := modLane_fold_lanesOf (fun _ l => { l with wait := Wait.held n.nid, ilen := wordsOf i }) (k :: team) (awaitWave want n.nid u)
  have hll := modLane_fold_lane (fun _ l => { l with wait := Wait.held n.nid, ilen := wordsOf i }) (k :: team) (awaitWave want n.nid u)
    (ha ▸ activeLanes_nodup hi.once)
  have hroom' : (s.taken.setWave c.wid u).noRoom i c u = false := hroom
  have hc' : (s.taken.setWave c.wid u).fresh.2.checkAccess u (u.lane k).level want va = (n, .ok ps) := by rw [← hu]; exact hc
  have hst := startWave_at n c u k s.nid want va (wordsOf i) team ps (waveAt_of hn) (hd u (u.lane k))
  rw [← hset] at hst
  have heff : waveAccessEff i (s.taken.setWave c.wid u) c u (k :: team) =
      ⟨(n.withPieces (n.ordered (sentOp c u k s.nid want va n.nid (readsOutside want ps) team) (decide (2 ≤ want.mode)) want.scope) want va
          ps).setWave c.wid
        (if readsOutside want ps then
          (k :: team).foldl (fun v k => v.modLane k (fun l => { l with wait := .held n.nid, ilen := wordsOf i })) (awaitWave want n.nid u)
         else awaitWave want n.nid u), [], if readsOutside want ps then k :: team else []⟩ := by
    unfold waveAccessEff
    simp only [hroom', Bool.false_eq_true, if_false]
    change (match (s.taken.setWave c.wid u).fresh.2.checkAccess u (u.lane k).level want va with
      | (s, .trap t) => _ | (s, .page leaf) => _ | (s, .ok ps) => _) = _
    rw [hc']
    change (⟨(n.startAccess c u k s.nid want va (wordsOf i) team ps).1, [],
      if (n.startAccess c u k s.nid want va (wordsOf i) team ps).2 then k :: team else []⟩ : Done) = _
    rw [hst]
  cases hh : readsOutside want ps
  · simp only [hh, Bool.false_eq_true, if_false] at heff
    obtain ⟨t, ht, hg⟩ := runLanes_goesOn (waveAccessEff i) hi he _ (awaitWave want n.nid u) (awaitWave want n.nid u) [] (.refl _)
      (by simp only [ha, List.isEmpty_cons, Bool.false_eq_true, if_false]; exact heff)
    refine ⟨t, ht, GoesOn_congr hg fun j hj => ?_⟩
    simp only [Bool.false_and, Bool.false_eq_true, if_false, List.not_mem_nil, not_false_eq_true, and_true, lane_awaitWave]
    rfl
  · simp only [hh, if_true] at heff
    obtain ⟨t, ht, hg⟩ := runLanes_goesOn (waveAccessEff i) hi he _ (awaitWave want n.nid u) _ (k :: team) hl
      (by simp only [ha, List.isEmpty_cons, Bool.false_eq_true, if_false]; exact heff)
    refine ⟨t, ht, GoesOn_congr hg fun j hj => ?_⟩
    have hj' : j < (awaitWave want n.nid u).lanes.length := hj
    have hlj := hll j
    simp only [hj', and_true] at hlj
    simp only [Bool.true_and, List.contains_iff_mem]
    rw [hlj]
    by_cases hm : j ∈ k :: team
    · simp only [hm, not_true_eq_false, and_false, if_false, if_true, lane_awaitWave]
      rfl
    · simp only [hm, not_false_eq_true, and_true, if_false, lane_awaitWave]
      rfl

end Sys2Proof.Machine
end

