-- ==== Sys2Proof/Laws/Bank.lean ====
section
/-!
SUPPORT. What issuing a scratchpad access does, lane by lane.
-/
namespace Sys2Proof.Machine

theorem any_put {α : Type} (p : Nat × α → Bool) (m : FMap α) (k : Nat) (u v : α) (h : look m k = some u) (e : p (k, v) = p (k, u)) :
    (put m k v).any p = m.any p := by
  induction m with
  | nil => simp [look] at h
  | cons x t ih =>
    obtain ⟨a, y⟩ := x
    unfold put
    unfold look at h
    have hmem : ∀ (t : FMap α), look t k = some u → p (k, u) = true → t.any p = true := by
      intro t
      induction t with
      | nil => simp [look]
      | cons x t ih =>
        obtain ⟨b, z⟩ := x
        intro h hp
        unfold look at h
        by_cases hb : b = k
        · subst hb
          simp only [if_true, Option.some.injEq] at h
          subst h
          simp [hp]
        · simp only [hb, if_false] at h
          simp [ih h hp]
    by_cases hk : k < a
    · have hne : a ≠ k := by omega
      simp only [hne, if_false] at h
      simp only [hk, if_true, List.any_cons, e]
      cases hp : p (k, u)
      · simp
      · simp [hmem t h hp]
    · by_cases hka : k = a
      · subst hka
        simp only [if_true, Option.some.injEq] at h
        subst h
        simp [e]
      · have hne : a ≠ k := fun x => hka x.symm
        simp only [hne, if_false] at h
        simp [hk, hka, ih h]

theorem foreignArea_at (m : State) (wid : Nat) (u v : Wave) (hm : m.wave? wid = some u) (hv : v.LanesOf u) (vi core off n : Nat) :
    (m.setWave wid v).foreignArea vi core off n = m.foreignArea vi core off n := by
  unfold State.foreignArea
  congr 1
  refine any_put _ m.waves wid u v hm ?_
  rw [hv.1]

theorem spadAddr_at (m : State) (wid : Nat) (u v : Wave) (hm : m.wave? wid = some u) (hv : v.LanesOf u) (vi core a n : Nat) :
    (m.setWave wid v).spadAddr vi core a n = m.spadAddr vi core a n := by
  unfold State.spadAddr
  simp only [foreignArea_at m wid u v hm hv]
  rfl

theorem checkSpad_at (m : State) (wid : Nat) (u v : Wave) (hm : m.wave? wid = some u) (hv : v.LanesOf u) (w : Wave) (q : Want) (a : Nat) :
    (m.setWave wid v).checkSpad w q a = m.checkSpad w q a := by
  unfold State.checkSpad
  rw [spadAddr_at m wid u v hm hv]

/-- A scratchpad access is ordered by its own lane's orderings, which the turns of other lanes leave. -/
theorem orderedBank_setWave (m : State) (wid : Nat) (v : Wave) (o : Op) (hw : o.wid = wid)
    (h : v.lane o.lane = (m.waveAt wid).lane o.lane) : (m.setWave wid v).orderedBank o = m.orderedBank o := by
  have e : (m.setWave wid v).laneAt o.wid o.lane = m.laneAt o.wid o.lane := by
    rw [hw, laneAt_setWave, h]; rfl
  have e2 : (m.setWave wid v).releaseSet o.wid o.lane o.instr = m.releaseSet o.wid o.lane o.instr := by
    unfold State.releaseSet
    rw [e]; rfl
  unfold State.orderedBank State.releaseBefore State.fencedBefore
  rw [e, e2]
  rfl

theorem withOp_setWave (m : State) (wid : Nat) (v : Wave) (o : Op) : (m.setWave wid v).withOp o = (m.withOp o).setWave wid v := rfl

/-- What putting a scratchpad access on its way does. -/
theorem startSpad_at (n : State) (i : Instr) (c : Issue) (u v : Wave) (k instr : Nat) (q : Want) (a core off : Nat)
    (hn : n.waveAt c.wid = u) (hl : v.lane k = u.lane k) :
    (n.setWave c.wid v).startSpad i c u k instr q a core off =
      ((n.withOp (n.orderedBank (bankOp i c u k instr q a core off n.nid))).setWave c.wid
        (let x := match q.dst with
          | some (.v r) => v.modLane k (fun l => l.setEmpty r q.dstN n.nid)
          | some (.w r) => { v with we := put v.we r n.nid }
          | some (.k _) | none => v
         if (n.orderedBank (bankOp i c u k instr q a core off n.nid)).waits || (n.orderedBank (bankOp i c u k instr q a core off n.nid)).probe then
           x.modLane k (fun l => { l with wait := .held n.nid, ilen := wordsOf i }) else x),
       (n.orderedBank (bankOp i c u k instr q a core off n.nid)).waits || (n.orderedBank (bankOp i c u k instr q a core off n.nid)).probe) := by
  unfold State.startSpad
  have e0 : (n.setWave c.wid v).nid = n.nid := rfl
  simp only [e0]
  rw [orderedBank_setWave n c.wid v (bankOp i c u k instr q a core off n.nid) rfl (by rw [hn]; exact hl), withOp_setWave]
  have e1 : (n.orderedBank (bankOp i c u k instr q a core off n.nid)).dst = q.dst ∧
      (n.orderedBank (bankOp i c u k instr q a core off n.nid)).dstN = q.dstN ∧
      (n.orderedBank (bankOp i c u k instr q a core off n.nid)).head = n.nid ∧
      (n.orderedBank (bankOp i c u k instr q a core off n.nid)).lane = k := ⟨rfl, rfl, rfl, rfl⟩
  have e2 : (n.orderedBank (bankOp i c u k instr q a core off n.nid)).wid = c.wid := rfl
  generalize n.orderedBank _ = o at e1 e2 ⊢
  rw [awaitDst_setWave _ c.wid v o e2, e1.1, e1.2.1, e1.2.2.1, e1.2.2.2]
  cases (o.waits || o.probe)
  · simp only [Bool.false_eq_true, if_false] <;> rfl
  · simp only [if_true]
    first
    | (rw [waitLane_setWave]; rfl)
    | rw [waitLane_setWave]

theorem wordsNum_setWave (m : State) (wid : Nat) (v : Wave) (ks : List Nat) : (m.setWave wid v).wordsNum ks = m.wordsNum ks := by
  induction ks with
  | nil => rfl
  | cons a t ih => simp only [State.wordsNum, ih]; rfl

theorem bankReleases_setWave (m : State) (wid : Nat) (v : Wave) (o : Op) : (m.setWave wid v).bankReleases o = m.bankReleases o := by
  unfold State.bankReleases
  rw [wordsNum_setWave]
  rfl

theorem canServe_setWave (m : State) (wid : Nat) (v : Wave) (id : Nat) (o : Op) :
    (m.setWave wid v).canServe id o = m.canServe id o := by
  unfold State.canServe
  rw [bankReleases_setWave]
  rfl

theorem bankFull_setWave (m : State) (wid : Nat) (v : Wave) (i : Instr) (c : Issue) (l : Lane) (q : Want) (core off : Nat) :
    (m.setWave wid v).bankFull i c l q core off = m.bankFull i c l q core off := by
  have e : (m.setWave wid v).bankWaits c.wid = m.bankWaits c.wid := by
    unfold State.bankWaits
    simp only [canServe_setWave]
    rfl
  unfold State.bankFull
  rw [e]
  rfl

/-- A scratchpad access, lane by lane (R268, R272). -/
theorem spadOp_result {i : Instr} (h : ∀ s, exec i s = spadOp i s)
    (hd : ∀ (m : State) u w a core off q, m.checkSpad u (spadWant i u w) a = .ok core off q → (∃ r, q.dst = some (.v r)) ∨ q.dst = none) :
    TurnResult i (fun s => s.fresh.2) (spadTurn i) := by
  refine turnResult_of (step := fun s c u => spadLane i s.nid c u) h (fun s wid v => ⟨?_, ?_⟩)
    (fun s c u m v stay k r hv hl hm hr => ?_)
  · exact setWave_setWave ({ s with nid := s.nid + 1 } : State) wid v v
  · exact wave?_setWave s wid v
  · unfold spadTurn at hr
    unfold spadLane
    simp only at hr ⊢
    rw [checkSpad_at m c.wid u v hm hv]
    have hd := hd m u (u.lane k) (spadAddress i u (u.lane k))
    cases hc : m.checkSpad u (spadWant i u (u.lane k)) (spadAddress i u (u.lane k)) with
    | trap t => simp [hc] at hr
    | wait =>
      simp only [hc, Option.some.injEq] at hr
      subst hr
      refine ⟨hm, ?_⟩
      simp only
      rw [waitLane_setWave]
      rfl
    | ok core off q =>
      have hb : (m.setWave c.wid v).bankFull i c (u.lane k) q core off = m.bankFull i c (u.lane k) q core off := bankFull_setWave ..
      simp only [hc] at hr
      simp only [hb]
      by_cases hf : m.bankFull i c (u.lane k) q core off = true
      · simp only [hf, if_true, Option.some.injEq] at hr
        subst hr
        refine ⟨hm, ?_⟩
        simp only [hf, if_true]
        rw [waitLane_setWave]
        rfl
      · simp only [hf, Bool.false_eq_true, if_false, Option.some.injEq] at hr
        subst hr
        refine ⟨hm, ?_⟩
        simp only [hf, Bool.false_eq_true, if_false]
        rw [startSpad_at m i c u v k s.nid q _ core off (waveAt_of hm) hl]
        cases hw : ((m.orderedBank (bankOp i c u k s.nid q (spadAddress i u (u.lane k)) core off m.nid)).waits ||
          (m.orderedBank (bankOp i c u k s.nid q (spadAddress i u (u.lane k)) core off m.nid)).probe)
        · rcases hd core off q hc with ⟨r, hd⟩ | hd <;> simp [hd, hw, modLane_id]
        · rcases hd core off q hc with ⟨r, hd⟩ | hd <;> simp [hd, hw, modLane_modLane, Lane.await]

/-- A scratchpad access that passes its checks keeps its destination. -/
theorem checkSpad_dst {m : State} {u : Wave} {q x : Want} {a core off : Nat} (h : m.checkSpad u q a = .ok core off x) : x.dst = q.dst := by
  unfold State.checkSpad at h
  split at h
  · cases h
  · split at h
    · cases h
    · cases h
    · split at h
      · rename_i y hy
        simp only [SpadCheck.ok.injEq] at h
        rw [← h.2.2]
        unfold Want.atFifo at hy
        split at hy <;> simp at hy
        · rw [← hy]
        · rw [← hy.2]
        · rw [← hy]
        · rw [← hy]
      · cases h
    · split at h
      · cases h
      · simp only [SpadCheck.ok.injEq] at h
        rw [h.2.2]

/-- A scratchpad instruction's destination is the lane register DST, or none. -/
theorem spadWant_dst (i : Instr) (u : Wave) (l : Lane) :
    (spadWant i u l).dst = some (.v (fieldsOf i).dst.toNat) ∨ (spadWant i u l).dst = none := by
  unfold spadWant
  simp only
  split <;> simp

/-- The scratchpad instructions. -/
theorem spad_result {i : Instr} (h : ∀ s, exec i s = spadOp i s) : TurnResult i (fun s => s.fresh.2) (spadTurn i) :=
  spadOp_result h fun m u w a core off q hq => by
    rw [checkSpad_dst hq]
    rcases spadWant_dst i u w with e | e
    · exact .inl ⟨_, e⟩
    · exact .inr e

end Sys2Proof.Machine
end

