-- ==== Sys2Proof/Laws/Loops.lean ====
section
/-!
SUPPORT. What LOOP and RBWAIT do, lane by lane.
-/
namespace Sys2Proof.Machine

theorem fetchWord_at (m : State) (wid : Nat) (v w : Wave) (level : BitVec 2) (va : Nat) :
    (m.setWave wid v).fetchWord w level va = ((m.fetchWord w level va).1.setWave wid v, (m.fetchWord w level va).2) := by
  rw [setWave_eq, fetchWord_waves, setWave_eq, fetchWord_keeps]

theorem jumpTo_lanesOf (v : Wave) (k : Nat) (a : DWord) : (v.jumpTo k a).LanesOf v := (jumpTo_step (fun _ => some a)).frame v k

theorem jumpTo_lane (v : Wave) (k j : Nat) (a : DWord) :
    (v.jumpTo k a).lane j = if j = k ∧ k < v.lanes.length then ((v.lane j).jump a).1 else v.lane j :=
  (jumpTo_step (fun _ => some a)).lane v k j

/-- LOOP (R246, R247). -/
theorem loopOp_result {i : Instr} {count : Lane → Nat} (h : ∀ s, exec i s = loopOp i count s) : TurnResult i id (loopTurn i count) := by
  refine turnResult_of' (start := id)
    (step := fun _ c u d k => loopLane c u (wordsOf i) (w2f (fieldsOf i) 15 0) (loopLevel i) d k (count (u.lane k))) h id_start
    (fun s c u m v stay k r hv hl hm hr => ?_)
  unfold loopTurn at hr
  unfold loopLane
  simp only at hr ⊢
  by_cases h0 : count (u.lane k) = 0
  · simp only [h0, ne_eq, not_true_eq_false, if_false] at hr
    simp only [h0, if_true]
    rw [fetchWord_at]
    have hk := fetchWord_keeps m u (u.lane k).level (c.pc + dw (4 * w2f (fieldsOf i) 15 0)).toNat
    generalize m.fetchWord u (u.lane k).level (c.pc + dw (4 * w2f (fieldsOf i) 15 0)).toNat = q at hr hk ⊢
    obtain ⟨n, y⟩ := q
    have hn : n.wave? c.wid = some u := (wave?_congr hk c.wid).trans hm
    cases y with
    | fault t => simp at hr
    | wait leaf =>
      simp only [Option.some.injEq] at hr
      subst hr
      refine ⟨hn, _, modLane_lanesOf v k (Lane.await i (.page leaf)), fun _ => rfl, ?_⟩
      simp only
      rw [waitLane_setWave]
      rfl
    | ok x =>
      simp only at hr
      cases ht : targetTrap (c.pc + dw (4 * w2f (fieldsOf i) 15 0) + dw (4 * lenWords x)) with
      | some t => simp [ht] at hr
      | none =>
        simp only [ht, Option.isSome_none, Bool.false_eq_true, if_false, Option.some.injEq] at hr
        subst hr
        refine ⟨hn, (v.modLane k (fun l => l.setLoop (loopLevel i) (c.pc + dw (4 * wordsOf i)) (c.pc + dw (4 * w2f (fieldsOf i) 15 0)) 0)).jumpTo k
          (c.pc + dw (4 * w2f (fieldsOf i) 15 0) + dw (4 * lenWords x)),
          (jumpTo_lanesOf _ _ _).trans (modLane_lanesOf _ _ _), fun j => ?_, ?_⟩
        · rw [jumpTo_lane, length_lanes_modLane, lane_modLane, lane_modLane]
          by_cases hj : j = k ∧ k < v.lanes.length
          · simp only [hj, if_true, and_self]
          · simp only [hj, if_false]
        · simp only [ht, modLane_setWave, jumpLane_setWave, if_true]
  · simp only [h0, ne_eq, not_false_eq_true, if_true, Option.some.injEq] at hr
    subst hr
    refine ⟨hm, _, modLane_lanesOf v k _, fun _ => rfl, ?_⟩
    simp only [h0, if_false, modLane_setWave, Bool.false_eq_true]

/-- RBWAIT (R276). -/
theorem rbwaitOp_result {i : Instr} (h : ∀ s, exec i s = rbwaitOp i s) : TurnResult i id (rbwaitTurn i) := by
  refine turnResult_of (start := id) (step := fun _ c u => rbwaitLane i c u) h id_start (fun s c u m v stay k r hv hl hm hr => ?_)
  unfold rbwaitTurn at hr
  unfold rbwaitLane
  simp only at hr ⊢
  rw [checkSpad_at m c.wid u v hm hv]
  cases hc : m.checkSpad u { act := .rbrd, n := 4, acc := 0 } (spadAddress i u (u.lane k)) with
  | trap t => simp [hc] at hr
  | wait =>
    simp only [hc, Option.some.injEq] at hr
    subst hr
    refine ⟨hm, ?_⟩
    simp only
    rw [waitLane_setWave]
    rfl
  | ok core off q =>
    have hp : (m.setWave c.wid v).rowPasses (wordKey core off) (opD i u (u.lane k) % 2 ^ 32) =
      m.rowPasses (wordKey core off) (opD i u (u.lane k) % 2 ^ 32) := rfl
    have hq : (m.setWave c.wid v).rowHeld c.wid k u.core (wordKey core off) = m.rowHeld c.wid k u.core (wordKey core off) := rfl
    have ht : ∀ b, (m.setWave c.wid v).rowTrap c.wid k (wordKey core off) b = m.rowTrap c.wid k (wordKey core off) b := by
      intro b
      have e : (m.setWave c.wid v).laneAt c.wid k = m.laneAt c.wid k := by
        rw [laneAt_setWave, hl, ← waveAt_of hm]; rfl
      unfold State.rowTrap
      rw [e]
      rfl
    have hd : (m.setWave c.wid v).deadline u.vi = m.deadline u.vi := rfl
    simp only [hc] at hr
    simp only [hp, hq, ht, hd]
    by_cases hr0 : m.rowHeld c.wid k u.core (wordKey core off) = true
    · simp only [hr0, if_true, Option.some.injEq] at hr
      subst hr
      refine ⟨hm, ?_⟩
      simp only [hr0, if_true]
      rw [waitLane_setWave]
      rfl
    simp only [hr0, Bool.false_eq_true, if_false] at hr ⊢
    by_cases hr1 : m.rowPasses (wordKey core off) (opD i u (u.lane k) % 2 ^ 32) = true
    · simp only [hr1, if_true, Option.some.injEq] at hr
      subst hr
      refine ⟨hm, ?_⟩
      have hvc : v.core = u.core := by rw [hv.1]
      simp only [hr1, if_true, State.passRow, waveAt_setWave, modLane_setWave, hvc]
      rfl
    · simp only [hr1, Bool.false_eq_true, if_false] at hr ⊢
      cases hr2 : m.rowTrap c.wid k (wordKey core off) (fieldsOf i).epb with
      | some t => simp [hr2] at hr
      | none =>
        simp only [hr2, Option.isSome_none, Bool.false_eq_true, if_false, Option.some.injEq] at hr
        subst hr
        refine ⟨hm, ?_⟩
        simp only
        rw [waitLane_setWave]
        rfl

end Sys2Proof.Machine
end

