-- ==== Sys2Proof/Laws/Outcomes.lean ====
section
/-!
SUPPORT. Instructions whose issue changes the part at once.
-/
namespace Sys2Proof.Machine

/-- An effect on all active lanes together. -/
theorem outcomeResult_of {i : Instr} {out : State → Issue → Wave → List Nat → Option Outcome} {eff : Eff}
    (h : ∀ s, exec i s = runLanes i s eff)
    (hd : ∀ (n : State) (c : Issue) (u : Wave) (run : List Nat) (r : Outcome), n.wave? c.wid = some u → n.setWave c.wid u = n → run ≠ [] →
      run.Nodup → out n c u run = some r → r.wave.lanes = u.lanes ∧
        ∃ (v : Wave) (stay : List Nat), eff n c u run = ⟨r.part.setWave c.wid v, [], stay⟩ ∧ v.LanesOf r.wave ∧
          (∀ k, k < u.lanes.length → v.lane k = if k ∈ run then r.lane k (u.lane k) else u.lane k) ∧
          (∀ k ∈ run, k ∈ stay ↔ r.held k = true) ∧ (∀ k ∈ stay, k ∈ run)) : OutcomeResult i out := by
  intro s c w r hi he ha hr
  rw [h]
  have hu := issued_eq i hi.wave
  have hw : (s.issued c w i).wave? c.wid = some (s.noted c w i) := by rw [hu]; exact wave?_setWave _ _ _
  have hss : (s.issued c w i).setWave c.wid (s.noted c w i) = s.issued c w i := by rw [hu]; exact setWave_setWave _ _ _ _
  obtain ⟨hl, v, stay, e, h1, h2, h3, h4⟩ := hd (s.issued c w i) c (s.noted c w i) (s.activeLanes c w i) r hw hss ha
    (activeLanes_nodup hi.once) hr
  obtain ⟨t, ht, hg⟩ := runLanes_goesOn eff hi he r.part r.wave v stay h1
    (by simp only [List.isEmpty_iff, ha, if_false]; rw [← hu]; exact e)
  refine ⟨t, ht, GoesOn_congr hg fun k hk => ?_⟩
  rw [hl] at hk
  by_cases hka : k ∈ s.activeLanes c w i
  · simp only [h2 k hk, hka, if_true, activeLanes_sub hka, true_and, State.onward, h3 k hka]
    cases r.held k <;> rfl
  · have : k ∉ stay := fun x => hka (h4 k x)
    simp only [h2 k hk, hka, if_false, this, not_false_eq_true, and_true, State.onward]

/-- A part whose wave is as it was. -/
theorem setWave_same {n m : State} {wid : Nat} {u : Wave} (h : m.waves = n.waves) (hs : n.setWave wid u = n) : m.setWave wid u = m := by
  have : put n.waves wid u = n.waves := congrArg State.waves hs
  rw [setWave_eq, h, this, ← h]
  rfl

/-- An effect on the part and the wave's registers alone. -/
theorem outcome_part {i : Instr} {out : State → Issue → Wave → List Nat → Option Outcome} {eff : Eff}
    (h : ∀ s, exec i s = runLanes i s eff)
    (hd : ∀ (n : State) (c : Issue) (u : Wave) (run : List Nat) (r : Outcome), n.wave? c.wid = some u → n.setWave c.wid u = n → run ≠ [] →
      out n c u run = some r → r.wave.lanes = u.lanes ∧ r.lane = (fun _ l => l) ∧ r.held = (fun _ => false) ∧
        eff n c u run = ⟨r.part.setWave c.wid r.wave, [], []⟩) : OutcomeResult i out := by
  refine outcomeResult_of h fun n c u run r h1 h2 h3 _ hr => ?_
  obtain ⟨hl, hla, hhe, e⟩ := hd n c u run r h1 h2 h3 hr
  refine ⟨hl, r.wave, [], e, .refl _, fun k _ => ?_, fun k _ => by simp [hhe], fun k hk => by simp at hk⟩
  have hx : r.wave.lane k = u.lane k := by unfold Wave.lane; rw [hl]
  rw [hla, hx]
  split <;> rfl

/-- Lanes held together: what the fold over them makes of the wave. -/
theorem held_fold (n : State) (wid len : Nat) (x : Wait) (run : List Nat) (u v : Wave) (hn : run.Nodup) (hl : v.lanes = u.lanes) :
    ∃ y : Wave, run.foldl (fun s k => s.waitLane wid len k x) (n.setWave wid v) = n.setWave wid y ∧ y.LanesOf v ∧
      ∀ k, k < u.lanes.length → y.lane k = if k ∈ run then { u.lane k with wait := x, ilen := len } else u.lane k := by
  refine ⟨_, wait_fold n wid len x run v, modLane_fold_lanesOf _ run v, fun k hk => ?_⟩
  rw [modLane_fold_lane _ run v hn]
  have hx : v.lane k = u.lane k := by unfold Wave.lane; rw [hl]
  have hk' : k < v.lanes.length := by rw [hl]; exact hk
  simp only [hk', and_true, hx]

end Sys2Proof.Machine
end

