-- ==== Sys2Proof/Laws/WaveLevel.lean ====
section
/-!
SUPPORT. Laws of the wave-level instructions (R202): moves to wave registers, mask operations, votes, reductions, and the row
instructions of R314.
-/
namespace Sys2Proof.Machine

/-- `waveOp`: one change of the wave, from its lowest active lane. -/
theorem waveOp_result {i : Instr} {fx : Instr → State → Issue → Wave → Nat → State} {res : Issue → Wave → Nat → Wave}
    (h : ∀ s, exec i s = waveOp i fx s)
    (hf : ∀ (n : State) (c : Issue) (u : Wave) (k : Nat), fx i (n.setWave c.wid u) c u k = n.setWave c.wid (res c u k))
    (hr : ∀ c u k, (res c u k).lanes = u.lanes) : WaveResult i (fun c u run => res c u (run.headD 0)) := by
  refine waveResult_of h (fun n c u run hn => ?_) (fun c u run => hr c u _)
  cases run with
  | nil => exact absurd rfl hn
  | cons k t => simp only [onceLane, hf, List.headD_cons]

theorem putW_setWave (n : State) (wid : Nat) (level : BitVec 2) (r x : Nat) (v : Wave) :
    (n.setWave wid v).putW wid level r x = n.setWave wid (v.ww level r (dw x)) := by simp [State.putW]

theorem putK_setWave (n : State) (wid r x : Nat) (v : Wave) :
    (n.setWave wid v).putK wid r x = n.setWave wid (v.wk r (dw x)) := by simp [State.putK]

theorem lanes_wk (w : Wave) (r : Nat) (x : DWord) : (w.wk r x).lanes = w.lanes := by rw [wk_frame]

/-- MOV.W (R215). -/
theorem movW_result (x : Fields) : WaveResult (.movW x) (fun _ u run =>
    u.ww (u.lane (run.headD 0)).level x.dst.toNat (dw (opB (.movW x) u (u.lane (run.headD 0))))) :=
  waveOp_result (fx := fxMovW) (res := fun _ u k => u.ww (u.lane k).level x.dst.toNat (dw (opB (.movW x) u (u.lane k)))) (fun _ => rfl)
    (fun n c u k => putW_setWave _ _ _ _ _ _) (fun _ _ _ => rfl)

/-- MOV.FWS (R215). -/
theorem movFws_result (x : Fields) : WaveResult (.movFws x) (fun c u run =>
    u.ww (u.lane (run.headD 0)).level x.dst.toNat (dw c.ws0.toNat)) :=
  waveOp_result (fx := fxMovFws) (res := fun c u k => u.ww (u.lane k).level x.dst.toNat (dw c.ws0.toNat)) (fun _ => rfl)
    (fun n c u k => putW_setWave _ _ _ _ _ _) (fun _ _ _ => rfl)

/-- MOV.TWS (R215). -/
theorem movTws_result (x : Fields) : WaveResult (.movTws x) (fun _ u run =>
    { u with ws := BitVec.ofNat 7 (opB (.movTws x) u (u.lane (run.headD 0))) ||| u.wsCycle }) :=
  waveOp_result (fx := fxMovTws) (res := fun _ u k => { u with ws := BitVec.ofNat 7 (opB (.movTws x) u (u.lane k)) ||| u.wsCycle })
    (fun _ => rfl) (fun n c u k => modWave_setWave _ _ _ _) (fun _ _ _ => rfl)

/-- KSET from a wave register (R233). -/
theorem ksetW_result (x : Fields) : WaveResult (.kset true x) (fun _ u run =>
    u.wk x.dst.toNat (dw (opA (.kset true x) u (u.lane (run.headD 0))))) :=
  waveOp_result (fx := fxKsetW) (res := fun _ u k => u.wk x.dst.toNat (dw (opA (.kset true x) u (u.lane k)))) (fun _ => rfl)
    (fun n c u k => putK_setWave _ _ _ _ _) (fun _ _ _ => lanes_wk _ _ _)

/-- KOP (R234). -/
theorem kop_result (op : KopOp) (x : Fields) : WaveResult (.kop op x) (fun _ u run =>
    u.wk x.dst.toNat (dw (kopVal op (opA (.kop op x) u (u.lane (run.headD 0))) (opB (.kop op x) u (u.lane (run.headD 0)))))) :=
  waveOp_result (fx := fxKop op) (res := fun _ u k => u.wk x.dst.toNat (dw (kopVal op (opA (.kop op x) u (u.lane k)) (opB (.kop op x) u (u.lane k)))))
    (fun _ => rfl) (fun n c u k => putK_setWave _ _ _ _ _) (fun _ _ _ => lanes_wk _ _ _)

/-- KMOV to a mask or to a wave register (R235). -/
theorem kmov_result (toW : Bool) (x : Fields) : WaveResult (.kmov toW x) (fun _ u run =>
    if toW then u.ww (u.lane (run.headD 0)).level x.dst.toNat (dw (opA (.kmov toW x) u (u.lane (run.headD 0))))
    else u.wk x.dst.toNat (dw (opA (.kmov toW x) u (u.lane (run.headD 0))))) :=
  waveOp_result (fx := fxKmov toW) (res := fun _ u k =>
    if toW then u.ww (u.lane k).level x.dst.toNat (dw (opA (.kmov toW x) u (u.lane k))) else u.wk x.dst.toNat (dw (opA (.kmov toW x) u (u.lane k))))
    (fun _ => rfl)
    (fun n c u k => by cases toW <;> simp only [fxKmov, putW_setWave, putK_setWave] <;> rfl)
    (fun _ _ _ => by cases toW <;> simp [lanes_wk, Wave.ww])

/-- KPOPC (R235). -/
theorem kpopc_result (x : Fields) : WaveResult (.kpopc x) (fun _ u run =>
    u.ww (u.lane (run.headD 0)).level x.dst.toNat (dw (popcount (opA (.kpopc x) u (u.lane (run.headD 0))) u.width))) :=
  waveOp_result (fx := fxKpopc) (res := fun _ u k => u.ww (u.lane k).level x.dst.toNat (dw (popcount (opA (.kpopc x) u (u.lane k)) u.width)))
    (fun _ => rfl) (fun n c u k => putW_setWave _ _ _ _ _ _) (fun _ _ _ => rfl)

/-- VOTE (R232). -/
theorem vote_result (op : VoteOp) (x : Fields) : WaveResult (.vote op x) (fun _ u run =>
    u.ww (u.lane (run.headD 0)).level x.dst.toNat (dw (voteVal op (run.map (fun k => (k, opA (.vote op x) u (u.lane k))))))) :=
  waveResult_of (eff := gatherEff (.vote op x) (voteVal op) false) (fun _ => rfl)
    (fun n c u run _ => by simp only [gatherEff, putW_setWave, Bool.false_eq_true, if_false]; rfl) (fun _ _ _ => rfl)

/-- REDUCE (R236). -/
theorem reduce_result (op : RedOp) (ty : IntTy) (x : Fields) : LaterResult (.reduce op ty x) (fun u run =>
    { wid := 0, team := run, wave := [(wKey (u.lane (run.headD 0)).level x.dst.toNat,
      dw (reduceVal op ty (run.map (fun k => (k, opA (.reduce op ty x) u (u.lane k))))))] }) :=
  laterResult_of (eff := gatherEff (.reduce op ty x) (reduceVal op ty) true) (fun _ => rfl)
    (fun n c u run _ => by
      simp only [gatherEff, if_true, State.laterW, withFill_setWave, modWave_setWave]
      rfl)
    (fun _ _ _ => List.nodup_nil)

/-- SEL (R213). -/
theorem sel_result (wd : Wd) (x : Fields) : LaneResult (.sel wd x) (fun u k =>
    (if bit (opC (.sel wd x) u (u.lane k)) k then opA (.sel wd x) u (u.lane k) else opB (.sel wd x) u (u.lane k), 0)) := by
  refine laneResult_of fun s => congrArg (runLanes (.sel wd x) s) ?_
  funext n c u run
  have h0 : ∀ l : List Nat, flagsOn l (fun _ => 0) = 0 := by
    intro l
    unfold flagsOn
    induction l with
    | nil => rfl
    | cons a t ih => simpa using ih
  simp only [writeEff, h0, State.raise, if_true]
  rfl

/-- The row instructions (R314 to R319): lane results and a wave register, later. -/
theorem rowOp_result {i : Instr} {f : Wave → Lane → List (Nat × Nat × Nat × Nat) → List (Nat × Nat) × Option Nat}
    (h : ∀ s, exec i s = rowOp i f s)
    (hk : ∀ u l run, ((f u l (rowOf i u run)).1.map Prod.fst).Sublist run) :
    LaterResult i (fun u run =>
      { wid := 0, team := run
        lanes := (f u (u.lane (run.headD 0)) (rowOf i u run)).1.map (fun x => (x.1, wordsFrom (fieldsOf i).dst.toNat x.2 (dstRegs i)))
        wave := ((f u (u.lane (run.headD 0)) (rowOf i u run)).2.map (fun v => (wKey (u.lane (run.headD 0)).level (fieldsOf i).sc.toNat, v))).toList.map
          (fun x => (x.1, dw x.2)) }) := by
  refine laterResult_of h (fun n c u run _ => ?_) (fun u run hr => ?_)
  · simp only [rowEff, State.laterRow, withFill_setWave, modWave_setWave]
    congr 1
    rw [fold_setWave' _ c.wid _ (fun v x => v.modLane x.1 (fun l => l.setEmpty (fieldsOf i).dst.toNat (dstRegs i) n.nid))
      (fun v x => modLane_setWave _ _ _ _ _) _ _]
    rw [List.map_map, List.foldl_map, List.foldl_map]
    rfl
  · rw [List.map_map]
    exact (hk u (u.lane (run.headD 0)) run).nodup hr

/-- The lanes of a row. -/
theorem rowOf_lanes (i : Instr) (w : Wave) (run : List Nat) : (rowOf i w run).map (fun x => x.2.1) = run := by
  unfold rowOf
  have e : (fun x : Nat × Nat × Nat × Nat => x.2.1) = (fun y : Nat × Nat × Nat => y.1) ∘ Prod.snd := rfl
  rw [e, ← List.map_map, List.map_snd_zip (by simp), List.map_map]
  simp [Function.comp_def]

theorem row_keys (i : Instr) (w : Wave) (run : List Nat) (p : Nat × Nat × Nat × Nat → Bool) (g : Nat × Nat × Nat × Nat → Nat × Nat)
    (hg : ∀ x, (g x).1 = x.2.1) : ((((rowOf i w run).filter p).map g).map Prod.fst).Sublist run := by
  rw [List.map_map, show (Prod.fst ∘ g) = (fun x => x.2.1) from funext hg]
  have := (List.filter_sublist (p := p) (l := rowOf i w run)).map (fun x : Nat × Nat × Nat × Nat => x.2.1)
  rw [rowOf_lanes] at this
  exact this

theorem row_keys_all (i : Instr) (w : Wave) (run : List Nat) (g : Nat × Nat × Nat × Nat → Nat × Nat) (hg : ∀ x, (g x).1 = x.2.1) :
    (((rowOf i w run).map g).map Prod.fst).Sublist run := by
  have h : ((rowOf i w run).map g).map Prod.fst = run := by
    rw [List.map_map, show (Prod.fst ∘ g) = (fun x => x.2.1) from funext hg, rowOf_lanes]
  simp only [h, List.Sublist.refl]

/-- The fill that a row operation leaves on its way. -/
theorem band_result (x : Fields) : LaterResult (.band x) (rowFill (.band x) rowBand) :=
  rowOp_result (fun _ => rfl) fun _ _ _ => row_keys_all _ _ _ _ fun _ => rfl

theorem ppopc_result (x : Fields) : LaterResult (.ppopc x) (rowFill (.ppopc x) (rowPpopc (.ppopc x))) :=
  rowOp_result (fun _ => rfl) fun _ _ _ => row_keys_all _ _ _ _ fun _ => rfl

theorem igath_result (wd : Wd) (x : Fields) : LaterResult (.igath wd x) (rowFill (.igath wd x) (rowIgath wd (.igath wd x))) :=
  rowOp_result (fun _ => rfl) fun _ _ _ => row_keys_all _ _ _ _ fun _ => by dsimp only; split <;> rfl

theorem cmpr_result (wd : Wd) (x : Fields) : LaterResult (.cmpr wd x) (rowFill (.cmpr wd x) (rowCmpr (.cmpr wd x))) :=
  rowOp_result (fun _ => rfl) fun _ _ _ => row_keys_all _ _ _ _ fun _ => rfl

theorem expd_result (wd : Wd) (x : Fields) : LaterResult (.expd wd x) (rowFill (.expd wd x) (rowExpd (.expd wd x))) :=
  rowOp_result (fun _ => rfl) fun _ _ _ => row_keys_all _ _ _ _ fun _ => by dsimp only; split <;> rfl

theorem topk_result (nz : Bool) (f : TopFmt) (x : Fields) : LaterResult (.topk nz f x) (rowFill (.topk nz f x) (rowTopk nz f (.topk nz f x))) :=
  rowOp_result (fun _ => rfl) fun _ _ _ => row_keys _ _ _ _ _ fun _ => by dsimp only; split <;> rfl

end Sys2Proof.Machine
end

