-- ==== Sys2Proof/Laws/Matrix.lean ====
section
/-!
SUPPORT. What issuing matrix instructions does.
-/
namespace Sys2Proof.Machine

/-- What an effect on the active lanes together has to be, for its outcome. -/
def Fits (d : Done) (wid : Nat) (u : Wave) (run : List Nat) (r : Outcome) : Prop :=
  r.wave.lanes = u.lanes ∧
    ∃ (v : Wave) (stay : List Nat), d = ⟨r.part.setWave wid v, [], stay⟩ ∧ v.LanesOf r.wave ∧
      (∀ k, k < u.lanes.length → v.lane k = if k ∈ run then r.lane k (u.lane k) else u.lane k) ∧
      (∀ k ∈ run, k ∈ stay ↔ r.held k = true) ∧ (∀ k ∈ stay, k ∈ run)

theorem fits_result {i : Instr} {out : State → Issue → Wave → List Nat → Option Outcome} {eff : Eff}
    (h : ∀ s, exec i s = runLanes i s eff)
    (hd : ∀ (n : State) (c : Issue) (u : Wave) (run : List Nat) (r : Outcome), n.wave? c.wid = some u → n.setWave c.wid u = n → run ≠ [] →
      run.Nodup → out n c u run = some r → Fits (eff n c u run) c.wid u run r) : OutcomeResult i out := outcomeResult_of h hd

/-- A part, with the wave as it was. -/
theorem fits_part {m : State} {wid : Nat} {u : Wave} {run : List Nat} (h : m.setWave wid u = m) :
    Fits ⟨m, [], []⟩ wid u run { part := m, wave := u } :=
  ⟨rfl, u, [], by rw [h], .refl _, fun k _ => by simp, fun k _ => by simp, fun k hk => by simp at hk⟩

/-- The active lanes held. -/
theorem fits_hold (i : Instr) {m : State} {wid : Nat} {u : Wave} {run : List Nat} (x : Wait) (h : m.setWave wid u = m) (hn : run.Nodup) :
    Fits ⟨run.foldl (fun s k => s.waitLane wid (wordsOf i) k x) m, [], run⟩ wid u run (holdOutcome i m u x) := by
  obtain ⟨y, e, h1, h2⟩ := held_fold m wid (wordsOf i) x run u u hn rfl
  rw [h] at e
  exact ⟨rfl, y, run, by rw [e]; rfl, h1, h2, fun k hk => by simp [holdOutcome, hk], fun k hk => hk⟩

theorem outsideLanes_any {w : Wave} {run : List Nat} (h : run.any (fun k => (w.lane k).inside) = false) :
    ∀ k ∈ run, (w.lane k).inside = false := by
  intro k hk
  simp only [List.any_eq_false] at h
  simpa using h k hk

theorem fits_matHold (i : Instr) {m : State} {c : Issue} {u : Wave} {run : List Nat} (x : Wait) (h : m.setWave c.wid u = m) (hn : run.Nodup)
    (hi : run.any (fun k => (u.lane k).inside) = false) : Fits (m.matHold i c u run x) c.wid u run (holdOutcome i m u x) := by
  unfold State.matHold
  rw [outsideLanes_all (outsideLanes_any hi), forbidInside_none _ _ (outsideLanes_any hi)]
  exact fits_hold i x h hn

theorem fits_waveHold (i : Instr) {m : State} {c : Issue} {u : Wave} {run : List Nat} (x : Wait) (h : m.setWave c.wid u = m) (hn : run.Nodup)
    (hi : run.any (fun k => (u.lane k).inside) = false) : Fits (m.waveHold i c u run x) c.wid u run (holdOutcome i m u x) := by
  unfold State.waveHold
  simp only [hi, Bool.false_eq_true, if_false]
  exact fits_hold i x h hn

theorem matCheck_none {n : State} {wid : Nat} {w : Wave} {u : MatUse} (h : (n.matCheck wid w u).2.isSome = false) :
    n.matCheck wid w u = (n, none) := by
  have hg : ∀ r, n.matCheck wid w u = r → r.2.isSome = false → r = (n, none) := by
    intro r hr hn
    unfold State.matCheck at hr
    repeat' split at hr
    all_goals subst hr
    all_goals first | rfl | simp at hn
    all_goals rw [hn]
  exact hg _ rfl h

/-- A matrix instruction that enters the queue (R295, R296). -/
theorem matOp_result {i : Instr} {mk : State → Wave → Lane → MatUse} {go : State → Issue → Wave → List Nat → MatUse → Done}
    {done : State → Issue → Wave → List Nat → MatUse → Option Outcome} (h : ∀ s, exec i s = matOp i mk go s)
    (hgo : ∀ (n : State) (c : Issue) (u : Wave) (run : List Nat) (use : MatUse) (r : Outcome), n.wave? c.wid = some u →
      n.setWave c.wid u = n → run ≠ [] → run.Nodup → done n c u run use = some r → Fits (go n c u run use) c.wid u run r) :
    OutcomeResult i (matOut i mk done) := by
  refine fits_result h fun n c u run r hw hs hne hn hr => ?_
  unfold matOut at hr
  unfold matEff
  simp only at hr ⊢
  generalize mk n u (u.lane (run.headD 0)) = use at hr ⊢
  by_cases h1 : use.misaligned.isNone ∧ badRun (n.matSpan u.vi u.core) use.acc use.runs = some none
  · have h1' : (use.misaligned.isNone && badRun (n.matSpan u.vi u.core) use.acc use.runs == some none) = true := by simpa using h1
    rw [if_pos h1, Option.some.injEq] at hr
    subst hr
    rw [if_pos h1']
    exact fits_hold i .room hs hn
  · have h1' : ¬ (use.misaligned.isNone && badRun (n.matSpan u.vi u.core) use.acc use.runs == some none) = true := by simpa using h1
    rw [if_neg h1] at hr
    rw [if_neg h1']
    cases h2 : (n.matCheck c.wid u use).2.isSome
    · rw [matCheck_none h2]
      simp only [h2, Bool.false_eq_true, if_false] at hr
      simp only
      by_cases h3 : n.matRoom u.core = true
      · simp only [h3, if_true] at hr ⊢
        exact hgo n c u run use r hw hs hne hn hr
      · simp only [h3, Bool.false_eq_true, if_false] at hr ⊢
        cases h4 : run.any (fun k => (u.lane k).inside)
        · simp only [h4, Bool.false_eq_true, if_false, Option.some.injEq] at hr
          subst hr
          exact fits_waveHold i .matrix hs hn h4
        · simp [h4] at hr
    · simp [h2] at hr

theorem modTile_fold_waves (f : Tile → Tile) (core : Nat) (ts : List Nat) (s : State) :
    (ts.foldl (fun s t => s.modTile core t f) s).waves = s.waves := by
  induction ts generalizing s with
  | nil => rfl
  | cons a t ih => exact ih _

theorem enterQueue_waves (s : State) (core : Nat) (e : MatEntry) : (s.enterQueue core e).waves = s.waves :=
  modTile_fold_waves _ core _ _

theorem matEnter_fits {n : State} {c : Issue} {u : Wave} {run : List Nat} (use : MatUse) (m : State) (hm : m.waves = n.waves)
    (hs : n.setWave c.wid u = n) : Fits (matEnter m c u run use) c.wid u run { part := (matEnter m c u run use).s, wave := u } :=
  fits_part (setWave_same ((enterQueue_waves _ _ _).trans hm) hs)

theorem mlatb_result (mf : MF) (x : Fields) :
    OutcomeResult (.mlatb mf x) (matOut (.mlatb mf x) (useMlatb mf (.mlatb mf x)) (partOnly (enterMlatb mf))) :=
  matOp_result (fun _ => rfl) fun n c u run use r _ hs _ _ hr => by
    simp only [partOnly, Option.some.injEq] at hr
    subst hr
    exact matEnter_fits (n := n) use _ rfl hs

theorem mcbt_result (x : Fields) :
    OutcomeResult (.mcbt x) (matOut (.mcbt x) (useMcbt (.mcbt x)) (partOnly (enterMcbt (.mcbt x)))) :=
  matOp_result (fun _ => rfl) fun n c u run use r _ hs _ _ hr => by
    simp only [partOnly, Option.some.injEq] at hr
    subst hr
    exact fits_part (setWave_same (n := n) rfl hs)

theorem mst_result (x : Fields) :
    OutcomeResult (.mst x) (matOut (.mst x) (fun s w l => useRows (.mst x) (s.tileAt w.core x.dst.toNat).kind false s w l) (partOnly matEnter)) :=
  matOp_result (fun _ => rfl) fun n c u run use r _ hs _ _ hr => by
    simp only [partOnly, Option.some.injEq] at hr
    subst hr
    exact matEnter_fits (n := n) use _ rfl hs

theorem setKind_waves (s : State) (core kind : Nat) (ts : List Nat) : (s.setKind core kind ts).waves = s.waves := modTile_fold_waves _ core ts s

theorem mzero_result (x : Fields) : OutcomeResult (.mzero x) (matOut (.mzero x) (useMzero (.mzero x)) (partOnly enterMzero)) :=
  matOp_result (fun _ => rfl) fun n c u run use r _ hs _ _ hr => by
    simp only [partOnly, Option.some.injEq] at hr
    subst hr
    unfold enterMzero
    cases use.entry.act with
    | zero kind => exact matEnter_fits (n := n) _ _ (setKind_waves ..) hs
    | _ => exact fits_part hs

theorem mmv_result (x : Fields) :
    OutcomeResult (.mmv x) (matOut (.mmv x) (fun s w l => useRows (.mmv x) (w2f x 17 16) true s w l) (partOnly enterMmv)) :=
  matOp_result (fun _ => rfl) fun n c u run use r _ hs _ _ hr => by
    simp only [partOnly, Option.some.injEq] at hr
    subst hr
    unfold enterMmv
    cases use.entry.act with
    | mv => exact matEnter_fits (n := n) _ _ (setKind_waves ..) hs
    | _ => exact fits_part hs

/-- Arming a sign register that no lane waits to sign (R307). -/
theorem armSign_quiet {m : State} {core wid slot g : Nat} {set : DWord} {e : MatEntry} {u : Wave} (hw : m.waveAt wid = u)
    (hq : u.idx.any (fun k => (u.lane k).waitsSign g) = false) :
    m.armSign core wid slot g set e = m.modCore core (fun k => { k with
      signs := put k.signs g { armed := true, wid := wid, slot := slot, set := set, entry := some e } }) := by
  unfold State.armSign
  simp only
  let m' := m.modCore core (fun k => { k with signs := put k.signs g { armed := true, wid := wid, slot := slot, set := set, entry := some e } })
  have hw' : m'.waveAt wid = u := hw
  change (m'.waveAt wid).idx.foldl _ m' = m'
  rw [hw']
  have hq' : ∀ k ∈ u.idx, (u.lane k).waitsSign g = false := by
    intro k hk
    simp only [List.any_eq_false] at hq
    simpa using hq k hk
  generalize u.idx = ks at hq'
  induction ks with
  | nil => rfl
  | cons a t ih =>
    rw [List.foldl_cons]
    have ha := hq' a (by simp)
    have hla : m'.laneAt wid a = u.lane a := by unfold State.laneAt; rw [hw']
    rw [hla, ha]
    exact ih (fun k hk => hq' k (by simp [hk]))

/-- MMA, MMAS and MMAI (R305 to R307). -/
theorem enterMma_fits {i : Instr} {n : State} {c : Issue} {u : Wave} {run : List Nat} {use : MatUse} {r : Outcome}
    (hw : n.wave? c.wid = some u) (hs : n.setWave c.wid u = n) (hne : run ≠ []) (hn : run.Nodup)
    (hr : mmaDone i n c u run use = some r) : Fits (enterMma i n c u run use) c.wid u run r := by
  unfold mmaDone at hr
  unfold enterMma
  simp only at hr ⊢
  cases hb : (fieldsOf i).w2.getLsbD 28
  · simp only [hb, if_true, Option.some.injEq] at hr
    subst hr
    exact matEnter_fits (n := n) use _ rfl hs
  · simp only [hb, Bool.true_eq_false, if_false] at hr
    simp only [Bool.not_true, Bool.false_eq_true, if_false]
    by_cases hf : ((n.ownEntry c u use).2.coreAt u.core).signFree (w2f (fieldsOf i) 27 24) = true
    · simp only [hf, if_true] at hr ⊢
      cases hq : u.idx.any (fun k => (u.lane k).waitsSign (w2f (fieldsOf i) 27 24))
      · simp only [hq, Bool.false_eq_true, if_false, Option.some.injEq] at hr
        subst hr
        have hwa : (n.ownEntry c u use).2.waveAt c.wid = u := waveAt_of hw
        rw [armSign_quiet hwa hq]
        exact fits_part (setWave_same (n := n) rfl hs)
      · simp [hq] at hr
    · simp only [hf, if_false, Bool.false_eq_true] at hr ⊢
      cases hi : run.any (fun k => (u.lane k).inside)
      · simp only [hi, Bool.false_eq_true, if_false, Option.some.injEq] at hr
        subst hr
        simp only [Bool.false_eq_true, if_false]
        exact fits_hold i _ (setWave_same (n := n) rfl hs) hn
      · simp [hi] at hr

theorem mma_result (mf : MF) (x : Fields) :
    OutcomeResult (.mma mf x) (matOut (.mma mf x) (useMma mf (.mma mf x)) (mmaDone (.mma mf x))) :=
  matOp_result (fun _ => rfl) fun _ _ _ _ _ _ hw hs hne hn hr => enterMma_fits hw hs hne hn hr

theorem mmas_result (mf : MF) (x : Fields) :
    OutcomeResult (.mmas mf x) (matOut (.mmas mf x) (useMma mf (.mmas mf x)) (mmaDone (.mmas mf x))) :=
  matOp_result (fun _ => rfl) fun _ _ _ _ _ _ hw hs hne hn hr => enterMma_fits hw hs hne hn hr

theorem mmai_result (mf : MF) (x : Fields) :
    OutcomeResult (.mmai mf x) (matOut (.mmai mf x) (useMma mf (.mmai mf x)) (mmaDone (.mmai mf x))) :=
  matOp_result (fun _ => rfl) fun _ _ _ _ _ _ hw hs hne hn hr => enterMma_fits hw hs hne hn hr

theorem mrdLane_fst {n : State} {i : Instr} {wid k : Nat} {u : Wave} {y : Nat × Nat × Nat × Nat}
    (h : (n.mrdLane i wid u k).toOption = some y) : y.1 = k := by
  unfold State.mrdLane at h
  simp only at h
  repeat' split at h
  all_goals simp only [Except.toOption, Option.some.injEq] at h
  all_goals first | (subst h; rfl) | exact absurd h (by simp)

theorem modTile_setWave (s : State) (core t wid : Nat) (v : Wave) (f : Tile → Tile) :
    (s.setWave wid v).modTile core t f = (s.modTile core t f).setWave wid v := rfl

theorem modTile_fold_setWave (f : Tile → Tile) (core wid : Nat) (v : Wave) (ts : List Nat) (s : State) :
    ts.foldl (fun s t => s.modTile core t f) (s.setWave wid v) = (ts.foldl (fun s t => s.modTile core t f) s).setWave wid v := by
  induction ts generalizing s with
  | nil => rfl
  | cons a t ih => exact ih (s.modTile core a f)

theorem enterQueue_setWave (s : State) (core wid : Nat) (v : Wave) (e : MatEntry) :
    (s.setWave wid v).enterQueue core e = (s.enterQueue core e).setWave wid v :=
  modTile_fold_setWave (fun x => { x with pend := x.pend + 1 }) core wid v e.writes
    (s.modCore core (fun k => { k with mq := insertEntry k.mq { e with cycle := (s.coreAt core).cycle } }))

/-- MRD (R310). -/
theorem mrd_result (x : Fields) : OutcomeResult (.mrd x) (mrdOut (.mrd x)) := by
  refine fits_result (eff := mrdEff (.mrd x)) (fun _ => rfl) fun n c u run r hw hs hne hn hr => ?_
  generalize hi : Instr.mrd x = i at hr ⊢
  unfold mrdOut at hr
  by_cases h1 : run.any (fun k => (n.mrdLane i c.wid u k).toOption.isNone) = true
  · rw [if_pos h1] at hr; simp at hr
  · rw [if_neg h1] at hr
    have hall : ∀ k ∈ run, ∃ y, (n.mrdLane i c.wid u k).toOption = some y := by
      intro k hk
      have := h1
      simp only [List.any_eq_true, not_exists, not_and] at this
      have := this k hk
      cases hc : (n.mrdLane i c.wid u k).toOption with
      | none => simp [hc] at this
      | some y => exact ⟨y, rfl⟩
    have htr : n.mrdTraps i c.wid u run = [] := by
      unfold State.mrdTraps
      rw [List.filterMap_eq_nil_iff]
      intro k hk
      obtain ⟨y, hy⟩ := hall k hk
      cases hc : n.mrdLane i c.wid u k with
      | error t => rw [hc] at hy; simp [Except.toOption] at hy
      | ok z => rfl
    have hce : (run.filterMap (fun k => (n.mrdLane i c.wid u k).toOption)).isEmpty = false := by
      cases run with
      | nil => exact absurd rfl hne
      | cons a t =>
        obtain ⟨y, hy⟩ := hall a (by simp)
        simp [List.filterMap_cons, hy]
    have hfst : (run.filterMap (fun k => (n.mrdLane i c.wid u k).toOption)).map Prod.fst = run := by
      clear hce htr h1 hne hn hr
      induction run with
      | nil => rfl
      | cons a t ih =>
        obtain ⟨y, hy⟩ := hall a (by simp)
        rw [List.filterMap_cons, hy]
        simp only [List.map_cons, mrdLane_fst hy, ih (fun k hk => hall k (by simp [hk]))]
    unfold mrdEff
    simp only [htr, List.foldl_nil, hce, Bool.false_eq_true, if_false, List.nil_append]
    by_cases h3 : n.matRoom u.core = true
    · simp only [h3, if_true, Option.some.injEq] at hr
      subst hr
      simp only [h3, Bool.not_true, Bool.false_eq_true, if_false]
      generalize (n.ownEntry c u (mrdUse i (run.filterMap (fun k => (n.mrdLane i c.wid u k).toOption)))).1 = e
      have hm : (n.ownEntry c u (mrdUse i (run.filterMap (fun k => (n.mrdLane i c.wid u k).toOption)))).2 =
          ({ n with nid := n.nid + 1 } : State).setWave c.wid u :=
        (setWave_same (n := n) (m := ({ n with nid := n.nid + 1 } : State)) rfl hs).symm
      rw [hm]
      refine ⟨rfl, run.foldl (fun v k => v.modLane k (awaitCell i e.id (n.mrdLane i c.wid u k).toOption)) u, [], ?_,
        modLane_fold_lanesOf _ run u, fun k hk => ?_, fun k _ => by simp, fun k hk => by simp at hk⟩
      · rw [fold_setWave _ c.wid _ (fun v k => v.modLane k (awaitCell i e.id (n.mrdLane i c.wid u k).toOption))
          (fun v k => modLane_setWave _ _ _ _ _) run u, enterQueue_setWave, enterQueue_setWave, setWave_setWave]
      · rw [modLane_fold_lane _ run u hn]
        simp only [hk, and_true]
    · simp only [h3, if_false, Bool.false_eq_true] at hr
      cases h4 : run.any (fun k => (u.lane k).inside)
      · simp only [h4, Bool.false_eq_true, if_false, Option.some.injEq] at hr
        subst hr
        simp only [h3, Bool.not_false, if_true, hfst]
        exact fits_matHold i .matrix hs hn h4
      · simp [h4] at hr

theorem clearOvf_at (s : State) (wid core clr : Nat) (j : Nat) (v : Wave) :
    (s.setWave j v).clearOvf wid core clr = (s.clearOvf wid core clr).setWave j v := by
  unfold State.clearOvf
  generalize List.range 4 = ts
  induction ts generalizing s with
  | nil => rfl
  | cons a t ih =>
    simp only [List.foldl_cons]
    have e : (s.setWave j v).tileAt core a = s.tileAt core a := rfl
    rw [e]
    by_cases h : (bit clr a && (s.tileAt core a).owner == some wid) = true
    · simp only [h, if_true]
      exact ih (s.modTile core a (fun x => { x with ovf := false }))
    · simp only [h, if_false, Bool.false_eq_true]
      exact ih s

/-- MSTAT and MSTAT.CLR (R312). -/
theorem mstatOp_result {i : Instr} {clr : Nat} (h : ∀ s, exec i s = mstatOp i clr s) : OutcomeResult i (mstatOut i clr) := by
  refine outcome_part (eff := mstatEff i clr) h fun n c u run r hw hs _ hr => ?_
  unfold mstatOut at hr
  unfold mstatEff
  cases ho : n.ownDeferred c.wid u.core clr with
  | some p => simp [ho] at hr
  | none =>
    simp only [ho, Option.isSome_none, Bool.false_eq_true, if_false, Option.some.injEq] at hr
    subst hr
    refine ⟨rfl, rfl, rfl, ?_⟩
    simp only
    rw [← hs, putW_setWave, clearOvf_at, clearOvf_at, setWave_setWave]

theorem claim_waves (s : State) (core wid want : Nat) : (s.claim core wid want).waves = s.waves := by
  unfold State.claim
  generalize resList want = rs
  induction rs generalizing s with
  | nil => rfl
  | cons a t ih =>
    rw [List.foldl_cons, ih]
    split <;> rfl

/-- MWAIT (R300). -/
theorem mwait_result (x : Fields) : OutcomeResult (.mwait x) (mwaitOut (.mwait x)) := by
  refine fits_result (eff := mwaitEff (.mwait x)) (fun _ => rfl) fun n c u run r hw hs hne hn hr => ?_
  unfold mwaitOut at hr
  unfold mwaitEff
  simp only at hr ⊢
  cases ho : n.ownDeferred c.wid u.core (w2f (fieldsOf (.mwait x)) 4 0) with
  | some p => simp [ho] at hr
  | none =>
  simp only [ho, Option.isSome_none, Bool.false_eq_true, if_false] at hr ⊢
  by_cases h1 : n.claimable u.core (n.wanted u.core c.wid (w2f (fieldsOf (.mwait x)) 4 0)) ((n.claimers u.core).foldl (fun m x => m ||| x.2.2) 0) = true
  · rw [if_pos h1, Option.some.injEq] at hr
    subst hr
    rw [if_pos h1]
    exact fits_part (setWave_same (claim_waves _ _ _ _) hs)
  · rw [if_neg h1] at hr
    rw [if_neg h1]
    cases h4 : run.any (fun k => (u.lane k).inside)
    · simp only [h4, Bool.false_eq_true, if_false, Option.some.injEq] at hr
      subst hr
      exact fits_waveHold _ _ (setWave_same (n := n) rfl hs) hn h4
    · simp [h4] at hr

/-- MREL (R301). -/
theorem mrel_result (x : Fields) : OutcomeResult (.mrel x) (mrelOut (.mrel x)) := by
  refine fits_result (eff := mrelEff (.mrel x)) (fun _ => rfl) fun n c u run r hw hs hne hn hr => ?_
  unfold mrelOut at hr
  unfold mrelEff
  simp only at hr ⊢
  by_cases h1 : (n.coreAt u.core).busyRes c.wid (w2f (fieldsOf (.mrel x)) 4 0) = true
  · rw [if_pos h1] at hr
    rw [if_pos h1]
    cases h4 : run.any (fun k => (u.lane k).inside)
    · simp only [h4, Bool.false_eq_true, if_false, Option.some.injEq] at hr
      subst hr
      exact fits_waveHold _ _ hs hn h4
    · simp [h4] at hr
  · rw [if_neg h1] at hr
    rw [if_neg h1]
    by_cases h2 : ((n.freeMatrix c.wid u (w2f (fieldsOf (.mrel x)) 4 0)).settleMatrix u.core).waves = n.waves
    · rw [if_pos h2, Option.some.injEq] at hr
      subst hr
      exact fits_part (setWave_same h2 hs)
    · rw [if_neg h2] at hr
      simp at hr

theorem coreAt_modCore (s : State) (core : Nat) (f : Core → Core) : (s.modCore core f).coreAt core = f (s.coreAt core) := by
  unfold State.modCore State.setCore State.coreAt lookD
  rw [look_put_same]
  rfl

/-- Signing by the lanes of an issue, one after another. -/
theorem sign_fold (i : Instr) (core wid g due : Nat) (run : List Nat) (m : State) (v : Wave)
    (hx : ∀ k ∈ run, ∃ x, look (m.coreAt core).signs g = some x ∧ bit x.set.toNat k = true) :
    run.foldl (fun s k => (s.waitLane wid (wordsOf i) k (.sign g due false)).signLane core wid g k) (m.setWave wid v) =
      (run.foldl (fun s k => s.addSignature core wid g k (lookD (s.coreAt core).signs g {})) m).setWave wid
        (run.foldl (fun v k => v.modLane k (fun l => { l with wait := .sign g due true, ilen := wordsOf i })) v) := by
  induction run generalizing m v with
  | nil => rfl
  | cons a t ih =>
    obtain ⟨x, h1, h2⟩ := hx a (by simp)
    have hd : lookD (m.coreAt core).signs g {} = x := by unfold lookD; rw [h1]; rfl
    simp only [List.foldl_cons, hd]
    have hstep : ((m.setWave wid v).waitLane wid (wordsOf i) a (.sign g due false)).signLane core wid g a =
        (m.addSignature core wid g a x).setWave wid (v.modLane a (fun l => { l with wait := .sign g due true, ilen := wordsOf i })) := by
      rw [waitLane_setWave]
      unfold State.signLane
      have e : ((m.setWave wid (v.modLane a (fun l => { l with wait := .sign g due false, ilen := wordsOf i }))).coreAt core).signs =
        (m.coreAt core).signs := rfl
      rw [e, h1]
      simp only [h2, if_true]
      have e2 : (m.setWave wid (v.modLane a (fun l => { l with wait := .sign g due false, ilen := wordsOf i }))).addSignature core wid g a x =
        (m.addSignature core wid g a x).setWave wid (v.modLane a (fun l => { l with wait := .sign g due false, ilen := wordsOf i })) := rfl
      rw [e2, modLane_setWave, modLane_modLane]
      rfl
    rw [hstep, ih]
    intro k hk
    obtain ⟨z, hz1, hz2⟩ := hx k (by simp [hk])
    rw [h1] at hz1
    obtain rfl := Option.some.inj hz1
    have hl : ((m.addSignature core wid g a x).coreAt core).signs = put (m.coreAt core).signs g
        { x with signed := x.signed ||| dw (2 ^ a), entry := x.entry.map (fun e => { e with before := e.before ++ m.bankBefore wid (fun i => i == a) }) } := by
      unfold State.addSignature
      rw [coreAt_modCore]
    rw [hl, look_put_same]
    exact ⟨_, rfl, hz2⟩

theorem filter_all {α : Type} (l : List α) : l.filter (fun _ => true) = l := List.filter_eq_self.mpr (fun _ _ => rfl)

/-- MSIGN (R257, R258). -/
theorem msignOp_result {i : Instr} (h : ∀ s, exec i s = msignOp i s) : OutcomeResult i (msignOut i) := by
  refine fits_result (eff := msignEff i) h fun n c u run r hw hs hne hn hr => ?_
  unfold msignOut at hr
  unfold msignEff
  simp only at hr ⊢
  cases h4 : run.any (fun k => (u.lane k).inside)
  · have ho := outsideLanes_any h4
    simp only [h4, Bool.false_eq_true, if_false] at hr
    rw [outsideLanes_all ho, forbidInside_none _ _ ho]
    cases ha : ((lookD (n.coreAt u.core).signs (signOf i) {}).armed && !(lookD (n.coreAt u.core).signs (signOf i) {}).held &&
      (lookD (n.coreAt u.core).signs (signOf i) {}).wid == c.wid)
    · simp only [ha, Bool.false_eq_true, if_false, Option.some.injEq] at hr
      subst hr
      simp only [Bool.false_eq_true, if_false, List.map_nil, List.append_nil, List.contains_nil, Bool.not_false, filter_all]
      exact fits_hold i _ hs hn
    · simp only [ha, if_true] at hr
      by_cases hb : run.any (fun k => !bit (lookD (n.coreAt u.core).signs (signOf i) {}).set.toNat k) = true
      · rw [if_pos hb] at hr; simp at hr
      · rw [if_neg hb, Option.some.injEq] at hr
        subst hr
        have hall : ∀ k ∈ run, bit (lookD (n.coreAt u.core).signs (signOf i) {}).set.toNat k = true := by
          intro k hk
          simp only [List.any_eq_true, not_exists, not_and] at hb
          simpa using hb k hk
        have hf : run.filter (fun k => !bit (lookD (n.coreAt u.core).signs (signOf i) {}).set.toNat k) = [] := by
          rw [List.filter_eq_nil_iff]
          intro k hk
          rw [hall k hk]
          decide
        have hlook : look (n.coreAt u.core).signs (signOf i) = some (lookD (n.coreAt u.core).signs (signOf i) {}) := by
          unfold lookD at ha ⊢
          cases hl : look (n.coreAt u.core).signs (signOf i) with
          | none => rw [hl] at ha; simp at ha
          | some x => rfl
        simp only [if_true, hf, List.map_nil, List.append_nil, List.contains_nil, Bool.not_false, filter_all]
        have hsf := sign_fold i u.core c.wid (signOf i) (n.deadline u.vi) run n u (fun k hk => ⟨_, hlook, hall k hk⟩)
        rw [hs] at hsf
        refine ⟨rfl, _, run, ?_, modLane_fold_lanesOf (fun _ l => { l with wait := .sign (signOf i) (n.deadline u.vi) true, ilen := wordsOf i }) run u,
          fun k hk => ?_, fun k hk => ?_, fun k hk => hk⟩
        · rw [hsf]
          rfl
        · rw [modLane_fold_lane _ run u hn]
          simp only [hk, and_true]
          rfl
        · simp [holdOutcome, hk]
  · simp [h4] at hr

end Sys2Proof.Machine
end

