-- ==== Sys2Proof/Laws/System.lean ====
section
/-!
SUPPORT. What the issues of allowance operations, system instructions, ERET, YIELD, CMT.POS and SPAWN do.
-/
namespace Sys2Proof.Machine

theorem checkPieces_at (m : State) (wid : Nat) (v w : Wave) (level : BitVec 2) (n acc : Nat) (ps : List (Nat × Nat)) :
    (m.setWave wid v).checkPieces w level n acc ps =
      ((m.checkPieces w level n acc ps).1.setWave wid v, (m.checkPieces w level n acc ps).2) ∧
    (m.checkPieces w level n acc ps).1.waves = m.waves := by
  have h := checkPieces_waves m m.waves w level n acc ps
  rw [withWaves_self] at h
  have hk : (m.checkPieces w level n acc ps).1.waves = m.waves := congrArg (fun r => r.1.waves) h
  exact ⟨by rw [setWave_eq, checkPieces_waves, setWave_eq, hk], hk⟩

theorem returnAllowance_at (n : State) (wid : Nat) (v : Wave) (core line : Nat) :
    (n.setWave wid v).returnAllowance core line = (n.returnAllowance core line).setWave wid v := rfl

theorem sendTill_at (n : State) (wid : Nat) (v : Wave) (m : TillMsg) :
    (n.setWave wid v).sendTill m = (n.sendTill m).setWave wid v ∧ (n.sendTill m).waves = n.waves := by
  unfold State.sendTill
  cases m.act <;> exact ⟨rfl, rfl⟩

theorem setAllowance_at (n : State) (wid : Nat) (v : Wave) (core line x : Nat) :
    (n.setWave wid v).setAllowance core line x = (n.setAllowance core line x).setWave wid v ∧
      (n.setAllowance core line x).waves = n.waves := by
  unfold State.setAllowance
  have e : (n.setWave wid v).coreAt core = n.coreAt core := rfl
  simp only [e]
  by_cases h : has (n.coreAt core).allow line = true ∨ (n.coreAt core).allow.length < 32
  · simp only [h, if_true]; exact ⟨rfl, rfl⟩
  · simp only [h, if_false]
    cases oldestAllowance (n.coreAt core).allow <;> exact ⟨rfl, rfl⟩

theorem spend_at (n : State) (wid : Nat) (v : Wave) (m : TillMsg) :
    (n.setWave wid v).spend m = (n.spend m).setWave wid v ∧ (n.spend m).waves = n.waves := by
  unfold State.spend
  by_cases h : m.n = 0
  · simp only [h, if_true]; exact ⟨trivial, trivial⟩
  · simp only [h, if_false]
    exact setAllowance_at n wid v _ _ _

/-- A lane's request is its own, whatever the turns of other lanes made of the wave. -/
theorem tillMsg_at (n : State) (i : Instr) (instr : Nat) (c : Issue) (u v : Wave) (k va line : Nat) (hn : n.waveAt c.wid = u)
    (hl : v.lane k = u.lane k) : (n.setWave c.wid v).tillMsg i instr c u k va line = n.tillMsg i instr c u k va line := by
  have e : (n.setWave c.wid v).laneAt c.wid k = n.laneAt c.wid k := by
    rw [laneAt_setWave, hl, ← hn]; rfl
  unfold State.tillMsg
  rw [e]
  rfl

/-- TAKE, TAKE.TRY, GIVE, ACINIT and STOCK (R284, R287 to R289). -/
theorem tillOp_result {i : Instr} (h : ∀ s, exec i s = tillOp i s) : TurnResult i (fun s => s.fresh.2) (tillTurn i) := by
  refine turnResult_of (step := fun s c u => tillStep i s.nid c u) h (fun s wid v =>
    ⟨setWave_setWave ({ s with nid := s.nid + 1 } : State) wid v v, wave?_setWave s wid v⟩) (fun s c u m v stay k r hv hl hm hr => ?_)
  unfold tillTurn at hr
  unfold tillStep
  simp only at hr ⊢
  by_cases ha : globalAddr i u (u.lane k) % 128 = 0
  · simp only [ha, ne_eq, not_true_eq_false, if_false] at hr ⊢
    have hc := checkPieces_at m c.wid v u (u.lane k).level 128 2 [(globalAddr i u (u.lane k), 128)]
    rw [hc.1]
    have hk := hc.2
    clear hc
    generalize m.checkPieces u (u.lane k).level 128 2 [(globalAddr i u (u.lane k), 128)] = q at hr hk ⊢
    obtain ⟨n, y⟩ := q
    have hn : n.wave? c.wid = some u := (wave?_congr hk c.wid).trans hm
    cases y with
    | trap t => simp at hr
    | page leaf =>
      simp only [Option.some.injEq] at hr
      subst hr
      refine ⟨hn, ?_⟩
      simp only
      rw [waitLane_setWave]
      rfl
    | ok ps =>
      cases ps with
      | nil =>
        simp only [Option.some.injEq] at hr
        subst hr
        exact ⟨hn, by simp [modLane_id]⟩
      | cons p t =>
        have h1 : (n.setWave c.wid v).lineRefused (tillAct i) p.pa p.dpage = n.lineRefused (tillAct i) p.pa p.dpage := rfl
        have h2 := tillMsg_at n i s.nid c u v k (globalAddr i u (u.lane k)) p.pa (waveAt_of hn) hl
        have h4 : ∀ m, (n.setWave c.wid v).spendHeld m = n.spendHeld m := fun _ => rfl
        have h5 : (n.setWave c.wid v).linksAt c.wid u.core p.pa = n.linksAt c.wid u.core p.pa := rfl
        have h3 : ∀ m, (n.setWave c.wid v).needsTill m = n.needsTill m := fun _ => rfl
        simp only at hr ⊢
        rw [h1]
        by_cases hf : n.lineRefused (tillAct i) p.pa p.dpage = true
        · rw [if_pos hf] at hr; simp at hr
        · rw [if_neg hf] at hr
          rw [if_neg hf]
          unfold State.tillLane
          simp only [h2, h3, h4, h5]
          by_cases hi : (n.tillMsg i s.nid c u k (globalAddr i u (u.lane k)) p.pa).act = .take ∧ (u.lane k).inside = true
          · rw [if_pos hi] at hr; simp at hr
          · rw [if_neg hi] at hr
            rw [if_neg hi]
            by_cases hw : (!n.needsTill (n.tillMsg i s.nid c u k (globalAddr i u (u.lane k)) p.pa) &&
              n.spendHeld (n.tillMsg i s.nid c u k (globalAddr i u (u.lane k)) p.pa)) = true
            · rw [if_pos hw, Option.some.injEq] at hr
              subst hr
              rw [if_pos hw]
              refine ⟨hn, ?_⟩
              rw [waitLane_setWave]
              rfl
            rw [if_neg hw, Option.some.injEq] at hr
            subst hr
            rw [if_neg hw]
            have e0 : (n.setWave c.wid v).nid = n.nid := rfl
            by_cases hd : n.needsTill (n.tillMsg i s.nid c u k (globalAddr i u (u.lane k)) p.pa) = true
            · simp only [hd, if_true]
              refine ⟨(wave?_congr (sendTill_at n c.wid v _).2 c.wid).trans hn, ?_⟩
              rw [(sendTill_at n c.wid v _).1, modLane_setWave, e0]
            · simp only [hd, if_false, Bool.false_eq_true]
              refine ⟨(wave?_congr (spend_at n c.wid v _).2 c.wid).trans hn, ?_⟩
              rw [(spend_at n c.wid v _).1, modLane_setWave, e0]
  · simp only [ha, ne_eq, not_false_eq_true, if_true] at hr
    simp at hr

/-- YIELD (R262). -/
theorem yieldOp_result {i : Instr} (h : ∀ s, exec i s = yieldOp i s) : TurnResult i id yieldTurn := by
  refine turnResult_of' (start := id) (step := fun _ c _ d k => { d with s := (d.s.safePoint c.wid k) })
    (fun s => (h s).trans (congrArg (runLanes i s) ?_)) id_start (fun s c u m v stay k r hv hl hm hr => ?_)
  · funext s c w run
    exact fold_done _ run s
  · simp only [yieldTurn, Option.some.injEq] at hr
    subst hr
    refine ⟨hm, if v.yieldsAt (v.lane k) then { v with yielding := true } else v, ?_, fun j => ?_, ?_⟩
    · split <;> exact ⟨rfl, rfl⟩
    · rw [modLane_id]; split <;> rfl
    · simp only [State.safePoint, modWave_setWave]
      rfl

theorem tokenCopy_waves (s : State) (core vi : Nat) : (s.tokenCopy core vi).waves = s.waves := by
  unfold State.tokenCopy
  simp only
  split
  · split <;> rfl
  · rfl

/-- CMT.POS (R263). -/
theorem cmtPosOp_result {i : Instr} (h : ∀ s, exec i s = cmtPosOp i s) : OutcomeResult i (cmtPosOut i) := by
  refine fits_result (eff := cmtPosEff i) h fun n c u run r hw hs hne hn hr => ?_
  simp only [cmtPosOut, Option.some.injEq] at hr
  subst hr
  unfold cmtPosEff
  simp only
  have ht := setWave_same (tokenCopy_waves n u.core u.vi) hs
  refine ⟨rfl, run.foldl (fun v k => v.modLane k (fun l => l.write (fieldsOf i).dst.toNat 1
      (bCode ((n.tokenCopy u.core u.vi).copyHolds u.core u.vi (u.lane k).item)))) u, [], ?_, modLane_fold_lanesOf _ run u,
    fun k hk => ?_, fun k _ => by simp, fun k hk => by simp at hk⟩
  · have := fold_setWave (n.tokenCopy u.core u.vi) c.wid
      (fun s k => s.putV c.wid k (fieldsOf i).dst.toNat 1 (bCode ((n.tokenCopy u.core u.vi).copyHolds u.core u.vi (u.lane k).item))) _
      (fun v k => putV_setWave (n.tokenCopy u.core u.vi) c.wid k _ 1 _ v) run u
    rw [ht] at this
    rw [this]
  · rw [modLane_fold_lane _ run u hn]
    simp only [hk, and_true]

/-- SPAWN (R259 to R261). -/
theorem spawnOp_result {i : Instr} (h : ∀ s, exec i s = spawnOp i s) : OutcomeResult i (spawnOut i) := by
  refine fits_result (eff := spawnEff i) h fun n c u run r hw hs hne hn hr => ?_
  unfold spawnOut at hr
  unfold spawnEff
  cases h4 : run.any (fun k => (u.lane k).inside)
  · have ho := outsideLanes_any h4
    simp only [h4, Bool.false_eq_true, if_false] at hr
    simp only [outsideLanes_all ho, forbidInside_none _ _ ho]
    by_cases hk : u.kind = .launched ∨ u.kind = .spawned
    · simp only [hk, if_true, Option.some.injEq] at hr
      subst hr
      simp only [hk, if_true, List.isEmpty_iff, hne, if_false]
      have ha : ∀ (s : State) (id : Nat), (run.map (spawnAsk i c u)).foldl (fun s a => s.waitLane c.wid (wordsOf i) a.lane (.spawn id)) s =
          run.foldl (fun s k => s.waitLane c.wid (wordsOf i) k (.spawn id)) s := by
        intro s id
        rw [List.foldl_map]
        congr 1
        funext s k
        congr 1
        unfold spawnAsk
        simp only
        split <;> rfl
      have hp : (n.askedSpawn c u (run.map (spawnAsk i c u))).2.waves = n.waves := by
        unfold State.askedSpawn
        split <;> rfl
      have hq : n.askSpawn c u (wordsOf i) (run.map (spawnAsk i c u)) =
          run.foldl (fun s k => s.waitLane c.wid (wordsOf i) k (.spawn (n.askedSpawn c u (run.map (spawnAsk i c u))).1))
            (n.askedSpawn c u (run.map (spawnAsk i c u))).2 := by
        unfold State.askSpawn State.askedSpawn
        cases n.openSpawn c u with
        | none => exact ha _ _
        | some x => exact ha _ _
      rw [hq]
      exact fits_hold i _ (setWave_same hp hs) hn
    · simp only [hk, if_false, Option.some.injEq] at hr
      subst hr
      simp only [hk, if_false]
      refine ⟨rfl, run.foldl (fun v k => v.modLane k (fun l => l.write (fieldsOf i).dst.toNat 1 1)) u, [], ?_, modLane_fold_lanesOf _ run u,
        fun k hk => ?_, fun k _ => by simp, fun k hk => by simp at hk⟩
      · rw [← fold_setWave n c.wid (fun s k => s.putV c.wid k (fieldsOf i).dst.toNat 1 1) _ (fun v k => putV_setWave n c.wid k _ 1 1 v) run u, hs]
      · rw [modLane_fold_lane _ run u hn]
        simp only [hk, and_true]
  · simp [h4] at hr

/-- ERET (R391). -/
theorem eret_result (x : Fields) : OutcomeResult (.eret x) eretOut := by
  refine fits_result (eff := eretEff) (fun _ => rfl) fun n c u run r hw hs hne hn hr => ?_
  unfold eretOut at hr
  unfold eretEff
  cases h1 : run.any (fun k => !(u.lane k).inh || (u.lane k).disc)
  · simp only [h1, Bool.false_eq_true, if_false, Option.some.injEq] at hr
    subst hr
    have hin : ∀ k ∈ run, (u.lane k).inh = true ∧ (u.lane k).disc = false := by
      intro k hk
      simp only [List.any_eq_false] at h1
      simpa using h1 k hk
    have hf : run.filter (fun k => (u.lane k).inh) = run := List.filter_eq_self.mpr (fun k hk => (hin k hk).1)
    have hb : run.filter (fun k => !(u.lane k).inh) = [] := by
      rw [List.filter_eq_nil_iff]
      intro k hk
      simp [(hin k hk).1]
    simp only [hf, hb, List.isEmpty_nil, if_true]
    refine ⟨rfl, run.foldl (fun v k => v.modLane k Lane.eret) u, run, ?_, modLane_fold_lanesOf _ run u, fun k hk => ?_,
      fun k hk => by simp [hk], fun k hk => hk⟩
    · have : ∀ (ks : List Nat) (v : Wave), ks.Nodup → (∀ k ∈ ks, (v.lane k).disc = false) →
          ks.foldl (fun s k => s.eretLane c.wid k) (n.setWave c.wid v) = n.setWave c.wid (ks.foldl (fun v k => v.modLane k Lane.eret) v) := by
        intro ks
        induction ks with
        | nil => intro v _ _; rfl
        | cons a t ih =>
          intro v hn hd
          have hn' := List.nodup_cons.mp hn
          rw [List.foldl_cons, List.foldl_cons]
          have : (n.setWave c.wid v).eretLane c.wid a = n.setWave c.wid (v.modLane a Lane.eret) := by
            unfold State.eretLane
            simp only [laneAt_setWave, hd a (by simp), modLane_setWave, Bool.false_eq_true, if_false]
          rw [this]
          refine ih _ hn'.2 fun k hk => ?_
          have hne : ¬ (k = a ∧ a < v.lanes.length) := fun h => hn'.1 (h.1 ▸ hk)
          rw [lane_modLane, if_neg hne]
          exact hd k (by simp [hk])
      have h2 := this run u hn (fun k hk => (hin k hk).2)
      rw [hs] at h2
      rw [h2]
    · rw [modLane_fold_lane _ run u hn]
      simp only [hk, and_true]
  · simp [h1] at hr

theorem addFence_at (n : State) (wid k : Nat) (v : Wave) :
    (n.setWave wid v).addFence wid k .full 4 [] = n.setWave wid (v.modLane k Lane.sysFenced) := by
  unfold State.addFence
  simp only [modLaneAny_setWave, List.isEmpty_nil, if_true]
  rfl

theorem sysFence_at (n : State) (c : Issue) (run : List Nat) (v : Wave) :
    (n.setWave c.wid v).sysFence c run = n.setWave c.wid (run.foldl (fun v k => v.modLane k Lane.sysFenced) v) :=
  fold_setWave n c.wid _ _ (fun v k => addFence_at n c.wid k v) run v

/-- A system instruction (R389, R390). -/
theorem sysOp_result {i : Instr} {wait : State → Issue → Wave → List Nat → Bool} {eff : Eff}
    {done : State → Issue → Wave → List Nat → Option Outcome} (h : ∀ s, exec i s = sysOp i wait eff s)
    (hd : ∀ (n : State) (c : Issue) (u : Wave) (run : List Nat) (r : Outcome), n.setWave c.wid u = n → run ≠ [] → run.Nodup →
      done n c u run = some r → Fits (eff (n.sysFence c run) c u run) c.wid u run r) : OutcomeResult i (sysOut i wait done) := by
  refine fits_result (eff := sysEff i wait eff) h fun n c u run r hw hs hne hn hr => ?_
  unfold sysOut at hr
  unfold sysEff
  by_cases h1 : (!n.sysReady c.wid run || wait n c u run) = true
  · rw [if_pos h1, Option.some.injEq] at hr
    subst hr
    rw [if_pos h1]
    refine ⟨rfl, run.foldl (fun v k => v.modLane k (Lane.owesSys i c)) u, run, ?_, modLane_fold_lanesOf _ run u, fun k hk => ?_,
      fun k hk => by simp [hk], fun k hk => hk⟩
    · have := fold_setWave n c.wid (fun s k => (s.waitLane c.wid (wordsOf i) k .sys).modLane c.wid k (fun l => { l with owes := some c.pc }))
        (fun v k => v.modLane k (Lane.owesSys i c))
        (fun v k => by rw [waitLane_setWave, modLane_setWave, modLane_modLane]; rfl) run u
      rw [hs] at this
      rw [this]
    · rw [modLane_fold_lane _ run u hn]
      simp only [hk, and_true]
  · rw [if_neg h1] at hr
    rw [if_neg h1]
    exact hd n c u run r hs hne hn hr

/-- The wave of lanes after their fences. -/
theorem fenced_lane (u : Wave) (run : List Nat) (hn : run.Nodup) (k : Nat) (hk : k < u.lanes.length) :
    (run.foldl (fun v k => v.modLane k Lane.sysFenced) u).lane k = if k ∈ run then (u.lane k).sysFenced else u.lane k := by
  rw [modLane_fold_lane (fun _ => Lane.sysFenced) run u hn]
  simp only [hk, and_true]

/-- What a fenced part becomes when no wave changes. -/
theorem fits_fenced {n m : State} {c : Issue} {u : Wave} {run : List Nat} (hs : n.setWave c.wid u = n) (hn : run.Nodup)
    (hm : m.waves = (n.sysFence c run).waves) : Fits ⟨m, [], []⟩ c.wid u run { part := m, wave := u, lane := fun _ => Lane.sysFenced } := by
  have hf := sysFence_at n c run u
  rw [hs] at hf
  refine ⟨rfl, run.foldl (fun v k => v.modLane k Lane.sysFenced) u, [], ?_, modLane_fold_lanesOf _ run u, fun k hk => fenced_lane u run hn k hk,
    fun k _ => by simp, fun k hk => by simp at hk⟩
  have : m.setWave c.wid (run.foldl (fun v k => v.modLane k Lane.sysFenced) u) = m := by
    refine setWave_same hm ?_
    rw [hf, setWave_setWave]
  rw [this]

/-- SYSRD (R389). -/
theorem sysrd_result (x : Fields) : OutcomeResult (.sysrd x) (sysOut (.sysrd x) noWait (sysrdDone x)) := by
  refine sysOp_result (eff := sysrdEff x) (fun _ => rfl) fun n c u run r hs hne hn hr => ?_
  unfold sysrdDone at hr
  cases h1 : run.any (fun k => (n.sysValue x u (u.lane k)).isNone)
  · simp only [h1, Bool.false_eq_true, if_false, Option.some.injEq] at hr
    subst hr
    have hall : ∀ k ∈ run, ∃ v, n.sysValue x u (u.lane k) = some v := by
      intro k hk
      simp only [List.any_eq_false] at h1
      have := h1 k hk
      cases hv : n.sysValue x u (u.lane k) with
      | none => simp [hv] at this
      | some v => exact ⟨v, rfl⟩
    have hf := sysFence_at n c run u
    rw [hs] at hf
    have hval : ∀ k, (n.sysFence c run).sysValue x u (u.lane k) = n.sysValue x u (u.lane k) := by
      intro k; rw [hf]; rfl
    have hstep : ∀ (ks : List Nat) (d : Done), (∀ k ∈ ks, k ∈ run) →
        ks.foldl (fun d k =>
          match (n.sysFence c run).sysName x u (u.lane k) false with
          | none => { d with traps := d.traps ++ [(k, privilegeTrap c.pc)] }
          | some i => { d with s := d.s.putV c.wid k x.dst.toNat 2 (if perLane (sysNum x) then (laneSysRead (u.lane k) (sysNum x)).toNat
              else (n.sysFence c run).sysRead (sysNum x) i) }) d =
          { d with s := ks.foldl (fun s k => s.putV c.wid k x.dst.toNat 2 ((n.sysValue x u (u.lane k)).getD 0)) d.s } := by
      intro ks
      induction ks with
      | nil => intro d _; rfl
      | cons a t ih =>
        intro d hsub
        obtain ⟨v, hv⟩ := hall a (hsub a (by simp))
        have hv2 := hval a
        rw [hv] at hv2
        rw [List.foldl_cons, List.foldl_cons]
        unfold State.sysValue at hv2
        cases hnm : (n.sysFence c run).sysName x u (u.lane a) false with
        | none => rw [hnm] at hv2; simp at hv2
        | some j =>
          rw [hnm] at hv2
          simp only [Option.map_some, Option.some.injEq] at hv2
          simp only [hv2, hv, Option.getD_some]
          exact ih _ (fun k hk => hsub k (by simp [hk]))
    change Fits (run.foldl (fun d k =>
          match (n.sysFence c run).sysName x u (u.lane k) false with
          | none => { d with traps := d.traps ++ [(k, privilegeTrap c.pc)] }
          | some i => { d with s := d.s.putV c.wid k x.dst.toNat 2 (if perLane (sysNum x) then (laneSysRead (u.lane k) (sysNum x)).toNat
              else (n.sysFence c run).sysRead (sysNum x) i) }) ⟨n.sysFence c run, [], []⟩) c.wid u run _
    rw [hstep run _ (fun k hk => hk)]
    have hwr := modLane_fold_lanesOf (fun k l => l.write x.dst.toNat 2 ((n.sysValue x u (u.lane k)).getD 0)) run
      (run.foldl (fun v k => v.modLane k Lane.sysFenced) u)
    have hfe := modLane_fold_lanesOf (fun _ => Lane.sysFenced) run u
    refine ⟨rfl, run.foldl (fun v k => v.modLane k (fun l => l.write x.dst.toNat 2 ((n.sysValue x u (u.lane k)).getD 0)))
      (run.foldl (fun v k => v.modLane k Lane.sysFenced) u), [], ?_, hwr.trans hfe, fun k hk => ?_, fun k _ => by simp,
      fun k hk => by simp at hk⟩
    · rw [hf, fold_setWave n c.wid _ (fun v k => v.modLane k (fun l => l.write x.dst.toNat 2 ((n.sysValue x u (u.lane k)).getD 0)))
        (fun v k => putV_setWave _ _ _ _ _ _ v) run]
    · rw [modLane_fold_lane (fun k l => l.write x.dst.toNat 2 ((n.sysValue x u (u.lane k)).getD 0)) run _ hn, hfe.2, fenced_lane u run hn k hk]
      simp only [hk, and_true]
      split <;> rfl
  · simp [h1] at hr

/-- SYSWR (R388, R389). -/
theorem syswr_result (x : Fields) : OutcomeResult (.syswr x) (sysOut (.syswr x) noWait (syswrDone x)) := by
  refine sysOp_result (eff := syswrEff x) (fun _ => rfl) fun n c u run r hs hne hn hr => ?_
  unfold syswrDone at hr
  simp only at hr
  have hf := sysFence_at n c run u
  rw [hs] at hf
  have hname : ∀ k, (n.sysFence c run).sysName x u (u.lane k) true = n.sysName x u (u.lane k) true := by
    intro k; rw [hf]; rfl
  cases h1 : run.any (fun k => (n.sysName x u (u.lane k) true).isNone)
  · simp only [h1, Bool.false_eq_true, if_false] at hr
    have hall : ∀ k ∈ run, (n.sysName x u (u.lane k) true).isSome = true := by
      intro k hk
      simp only [List.any_eq_false] at h1
      have := h1 k hk
      cases hv : n.sysName x u (u.lane k) true with
      | none => simp [hv] at this
      | some v => rfl
    have hok : run.filter (fun k => ((n.sysFence c run).sysName x u (u.lane k) true).isSome) = run :=
      List.filter_eq_self.mpr (fun k hk => by rw [hname]; exact hall k hk)
    have hbad : run.filter (fun k => !run.contains k) = [] := by
      rw [List.filter_eq_nil_iff]
      intro k hk
      simp [hk]
    unfold syswrEff
    simp only [hok, hbad, List.map_nil, List.nil_append]
    by_cases hp : perLane (sysNum x) = true
    · simp only [hp, if_true, Option.some.injEq] at hr
      subst hr
      simp only [hp, if_true]
      have hwr := modLane_fold_lanesOf (fun k l => laneSysWrite l (sysNum x) (dw ((u.lane k).read x.sa.toNat 2))) run
        (run.foldl (fun v k => v.modLane k Lane.sysFenced) u)
      have hfe := modLane_fold_lanesOf (fun _ => Lane.sysFenced) run u
      refine ⟨rfl, run.foldl (fun v k => v.modLane k (fun l => laneSysWrite l (sysNum x) (dw ((u.lane k).read x.sa.toNat 2))))
        (run.foldl (fun v k => v.modLane k Lane.sysFenced) u), [], ?_, hwr.trans hfe, fun k hk => ?_, fun k _ => by simp,
        fun k hk => by simp at hk⟩
      · rw [hf, fold_setWave n c.wid _ (fun v k => v.modLane k (fun l => laneSysWrite l (sysNum x) (dw ((u.lane k).read x.sa.toNat 2))))
          (fun v k => modLane_setWave _ _ _ _ _) run]
      · rw [modLane_fold_lane (fun k l => laneSysWrite l (sysNum x) (dw ((u.lane k).read x.sa.toNat 2))) run _ hn, hfe.2,
          fenced_lane u run hn k hk]
        simp only [hk, and_true]
        split <;> rfl
    · simp only [hp, Bool.false_eq_true, if_false] at hr ⊢
      cases run with
      | nil => exact absurd rfl hne
      | cons k t =>
        simp only [List.headD_cons] at hr
        simp only [hname]
        rcases hq : (n.sysFence c (k :: t)).sysWrite (sysNum x) ((n.sysName x u (u.lane k) true).getD 0) ((u.lane k).read x.sa.toNat 2)
          (u.lane k).level.toNat u.vi with ⟨m, b⟩
        simp only [hq] at hr
        by_cases hc : b = false ∨ sysNum x = 0x401 ∨ m.waves ≠ (n.sysFence c (k :: t)).waves
        · rw [if_pos hc] at hr; simp at hr
        · rw [if_neg hc, Option.some.injEq] at hr
          subst hr
          simp only [not_or, ne_eq, Classical.not_not, Bool.not_eq_false] at hc
          obtain ⟨hb, h401, hmw⟩ := hc
          subst hb
          simp only [h401, false_and, if_false]
          exact fits_fenced hs hn hmw
  · simp [h1] at hr

/-- SYSOP.ICINV, DCWB, XLINV and XLINV.ALL (R390, R438). -/
theorem sysop_result {i : Instr} {wait : State → Issue → Wave → List Nat → Bool} {eff : Eff} (h : ∀ s, exec i s = sysOp i wait eff s)
    (he : ∀ n c u run, (eff n c u run).traps = [] ∧ (eff n c u run).stay = []) : OutcomeResult i (sysOut i wait (sysopDone eff)) := by
  refine sysOp_result h fun n c u run r hs hne hn hr => ?_
  unfold sysopDone at hr
  simp only at hr
  have he := he (n.sysFence c run) c u run
  by_cases hc : (eff (n.sysFence c run) c u run).s.waves = (n.sysFence c run).waves
  · rw [if_pos hc, Option.some.injEq] at hr
    subst hr
    have : eff (n.sysFence c run) c u run = ⟨(eff (n.sysFence c run) c u run).s, [], []⟩ := by
      generalize eff (n.sysFence c run) c u run = d at he ⊢
      obtain ⟨s, a, b⟩ := d
      obtain ⟨rfl, rfl⟩ := he
      rfl
    rw [this]
    exact fits_fenced hs hn hc
  · rw [if_neg hc] at hr
    simp at hr

end Sys2Proof.Machine
end

