-- ==== Sys2Proof/Laws/Ends.lean ====
section
/-!
SUPPORT. What BANKREQ, TRAP and END do.
-/
namespace Sys2Proof.Machine

/-- BANKREQ (R292). -/
theorem bankreq_result (x : Fields) : OutcomeResult (.bankreq x) (bankreqOut x) := by
  refine fits_result (eff := bankreqEff x) (fun _ => rfl) fun n c u run r hw hs hne hn hr => ?_
  cases run with
  | nil => exact absurd rfl hne
  | cons k t =>
    unfold bankreqOut at hr
    unfold bankreqEff
    simp only [List.headD_cons] at hr ⊢
    rcases hq : n.askBanks (clusterOf u.core) (8 * posInCluster u.core) (opA (.bankreq x) u (u.lane k)) with ⟨m, st, rf⟩
    simp only [hq] at hr
    by_cases h1 : m.waves ≠ n.waves
    · rw [if_pos h1] at hr; simp at hr
    · rw [if_neg h1] at hr
      simp only [ne_eq, Classical.not_not] at h1
      have hm := setWave_same h1 hs
      by_cases h2 : st.isEmpty = true
      · simp only [h2, if_true, Option.some.injEq] at hr ⊢
        subst hr
        refine ⟨rfl, _, [], ?_, .refl _, fun j _ => ?_, fun k _ => by simp, fun k hk => by simp at hk⟩
        · rw [← hm, modWave_setWave, setWave_setWave]
        · simp only [Wave.lane]; split <;> rfl
      · simp only [h2, if_false, Option.some.injEq, Bool.false_eq_true] at hr ⊢
        subst hr
        exact fits_hold _ _ hm hn

/-- TRAP (R254). -/
theorem trapOp_result {i : Instr} (h : ∀ s, exec i s = trapOp i s) :
    TrapResult i { kind := 0x0B, i0 := dw (wordsOf i * 256 + w2f (fieldsOf i) 5 0) } := by
  intro s c w hi he
  rw [h]
  have h1 := runLanes_eq (trapEff i) hi he
  let T : Trap := { kind := 0x0B, i0 := dw (wordsOf i * 256 + w2f (fieldsOf i) 5 0) }
  have hd : (if (s.activeLanes c w i).isEmpty then ⟨s.taken.setWave c.wid (s.noted c w i), [], []⟩
        else trapEff i (s.taken.setWave c.wid (s.noted c w i)) c (s.noted c w i) (s.activeLanes c w i) : Done) =
      ⟨s.taken.setWave c.wid (s.noted c w i), (s.activeLanes c w i).map (fun k => (k, T)), []⟩ := by
    by_cases hn : s.activeLanes c w i = []
    · simp [hn]
    · simp only [List.isEmpty_iff, hn, if_false]; rfl
  rw [hd] at h1
  have hc : ∀ k, ((s.activeLanes c w i).map (fun k => (k, T))).any (fun t => t.1 == k) = (s.activeLanes c w i).contains k := by
    intro k
    rw [List.any_map]
    rw [List.contains_eq_any_beq]
    congr 1
    funext j
    simp only [Function.comp_def]
    exact Bool.beq_comm
  let g := s.group c.wid w c i
  let go := g.filter (fun k => !(s.activeLanes c w i).contains k)
  have hcl : (⟨s.taken.setWave c.wid (s.noted c w i), (s.activeLanes c w i).map (fun k => (k, T)), []⟩ : Done).close c.wid (wordsOf i) c.pc g =
      (go.foldl (fun s k => s.advanceLane c.wid (wordsOf i) k) (s.taken.setWave c.wid (s.noted c w i))).raiseTraps c.wid c.pc
        ((s.activeLanes c w i).map (fun k => (k, T))) := by
    unfold Done.close
    simp only [List.contains_nil, Bool.not_false, Bool.true_and, hc]
    rfl
  rw [hcl] at h1
  refine ⟨_, h1, _, advance_fold s.taken c.wid (wordsOf i) go (s.noted c w i), goOn_fold_lanesOf (wordsOf i) go _, fun k hk => ?_⟩
  rw [goOn_fold_lane (wordsOf i) go _ ((group_nodup hi.once).filter _)]
  have hgo : k ∈ go ↔ k ∈ g ∧ k ∉ s.activeLanes c w i := by
    simp only [go, List.mem_filter]
    simp
  simp only [hgo, hk, and_true, State.onward]
  by_cases ha : k ∈ s.activeLanes c w i
  · simp only [ha, not_true_eq_false, and_false, if_false, if_true]
  · simp only [ha, not_false_eq_true, and_true, if_false]; rfl

theorem settleDisc_none {n : State} {item k wid : Nat} (h : (n.issuer? item).all (fun i => !i.trapped.contains k) = true) :
    n.settleDisc item k wid false = n := by
  unfold State.settleDisc
  cases hi : n.issuer? item with
  | none => rfl
  | some i =>
    rw [hi] at h
    have : i.trapped.contains k = false := by simpa using h
    simp only [this, Bool.false_eq_true, if_false]

/-- END (R37, R255). -/
theorem endOp_result {i : Instr} (h : ∀ s, exec i s = endOp i s) : OutcomeResult i endOut := by
  refine fits_result (eff := endEff i) h fun n c u run r hw hs hne hn hr => ?_
  unfold endOut at hr
  unfold endEff
  cases h4 : run.any (fun k => (u.lane k).inside)
  · have ho := outsideLanes_any h4
    simp only [h4, Bool.false_eq_true, if_false] at hr
    rw [outsideLanes_all ho, forbidInside_none _ _ ho]
    by_cases hc : u.kind = .launched ∧ n.barriers = [] ∧ (u.idx.any (fun k => !run.contains k && (u.lane k).live)) = true ∧
      run.all (fun k => !n.fragmentHeld c.wid k && (u.lane k).lateDue.isEmpty &&
        (n.issuer? (u.lane k).item).all (fun i => !i.trapped.contains k)) = true
    · rw [if_pos hc, Option.some.injEq] at hr
      subst hr
      obtain ⟨hk, hb, hlive, htr⟩ := hc
      obtain ⟨j, hj, hjl⟩ := List.any_eq_true.mp hlive
      simp only [Bool.and_eq_true, Bool.not_eq_true', List.contains_iff_mem] at hjl
      have hjr : j ∉ run := by
        intro hx
        have : run.contains j = true := by simpa using hx
        rw [hjl.1] at this
        exact absurd this (by decide)
      have hfold : ∀ (ks : List Nat) (m : State) (v : Wave), (∀ k ∈ ks, k ∈ run) → ks.Nodup → m.issuers = n.issuers → m.passes = n.passes →
          m.barriers = n.barriers → v.LanesOf u → v.lane j = u.lane j → (∀ k ∈ ks, v.lane k = u.lane k) →
          ks.foldl (fun s k => (s.settleDisc (u.lane k).item k c.wid false).endLane c.wid k) (m.setWave c.wid v) =
            (ks.foldl (fun m k => m.dropFills c.wid k) m).setWave c.wid (ks.foldl (fun v k => v.modLane k (fun l => { l.atEnd with due := [] })) v) := by
        intro ks
        induction ks with
        | nil => intro m v _ _ _ _ _ _ _ _; rfl
        | cons a t ih =>
          intro m v hsub hnd hmi hmp hmb hv hvj hvk
          have hnd := List.nodup_cons.mp hnd
          have har := hsub a (by simp)
          have hall := List.all_eq_true.mp htr a har
          simp only [Bool.and_eq_true, Bool.not_eq_true', List.isEmpty_iff] at hall
          have hd : (m.setWave c.wid v).settleDisc (u.lane a).item a c.wid false = m.setWave c.wid v :=
            settleDisc_none (by
              change ((m.issuer? (u.lane a).item).all _ = true)
              unfold State.issuer?
              rw [hmi]
              exact hall.2)
          have hv2 : (v.modLane a (fun l => { l.atEnd with due := [] })).LanesOf u := (modLane_lanesOf _ _ _).trans hv
          have hja : ¬ (j = a ∧ a < v.lanes.length) := fun x => hjr (x.1 ▸ har)
          have hvj2 : (v.modLane a (fun l => { l.atEnd with due := [] })).lane j = u.lane j := by
            rw [lane_modLane, if_neg hja]; exact hvj
          have hend : (m.setWave c.wid v).endLane c.wid a =
              (m.dropFills c.wid a).setWave c.wid (v.modLane a (fun l => { l.atEnd with due := [] })) := by
            unfold State.endLane
            have hrec : ((m.setWave c.wid v).dropFills c.wid a).dueRecords c.wid a false =
                (m.dropFills c.wid a).setWave c.wid (v.modLane a (fun l => { l with due := [] })) := by
              change ((m.dropFills c.wid a).setWave c.wid v).dueRecords c.wid a false = _
              unfold State.dueRecords
              simp only [anyWave_setWave, hvk a (by simp), hall.1.2, List.foldl_nil, modLaneAny_setWave]
            rw [hrec, modLane_setWave, modLane_modLane]
            change (((m.dropFills c.wid a).setWave c.wid (v.modLane a (fun l => { l.atEnd with due := [] }))).afterEnd c.wid a) = _
            generalize hvv : v.modLane a (fun l => { l.atEnd with due := [] }) = y at hv2 hvj2 ⊢
            have hyk : y.kind = .launched := by rw [hv2.1]; exact hk
            unfold State.afterEnd
            have hdrop : ((m.dropFills c.wid a).setWave c.wid y).dropFragment c.wid a = (m.dropFills c.wid a).setWave c.wid y := by
              unfold State.dropFragment
              have hfr : ((m.dropFills c.wid a).setWave c.wid y).fragmentHeld c.wid a = false := by
                have := hall.1.1
                unfold State.fragmentHeld at this ⊢
                rw [show ((m.dropFills c.wid a).setWave c.wid y).passes = n.passes from hmp]
                exact this
              rw [hfr]
              rfl
            have hnall : y.lanes.all (fun l => !l.live) = false := by
              rw [List.all_eq_false]
              have hjlt : j < y.lanes.length := by
                rw [hv2.2]
                have : j ∈ List.range u.lanes.length := hj
                exact List.mem_range.mp this
              refine ⟨y.lane j, ?_, ?_⟩
              · unfold Wave.lane
                rw [List.getD_eq_getElem?_getD, List.getElem?_eq_getElem hjlt]
                exact List.getElem_mem hjlt
              · rw [hvj2, hjl.2]; decide
            have hsb : ((m.dropFills c.wid a).setWave c.wid y).settleBarriers = (m.dropFills c.wid a).setWave c.wid y := by
              unfold State.settleBarriers
              have : ((m.dropFills c.wid a).setWave c.wid y).barriers = [] := hmb.trans hb
              rw [this]
              rfl
            simp only [waveAt_setWave, hyk, hdrop, hnall, hsb, reduceCtorEq, if_false, Bool.false_eq_true]
          rw [List.foldl_cons, List.foldl_cons, hd, hend]
          refine ih (m.dropFills c.wid a) _ (fun k hk => hsub k (by simp [hk])) hnd.2 hmi hmp hmb hv2 hvj2 fun k hk => ?_
          rw [lane_modLane, if_neg (fun h : k = a ∧ a < v.lanes.length => hnd.1 (h.1 ▸ hk))]
          exact hvk k (by simp [hk])
      have hf := hfold run n u (fun k hk => hk) hn rfl rfl rfl (.refl u) rfl (fun _ _ => rfl)
      rw [hs] at hf
      simp only [hf]
      refine ⟨rfl, _, run, rfl, modLane_fold_lanesOf (fun _ l => { l.atEnd with due := [] }) run u, fun k hk => ?_,
        fun k hk => by simp [hk], fun k hk => hk⟩
      rw [modLane_fold_lane (fun _ l => { l.atEnd with due := [] }) run u hn]
      simp only [hk, and_true]
    · rw [if_neg hc] at hr; simp at hr
  · simp [h4] at hr

end Sys2Proof.Machine
end

