-- ==== Sys2Proof/Laws/Barriers.lean ====
section
/-!
SUPPORT. What BAR does.
-/
namespace Sys2Proof.Machine

theorem find_put_some {α : Type} (p : Nat × α → Bool) (m : FMap α) (id : Nat) (x y : α) (h : m.find? p = some (id, x)) (hy : p (id, y) = true) :
    (put m id y).find? p = some (id, y) := by
  induction m with
  | nil => simp at h
  | cons e t ih =>
    obtain ⟨a, z⟩ := e
    unfold put
    by_cases h1 : id < a
    · simp only [h1, if_true, List.find?_cons, hy]
    · by_cases h2 : id = a
      · subst h2
        simp [hy]
      · simp only [h1, h2, if_false, List.find?_cons]
        rw [List.find?_cons] at h
        cases hz : p (a, z)
        · simp only [hz] at h ⊢
          exact ih h
        · simp only [hz, Option.some.injEq, Prod.mk.injEq] at h
          exact absurd h.1.symm h2

theorem find_put_none {α : Type} (p : Nat × α → Bool) (m : FMap α) (id : Nat) (y : α) (h : m.find? p = none) (hy : p (id, y) = true) :
    (put m id y).find? p = some (id, y) := by
  induction m with
  | nil => simp [put, hy]
  | cons e t ih =>
    obtain ⟨a, z⟩ := e
    unfold put
    rw [List.find?_cons] at h
    cases hz : p (a, z)
    · simp only [hz] at h
      by_cases h1 : id < a
      · simp only [h1, if_true, List.find?_cons, hy]
      · by_cases h2 : id = a
        · subst h2
          simp only [h1, if_false, if_true, List.find?_cons, hy]
        · simp only [h1, h2, if_false, List.find?_cons, hz]
          exact ih h
    · simp [hz] at h

theorem put_put {α : Type} (m : FMap α) (id : Nat) (x y : α) : put (put m id x) id y = put m id y := by
  induction m with
  | nil => simp [put]
  | cons e t ih =>
    obtain ⟨a, z⟩ := e
    unfold put
    by_cases h1 : id < a
    · simp [h1, put]
    · by_cases h2 : id = a
      · subst h2; simp [put]
      · simp [h1, h2, put, ih]

/-- Which instances a barrier joins does not depend on who has arrived. -/
theorem findBarrier_match (b x : Barrier) (id : Nat) (l : List (Nat × Nat)) (g : Nat) :
    (fun (y : Nat × Barrier) => if b.isWave then y.2.isWave && y.2.wid == b.wid
      else !y.2.isWave && y.2.lid == b.lid && y.2.level == b.level && y.2.bx == b.bx && y.2.by_ == b.by_) (id, { x with arrived := l, start := g }) =
    (fun (y : Nat × Barrier) => if b.isWave then y.2.isWave && y.2.wid == b.wid
      else !y.2.isWave && y.2.lid == b.lid && y.2.level == b.level && y.2.bx == b.bx && y.2.by_ == b.by_) (id, x) := rfl

/-- Lanes that join an open instance. -/
theorem arrive_some (i : Instr) (b : Barrier) (wid id : Nat) (run : List Nat) (n : State) (v : Wave) (x : Barrier)
    (h : n.findBarrier b = some (id, x)) :
    run.foldl (fun s k => s.arrive wid (wordsOf i) b k) (n.setWave wid v) =
      (if run = [] then n else { n with barriers := put n.barriers id { x with arrived := x.arrived ++ run.map (fun k => (wid, k)) } }).setWave wid
        (v.holding i run (.barrier id)) := by
  induction run generalizing n v x with
  | nil => rfl
  | cons a t ih =>
    have hf : (n.setWave wid v).findBarrier b = some (id, x) := h
    have hstep : (n.setWave wid v).arrive wid (wordsOf i) b a =
        ({ n with barriers := put n.barriers id { x with arrived := x.arrived ++ [(wid, a)] } } : State).setWave wid
          (v.modLane a (Lane.await i (.barrier id))) := by
      unfold State.arrive
      simp only [hf]
      have e : ({ n.setWave wid v with barriers := put (n.setWave wid v).barriers id { x with arrived := x.arrived ++ [(wid, a)] } } : State) =
        ({ n with barriers := put n.barriers id { x with arrived := x.arrived ++ [(wid, a)] } } : State).setWave wid v := rfl
      rw [e, waitLane_setWave]
      rfl
    have hp := List.find?_some h
    have hn : ({ n with barriers := put n.barriers id { x with arrived := x.arrived ++ [(wid, a)] } } : State).findBarrier b =
        some (id, { x with arrived := x.arrived ++ [(wid, a)] }) := find_put_some _ n.barriers id x _ h hp
    rw [List.foldl_cons, hstep, ih _ _ _ hn]
    simp only [reduceCtorEq, if_false]
    by_cases ht : t = []
    · subst ht; rfl
    · simp only [ht, if_false, put_put, List.map_cons, List.append_assoc, List.singleton_append]
      rfl

/-- Lanes that open an instance. -/
theorem arrive_all (i : Instr) (b : Barrier) (wid : Nat) (run : List Nat) (n : State) (v : Wave) (hne : run ≠ [])
    (hb : (if b.isWave then b.isWave && b.wid == b.wid
      else !b.isWave && b.lid == b.lid && b.level == b.level && b.bx == b.bx && b.by_ == b.by_) = true) :
    run.foldl (fun s k => s.arrive wid (wordsOf i) b k) (n.setWave wid v) =
      (n.joinedBarrier b wid run).2.setWave wid (v.holding i run (.barrier (n.joinedBarrier b wid run).1)) := by
  unfold State.joinedBarrier
  cases h : n.findBarrier b with
  | some y =>
    obtain ⟨id, x⟩ := y
    rw [arrive_some i b wid id run n v x h, if_neg hne]
  | none =>
    cases run with
    | nil => exact absurd rfl hne
    | cons a t =>
      have hf : (n.setWave wid v).findBarrier b = none := h
      have hstep : (n.setWave wid v).arrive wid (wordsOf i) b a =
          ({ n with nid := n.nid + 1, barriers := put n.barriers n.nid { b with start := n.gt, arrived := [(wid, a)] } } : State).setWave wid
            (v.modLane a (Lane.await i (.barrier n.nid))) := by
        unfold State.arrive
        simp only [hf]
        change ((({ n with nid := n.nid + 1, barriers := put n.barriers n.nid { b with start := n.gt, arrived := [(wid, a)] } } : State).setWave wid v).waitLane
          wid (wordsOf i) a (.barrier n.nid)) = _
        rw [waitLane_setWave]
        rfl
      have hn : ({ n with nid := n.nid + 1, barriers := put n.barriers n.nid { b with start := n.gt, arrived := [(wid, a)] } } : State).findBarrier b =
          some (n.nid, { b with start := n.gt, arrived := [(wid, a)] }) := find_put_none _ n.barriers n.nid _ h hb
      rw [List.foldl_cons, hstep, arrive_some i b wid n.nid t _ _ _ hn]
      by_cases ht : t = []
      · subst ht; rfl
      · simp only [ht, if_false, put_put, List.map_cons, List.singleton_append]
        rfl

theorem settleBarriers_none {s : State} (h : s.barriers.any (fun x => s.barrierFull x.2) = false) : s.settleBarriers = s := by
  unfold State.settleBarriers
  have hx : ∀ x ∈ s.barriers, s.barrierFull x.2 = false := by
    intro x hx
    simp only [List.any_eq_false] at h
    simpa using h x hx
  generalize s.barriers = l at hx
  induction l with
  | nil => rfl
  | cons a t ih =>
    obtain ⟨bid, b⟩ := a
    have h1 : s.barrierFull b = false := hx (bid, b) (by simp)
    rw [List.foldl_cons]
    simp only [h1, Bool.false_eq_true, if_false]
    exact ih (fun y hy => hx y (by simp [hy]))

theorem barrier_self (s : State) (i : Instr) (c : Issue) (w : Wave) :
    (if (s.barrierOf i c w).isWave then (s.barrierOf i c w).isWave && (s.barrierOf i c w).wid == (s.barrierOf i c w).wid
      else !(s.barrierOf i c w).isWave && (s.barrierOf i c w).lid == (s.barrierOf i c w).lid && (s.barrierOf i c w).level == (s.barrierOf i c w).level &&
        (s.barrierOf i c w).bx == (s.barrierOf i c w).bx && (s.barrierOf i c w).by_ == (s.barrierOf i c w).by_) = true := by
  cases (s.barrierOf i c w).isWave <;> simp

/-- What BAR's lanes make of the part before barriers complete. -/
theorem barEff_arrived {i : Instr} {n : State} {c : Issue} {u : Wave} {run : List Nat} (hs : n.setWave c.wid u = n) (hne : run ≠ [])
    (hq : run.any (fun k => (u.lane k).inside || u.barPassed (n.barrierOf i c u) k) = false) :
    barEff i n c u run = ⟨((n.joinedBarrier (n.barrierOf i c u) c.wid run).2.setWave c.wid
      (u.holding i run (.barrier (n.joinedBarrier (n.barrierOf i c u) c.wid run).1))).settleBarriers, [], run⟩ := by
  have hx : ∀ k ∈ run, (u.lane k).inside = false ∧ u.barPassed (n.barrierOf i c u) k = false := by
    intro k hk
    simp only [List.any_eq_false] at hq
    simpa using hq k hk
  have ho : ∀ k ∈ run, (u.lane k).inside = false := fun k hk => (hx k hk).1
  unfold barEff
  simp only [outsideLanes_all ho, forbidInside_none _ _ ho]
  have hfil : run.filter (fun k => !u.barPassed (n.barrierOf i c u) k) = run :=
    List.filter_eq_self.mpr (fun k hk => by simp [(hx k hk).2])
  have hfold : run.foldl (fun s k => if u.barPassed (n.barrierOf i c u) k = true then s.modLane c.wid k (Lane.passBlock (n.barrierOf i c u).level)
      else s.arrive c.wid (wordsOf i) (n.barrierOf i c u) k) n = run.foldl (fun s k => s.arrive c.wid (wordsOf i) (n.barrierOf i c u) k) n :=
    foldl_congr_mem (fun s k hk => by simp [(hx k hk).2]) n
  have h2 := arrive_all i (n.barrierOf i c u) c.wid run n u hne (barrier_self n i c u)
  rw [hs] at h2
  rw [hfil, hfold, h2]

/-- BAR while no barrier completes (R249). -/
theorem barOp_result {i : Instr} (h : ∀ s, exec i s = barOp i s) : OutcomeResult i (barOut i) := by
  refine fits_result (eff := barEff i) h fun n c u run r hw hs hne hn hr => ?_
  unfold barOut at hr
  simp only at hr
  cases h1 : run.any (fun k => (u.lane k).inside || u.barPassed (n.barrierOf i c u) k)
  · simp only [h1, Bool.false_eq_true, if_false] at hr
    rw [barEff_arrived hs hne h1]
    generalize hA : (n.joinedBarrier (n.barrierOf i c u) c.wid run).2.setWave c.wid
      (u.holding i run (.barrier (n.joinedBarrier (n.barrierOf i c u) c.wid run).1)) = A at hr ⊢
    cases h2 : A.barriers.any (fun x => A.barrierFull x.2)
    · simp only [h2, Bool.false_eq_true, if_false, Option.some.injEq] at hr
      subst hr
      rw [settleBarriers_none h2, ← hA]
      refine ⟨rfl, _, run, rfl, modLane_fold_lanesOf (fun _ => Lane.await i (.barrier (n.joinedBarrier (n.barrierOf i c u) c.wid run).1)) run u,
        fun k hk => ?_, fun k hk => by simp [holdOutcome, hk], fun k hk => hk⟩
      have := modLane_fold_lane (fun _ => Lane.await i (.barrier (n.joinedBarrier (n.barrierOf i c u) c.wid run).1)) run u hn k
      simp only [hk, and_true] at this
      exact this
    · simp [h2] at hr
  · simp [h1] at hr

/-- BAR (R249 to R251). -/
theorem barOp_course {i : Instr} (h : ∀ s, exec i s = barOp i s) : BarrierResult i := by
  intro s c w hi he ha n u run b hq
  rw [h]
  have hu := issued_eq i hi.wave
  have hss : n.setWave c.wid u = n := by
    change (s.issued c w i).setWave c.wid (s.noted c w i) = s.issued c w i
    rw [hu]; exact setWave_setWave _ _ _ _
  have h1 := runLanes_eq (barEff i) hi he
  simp only [List.isEmpty_iff, ha, if_false] at h1
  rw [← hu] at h1
  rw [barOp, h1]
  have := barEff_arrived hss ha hq
  rw [show barEff i (s.issued c w i) c (s.noted c w i) (s.activeLanes c w i) = _ from this]

end Sys2Proof.Machine
end

