-- ==== Sys2Proof/Laws/Effects.lean ====
section
/-!
SUPPORT. The whole effect of END, MREL, BANKREQ, SYSWR, SYSOP and ERET, other waves with it.
-/
namespace Sys2Proof.Machine

theorem effect_result {i : Instr} {ok : State → Issue → Wave → List Nat → Bool} {act : State → Issue → Wave → List Nat → State × List Nat}
    {eff : Eff} (h : ∀ s, exec i s = runLanes i s eff)
    (he : ∀ n c u run, run ≠ [] → ok n c u run = true → eff n c u run = ⟨(act n c u run).1, [], (act n c u run).2⟩) :
    EffectResult i ok act := by
  intro s c w hi ht ha hk
  have h1 := runLanes_eq eff hi ht
  simp only [List.isEmpty_iff, ha, if_false] at h1
  rw [← issued_eq i hi.wave, he _ _ _ _ ha hk] at h1
  exact (h s).trans h1

theorem end_effect {i : Instr} (h : ∀ s, exec i s = endOp i s) : EffectResult i allOutside endAct :=
  effect_result h fun n c u run _ hk => by
    have ho := outsideLanes_any (by simpa [allOutside] using hk : run.any (fun k => (u.lane k).inside) = false)
    unfold endEff
    rw [outsideLanes_all ho, forbidInside_none _ _ ho]
    rfl

theorem mrel_effect (x : Fields) :
    EffectResult (.mrel x) (fun n c u _ => !(n.coreAt u.core).busyRes c.wid (w2f x 4 0)) (mrelAct x) :=
  effect_result (eff := mrelEff (.mrel x)) (fun _ => rfl) fun n c u run _ hk => by
    have hb : (n.coreAt u.core).busyRes c.wid (w2f x 4 0) = false := by simpa using hk
    have hk : (n.coreAt u.core).busyRes c.wid (w2f (fieldsOf (.mrel x)) 4 0) = false := hb
    unfold mrelEff
    simp only [hk, Bool.false_eq_true, if_false]
    rfl

theorem bankreqEff_act (x : Fields) (n : State) (c : Issue) (u : Wave) (k : Nat) (t : List Nat) :
    bankreqEff x n c u (k :: t) = ⟨(bankreqAct x n c u (k :: t)).1, [], (bankreqAct x n c u (k :: t)).2⟩ := by
  show bankreqEff x n c u (k :: t) = Done.mk _ _ _
  unfold bankreqEff bankreqAct
  dsimp only [List.headD_cons]
  split <;> simp_all

theorem bankreq_effect (x : Fields) : EffectResult (.bankreq x) (fun _ _ _ _ => true) (bankreqAct x) :=
  effect_result (eff := bankreqEff x) (fun _ => rfl) fun n c u run hne _ => by
    cases run with
    | nil => exact absurd rfl hne
    | cons k t => exact bankreqEff_act x n c u k t

theorem sysName_sys (s t : State) (x : Fields) (u : Wave) (l : Lane) (b : Bool) (h : t.sys = s.sys) : t.sysName x u l b = s.sysName x u l b := by
  have h1 : t.sysAt = s.sysAt := by funext a b; unfold State.sysAt; rw [h]
  have h2 : t.sysBits = s.sysBits := by funext a b c d; unfold State.sysBits; rw [h1]
  have h3 : t.coreOfVi = s.coreOfVi := by funext a b; unfold State.coreOfVi State.partOf State.coreInPart; rw [h1, h2]
  have hm : t.mayName = s.mayName := by funext r vi i; unfold State.mayName; rw [h3]
  unfold State.sysName
  rw [hm]

theorem addFence_sys (s : State) (wid k : Nat) (f : FenceKind) (sc : Nat) (b : List Nat) (m : Nat) : (s.addFence wid k f sc b m).sys = s.sys := by
  have h1 : ∀ f, (s.modLaneAny wid k f).sys = s.sys := by
    intro f
    unfold State.modLaneAny
    split
    · rfl
    · rfl
  unfold State.addFence
  dsimp only
  split
  · exact h1 _
  · exact h1 _

theorem sysName_fence (n : State) (c : Issue) (run : List Nat) (x : Fields) (u : Wave) (l : Lane) :
    (n.sysFence c run).sysName x u l true = n.sysName x u l true := by
  unfold State.sysFence
  induction run generalizing n with
  | nil => rfl
  | cons k t ih => rw [List.foldl_cons, ih, sysName_sys _ _ _ _ _ _ (addFence_sys ..)]

theorem syswr_effect (x : Fields) :
    EffectResult (.syswr x) (fun n c u run => syswrFree x n c u run && (syswrWrite x n c u run).2) (syswrAct x) :=
  effect_result (eff := sysEff (.syswr x) noWait (syswrEff x)) (fun _ => rfl) fun n c u run hne hk => by
    simp only [syswrFree, Bool.and_eq_true, Bool.not_eq_true'] at hk
    obtain ⟨⟨⟨h1, h2⟩, h3⟩, h4⟩ := hk
    have hok : run.filter (fun k => ((n.sysFence c run).sysName x u (u.lane k) true).isSome) = run := by
      rw [List.filter_eq_self]
      intro k hk
      have := List.all_eq_true.mp h3 k hk
      exact (congrArg Option.isSome (sysName_fence n c run x u (u.lane k))).trans this
    have hbad : (run.filter (fun k => !run.contains k)) = [] := by
      rw [List.filter_eq_nil_iff]
      intro k hk
      simp [hk]
    unfold sysEff
    simp only [h1, noWait, Bool.not_true, Bool.or_self, Bool.false_eq_true, if_false]
    show syswrEff x (n.sysFence c run) c u run = _
    unfold syswrEff syswrAct
    simp only [hok, hbad, h2, Bool.false_eq_true, if_false, List.map_nil]
    cases run with
    | nil => exact absurd rfl hne
    | cons k t =>
      unfold syswrWrite at h4 ⊢
      simp only [List.headD_cons] at h4 ⊢
      rw [show (n.sysFence c (k :: t)).sysName x u (u.lane k) true = n.sysName x u (u.lane k) true from sysName_fence ..]
      generalize (n.sysFence c (k :: t)).sysWrite (sysNum x) ((n.sysName x u (u.lane k) true).getD 0) ((u.lane k).read x.sa.toNat 2)
        (u.lane k).level.toNat u.vi = r at h4 ⊢
      obtain ⟨m, b⟩ := r
      simp only at h4
      subst h4
      rfl

/-- The SYSOP forms. -/
theorem sysop_effect {i : Instr} {wait : State → Issue → Wave → List Nat → Bool} {eff : Eff} (h : ∀ s, exec i s = sysOp i wait eff s)
    (he : ∀ n c u run, (eff n c u run).traps = []) :
    EffectResult i (fun n c u run => n.sysReady c.wid run && !wait n c u run)
      (fun n c u run => ((eff (n.sysFence c run) c u run).s, (eff (n.sysFence c run) c u run).stay)) :=
  effect_result (eff := sysEff i wait eff) h fun n c u run _ hk => by
    simp only [Bool.and_eq_true, Bool.not_eq_true'] at hk
    unfold sysEff
    simp only [hk.1, hk.2, Bool.not_true, Bool.or_self, Bool.false_eq_true, if_false]
    show eff (n.sysFence c run) c u run = _
    have h1 := he (n.sysFence c run) c u run
    generalize eff (n.sysFence c run) c u run = d at h1 ⊢
    obtain ⟨s, a, b⟩ := d
    simp only at h1
    subst h1
    rfl

/-- ERET. -/
theorem eret_effect (x : Fields) : EffectResult (.eret x) (fun _ _ u run => run.all (fun k => (u.lane k).inh)) eretAct :=
  effect_result (eff := eretEff) (fun _ => rfl) fun n c u run _ hk => by
    have h1 : run.filter (fun k => (u.lane k).inh) = run := List.filter_eq_self.mpr (List.all_eq_true.mp hk)
    have h2 : run.filter (fun k => !(u.lane k).inh) = [] := by
      rw [List.filter_eq_nil_iff]
      intro k hx
      simp [List.all_eq_true.mp hk k hx]
    unfold eretEff
    simp only [h1, h2, List.isEmpty_nil, if_true]
    rfl

end Sys2Proof.Machine
end

