-- ==== Sys2Proof/Laws/Events.lean ====
section
/-! SUPPORT. Lemmas about the part's own steps: what the fetch ports allow, what a message end and a register reset leave. -/
namespace Sys2Proof.Machine
open Sys2Proof Host

@[simp] theorem del_del {α : Type} (m : FMap α) (k : Nat) : del (del m k) k = del m k := by
  induction m with
  | nil => rfl
  | cons e t ih =>
    obtain ⟨a, w⟩ := e
    by_cases h : a = k <;> simp [del, h, ih]

theorem served_length (c : Cand) (left : Nat) : left ≠ 0 → (c.served left).length ≤ left := by
  intro h
  unfold Cand.served
  split
  · simp
  · simp only [List.length_take]
    omega

/-- No more program counters get a port than ports are left (R69). -/
theorem ports_sum (cs : List Cand) (left : Nat) (got : List (Cand × List Nat)) :
    ((ports cs left got).map (fun x => x.2.length)).sum ≤ left + (got.map (fun x => x.2.length)).sum := by
  induction cs generalizing left got with
  | nil => simp [ports]
  | cons c t ih =>
    unfold ports
    split
    · omega
    · rename_i h
      split
      · exact ih left got
      · refine Nat.le_trans (ih _ _) ?_
        have := served_length c left h
        simp only [List.map_append, List.map_cons, List.map_nil, List.sum_append, List.sum_cons, List.sum_nil]
        omega

/-- The waves that get a port share no lane position (R69). -/
theorem ports_apart (cs : List Cand) (left : Nat) (got : List (Cand × List Nat)) (h : got.Pairwise (fun a b => a.1.w.meets b.1.w = false)) :
    (ports cs left got).Pairwise (fun a b => a.1.w.meets b.1.w = false) := by
  induction cs generalizing left got with
  | nil => exact h
  | cons c t ih =>
    unfold ports
    split
    · exact h
    · split
      · exact ih left got h
      · rename_i h2
        refine ih _ _ (List.pairwise_append.mpr ⟨h, List.pairwise_singleton _ _, fun a ha b hb => ?_⟩)
        simp only [List.mem_singleton] at hb
        subst hb
        simp only [List.any_eq_true, not_exists, not_and, Bool.not_eq_true] at h2
        exact h2 a ha

@[simp] theorem lineUse_occ (s : State) (peer pa : Nat) (start : Bool) : (s.lineUse peer pa start).occ = s.occ := by
  unfold State.lineUse
  cases look s.lineport (lineOf pa) with
  | none => cases start <;> rfl
  | some x => cases start <;> (simp only [Bool.false_eq_true, if_false, if_true]; try split) <;> rfl

theorem look_filter_none {α : Type} (m : FMap α) (k : Nat) (p : Nat × α → Bool) (h : ∀ v, p (k, v) = false) : look (m.filter p) k = none := by
  induction m with
  | nil => rfl
  | cons e t ih =>
    obtain ⟨a, v⟩ := e
    by_cases ha : a = k
    · subst ha; simp [h v, ih]
    · by_cases hp : p (a, v) = true
      · rw [List.filter_cons_of_pos hp]
        exact (if_neg ha).trans ih
      · rw [List.filter_cons_of_neg hp]
        exact ih

/-- The registers of an interface read as after a reset once they are reset (R453). -/
theorem resetRegs_sysAt (s : State) (vi num : Nat) (r : SysReg) (h1 : sysReg? num = some r) (h2 : r.inst = .vi) (h3 : vi < 256) :
    (s.resetRegs vi).sysAt num vi = sysReset num vi % 2 ^ 64 := by
  have h : look (s.resetRegs vi).sys (sysKey num vi) = none := by
    refine look_filter_none _ _ _ fun v => ?_
    have e1 : sysKey num vi % 256 = vi := by unfold sysKey; omega
    have e2 : sysKey num vi / 256 = num := by unfold sysKey; omega
    simp [e1, e2, h1, h2]
  unfold State.sysAt
  rw [h]

end Sys2Proof.Machine
end

