-- ==== Sys2Proof/Laws/Sections.lean ====
section
/-!
SUPPORT. What the instructions on fragment lists, rays and pixel-ordered sections do.
-/
namespace Sys2Proof.Machine

theorem fresh_start (s : State) (wid : Nat) (v : Wave) :
    ((s.setWave wid v).fresh.2).setWave wid v = (s.setWave wid v).fresh.2 ∧ ((s.setWave wid v).fresh.2).wave? wid = some v :=
  ⟨setWave_setWave ({ s with nid := s.nid + 1 } : State) wid v v, wave?_setWave s wid v⟩

theorem startGfx_at (i : Instr) (m : State) (v : Wave) (g : GfxReq) :
    (m.setWave g.wid v).startGfx (wordsOf i) g = (listSent i m g).part.setWave g.wid (v.modLane g.lane (listSent i m g).lane) := by
  unfold State.startGfx
  have e : ({ (m.setWave g.wid v).fresh.2 with gfx := put (m.setWave g.wid v).fresh.2.gfx (m.setWave g.wid v).fresh.1 g } : State) =
    (listSent i m g).part.setWave g.wid v := rfl
  simp only [e]
  rw [modLane_setWave]
  rfl

/-- FLI and FLI.RT (R361). -/
theorem fli_result (x : Fields) : TurnResult (.fli x) (fun s => s.fresh.2) (fliTurn (.fli x)) := by
  refine turnResult_of (step := fun s c u => fliLane (.fli x) s.nid c u) (fun _ => rfl) (fun s wid v => fresh_start s wid v)
    (fun s c u m v stay k r hv hl hm hr => ?_)
  unfold fliTurn at hr
  unfold fliLane
  simp only at hr ⊢
  have hp : ∀ h, (m.setWave c.wid v).passOf u.vi h = m.passOf u.vi h := fun _ => rfl
  simp only [hp]
  cases hq : m.passOf u.vi (handleOf (.fli x) u (u.lane k)) with
  | none => simp [hq] at hr
  | some y =>
    obtain ⟨key, p⟩ := y
    simp only [hq, Option.bind_some] at hr
    split at hr
    · cases hr
    · rename_i hc
      simp only [not_or, not_and] at hc
      simp only [Option.some.injEq] at hr
      subst hr
      refine ⟨hm, ?_⟩
      have h3 : ¬ (!p.mayMerge (u.lane k) && !(fieldsOf (.fli x)).w2.getLsbD 8) = true := by
        intro h
        simp only [Bool.and_eq_true, Bool.not_eq_true'] at h
        exact hc.2.2 h.1 h.2
      simp only [hc.1, hc.2.1, h3, if_false, Bool.false_eq_true]
      congr 1
      exact startGfx_at (.fli x) m v (fliAsk (.fli x) s.nid c u k key p)

/-- FLW (R364). -/
theorem flw_result (x : Fields) : TurnResult (.flw x) (fun s => s.fresh.2) (flwTurn (.flw x)) := by
  refine turnResult_of (step := fun s c u => flwLane (.flw x) s.nid c u) (fun _ => rfl) (fun s wid v => fresh_start s wid v)
    (fun s c u m v stay k r hv hl hm hr => ?_)
  unfold flwTurn at hr
  unfold flwLane
  simp only at hr ⊢
  have hp : ∀ h, (m.setWave c.wid v).passOf u.vi h = m.passOf u.vi h := fun _ => rfl
  simp only [hp]
  cases hq : m.passOf u.vi (handleOf (.flw x) u (u.lane k)) with
  | none => simp [hq] at hr
  | some y =>
    obtain ⟨key, p⟩ := y
    simp only [hq, Option.bind_some] at hr
    split at hr
    · cases hr
    · rename_i hc
      simp only [Option.some.injEq] at hr
      subst hr
      refine ⟨hm, ?_⟩
      simp only [hc, if_false, Bool.false_eq_true]
      congr 1
      exact startGfx_at (.flw x) m v (flwAsk (.flw x) s.nid c u k key p)

theorem startRay_at (i : Instr) (m : State) (c : Issue) (v : Wave) (g : GfxReq) :
    (m.setWave c.wid v).startRay c (wordsOf i) g = (rayHeld i m g).part.setWave c.wid (v.modLane g.lane (Lane.await i (.held m.nid))) := by
  unfold State.startRay
  have e : ({ (m.setWave c.wid v).fresh.2 with gfx := put (m.setWave c.wid v).fresh.2.gfx (m.setWave c.wid v).fresh.1 g } : State) =
    (rayHeld i m g).part.setWave c.wid v := rfl
  simp only [e]
  rw [waitLane_setWave]
  rfl

/-- RAYQ (R367, R368). -/
theorem rayq_result (x : Fields) : TurnResult (.rayq x) (fun s => s.fresh.2) (rayqTurn (.rayq x)) := by
  refine turnResult_of (step := fun s c u => rayLane (.rayq x) false s.nid c u) (fun _ => rfl) (fun s wid v => fresh_start s wid v)
    (fun s c u m v stay k r hv hl hm hr => ?_)
  unfold rayqTurn at hr
  unfold rayLane
  simp only at hr ⊢
  split at hr
  · cases hr
  · rename_i hb
    simp only [Option.some.injEq] at hr
    subst hr
    refine ⟨hm, ?_⟩
    simp only [hb, if_false, Bool.not_false, if_true]
    rw [startRay_at (.rayq x) m c v _]
    rfl

/-- RAYQ.APP (R367, R369). -/
theorem rayqApp_result (x : Fields) : TurnResult (.rayqApp x) (fun s => s.fresh.2) (rayqAppTurn (.rayqApp x)) := by
  refine turnResult_of (step := fun s c u => rayLane (.rayqApp x) true s.nid c u) (fun _ => rfl) (fun s wid v => fresh_start s wid v)
    (fun s c u m v stay k r hv hl hm hr => ?_)
  unfold rayqAppTurn at hr
  unfold rayLane
  simp only at hr ⊢
  split at hr
  · cases hr
  · rename_i hb
    have hp : ∀ h, (m.setWave c.wid v).passOf u.vi h = m.passOf u.vi h := fun _ => rfl
    simp only [hb, if_false, Bool.not_true, Bool.false_eq_true, hp]
    cases hq : m.passOf u.vi (handleOf (.rayqApp x) u (u.lane k)) with
    | none => simp [hq] at hr
    | some y =>
      obtain ⟨key, p⟩ := y
      simp only [hq, Option.bind_some] at hr
      split at hr
      · cases hr
      · rename_i hc
        simp only [not_or] at hc
        simp only [Option.some.injEq] at hr
        subst hr
        refine ⟨hm, ?_⟩
        simp only [hc.1, hc.2, if_false, Bool.false_eq_true]
        rw [startRay_at (.rayqApp x) m c v _]
        rfl

theorem enterSection_at (m : State) (c : Issue) (v : Wave) (k : Nat) {core : Nat} (hc : v.core = core) :
    (m.setWave c.wid v).enterSection c.wid k =
      (if (m.opsOf [(c.wid, k)]).isEmpty then m
        else m.withOp { act := .fence .acq, vi := v.vi, wid := c.wid, lane := k, core := core, scope := 4,
                        before := (m.opsOf [(c.wid, k)]).map (fun j => (4, j)) }).setWave
        c.wid (v.modLane k (Lane.entered m v.vi (m.opsOf [(c.wid, k)]))) := by
  subst hc
  unfold State.enterSection
  have hops : ∀ y, (m.setWave c.wid y).opsOf [(c.wid, k)] = m.opsOf [(c.wid, k)] := fun _ => rfl
  have hot : (m.setWave c.wid v).ordto v.vi = m.ordto v.vi := rfl
  have hgt : (m.setWave c.wid v).gt = m.gt := rfl
  simp only [waveAt_setWave, hot, hgt, modLane_setWave, hops]
  unfold State.addFence
  simp only [anyWave_setWave, modLaneAny_setWave]
  by_cases he : (m.opsOf [(c.wid, k)]).isEmpty = true
  · simp only [he, if_true, modLane_modLane]
    rfl
  · simp only [he, if_false, Bool.false_eq_true, modLane_modLane]
    rfl

/-- ORD.ENTER (R357). -/
theorem ordEnter_result (x : Fields) : TurnResult (.ordEnter x) id (ordEnterTurn (.ordEnter x)) := by
  refine turnResult_of (start := id) (step := fun _ c u => ordEnterLane (.ordEnter x) c u) (fun _ => rfl) id_start (fun s c u m v stay k r hv hl hm hr => ?_)
  unfold ordEnterTurn at hr
  unfold ordEnterLane
  simp only at hr ⊢
  cases hk : u.kind <;> simp only [hk, ne_eq, reduceCtorEq, not_false_eq_true, if_true, not_true_eq_false, if_false] at hr
  all_goals try cases hr
  cases ho : (u.lane k).ord with
  | none => simp [ho] at hr
  | some o =>
    have hvi : v.vi = u.vi ∧ v.core = u.core := by rw [hv.1]; exact ⟨rfl, rfl⟩
    have hb : (m.setWave c.wid v).ordBlockers u.pass o = m.ordBlockers u.pass o := rfl
    simp only [ho, Option.bind_some] at hr
    split at hr
    · cases hr
    · rename_i hio
      simp only [not_or] at hio
      simp only [hio.1, hio.2, hb, if_false, Bool.false_eq_true]
      split at hr
      · rename_i hq
        simp only [Option.some.injEq] at hr
        subst hr
        simp only [hq, if_true]
        rw [enterSection_at m c v k hvi.2]
        rw [hvi.1]
        refine ⟨?_, rfl⟩
        split <;> exact hm
      · rename_i hq
        simp only [Option.some.injEq] at hr
        subst hr
        refine ⟨hm, ?_⟩
        simp only [hq, if_false, Bool.false_eq_true]
        rw [waitLane_setWave]
        rfl

/-- DRAW (R351). -/
theorem draw_result (x : Fields) : OutcomeResult (.draw x) (drawOut x) := by
  refine fits_result (eff := drawEff x) (fun _ => rfl) fun n c u run r hw hs hne hn hr => ?_
  unfold drawOut at hr
  unfold drawEff
  simp only at hr ⊢
  split at hr
  · cases hr
  · rename_i h1
    simp only [h1, if_false]
    cases hq : n.passOf u.vi (u.rw (u.lane (run.headD 0)).level x.dst.toNat).toNat with
    | none =>
      simp only [hq, Option.bind_none] at hr
      cases hr
    | some y =>
      obtain ⟨key, p⟩ := y
      simp only [hq, Option.bind_some] at hr ⊢
      split at hr
      · cases hr
      · rename_i h2
        simp only [not_or, not_and] at h2
        have ht : p.drawTrap (drawAsk n x c u run key) = none := by simpa using h2.1
        simp only [ht]
        simp only [Option.some.injEq] at hr
        subst hr
        have hsec : (if decide (64 ≤ p.draws.length) = true then run.filter (fun k => (u.lane k).inside) else []) = [] := by
          split
          · rename_i h3
            have h4 := h2.2 (by simpa using h3)
            simp only [Bool.not_eq_true, List.any_eq_false] at h4
            rw [List.filter_eq_nil_iff]
            exact fun k hk => by simpa using h4 k hk
          · rfl
        rw [hsec]
        obtain ⟨v, e, h3, h4⟩ := held_fold n c.wid (wordsOf (.draw x)) (.graphics (drawAsk n x c u run key).due) run u u hn rfl
        rw [hs] at e
        rw [e]
        exact ⟨rfl, v, run, rfl, h3, h4, fun k hk => by simp [holdOutcome, hk], fun k hk => hk⟩

/-- The engine instructions (R321). -/
theorem post_result {i : Instr} (h : ∀ s, exec i s = postOp i s) : PostResult i := by
  intro s c w k v m cmd hi he ha u p n hv hin hp ht
  rw [h]
  have h1 := runLanes_eq (postEff i) hi he
  rw [ha, ← issued_eq i hi.wave] at h1
  refine (show postOp i s = runLanes i s (postEff i) from rfl).trans (h1.trans ?_)
  have h2 : n.attempt p = (m.takeCommand cmd, none) := by
    unfold State.attempt
    have hw : n.wave? p.wid = some v := hv
    have hl : (v.lane p.lane).inside = false := hin
    simp only [hw, hp, ht, hl, Bool.false_and, Bool.false_eq_true, if_false]
  have h3 : postEff i (s.issued c w i) c u [k] = ⟨m.takeCommand cmd, [], [k]⟩ := by
    show postLane i c u _ _ k = _
    show (match n.attempt p with
      | (m, none) => (⟨m, [], [k]⟩ : Done)
      | (m, some t) => ⟨m, [] ++ [(k, t)], []⟩) = _
    rw [h2]
  simp only [List.isEmpty_cons, Bool.false_eq_true, if_false]
  rw [h3]
  rfl

/-- ORD.LEAVE (R357). -/
theorem ordLeave_result (x : Fields) : SectionLeft (.ordLeave x) := by
  intro s c w k hi he ha hk hin hm
  have h1 := runLanes_eq (ordLeaveEff (.ordLeave x)) hi he
  rw [ha, ← issued_eq (.ordLeave x) hi.wave] at h1
  refine (show exec (.ordLeave x) s = runLanes (.ordLeave x) s (ordLeaveEff (.ordLeave x)) from rfl).trans (h1.trans ?_)
  have h2 : ((s.noted c w (.ordLeave x)).lane k).inside = true := by
    have hlt := activeLanes_lt (i := .ordLeave x) (s := s) (c := c) (w := w) (k := k) (by rw [ha]; simp)
    rw [show (s.noted c w (.ordLeave x)).lane k = _ from lane_note w _ _ k]
    simp only [hlt, if_true]
    split <;> exact hin
  have h3 : ordLeaveEff (.ordLeave x) (s.issued c w (.ordLeave x)) c (s.noted c w (.ordLeave x)) [k] =
      ⟨(s.issued c w (.ordLeave x)).leaveSection c.wid k, [], []⟩ := by
    show ordLeaveLane (.ordLeave x) c (s.noted c w (.ordLeave x)) _ k = _
    unfold ordLeaveLane
    have hk' : (s.noted c w (.ordLeave x)).kind = .fragment := hk
    simp only [hk', ne_eq, not_true_eq_false, if_false, h2, Bool.not_true, Bool.false_eq_true, hm, if_true]
  simp only [List.isEmpty_cons, Bool.false_eq_true, if_false]
  rw [h3]
  rfl

theorem passes_leave (s : State) (wid k : Nat) : (s.leave wid k).passes = s.passes := by
  unfold State.leave
  split
  · simp only
    split <;> rfl
  · rfl

theorem passes_leaves (wid : Nat) (ks : List Nat) (s : State) : (ks.foldl (fun s k => s.leave wid k) s).passes = s.passes := by
  induction ks generalizing s with
  | nil => rfl
  | cons a t ih => rw [List.foldl_cons, ih, passes_leave]

/-- RPASS (R346). -/
theorem pass_result {i : Instr} (h : ∀ s, exec i s = rpassOp i s) : PassResult i := by
  intro s c w v m t p slot hi he ha run a n hv hc hs ho
  rw [h]
  have h1 := runLanes_eq (rpassEff i) hi he
  rw [← issued_eq i hi.wave] at h1
  constructor
  · refine (show rpassOp i s = runLanes i s (rpassEff i) from rfl).trans (h1.trans ?_)
    have h3 : rpassEff i (s.issued c w i) c (s.noted c w i) run = ⟨t, [], run⟩ := by
      have h2 : n.tryAsk (s.issued c w i).nid = (t, []) := by
        unfold State.tryAsk
        have hl : look n.gfxAsks (s.issued c w i).nid = some a := look_put_same _ _ _
        have hw : n.wave? a.wid = some v := hv
        have hd : a.draw = false := rfl
        simp only [hl, hw, hd, Bool.false_eq_true, if_false, hc, hs, ho]
      show (match n.tryAsk (s.issued c w i).nid with
        | (t, ts) => (⟨t, ts, run⟩ : Done)) = _
      rw [h2]
    simp only [List.isEmpty_iff, ha, if_false]
    rw [show s.activeLanes c w i = run from rfl, h3]
    rfl
  · unfold State.openPass at ho
    cases he : m.emptyHeads p v.core with
    | mk m2 r =>
      cases r with
      | some e => simp [he] at ho
      | none =>
        simp only [he, Prod.mk.injEq, and_true] at ho
        subst ho
        rw [passes_leaves]
        exact ⟨_, look_put_same _ _ _, rfl⟩

end Sys2Proof.Machine
end

