-- ==== Sys2Proof/Laws/Values.lean ====
section
/-! SUPPORT. Values: what the sources and results of the lane instructions are, bit by bit; the registers that a handler
entry writes; the declared registers; what a performed store leaves in memory. -/
namespace Sys2Proof.Machine
open Sys2Proof Host

theorem fetch_go (s n : State) (c : Issue) (w : Wave) (ws : List Word) (level : BitVec 2)
    (h1 : c.solo = false) (h2 : c.lanes ≠ []) (h3 : s.wave? c.wid = some w)
    (h4 : ∀ k ∈ c.lanes, (w.lane k).live = true ∧ (w.lane k).pc = c.pc ∧ (w.lane k).wait = .run)
    (h5 : level = 0 ∧ (∀ k ∈ c.lanes, (w.lane k).level = 0) ∨ level = 1 ∧ (∀ k ∈ c.lanes, (w.lane k).level ≠ 0))
    (h6 : s.fetchInstr w level c.pc.toNat = (n, .ok ws)) :
    s.fetchIssue c = ⟨n.fillBuffers c (instrOf ws) ws, some (c, instrOf ws)⟩ := by
  have hh : c.lanes.filter (fun k => (w.lane k).live && (w.lane k).pc == c.pc && (w.lane k).wait == .run) = c.lanes := by
    rw [List.filter_eq_self]
    intro k hk
    obtain ⟨a, b, d⟩ := h4 k hk
    simp [a, b, d]
  have hat : s.fetchAt c w level c.lanes = ⟨n.fillBuffers c (instrOf ws) ws, some (c, instrOf ws)⟩ := by
    unfold State.fetchAt
    rw [h6]
  obtain ⟨k, t, hl⟩ : ∃ k t, c.lanes = k :: t := by
    cases h : c.lanes with
    | nil => exact absurd h h2
    | cons k t => exact ⟨k, t, rfl⟩
  unfold State.fetchIssue
  simp only [h3, h1, Bool.false_eq_true, if_false]
  rw [hh]
  simp only [hl]
  rw [hl] at hat
  rcases h5 with ⟨e, hv⟩ | ⟨e, hv⟩
  · subst e
    have hu : (k :: t).filter (fun k => (w.lane k).level == 0) = k :: t := by
      rw [List.filter_eq_self, ← hl]; intro k hk; simp [hv k hk]
    simp only [hu, List.isEmpty_cons, Bool.false_eq_true, if_false, hat]
  · subst e
    have hu : (k :: t).filter (fun k => (w.lane k).level == 0) = [] := by
      rw [List.filter_eq_nil_iff, ← hl]; intro k hk; simpa using hv k hk
    simp only [hu, List.isEmpty_nil, if_true, hat]

theorem instrOf_ok {ws : List Word} {i : Instr} (hd : decode ws = .ok i) (hw : WellFormed i = true) : instrOf ws = i := by
  unfold instrOf
  rw [hd]
  exact if_pos hw

theorem foldl_keep {α β σ : Type} (g : σ → β) (f : σ → α → σ) (h : ∀ s a, g (f s a) = g s) (l : List α) (s : σ) : g (l.foldl f s) = g s := by
  induction l generalizing s with
  | nil => rfl
  | cons a t ih => rw [List.foldl_cons, ih, h]

theorem addCount_gt (s : State) (num index n : Nat) : (s.addCount num index n).gt = s.gt := rfl

theorem countSlice_gt (s : State) (slice vi code n : Nat) : (s.countSlice slice vi code n).gt = s.gt := by
  unfold State.countSlice
  refine foldl_keep State.gt _ (fun m a => ?_) _ s
  simp only
  rw [apply_ite State.gt, addCount_gt, ite_self]

theorem countShared_gt (s : State) (slice : Nat) (vis : List Nat) (code n : Nat) : (s.countShared slice vis code n).gt = s.gt := by
  unfold State.countShared
  refine foldl_keep State.gt _ (fun m a => ?_) _ s
  simp only
  rw [apply_ite State.gt, addCount_gt, ite_self]

theorem tick_gt (n : State) : n.tick.gt = (n.gt + 1) % 2 ^ 64 := by
  unfold State.tick
  dsimp only
  rw [foldl_keep State.gt, foldl_keep State.gt]
  · exact fun m a => countShared_gt _ _ _ _ _
  · intro m a
    rw [foldl_keep State.gt]
    exact fun m b => countSlice_gt _ _ _ _ _

theorem exec_runs (i : Instr) (h : isLane i = true) : ∃ eff, ∀ s, exec i s = runLanes i s eff := by
  cases i <;> first
    | exact absurd h (by decide)
    | exact ⟨_, fun _ => rfl⟩
    | (rename_i b _; cases b <;> exact ⟨_, fun _ => rfl⟩)

theorem filterMap_all {α β : Type} {l : List α} {f : α → Option β} {g : α → β} (h : ∀ k ∈ l, f k = some (g k)) : l.filterMap f = l.map g := by
  induction l with
  | nil => rfl
  | cons a t ih => rw [List.filterMap_cons, h a (List.mem_cons_self ..), List.map_cons, ih fun k hk => h k (List.mem_cons_of_mem _ hk)]

theorem rv_wv (l : Lane) (n r : Nat) (x : Word) : (l.wv n x).rv r = if r = n then x else l.rv r := lookD_put _ _ _ _ _

theorem emptyV_one (l : Lane) (n : Nat) : l.emptyV n 1 = has l.ve n := by simp [Lane.emptyV]

theorem has_eq {α : Type} (m : FMap α) (k : Nat) : has m k = (look m k).isSome := rfl

theorem enter_rv (l : Lane) (pc entry : DWord) (slot kind : Nat) (disc : Bool) (r : Nat) :
    (l.enter pc slot kind disc entry).rv r = if r = 13 then BitVec.ofNat 32 kind else if r = 12 then BitVec.ofNat 32 (64 * slot) else l.rv r := by
  unfold Lane.enter
  rw [rv_wv, rv_wv]
  rfl

theorem ve_wv (l : Lane) (n r : Nat) (x : Word) : look (l.wv n x).ve r = if r = n then none else look l.ve r := by
  by_cases h : r = n
  · subst h; simp [Lane.wv]
  · simp [Lane.wv, h, look_del_ne]

theorem enter_ve (l : Lane) (pc entry : DWord) (slot kind : Nat) (disc : Bool) (r : Nat) :
    look (l.enter pc slot kind disc entry).ve r = if r = 13 then none else if r = 12 then none else look l.ve r := by
  unfold Lane.enter
  rw [ve_wv, ve_wv]

theorem read2 (l : Lane) (n : Nat) : l.read n 2 = (l.rv n).toNat + 2 ^ 32 * (l.rv (n + 1)).toNat := by
  simp [Lane.read]

theorem mask_word_address {pc : DWord} (h4 : pc.toNat % 4 = 0) (h57 : pc.toNat < 2 ^ 57) : (pc &&& 0x01FFFFFFFFFFFFFC : DWord) = pc := by
  apply BitVec.eq_of_getLsbD_eq
  intro i hi
  have hm : ∀ i < 64, (0x01FFFFFFFFFFFFFC : BitVec 64).getLsbD i = decide (2 ≤ i ∧ i < 57) := by decide
  rw [BitVec.getLsbD_and, hm i hi]
  by_cases h2 : 2 ≤ i ∧ i < 57
  · simp [h2]
  · simp only [h2, decide_false, Bool.and_false]
    rw [BitVec.getLsbD, Nat.testBit_eq_decide_div_mod_eq]
    symm
    simp only [decide_eq_false_iff_not]
    by_cases h3 : 57 ≤ i
    · have : pc.toNat / 2 ^ i = 0 := Nat.div_eq_of_lt (Nat.lt_of_lt_of_le h57 (Nat.pow_le_pow_right (by decide) h3))
      omega
    · have : i = 0 ∨ i = 1 := by omega
      rcases this with e | e <;> subst e <;> simp <;> omega

theorem laneResult_congr {i : Instr} {f g : Wave → Nat → Nat × BitVec 7} (h : LaneResult i f) (e : ∀ w k, g w k = f w k) : LaneResult i g := by
  have : g = f := funext fun w => funext fun k => e w k
  rw [this]; exact h

theorem read1 (l : Lane) (n : Nat) : l.read n 1 = (l.rv n).toNat := by simp [Lane.read]

theorem opB_value {i : Instr} {a n : Nat} {x : Fields} (hx : fieldsOf i = x) (hd : (descOf i).b = .v a n) (w : Wave) (l : Lane) :
    opB i w l = l.bValue x n := by
  unfold opB srcB Lane.bValue
  rw [hx, hd]
  rfl

theorem opA_value {i : Instr} {a n : Nat} {x : Fields} (hx : fieldsOf i = x) (hd : (descOf i).a = .v a n) (w : Wave) (l : Lane) :
    opA i w l = l.read x.sa.toNat n := by
  unfold opA srcA
  rw [hx, hd]
  rfl

theorem not_value (x : Word) : (~~~ x).toNat = 2 ^ 32 - 1 - x.toNat := BitVec.toNat_not

theorem short_reg (b : BitVec 6) : (b.setWidth 8).toNat = b.toNat := by
  rw [BitVec.toNat_setWidth]
  have := b.isLt
  omega

theorem popcount_list (x n : Nat) : popcount x n = ((List.range n).filter (fun k => bit x k)).length := by
  induction n with
  | zero => rfl
  | succ n ih =>
    rw [List.range_succ, List.filter_append, List.length_append, ← ih, popcount]
    cases h : bit x n <;> simp [h]

theorem leadingZeros_spec (x n : Nat) : leadingZeros x n ≤ n ∧ (∀ k, n - leadingZeros x n ≤ k → k < n → bit x k = false) ∧
    (leadingZeros x n < n → bit x (n - 1 - leadingZeros x n) = true) := by
  induction n with
  | zero => simp [leadingZeros]
  | succ n ih =>
    obtain ⟨h1, h2, h3⟩ := ih
    rw [leadingZeros]
    by_cases hb : bit x n = true
    · simp only [hb, if_true]
      refine ⟨by omega, fun k _ _ => by omega, fun _ => by simpa using hb⟩
    · simp only [hb, Bool.false_eq_true, if_false]
      refine ⟨by omega, fun k hk hl => ?_, fun hl => ?_⟩
      · by_cases e : k = n
        · subst e; simpa using hb
        · exact h2 k (by omega) (by omega)
      · have := h3 (by omega)
        rw [show n + 1 - 1 - (1 + leadingZeros x n) = n - 1 - leadingZeros x n by omega]
        exact this

theorem bit_eq (x k : Nat) : bit x k = x.testBit k := rfl

theorem leadingZeros_zero (n : Nat) : leadingZeros 0 n = n := by
  induction n with
  | zero => rfl
  | succ n ih => rw [leadingZeros, ih, bit_eq]; simp; omega

theorem reverse_bit (x n k : Nat) (h : k < n) : bit (reverseBits x n) (n - 1 - k) = bit x k := by
  induction n with
  | zero => omega
  | succ n ih =>
    rw [reverseBits]
    by_cases e : k = n
    · subst e
      rw [show k + 1 - 1 - k = 0 by omega]
      rw [bit_eq, Nat.testBit_zero]
      cases h : bit x k <;> simp <;> omega
    · have := ih (by omega)
      rw [show n + 1 - 1 - k = (n - 1 - k) + 1 by omega, bit_eq, Nat.testBit_succ, ← this, bit_eq]
      congr 1
      split <;> omega

theorem signed_range (m x : Nat) : -(2 ^ m : Nat) ≤ signed (m + 1) x ∧ signed (m + 1) x < (2 ^ m : Nat) := by
  have h2 : 2 ^ (m + 1) = 2 * 2 ^ m := by rw [Nat.pow_succ]; omega
  have h3 : x % 2 ^ (m + 1) < 2 ^ (m + 1) := Nat.mod_lt _ (by rw [h2]; have := Nat.two_pow_pos m; omega)
  unfold signed
  generalize x % 2 ^ (m + 1) = y at h3 ⊢
  rw [h2] at h3 ⊢
  dsimp only
  by_cases h : 2 * y < 2 * 2 ^ m
  · rw [if_pos h]; omega
  · rw [if_neg h]; omega

theorem tyVal_range {ty : IntTy} (h : tySigned ty = true) (x : Nat) : tyMin ty ≤ tyVal ty x ∧ tyVal ty x ≤ tyMax ty := by
  have hb : tyBits ty = (tyBits ty - 1) + 1 := by cases ty <;> rfl
  have := signed_range (tyBits ty - 1) x
  rw [← hb] at this
  unfold tyMin tyMax tyVal
  rw [if_pos h, if_pos h, if_pos h]
  omega

theorem sat_abs {ty : IntTy} (h : tySigned ty = true) (x : Nat) :
    reduceAdd .sat ty (tyVal ty x).natAbs = (if tyVal ty x = tyMin ty then (tyPut ty (tyMax ty), fSAT) else (tyPut ty (tyVal ty x).natAbs, 0)) ∧
    reduceAdd .sat ty (-tyVal ty x) = (if tyVal ty x = tyMin ty then (tyPut ty (tyMax ty), fSAT) else (tyPut ty (-tyVal ty x), 0)) := by
  have hr := tyVal_range h x
  have h1 : tyMin ty = -tyMax ty - 1 := by cases ty <;> first | exact absurd h (by decide) | decide
  have h2 : 0 < tyMax ty := by cases ty <;> decide
  generalize tyVal ty x = v at hr ⊢
  unfold reduceAdd satFlag satTo
  by_cases e : v = tyMin ty
  · have n1 : ¬ ((v.natAbs : Int) < tyMin ty) := by omega
    have n2 : tyMax ty < (v.natAbs : Int) := by omega
    have n3 : ¬ (-v < tyMin ty) := by omega
    have n4 : tyMax ty < -v := by omega
    simp only [if_neg n1, if_pos n2, if_neg n3, if_pos n4, if_pos e]
    exact ⟨by rw [if_neg (by omega)], by rw [if_neg (by omega)]⟩
  · have n1 : ¬ ((v.natAbs : Int) < tyMin ty) := by omega
    have n2 : ¬ (tyMax ty < (v.natAbs : Int)) := by omega
    have n3 : ¬ (-v < tyMin ty) := by omega
    have n4 : ¬ (tyMax ty < -v) := by omega
    simp only [if_neg n1, if_neg n2, if_neg n3, if_neg n4, if_neg e, if_true]
    exact ⟨trivial, trivial⟩

theorem unsigned_illegal {ty : IntTy} (h : tySigned ty = false) (v : AddVar) (x : Fields) :
    legal (.iabs v ty x) = false ∧ legal (.ineg v ty x) = false := by
  have h1 : subOk (.iabs v ty x) = false := by cases ty <;> first | exact absurd h (by decide) | rfl
  have h2 : subOk (.ineg v ty x) = false := by cases ty <;> first | exact absurd h (by decide) | rfl
  constructor
  · rw [legal_eq, h1]; simp
  · rw [legal_eq, h2]; simp

theorem iabs_value (v : AddVar) (ty : IntTy) (x : Fields) (w : Wave) (k : Nat) :
    valIabs v ty (.iabs v ty x) w (w.lane k) = reduceAdd v ty (tyVal ty ((w.lane k).read x.sa.toNat (tyRegs ty))).natAbs := by
  simp only [valIabs, opA_value (x := x) (i := .iabs v ty x) (a := tyRegs ty) (n := tyRegs ty) rfl rfl]
  congr 1
  split <;> omega

theorem ineg_value (v : AddVar) (ty : IntTy) (x : Fields) (w : Wave) (k : Nat) :
    valIneg v ty (.ineg v ty x) w (w.lane k) = reduceAdd v ty (-tyVal ty ((w.lane k).read x.sa.toNat (tyRegs ty))) := by
  simp only [valIneg, opA_value (x := x) (i := .ineg v ty x) (a := tyRegs ty) (n := tyRegs ty) rfl rfl]

theorem wrap_min {ty : IntTy} (h : tySigned ty = true) : tyVal ty (tyPut ty (-tyMin ty)) = tyMin ty := by
  cases ty <;> first | exact absurd h (by decide) | decide

theorem bit_ones_high (w : Wave) (k : Nat) (h : w.width ≤ k) : bit w.ones.toNat k = false := by
  unfold Wave.ones bit
  rw [BitVec.toNat_ofNat]
  refine Nat.testBit_lt_two_pow (Nat.lt_of_le_of_lt (Nat.mod_le _ _) ?_)
  have := Nat.pow_le_pow_right (show 0 < 2 by decide) h
  have := Nat.two_pow_pos w.width
  omega

theorem rk_wk_same (w : Wave) {r : Nat} (x : DWord) (h : r ≠ 0) : (w.wk r x).rk r = x &&& w.ones := by
  unfold Wave.wk Wave.rk
  rw [if_neg h, if_neg h]
  simp [lookD]

theorem waveResult_congr {i : Instr} {f g : Issue → Wave → List Nat → Wave} (h : WaveResult i f) (e : ∀ c w k, g c w k = f c w k) : WaveResult i g := by
  have : g = f := funext fun c => funext fun w => funext fun k => e c w k
  rw [this]; exact h

theorem kop_value (op : KopOp) (a b : DWord) : dw (kopVal op a.toNat b.toNat) = (match op with
     | .and => a &&& b | .or => a ||| b | .xor => a ^^^ b | .andn => a &&& ~~~ b | .not => ~~~ a) := by
  have hn : ∀ y : DWord, ((2 ^ 64 - 1) ^^^ y.toNat : Nat) = (~~~ y).toNat := by
    intro y
    apply Nat.eq_of_testBit_eq
    intro k
    rw [Nat.testBit_xor, Nat.testBit_two_pow_sub_one]
    change (decide (k < 64) ^^ y.getLsbD k) = (~~~ y).getLsbD k
    rw [BitVec.getLsbD_not]
    by_cases h : k < 64
    · simp [h]
    · simp [h, BitVec.getLsbD_of_ge y k (by omega)]
  cases op <;> simp only [kopVal, hn, ← BitVec.toNat_and, ← BitVec.toNat_or, ← BitVec.toNat_xor, dw, BitVec.ofNat_toNat, BitVec.setWidth_eq]

theorem kclass {i : Instr} {x : Fields} (hx : fieldsOf i = x) (ha : (descOf i).a = .k) (w : Wave) (l : Lane) : opA i w l = (w.rk x.sa.toNat).toNat := by
  unfold opA srcA
  rw [hx, ha]
  rfl

theorem kclassB {i : Instr} {x : Fields} (hx : fieldsOf i = x) (ha : (descOf i).b = .k) (hf : hasLit x.form = false) (w : Wave) (l : Lane) :
    opB i w l = (w.rk x.sb.toNat).toNat := by
  unfold opB srcB
  rw [hx, ha, hf]
  rfl

theorem illegal_of_dst {i : Instr} (h : opdOk (descForm i).dst (fieldsOf i).dst = false) : legal i = false := by
  rw [legal_eq, h]; simp

theorem illegal_of_b {i : Instr} (h : opdOk (descForm i).b (fieldsOf i).sb = false) : legal i = false := by
  rw [legal_eq, h]; simp

theorem dw_toNat (x : DWord) : dw x.toNat = x := by simp [dw]

theorem laterResult_congr {i : Instr} {f g : Wave → List Nat → Fill} (h : LaterResult i f) (e : ∀ w k, g w k = f w k) : LaterResult i g := by
  have : g = f := funext fun w => funext fun k => e w k
  rw [this]; exact h

theorem opB_reg {i : Instr} {a n : Nat} {x : Fields} (hx : fieldsOf i = x) (hd : (descOf i).b = .v a n) (hf : hasLit x.form = false) (w : Wave) (l : Lane) :
    opB i w l = l.read x.sb.toNat n := by
  unfold opB srcB
  rw [hx, hd, hf]
  rfl

theorem opB_wreg {i : Instr} {x : Fields} (hx : fieldsOf i = x) (hd : (descOf i).b = .w) (hf : hasLit x.form = false) (w : Wave) (l : Lane) :
    opB i w l = (w.rw l.level x.sb.toNat).toNat := by
  unfold opB srcB
  rw [hx, hd, hf]
  rfl

theorem zip_map_snd {β : Type} (l : List Nat) (run : List Nat) (h : l.length = run.length) (f : Nat → β) : (l.zip run).map (fun p => f p.2) = run.map f := by
  induction l generalizing run with
  | nil => cases run with
    | nil => rfl
    | cons => simp at h
  | cons a t ih => cases run with
    | nil => simp at h
    | cons b r => simp only [List.zip_cons_cons, List.map_cons, ih r (by simpa using h)]

theorem rowOf_map {β : Type} (i : Instr) (u : Wave) (run : List Nat) (f : Nat → Nat → Nat → Nat → β) :
    (rowOf i u run).map (fun p => f p.1 p.2.1 p.2.2.1 p.2.2.2) =
      ((List.range run.length).zip run).map (fun p => f p.1 p.2 (opA i u (u.lane p.2)) (opB i u (u.lane p.2))) := by
  unfold rowOf
  rw [List.zip_map_right, List.map_map]
  rfl

theorem sum_fold {α : Type} (f : α → Nat) (l : List α) (n : Nat) : l.foldl (fun n x => n + f x) n = (l.map f).foldl (· + ·) n := by
  induction l generalizing n with
  | nil => rfl
  | cons a t ih => simp only [List.foldl_cons, List.map_cons, ih]

theorem row_take (i : Instr) (u : Wave) (run : List Nat) (j : Nat) :
    (((rowOf i u run).take j).map (fun y => popcount y.2.2.1 32)) = (run.take j).map (fun k => popcount (opA i u (u.lane k)) 32) := by
  rw [List.map_take, rowOf_map i u run (fun _ _ a _ => popcount a 32),
    zip_map_snd _ _ (by simp) (fun k => popcount (opA i u (u.lane k)) 32), ← List.map_take]

def opdPos : Opd → Bool
  | .v _ n => decide (0 < n)
  | _ => true

theorem opk_pos (x : Fields) : opdPos (opkOpd x) = true := by
  unfold opkOpd
  split
  · rfl
  · split <;> rfl

theorem pos_all (i : Instr) (h : isLane i = true) : (opdPos (descForm i).dst && opdPos (descForm i).a && opdPos (descForm i).b && opdPos (descForm i).c) = true := by
  cases i <;> first
    | rfl
    | exact absurd h (by decide)
    | (rename_i a _; cases a <;> rfl)
    | (rename_i a b _; cases b <;> rfl)
    | (rename_i a b _; cases a <;> rfl)
    | (rename_i a b _; cases a <;> cases b <;> rfl)
    | (rename_i x; change (true && opdPos (opkOpd x) && true && true) = true; rw [opk_pos]; rfl)
    | (rename_i m x; change (opdPos .t && opdPos .w && opdPos (if x.w2.getLsbD 28 = true then Opd.k else Opd.zero) && opdPos .zero) = true
       cases x.w2.getLsbD 28 <;> rfl)
    | (rename_i m x; change (opdPos .t && opdPos .w && opdPos (if x.w2.getLsbD 28 = true then Opd.k else Opd.zero) && opdPos .w) = true
       cases x.w2.getLsbD 28 <;> rfl)

theorem belowDecl_iff {o : Opd} (hp : opdPos o = true) (f : BitVec 8) (n : Nat) : belowDecl o f n = true ↔ ∀ r ∈ o.laneRegs f, r < n := by
  cases o with
  | v a c =>
    have hc : 0 < c := by simpa [opdPos] using hp
    simp only [belowDecl, decide_eq_true_eq, Opd.laneRegs, List.mem_map, List.mem_range]
    constructor
    · rintro h r ⟨k, hk, rfl⟩; omega
    · intro h; have := h (f.toNat + (c - 1)) ⟨c - 1, by omega, rfl⟩; omega
  | _ => simp [belowDecl, Opd.laneRegs]

theorem mf_pos {mf : MF} (h : mfCode mf ≠ 8) : 0 < mfBytes mf := by cases mf <;> first | exact absurd rfl h | decide

theorem span_iff {a c n : Nat} (hc : 0 < c) : (decide (a + c ≤ n)) = true ↔ ∀ r ∈ (List.range c).map (fun k => a + k), r < n := by
  simp only [decide_eq_true_eq, List.mem_map, List.mem_range]
  constructor
  · rintro h r ⟨k, hk, rfl⟩; omega
  · intro h; have := h (a + (c - 1)) ⟨c - 1, by omega, rfl⟩; omega

theorem span_if {a c n : Nat} (hc : 0 < c) (b : Bool) :
    ((b || decide (a + c ≤ n)) = true) ↔ ∀ r ∈ (if b then [] else (List.range c).map (fun k => a + k)), r < n := by
  cases b
  · rw [Bool.false_or]; exact span_iff hc
  · simp

theorem subOk_of {i : Instr} (h : legal i = true) : subOk i = true := by
  rw [legal_eq] at h
  simp only [Bool.and_eq_true] at h
  exact h.1.1.1.1.1.1.1.1.2

theorem isLane_of {i : Instr} (h : legal i = true) : isLane i = true := by
  rw [legal_eq] at h
  simp only [Bool.and_eq_true] at h
  exact h.1.1.1.1.1.1.1.1.1

theorem declOk_iff {i : Instr} (hl : legal i = true) (n : Nat) : declOk i n = true ↔ ∀ r ∈ laneRegsNamed i, r < n := by
  have hp := pos_all i (isLane_of hl)
  have hs := subOk_of hl
  simp only [Bool.and_eq_true] at hp
  obtain ⟨⟨⟨p1, p2⟩, p3⟩, p4⟩ := hp
  unfold declOk laneRegsNamed
  dsimp only
  simp only [Bool.and_eq_true, belowDecl_iff p1, belowDecl_iff p2, belowDecl_iff p4, List.mem_append, or_imp, forall_and, and_assoc]
  refine and_congr Iff.rfl (and_congr Iff.rfl ?_)
  have h3 : ((hasLit (fieldsOf i).form || belowDecl (descForm i).b (fieldsOf i).sb n) = true) ↔
      ∀ r ∈ (if hasLit (fieldsOf i).form then [] else (descForm i).b.laneRegs (fieldsOf i).sb), r < n := by
    cases hasLit (fieldsOf i).form
    · simpa using belowDecl_iff p3 _ _
    · simp
  refine and_congr h3 (and_congr Iff.rfl ?_)
  split
  · exact span_iff (by decide)
  · rename_i mf y
    have hm : 0 < 32 * mfBytes mf := by have := mf_pos (mf := mf) (by have : mfCode mf ≤ 5 := by simpa [subOk] using hs
                                                                      omega); omega
    exact span_if hm _
  · rename_i mf y
    have hm : 0 < 32 * mfBytes mf := by have := mf_pos (mf := mf) (by have : mfCode mf = 4 ∨ mfCode mf = 5 := by simpa [subOk] using hs
                                                                      omega); omega
    exact span_if hm _
  · rename_i mf y
    have hm : 0 < 32 * mfBytes mf := by have := mf_pos (mf := mf) (by have : mfCode mf = 6 ∨ mfCode mf = 7 := by simpa [subOk] using hs
                                                                      omega); omega
    exact span_if hm _
  · simp

theorem foldl_id {α σ : Type} {f : σ → α → σ} {s : σ} {l : List α} (h : ∀ a ∈ l, f s a = s) : l.foldl f s = s := by
  induction l with
  | nil => rfl
  | cons a t ih => rw [List.foldl_cons, h a (List.mem_cons_self ..)]; exact ih fun b hb => h b (List.mem_cons_of_mem _ hb)

theorem foldl_collect {α β σ : Type} {F : σ × List β → α → σ × List β} {s : σ} {g : α → β} (h : ∀ bs k, F (s, bs) k = (s, bs ++ [g k]))
    (l : List α) (bs : List β) : l.foldl F (s, bs) = (s, bs ++ l.map g) := by
  induction l generalizing bs with
  | nil => simp
  | cons a t ih => rw [List.foldl_cons, h, ih]; simp

theorem tornBytes_clean (s : State) (o : Op) (f : Nat → Byte) (h : o.torn = []) :
    s.tornBytes o f = (s, (List.range o.size).map (fun k => f (o.pa + k))) := by
  have ht : ∀ a, o.tornAt a = false := by intro a; unfold Op.tornAt; rw [h]; rfl
  unfold State.tornBytes
  refine (foldl_collect (g := fun k => f (o.pa + k)) (fun bs k => ?_) _ []).trans (by simp)
  simp only [ht, Bool.false_eq_true, if_false]

theorem spoilPool_none (s : State) (o : Op) (h : ∀ p ∈ s.passes, p.2.vi ≠ o.vi) : s.spoilPool o = s := by
  unfold State.spoilPool
  exact foldl_id fun p hp => if_neg (h p hp)

theorem markLeaf_eq (s t : State) (a : Nat) : ∃ x, s.markLeaf t a = { t with leaves := x } := by
  unfold State.markLeaf
  dsimp only
  split
  · split
    · exact ⟨t.leaves, rfl⟩
    · exact ⟨_, rfl⟩
  · split
    · split
      · exact ⟨_, rfl⟩
      · exact ⟨t.leaves, rfl⟩
    · exact ⟨t.leaves, rfl⟩

/-- Marking leaves changes the leaf table alone. -/
theorem markLeaves_eq (s t : State) (pa n : Nat) : s.markLeaves pa n t = { t with leaves := (s.markLeaves pa n t).leaves } := by
  unfold State.markLeaves
  generalize (List.range ((pa % 8 + n + 7) / 8)).map (fun k => pa / 8 * 8 + 8 * k) = l
  induction l generalizing t with
  | nil => rfl
  | cons a l ih =>
    rw [List.foldl_cons]
    obtain ⟨x, h⟩ := markLeaf_eq s t a
    rw [ih, h]

theorem storeBytes_mem (s : State) (pa : Nat) (bs : List Byte) :
    (s.storeBytes pa bs).mem = Memory.writes s.mem pa bs ∧ (s.storeBytes pa bs).passes = s.passes := by
  unfold State.storeBytes
  dsimp only
  rw [markLeaves_eq]
  exact ⟨rfl, rfl⟩

theorem performStore_mem (s : State) (id : Nat) (o : Op) (hm : s.mixedWith id o = []) (ht : o.torn = []) (hp : ∀ p ∈ s.passes, p.2.vi ≠ o.vi) :
    (s.performStore id o).mem = Memory.writes s.mem o.pa ((List.range o.size).map (fun k => o.byte (o.pa + k))) := by
  unfold State.performStore State.tear
  rw [hm]
  simp only [List.foldl_nil, tornBytes_clean s o _ ht]
  rw [spoilPool_none (s.storeBytes o.pa ((List.range o.size).map (fun k => o.byte (o.pa + k)))) o (by rw [(storeBytes_mem ..).2]; exact hp)]
  rw [show ∀ t : State, ((t.forget o).endStore id o).mem = t.mem from fun t => by unfold State.endStore; split <;> rfl]
  exact (storeBytes_mem ..).1

theorem settleOps_mem (s : State) : s.settleOps.mem = s.mem := rfl

theorem sysPut_noc (s : State) (n i v : Nat) : (s.sysPut n i v).noc = s.noc ∧ (s.sysPut n i v).occ = s.occ := ⟨rfl, rfl⟩

theorem countSlice_both (s : State) (slice vi code n : Nat) :
    (s.countSlice slice vi code n).noc = s.noc ∧ (s.countSlice slice vi code n).occ = s.occ := by
  unfold State.countSlice
  generalize List.range 16 = l
  induction l generalizing s with
  | nil => exact ⟨rfl, rfl⟩
  | cons a t ih =>
    rw [List.foldl_cons]
    refine ⟨(ih _).1.trans ?_, (ih _).2.trans ?_⟩ <;> simp only <;> split <;> rfl

theorem countSlice_noc (s : State) (slice vi code n : Nat) : (s.countSlice slice vi code n).noc = s.noc := (countSlice_both s slice vi code n).1

theorem countSlice_occ (s : State) (slice vi code n : Nat) : (s.countSlice slice vi code n).occ = s.occ := (countSlice_both s slice vi code n).2

end Sys2Proof.Machine
end

