-- ==== Sys2Proof/Laws/State.lean ====
section
/-! SUPPORT. State: what each update of the state leaves in each field, by computation, so that no later proof unfolds a
record update. -/
namespace Sys2Proof.Machine
open Sys2Proof Host
@[simp] theorem State.setWave_gt (s : State) (wid : Nat) (w : Wave) : (s.setWave wid w).gt = s.gt := rfl
@[simp] theorem State.setWave_closing (s : State) (wid : Nat) (w : Wave) : (s.setWave wid w).closing = s.closing := rfl
@[simp] theorem State.setWave_ctr (s : State) (wid : Nat) (w : Wave) : (s.setWave wid w).ctr = s.ctr := rfl
@[simp] theorem State.setWave_nid (s : State) (wid : Nat) (w : Wave) : (s.setWave wid w).nid = s.nid := rfl
@[simp] theorem State.setWave_cur (s : State) (wid : Nat) (w : Wave) : (s.setWave wid w).cur = s.cur := rfl
@[simp] theorem State.setWave_issues (s : State) (wid : Nat) (w : Wave) : (s.setWave wid w).issues = s.issues := rfl
@[simp] theorem State.setWave_occ (s : State) (wid : Nat) (w : Wave) : (s.setWave wid w).occ = s.occ := rfl
@[simp] theorem State.setWave_inputs (s : State) (wid : Nat) (w : Wave) : (s.setWave wid w).inputs = s.inputs := rfl
@[simp] theorem State.setWave_out (s : State) (wid : Nat) (w : Wave) : (s.setWave wid w).out = s.out := rfl
@[simp] theorem State.setWave_mem (s : State) (wid : Nat) (w : Wave) : (s.setWave wid w).mem = s.mem := rfl
@[simp] theorem State.setWave_poison (s : State) (wid : Nat) (w : Wave) : (s.setWave wid w).poison = s.poison := rfl
@[simp] theorem State.setWave_sys (s : State) (wid : Nat) (w : Wave) : (s.setWave wid w).sys = s.sys := rfl
@[simp] theorem State.setWave_measExt (s : State) (wid : Nat) (w : Wave) : (s.setWave wid w).measExt = s.measExt := rfl
@[simp] theorem State.setWave_histSaved (s : State) (wid : Nat) (w : Wave) : (s.setWave wid w).histSaved = s.histSaved := rfl
@[simp] theorem State.setWave_hist (s : State) (wid : Nat) (w : Wave) : (s.setWave wid w).hist = s.hist := rfl
@[simp] theorem State.setWave_corrected (s : State) (wid : Nat) (w : Wave) : (s.setWave wid w).corrected = s.corrected := rfl
@[simp] theorem State.setWave_seconds (s : State) (wid : Nat) (w : Wave) : (s.setWave wid w).seconds = s.seconds := rfl
@[simp] theorem State.setWave_second (s : State) (wid : Nat) (w : Wave) : (s.setWave wid w).second = s.second := rfl
@[simp] theorem State.setWave_tenMinutes (s : State) (wid : Nat) (w : Wave) : (s.setWave wid w).tenMinutes = s.tenMinutes := rfl
@[simp] theorem State.setWave_hot (s : State) (wid : Nat) (w : Wave) : (s.setWave wid w).hot = s.hot := rfl
@[simp] theorem State.setWave_unrecorded (s : State) (wid : Nat) (w : Wave) : (s.setWave wid w).unrecorded = s.unrecorded := rfl
@[simp] theorem State.setWave_ptpRun (s : State) (wid : Nat) (w : Wave) : (s.setWave wid w).ptpRun = s.ptpRun := rfl
@[simp] theorem State.setWave_streams (s : State) (wid : Nat) (w : Wave) : (s.setWave wid w).streams = s.streams := rfl
@[simp] theorem State.setWave_fabricDown (s : State) (wid : Nat) (w : Wave) : (s.setWave wid w).fabricDown = s.fabricDown := rfl
@[simp] theorem State.setWave_portSent (s : State) (wid : Nat) (w : Wave) : (s.setWave wid w).portSent = s.portSent := rfl
@[simp] theorem State.setWave_clocks (s : State) (wid : Nat) (w : Wave) : (s.setWave wid w).clocks = s.clocks := rfl
@[simp] theorem State.setWave_peerHeard (s : State) (wid : Nat) (w : Wave) : (s.setWave wid w).peerHeard = s.peerHeard := rfl
@[simp] theorem State.setWave_lineport (s : State) (wid : Nat) (w : Wave) : (s.setWave wid w).lineport = s.lineport := rfl
@[simp] theorem State.setWave_noc (s : State) (wid : Nat) (w : Wave) : (s.setWave wid w).noc = s.noc := rfl
@[simp] theorem State.setWave_boot (s : State) (wid : Nat) (w : Wave) : (s.setWave wid w).boot = s.boot := rfl
@[simp] theorem State.setWave_identity (s : State) (wid : Nat) (w : Wave) : (s.setWave wid w).identity = s.identity := rfl
@[simp] theorem State.setWave_power (s : State) (wid : Nat) (w : Wave) : (s.setWave wid w).power = s.power := rfl
@[simp] theorem State.setWave_cores (s : State) (wid : Nat) (w : Wave) : (s.setWave wid w).cores = s.cores := rfl
@[simp] theorem State.setWave_waves (s : State) (wid : Nat) (w : Wave) : (s.setWave wid w).waves = put s.waves wid w := rfl
@[simp] theorem State.setWave_spad (s : State) (wid : Nat) (w : Wave) : (s.setWave wid w).spad = s.spad := rfl
@[simp] theorem State.setWave_fifo (s : State) (wid : Nat) (w : Wave) : (s.setWave wid w).fifo = s.fifo := rfl
@[simp] theorem State.setWave_switches (s : State) (wid : Nat) (w : Wave) : (s.setWave wid w).switches = s.switches := rfl
@[simp] theorem State.setWave_ops (s : State) (wid : Nat) (w : Wave) : (s.setWave wid w).ops = s.ops := rfl
@[simp] theorem State.setWave_relAt (s : State) (wid : Nat) (w : Wave) : (s.setWave wid w).relAt = s.relAt := rfl
@[simp] theorem State.setWave_fills (s : State) (wid : Nat) (w : Wave) : (s.setWave wid w).fills = s.fills := rfl
@[simp] theorem State.setWave_barriers (s : State) (wid : Nat) (w : Wave) : (s.setWave wid w).barriers = s.barriers := rfl
@[simp] theorem State.setWave_jobs (s : State) (wid : Nat) (w : Wave) : (s.setWave wid w).jobs = s.jobs := rfl
@[simp] theorem State.setWave_cqHeld (s : State) (wid : Nat) (w : Wave) : (s.setWave wid w).cqHeld = s.cqHeld := rfl
@[simp] theorem State.setWave_issuers (s : State) (wid : Nat) (w : Wave) : (s.setWave wid w).issuers = s.issuers := rfl
@[simp] theorem State.setWave_formed (s : State) (wid : Nat) (w : Wave) : (s.setWave wid w).formed = s.formed := rfl
@[simp] theorem State.setWave_spawns (s : State) (wid : Nat) (w : Wave) : (s.setWave wid w).spawns = s.spawns := rfl
@[simp] theorem State.setWave_versions (s : State) (wid : Nat) (w : Wave) : (s.setWave wid w).versions = s.versions := rfl
@[simp] theorem State.setWave_readers (s : State) (wid : Nat) (w : Wave) : (s.setWave wid w).readers = s.readers := rfl
@[simp] theorem State.setWave_held (s : State) (wid : Nat) (w : Wave) : (s.setWave wid w).held = s.held := rfl
@[simp] theorem State.setWave_tills (s : State) (wid : Nat) (w : Wave) : (s.setWave wid w).tills = s.tills := rfl
@[simp] theorem State.setWave_tillMsgs (s : State) (wid : Nat) (w : Wave) : (s.setWave wid w).tillMsgs = s.tillMsgs := rfl
@[simp] theorem State.setWave_cmds (s : State) (wid : Nat) (w : Wave) : (s.setWave wid w).cmds = s.cmds := rfl
@[simp] theorem State.setWave_postings (s : State) (wid : Nat) (w : Wave) : (s.setWave wid w).postings = s.postings := rfl
@[simp] theorem State.setWave_promises (s : State) (wid : Nat) (w : Wave) : (s.setWave wid w).promises = s.promises := rfl
@[simp] theorem State.setWave_passes (s : State) (wid : Nat) (w : Wave) : (s.setWave wid w).passes = s.passes := rfl
@[simp] theorem State.setWave_opens (s : State) (wid : Nat) (w : Wave) : (s.setWave wid w).opens = s.opens := rfl
@[simp] theorem State.setWave_gfxAsks (s : State) (wid : Nat) (w : Wave) : (s.setWave wid w).gfxAsks = s.gfxAsks := rfl
@[simp] theorem State.setWave_gfx (s : State) (wid : Nat) (w : Wave) : (s.setWave wid w).gfx = s.gfx := rfl
@[simp] theorem State.setWave_trapReqs (s : State) (wid : Nat) (w : Wave) : (s.setWave wid w).trapReqs = s.trapReqs := rfl
@[simp] theorem State.setWave_eventReqs (s : State) (wid : Nat) (w : Wave) : (s.setWave wid w).eventReqs = s.eventReqs := rfl
@[simp] theorem State.setWave_holders (s : State) (wid : Nat) (w : Wave) : (s.setWave wid w).holders = s.holders := rfl
@[simp] theorem State.setWave_saved (s : State) (wid : Nat) (w : Wave) : (s.setWave wid w).saved = s.saved := rfl
@[simp] theorem State.setWave_dropped (s : State) (wid : Nat) (w : Wave) : (s.setWave wid w).dropped = s.dropped := rfl
@[simp] theorem State.setWave_tlb (s : State) (wid : Nat) (w : Wave) : (s.setWave wid w).tlb = s.tlb := rfl
@[simp] theorem State.setWave_ptrs (s : State) (wid : Nat) (w : Wave) : (s.setWave wid w).ptrs = s.ptrs := rfl
@[simp] theorem State.setWave_leaves (s : State) (wid : Nat) (w : Wave) : (s.setWave wid w).leaves = s.leaves := rfl
@[simp] theorem State.setWave_transit (s : State) (wid : Nat) (w : Wave) : (s.setWave wid w).transit = s.transit := rfl
@[simp] theorem State.setWave_stall (s : State) (wid : Nat) (w : Wave) : (s.setWave wid w).stall = s.stall := rfl
@[simp] theorem State.setWave_reported (s : State) (wid : Nat) (w : Wave) : (s.setWave wid w).reported = s.reported := rfl
@[simp] theorem State.setWave_scanAt (s : State) (wid : Nat) (w : Wave) : (s.setWave wid w).scanAt = s.scanAt := rfl
@[simp] theorem State.modWave_gt (s : State) (wid : Nat) (f : Wave → Wave) : (s.modWave wid f).gt = s.gt := rfl
@[simp] theorem State.modWave_closing (s : State) (wid : Nat) (f : Wave → Wave) : (s.modWave wid f).closing = s.closing := rfl
@[simp] theorem State.modWave_ctr (s : State) (wid : Nat) (f : Wave → Wave) : (s.modWave wid f).ctr = s.ctr := rfl
@[simp] theorem State.modWave_nid (s : State) (wid : Nat) (f : Wave → Wave) : (s.modWave wid f).nid = s.nid := rfl
@[simp] theorem State.modWave_cur (s : State) (wid : Nat) (f : Wave → Wave) : (s.modWave wid f).cur = s.cur := rfl
@[simp] theorem State.modWave_issues (s : State) (wid : Nat) (f : Wave → Wave) : (s.modWave wid f).issues = s.issues := rfl
@[simp] theorem State.modWave_occ (s : State) (wid : Nat) (f : Wave → Wave) : (s.modWave wid f).occ = s.occ := rfl
@[simp] theorem State.modWave_inputs (s : State) (wid : Nat) (f : Wave → Wave) : (s.modWave wid f).inputs = s.inputs := rfl
@[simp] theorem State.modWave_out (s : State) (wid : Nat) (f : Wave → Wave) : (s.modWave wid f).out = s.out := rfl
@[simp] theorem State.modWave_mem (s : State) (wid : Nat) (f : Wave → Wave) : (s.modWave wid f).mem = s.mem := rfl
@[simp] theorem State.modWave_poison (s : State) (wid : Nat) (f : Wave → Wave) : (s.modWave wid f).poison = s.poison := rfl
@[simp] theorem State.modWave_sys (s : State) (wid : Nat) (f : Wave → Wave) : (s.modWave wid f).sys = s.sys := rfl
@[simp] theorem State.modWave_measExt (s : State) (wid : Nat) (f : Wave → Wave) : (s.modWave wid f).measExt = s.measExt := rfl
@[simp] theorem State.modWave_histSaved (s : State) (wid : Nat) (f : Wave → Wave) : (s.modWave wid f).histSaved = s.histSaved := rfl
@[simp] theorem State.modWave_hist (s : State) (wid : Nat) (f : Wave → Wave) : (s.modWave wid f).hist = s.hist := rfl
@[simp] theorem State.modWave_corrected (s : State) (wid : Nat) (f : Wave → Wave) : (s.modWave wid f).corrected = s.corrected := rfl
@[simp] theorem State.modWave_seconds (s : State) (wid : Nat) (f : Wave → Wave) : (s.modWave wid f).seconds = s.seconds := rfl
@[simp] theorem State.modWave_second (s : State) (wid : Nat) (f : Wave → Wave) : (s.modWave wid f).second = s.second := rfl
@[simp] theorem State.modWave_tenMinutes (s : State) (wid : Nat) (f : Wave → Wave) : (s.modWave wid f).tenMinutes = s.tenMinutes := rfl
@[simp] theorem State.modWave_hot (s : State) (wid : Nat) (f : Wave → Wave) : (s.modWave wid f).hot = s.hot := rfl
@[simp] theorem State.modWave_unrecorded (s : State) (wid : Nat) (f : Wave → Wave) : (s.modWave wid f).unrecorded = s.unrecorded := rfl
@[simp] theorem State.modWave_ptpRun (s : State) (wid : Nat) (f : Wave → Wave) : (s.modWave wid f).ptpRun = s.ptpRun := rfl
@[simp] theorem State.modWave_streams (s : State) (wid : Nat) (f : Wave → Wave) : (s.modWave wid f).streams = s.streams := rfl
@[simp] theorem State.modWave_fabricDown (s : State) (wid : Nat) (f : Wave → Wave) : (s.modWave wid f).fabricDown = s.fabricDown := rfl
@[simp] theorem State.modWave_portSent (s : State) (wid : Nat) (f : Wave → Wave) : (s.modWave wid f).portSent = s.portSent := rfl
@[simp] theorem State.modWave_clocks (s : State) (wid : Nat) (f : Wave → Wave) : (s.modWave wid f).clocks = s.clocks := rfl
@[simp] theorem State.modWave_peerHeard (s : State) (wid : Nat) (f : Wave → Wave) : (s.modWave wid f).peerHeard = s.peerHeard := rfl
@[simp] theorem State.modWave_lineport (s : State) (wid : Nat) (f : Wave → Wave) : (s.modWave wid f).lineport = s.lineport := rfl
@[simp] theorem State.modWave_noc (s : State) (wid : Nat) (f : Wave → Wave) : (s.modWave wid f).noc = s.noc := rfl
@[simp] theorem State.modWave_boot (s : State) (wid : Nat) (f : Wave → Wave) : (s.modWave wid f).boot = s.boot := rfl
@[simp] theorem State.modWave_identity (s : State) (wid : Nat) (f : Wave → Wave) : (s.modWave wid f).identity = s.identity := rfl
@[simp] theorem State.modWave_power (s : State) (wid : Nat) (f : Wave → Wave) : (s.modWave wid f).power = s.power := rfl
@[simp] theorem State.modWave_cores (s : State) (wid : Nat) (f : Wave → Wave) : (s.modWave wid f).cores = s.cores := rfl
@[simp] theorem State.modWave_waves (s : State) (wid : Nat) (f : Wave → Wave) : (s.modWave wid f).waves = modKey s.waves wid f := rfl
@[simp] theorem State.modWave_spad (s : State) (wid : Nat) (f : Wave → Wave) : (s.modWave wid f).spad = s.spad := rfl
@[simp] theorem State.modWave_fifo (s : State) (wid : Nat) (f : Wave → Wave) : (s.modWave wid f).fifo = s.fifo := rfl
@[simp] theorem State.modWave_switches (s : State) (wid : Nat) (f : Wave → Wave) : (s.modWave wid f).switches = s.switches := rfl
@[simp] theorem State.modWave_ops (s : State) (wid : Nat) (f : Wave → Wave) : (s.modWave wid f).ops = s.ops := rfl
@[simp] theorem State.modWave_relAt (s : State) (wid : Nat) (f : Wave → Wave) : (s.modWave wid f).relAt = s.relAt := rfl
@[simp] theorem State.modWave_fills (s : State) (wid : Nat) (f : Wave → Wave) : (s.modWave wid f).fills = s.fills := rfl
@[simp] theorem State.modWave_barriers (s : State) (wid : Nat) (f : Wave → Wave) : (s.modWave wid f).barriers = s.barriers := rfl
@[simp] theorem State.modWave_jobs (s : State) (wid : Nat) (f : Wave → Wave) : (s.modWave wid f).jobs = s.jobs := rfl
@[simp] theorem State.modWave_cqHeld (s : State) (wid : Nat) (f : Wave → Wave) : (s.modWave wid f).cqHeld = s.cqHeld := rfl
@[simp] theorem State.modWave_issuers (s : State) (wid : Nat) (f : Wave → Wave) : (s.modWave wid f).issuers = s.issuers := rfl
@[simp] theorem State.modWave_formed (s : State) (wid : Nat) (f : Wave → Wave) : (s.modWave wid f).formed = s.formed := rfl
@[simp] theorem State.modWave_spawns (s : State) (wid : Nat) (f : Wave → Wave) : (s.modWave wid f).spawns = s.spawns := rfl
@[simp] theorem State.modWave_versions (s : State) (wid : Nat) (f : Wave → Wave) : (s.modWave wid f).versions = s.versions := rfl
@[simp] theorem State.modWave_readers (s : State) (wid : Nat) (f : Wave → Wave) : (s.modWave wid f).readers = s.readers := rfl
@[simp] theorem State.modWave_held (s : State) (wid : Nat) (f : Wave → Wave) : (s.modWave wid f).held = s.held := rfl
@[simp] theorem State.modWave_tills (s : State) (wid : Nat) (f : Wave → Wave) : (s.modWave wid f).tills = s.tills := rfl
@[simp] theorem State.modWave_tillMsgs (s : State) (wid : Nat) (f : Wave → Wave) : (s.modWave wid f).tillMsgs = s.tillMsgs := rfl
@[simp] theorem State.modWave_cmds (s : State) (wid : Nat) (f : Wave → Wave) : (s.modWave wid f).cmds = s.cmds := rfl
@[simp] theorem State.modWave_postings (s : State) (wid : Nat) (f : Wave → Wave) : (s.modWave wid f).postings = s.postings := rfl
@[simp] theorem State.modWave_promises (s : State) (wid : Nat) (f : Wave → Wave) : (s.modWave wid f).promises = s.promises := rfl
@[simp] theorem State.modWave_passes (s : State) (wid : Nat) (f : Wave → Wave) : (s.modWave wid f).passes = s.passes := rfl
@[simp] theorem State.modWave_opens (s : State) (wid : Nat) (f : Wave → Wave) : (s.modWave wid f).opens = s.opens := rfl
@[simp] theorem State.modWave_gfxAsks (s : State) (wid : Nat) (f : Wave → Wave) : (s.modWave wid f).gfxAsks = s.gfxAsks := rfl
@[simp] theorem State.modWave_gfx (s : State) (wid : Nat) (f : Wave → Wave) : (s.modWave wid f).gfx = s.gfx := rfl
@[simp] theorem State.modWave_trapReqs (s : State) (wid : Nat) (f : Wave → Wave) : (s.modWave wid f).trapReqs = s.trapReqs := rfl
@[simp] theorem State.modWave_eventReqs (s : State) (wid : Nat) (f : Wave → Wave) : (s.modWave wid f).eventReqs = s.eventReqs := rfl
@[simp] theorem State.modWave_holders (s : State) (wid : Nat) (f : Wave → Wave) : (s.modWave wid f).holders = s.holders := rfl
@[simp] theorem State.modWave_saved (s : State) (wid : Nat) (f : Wave → Wave) : (s.modWave wid f).saved = s.saved := rfl
@[simp] theorem State.modWave_dropped (s : State) (wid : Nat) (f : Wave → Wave) : (s.modWave wid f).dropped = s.dropped := rfl
@[simp] theorem State.modWave_tlb (s : State) (wid : Nat) (f : Wave → Wave) : (s.modWave wid f).tlb = s.tlb := rfl
@[simp] theorem State.modWave_ptrs (s : State) (wid : Nat) (f : Wave → Wave) : (s.modWave wid f).ptrs = s.ptrs := rfl
@[simp] theorem State.modWave_leaves (s : State) (wid : Nat) (f : Wave → Wave) : (s.modWave wid f).leaves = s.leaves := rfl
@[simp] theorem State.modWave_transit (s : State) (wid : Nat) (f : Wave → Wave) : (s.modWave wid f).transit = s.transit := rfl
@[simp] theorem State.modWave_stall (s : State) (wid : Nat) (f : Wave → Wave) : (s.modWave wid f).stall = s.stall := rfl
@[simp] theorem State.modWave_reported (s : State) (wid : Nat) (f : Wave → Wave) : (s.modWave wid f).reported = s.reported := rfl
@[simp] theorem State.modWave_scanAt (s : State) (wid : Nat) (f : Wave → Wave) : (s.modWave wid f).scanAt = s.scanAt := rfl
@[simp] theorem State.setCore_gt (s : State) (c : Nat) (x : Core) : (s.setCore c x).gt = s.gt := rfl
@[simp] theorem State.setCore_closing (s : State) (c : Nat) (x : Core) : (s.setCore c x).closing = s.closing := rfl
@[simp] theorem State.setCore_ctr (s : State) (c : Nat) (x : Core) : (s.setCore c x).ctr = s.ctr := rfl
@[simp] theorem State.setCore_nid (s : State) (c : Nat) (x : Core) : (s.setCore c x).nid = s.nid := rfl
@[simp] theorem State.setCore_cur (s : State) (c : Nat) (x : Core) : (s.setCore c x).cur = s.cur := rfl
@[simp] theorem State.setCore_issues (s : State) (c : Nat) (x : Core) : (s.setCore c x).issues = s.issues := rfl
@[simp] theorem State.setCore_occ (s : State) (c : Nat) (x : Core) : (s.setCore c x).occ = s.occ := rfl
@[simp] theorem State.setCore_inputs (s : State) (c : Nat) (x : Core) : (s.setCore c x).inputs = s.inputs := rfl
@[simp] theorem State.setCore_out (s : State) (c : Nat) (x : Core) : (s.setCore c x).out = s.out := rfl
@[simp] theorem State.setCore_mem (s : State) (c : Nat) (x : Core) : (s.setCore c x).mem = s.mem := rfl
@[simp] theorem State.setCore_poison (s : State) (c : Nat) (x : Core) : (s.setCore c x).poison = s.poison := rfl
@[simp] theorem State.setCore_sys (s : State) (c : Nat) (x : Core) : (s.setCore c x).sys = s.sys := rfl
@[simp] theorem State.setCore_measExt (s : State) (c : Nat) (x : Core) : (s.setCore c x).measExt = s.measExt := rfl
@[simp] theorem State.setCore_histSaved (s : State) (c : Nat) (x : Core) : (s.setCore c x).histSaved = s.histSaved := rfl
@[simp] theorem State.setCore_hist (s : State) (c : Nat) (x : Core) : (s.setCore c x).hist = s.hist := rfl
@[simp] theorem State.setCore_corrected (s : State) (c : Nat) (x : Core) : (s.setCore c x).corrected = s.corrected := rfl
@[simp] theorem State.setCore_seconds (s : State) (c : Nat) (x : Core) : (s.setCore c x).seconds = s.seconds := rfl
@[simp] theorem State.setCore_second (s : State) (c : Nat) (x : Core) : (s.setCore c x).second = s.second := rfl
@[simp] theorem State.setCore_tenMinutes (s : State) (c : Nat) (x : Core) : (s.setCore c x).tenMinutes = s.tenMinutes := rfl
@[simp] theorem State.setCore_hot (s : State) (c : Nat) (x : Core) : (s.setCore c x).hot = s.hot := rfl
@[simp] theorem State.setCore_unrecorded (s : State) (c : Nat) (x : Core) : (s.setCore c x).unrecorded = s.unrecorded := rfl
@[simp] theorem State.setCore_ptpRun (s : State) (c : Nat) (x : Core) : (s.setCore c x).ptpRun = s.ptpRun := rfl
@[simp] theorem State.setCore_streams (s : State) (c : Nat) (x : Core) : (s.setCore c x).streams = s.streams := rfl
@[simp] theorem State.setCore_fabricDown (s : State) (c : Nat) (x : Core) : (s.setCore c x).fabricDown = s.fabricDown := rfl
@[simp] theorem State.setCore_portSent (s : State) (c : Nat) (x : Core) : (s.setCore c x).portSent = s.portSent := rfl
@[simp] theorem State.setCore_clocks (s : State) (c : Nat) (x : Core) : (s.setCore c x).clocks = s.clocks := rfl
@[simp] theorem State.setCore_peerHeard (s : State) (c : Nat) (x : Core) : (s.setCore c x).peerHeard = s.peerHeard := rfl
@[simp] theorem State.setCore_lineport (s : State) (c : Nat) (x : Core) : (s.setCore c x).lineport = s.lineport := rfl
@[simp] theorem State.setCore_noc (s : State) (c : Nat) (x : Core) : (s.setCore c x).noc = s.noc := rfl
@[simp] theorem State.setCore_boot (s : State) (c : Nat) (x : Core) : (s.setCore c x).boot = s.boot := rfl
@[simp] theorem State.setCore_identity (s : State) (c : Nat) (x : Core) : (s.setCore c x).identity = s.identity := rfl
@[simp] theorem State.setCore_power (s : State) (c : Nat) (x : Core) : (s.setCore c x).power = s.power := rfl
@[simp] theorem State.setCore_waves (s : State) (c : Nat) (x : Core) : (s.setCore c x).waves = s.waves := rfl
@[simp] theorem State.setCore_spad (s : State) (c : Nat) (x : Core) : (s.setCore c x).spad = s.spad := rfl
@[simp] theorem State.setCore_fifo (s : State) (c : Nat) (x : Core) : (s.setCore c x).fifo = s.fifo := rfl
@[simp] theorem State.setCore_switches (s : State) (c : Nat) (x : Core) : (s.setCore c x).switches = s.switches := rfl
@[simp] theorem State.setCore_ops (s : State) (c : Nat) (x : Core) : (s.setCore c x).ops = s.ops := rfl
@[simp] theorem State.setCore_relAt (s : State) (c : Nat) (x : Core) : (s.setCore c x).relAt = s.relAt := rfl
@[simp] theorem State.setCore_fills (s : State) (c : Nat) (x : Core) : (s.setCore c x).fills = s.fills := rfl
@[simp] theorem State.setCore_barriers (s : State) (c : Nat) (x : Core) : (s.setCore c x).barriers = s.barriers := rfl
@[simp] theorem State.setCore_jobs (s : State) (c : Nat) (x : Core) : (s.setCore c x).jobs = s.jobs := rfl
@[simp] theorem State.setCore_cqHeld (s : State) (c : Nat) (x : Core) : (s.setCore c x).cqHeld = s.cqHeld := rfl
@[simp] theorem State.setCore_issuers (s : State) (c : Nat) (x : Core) : (s.setCore c x).issuers = s.issuers := rfl
@[simp] theorem State.setCore_formed (s : State) (c : Nat) (x : Core) : (s.setCore c x).formed = s.formed := rfl
@[simp] theorem State.setCore_spawns (s : State) (c : Nat) (x : Core) : (s.setCore c x).spawns = s.spawns := rfl
@[simp] theorem State.setCore_versions (s : State) (c : Nat) (x : Core) : (s.setCore c x).versions = s.versions := rfl
@[simp] theorem State.setCore_readers (s : State) (c : Nat) (x : Core) : (s.setCore c x).readers = s.readers := rfl
@[simp] theorem State.setCore_held (s : State) (c : Nat) (x : Core) : (s.setCore c x).held = s.held := rfl
@[simp] theorem State.setCore_tills (s : State) (c : Nat) (x : Core) : (s.setCore c x).tills = s.tills := rfl
@[simp] theorem State.setCore_tillMsgs (s : State) (c : Nat) (x : Core) : (s.setCore c x).tillMsgs = s.tillMsgs := rfl
@[simp] theorem State.setCore_cmds (s : State) (c : Nat) (x : Core) : (s.setCore c x).cmds = s.cmds := rfl
@[simp] theorem State.setCore_postings (s : State) (c : Nat) (x : Core) : (s.setCore c x).postings = s.postings := rfl
@[simp] theorem State.setCore_promises (s : State) (c : Nat) (x : Core) : (s.setCore c x).promises = s.promises := rfl
@[simp] theorem State.setCore_passes (s : State) (c : Nat) (x : Core) : (s.setCore c x).passes = s.passes := rfl
@[simp] theorem State.setCore_opens (s : State) (c : Nat) (x : Core) : (s.setCore c x).opens = s.opens := rfl
@[simp] theorem State.setCore_gfxAsks (s : State) (c : Nat) (x : Core) : (s.setCore c x).gfxAsks = s.gfxAsks := rfl
@[simp] theorem State.setCore_gfx (s : State) (c : Nat) (x : Core) : (s.setCore c x).gfx = s.gfx := rfl
@[simp] theorem State.setCore_trapReqs (s : State) (c : Nat) (x : Core) : (s.setCore c x).trapReqs = s.trapReqs := rfl
@[simp] theorem State.setCore_eventReqs (s : State) (c : Nat) (x : Core) : (s.setCore c x).eventReqs = s.eventReqs := rfl
@[simp] theorem State.setCore_holders (s : State) (c : Nat) (x : Core) : (s.setCore c x).holders = s.holders := rfl
@[simp] theorem State.setCore_saved (s : State) (c : Nat) (x : Core) : (s.setCore c x).saved = s.saved := rfl
@[simp] theorem State.setCore_dropped (s : State) (c : Nat) (x : Core) : (s.setCore c x).dropped = s.dropped := rfl
@[simp] theorem State.setCore_tlb (s : State) (c : Nat) (x : Core) : (s.setCore c x).tlb = s.tlb := rfl
@[simp] theorem State.setCore_ptrs (s : State) (c : Nat) (x : Core) : (s.setCore c x).ptrs = s.ptrs := rfl
@[simp] theorem State.setCore_leaves (s : State) (c : Nat) (x : Core) : (s.setCore c x).leaves = s.leaves := rfl
@[simp] theorem State.setCore_transit (s : State) (c : Nat) (x : Core) : (s.setCore c x).transit = s.transit := rfl
@[simp] theorem State.setCore_stall (s : State) (c : Nat) (x : Core) : (s.setCore c x).stall = s.stall := rfl
@[simp] theorem State.setCore_reported (s : State) (c : Nat) (x : Core) : (s.setCore c x).reported = s.reported := rfl
@[simp] theorem State.setCore_scanAt (s : State) (c : Nat) (x : Core) : (s.setCore c x).scanAt = s.scanAt := rfl
@[simp] theorem State.withFill_gt (s : State) (f : Fill) : (s.withFill f).gt = s.gt := rfl
@[simp] theorem State.withFill_closing (s : State) (f : Fill) : (s.withFill f).closing = s.closing := rfl
@[simp] theorem State.withFill_ctr (s : State) (f : Fill) : (s.withFill f).ctr = s.ctr := rfl
@[simp] theorem State.withFill_nid (s : State) (f : Fill) : (s.withFill f).nid = s.nid + 1 := rfl
@[simp] theorem State.withFill_cur (s : State) (f : Fill) : (s.withFill f).cur = s.cur := rfl
@[simp] theorem State.withFill_issues (s : State) (f : Fill) : (s.withFill f).issues = s.issues := rfl
@[simp] theorem State.withFill_occ (s : State) (f : Fill) : (s.withFill f).occ = s.occ := rfl
@[simp] theorem State.withFill_inputs (s : State) (f : Fill) : (s.withFill f).inputs = s.inputs := rfl
@[simp] theorem State.withFill_out (s : State) (f : Fill) : (s.withFill f).out = s.out := rfl
@[simp] theorem State.withFill_mem (s : State) (f : Fill) : (s.withFill f).mem = s.mem := rfl
@[simp] theorem State.withFill_poison (s : State) (f : Fill) : (s.withFill f).poison = s.poison := rfl
@[simp] theorem State.withFill_sys (s : State) (f : Fill) : (s.withFill f).sys = s.sys := rfl
@[simp] theorem State.withFill_measExt (s : State) (f : Fill) : (s.withFill f).measExt = s.measExt := rfl
@[simp] theorem State.withFill_histSaved (s : State) (f : Fill) : (s.withFill f).histSaved = s.histSaved := rfl
@[simp] theorem State.withFill_hist (s : State) (f : Fill) : (s.withFill f).hist = s.hist := rfl
@[simp] theorem State.withFill_corrected (s : State) (f : Fill) : (s.withFill f).corrected = s.corrected := rfl
@[simp] theorem State.withFill_seconds (s : State) (f : Fill) : (s.withFill f).seconds = s.seconds := rfl
@[simp] theorem State.withFill_second (s : State) (f : Fill) : (s.withFill f).second = s.second := rfl
@[simp] theorem State.withFill_tenMinutes (s : State) (f : Fill) : (s.withFill f).tenMinutes = s.tenMinutes := rfl
@[simp] theorem State.withFill_hot (s : State) (f : Fill) : (s.withFill f).hot = s.hot := rfl
@[simp] theorem State.withFill_unrecorded (s : State) (f : Fill) : (s.withFill f).unrecorded = s.unrecorded := rfl
@[simp] theorem State.withFill_ptpRun (s : State) (f : Fill) : (s.withFill f).ptpRun = s.ptpRun := rfl
@[simp] theorem State.withFill_streams (s : State) (f : Fill) : (s.withFill f).streams = s.streams := rfl
@[simp] theorem State.withFill_fabricDown (s : State) (f : Fill) : (s.withFill f).fabricDown = s.fabricDown := rfl
@[simp] theorem State.withFill_portSent (s : State) (f : Fill) : (s.withFill f).portSent = s.portSent := rfl
@[simp] theorem State.withFill_clocks (s : State) (f : Fill) : (s.withFill f).clocks = s.clocks := rfl
@[simp] theorem State.withFill_peerHeard (s : State) (f : Fill) : (s.withFill f).peerHeard = s.peerHeard := rfl
@[simp] theorem State.withFill_lineport (s : State) (f : Fill) : (s.withFill f).lineport = s.lineport := rfl
@[simp] theorem State.withFill_noc (s : State) (f : Fill) : (s.withFill f).noc = s.noc := rfl
@[simp] theorem State.withFill_boot (s : State) (f : Fill) : (s.withFill f).boot = s.boot := rfl
@[simp] theorem State.withFill_identity (s : State) (f : Fill) : (s.withFill f).identity = s.identity := rfl
@[simp] theorem State.withFill_power (s : State) (f : Fill) : (s.withFill f).power = s.power := rfl
@[simp] theorem State.withFill_cores (s : State) (f : Fill) : (s.withFill f).cores = s.cores := rfl
@[simp] theorem State.withFill_waves (s : State) (f : Fill) : (s.withFill f).waves = s.waves := rfl
@[simp] theorem State.withFill_spad (s : State) (f : Fill) : (s.withFill f).spad = s.spad := rfl
@[simp] theorem State.withFill_fifo (s : State) (f : Fill) : (s.withFill f).fifo = s.fifo := rfl
@[simp] theorem State.withFill_switches (s : State) (f : Fill) : (s.withFill f).switches = s.switches := rfl
@[simp] theorem State.withFill_ops (s : State) (f : Fill) : (s.withFill f).ops = s.ops := rfl
@[simp] theorem State.withFill_relAt (s : State) (f : Fill) : (s.withFill f).relAt = s.relAt := rfl
@[simp] theorem State.withFill_fills (s : State) (f : Fill) : (s.withFill f).fills = put s.fills s.nid f := rfl
@[simp] theorem State.withFill_barriers (s : State) (f : Fill) : (s.withFill f).barriers = s.barriers := rfl
@[simp] theorem State.withFill_jobs (s : State) (f : Fill) : (s.withFill f).jobs = s.jobs := rfl
@[simp] theorem State.withFill_cqHeld (s : State) (f : Fill) : (s.withFill f).cqHeld = s.cqHeld := rfl
@[simp] theorem State.withFill_issuers (s : State) (f : Fill) : (s.withFill f).issuers = s.issuers := rfl
@[simp] theorem State.withFill_formed (s : State) (f : Fill) : (s.withFill f).formed = s.formed := rfl
@[simp] theorem State.withFill_spawns (s : State) (f : Fill) : (s.withFill f).spawns = s.spawns := rfl
@[simp] theorem State.withFill_versions (s : State) (f : Fill) : (s.withFill f).versions = s.versions := rfl
@[simp] theorem State.withFill_readers (s : State) (f : Fill) : (s.withFill f).readers = s.readers := rfl
@[simp] theorem State.withFill_held (s : State) (f : Fill) : (s.withFill f).held = s.held := rfl
@[simp] theorem State.withFill_tills (s : State) (f : Fill) : (s.withFill f).tills = s.tills := rfl
@[simp] theorem State.withFill_tillMsgs (s : State) (f : Fill) : (s.withFill f).tillMsgs = s.tillMsgs := rfl
@[simp] theorem State.withFill_cmds (s : State) (f : Fill) : (s.withFill f).cmds = s.cmds := rfl
@[simp] theorem State.withFill_postings (s : State) (f : Fill) : (s.withFill f).postings = s.postings := rfl
@[simp] theorem State.withFill_promises (s : State) (f : Fill) : (s.withFill f).promises = s.promises := rfl
@[simp] theorem State.withFill_passes (s : State) (f : Fill) : (s.withFill f).passes = s.passes := rfl
@[simp] theorem State.withFill_opens (s : State) (f : Fill) : (s.withFill f).opens = s.opens := rfl
@[simp] theorem State.withFill_gfxAsks (s : State) (f : Fill) : (s.withFill f).gfxAsks = s.gfxAsks := rfl
@[simp] theorem State.withFill_gfx (s : State) (f : Fill) : (s.withFill f).gfx = s.gfx := rfl
@[simp] theorem State.withFill_trapReqs (s : State) (f : Fill) : (s.withFill f).trapReqs = s.trapReqs := rfl
@[simp] theorem State.withFill_eventReqs (s : State) (f : Fill) : (s.withFill f).eventReqs = s.eventReqs := rfl
@[simp] theorem State.withFill_holders (s : State) (f : Fill) : (s.withFill f).holders = s.holders := rfl
@[simp] theorem State.withFill_saved (s : State) (f : Fill) : (s.withFill f).saved = s.saved := rfl
@[simp] theorem State.withFill_dropped (s : State) (f : Fill) : (s.withFill f).dropped = s.dropped := rfl
@[simp] theorem State.withFill_tlb (s : State) (f : Fill) : (s.withFill f).tlb = s.tlb := rfl
@[simp] theorem State.withFill_ptrs (s : State) (f : Fill) : (s.withFill f).ptrs = s.ptrs := rfl
@[simp] theorem State.withFill_leaves (s : State) (f : Fill) : (s.withFill f).leaves = s.leaves := rfl
@[simp] theorem State.withFill_transit (s : State) (f : Fill) : (s.withFill f).transit = s.transit := rfl
@[simp] theorem State.withFill_stall (s : State) (f : Fill) : (s.withFill f).stall = s.stall := rfl
@[simp] theorem State.withFill_reported (s : State) (f : Fill) : (s.withFill f).reported = s.reported := rfl
@[simp] theorem State.withFill_scanAt (s : State) (f : Fill) : (s.withFill f).scanAt = s.scanAt := rfl
@[simp] theorem State.withOp_gt (s : State) (o : Op) : (s.withOp o).gt = s.gt := rfl
@[simp] theorem State.withOp_closing (s : State) (o : Op) : (s.withOp o).closing = s.closing := rfl
@[simp] theorem State.withOp_ctr (s : State) (o : Op) : (s.withOp o).ctr = s.ctr := rfl
@[simp] theorem State.withOp_nid (s : State) (o : Op) : (s.withOp o).nid = s.nid + 1 := rfl
@[simp] theorem State.withOp_cur (s : State) (o : Op) : (s.withOp o).cur = s.cur := rfl
@[simp] theorem State.withOp_issues (s : State) (o : Op) : (s.withOp o).issues = s.issues := rfl
@[simp] theorem State.withOp_occ (s : State) (o : Op) : (s.withOp o).occ = s.occ := rfl
@[simp] theorem State.withOp_inputs (s : State) (o : Op) : (s.withOp o).inputs = s.inputs := rfl
@[simp] theorem State.withOp_out (s : State) (o : Op) : (s.withOp o).out = s.out := rfl
@[simp] theorem State.withOp_mem (s : State) (o : Op) : (s.withOp o).mem = s.mem := rfl
@[simp] theorem State.withOp_poison (s : State) (o : Op) : (s.withOp o).poison = s.poison := rfl
@[simp] theorem State.withOp_sys (s : State) (o : Op) : (s.withOp o).sys = s.sys := rfl
@[simp] theorem State.withOp_measExt (s : State) (o : Op) : (s.withOp o).measExt = s.measExt := rfl
@[simp] theorem State.withOp_histSaved (s : State) (o : Op) : (s.withOp o).histSaved = s.histSaved := rfl
@[simp] theorem State.withOp_hist (s : State) (o : Op) : (s.withOp o).hist = s.hist := rfl
@[simp] theorem State.withOp_corrected (s : State) (o : Op) : (s.withOp o).corrected = s.corrected := rfl
@[simp] theorem State.withOp_seconds (s : State) (o : Op) : (s.withOp o).seconds = s.seconds := rfl
@[simp] theorem State.withOp_second (s : State) (o : Op) : (s.withOp o).second = s.second := rfl
@[simp] theorem State.withOp_tenMinutes (s : State) (o : Op) : (s.withOp o).tenMinutes = s.tenMinutes := rfl
@[simp] theorem State.withOp_hot (s : State) (o : Op) : (s.withOp o).hot = s.hot := rfl
@[simp] theorem State.withOp_unrecorded (s : State) (o : Op) : (s.withOp o).unrecorded = s.unrecorded := rfl
@[simp] theorem State.withOp_ptpRun (s : State) (o : Op) : (s.withOp o).ptpRun = s.ptpRun := rfl
@[simp] theorem State.withOp_streams (s : State) (o : Op) : (s.withOp o).streams = s.streams := rfl
@[simp] theorem State.withOp_fabricDown (s : State) (o : Op) : (s.withOp o).fabricDown = s.fabricDown := rfl
@[simp] theorem State.withOp_portSent (s : State) (o : Op) : (s.withOp o).portSent = s.portSent := rfl
@[simp] theorem State.withOp_clocks (s : State) (o : Op) : (s.withOp o).clocks = s.clocks := rfl
@[simp] theorem State.withOp_peerHeard (s : State) (o : Op) : (s.withOp o).peerHeard = s.peerHeard := rfl
@[simp] theorem State.withOp_lineport (s : State) (o : Op) : (s.withOp o).lineport = s.lineport := rfl
@[simp] theorem State.withOp_noc (s : State) (o : Op) : (s.withOp o).noc = s.noc := rfl
@[simp] theorem State.withOp_boot (s : State) (o : Op) : (s.withOp o).boot = s.boot := rfl
@[simp] theorem State.withOp_identity (s : State) (o : Op) : (s.withOp o).identity = s.identity := rfl
@[simp] theorem State.withOp_power (s : State) (o : Op) : (s.withOp o).power = s.power := rfl
@[simp] theorem State.withOp_cores (s : State) (o : Op) : (s.withOp o).cores = s.cores := rfl
@[simp] theorem State.withOp_waves (s : State) (o : Op) : (s.withOp o).waves = s.waves := rfl
@[simp] theorem State.withOp_spad (s : State) (o : Op) : (s.withOp o).spad = s.spad := rfl
@[simp] theorem State.withOp_fifo (s : State) (o : Op) : (s.withOp o).fifo = s.fifo := rfl
@[simp] theorem State.withOp_switches (s : State) (o : Op) : (s.withOp o).switches = s.switches := rfl
@[simp] theorem State.withOp_ops (s : State) (o : Op) : (s.withOp o).ops = put s.ops s.nid o := rfl
@[simp] theorem State.withOp_relAt (s : State) (o : Op) : (s.withOp o).relAt = s.relAt := rfl
@[simp] theorem State.withOp_fills (s : State) (o : Op) : (s.withOp o).fills = s.fills := rfl
@[simp] theorem State.withOp_barriers (s : State) (o : Op) : (s.withOp o).barriers = s.barriers := rfl
@[simp] theorem State.withOp_jobs (s : State) (o : Op) : (s.withOp o).jobs = s.jobs := rfl
@[simp] theorem State.withOp_cqHeld (s : State) (o : Op) : (s.withOp o).cqHeld = s.cqHeld := rfl
@[simp] theorem State.withOp_issuers (s : State) (o : Op) : (s.withOp o).issuers = s.issuers := rfl
@[simp] theorem State.withOp_formed (s : State) (o : Op) : (s.withOp o).formed = s.formed := rfl
@[simp] theorem State.withOp_spawns (s : State) (o : Op) : (s.withOp o).spawns = s.spawns := rfl
@[simp] theorem State.withOp_versions (s : State) (o : Op) : (s.withOp o).versions = s.versions := rfl
@[simp] theorem State.withOp_readers (s : State) (o : Op) : (s.withOp o).readers = s.readers := rfl
@[simp] theorem State.withOp_held (s : State) (o : Op) : (s.withOp o).held = s.held := rfl
@[simp] theorem State.withOp_tills (s : State) (o : Op) : (s.withOp o).tills = s.tills := rfl
@[simp] theorem State.withOp_tillMsgs (s : State) (o : Op) : (s.withOp o).tillMsgs = s.tillMsgs := rfl
@[simp] theorem State.withOp_cmds (s : State) (o : Op) : (s.withOp o).cmds = s.cmds := rfl
@[simp] theorem State.withOp_postings (s : State) (o : Op) : (s.withOp o).postings = s.postings := rfl
@[simp] theorem State.withOp_promises (s : State) (o : Op) : (s.withOp o).promises = s.promises := rfl
@[simp] theorem State.withOp_passes (s : State) (o : Op) : (s.withOp o).passes = s.passes := rfl
@[simp] theorem State.withOp_opens (s : State) (o : Op) : (s.withOp o).opens = s.opens := rfl
@[simp] theorem State.withOp_gfxAsks (s : State) (o : Op) : (s.withOp o).gfxAsks = s.gfxAsks := rfl
@[simp] theorem State.withOp_gfx (s : State) (o : Op) : (s.withOp o).gfx = s.gfx := rfl
@[simp] theorem State.withOp_trapReqs (s : State) (o : Op) : (s.withOp o).trapReqs = s.trapReqs := rfl
@[simp] theorem State.withOp_eventReqs (s : State) (o : Op) : (s.withOp o).eventReqs = s.eventReqs := rfl
@[simp] theorem State.withOp_holders (s : State) (o : Op) : (s.withOp o).holders = s.holders := rfl
@[simp] theorem State.withOp_saved (s : State) (o : Op) : (s.withOp o).saved = s.saved := rfl
@[simp] theorem State.withOp_dropped (s : State) (o : Op) : (s.withOp o).dropped = s.dropped := rfl
@[simp] theorem State.withOp_tlb (s : State) (o : Op) : (s.withOp o).tlb = s.tlb := rfl
@[simp] theorem State.withOp_ptrs (s : State) (o : Op) : (s.withOp o).ptrs = s.ptrs := rfl
@[simp] theorem State.withOp_leaves (s : State) (o : Op) : (s.withOp o).leaves = s.leaves := rfl
@[simp] theorem State.withOp_transit (s : State) (o : Op) : (s.withOp o).transit = s.transit := rfl
@[simp] theorem State.withOp_stall (s : State) (o : Op) : (s.withOp o).stall = s.stall := rfl
@[simp] theorem State.withOp_reported (s : State) (o : Op) : (s.withOp o).reported = s.reported := rfl
@[simp] theorem State.withOp_scanAt (s : State) (o : Op) : (s.withOp o).scanAt = s.scanAt := rfl
@[simp] theorem State.sysPut_gt (s : State) (num index v : Nat) : (s.sysPut num index v).gt = s.gt := rfl
@[simp] theorem State.sysPut_closing (s : State) (num index v : Nat) : (s.sysPut num index v).closing = s.closing := rfl
@[simp] theorem State.sysPut_ctr (s : State) (num index v : Nat) : (s.sysPut num index v).ctr = s.ctr := rfl
@[simp] theorem State.sysPut_nid (s : State) (num index v : Nat) : (s.sysPut num index v).nid = s.nid := rfl
@[simp] theorem State.sysPut_cur (s : State) (num index v : Nat) : (s.sysPut num index v).cur = s.cur := rfl
@[simp] theorem State.sysPut_issues (s : State) (num index v : Nat) : (s.sysPut num index v).issues = s.issues := rfl
@[simp] theorem State.sysPut_occ (s : State) (num index v : Nat) : (s.sysPut num index v).occ = s.occ := rfl
@[simp] theorem State.sysPut_inputs (s : State) (num index v : Nat) : (s.sysPut num index v).inputs = s.inputs := rfl
@[simp] theorem State.sysPut_out (s : State) (num index v : Nat) : (s.sysPut num index v).out = s.out := rfl
@[simp] theorem State.sysPut_mem (s : State) (num index v : Nat) : (s.sysPut num index v).mem = s.mem := rfl
@[simp] theorem State.sysPut_poison (s : State) (num index v : Nat) : (s.sysPut num index v).poison = s.poison := rfl
@[simp] theorem State.sysPut_sys (s : State) (num index v : Nat) : (s.sysPut num index v).sys = put s.sys (sysKey num index) (dw v) := rfl
@[simp] theorem State.sysPut_measExt (s : State) (num index v : Nat) : (s.sysPut num index v).measExt = s.measExt := rfl
@[simp] theorem State.sysPut_histSaved (s : State) (num index v : Nat) : (s.sysPut num index v).histSaved = s.histSaved := rfl
@[simp] theorem State.sysPut_hist (s : State) (num index v : Nat) : (s.sysPut num index v).hist = s.hist := rfl
@[simp] theorem State.sysPut_corrected (s : State) (num index v : Nat) : (s.sysPut num index v).corrected = s.corrected := rfl
@[simp] theorem State.sysPut_seconds (s : State) (num index v : Nat) : (s.sysPut num index v).seconds = s.seconds := rfl
@[simp] theorem State.sysPut_second (s : State) (num index v : Nat) : (s.sysPut num index v).second = s.second := rfl
@[simp] theorem State.sysPut_tenMinutes (s : State) (num index v : Nat) : (s.sysPut num index v).tenMinutes = s.tenMinutes := rfl
@[simp] theorem State.sysPut_hot (s : State) (num index v : Nat) : (s.sysPut num index v).hot = s.hot := rfl
@[simp] theorem State.sysPut_unrecorded (s : State) (num index v : Nat) : (s.sysPut num index v).unrecorded = s.unrecorded := rfl
@[simp] theorem State.sysPut_ptpRun (s : State) (num index v : Nat) : (s.sysPut num index v).ptpRun = s.ptpRun := rfl
@[simp] theorem State.sysPut_streams (s : State) (num index v : Nat) : (s.sysPut num index v).streams = s.streams := rfl
@[simp] theorem State.sysPut_fabricDown (s : State) (num index v : Nat) : (s.sysPut num index v).fabricDown = s.fabricDown := rfl
@[simp] theorem State.sysPut_portSent (s : State) (num index v : Nat) : (s.sysPut num index v).portSent = s.portSent := rfl
@[simp] theorem State.sysPut_clocks (s : State) (num index v : Nat) : (s.sysPut num index v).clocks = s.clocks := rfl
@[simp] theorem State.sysPut_peerHeard (s : State) (num index v : Nat) : (s.sysPut num index v).peerHeard = s.peerHeard := rfl
@[simp] theorem State.sysPut_lineport (s : State) (num index v : Nat) : (s.sysPut num index v).lineport = s.lineport := rfl
@[simp] theorem State.sysPut_noc (s : State) (num index v : Nat) : (s.sysPut num index v).noc = s.noc := rfl
@[simp] theorem State.sysPut_boot (s : State) (num index v : Nat) : (s.sysPut num index v).boot = s.boot := rfl
@[simp] theorem State.sysPut_identity (s : State) (num index v : Nat) : (s.sysPut num index v).identity = s.identity := rfl
@[simp] theorem State.sysPut_power (s : State) (num index v : Nat) : (s.sysPut num index v).power = s.power := rfl
@[simp] theorem State.sysPut_cores (s : State) (num index v : Nat) : (s.sysPut num index v).cores = s.cores := rfl
@[simp] theorem State.sysPut_waves (s : State) (num index v : Nat) : (s.sysPut num index v).waves = s.waves := rfl
@[simp] theorem State.sysPut_spad (s : State) (num index v : Nat) : (s.sysPut num index v).spad = s.spad := rfl
@[simp] theorem State.sysPut_fifo (s : State) (num index v : Nat) : (s.sysPut num index v).fifo = s.fifo := rfl
@[simp] theorem State.sysPut_switches (s : State) (num index v : Nat) : (s.sysPut num index v).switches = s.switches := rfl
@[simp] theorem State.sysPut_ops (s : State) (num index v : Nat) : (s.sysPut num index v).ops = s.ops := rfl
@[simp] theorem State.sysPut_relAt (s : State) (num index v : Nat) : (s.sysPut num index v).relAt = s.relAt := rfl
@[simp] theorem State.sysPut_fills (s : State) (num index v : Nat) : (s.sysPut num index v).fills = s.fills := rfl
@[simp] theorem State.sysPut_barriers (s : State) (num index v : Nat) : (s.sysPut num index v).barriers = s.barriers := rfl
@[simp] theorem State.sysPut_jobs (s : State) (num index v : Nat) : (s.sysPut num index v).jobs = s.jobs := rfl
@[simp] theorem State.sysPut_cqHeld (s : State) (num index v : Nat) : (s.sysPut num index v).cqHeld = s.cqHeld := rfl
@[simp] theorem State.sysPut_issuers (s : State) (num index v : Nat) : (s.sysPut num index v).issuers = s.issuers := rfl
@[simp] theorem State.sysPut_formed (s : State) (num index v : Nat) : (s.sysPut num index v).formed = s.formed := rfl
@[simp] theorem State.sysPut_spawns (s : State) (num index v : Nat) : (s.sysPut num index v).spawns = s.spawns := rfl
@[simp] theorem State.sysPut_versions (s : State) (num index v : Nat) : (s.sysPut num index v).versions = s.versions := rfl
@[simp] theorem State.sysPut_readers (s : State) (num index v : Nat) : (s.sysPut num index v).readers = s.readers := rfl
@[simp] theorem State.sysPut_held (s : State) (num index v : Nat) : (s.sysPut num index v).held = s.held := rfl
@[simp] theorem State.sysPut_tills (s : State) (num index v : Nat) : (s.sysPut num index v).tills = s.tills := rfl
@[simp] theorem State.sysPut_tillMsgs (s : State) (num index v : Nat) : (s.sysPut num index v).tillMsgs = s.tillMsgs := rfl
@[simp] theorem State.sysPut_cmds (s : State) (num index v : Nat) : (s.sysPut num index v).cmds = s.cmds := rfl
@[simp] theorem State.sysPut_postings (s : State) (num index v : Nat) : (s.sysPut num index v).postings = s.postings := rfl
@[simp] theorem State.sysPut_promises (s : State) (num index v : Nat) : (s.sysPut num index v).promises = s.promises := rfl
@[simp] theorem State.sysPut_passes (s : State) (num index v : Nat) : (s.sysPut num index v).passes = s.passes := rfl
@[simp] theorem State.sysPut_opens (s : State) (num index v : Nat) : (s.sysPut num index v).opens = s.opens := rfl
@[simp] theorem State.sysPut_gfxAsks (s : State) (num index v : Nat) : (s.sysPut num index v).gfxAsks = s.gfxAsks := rfl
@[simp] theorem State.sysPut_gfx (s : State) (num index v : Nat) : (s.sysPut num index v).gfx = s.gfx := rfl
@[simp] theorem State.sysPut_trapReqs (s : State) (num index v : Nat) : (s.sysPut num index v).trapReqs = s.trapReqs := rfl
@[simp] theorem State.sysPut_eventReqs (s : State) (num index v : Nat) : (s.sysPut num index v).eventReqs = s.eventReqs := rfl
@[simp] theorem State.sysPut_holders (s : State) (num index v : Nat) : (s.sysPut num index v).holders = s.holders := rfl
@[simp] theorem State.sysPut_saved (s : State) (num index v : Nat) : (s.sysPut num index v).saved = s.saved := rfl
@[simp] theorem State.sysPut_dropped (s : State) (num index v : Nat) : (s.sysPut num index v).dropped = s.dropped := rfl
@[simp] theorem State.sysPut_tlb (s : State) (num index v : Nat) : (s.sysPut num index v).tlb = s.tlb := rfl
@[simp] theorem State.sysPut_ptrs (s : State) (num index v : Nat) : (s.sysPut num index v).ptrs = s.ptrs := rfl
@[simp] theorem State.sysPut_leaves (s : State) (num index v : Nat) : (s.sysPut num index v).leaves = s.leaves := rfl
@[simp] theorem State.sysPut_transit (s : State) (num index v : Nat) : (s.sysPut num index v).transit = s.transit := rfl
@[simp] theorem State.sysPut_stall (s : State) (num index v : Nat) : (s.sysPut num index v).stall = s.stall := rfl
@[simp] theorem State.sysPut_reported (s : State) (num index v : Nat) : (s.sysPut num index v).reported = s.reported := rfl
@[simp] theorem State.sysPut_scanAt (s : State) (num index v : Nat) : (s.sysPut num index v).scanAt = s.scanAt := rfl
@[simp] theorem State.taken_gt (s : State) : (s.taken).gt = s.gt := rfl
@[simp] theorem State.taken_closing (s : State) : (s.taken).closing = s.closing := rfl
@[simp] theorem State.taken_ctr (s : State) : (s.taken).ctr = s.ctr := rfl
@[simp] theorem State.taken_nid (s : State) : (s.taken).nid = s.nid := rfl
@[simp] theorem State.taken_cur (s : State) : (s.taken).cur = none := rfl
@[simp] theorem State.taken_issues (s : State) : (s.taken).issues = s.issues := rfl
@[simp] theorem State.taken_occ (s : State) : (s.taken).occ = s.occ := rfl
@[simp] theorem State.taken_inputs (s : State) : (s.taken).inputs = s.inputs := rfl
@[simp] theorem State.taken_out (s : State) : (s.taken).out = s.out := rfl
@[simp] theorem State.taken_mem (s : State) : (s.taken).mem = s.mem := rfl
@[simp] theorem State.taken_poison (s : State) : (s.taken).poison = s.poison := rfl
@[simp] theorem State.taken_sys (s : State) : (s.taken).sys = s.sys := rfl
@[simp] theorem State.taken_measExt (s : State) : (s.taken).measExt = s.measExt := rfl
@[simp] theorem State.taken_histSaved (s : State) : (s.taken).histSaved = s.histSaved := rfl
@[simp] theorem State.taken_hist (s : State) : (s.taken).hist = s.hist := rfl
@[simp] theorem State.taken_corrected (s : State) : (s.taken).corrected = s.corrected := rfl
@[simp] theorem State.taken_seconds (s : State) : (s.taken).seconds = s.seconds := rfl
@[simp] theorem State.taken_second (s : State) : (s.taken).second = s.second := rfl
@[simp] theorem State.taken_tenMinutes (s : State) : (s.taken).tenMinutes = s.tenMinutes := rfl
@[simp] theorem State.taken_hot (s : State) : (s.taken).hot = s.hot := rfl
@[simp] theorem State.taken_unrecorded (s : State) : (s.taken).unrecorded = s.unrecorded := rfl
@[simp] theorem State.taken_ptpRun (s : State) : (s.taken).ptpRun = s.ptpRun := rfl
@[simp] theorem State.taken_streams (s : State) : (s.taken).streams = s.streams := rfl
@[simp] theorem State.taken_fabricDown (s : State) : (s.taken).fabricDown = s.fabricDown := rfl
@[simp] theorem State.taken_portSent (s : State) : (s.taken).portSent = s.portSent := rfl
@[simp] theorem State.taken_clocks (s : State) : (s.taken).clocks = s.clocks := rfl
@[simp] theorem State.taken_peerHeard (s : State) : (s.taken).peerHeard = s.peerHeard := rfl
@[simp] theorem State.taken_lineport (s : State) : (s.taken).lineport = s.lineport := rfl
@[simp] theorem State.taken_noc (s : State) : (s.taken).noc = s.noc := rfl
@[simp] theorem State.taken_boot (s : State) : (s.taken).boot = s.boot := rfl
@[simp] theorem State.taken_identity (s : State) : (s.taken).identity = s.identity := rfl
@[simp] theorem State.taken_power (s : State) : (s.taken).power = s.power := rfl
@[simp] theorem State.taken_cores (s : State) : (s.taken).cores = s.cores := rfl
@[simp] theorem State.taken_waves (s : State) : (s.taken).waves = s.waves := rfl
@[simp] theorem State.taken_spad (s : State) : (s.taken).spad = s.spad := rfl
@[simp] theorem State.taken_fifo (s : State) : (s.taken).fifo = s.fifo := rfl
@[simp] theorem State.taken_switches (s : State) : (s.taken).switches = s.switches := rfl
@[simp] theorem State.taken_ops (s : State) : (s.taken).ops = s.ops := rfl
@[simp] theorem State.taken_relAt (s : State) : (s.taken).relAt = s.relAt := rfl
@[simp] theorem State.taken_fills (s : State) : (s.taken).fills = s.fills := rfl
@[simp] theorem State.taken_barriers (s : State) : (s.taken).barriers = s.barriers := rfl
@[simp] theorem State.taken_jobs (s : State) : (s.taken).jobs = s.jobs := rfl
@[simp] theorem State.taken_cqHeld (s : State) : (s.taken).cqHeld = s.cqHeld := rfl
@[simp] theorem State.taken_issuers (s : State) : (s.taken).issuers = s.issuers := rfl
@[simp] theorem State.taken_formed (s : State) : (s.taken).formed = s.formed := rfl
@[simp] theorem State.taken_spawns (s : State) : (s.taken).spawns = s.spawns := rfl
@[simp] theorem State.taken_versions (s : State) : (s.taken).versions = s.versions := rfl
@[simp] theorem State.taken_readers (s : State) : (s.taken).readers = s.readers := rfl
@[simp] theorem State.taken_held (s : State) : (s.taken).held = s.held := rfl
@[simp] theorem State.taken_tills (s : State) : (s.taken).tills = s.tills := rfl
@[simp] theorem State.taken_tillMsgs (s : State) : (s.taken).tillMsgs = s.tillMsgs := rfl
@[simp] theorem State.taken_cmds (s : State) : (s.taken).cmds = s.cmds := rfl
@[simp] theorem State.taken_postings (s : State) : (s.taken).postings = s.postings := rfl
@[simp] theorem State.taken_promises (s : State) : (s.taken).promises = s.promises := rfl
@[simp] theorem State.taken_passes (s : State) : (s.taken).passes = s.passes := rfl
@[simp] theorem State.taken_opens (s : State) : (s.taken).opens = s.opens := rfl
@[simp] theorem State.taken_gfxAsks (s : State) : (s.taken).gfxAsks = s.gfxAsks := rfl
@[simp] theorem State.taken_gfx (s : State) : (s.taken).gfx = s.gfx := rfl
@[simp] theorem State.taken_trapReqs (s : State) : (s.taken).trapReqs = s.trapReqs := rfl
@[simp] theorem State.taken_eventReqs (s : State) : (s.taken).eventReqs = s.eventReqs := rfl
@[simp] theorem State.taken_holders (s : State) : (s.taken).holders = s.holders := rfl
@[simp] theorem State.taken_saved (s : State) : (s.taken).saved = s.saved := rfl
@[simp] theorem State.taken_dropped (s : State) : (s.taken).dropped = s.dropped := rfl
@[simp] theorem State.taken_tlb (s : State) : (s.taken).tlb = s.tlb := rfl
@[simp] theorem State.taken_ptrs (s : State) : (s.taken).ptrs = s.ptrs := rfl
@[simp] theorem State.taken_leaves (s : State) : (s.taken).leaves = s.leaves := rfl
@[simp] theorem State.taken_transit (s : State) : (s.taken).transit = s.transit := rfl
@[simp] theorem State.taken_stall (s : State) : (s.taken).stall = s.stall := rfl
@[simp] theorem State.taken_reported (s : State) : (s.taken).reported = s.reported := rfl
@[simp] theorem State.taken_scanAt (s : State) : (s.taken).scanAt = s.scanAt := rfl
end Sys2Proof.Machine
end

