-- ==== Sys2Proof/Tests/Slice0.lean ====
section
/-! SUPPORT. Tests: words of the manual decode to their instructions, ill-formed terms are refused, one fetch, and witnesses that the
hypotheses of the obligations can be met: each `witness_` theorem gives states for the clauses of the obligation of that name. -/
namespace Sys2Proof.Machine
open Sys2Proof Host
set_option Elab.async false

/-- Whether words decode to an instruction that is well formed. -/
def reads (ws : List Word) (i : Instr) : Bool :=
  match decode ws with
  | .ok j => decide (j = i) && WellFormed i
  | .error _ => false

theorem test_decode_integer :
    (reads [0x30080806, 0x00000003, 0] (.iadd .sat .s16 { dst := 2, sa := 2, sb := 3 }) &&
     reads [0x0010145E, 0, 0x308] (.bfx false .b32 { dst := 5, sa := 4, w2 := 0x308 }) &&
     reads [0x08001072, 2, 0] (.movLo { dst := 4, sb := 2 })) = true := by decide

theorem test_decode_float :
    (reads [0x40100CB6, 0x00000005, 0] (.fcmp .lt .f32 { dst := 3, sa := 4, sb := 5 }) &&
     reads [0x60181CC2, 0x10000000, 0] (.cvtf .bf16 .f32 { dst := 7, sa := 6, rnd := 1 })) = true := by decide

theorem test_decode_exchange : reads [0x0420250C] (.shflxShort 1 8 9) = true := by decide

theorem test_decode_branches :
    (reads [0xFFFFE140] (.braShort 0x3FFFF8) &&
     reads [0x40100146, 0x00000005, 0xFFFFFFF4] (.brc .lt .s32 { sa := 4, sb := 5, w2 := 0xFFFFFFF4 }) &&
     reads [0x00008148] (.callShort 32) && reads [0x0000014C] .retShort &&
     reads [0x04181550] (.loopShort 1 6 5) && reads [0x28000152, 0, 0x00640006] (.loopI 2 { w2 := 0x00640006 })) = true := by decide

theorem test_decode_threads :
    (reads [0x04000956, 0, 0xC350] (.barBlk { dst := 2, w2 := 0xC350 }) && reads [0x00240158] (.sleepShort 9) &&
     reads [0x0000015A, 0, 0x800007D0] (.sleepFor { w2 := 0x800007D0 }) && reads [0x001C015C] (.waitFullShort 7) &&
     reads [0x0414015E, 0, 1] (.waitEmpty { sa := 5, w2 := 1 }) && reads [0x44000160] (.trapShort 17) && reads [0x00000164] .endShort &&
     reads [0x0C000168] (.msignShort 3) && reads [0x0000016A, 0x00030000, 3] (.msign { km := 3, w2 := 3 }) &&
     reads [0x0458516E, 0x00000818, 0x20] (.spawn true { dst := 20, sa := 22, sb := 24, sc := 8, w2 := 0x20 }) &&
     reads [0x00000174] .cmtWaitShort && reads [0x00000176, 0, 0x000F4240] (.cmtWait { w2 := 0x000F4240 }) &&
     reads [0x04002576, 0, 0] (.cmtPos { dst := 9 })) = true := by decide

theorem test_decode_memory :
    (reads [0x14242980] (.ldShort 5 9 10) &&
     reads [0x18242182, 0x41800005, 0x10] (.ld .b16 { dst := 8, sa := 9, sb := 5, mode := 1, scope := 3, w2 := 0x10 }) &&
     reads [0x00241DAE, 0x00000605, 0] (.atom .add .s32 { dst := 7, sa := 9, sb := 5, sc := 6 }) &&
     reads [0x0C2411B6, 0xC2000605, 0] (.cas .z64 { dst := 4, sa := 9, sb := 5, sc := 6, mode := 3, scope := 4 }) &&
     reads [0x00241DBE, 0x00000605, 0] (.fatom .add .f32 { dst := 7, sa := 9, sb := 5, sc := 6 }) &&
     reads [0x000001C4] .fenceShort && reads [0x080001C6, 0x01800000, 0] (.fence .rel { scope := 3 })) = true := by decide

theorem test_decode_scratchpad :
    (reads [0x0024118A, 0x01200000, 0] (.lds .b4 { dst := 4, sa := 9, epb := true, scope := 2 }) &&
     reads [0x00240D8E, 0x01000000, 0x40] (.sts .b4 { dst := 3, sa := 9, scope := 2, w2 := 0x40 }) &&
     reads [0x00240D92, 0x01800000, 0] (.fill .b4 { dst := 3, sa := 9, scope := 3 }) && reads [0x00241594] (.drainShort 9 5) &&
     reads [0x00240D9C] (.pushShort 9 3) && reads [0x002415A0] (.popShort 9 5) && reads [0x002419A4] (.rbwaitShort 9 6)) = true := by decide

theorem test_decode_allowances :
    (reads [0x040451CA, 0x00001504, 0] (.takeTry { dst := 20, sa := 1, sb := 4, sc := 21 }) &&
     reads [0x000421D6, 0x00000004, 0] (.stock { dst := 8, sa := 1, sb := 4 }) &&
     reads [0x001C19DA, 0, 0] (.bankreq { dst := 6, sa := 7 })) = true := by decide

theorem test_decode_matrix :
    (reads [0x0000022A, 0, 0x13] (.mwait { w2 := 0x13 }) && reads [0x0C180202, 0, 0] (.mlatb .bf16 { sa := 6 }) &&
     reads [0x00180212, 0, 0x40] (.mcbt { sa := 6, w2 := 0x40 }) &&
     reads [0x0C1C0206, 1, 0x92000000] (.mma .bf16 { sa := 7, sb := 1, w2 := 0x92000000 }) &&
     reads [0x0C1C0606, 0, 0x4000] (.mma .bf16 { dst := 1, sa := 7, w2 := 0x4000 }) &&
     reads [0x101C020A, 0x00000801, 0x92000000] (.mmas .e4m3 { sa := 7, sb := 1, sc := 8, w2 := 0x92000000 }) &&
     reads [0x181C0A0E, 0x40000000, 0x80000000] (.mmai .s8 { dst := 2, sa := 7, mode := 1, w2 := 0x80000000 }) &&
     reads [0x181C0A0E, 0, 0xA0000000] (.mmai .s8 { dst := 2, sa := 7, w2 := 0xA0000000 }) &&
     reads [0x00000A16, 0, 1] (.mzero { dst := 2, w2 := 1 }) && reads [0x00142A1A, 1, 0x20] (.mrd { dst := 10, sa := 5, sb := 1, w2 := 0x20 }) &&
     reads [0x0024021E, 0, 0x3F00] (.mst { sa := 9, w2 := 0x3F00 }) && reads [0x00240222, 0, 0x3F00] (.mmv { sa := 9, w2 := 0x3F00 }) &&
     reads [0x04001226, 0, 4] (.mstatClr { dst := 4, w2 := 4 }) && reads [0x0000022E, 0, 4] (.mrel { w2 := 4 })) = true := by decide

theorem test_decode_rows :
    (reads [0x00100E42, 0x00000205, 0] (.band { dst := 3, sa := 4, sb := 5, sc := 2 }) &&
     reads [0x00101A46, 3, 0] (.ppopc { dst := 6, sa := 4, sb := 3 }) &&
     reads [0x0010224A, 0x00000305, 0] (.igath .b32 { dst := 8, sa := 4, sb := 5, sc := 3 }) &&
     reads [0x0010264E, 0x00000200, 0] (.cmpr .b32 { dst := 9, sa := 4, sc := 2 }) &&
     reads [0x20185256, 0x00000907, 8] (.topk true .f32 { dst := 20, sa := 6, sb := 7, sc := 9, w2 := 8 })) = true := by decide

theorem test_decode_engines :
    (reads [0x00241262, 0, 0] (.tcopy { dst := 4, sa := 9 }) && reads [0x00281666, 0, 0x20] (.tgath { dst := 5, sa := 10, w2 := 0x20 }) &&
     reads [0x0024126A, 0x04000000, 0] (.tscat { dst := 4, sa := 9, hint := 1 }) && reads [0x00241A6E, 0, 0] (.fconv { dst := 6, sa := 9 }) &&
     reads [0x00240272, 5, 0] (.sred { sa := 9, sb := 5 }) &&
     reads [0x00301E76, 0x00200000, 0] (.embag { dst := 7, sa := 12, epb := true })) = true := by decide

theorem test_decode_graphics :
    (reads [0x00181286, 0, 0] (.rpassTile { dst := 4, sa := 6 }) && reads [0x04181286, 0, 0] (.rpassImm { dst := 4, sa := 6 }) &&
     reads [0x00201282, 9, 0x8000000C] (.draw { dst := 4, sa := 8, sb := 9, w2 := 0x8000000C }) &&
     reads [0x0000028A, 0, 0] (.ordEnter {}) && reads [0x0400028A, 0, 0] (.ordLeave {}) &&
     reads [0x0004528E, 0x00000A03, 0x104] (.fli { dst := 20, sa := 1, sb := 3, sc := 10, w2 := 0x104 }) &&
     reads [0x00046292, 12, 4] (.flw { dst := 24, sa := 1, sb := 12, w2 := 4 }) &&
     reads [0x00807296, 6, 0] (.rayq { dst := 28, sa := 32, sb := 6 }) &&
     reads [0x04807296, 0x106, 4] (.rayqApp { dst := 28, sa := 32, sb := 6, sc := 1, w2 := 4 })) = true := by decide

theorem test_decode_system :
    (reads [0x00001AC2, 0, 0x00FF0080] (.sysrd { dst := 6, w2 := 0x00FF0080 }) && reads [0x001802C6, 0, 0x00FF0080] (.syswr { sa := 6, w2 := 0x00FF0080 }) &&
     reads [0x000002CA, 0, 0] (.sysopIcinv {}) && reads [0x040002CA, 0, 0] (.sysopDcwb {}) && reads [0x081802CA, 0, 0] (.sysopXlinv { sa := 6 }) &&
     reads [0x080002CA, 0, 1] (.sysopXlinvAll { w2 := 1 }) && reads [0x000002CE, 0, 0] (.eret {})) = true := by decide

/-- Ill-formed terms, one for each check of well-formedness: an event, SUB, form, rounding, hint, mode, scope, KN, policy bits, the
classes of the four operand fields, word 2, and a limit of an entry. -/
def illFormed : List Instr :=
  [.commit, .iabs .wrap .z32 {}, .not .b32 { form := .extLit 1 }, .iadd .wrap .s32 { rnd := 1 }, .iadd .wrap .s32 { hint := 1 },
   .iadd .wrap .s32 { mode := 1 }, .iadd .wrap .s32 { scope := 1 }, .iadd .wrap .s32 { kn := true }, .movLo { epa := true },
   .kop .and { dst := 0 }, .lea .x1 { sa := 1 }, .kop .not { dst := 1, sb := 1 }, .iadd .wrap .s32 { sc := 1 },
   .iadd .wrap .s32 { w2 := 1 }, .bfx false .b32 { w2 := 0x1F1F }]

theorem test_ill_formed_refused : illFormed.all (fun i => !WellFormed i) = true := by decide

theorem test_well_formed_accepted :
    [Instr.iadd .wrap .s32 {}, .kop .and { dst := 1 }, .lea .x1 { dst := 2, sa := 2 }, .bfx false .b32 { w2 := 0x0F08 }].all
      (fun i => WellFormed i) = true := by decide

/-- What the first step after reset does with an instruction placed for the boot wave: lane 3's register r. -/
def firstStep (nbits w r : Nat) : Option Nat :=
  match step (State.reset.withFetchWord nbits w) with
  | .next t => some (((t.waveAt 0).lane 3).rv r).toNat
  | .fault _ => none
  | .refused _ => none

/-- IADD with the immediate 5 (F6 5, SA 0, DST 4, opcode 0x04, short form: R168) leaves 3 + 5 in v4. -/
theorem test_fetch_iadd_imm : firstStep 32 0x14001010 4 = some 8 := by decide +kernel

/-- On lane 3, by hand from R203, R205, R207, R208 and R210: 3 + 3, 3 x 3, -3, NOT 3, the set bits, leading zeros and reversal of 3. -/
theorem test_first_integer :
    [firstStep 32 0x00001004 4, firstStep 32 0x0000100C 4, firstStep 32 0x0000102C 4, firstStep 32 0x0000103C 4, firstStep 32 0x00001050 4,
     firstStep 32 0x00001054 4, firstStep 32 0x00001058 4] =
      [some 6, some 9, some 0xFFFFFFFD, some 0xFFFFFFFC, some 2, some 30, some 0xC0000000] := by decide +kernel

theorem test_reset_lane_index : ((State.reset.waveAt 0).lane 3).rv 0 = 3 := by decide +kernel

/-- The issue of the instruction and its wave, when the state meets what every statement about an instruction asks: a legal issue of
distinct lanes, some of them active, none with an early trap. -/
def meets (s : State) (i : Instr) : Option (Issue × Wave) :=
  match s.cur with
  | none => none
  | some c =>
    match s.wave? c.wid with
    | none => none
    | some w =>
      if s.issueLegal w i && decide c.lanes.Nodup && (s.earlyTraps c w i).isEmpty && !(s.activeLanes c w i).isEmpty then some (c, w)
      else none

/-- The same, with every active lane's turn free of traps. -/
def meetsTurn (s : State) (start : State → State) (act : State → Issue → Wave → State → Nat → Option Turn) (i : Instr) : Bool :=
  match meets s i with
  | none => false
  | some (c, w) => (s.activeLanes c w i).all (fun k => (act (s.issued c w i) c (s.noted c w i)
      ((start (s.issued c w i)).foundBy (act (s.issued c w i) c (s.noted c w i)) (s.activeLanes c w i) k) k).isSome)

/-- The same, with an outcome of the issue. -/
def meetsOut (s : State) (out : State → Issue → Wave → List Nat → Option Outcome) (i : Instr) : Bool :=
  match meets s i with
  | none => false
  | some (c, w) => (out (s.issued c w i) c (s.noted c w i) (s.activeLanes c w i)).isSome

/-- The same, with every target a word address below 2^57. -/
def meetsBranch (s : State) (target : Issue → Wave → Nat → Option DWord) (i : Instr) : Bool :=
  match meets s i with
  | none => false
  | some (c, w) => (s.activeLanes c w i).all (fun k => match target c (s.noted c w i) k with
      | some a => a.toNat % 4 == 0 && decide (a.toNat < 2 ^ 57)
      | none => true)

/-- The same, with no active lane inside a pixel-ordered section. -/
def meetsWait (s : State) (i : Instr) : Bool :=
  match meets s i with
  | none => false
  | some (c, w) => (s.activeLanes c w i).all (fun k => !(w.lane k).inside)

/-- The same, with room for a wave access that passes its checks. -/
def meetsWaveAccess (s : State) (i : Instr) : Bool :=
  match meets s i with
  | none => false
  | some (c, w) =>
    match s.activeLanes c w i with
    | [] => false
    | k :: _ =>
      let u := s.noted c w i
      let want := wantOf i u (u.lane k)
      !s.noRoom i c u && (match (s.issued c w i).fresh.2.checkAccess u (u.lane k).level want (globalAddr i u (u.lane k)) with
        | (_, .ok _) => true
        | (_, .trap _) => false
        | (_, .page _) => false)

/-- The same, with no lane in a section or past the barrier. -/
def meetsBarrier (s : State) (i : Instr) : Bool :=
  match meets s i with
  | none => false
  | some (c, w) => !((s.activeLanes c w i).any (fun k => ((s.noted c w i).lane k).inside ||
      (s.noted c w i).barPassed ((s.issued c w i).barrierOf i c (s.noted c w i)) k))

/-- The same, with what the statement of an instruction's whole effect asks. -/
def meetsEffect (s : State) (ok : State → Issue → Wave → List Nat → Bool) (i : Instr) : Bool :=
  match meets s i with
  | none => false
  | some (c, w) => ok (s.issued c w i) c (s.noted c w i) (s.activeLanes c w i)

/-- An issue of lane 0 at PC 0 of a wave of 64 lanes with 256 registers, the first two present. -/
def demoIssue : Issue := { wid := 0, pc := 0, lanes := [0] }
def demoWave : Wave := { kind := .boot, width := 64, regs := 256, lanes := [{ level := 2 }, { level := 2 }] }
def demo : State := { State.reset with cur := some demoIssue, waves := [(0, demoWave)] }

/-- The same with another wave. -/
def demoOf (w : Wave) : State := { demo with waves := [(0, w)] }

/-- The same with the banks of the cluster in a mode (1 scratchpad, 2 FIFO), and the first words of the window full. -/
def demoBanks (m : Nat) : State :=
  { demo.sysPut 0x30 0 (0x555555555555 * m) with spad := (List.range 32).map (fun k => (k, { full := true })) }

/-- The same with words of the window given. -/
def demoBlock (ws : FMap Word) : State :=
  { demo.sysPut 0x30 0 0x555555555555 with spad := (List.range 32).map (fun k => (k, { val := lookD ws k 0, full := true })) }

/-- The first n bytes of memory, some of them given and the others zero. -/
def demoMem (n : Nat) (bs : FMap Byte) : List Host.Cell := (List.range n).map (fun a => (a, lookD bs a 0))

/-- A reduction of one element of two buffers at 0, with its flag at 0x1000. -/
def demoReduction : State := { demo with mem := demoMem 80 [(9, 0x10), (24, 0x40), (32, 1), (36, 0x10)] }

/-- A launched wave of two lanes, whose launch has its one wave placed. -/
def demoLaunched : State :=
  { demoOf { demoWave with kind := .launched } with jobs := [(0, { vi := 0, num := 1, width := 1, height := 1 })], issuers := [(0, { vi := 0, lid := 0, core := 0 })] }

/-- The same with the matrix engine of the core claimed, its tiles of a kind and its latch of a format, and descriptors in w0 to w2. -/
def demoMatrix (f : MF) (kind : Nat) : State :=
  { demoBanks 1 with
    waves := [(0, { demoWave with areaSize := 0x10000, w := [(0, 0x00400010), (1, 0x10), (2, 0x02000010)] })]
    cores := [(0, { tiles := (List.range 4).map (fun t => (t, { owner := some 0, kind := kind }))
                    latch := { owner := some 0, nextFmt := some (f, 16) } })] }

/-- The same with a pass open, whose handle is in w4. -/
def demoPass : Pass := { vi := 0, part := 0, gen := 1, imm := false, w := 16, h := 16 }
def demoPassed : State := { demoOf { demoWave with w := [(4, dw (demoPass.handle 0))] } with passes := [(0, demoPass)] }

/-- A fragment wave whose lane 0 is outside or inside its section. -/
def demoFragment (inside : Bool) : State := demoOf { demoWave with kind := .fragment, lanes := [{ level := 2, ord := some { pixel := 0, seq := 0, inside := inside } }] }

/-- The same with a counter at line 0. -/
def demoTill : State := { demo with tills := [(0, { till := 5, limit := 9, vi := 64 })] }

/-- A pass descriptor at 0 with its program at 0x40, in a partition of every core. -/
def demoDesc (imm : Bool) : State :=
  { ((demoBanks 1).sysPut 0x200 0 0x800000000000BE00).sysPut 0x201 0 0x8000000000000000 with
    mem := demoMem 80 ((if imm then [(24, 0x80), (34, 1)] else [(50, 0x20)]) ++ [(0, 0x40), (8, 0x40), (56, 1), (72, 3), (79, 1)])
    tills := [(0x80, { till := 5, limit := 9, vi := 0 })]
    tlb := [partCore, 0, portAgent 0].flatMap (fun k => [0, 1].map (fun p =>
      { vi := 0, core := k, page := p, bits := 16, leaf := dw (0x00800000000000F0 + 0x10000 * p), leafPa := 0x100000 + 8 * p })) }

/-- An engine posting that passes its steps. -/
def meetsPostResult (s : State) (i : Instr) : Bool :=
  match meets s i with
  | none => false
  | some (c, w) =>
    match s.activeLanes c w i with
    | [k] =>
      let p := postingOf i c (s.noted c w i) (s.issued c w i).nid k
      let n := ((s.issued c w i).openGroup i c (s.noted c w i) [k]).withPosting p
      match n.wave? c.wid with
      | none => false
      | some v => !(v.lane k).inside && (match (n.tryPost p v).2 with
        | .ready _ => true
        | .trap _ => false
        | .wait _ => false)
    | _ => false

/-- A tile-mode pass always opens. -/
theorem openPass_tile (s : State) (id : Nat) (a : GfxAsk) (w : Wave) (p : Pass) (slot : Nat) (h : p.imm = false) :
    (s.openPass id a w p slot).2 = none := by
  unfold State.openPass State.emptyHeads
  rw [h]
  rfl

/-- An RPASS that passes its checks, with a slot free; that a tile-mode pass then opens is `openPass_tile`. -/
def meetsPassResult (s : State) (i : Instr) : Bool :=
  match meets s i with
  | none => false
  | some (c, w) =>
    let a := passAsk i c (s.noted c w i) (s.activeLanes c w i)
    let n := (s.issued c w i).askPass i c (s.noted c w i) (s.activeLanes c w i)
    match n.wave? c.wid with
    | none => false
    | some v =>
      match n.checkPass a v with
      | (m, .ready p) =>
        (match (List.range 16).find? (fun k => !has m.passes (16 * p.part + k)) with
         | some slot => !p.imm || (m.openPass (s.issued c w i).nid a v p slot).2.isNone
         | none => false)
      | (_, .trap _) => false
      | (_, .wait) => false

/-- An ORD.LEAVE inside its section with nothing left to wait for. -/
def meetsSectionLeft (s : State) (i : Instr) : Bool :=
  match meets s i with
  | none => false
  | some (c, w) =>
    match s.activeLanes c w i with
    | [k] => w.kind == .fragment && (w.lane k).inside && (s.issued c w i).mayLeave c.wid k
    | _ => false
theorem witness_IntegerArithmeticCompletes_1 :
    (((meets demo (.iaddShort 0 0 0)).isSome) &&
     ((meets demo (.iadd .wrap .s32 {})).isSome) &&
     ((meets demo (.isubShort 0 0 0)).isSome) &&
     ((meets demo (.isub .wrap .s32 {})).isSome) &&
     ((meets demo (.imulShort 0 0 0)).isSome) &&
     ((meets demo (.imul .wrap .s32 {})).isSome) &&
     ((meets demo (.iaddImmShort 0 0 0)).isSome) &&
     ((meets demo (.iaddImm .wrap .s32 {})).isSome)) = true := by decide +kernel

theorem witness_IntegerArithmeticCompletes_2 :
    (((meets demo (.imadShort 0 0 0)).isSome) &&
     ((meets demo (.imad .wrap .s32 {})).isSome) &&
     ((meets demo (.idivShort 0 0 0)).isSome) &&
     ((meets demo (.idiv .s32 {})).isSome) &&
     ((meets demo (.iremShort 0 0 0)).isSome) &&
     ((meets demo (.irem .s32 {})).isSome) &&
     ((meets demo (.iminShort 0 0 0)).isSome) &&
     ((meets demo (.imin .s32 {})).isSome)) = true := by decide +kernel

theorem witness_IntegerArithmeticCompletes_3 :
    (((meets demo (.imaxShort 0 0 0)).isSome) &&
     ((meets demo (.imax .s32 {})).isSome) &&
     ((meets demo (.iabsShort 0 0)).isSome) &&
     ((meets demo (.iabs .wrap .s32 {})).isSome) &&
     ((meets demo (.inegShort 0 0)).isSome) &&
     ((meets demo (.ineg .wrap .s32 {})).isSome)) = true := by decide +kernel

theorem witness_LogicAndShiftsComplete_1 :
    (((meets demo (.andShort 0 0 0)).isSome) &&
     ((meets demo (.and .b32 {})).isSome) &&
     ((meets demo (.orShort 0 0 0)).isSome) &&
     ((meets demo (.or .b32 {})).isSome) &&
     ((meets demo (.xorShort 0 0 0)).isSome) &&
     ((meets demo (.xor .b32 {})).isSome) &&
     ((meets demo (.notShort 0 0)).isSome) &&
     ((meets demo (.not .b32 {})).isSome)) = true := by decide +kernel

theorem witness_LogicAndShiftsComplete_2 :
    (((meets demo (.shlShort 0 0 0)).isSome) &&
     ((meets demo (.shl .b32 {})).isSome) &&
     ((meets demo (.shrShort 0 0 0)).isSome) &&
     ((meets demo (.shr .b32 {})).isSome) &&
     ((meets demo (.sarShort 0 0 0)).isSome) &&
     ((meets demo (.sar .b32 {})).isSome) &&
     ((meets demo (.rotShort 0 0 0)).isSome) &&
     ((meets demo (.rot .b32 {})).isSome)) = true := by decide +kernel

theorem witness_LogicAndShiftsComplete_3 :
    (((meets demo (.popcShort 0 0)).isSome) &&
     ((meets demo (.popc .b32 {})).isSome) &&
     ((meets demo (.clzShort 0 0)).isSome) &&
     ((meets demo (.clz .b32 {})).isSome) &&
     ((meets demo (.brevShort 0 0)).isSome) &&
     ((meets demo (.brev .b32 {})).isSome) &&
     ((meets demo (.bfx false .b32 {})).isSome) &&
     ((meets demo (.bfi .b32 {})).isSome)) = true := by decide +kernel

theorem witness_MovesComplete :
    (((meets demo (.leaShort 0 0 0)).isSome) &&
     ((meets demo (.lea .x1 {})).isSome) &&
     ((meets demo (.movShort 0 0)).isSome) &&
     ((meets demo (.mov {})).isSome) &&
     ((meets demo (.movLo {})).isSome) &&
     ((meets demo (.movHi {})).isSome) &&
     ((meets demo (.sel .b32 {})).isSome)) = true := by decide +kernel

theorem witness_CompareCompletes :
    (((meets demo (.icmpShort 0 0 1)).isSome) &&
     ((meets demo (.icmp .eq .s32 { dst := 1 })).isSome) &&
     ((meets demo (.fcmpShort 0 0 1)).isSome) &&
     ((meets demo (.fcmp .eq .f32 { dst := 1 })).isSome) &&
     ((meets demo (.kset false { dst := 1 })).isSome)) = true := by decide +kernel

theorem witness_FloatArithmeticCompletes_1 :
    (((meets demo (.faddShort 0 0 0)).isSome) &&
     ((meets demo (.fadd .f32 {})).isSome) &&
     ((meets demo (.fsubShort 0 0 0)).isSome) &&
     ((meets demo (.fsub .f32 {})).isSome) &&
     ((meets demo (.fmulShort 0 0 0)).isSome) &&
     ((meets demo (.fmul .f32 {})).isSome) &&
     ((meets demo (.fmaShort 0 0 0)).isSome) &&
     ((meets demo (.fma .f32 {})).isSome)) = true := by decide +kernel

theorem witness_FloatArithmeticCompletes_2 :
    (((meets demo (.fminShort 0 0 0)).isSome) &&
     ((meets demo (.fmin .f32 {})).isSome) &&
     ((meets demo (.fmaxShort 0 0 0)).isSome) &&
     ((meets demo (.fmax .f32 {})).isSome) &&
     ((meets demo (.fabsShort 0 0)).isSome) &&
     ((meets demo (.fabs .f32 {})).isSome) &&
     ((meets demo (.fnegShort 0 0)).isSome) &&
     ((meets demo (.fneg .f32 {})).isSome)) = true := by decide +kernel

theorem witness_FloatArithmeticCompletes_3 :
    (((meets demo (.fcpsShort 0 0 0)).isSome) &&
     ((meets demo (.fcps .f32 {})).isSome)) = true := by decide +kernel

theorem witness_FloatConversionCompletes_1 :
    (((meets demo (.fclsShort 0 0)).isSome) &&
     ((meets demo (.fcls .f32 {})).isSome) &&
     ((meets demo (.frndShort 0 0)).isSome) &&
     ((meets demo (.frnd .f32 {})).isSome) &&
     ((meets demo (.cvtf .f16 .f32 {})).isSome) &&
     ((meets demo (.cvtfi .f32 .s32 {})).isSome) &&
     ((meets demo (.cvtif .f32 .s32 {})).isSome) &&
     ((meets demo (.cvtsc false {})).isSome)) = true := by decide +kernel

theorem witness_FloatConversionCompletes_2 :
    (((meets demo (.fpack .f16 {})).isSome)) = true := by decide +kernel

theorem witness_FunctionUnitCompletes_1 :
    (((meets demo (.fdivShort 0 0 0)).isSome) &&
     ((meets demo (.fdiv .f32 {})).isSome) &&
     ((meets demo (.fsqrtShort 0 0)).isSome) &&
     ((meets demo (.fsqrt .f32 {})).isSome) &&
     ((meets demo (.frcpShort 0 0)).isSome) &&
     ((meets demo (.frcp .f32 {})).isSome) &&
     ((meets demo (.frsqShort 0 0)).isSome) &&
     ((meets demo (.frsq .f32 {})).isSome)) = true := by decide +kernel

theorem witness_FunctionUnitCompletes_2 :
    (((meets demo (.fexpShort 0 0)).isSome) &&
     ((meets demo (.fexp false {})).isSome) &&
     ((meets demo (.flogShort 0 0)).isSome) &&
     ((meets demo (.flog false {})).isSome) &&
     ((meets demo (.fsinShort 0 0)).isSome) &&
     ((meets demo (.fsin false {})).isSome) &&
     ((meets demo (.fcosShort 0 0)).isSome) &&
     ((meets demo (.fcos false {})).isSome)) = true := by decide +kernel

theorem witness_FunctionUnitCompletes_3 :
    (((meets demo (.ftanShort 0 0)).isSome) &&
     ((meets demo (.ftan {})).isSome) &&
     ((meets demo (.ftanhShort 0 0)).isSome) &&
     ((meets demo (.ftanh {})).isSome) &&
     ((meets demo (.fatanShort 0 0)).isSome) &&
     ((meets demo (.fatan {})).isSome)) = true := by decide +kernel

theorem witness_ExchangeCompletes_1 :
    (((meets demo (.shflShort 0 0 0)).isSome) &&
     ((meets demo (.shfl .b32 {})).isSome) &&
     ((meets demo (.shflupShort 0 0 0)).isSome) &&
     ((meets demo (.shflup .b32 {})).isSome) &&
     ((meets demo (.shfldnShort 0 0 0)).isSome) &&
     ((meets demo (.shfldn .b32 {})).isSome) &&
     ((meets demo (.shflxShort 0 0 0)).isSome) &&
     ((meets demo (.shflx .b32 {})).isSome)) = true := by decide +kernel

theorem witness_ExchangeCompletes_2 :
    (((meets demo (.bcast .b32 {})).isSome) &&
     ((meets demo (.scan .add .s32 {})).isSome) &&
     ((meets demo (.reduce .add .s32 { dst := 1 })).isSome)) = true := by decide +kernel

theorem witness_RowOperationsComplete :
    (((meets demo (.band {})).isSome) &&
     ((meets demo (.ppopc {})).isSome) &&
     ((meets demo (.igath .b32 {})).isSome) &&
     ((meets demo (.cmpr .b32 {})).isSome) &&
     ((meets demo (.expd .b32 {})).isSome) &&
     ((meets demo (.topk false .f32 { w2 := 1 })).isSome)) = true := by decide +kernel

theorem witness_WaveLevelCompletes :
    (((meets demo (.movW {})).isSome) &&
     ((meets demo (.movFws {})).isSome) &&
     ((meets demo (.movTws {})).isSome) &&
     ((meets demo (.kop .and { dst := 1 })).isSome) &&
     ((meets demo (.kmov false { dst := 1 })).isSome) &&
     ((meets demo (.kpopc {})).isSome) &&
     ((meets demo (.vote .any {})).isSome) &&
     ((meets demo (.kset true { dst := 1 })).isSome)) = true := by decide +kernel

theorem witness_BranchesComplete :
    ((meetsBranch demo (fun c _ _ => some (directTarget c (.braShort 0))) (.braShort 0)) &&
     (meetsBranch demo (fun c _ _ => some (directTarget c (.bra ({} : Fields)))) (.bra {})) &&
     (meetsBranch demo (brcGo .eq .s32 (.brc .eq .s32 ({} : Fields))) (.brc .eq .s32 {})) &&
     (meetsBranch demo (fun c _ _ => some (directTarget c (.callShort 0))) (.callShort 0)) &&
     (meetsBranch demo (fun c _ _ => some (directTarget c (.call ({} : Fields)))) (.call {})) &&
     (meetsBranch demo (fun _ w k => some (dw (opA (.callInd ({} : Fields)) w (w.lane k)))) (.callInd {})) &&
     (meetsBranch demo (fun _ w k => some (dw ((w.lane k).read 14 2))) (.retShort)) &&
     (meetsBranch demo (fun _ w k => some (dw ((w.lane k).read 14 2))) (.ret {}))) = true := by decide +kernel

theorem witness_LoopsComplete :
    ((meetsTurn (demoOf { demoWave with lanes := [{ level := 2, v := [(0, 3)] }, { level := 2 }] }) id (loopTurn (.loopShort 0 0 1) (fun ln => (ln.rv (fieldsOf (.loopShort 0 0 1)).sa.toNat).toNat)) (.loopShort 0 0 1)) &&
     (meetsTurn (demoOf { demoWave with lanes := [{ level := 2, v := [(0, 3)] }, { level := 2 }] }) id (loopTurn (.loop 0 ({ w2 := 3 } : Fields)) (fun ln => (ln.rv (fieldsOf (.loop 0 ({ w2 := 3 } : Fields))).sa.toNat).toNat)) (.loop 0 { w2 := 3 })) &&
     (meetsTurn demo id (loopTurn (.loopI 0 ({ w2 := 0x00010003 } : Fields)) (fun _ => loopImm (.loopI 0 ({ w2 := 0x00010003 } : Fields)))) (.loopI 0 { w2 := 0x00010003 }))) = true := by decide +kernel

theorem witness_WaitsComplete :
    ((meetsWait demo (.sleepShort 0)) &&
     (meetsWait demo (.sleep {})) &&
     (meetsWait demo (.sleepFor { w2 := 0x80000000 })) &&
     (meetsWait demo (.waitFullShort 0) && !(fieldsOf (.waitFullShort 0)).epa) &&
     (meetsWait demo (.waitFull {}) && !(fieldsOf (.waitFull {})).epa) &&
     (meetsWait demo (.waitEmpty { w2 := 1 })) &&
     (meetsWait demo (.cmtWaitShort)) &&
     (meetsWait demo (.cmtWait {}))) = true := by decide +kernel

theorem witness_BarriersComplete :
    ((meetsOut demo (barOut .barWvShort) (.barWvShort)) &&
     (meetsOut demo (barOut (.barWv ({} : Fields))) (.barWv {})) &&
     (meetsOut demoLaunched (barOut (.barBlk ({} : Fields))) (.barBlk {})) &&
     (meetsBarrier demo .barWvShort) &&
     (meetsBarrier demo (.barWv {})) &&
     (meetsBarrier demoLaunched (.barBlk {}))) = true := by decide +kernel

theorem witness_ThreadControlCompletes_1 :
    (((meets demo (.trapShort 0)).isSome) &&
     ((meets demo (.trap {})).isSome) &&
     (meetsOut (demoOf { demoWave with kind := .launched }) endOut (.endShort)) &&
     (meetsEffect (demoOf { demoWave with kind := .launched }) allOutside (.endShort)) &&
     (meetsOut (demoOf { demoWave with kind := .launched }) endOut (.endLane {})) &&
     (meetsEffect (demoOf { demoWave with kind := .launched }) allOutside (.endLane {})) &&
     (meetsOut demo (spawnOut (.spawn false ({ sc := 2 } : Fields))) (.spawn false { sc := 2 })) &&
     (meetsTurn demo id yieldTurn (.yieldShort))) = true := by decide +kernel

theorem witness_ThreadControlCompletes_2 :
    ((meetsTurn demo id yieldTurn (.yieldNow {})) &&
     (meetsOut demo (cmtPosOut (.cmtPos ({} : Fields))) (.cmtPos {}))) = true := by decide +kernel

theorem witness_GlobalAccessesComplete :
    ((meetsTurn demo (fun s => s.fresh.2) (accessTurn (.ldShort 0 0 0)) (.ldShort 0 0 0)) &&
     (meetsTurn demo (fun s => s.fresh.2) (accessTurn (.ld .b4 ({} : Fields))) (.ld .b4 {})) &&
     (meetsTurn demo (fun s => s.fresh.2) (accessTurn (.stShort 0 0 0)) (.stShort 0 0 0)) &&
     (meetsTurn demo (fun s => s.fresh.2) (accessTurn (.st .b4 ({} : Fields))) (.st .b4 {})) &&
     (meetsTurn demo (fun s => s.fresh.2) (accessTurn (.atom .add .s32 ({} : Fields))) (.atom .add .s32 {})) &&
     (meetsTurn demo (fun s => s.fresh.2) (accessTurn (.cas .s32 ({} : Fields))) (.cas .s32 {})) &&
     (meetsTurn demo (fun s => s.fresh.2) (accessTurn (.fatom .add .f32 ({} : Fields))) (.fatom .add .f32 {}))) = true := by decide +kernel

theorem witness_WaveAccessesAndHintsComplete :
    ((meetsWaveAccess demo (.ldw .b4 {})) &&
     (meetsWaveAccess demo (.stw .b4 {})) &&
     (meetsTurn demo id (fenceTurn .full 4) (.fenceShort)) &&
     (meetsTurn demo id (fenceTurn .full ({} : Fields).scope.toNat) (.fence .full {})) &&
     (meetsTurn demo id (prefTurn (.prefShort 0 0)) (.prefShort 0 0)) &&
     (meetsTurn demo id (prefTurn (.pref ({} : Fields))) (.pref {})) &&
     (meetsTurn demo (fun s => s.fresh.2) (flushTurn (.flushShort 0 0)) (.flushShort 0 0)) &&
     (meetsTurn demo (fun s => s.fresh.2) (flushTurn (.flush ({} : Fields))) (.flush {}))) = true := by decide +kernel

theorem witness_ScratchpadAccessesComplete_1 :
    ((meetsTurn (demoBanks 1) (fun s => s.fresh.2) (spadTurn (.ldsShort 0 0)) (.ldsShort 0 0)) &&
     (meetsTurn (demoBanks 1) (fun s => s.fresh.2) (spadTurn (.lds .b4 ({} : Fields))) (.lds .b4 {})) &&
     (meetsTurn (demoBanks 1) (fun s => s.fresh.2) (spadTurn (.stsShort 0 0)) (.stsShort 0 0)) &&
     (meetsTurn (demoBanks 1) (fun s => s.fresh.2) (spadTurn (.sts .b4 ({} : Fields))) (.sts .b4 {})) &&
     (meetsTurn (demoBanks 1) (fun s => s.fresh.2) (spadTurn (.fillShort 0 0)) (.fillShort 0 0)) &&
     (meetsTurn (demoBanks 1) (fun s => s.fresh.2) (spadTurn (.fill .b4 ({} : Fields))) (.fill .b4 {})) &&
     (meetsTurn (demoBanks 1) (fun s => s.fresh.2) (spadTurn (.drainShort 0 0)) (.drainShort 0 0)) &&
     (meetsTurn (demoBanks 1) (fun s => s.fresh.2) (spadTurn (.drain .b4 ({} : Fields))) (.drain .b4 {}))) = true := by decide +kernel

theorem witness_ScratchpadAccessesComplete_2 :
    ((meetsTurn (demoBanks 1) (fun s => s.fresh.2) (spadTurn (.seteShort 0)) (.seteShort 0)) &&
     (meetsTurn (demoBanks 1) (fun s => s.fresh.2) (spadTurn (.sete .b4 ({} : Fields))) (.sete .b4 {})) &&
     (meetsTurn (demoBanks 2) (fun s => s.fresh.2) (spadTurn (.pushShort 0 0)) (.pushShort 0 0)) &&
     (meetsTurn (demoBanks 2) (fun s => s.fresh.2) (spadTurn (.push ({} : Fields))) (.push {})) &&
     (meetsTurn (demoBanks 2) (fun s => s.fresh.2) (spadTurn (.popShort 0 0)) (.popShort 0 0)) &&
     (meetsTurn (demoBanks 2) (fun s => s.fresh.2) (spadTurn (.pop ({} : Fields))) (.pop {})) &&
     (meetsTurn (demoBanks 1) (fun s => s.fresh.2) (spadTurn (.rbrdShort 0 0)) (.rbrdShort 0 0)) &&
     (meetsTurn (demoBanks 1) (fun s => s.fresh.2) (spadTurn (.rbrd ({} : Fields))) (.rbrd {}))) = true := by decide +kernel

theorem witness_ScratchpadAccessesComplete_3 :
    ((meetsTurn (demoBanks 1) (fun s => s.fresh.2) (spadTurn (.rbaddShort 0 0)) (.rbaddShort 0 0)) &&
     (meetsTurn (demoBanks 1) (fun s => s.fresh.2) (spadTurn (.rbadd ({} : Fields))) (.rbadd {})) &&
     (meetsTurn (demoBanks 1) (fun s => s.fresh.2) (spadTurn (.atoms .add .s32 ({} : Fields))) (.atoms .add .s32 {})) &&
     (meetsTurn (demoBanks 1) (fun s => s.fresh.2) (spadTurn (.cass .s32 ({} : Fields))) (.cass .s32 {})) &&
     (meetsTurn (demoBanks 1) (fun s => s.fresh.2) (spadTurn (.fatoms .add .f32 ({} : Fields))) (.fatoms .add .f32 {}))) = true := by decide +kernel

theorem witness_RowWaitsAndBankRequestsComplete :
    ((meetsTurn (demoBanks 1) id (rbwaitTurn (.rbwaitShort 0 0)) (.rbwaitShort 0 0)) &&
     (meetsTurn (demoBanks 1) id (rbwaitTurn (.rbwait ({} : Fields))) (.rbwait {})) &&
     (meetsOut (demo.sysPut 0x10 0 0x80) (bankreqOut ({} : Fields)) (.bankreq {})) &&
     (meetsEffect (demo.sysPut 0x10 0 0x80) (fun _ _ _ _ => true) (.bankreq {}))) = true := by decide +kernel

theorem witness_AllowancesComplete :
    ((meetsTurn demoTill (fun s => s.fresh.2) (tillTurn (.take ({} : Fields))) (.take {})) &&
     (meetsTurn demoTill (fun s => s.fresh.2) (tillTurn (.takeTry ({} : Fields))) (.takeTry {})) &&
     (meetsTurn demoTill (fun s => s.fresh.2) (tillTurn (.give ({} : Fields))) (.give {})) &&
     (meetsTurn demo (fun s => s.fresh.2) (tillTurn (.acinit ({} : Fields))) (.acinit {})) &&
     (meetsTurn demoTill (fun s => s.fresh.2) (tillTurn (.stock ({} : Fields))) (.stock {}))) = true := by decide +kernel

theorem witness_MatrixOperationsComplete :
    ((meetsOut (demoMatrix .f32 0) (matOut (.mlatb .f32 ({} : Fields)) (useMlatb .f32 (.mlatb .f32 ({} : Fields))) (partOnly (enterMlatb .f32))) (.mlatb .f32 {})) &&
     (meetsOut (demoMatrix .f32 0) (matOut (.mcbt ({ sa := 1 } : Fields)) (useMcbt (.mcbt ({ sa := 1 } : Fields))) (partOnly (enterMcbt (.mcbt ({ sa := 1 } : Fields))))) (.mcbt { sa := 1 })) &&
     (meetsOut (demoMatrix .f32 0) (matOut (.mzero ({} : Fields)) (useMzero (.mzero ({} : Fields))) (partOnly enterMzero)) (.mzero {})) &&
     (meetsOut (demoMatrix .f32 0) (matOut (.mst ({} : Fields)) (fun s w l => useRows (.mst ({} : Fields)) (s.tileAt w.core ({} : Fields).dst.toNat).kind false s w l) (partOnly matEnter)) (.mst {})) &&
     (meetsOut (demoMatrix .f32 0) (matOut (.mmv ({} : Fields)) (fun s w l => useRows (.mmv ({} : Fields)) (w2f ({} : Fields) 17 16) true s w l) (partOnly enterMmv)) (.mmv {})) &&
     (meetsOut (demoMatrix .f32 0) (matOut (.mma .f32 ({ sa := 2, w2 := 0x80000000 } : Fields)) (useMma .f32 (.mma .f32 ({ sa := 2, w2 := 0x80000000 } : Fields))) (mmaDone (.mma .f32 ({ sa := 2, w2 := 0x80000000 } : Fields)))) (.mma .f32 { sa := 2, w2 := 0x80000000 })) &&
     (meetsOut (demoMatrix .e4m3 0) (matOut (.mmas .e4m3 ({ sa := 2, sc := 3, w2 := 0x80000000 } : Fields)) (useMma .e4m3 (.mmas .e4m3 ({ sa := 2, sc := 3, w2 := 0x80000000 } : Fields))) (mmaDone (.mmas .e4m3 ({ sa := 2, sc := 3, w2 := 0x80000000 } : Fields)))) (.mmas .e4m3 { sa := 2, sc := 3, w2 := 0x80000000 })) &&
     (meetsOut (demoMatrix .s8 1) (matOut (.mmai .s8 ({ sa := 2, w2 := 0x80000000 } : Fields)) (useMma .s8 (.mmai .s8 ({ sa := 2, w2 := 0x80000000 } : Fields))) (mmaDone (.mmai .s8 ({ sa := 2, w2 := 0x80000000 } : Fields)))) (.mmai .s8 { sa := 2, w2 := 0x80000000 }))) = true := by decide +kernel

theorem witness_MatrixStateCompletes :
    ((meetsOut (demoMatrix .f32 0) (mrdOut (.mrd ({} : Fields))) (.mrd {})) &&
     (meetsOut demo (mstatOut (.mstat ({} : Fields)) 0) (.mstat {})) &&
     (meetsOut demo (mstatOut (.mstatClr ({} : Fields)) (w2f ({} : Fields) 3 0)) (.mstatClr {})) &&
     (meetsOut demo (mwaitOut (.mwait ({ w2 := 1 } : Fields))) (.mwait { w2 := 1 })) &&
     (meetsOut (demoMatrix .f32 0) (mrelOut (.mrel ({ w2 := 1 } : Fields))) (.mrel { w2 := 1 })) &&
     (meetsEffect (demoMatrix .f32 0) (fun n c u _ => !(n.coreAt u.core).busyRes c.wid (w2f ({ w2 := 1 } : Fields) 4 0)) (.mrel { w2 := 1 })) &&
     (meetsOut demo (msignOut (.msignShort 0)) (.msignShort 0)) &&
     (meetsOut demo (msignOut (.msign ({} : Fields))) (.msign {}))) = true := by decide +kernel

theorem witness_EnginePostingsComplete :
    ((meetsPostResult (demoBanks 1) (.tcopy {})) &&
     (meetsPostResult (demoBanks 1) (.tgath {})) &&
     (meetsPostResult (demoBanks 1) (.tscat {})) &&
     (meetsPostResult (demoBlock [(5, 0x110)]) (.fconv {})) &&
     (meetsPostResult demoReduction (.sred {})) &&
     (meetsPostResult (demoBlock [(2, 1), (3, 4)]) (.embag {}))) = true := by decide +kernel

theorem witness_GraphicsInstructionsComplete_1 :
    ((meetsOut demoPassed (drawOut ({ dst := 4, w2 := 1 } : Fields)) (.draw { dst := 4, w2 := 1 })) &&
     (meetsPassResult (demoDesc false) (.rpassTile {})) &&
     (meetsPassResult (demoDesc true) (.rpassImm {})) &&
     (meetsTurn (demoFragment false) id (ordEnterTurn (.ordEnter ({} : Fields))) (.ordEnter {})) &&
     (meetsSectionLeft (demoFragment true) (.ordLeave {})) &&
     (meetsTurn demoPassed (fun s => s.fresh.2) (fliTurn (.fli ({ w2 := 4 } : Fields))) (.fli { w2 := 4 })) &&
     (meetsTurn demoPassed (fun s => s.fresh.2) (flwTurn (.flw ({ w2 := 4 } : Fields))) (.flw { w2 := 4 })) &&
     (meetsTurn demo (fun s => s.fresh.2) (rayqTurn (.rayq ({} : Fields))) (.rayq {}))) = true := by decide +kernel

theorem witness_GraphicsInstructionsComplete_2 :
    ((meetsTurn demoPassed (fun s => s.fresh.2) (rayqAppTurn (.rayqApp ({ w2 := 4 } : Fields))) (.rayqApp { w2 := 4 }))) = true := by decide +kernel

theorem witness_SystemInstructionsComplete_1 :
    ((meetsOut demo (sysOut (.sysrd ({ w2 := 0x00FF0080 } : Fields)) noWait (sysrdDone ({ w2 := 0x00FF0080 } : Fields))) (.sysrd { w2 := 0x00FF0080 })) &&
     (meetsOut demo (sysOut (.syswr ({ w2 := 0x00FF0080 } : Fields)) noWait (syswrDone ({ w2 := 0x00FF0080 } : Fields))) (.syswr { w2 := 0x00FF0080 })) &&
     (meetsEffect demo (fun n c u run => syswrFree ({ w2 := 0x10 } : Fields) n c u run &&
      (syswrWrite ({ w2 := 0x10 } : Fields) n c u run).2) (.syswr { w2 := 0x10 })) &&
     (meetsOut demo (sysOut (.sysopIcinv ({} : Fields)) noWait (sysopDone icinvEff)) (.sysopIcinv {})) &&
     (meetsEffect demo (fun n c u run => n.sysReady c.wid run && !noWait n c u run) (.sysopIcinv {})) &&
     (meetsOut demo (sysOut (.sysopDcwb ({} : Fields)) noWait (sysopDone dcwbEff)) (.sysopDcwb {})) &&
     (meetsEffect demo (fun n c u run => n.sysReady c.wid run && !noWait n c u run) (.sysopDcwb {})) &&
     (meetsOut demo (sysOut (.sysopXlinv ({} : Fields)) (xlinvHeld ({} : Fields)) (sysopDone (xlinvEff ({} : Fields)))) (.sysopXlinv {}))) = true := by decide +kernel

theorem witness_SystemInstructionsComplete_2 :
    ((meetsEffect demo (fun n c u run => n.sysReady c.wid run && !(xlinvHeld ({} : Fields)) n c u run) (.sysopXlinv {})) &&
     (meetsOut demo (sysOut (.sysopXlinvAll ({ w2 := 1 } : Fields)) xlinvAllHeld (sysopDone xlinvAllEff)) (.sysopXlinvAll { w2 := 1 })) &&
     (meetsEffect demo (fun n c u run => n.sysReady c.wid run && !xlinvAllHeld n c u run) (.sysopXlinvAll { w2 := 1 })) &&
     (meetsOut (demoOf { demoWave with lanes := [{ level := 2, inh := true }] }) eretOut (.eret {})) &&
     (meetsEffect (demoOf { demoWave with lanes := [{ level := 2, inh := true }] }) (fun _ _ u run => run.all (fun k => (u.lane k).inh)) (.eret {}))) = true := by decide +kernel


/-- A state about to perform an event. -/
def demoAt (o : Occ) : State := { demo with cur := none, gt := 100, occ := o }

/-- The same with lane 0 of the wave waiting. -/
def demoWait (x : Wait) : State := { demoAt {} with waves := [(0, { demoWave with lanes := [{ level := 2, wait := x }, { level := 2 }] })] }

/-- The same with memory of zeros of interface 0 in a partition of every core, mapped one to one below 128 KiB. -/
def demoMapped (o : Occ) (bs : FMap Byte) : State := { demoDesc true with cur := none, gt := 100, occ := o, mem := demoMem 256 bs, tills := [] }


theorem witness_AccessesLand_1 :
    (((fun s : State => ((match look s.fills s.occ.id with | some f => true | _ => false) : Bool)) ({ demoAt { id := 5 } with fills := [(5, { wid := 0 })] })) &&
     ((fun s : State => ((match look s.ops s.occ.id with | some o => (decide (s.storeDue s.occ.id o s.occ.n = true) && (decide (o.act = .store) && (decide (o.outside = false) && true))) | _ => false) : Bool)) ({ demoAt { id := 5, n := 4 } with ops := [(5, { act := .store, size := 4, total := 4 })] })) &&
     ((fun s : State => ((match look s.ops s.occ.id with | some o => (decide (s.dDue s.occ.id o = true) && true) | _ => false) : Bool)) ({ demoAt { id := 5 } with ops := [(5, { act := .load .b4, place := .dpage, size := 4, total := 4 })] })) &&
     ((fun s : State => ((match look s.held s.occ.id with | some h => (decide (s.heldDue s.occ.id h = true) && true) | _ => false) : Bool)) ({ demoAt { id := 5 } with held := [(5, { pa := 0, req := .store [1] })] }))) = true := by decide +kernel

theorem witness_AccessesLand_2 :
    (((fun s : State => ((match look s.ops s.occ.id with | some o => (decide (s.bankDue s.occ.id o = true) && true) | _ => false) : Bool)) ({ demoAt { id := 5 } with ops := [(5, { act := .store, place := .bank, size := 1, total := 4 })] })) &&
     ((fun s : State => ((match look s.ops s.occ.id with | some o => (decide (s.bankDue s.occ.id o = false) && (decide (s.bankWoken s.occ.id o = true) && true)) | _ => false) : Bool)) ({ demoAt { id := 5 } with ops := [(5, { act := .store, place := .bank, size := 1, total := 4, arrived := true })] })) &&
     ((fun s : State => ((match look s.ops s.occ.id with | some o => (decide (o.writes = true) && (decide (o.done = false) && (decide (o.place = .line ∨ o.place = .dpage) && (decide (s.occ.n = 2) && true)))) | _ => false) : Bool)) ({ demoAt { id := 5, n := 2 } with ops := [(5, { act := .store, size := 4, total := 4 })] })) &&
     ((fun s : State => ((match look s.ops s.occ.id with | some o => (decide (o.writes = true) && (decide (o.done = false) && (match o.place with | .peer p => (decide ((s.occ.n = 1 ∨ s.occ.n = 3)) && true) | _ => false))) | _ => false) : Bool)) ({ demoAt { id := 5, n := 1 } with ops := [(5, { act := .store, place := .peer 3, size := 4, total := 4 })] }))) = true := by decide +kernel

theorem witness_TranslationTrafficProceeds_1 :
    (((fun s : State => ((decide (s.occ.index < 60) && true) : Bool)) (demoAt {})) &&
     decide (0 = (demoAt {}).bankMode 0 23) &&
     (decide (3 ≠ (demoAt {}).bankMode 59 0) && decide ((3 : Nat) = 3) && decide (2 ≠ (demoAt {}).bankMode 0 0) && !has (demoAt {}).switches 0 && has ({ demoAt {} with switches := [(0, 1)] } : State).switches 0) &&
     (decide (1 ≠ (demoAt {}).bankMode 0 0) && !(demoAt {}).switchRefused 0 0 1 false &&
      decide ((demoAt {}).bankMode 0 0 ≠ 2))) = true := by decide +kernel

theorem witness_TranslationTrafficProceeds_2 :
    (((fun s : State => ((match look s.switches (24 * s.occ.index + s.occ.n) with | some mode => (decide (s.switchDue s.occ.index s.occ.n = true) && true) | _ => false) : Bool)) ({ demoAt {} with switches := [(0, 1)] })) &&
     ((fun s : State => ((decide ((tlbHit s.tlb s.occ.vi s.occ.core s.occ.value.toNat) = none) &&
      (decide (bits (s.sysAt 0x300 s.occ.vi) 63 63 = 0) && true)) : Bool)) (demoAt {})) &&
     ((fun s : State => ((match s.translate s.occ.vi s.occ.core (if s.occ.ok then 1 else 0) s.occ.value.toNat s.occ.n (if s.occ.n = 2 then .atomic else .lane) with | (m, r) => true) : Bool)) (demoAt {})) &&
     ((fun s : State => ((match look s.transit s.occ.pa with | some t => (decide (t.recalled = false) && true) | _ => false) : Bool)) ({ demoAt {} with transit := [(0, { vi := 0, owner := 0, pfn := 0, bits := 16 })] }))) = true := by decide +kernel

theorem witness_TranslationTrafficProceeds_3 :
    (((fun s : State => ((match look s.transit s.occ.pa with | some t => (decide (s.reclassDue t = true) && true) | _ => false) : Bool)) ({ demoAt {} with transit := [(0, { vi := 0, owner := 0, pfn := 0, bits := 16, recalled := true })] })) &&
     ((fun s : State => ((match look s.noc (windowKey s.occ) with | some w => (decide (w.replayed = false) && (decide (w.wait ≤ (s.coreAt s.occ.core).cycle) && true)) | _ => false) : Bool)) ({ demoAt { ok := true } with noc := [(windowKey { ok := true }, {})] }))) = true := by decide +kernel

theorem witness_LanesWakeAndTimeOut_1 :
    (((fun s : State => ((match (s.laneAt s.occ.wid s.occ.lane).wait with | .sleep d => (decide (d ≤ s.gt) && true) | _ => false) : Bool)) (demoWait (.sleep 1))) &&
     ((fun s : State => ((match look s.barriers s.occ.id with | some b => (decide (s.barrierExpired b = true) && (decide (s.barrierFull b = false) && true)) | _ => false) : Bool)) ({ demoAt { id := 5 } with barriers := [(5, { isWave := true, wid := 0, timeout := 1, arrived := [(0, 0)] })] })) &&
     ((fun s : State => ((match (s.laneAt s.occ.wid s.occ.lane).wait with | .commit due ticks => (decide (s.expired due = true) && (decide (s.holdsToken (s.laneAt s.occ.wid s.occ.lane).item = false) && true)) | _ => false) : Bool)) ({ demoWait (.commit 1 1) with waves := [(0, { demoWave with lanes := [{ level := 2, wait := .commit 1 1, item := 3 }] })], issuers := [(2, { vi := 0, lid := 0, core := 0 }), (3, { vi := 0, lid := 0, core := 0, key := 1 })] })) &&
     ((fun s : State => ((match (s.laneAt s.occ.wid s.occ.lane).wait with | .rowBar a b addr due traps => (decide (s.expired due = true) && true) | _ => false) : Bool)) (demoWait (.rowBar 0 0 0 1 false)))) = true := by decide +kernel

theorem witness_LanesWakeAndTimeOut_2 :
    (((fun s : State => ((match (s.laneAt s.occ.wid s.occ.lane).wait with | .sign g due b => (decide (s.expired due = true) && true) | _ => false) : Bool)) (demoWait (.sign 0 1 false))) &&
     ((fun s : State => ((match (s.coreAt (s.waveAt s.occ.wid).core).armings.find? (fun x => x.2.wid == s.occ.wid && s.expired x.2.due) with | some (id, a) => true | _ => false) : Bool)) ({ demoAt {} with cores := [(0, { armings := [(1, { wid := 0, g := 0, set := 0, entry := { act := .zero 0, wid := 0 }, due := 1, lanes := [0] })] })] })) &&
     ((fun s : State => ((match (s.waveAt s.occ.wid).idx.findSome? (fun k => s.claimOver ((s.waveAt s.occ.wid).lane k)) with | some (o, r) => true | _ => false) : Bool)) (demoWait (.claim 0 1 1))) &&
     ((fun s : State => ((match s.cmds.find? (fun x => !x.2.queued && x.2.wid == s.occ.wid && x.2.lane == s.occ.lane) with | some (id, c) => (decide (s.expired c.due = true) && true) | _ => false) : Bool)) ({ demoAt {} with cmds := [(5, { kind := .tcopy, vi := 0, wid := 0, lane := 0, core := 0, due := 1 })] }))) = true := by decide +kernel

theorem witness_LanesWakeAndTimeOut_3 :
    (((fun s : State => ((match look s.tillMsgs s.occ.id with | some m => (decide (m.act = .take) && (decide (s.expired m.due = true) && true)) | _ => false) : Bool)) ({ demoAt { id := 5 } with tillMsgs := [(5, { act := .take, line := 0, wid := 0, lane := 0, core := 0, vi := 0, due := 1 })] })) &&
     ((fun s : State => ((match ((s.waveAt s.occ.wid).lane s.occ.lane).wait with | .ordEnter due => (match ((s.waveAt s.occ.wid).lane s.occ.lane).ord with | some o => (decide (s.expired due = true) && true) | _ => false) | _ => false) : Bool)) ({ demoAt {} with waves := [(0, { demoWave with kind := .fragment, lanes := [{ wait := .ordEnter 1, ord := some {} }] })] })) &&
     ((fun s : State => ((match ((s.waveAt s.occ.wid).lane s.occ.lane).ord with | some o => (decide (o.inside = true) && (decide (s.expired o.due = true) && true)) | _ => false) : Bool)) ({ demoAt {} with waves := [(0, { demoWave with kind := .fragment, lanes := [{ ord := some { inside := true, due := 1 } }] })] }))) = true := by decide +kernel

theorem witness_RecordsReachTheirRings_1 :
    (((fun s : State => ((match look s.trapReqs s.occ.id with | some r => (decide (s.recordDue s.occ.id r = true) && (decide (r.written = true) && true)) | _ => false) : Bool)) ({ demoAt { id := 5 } with trapReqs := [(5, { vi := 0, info := { kind := 2 }, wid := 0, lanes := [0], written := true })] })) &&
     ((fun s : State => ((match look s.trapReqs s.occ.id with | some r => (decide (s.ringStalled r = true) && true) | _ => false) : Bool)) ({ demoAt { id := 5 } with trapReqs := [(5, { vi := 0, info := { kind := 2 }, wid := 1, lanes := [0], due := 1 })] })) &&
     ((fun s : State => ((match look s.trapReqs s.occ.id with | some r => (decide (s.lateStalled s.occ.id r = true) && (match s.issuer? r.item with | some i => true | _ => false)) | _ => false) : Bool)) ({ demoAt { id := 16 } with trapReqs := (List.range 17).map (fun k => (k, { vi := 0, info := { kind := 2 }, item := 3, due := 1 })), issuers := [(3, { vi := 0, lid := 0, core := 0 })] })) &&
     ((fun s : State => ((match look s.eventReqs s.occ.id with | some e => (decide (s.eventStalled s.occ.id e = true) && true) | _ => false) : Bool)) ({ demoAt { id := 5 } with eventReqs := [(5, { vi := 0, word0 := 0, tagCmd := 0, gt := 0, detail := 0, intr := false, due := 1 })] }))) = true := by decide +kernel

theorem witness_RecordsReachTheirRings_2 :
    (((fun s : State => ((decide (s.scanDue s.occ.part = true) && (decide (s.waitCycles s.occ.part s.wcdPeriod = []) && true)) : Bool)) ({ demoMapped {} [] with gt := 0x989680 })) &&
     ((fun s : State => ((decide (s.scanDue s.occ.part = true) && (match s.waitCycles s.occ.part s.wcdPeriod with | [ws] => (decide (s.reported.any (fun r => sameSet r ws) = false) && true) | _ => false)) : Bool)) ({ demoMapped {} [] with gt := 0x989680, barriers := [(5, { isWave := true, wid := 0, arrived := [(0, 0)] })], waves := [(0, { demoWave with kind := .launched, vi := 0, lanes := [{ wait := .barrier 5 }, { wait := .barrier 6 }] })] })) &&
     ((fun s : State => ((match s.cur with | some c => (match s.wave? c.wid with | some w => true | _ => false) | _ => false) : Bool)) (demo))) = true := by decide +kernel

theorem witness_CoresIssue :
    (((fun s : State => ((decide (s.soloDue s.occ.wid s.occ.lane = true) && (match s.fetchWord (s.waveAt s.occ.wid) (s.laneAt s.occ.wid s.occ.lane).level ((s.laneAt s.occ.wid s.occ.lane).pc.toNat + 4 * (s.laneAt s.occ.wid s.occ.lane).soloGot) with | (m, .ok x) => true | _ => false)) : Bool)) ({ demoAt {} with boot := .firmware, cores := [(0, { cycle := 100 })], waves := [(0, { demoWave with lanes := [{ level := 2, diverged := true }] })], mem := demoMem 16 [(0, 0x10), (1, 0x10), (3, 0x14)] }))) = true := by decide +kernel

theorem witness_SchedulerWorks_1 :
    (((fun s : State => ((decide (s.canRead s.occ.vi = true) && (decide (s.nextOp s.occ.vi ≠ 2) && (match s.takeEntry s.occ.vi with | (m, some (num, x)) => (decide (m.entryError s.occ.vi x = none) && (match m.launchJob s.occ.vi num x with | (n, some j) => true | _ => false)) | _ => false))) : Bool)) (((demoMapped {} [(7, 0x10), (64, 0xC0), (200, 3), (207, 1)]).sysPut 0x20A 0 1))) &&
     ((fun s : State => ((match s.job? s.occ.id with | some j => (decide (s.startDue s.occ.id j = true) && (decide (j.sroom = 0) && true)) | _ => false) : Bool)) ({ demoMapped { id := 5 } [] with jobs := [(5, { vi := 0, num := 1, width := 1, height := 1 })], holders := [(0, { vi := 0, stop := 1000 })] })) &&
     ((fun s : State => ((match s.job? s.occ.id with | some j => (decide (s.startDue s.occ.id j = true) && (decide (j.sroom ≠ 0) && (match s.engNow (gfxAgent j.vi partCore j.level) j.sctr.toNat 1 with | (m, .ok (pa, false)) => (decide (isMemory pa = true) && (decide (m.till? pa = none) && (decide (m.tillFree pa = true) && true))) | _ => false))) | _ => false) : Bool)) ({ demoMapped { id := 5 } [] with jobs := [(5, { vi := 0, num := 1, width := 1, height := 1, sroom := 1, sctr := 0x80 })], holders := [(0, { vi := 0, stop := 1000 })] })) &&
     ((fun s : State => ((match s.placeFor s.occ.core with | some (.launched id i j, p) => true | _ => false) : Bool)) ({ demoMapped {} [] with jobs := [(5, { vi := 0, num := 1, width := 1, height := 1, prog := { width := 64, regs := 16 } })], issuers := [(6, { vi := 0, lid := 5, core := 0 })], waves := [], holders := [(0, { vi := 0, stop := 1000 })] }))) = true := by decide +kernel

theorem witness_SchedulerWorks_2 :
    (((fun s : State => ((match s.placeFor s.occ.core with | some (.formed id f, p) => (decide (isPassKind f.kind = true) && true) | _ => false) : Bool)) ({ demoMapped {} [] with passes := [(0, demoPass)], formed := [(6, { kind := .fragment, core := 0, vi := 0, prog := { width := 64, regs := 16 } })], waves := [], holders := [(0, { vi := 0, stop := 1000 })] })) &&
     ((fun s : State => ((match s.placeFor s.occ.core with | some (.formed id f, p) => (decide (isPassKind f.kind = false) && (match s.job? f.lid with | some j => (decide (f.items.all (fun k => ((s.issuer? k).filter (fun i => i.stage == .unplaced)).isNone) = false) && true) | _ => false)) | _ => false) : Bool)) ({ demoMapped {} [] with jobs := [(5, { vi := 0, num := 1, width := 1, height := 1 })], issuers := [(7, { vi := 0, lid := 5, core := 0, isItem := true })], formed := [(6, { kind := .spawned, core := 0, vi := 0, lid := 5, items := [7], prog := { width := 64, regs := 16 } })], waves := [], holders := [(0, { vi := 0, stop := 1000 })] })) &&
     ((fun s : State => ((match look s.spawns s.occ.id with | some r => (match s.job? (s.waveAt r.wid).lid with | some j => (match s.spawnCauses r j with | (m, cs) => (decide (cs.any (fun x => x.2.1.isSome) = false) && (decide (j.cancelAt = none) && (match m.tryNow j.sctrPa r.core cs.length with | (n, true) => true | _ => false)))) | _ => false) | _ => false) : Bool)) ({ demoMapped { id := 5 } [(200, 3), (207, 1)] with spawns := [(5, { wid := 0, core := 0, cycle := 0, asks := [{ lane := 0, pc := 0, item := 3, arg := 0, key := 1, desc := 0xC0, dst := 4 }] })], jobs := [(0, { vi := 0, num := 1, sctrPa := 0x80, prog := { sdepth := 1 } })], tills := [(0x80, { till := 5, limit := 9, vi := 0 })], waves := [(0, { demoWave with kind := .launched, vi := 0, lid := 0 })] })) &&
     ((fun s : State => ((match s.nextGroup s.occ.core with | some es => (decide (s.groupFull s.occ.core es = true) && true) | _ => false) : Bool)) ({ demoAt {} with waves := [], issuers := [(7, { vi := 0, lid := 5, core := 0, isItem := true, stage := .queued, prog := { width := 8 } })] }))) = true := by decide +kernel

theorem witness_SchedulerWorks_3 :
    (((fun s : State => ((match s.nextGroup s.occ.core with | some es => (decide (s.groupFull s.occ.core es = false) && true) | _ => false) : Bool)) ({ demoAt {} with waves := [], cores := [(0, { cycle := 600 })], issuers := [(6, { vi := 0, lid := 5, core := 0 }), (7, { vi := 0, lid := 5, core := 0, isItem := true, stage := .queued, prog := { width := 8 } })] })) &&
     ((fun s : State => ((match s.issuer? s.occ.id with | some i => (decide (s.completeDue s.occ.id i = true) && true) | _ => false) : Bool)) ({ demoAt { id := 5 } with issuers := [(5, { vi := 0, lid := 0, core := 0, stage := .retired, committed := true })] })) &&
     ((fun s : State => ((decide (s.canRead s.occ.vi = true) && (decide (s.nextOp s.occ.vi = 2) && (match s.takeEntry s.occ.vi with | (m, some (num, x)) => (decide (m.entryError s.occ.vi x = none) && (match m.jobs.find? (fun y => y.2.vi == s.occ.vi && y.2.num == entryField x 8 31 0 && !y.2.isCancel) with | some (lid, j) => (decide (j.started = true) && true) | _ => false)) | _ => false))) : Bool)) ({ (demoMapped {} [(7, 0x20)]).sysPut 0x20A 0 1 with jobs := [(5, { vi := 0, num := 0, started := true })] })) &&
     ((fun s : State => ((match s.job? s.occ.id with | some j => (decide (j.cancelAt.isSome = true) && (decide (j.reached.contains s.occ.core = false) && (decide (s.coreOfVi j.vi s.occ.core = true) && true))) | _ => false) : Bool)) ({ demoMapped { id := 5 } [] with jobs := [(5, { vi := 0, num := 1, cancelAt := some 1 })] }))) = true := by decide +kernel

theorem witness_CommitsAndTillsProceed_1 :
    (((fun s : State => ((decide (s.commitDue s.occ.vi = true) && (match s.tokenHolder s.occ.vi with | some id => true | _ => false)) : Bool)) ({ demoAt {} with issuers := [(5, { vi := 0, lid := 0, core := 0, stage := .retired })] })) &&
     ((fun s : State => ((match s.shareVictim s.occ.vi s.occ.n with | some id => true | _ => false) : Bool)) ({ demoAt {} with issuers := [(5, { vi := 0, lid := 0, core := 0, stage := .queued }), (6, { vi := 0, lid := 0, core := 0, key := 1, stage := .retired })], versions := [{ line := 0, issuer := 6, bytes := [] }] })) &&
     ((fun s : State => ((match look s.tillMsgs s.occ.id with | some m => (decide (s.tillOpen s.occ.id m = true) && (match s.till? m.line with | some t => (decide (m.act = .tryTake) && (decide (m.n ≤ t.till) && true)) | _ => false)) | _ => false) : Bool)) ({ demoAt { id := 5 } with tillMsgs := [(5, { act := .tryTake, line := 0, wid := 0, lane := 0, core := 0, vi := 0, n := 1, lim := 4 })], tills := [(0, { till := 5, limit := 9, vi := 0 })] })) &&
     ((fun s : State => ((match look s.tillMsgs s.occ.id with | some m => (decide (s.tillOpen s.occ.id m = true) && (match s.till? m.line with | some t => (decide (m.act = .take) && (decide (m.queued = false) && (decide (m.n ≤ t.limit) && true))) | _ => false)) | _ => false) : Bool)) ({ demoAt { id := 5 } with tillMsgs := [(5, { act := .take, line := 0, wid := 0, lane := 0, core := 0, vi := 0, n := 1, lim := 4 })], tills := [(0, { till := 5, limit := 9, vi := 0 })] }))) = true := by decide +kernel

theorem witness_CommitsAndTillsProceed_2 :
    (((fun s : State => ((match look s.tillMsgs s.occ.id with | some m => (decide (s.tillOpen s.occ.id m = true) && (match s.till? m.line with | some t => (decide (m.act = .take) && (decide (m.queued = true) && (decide (t.examine = true) && true))) | _ => false)) | _ => false) : Bool)) ({ demoAt { id := 5 } with tillMsgs := [(5, { act := .take, line := 0, wid := 0, lane := 0, core := 0, vi := 0, n := 1, lim := 4, queued := true })], tills := [(0, { till := 5, limit := 9, vi := 0, examine := true })] })) &&
     ((fun s : State => ((match look s.tillMsgs s.occ.id with | some m => (decide (s.tillOpen s.occ.id m = true) && (match s.till? m.line with | some t => (decide (m.act = .give) && (decide (m.n ≠ 0) && (decide (t.till + m.n + (vals t.grants).foldl (· + ·) 0 ≤ t.limit) && true))) | _ => false)) | _ => false) : Bool)) ({ demoAt { id := 5 } with tillMsgs := [(5, { act := .give, line := 0, wid := 0, lane := 0, core := 0, vi := 0, n := 1, lim := 4 })], tills := [(0, { till := 5, limit := 9, vi := 0 })] })) &&
     ((fun s : State => ((match look s.tillMsgs s.occ.id with | some m => (decide (s.tillOpen s.occ.id m = true) && (match s.till? m.line with | some t => (decide (m.act = .give) && (decide (m.n = 0) && true)) | _ => false)) | _ => false) : Bool)) ({ demoAt { id := 5 } with tillMsgs := [(5, { act := .give, line := 0, wid := 0, lane := 0, core := 0, vi := 0, n := 0, lim := 4 })], tills := [(0, { till := 5, limit := 9, vi := 0 })] })) &&
     ((fun s : State => ((match look s.tillMsgs s.occ.id with | some m => (decide (m.act = .acinit) && (decide (s.tillOpen s.occ.id m = true) && (decide (s.lineClear m = true) && (decide (s.till? m.line = none) && (decide (s.tillFree m.line = true) && (decide (m.n ≤ m.lim) && (decide (0 < m.lim) && true))))))) | _ => false) : Bool)) ({ demoAt { id := 5 } with tillMsgs := [(5, { act := .acinit, line := 0, wid := 0, lane := 0, core := 0, vi := 0, n := 1, lim := 4 })] }))) = true := by decide +kernel

theorem witness_CommitsAndTillsProceed_3 :
    (((fun s : State => ((match look s.tillMsgs s.occ.id with | some m => (decide (s.tillOpen s.occ.id m = true) && (match s.till? m.line with | some t => (decide (m.act = .stock) && true) | _ => false)) | _ => false) : Bool)) ({ demoAt { id := 5 } with tillMsgs := [(5, { act := .stock, line := 0, wid := 0, lane := 0, core := 0, vi := 0, n := 1, lim := 4 })], tills := [(0, { till := 5, limit := 9, vi := 0 })] })) &&
     ((fun s : State => ((match s.till? s.occ.pa with | some t => (match t.stock with | some [c] => true | _ => false) | _ => false) : Bool)) ({ demoAt {} with tills := [(0, { till := 5, limit := 9, vi := 0, stock := some [0] })] })) &&
     ((fun s : State => ((match s.till? s.occ.pa with | some t => (match t.stock with | some (c :: d :: rest) => true | _ => false) | _ => false) : Bool)) ({ demoAt {} with tills := [(0, { till := 5, limit := 9, vi := 0, stock := some [0, 1] })] }))) = true := by decide +kernel

theorem witness_EnginesPerform_1 :
    (((fun s : State => ((match look s.cmds s.occ.id with | some c => (decide (c.kind.copies = true) && (decide (s.running c = true) && (decide (s.occ.n < c.rows) && (decide (c.done ≤ s.occ.n) && (decide (c.landed.contains s.occ.n = false) && (decide (c.toGlobal = false) && (match c.globalRow s.occ.n with | some a => (match s.engRead s.occ.id c ((a + 4 * c.at? s.occ.n) % 2 ^ 64) 4 with | (m, .got x) => (decide ((c.ending && c.at? s.occ.n == 0) = false) && (decide (m.wordSpan c (c.wordVa s.occ.n (c.at? s.occ.n)) = .got 0) && true)) | _ => false) | _ => false))))))) | _ => false) : Bool)) ({ demoBlock [] with cur := none, occ := { id := 5 }, cmds := [(5, { kind := .tcopy, vi := 0, wid := 0, lane := 0, core := 0, level := 2, physical := true, queued := true, promise := 1, blk := [0, 0, 0, 0] })] })) &&
     ((fun s : State => ((match look s.cmds s.occ.id with | some c => (decide (c.kind.copies = true) && (decide (s.running c = true) && (decide (s.occ.n < c.rows) && (decide (c.done ≤ s.occ.n) && (decide (c.landed.contains s.occ.n = false) && (decide (c.toGlobal = true) && (decide (s.occ.n = c.done) && (match c.globalRow s.occ.n with | some a => (decide (c.rowFar a = false) && (decide (s.wordsFull [c.wordAt s.occ.n (c.at? s.occ.n)] = true) && (decide (s.segsReady s.occ.id c (c.segAt s.occ.n (4 * c.at? s.occ.n) 4) = true) && (decide ((c.ending && c.at? s.occ.n == 0) = false) && (decide (s.wordSpan c (c.wordVa s.occ.n (c.at? s.occ.n)) = .got 0) && true))))) | _ => false)))))))) | _ => false) : Bool)) ({ demoBlock [] with cur := none, occ := { id := 5 }, cmds := [(5, { kind := .tcopy, vi := 0, wid := 0, lane := 0, core := 0, level := 2, physical := true, queued := true, promise := 1, blk := [0, 0, 0, 0x10000000] })] })) &&
     ((fun s : State => ((match look s.cmds s.occ.id with | some c => (decide (c.kind = .fconv) && (decide (s.running c = true) && (decide (c.at? c.done < 64 * c.elt) && (decide (s.wordsFull [c.wordAt c.done (c.at? c.done)] = true) && (decide (s.wordSpan c (c.wordVa c.done (c.at? c.done)) = .got 0) && true))))) | _ => false) : Bool)) ({ demoBanks 1 with cur := none, occ := { id := 5 }, cmds := [(5, { kind := .fconv, vi := 0, wid := 0, lane := 0, core := 0, level := 2, physical := true, queued := true, promise := 1, blk := [0, 0, 0x11000000000, 0] })], spad := (List.range 64).map (fun k => (k, { full := true })) })) &&
     ((fun s : State => ((match look s.cmds s.occ.id with | some c => (decide (c.kind = .fconv) && (decide (s.running c = true) && (decide (64 * c.elt ≤ c.at? c.done) && (match c.slot?[c.at? c.done - 64 * c.elt]? with | some (off, x) => (decide (s.segsReady s.occ.id c (c.segAt c.done off 4) = true) && true) | _ => false)))) | _ => false) : Bool)) ({ demoBanks 1 with cur := none, occ := { id := 5 }, cmds := [(5, { kind := .fconv, vi := 0, wid := 0, lane := 0, core := 0, level := 2, physical := true, queued := true, promise := 1, blk := [0, 0, 0x11000000000, 0], at_ := [(0, 64)], acc := List.replicate 64 1 })] }))) = true := by decide +kernel

theorem witness_EnginesPerform_2 :
    (((fun s : State => ((match look s.cmds s.occ.id with | some c => (decide (c.kind = .sred) && (decide (s.running c = true) && (decide (c.phase = 0) && (decide (c.at? c.done < c.idx.length * c.redWords) && (match s.engRead s.occ.id c ((c.idx.getD (c.at? c.done / c.redWords) 0 + c.done * c.redBytes + 4 * (c.at? c.done % c.redWords)) % 2 ^ 64) 4 with | (m, .got x) => true | _ => false))))) | _ => false) : Bool)) ({ demoAt { id := 5 } with cmds := [(5, { kind := .sred, vi := 0, wid := 0, lane := 0, core := 0, level := 2, physical := true, queued := true, promise := 1, blk := [0, 0x1000, 0, 0x40, 0x1000000001], idx := [0, 0] })] })) &&
     ((fun s : State => ((match look s.cmds s.occ.id with | some c => (decide (c.kind = .sred) && (decide (s.running c = true) && (decide (c.phase = 0) && (decide (c.idx.length * c.redWords ≤ c.at? c.done) && (match s.sumWord s.occ.id c (c.at? c.done - c.idx.length * c.redWords) with | some m => true | _ => false))))) | _ => false) : Bool)) ({ demoAt { id := 5 } with cmds := [(5, { kind := .sred, vi := 0, wid := 0, lane := 0, core := 0, level := 2, physical := true, queued := true, promise := 1, blk := [0, 0x1000, 0, 0x40, 0x1000000001], idx := [0, 0], at_ := [(0, 2)], acc := [1, 2] })] })) &&
     ((fun s : State => ((match look s.cmds s.occ.id with | some c => (decide (c.kind = .sred) && (decide (s.running c = true) && (decide (1 ≤ c.phase) && (match (if 3 ≤ c.phase then s.flagStep s.occ.id c else s.statusStep s.occ.id c) with | some m => true | _ => false)))) | _ => false) : Bool)) ({ demoAt { id := 5 } with cmds := [(5, { kind := .sred, vi := 0, wid := 0, lane := 0, core := 0, level := 2, physical := true, queued := true, promise := 1, blk := [0, 0x1000, 0, 0x40, 0x1000000001], idx := [0, 0], done := 1, phase := 1 })] })) &&
     ((fun s : State => ((match look s.cmds s.occ.id with | some c => (decide (c.kind = .embag) && (decide (s.running c = true) && (decide (c.at? c.done < c.bagPlaces.length * c.bagStride) && (match s.bagWord s.occ.id c (c.bagPlaces.getD (c.at? c.done / c.bagStride) 0) (c.at? c.done % c.bagStride) (c.acc.getD (c.at? c.done / c.bagStride * c.bagStride) 0) with | (m, .got x) => true | _ => false)))) | _ => false) : Bool)) ({ demoBlock [] with cur := none, occ := { id := 5 }, cmds := [(5, { kind := .embag, vi := 0, wid := 0, lane := 0, core := 0, level := 2, physical := true, queued := true, promise := 1, blk := [0, 0x400000001, 0, 0, 0, 0, 0, 0], idx := [0, 1] })] }))) = true := by decide +kernel

theorem witness_EnginesPerform_3 :
    (((fun s : State => ((match look s.cmds s.occ.id with | some c => (decide (c.kind = .embag) && (decide (s.running c = true) && (decide (c.bagPlaces.length * c.bagStride ≤ c.at? c.done) && (decide (s.wordSpan c (c.wordVa c.done (c.at? c.done - c.bagPlaces.length * c.bagStride)) = .got 0) && true)))) | _ => false) : Bool)) ({ demoBlock [] with cur := none, occ := { id := 5 }, cmds := [(5, { kind := .embag, vi := 0, wid := 0, lane := 0, core := 0, level := 2, physical := true, queued := true, promise := 1, blk := [0, 0x400000001, 0, 0, 0, 0, 0, 0], idx := [0, 0] })] })) &&
     ((fun s : State => ((match look s.cmds s.occ.id with | some c => (decide (s.lateDue c = true) && true) | _ => false) : Bool)) ({ demoAt { id := 5 } with cmds := [(5, { kind := .tcopy, vi := 0, wid := 0, lane := 0, core := 0, level := 2, physical := true, queued := true, promise := 1, blk := [0, 0, 0, 0] })] })) &&
     ((fun s : State => ((match (s.coreAt s.occ.core).mq with | e :: rest => (decide (s.entryDue s.occ.core e = true) && true) | _ => false) : Bool)) ({ demoMatrix .f32 0 with cur := none, cores := [(0, { mq := [{ act := .zero 0, wid := 0 }] })] })) &&
     ((fun s : State => ((match (s.coreAt s.occ.core).loader with | x :: rest => (decide (s.slotDue s.occ.core = true) && (decide (s.checkRuns x.vi s.occ.core true 0 [(x.addr, 16)] = .full) && true)) | _ => false) : Bool)) ({ demoBlock [] with cur := none, waves := [(0, { demoWave with areaSize := 0x10000 })], cores := [(0, { loader := [{ id := 1, wid := 0, addr := 0, next := 0, stop := 1, after := [] }] })] }))) = true := by decide +kernel

theorem witness_GraphicsUnitsPerform_1 :
    (((fun s : State => ((match look s.gfx s.occ.id with | some q => (decide (q.opc = 0xA3) && (decide (q.inside = true) && (decide (s.gfxReady s.occ.id q = true) && (match look s.passes q.pass with | some p => (match s.fliStep q.pass p q.rt q.pixel.toNat q.depth.toNat q.payload.toNat with | (m, .ok o) => true | _ => false) | _ => false)))) | _ => false) : Bool)) ({ demoMapped { id := 5 } [] with passes := [(0, { demoPass with imm := true, pool := 0x10000, clusters := [0] })], mem := (demoMapped {} []).mem ++ (List.range 16).map (fun k => (0x10000 + k, if k % 8 < 4 then 0xFF else 0)), gfx := [(5, { opc := 0xA3, wid := 0, lane := 0, core := 0 })] })) &&
     ((fun s : State => ((match look s.gfx s.occ.id with | some q => (decide (q.opc = 0xA4) && (decide (s.gfxReady s.occ.id q = true) && (match look s.passes q.pass with | some p => (decide (q.cursor ≠ 0xFFFFFFFE) && (decide (q.cursor ≠ 0xFFFFFFFF) && (decide (p.allocated (p.clusterOfTile (p.tileOf (bits q.pixel.toNat 13 0) (bits q.pixel.toNat 27 14))) q.cursor.toNat = true) && (match s.readLoc p (coreOfCluster (p.clusterOfTile (p.tileOf (bits q.pixel.toNat 13 0) (bits q.pixel.toNat 27 14))) 0) 16 (p.nodeLoc (p.clusterOfTile (p.tileOf (bits q.pixel.toNat 13 0) (bits q.pixel.toNat 27 14))) q.cursor.toNat) with | (m, .ok v) => true | _ => false)))) | _ => false))) | _ => false) : Bool)) ({ demoMapped { id := 5 } [] with passes := [(0, { demoPass with imm := true, pool := 0x10000, clusters := [0], ports := [(0, { taken := [0], next := 1 })] })], gfx := [(5, { opc := 0xA4, wid := 0, lane := 0, core := 0 })] })) &&
     ((fun s : State => ((match look s.gfx s.occ.id with | some q => (decide (q.opc = 0xA5) && (decide (s.rayReady s.occ.id q = true) && (decide (q.gone = false) && (decide (q.app = false) && (decide ((rayOf (q.ray.map BitVec.toNat)).meets = true) && (match s.traverse q (s.waveAt q.wid) (rayOf (q.ray.map BitVec.toNat)) 1048576 [(false, 0)] [] with | (m, .hits hs) => true | _ => false)))))) | _ => false) : Bool)) ({ demoMapped { id := 5 } [] with gfx := [(5, { opc := 0xA5, wid := 0, lane := 0, core := 0, ray := [0, 0, 0, 0, 0x3F800000, 0x3F800000, 0x3F800000, 0x3F800000] })] })) &&
     ((fun s : State => ((decide (s.drawDue s.occ.pass = true) && (match look s.passes s.occ.pass with | some p => (match s.nextDraw s.occ.pass with | some (id, a) => (decide (p.drawTrap a = none) && (match s.readRecords a (s.waveAt a.wid) with | (m, .ok prims) => true | _ => false)) | _ => false) | _ => false)) : Bool)) ({ demoMapped {} [] with passes := [(0, demoPass)], gfxAsks := [(5, { wid := 0, lanes := [0], draw := true, va := 0, n := 1 })] }))) = true := by decide +kernel

theorem witness_GraphicsUnitsPerform_2 :
    (((fun s : State => ((match look s.passes s.occ.pass with | some p => (match p.nextFragWave s.occ.n with | some (n, d, qs) => (decide (p.stored = none) && true) | _ => false) | _ => false) : Bool)) ({ demoMapped {} [] with passes := [(0, { demoPass with clusters := [0], draws := [{ seq := 0, prims := [[0, 0, 0, 0x41800000, 0, 0, 0, 0x41800000, 0]] }] })] })) &&
     ((fun s : State => ((match look s.passes s.occ.pass with | some p => (decide (p.resolving = true ∨ s.fragmentsDone s.occ.pass p = true) && (decide (p.stored = none) && (match s.resolveAt p with | (q, m) => (match q.nextResolve with | some cl => (decide (m.resolveHeld cl q = none) && true) | _ => false)))) | _ => false) : Bool)) ({ demoMapped {} [] with passes := [(0, { demoPass with clusters := [0], lastDraw := true, lastSeq := some 1 })] })) &&
     ((fun s : State => ((match look s.passes s.occ.pass with | some p => (decide (s.resolvesDone s.occ.pass p = true) && true) | _ => false) : Bool)) ({ demoMapped {} [] with passes := [(0, { demoPass with clusters := [], lastDraw := true, resolving := true })] }))) = true := by decide +kernel

theorem witness_OutsideRequestsAreServed_1 :
    (((fun s : State => ((decide (s.linkDown = false) && (match s.occ.req with | some req => (decide (s.sysBits 0x304 s.occ.peer 62 62 = 1) && (decide (inboundOk (s.sysAt 0x305 s.occ.peer) s.occ.pa (reqSize req) (reqWrites req) = true) && true)) | _ => false)) : Bool)) ({ (((demoAt { req := some (.load 4) }).sysPut 0x304 0 0xC000000000000000).sysPut 0x305 0 0xC0000000000FF000).sysPut 0x400 0xFF 0x80 with boot := .service })) &&
     ((fun s : State => ((decide (s.linkDown = false) && (match s.occ.req with | some req => (decide (s.sysBits 0x304 s.occ.peer 62 62 ≠ 1 ∨ inboundOk (s.sysAt 0x305 s.occ.peer) s.occ.pa (reqSize req) (reqWrites req) = false) && true) | _ => false)) : Bool)) ({ (demoAt { req := some (.load 4) }).sysPut 0x400 0xFF 0x80 with boot := .service })) &&
     ((fun s : State => ((match look s.ops s.occ.id with | some o => (decide (o.arrived = true) && (decide (o.done = false) && (decide (o.place = .host) && (decide (s.occ.ok = true) && (decide (o.reads = true) && true))))) | _ => false) : Bool)) ({ demoAt { id := 5, ok := true } with ops := [(5, { act := .load .b4, place := .host, size := 4, total := 4, arrived := true })] })) &&
     ((fun s : State => ((match look s.ops s.occ.id with | some o => (decide (o.arrived = true) && (decide (o.done = false) && (decide (o.place = .host) && (decide (s.occ.ok = true) && (decide (o.reads = false) && true))))) | _ => false) : Bool)) ({ demoAt { id := 5, ok := true } with ops := [(5, { act := .store, place := .host, size := 4, total := 4, arrived := true })] }))) = true := by decide +kernel

theorem witness_OutsideRequestsAreServed_2 :
    (((fun s : State => ((match look s.ops s.occ.id with | some o => (decide (o.arrived = true) && (decide (o.done = false) && (decide (o.place = .host) && (decide (s.occ.ok = false) && true)))) | _ => false) : Bool)) ({ demoAt { id := 5, ok := false } with ops := [(5, { act := .store, place := .host, size := 4, total := 4, arrived := true })] })) &&
     ((fun s : State => ((match look s.ops s.occ.id with | some o => (decide (o.arrived = true) && (decide (o.done = false) && (match o.place with | .peer p => (decide (s.occ.ok = true) && (decide (o.reads = true) && true)) | _ => false))) | _ => false) : Bool)) ({ demoAt { id := 5, ok := true } with ops := [(5, { act := .load .b4, place := .peer 3, size := 4, total := 4, arrived := true })] })) &&
     ((fun s : State => ((match look s.ops s.occ.id with | some o => (decide (o.arrived = true) && (decide (o.done = false) && (match o.place with | .peer p => (decide (s.occ.ok = true) && (decide (o.reads = false) && true)) | _ => false))) | _ => false) : Bool)) ({ demoAt { id := 5, ok := true } with ops := [(5, { act := .store, place := .peer 3, size := 4, total := 4, arrived := true })] })) &&
     ((fun s : State => ((match look s.ops s.occ.id with | some o => (decide (o.arrived = true) && (decide (o.done = false) && (match o.place with | .peer p => (decide (s.occ.ok = false) && true) | _ => false))) | _ => false) : Bool)) ({ demoAt { id := 5, ok := false } with ops := [(5, { act := .store, place := .peer 3, size := 4, total := 4, arrived := true })] }))) = true := by decide +kernel

theorem witness_OutsideRequestsAreServed_3 :
    (((fun s : State => ((decide (s.keepaliveDue s.occ.port = true) && true) : Bool)) ({ demoAt {} with boot := .service, gt := 10000000 })) &&
     ((fun s : State => ((decide (s.linkDown = false) && true) : Bool)) ({ (demoAt {}).sysPut 0x400 0xFF 0x80 with boot := .service })) &&
     ((fun s : State => ((decide (s.fabricDown.contains s.occ.port = false) && true) : Bool)) (demoAt {})) &&
     ((fun s : State => ((decide (s.fabricDown.contains s.occ.port = true) && true) : Bool)) ({ demoAt {} with fabricDown := [0] }))) = true := by decide +kernel

theorem witness_OutsideRequestsAreServed_4 :
    (((fun s : State => ((decide (s.linkDown = false) && true) : Bool)) ({ (demoAt {}).sysPut 0x400 0xFF 0x80 with boot := .service })) &&
     ((fun s : State => ((decide (s.linkDown = false) && (decide (s.sysBits 0x304 s.occ.peer 63 63 = 1) && (decide (s.sysBits 0x304 s.occ.peer 31 0 = s.occ.value.toNat) && true))) : Bool)) ({ ((demoAt {}).sysPut 0x304 0 0x8000000000000000).sysPut 0x400 0xFF 0x80 with boot := .service })) &&
     ((fun s : State => ((decide (s.linkDown = false) && (decide (-50 ≤ signed 32 s.occ.value.toNat) && (decide (signed 32 s.occ.value.toNat ≤ 50) && true))) : Bool)) ({ (demoAt {}).sysPut 0x400 0xFF 0x80 with boot := .service })) &&
     ((fun s : State => ((decide (s.linkDown = false) && (decide ((signed 32 s.occ.value.toNat < -50 ∨ 50 < signed 32 s.occ.value.toNat)) && true)) : Bool)) ({ (demoAt { value := 0x1000 }).sysPut 0x400 0xFF 0x80 with boot := .service }))) = true := by decide +kernel

theorem witness_OutsideRequestsAreServed_5 :
    (((fun s : State => ((decide (s.peerSilent s.occ.peer = true) && true) : Bool)) ({ (demoAt {}).sysPut 0x304 0 0xC000000000000000 with gt := 1000000000 })) &&
     ((fun s : State => ((decide (s.frameDue s.occ.index = true) && (match look s.streams s.occ.index with | some t => (match s.ringSlot s.occ.index t t.frame with | (m, some (fr :: ws)) => true && decide (fr = t.frame) | _ => false) | _ => false)) : Bool)) ({ (demoMapped { index := 0 } []).sysPut 0x4C8 0 0x8000000000000000 with streams := [(0, { frame := 0, desc := [0, 1, 0, 0, 0x10000, 0, 0, 0] })], mem := demoMem 128 [(0, 1)] ++ (List.range 32).map (fun k => (0x10000 + k, 0)), gt := 10000000000 })) &&
     ((fun s : State => ((decide (s.frameDue s.occ.index = true) && (match look s.streams s.occ.index with | some t => (match s.ringSlot s.occ.index t t.frame with | (m, a) => (decide (slotIs a t.frame = false) && (decide (t.frame = 0) && (decide (t.last = none) && true)))) | _ => false)) : Bool)) ({ (demoMapped { index := 0 } []).sysPut 0x4C8 0 0x8000000000000000 with streams := [(0, { frame := 0, desc := [0, 1, 0, 0, 0x10000, 0, 0, 0] })], mem := demoMem 128 [(0, 1)] ++ (List.range 32).map (fun k => (0x10000 + k, if k = 0 then 5 else 0)), gt := 10000000000 })) &&
     ((fun s : State => ((decide (s.frameDue s.occ.index = true) && (match look s.streams s.occ.index with | some t => (match s.ringSlot s.occ.index t t.frame with | (m, a) => (decide (slotIs a t.frame = false) && (match t.frame with | n + 1 => (match m.ringSlot s.occ.index t n with | (u, some (n :: ws)) => (decide (t.last.all (fun k => decide (k < n)) = true) && true) | _ => false) | _ => false))) | _ => false)) : Bool)) ({ (demoMapped { index := 0 } []).sysPut 0x4C8 0 0x8000000000000000 with streams := [(0, { frame := 1, desc := [0, 1, 0, 0, 0x10000, 0, 0, 0] })], mem := demoMem 128 [(0, 1)] ++ (List.range 32).map (fun k => (0x10000 + k, if k = 0 then 0 else 0)), gt := 10000000000 }))) = true := by decide +kernel

theorem witness_OutsideRequestsAreServed_6 :
    (((fun s : State => ((decide (s.frameDue s.occ.index = true) && (match look s.streams s.occ.index with | some t => (match s.ringSlot s.occ.index t t.frame with | (m, a) => (decide (slotIs a t.frame = false) && (match t.frame with | n + 1 => (match m.ringSlot s.occ.index t n with | (u, b) => (decide ((slotIs b n && t.last.all (fun k => decide (k < n))) = false) && (match t.last with | some k => true | _ => false))) | _ => false))) | _ => false)) : Bool)) ({ (demoMapped { index := 0 } []).sysPut 0x4C8 0 0x8000000000000000 with streams := [(0, { frame := 1, last := some 0, desc := [0, 1, 0, 0, 0x10000, 0, 0, 0] })], mem := demoMem 128 [(0, 1)] ++ (List.range 32).map (fun k => (0x10000 + k, if k = 0 then 0 else 0)), gt := 10000000000 })) &&
     ((fun s : State => ((decide (s.frameDue s.occ.index = true) && (match look s.streams s.occ.index with | some t => (match s.ringSlot s.occ.index t t.frame with | (m, a) => (decide (slotIs a t.frame = false) && (match t.frame with | n + 1 => (match m.ringSlot s.occ.index t n with | (u, b) => (decide (slotIs b n = false) && (decide (t.last = none) && true))) | _ => false))) | _ => false)) : Bool)) ({ (demoMapped { index := 0 } []).sysPut 0x4C8 0 0x8000000000000000 with streams := [(0, { frame := 2, desc := [0, 1, 0, 0, 0x10000, 0, 0, 0] })], mem := demoMem 128 [(0, 1)] ++ (List.range 32).map (fun k => (0x10000 + k, if k = 0 then 0 else 0)), gt := 10000000000 }))) = true := by decide +kernel

theorem witness_RegistersAreWrittenFromOutside_1 :
    (((fun s : State => ((decide (s.roceUp s.occ.port = true) && (decide (s.hostHeld s.occ.vi = false) &&
      true)) : Bool)) ((demoAt {}).sysPut 0x400 0xFF 0x80)) &&
     ((fun s : State => ((decide (s.roceUp s.occ.port = true) && (decide (s.hostHeld s.occ.vi = false) &&
      true)) : Bool)) ((demoAt {}).sysPut 0x400 0xFF 0x80)) &&
     ((fun s : State => ((decide (s.roceUp s.occ.port = true) && (decide (s.hostHeld s.occ.vi = false) &&
      true)) : Bool)) ((demoAt {}).sysPut 0x400 0xFF 0x80)) &&
     ((fun s : State => ((decide (regInstance s.occ.num s.occ.index = true) &&
      true) : Bool)) (demoAt { num := 0x300 }))) = true := by decide +kernel

theorem witness_RegistersAreWrittenFromOutside_2 :
    (((fun s : State => ((match s.sysWrite 0x409 s.occ.index s.occ.value.toNat 2 64 with | (m, true) => true | _ => false) : Bool)) (demoAt { index := 8 })) &&
     ((fun s : State => ((decide (s.linkDown = false) && (decide (s.boot = .service) && (decide (regInstance s.occ.num s.occ.index = true) && (match s.sysWrite s.occ.num s.occ.index s.occ.value.toNat 2 64 with | (m, true) => true | _ => false)))) : Bool)) ({ demoAt { num := 0x300 } with boot := .service }))) = true := by decide +kernel

theorem witness_HealthIsKept_1 :
    (((fun s : State => ((decide (s.occ.index < 110) && (decide (s.tooHot s.occ.n s.occ.index = true) &&
      true)) : Bool)) (demoAt { index := 96 })) &&
     ((fun s : State => ((decide (s.occ.index < 110) && (decide (s.tooHot s.occ.n s.occ.index = false) && true)) : Bool)) (demoAt {})) &&
     ((fun s : State => ((decide (110 ≤ s.occ.index) && true) : Bool)) (demoAt { index := 110 })) &&
     ((fun s : State => ((decide (s.boot = .rom) && (match ({ s with identity := Config.shake256 Config.partSecret 32 } : State) with | m => true)) : Bool)) (demoAt {}))) = true := by decide +kernel

theorem witness_HealthIsKept_2 :
    (((fun s : State => ((decide (s.boot = .firmware) && true) : Bool)) ({ demoAt {} with boot := .firmware })) &&
     ((fun s : State => ((decide (s.boot = .service ∨ s.boot = .halted) && true) : Bool)) ({ demoAt {} with boot := .service })) &&
     ((fun s : State => ((decide (s.histDue = true) && true) : Bool)) ({ demoAt {} with gt := 600 * 10 ^ 9 })) &&
     ((fun s : State => ((decide (s.tickDue = true) && (decide ((((s.addSecond s.occ).countSlice s.occ.index s.occ.vi 0x109 s.occ.num).seconds + 1) % 3600 ≠ 0) && true)) : Bool)) ({ demoAt {} with gt := 10 ^ 9 }))) = true := by decide +kernel

theorem witness_HealthIsKept_3 :
    (((fun s : State => ((decide (s.tickDue = true) && (decide ((((s.addSecond s.occ).countSlice s.occ.index s.occ.vi 0x109 s.occ.num).seconds + 1) % 3600 = 0) && true)) : Bool)) ({ demoAt {} with gt := 10 ^ 9, seconds := 3599 })) &&
     ((fun s : State => ((decide (s.occ.ok = true) && true) : Bool)) (demoAt { ok := true })) &&
     ((fun s : State => ((decide (s.occ.ok = false) && (decide (s.occ.index ≠ 1) && true)) : Bool)) (demoAt {})) &&
     ((fun s : State => ((decide (s.occ.ok = false) && (decide (s.occ.index = 1) &&
      true)) : Bool)) (demoAt { index := 1 }))) = true := by decide +kernel

theorem witness_HealthIsKept_4 :
    (((fun s : State => ((match s.wave? s.occ.wid with | some w => (decide (w.kind ≠ .boot) && true) | _ => false) : Bool)) ({ demoAt {} with waves := [(0, { demoWave with kind := .launched })] })) &&
     ((fun s : State => ((match s.wave? s.occ.wid with | some w => (decide (w.kind = .boot) && true) | _ => false) : Bool)) (demoAt {})) &&
     ((fun s : State => ((match s.hitAt s.occ.n with | (m, hit) => (match m.choose 64 with | (x, u) => true)) : Bool)) ({ demoAt {} with tills := [(0, { till := 5, limit := 9, vi := 0 })] })) &&
     ((fun s : State => ((decide (s.linkDown = false) && (decide (s.boot = .service) && (decide (s.occ.data.length = 32) && true))) : Bool)) ({ demoAt { data := List.replicate 32 0 } with boot := .service }))) = true := by decide +kernel

theorem witness_ResetsAndPower :
    (((fun s : State => ((decide (110 ≤ s.occ.index) && true) : Bool)) (demoAt { index := 110 }))) = true := by decide +kernel

theorem witness_SlicesTurnAndWavesMove_1 :
    (((fun s : State => ((decide (s.sliceDue s.occ.part = true) && (decide (look s.holders s.occ.part = none) && (match s.candidates s.occ.part 63 with | v :: vs => true | _ => false))) : Bool)) ({ demoMapped {} [] with jobs := [(5, { vi := 0, num := 1 })] })) &&
     ((fun s : State => ((decide (s.sliceDue s.occ.part = true) && (match look s.holders s.occ.part with | some h => (decide (h.ending = true) && true) | _ => false)) : Bool)) ({ demoMapped {} [] with waves := [], holders := [(0, { vi := 0, stop := 1, ending := true })] })) &&
     ((fun s : State => ((decide (s.sliceDue s.occ.part = true) && (match look s.holders s.occ.part with | some h => (decide (h.ending = false) && (decide (s.restorable s.occ.part = []) && (decide ((s.candidates s.occ.part h.vi).all (fun v => v == h.vi) = false) && true))) | _ => false)) : Bool)) ({ (demoMapped {} []).sysPut 0x201 1 0x8000000000000000 with jobs := [(5, { vi := 1, num := 1 })], holders := [(0, { vi := 0, stop := 1 })] })) &&
     ((fun s : State => ((match s.partOf s.occ.vi with | some p => (decide (s.holds s.occ.vi = true) && true) | _ => false) : Bool)) ({ demoMapped {} [] with holders := [(0, { vi := 0, stop := 1000 })] }))) = true := by decide +kernel

theorem witness_SlicesTurnAndWavesMove_2 :
    (((fun s : State => ((match s.wave? s.occ.wid with | some w => (decide (s.forceDue w = true) && true) | _ => false) : Bool)) ({ demoAt {} with cores := [(0, { cycle := 100000 })], waves := [(0, { demoWave with kind := .launched, pending := true, asked := 0 })] })) &&
     ((fun s : State => ((match s.wave? s.occ.wid with | some w => (decide (s.saveDue s.occ.wid w = true) && (match s.freeImage w.vi with | (a, some (some slot)) => true | _ => false)) | _ => false) : Bool)) ({ (demoMapped {} []).sysPut 0x205 0 8 with waves := [(0, { demoWave with kind := .launched, vi := 0, forced := true })] })) &&
     ((fun s : State => ((match look s.saved s.occ.wid with | some x => (decide (s.restoreDue s.occ.wid x = true) && (decide (x.wave.lanes.all (fun l => !l.live) = false) && (decide (s.claimsFree x = true) && (match s.restoreSpot x with | some (slot, pos) => true | _ => false)))) | _ => false) : Bool)) ({ demoMapped {} [] with waves := [], saved := [(0, { wave := { demoWave with kind := .launched, vi := 0 }, slot := 0, order := 0, wid := 0 })], holders := [(0, { vi := 0, stop := 1000 })] })) &&
     ((fun s : State => ((match look s.saved s.occ.wid with | some x => (decide (s.restoreDue s.occ.wid x = true) && (decide (x.wave.lanes.all (fun l => !l.live) = false) && (decide (s.claimsFree x = false) && true))) | _ => false) : Bool)) ({ demoMapped {} [] with waves := [], cores := [(0, { tiles := [(0, { owner := some 9 })] })], saved := [(0, { wave := { demoWave with kind := .launched, vi := 0 }, slot := 0, order := 0, wid := 0, tiles := [(0, {})] })], holders := [(0, { vi := 0, stop := 1000 })] }))) = true := by decide +kernel

theorem witness_HostRequestsAreServed_1 :
    (((fun s : State => ((decide (s.roceUp s.occ.port = true) && (decide (s.occ.ok = false) &&
      (decide (inboundOk (s.sysAt 0x4C2 s.occ.vi) s.occ.pa (reqSize (.store s.occ.data)) (reqWrites (.store s.occ.data)) = true) &&
      true))) : Bool)) (((demoAt { data := [1, 2] }).sysPut 0x400 0xFF 0x80).sysPut 0x4C2 0 0xC0000000000FF000)) &&
     ((fun s : State => ((decide (s.roceUp s.occ.port = true) && (decide (s.occ.ok = false) &&
      (decide (inboundOk (s.sysAt 0x4C2 s.occ.vi) s.occ.pa (reqSize (.store s.occ.data)) (reqWrites (.store s.occ.data)) = false) &&
      true))) : Bool)) ((demoAt { data := [1, 2] }).sysPut 0x400 0xFF 0x80)) &&
     ((fun s : State => ((decide (s.roceUp s.occ.port = true) && (decide (s.occ.ok = true) && (match doorbellReg s.occ.pa with | some num => (decide (s.occ.data.length = 8) && (decide (s.hostHeld s.occ.vi = false) && true)) | _ => false))) : Bool)) ((demoAt { ok := true, pa := 0, data := [1, 2, 3, 4, 5, 6, 7, 8] }).sysPut 0x400 0xFF 0x80)) &&
     ((fun s : State => ((decide (s.occ.ok = true) && (decide (doorbellReg s.occ.pa = none ∨ s.occ.data.length ≠ 8) &&
      true)) : Bool)) ((demoAt { ok := true, data := [1] }).sysPut 0x400 0xFF 0x80))) = true := by decide +kernel

theorem witness_HostRequestsAreServed_2 :
    (((fun s : State => ((decide (s.roceUp s.occ.port = true) && (decide (s.occ.ok = false) &&
      (decide (inboundOk (s.sysAt 0x4C2 s.occ.vi) s.occ.pa (reqSize (.load s.occ.len)) (reqWrites (.load s.occ.len)) = true) &&
      true))) : Bool)) (((demoAt { len := 4 }).sysPut 0x400 0xFF 0x80).sysPut 0x4C2 0 0xC0000000000FF000)) &&
     ((fun s : State => ((decide (s.roceUp s.occ.port = true) && (decide (s.occ.ok = false) &&
      (decide (inboundOk (s.sysAt 0x4C2 s.occ.vi) s.occ.pa (reqSize (.load s.occ.len)) (reqWrites (.load s.occ.len)) = false) &&
      true))) : Bool)) ((demoAt { len := 4 }).sysPut 0x400 0xFF 0x80)) &&
     ((fun s : State => ((decide (s.roceUp s.occ.port = true) && (decide (s.occ.ok = true) &&
      true)) : Bool)) ((demoAt { ok := true, len := 8 }).sysPut 0x400 0xFF 0x80)) &&
     ((fun s : State => ((decide (s.roceUp s.occ.port = true) && (decide (s.occ.pa % 8 = 0) &&
      (decide (inboundOk (s.sysAt 0x4C2 s.occ.vi) s.occ.pa (reqSize (if s.occ.ok then .cas .z64 s.occ.cmp s.occ.value else .atomic .add .z64 s.occ.value)) (reqWrites (if s.occ.ok then .cas .z64 s.occ.cmp s.occ.value else .atomic .add .z64 s.occ.value)) = true) && true))) : Bool)) (((demoAt {}).sysPut 0x400 0xFF 0x80).sysPut 0x4C2 0 0xC0000000000FF000))) = true := by decide +kernel

theorem witness_HostRequestsAreServed_3 :
    (((fun s : State => ((decide (s.roceUp s.occ.port = true) && (decide (s.occ.pa % 8 = 0) &&
      (decide (inboundOk (s.sysAt 0x4C2 s.occ.vi) s.occ.pa (reqSize (if s.occ.ok then .cas .z64 s.occ.cmp s.occ.value else .atomic .add .z64 s.occ.value)) (reqWrites (if s.occ.ok then .cas .z64 s.occ.cmp s.occ.value else .atomic .add .z64 s.occ.value)) = false) && true))) : Bool)) ((demoAt {}).sysPut 0x400 0xFF 0x80)) &&
     ((fun s : State => ((decide (s.roceUp s.occ.port = true) && (decide (s.occ.pa % 8 ≠ 0) &&
      true)) : Bool)) ((demoAt { pa := 4 }).sysPut 0x400 0xFF 0x80)) &&
     ((fun s : State => ((decide (s.roceUp s.occ.port = true) && true) : Bool)) ((demoAt {}).sysPut 0x400 0xFF 0x80)) &&
     ((fun s : State => ((decide (s.roceUp s.occ.port = false) && true) : Bool)) (demoAt {}))) = true := by decide +kernel

theorem witness_HostRequestsAreServed_4 :
    (((fun s : State => ((decide (s.linkDown = false) && true) : Bool)) ({ (demoAt {}).sysPut 0x400 0xFF 0x80 with boot := .service }))) = true := by decide +kernel

/-- The boot wave's first instruction, placed and issued. -/
def demoFetched : State := State.reset.withFetchWord 32 0x14001010

/-- The same for lane 3 alone, from its loop buffer, by solo issue. -/
def demoSolo : State :=
  { demo with cur := none, issues := [{ wid := 0, pc := 0, lanes := [0], solo := true }]
              waves := [(0, { demoWave with lanes := [{ level := 2, buf := [(0, { word := 0x14001010, age := 0 })] }] })] }

theorem witness_StepRunsTheIssuedInstruction :
    (match demoFetched.issues with
     | c :: rest =>
       (match demoFetched.wave? c.wid with
        | some w =>
          !c.solo && !c.lanes.isEmpty &&
          c.lanes.all (fun k => (w.lane k).live && (w.lane k).pc == c.pc && (w.lane k).wait == .run && (w.lane k).level != 0) &&
          (match ({ demoFetched with issues := rest, stall := none } : State).fetchInstr w 1 c.pc.toNat with
           | (_, .ok ws) => reads ws (.iaddImmShort 5 0 4)
           | _ => false)
        | none => false)
     | [] => false) = true := by decide +kernel

theorem witness_StepRunsTheIssuedInstruction_solo :
    (((demoSolo.waveAt 0).lane 0).live && ((demoSolo.waveAt 0).lane 0).wait == .run &&
     (match ((demoSolo.waveAt 0).lane 0).bufWords 0 with
      | some ws => reads ws (.iaddImmShort 5 0 4)
      | none => false)) = true := by decide +kernel

/-- A wave with an undecided SPAWN in lane 0, as it waits and as it would be stopped. -/
def demoSpawn (x : Wait) : State :=
  { demoWait x with spawns := [(5, { wid := 0, core := 0, cycle := 0, asks := [{ lane := 0, pc := 0, item := 3, arg := 0, key := 1, desc := 0, dst := 4 }] })] }

theorem witness_StepRunsTheIssuedInstruction_spawn :
    (demoSpawn (.spawn 5)).lostSpawn (demoSpawn .run) = some 5 ∧ (demoSpawn (.spawn 5)).lostSpawn (demoSpawn (.spawn 5)) = none ∧
    demo.spawns = [] := by decide +kernel

/-- A state in which an access of the part waits for a page in transit. -/
def demoStalled : State := { demo with stall := some 5, transit := [(5, { vi := 0, owner := 0, pfn := 0, bits := 16 })] }

theorem witness_StepRunsTheIssuedInstruction_stall :
    demoStalled.stall = some 5 ∧ (look demoStalled.transit 5).isSome = true ∧ look demo.transit 5 = none ∧ demo.stall = none := by decide +kernel

theorem witness_StepWithoutAnIssue :
    ((demoWait (.sleep 1)).issues.isEmpty && (demoWait (.sleep 1)).power &&
      (demoWait (.sleep 1)).nextEvent.2.isSome) = true := by decide +kernel

theorem witness_StepWithoutAnIssue_tick :
    ({ demoAt {} with boot := .halted, closing := true, waves := [] } : State).nextEvent.2.isNone = true := by decide +kernel

theorem witness_StepWithoutAnIssue_off :
    (({ demo with power := false } : State).issues.isEmpty && !({ demo with power := false } : State).power &&
     ({ demo with power := false } : State).inputs.isEmpty &&
     !({ demo with power := false, inputs := [(.coldReset, {})] } : State).inputs.isEmpty &&
     decide (Instr.scrub ≠ .coldReset)) = true := by decide +kernel

/-- A state whose issue has a mask with no bit set. -/
theorem witness_MaskedLanesGoOn :
    (demo.issueLegal demoWave (.iadd .wrap .s32 { km := 1 }) &&
      (demo.activeLanes demoIssue demoWave (.iadd .wrap .s32 { km := 1 })).isEmpty &&
     !(demo.group 0 demoWave demoIssue (.iadd .wrap .s32 { km := 1 })).isEmpty) = true := by decide +kernel

theorem witness_IllegalPatternsTrap :
    (!legal (.kop .and {}) && !declOk (.iaddShort 0 0 40) 32 && !demo.issueOk demoWave (.bcast .b32 { w2 := 63 }) ||
     !legal (.kop .and {}) && !declOk (.iaddShort 0 0 40) 32 && !demo.issueOk demoWave (.barBlk {})) = true := by decide +kernel

/-- A user lane at SYSRD. -/
theorem witness_UserLanesTrapOnSystemOpcodes :
    ((demoOf { demoWave with kind := .launched, lanes := [{}] }).issueLegal { demoWave with kind := .launched, lanes := [{}] }
       (.sysrd { w2 := 0x00FF0080 }) &&
     decide (0xB0 ≤ (descOf (.sysrd { w2 := 0x00FF0080 })).opc) && decide ((descOf (.sysrd { w2 := 0x00FF0080 })).opc ≤ 0xB3) &&
     !((demoOf { demoWave with kind := .launched, lanes := [{}] }).activeLanes demoIssue { demoWave with kind := .launched, lanes := [{}] }
       (.sysrd { w2 := 0x00FF0080 })).isEmpty) = true := by decide +kernel

theorem witness_HandlerEntryAndReturn :
    (((demo.sysPut 0x12 0 0x1000).wave? 0).isSome && decide ([0, 1].Nodup) &&
      decide ((demo.sysPut 0x12 0 0x1000).sysBits 0x12 0 56 2 * 4 ≠ 0) &&
     decide ((0x1000 : DWord).toNat % 4 = 0 ∧ (0x1000 : DWord).toNat < 2 ^ 57) &&
      decide (({} : Lane).level = 0)) = true := by decide +kernel

theorem witness_EncodedInstructionsDecode :
    (isLane (.iadd .wrap .s32 {}) && WellFormed (.iadd .wrap .s32 {})) = true := by decide +kernel

/-- A store of four bytes at its home slice. -/
def demoStore : State := { demoAt { id := 5, n := 4 } with ops := [(5, { act := .store, pa := 8, size := 4, total := 4, data := 0x11223344 })] }

theorem witness_PerformedStoreChangesItsBytes :
    (match look demoStore.ops demoStore.occ.id with
     | some o => demoStore.storeDue demoStore.occ.id o 4 && decide (o.act = .store) && !o.outside &&
         decide (demoStore.groupOf demoStore.occ.id o = [(demoStore.occ.id, o)]) && (demoStore.mixedWith demoStore.occ.id o).isEmpty &&
      o.torn.isEmpty &&
         demoStore.passes.isEmpty
     | none => false) = true := by decide +kernel

theorem witness_values :
    [Instr.and .b32 { dst := 1 }, .or .b64 { dst := 2 }, .xor .b32 {}, .not .b64 {}, .andShort 0 0 255, .notShort 0 0, .popc .b64 {}, .clz .b32 {},
     .brev .b64 { dst := 254 }, .popcShort 0 0, .lea .x16 { dst := 254 }, .leaShort 0 0 0, .iabs .wrap .s32 {}, .ineg .sat .s64 {}].all
      (fun i => (meets demo i).isSome) = true := by decide +kernel

/-- A mask that is empty, and one that is full. -/
theorem witness_MasksAreWaveWide :
    (({ demoWave with ke := [(1, 7)] } : Wave).emptyK (fieldsOf (.iadd .wrap .s32 { km := 1 })).km.toNat &&
     demo.issueLegal { demoWave with ke := [(1, 7)] } (.iadd .wrap .s32 { km := 1 })) = true := by decide +kernel

theorem witness_MaskOperations :
    [Instr.kop .andn { dst := 7 }, .kop .not { dst := 1 }, .kmov false { dst := 1 }, .kmov true {}, .kpopc {}].all
      (fun i => (meets demo i).isSome && !hasLit (fieldsOf i).form) = true := by decide +kernel

theorem witness_BitmapRows :
    [Instr.band {}, .ppopc {}].all (fun i => (meets demo i).isSome && !hasLit (fieldsOf i).form) = true := by decide +kernel

theorem witness_DeclaredLaneRegisters :
    (laneRegsNamed (.iaddShort 0 0 40)).contains 40 = true ∧ legal (.iaddShort 0 0 40) = true ∧ laneRegsNamed (.kpopc {}) = [] := by decide +kernel

theorem witness_MemoryStaysCanonical :
    (demoFetched.memOk && (match step demoFetched with | .next _ => true | _ => false)) = true := by decide +kernel

theorem witness_TablesStayCanonical :
    (demoFetched.tablesOk && (match step demoFetched with | .next _ => true | _ => false)) = true := by decide +kernel

end Sys2Proof.Machine
end

section
/-! Boot, attestation, power, temperature, histograms and errors (R34, R456 to R464): what each event answers, by its cases. -/
namespace Sys2Proof.Machine
open Sys2Proof Host

/-- Below the trip temperature the part shows the temperature, keeps the list of rows that are too hot, and sets the row's clock
(R34, R464). -/
theorem exec_thermalThrottle_of_lt {s : State} (h : s.occ.index < 110) :
    exec .thermalThrottle s = .next
      (({ (s.sysSetBits 0x404 0xFF 47 40 s.occ.index) with
          hot := if s.tooHot s.occ.n s.occ.index then (if s.hot.contains s.occ.n then s.hot else s.occ.n :: s.hot)
            else s.hot.filter (fun y => y != s.occ.n) } : State).setClock s.occ.n
        (if s.tooHot s.occ.n s.occ.index then s.clock s.occ.n - 100 else max (s.clock s.occ.n) s.occ.num)) :=
  if_neg (Nat.not_le.mpr h)

/-- The ROM loads the first image with nothing wrong, or halts (R456). -/
theorem exec_bootRun_rom {s : State} (h : s.boot = .rom) :
    exec .bootRun s = .next (match imageError (Config.imageSlot 0), imageError (Config.imageSlot 1) with
      | none, _ => ({ s with identity := Config.shake256 Config.partSecret 32 } : State).loadImage 1 (Config.imageSlot 0)
      | some _, none => ({ s with identity := Config.shake256 Config.partSecret 32 } : State).loadImage 2 (Config.imageSlot 1)
      | some x, some y => ({ s with identity := Config.shake256 Config.partSecret 32 } : State).bootFails x y) := by
  show execBootRun s = _
  unfold execBootRun
  simp only [h]
  cases imageError (Config.imageSlot 0) with
  | none => rfl
  | some x => cases imageError (Config.imageSlot 1) <;> rfl

theorem exec_bootRun_firmware {s : State} (h : s.boot = .firmware) : exec .bootRun s = .next (s.writeRun 0x80) := by
  show execBootRun s = _
  unfold execBootRun
  simp only [h]

theorem exec_bootRun_started {s : State} (h : s.boot = .service ∨ s.boot = .halted) : exec .bootRun s = .next s := by
  show execBootRun s = _
  unfold execBootRun
  obtain h | h := h <;> simp only [h]

/-- The state once a second's bins, corrected errors and the second itself are counted (R463). -/
def State.secondCounted (s : State) : State :=
  let m := (s.addSecond s.occ).countSlice s.occ.index s.occ.vi 0x109 s.occ.num
  { m with second := m.second + 1, seconds := m.seconds + 1, corrected := m.corrected + s.occ.num }

/-- A second that is due is counted, and with each full hour the hour's corrected errors (R463). -/
theorem exec_histogramTick_due {s : State} (h : s.tickDue = true) :
    exec .histogramTick s = .next (if s.secondCounted.seconds % 3600 = 0 then
      { s.secondCounted.addBin 2 (hourBin s.secondCounted.corrected) 1 with corrected := 0 } else s.secondCounted) := by
  have hc : exec .histogramTick s = if s.secondCounted.seconds % 3600 = 0 then
      .next { s.secondCounted.addBin 2 (hourBin s.secondCounted.corrected) 1 with corrected := 0 } else .next s.secondCounted :=
    if_neg (by simp [h])
  rw [hc, apply_ite Outcome.next]

/-- A scrub meets a lost word of the scratchpad, an error that nobody is told of, or a line that becomes poison (R462). -/
theorem exec_scrub (s : State) :
    exec .scrub s = .next (if s.occ.ok = true then s.loseWord s.occ.core s.occ.n
      else if s.occ.index = 1 then s.hiddenError s.occ.vi (lineOf s.occ.pa) else s.poisonLine s.occ.vi (lineOf s.occ.pa)) := by
  rw [apply_ite Outcome.next, apply_ite Outcome.next]
  rfl

/-- A register error traps the boot wave to firmware and ends any other wave (R462). -/
theorem exec_registerEccError_wave {s : State} {w : Wave} (h : s.wave? s.occ.wid = some w) :
    exec .registerEccError s = .next (if w.kind = .boot then s.firmwareTrap s.occ.wid else (s.killWave s.occ.wid 2).settleOps) := by
  show execRegisterEccError s = _
  unfold execRegisterEccError
  simp only [h]
  rw [apply_ite Outcome.next]

/-- An error in a slice's state is latched and counted, and each interface that it hits loses what it holds there (R400, R462). -/
theorem exec_sliceStateError_hit {s m u : State} {hit : List Nat} {x : Nat} (h : s.hitAt s.occ.n = (m, hit)) (hx : m.choose 64 = (x, u)) :
    exec .sliceStateError s = .next ((hit.foldl (fun v vi => v.loseSlice s.occ.n vi)
      ((u.latch (hit.headD x) 0x3B).countSlice s.occ.n (hit.headD x) 0x10A 1)).settleOps) := by
  show execSliceStateError s = _
  unfold execSliceStateError
  simp only [h, hx]

/-- The service answers a nonce of 32 bytes with the signed report (R459). -/
theorem exec_attestation_served {s : State} (hl : s.linkDown = false) (hb : s.boot = .service) (hn : s.occ.data.length = 32) :
    exec .attestation s = .next (s.send
      { port := 2, dest := 0, kind := 7,
        data := s.report s.occ.data ++ Config.mldsaSign s.identity (Config.shake256 (s.report s.occ.data) 64) }) := by
  show execAttestation s = _
  unfold execAttestation
  simp only [hl, hb, hn, ne_eq, not_true_eq_false, or_self, if_false, Bool.false_eq_true]

/-- Settles O58: each clause is an event's equation in one of its cases. -/
theorem healthIsKept : Obligations.HealthIsKept := by
  unfold Obligations.HealthIsKept
  refine ⟨fun s h hot => ?_, fun s h cool => ?_, fun _ h => if_pos h, fun _ => rfl, fun s m h hm => ?_, fun _ => exec_bootRun_firmware,
    fun _ => exec_bootRun_started, fun _ h => if_pos h, fun s h hour => ?_, fun s h hour => ?_, fun s hok => ?_, fun s hok h1 => ?_,
    fun s hok h1 => ?_, fun s w h hk => ?_, fun s w h hk => ?_, fun _ _ _ _ _ => exec_sliceStateError_hit,
    fun _ => exec_attestation_served⟩
  · rw [exec_thermalThrottle_of_lt h, if_pos hot, if_pos hot]
  · rw [exec_thermalThrottle_of_lt h, if_neg (by simp [cool]), if_neg (by simp [cool])]
  · subst hm
    exact exec_bootRun_rom h
  · exact (exec_histogramTick_due h).trans (congrArg Outcome.next (if_neg hour))
  · exact (exec_histogramTick_due h).trans (congrArg Outcome.next (if_pos hour))
  · rw [exec_scrub, if_pos hok]
  · rw [exec_scrub, if_neg (by simp [hok]), if_neg h1]
  · rw [exec_scrub, if_neg (by simp [hok]), if_pos h1]
  · rw [exec_registerEccError_wave h, if_neg hk]
  · rw [exec_registerEccError_wave h, if_pos hk]

end Sys2Proof.Machine
end

section
/-! Every instruction answers a next state, and what a step without an issue comes to (R31, R436, R453, R463; log entries 5, 6, 9). -/
namespace Sys2Proof.Machine
open Sys2Proof Host

theorem runLanes_answers (i : Instr) (s : State) (eff : Eff) : ∃ t, runLanes i s eff = .next t := by
  fun_cases runLanes i s eff <;> exact ⟨_, rfl⟩

theorem doorbell_answers (s : State) (i : Instr) (num value : Nat) : ∃ t, s.doorbell i num value = .next t := by
  fun_cases State.doorbell s i num value <;> exact ⟨_, rfl⟩

theorem hostRdmaWrite_answers (s : State) : ∃ t, exec .hostRdmaWrite s = .next t := by
  show ∃ t, execHostRdmaWrite s = .next t
  fun_cases execHostRdmaWrite s
  case case1 => exact doorbell_answers ..
  case case2 => exact ⟨_, rfl⟩
  case case3 => exact ⟨_, rfl⟩

theorem thermalTrip_answers (s : State) : ∃ t, exec .thermalTrip s = .next t := by
  show ∃ t, execThermalTrip s = .next t
  fun_cases execThermalTrip s <;> exact ⟨_, rfl⟩

theorem thermalThrottle_answers (s : State) : ∃ t, exec .thermalThrottle s = .next t := by
  by_cases h : 110 ≤ s.occ.index
  · obtain ⟨t, ht⟩ := thermalTrip_answers s
    exact ⟨t, (if_pos h).trans ht⟩
  · exact ⟨_, exec_thermalThrottle_of_lt (Nat.not_le.mp h)⟩

theorem sliceStateError_answers (s : State) : ∃ t, exec .sliceStateError s = .next t := by
  rcases hm : s.hitAt s.occ.n with ⟨m, hit⟩
  rcases hx : m.choose 64 with ⟨x, u⟩
  exact ⟨_, exec_sliceStateError_hit hm hx⟩

/-- The meaning of an event is a tree of decisions about the state; each of its leaves is a next state. -/
theorem event_answers (i : Instr) (h : isLane i = false) (s : State) : ∃ t, exec i s = .next t := by
  cases i <;> cases h
  all_goals dsimp only [exec]
  -- events that decide nothing before their answer
  case issueCycle | graphicsTimeout | vistop | nocRefusal | translationWalk | cqbaseWrite | tqbaseWrite | eqbaseWrite | partWrite |
      vshareWrite | fatalClear | fabricPortDown | pstreamWrite | coldReset | warmReset | interfaceReset | powerLimit |
      brokenConnection | powerLoss | hostSend =>
    exact ⟨_, rfl⟩
  -- fetches, and words that decode to no instruction
  case soloFetch => fun_cases execSoloFetch s <;> exact ⟨_, rfl⟩
  case illegalInstruction => fun_cases execIllegalInstruction s <;> exact ⟨_, rfl⟩
  -- memory accesses
  case destinationFill => fun_cases execDestinationFill s <;> exact ⟨_, rfl⟩
  case homeSliceStore => fun_cases execHomeSliceStore s <;> exact ⟨_, rfl⟩
  -- wakes, records and the wait-cycle scan
  case barrierTimeout => fun_cases execBarrierTimeout s <;> exact ⟨_, rfl⟩
  case sleepWake => fun_cases execSleepWake s <;> exact ⟨_, rfl⟩
  case trapHandlerEntry => fun_cases execTrapHandlerEntry s <;> exact ⟨_, rfl⟩
  case trapRingTimeout => fun_cases execTrapRingTimeout s <;> exact ⟨_, rfl⟩
  case lateRecordTimeout => fun_cases execLateRecordTimeout s <;> exact ⟨_, rfl⟩
  case lateStoreFault => fun_cases execLateStoreFault s <;> exact ⟨_, rfl⟩
  case eventRecordTimeout => fun_cases execEventRecordTimeout s <;> exact ⟨_, rfl⟩
  case waitCycleScan => fun_cases execWaitCycleScan s <;> exact ⟨_, rfl⟩
  -- the matrix unit and its table slots
  case signingTimeout => fun_cases execSigningTimeout s <;> exact ⟨_, rfl⟩
  case armingTimeout => fun_cases execArmingTimeout s <;> exact ⟨_, rfl⟩
  case matrixClaimTimeout => fun_cases execMatrixClaimTimeout s <;> exact ⟨_, rfl⟩
  case matrixEntry => fun_cases execMatrixEntry s <;> exact ⟨_, rfl⟩
  case tableSlotFill => fun_cases execTableSlotFill s <;> exact ⟨_, rfl⟩
  -- launches, placement and completion
  case waveComplete => fun_cases execWaveComplete s <;> exact ⟨_, rfl⟩
  case launch => fun_cases execLaunch s <;> exact ⟨_, rfl⟩
  case cancel => fun_cases execCancel s <;> exact ⟨_, rfl⟩
  case cancelReach => fun_cases execCancelReach s <;> exact ⟨_, rfl⟩
  case launchStart => fun_cases execLaunchStart s <;> exact ⟨_, rfl⟩
  case wavePlace => fun_cases execWavePlace s <;> exact ⟨_, rfl⟩
  case spawnDecision => fun_cases execSpawnDecision s <;> exact ⟨_, rfl⟩
  case packWave => fun_cases execPackWave s <;> exact ⟨_, rfl⟩
  case packWaitExpire => fun_cases execPackWaitExpire s <;> exact ⟨_, rfl⟩
  -- versions and commits
  case commit => fun_cases execCommit s <;> exact ⟨_, rfl⟩
  case dPageAccess => fun_cases execDPageAccess s <;> exact ⟨_, rfl⟩
  case versionShareAbort => fun_cases execVersionShareAbort s <;> exact ⟨_, rfl⟩
  case heldWrite => fun_cases execHeldWrite s <;> exact ⟨_, rfl⟩
  case commitWaitTimeout => fun_cases execCommitWaitTimeout s <;> exact ⟨_, rfl⟩
  -- the scratchpad and bank modes
  case remoteScratchpadAccess => fun_cases execRemoteScratchpadAccess s <;> exact ⟨_, rfl⟩
  case rowBarrierTimeout => fun_cases execRowBarrierTimeout s <;> exact ⟨_, rfl⟩
  case bankmodeWrite => fun_cases execBankmodeWrite s <;> exact ⟨_, rfl⟩
  case bankSwitchComplete => fun_cases execBankSwitchComplete s <;> exact ⟨_, rfl⟩
  -- the engines
  case tileCopyRow => fun_cases execTileCopyRow s <;> exact ⟨_, rfl⟩
  case lateDelivery => fun_cases execLateDelivery s <;> exact ⟨_, rfl⟩
  case fconvTile => fun_cases execFconvTile s <;> exact ⟨_, rfl⟩
  case sredElement => fun_cases execSredElement s <;> exact ⟨_, rfl⟩
  case embagBag => fun_cases execEmbagBag s <;> exact ⟨_, rfl⟩
  case engineQueueTimeout => fun_cases execEngineQueueTimeout s <;> exact ⟨_, rfl⟩
  -- tills
  case tillTake => fun_cases execTillTake s <;> exact ⟨_, rfl⟩
  case tillGive => fun_cases execTillGive s <;> exact ⟨_, rfl⟩
  case tillAcinit => fun_cases execTillAcinit s <;> exact ⟨_, rfl⟩
  case tillStock => fun_cases execTillStock s <;> exact ⟨_, rfl⟩
  case stocktakeRecall => fun_cases execStocktakeRecall s <;> exact ⟨_, rfl⟩
  case allowanceWaitTimeout => fun_cases execAllowanceWaitTimeout s <;> exact ⟨_, rfl⟩
  -- passes, ordered sections, fragment lists and rays
  case drawAccept => fun_cases execDrawAccept s <;> exact ⟨_, rfl⟩
  case rasterWaveForm => fun_cases execRasterWaveForm s <;> exact ⟨_, rfl⟩
  case resolvePhase => fun_cases execResolvePhase s <;> exact ⟨_, rfl⟩
  case passClose => fun_cases execPassClose s <;> exact ⟨_, rfl⟩
  case ordEntryTimeout => fun_cases execOrdEntryTimeout s <;> exact ⟨_, rfl⟩
  case ordSectionTimeout => fun_cases execOrdSectionTimeout s <;> exact ⟨_, rfl⟩
  case fliPerform => fun_cases execFliPerform s <;> exact ⟨_, rfl⟩
  case flwPerform => fun_cases execFlwPerform s <;> exact ⟨_, rfl⟩
  case rayTraversal => fun_cases execRayTraversal s <;> exact ⟨_, rfl⟩
  -- time slices, saves and restores
  case timeSliceEnd => fun_cases execTimeSliceEnd s <;> exact ⟨_, rfl⟩
  case forcedSave => fun_cases execForcedSave s <;> exact ⟨_, rfl⟩
  case saveComplete => fun_cases execSaveComplete s <;> exact ⟨_, rfl⟩
  case waveRestore => fun_cases execWaveRestore s <;> exact ⟨_, rfl⟩
  -- replays and reclassification
  case nocReplay => fun_cases execNocReplay s <;> exact ⟨_, rfl⟩
  case ownerRecall => fun_cases execOwnerRecall s <;> exact ⟨_, rfl⟩
  case reclassifyComplete => fun_cases execReclassifyComplete s <;> exact ⟨_, rfl⟩
  -- hosts and peers
  case hostRdmaRead => fun_cases execHostRdmaRead s <;> exact ⟨_, rfl⟩
  case hostAtomic => fun_cases execHostAtomic s <;> exact ⟨_, rfl⟩
  case registerWrite => fun_cases execRegisterWrite s <;> exact ⟨_, rfl⟩
  case peerInbound => fun_cases execPeerInbound s <;> exact ⟨_, rfl⟩
  case keepalive => fun_cases execKeepalive s <;> exact ⟨_, rfl⟩
  case peerHandshake => fun_cases execPeerHandshake s <;> exact ⟨_, rfl⟩
  case ptpMessage => fun_cases execPtpMessage s <;> exact ⟨_, rfl⟩
  case peerAcknowledgement => fun_cases execPeerAcknowledgement s <;> exact ⟨_, rfl⟩
  case keepaliveReceived => fun_cases execKeepaliveReceived s <;> exact ⟨_, rfl⟩
  case fabricPortUp => fun_cases execFabricPortUp s <;> exact ⟨_, rfl⟩
  case queuePairConnected => fun_cases execQueuePairConnected s <;> exact ⟨_, rfl⟩
  -- boot, management, health and presentation
  case bootRun => fun_cases execBootRun s <;> exact ⟨_, rfl⟩
  case measextWrite => fun_cases execMeasextWrite s <;> exact ⟨_, rfl⟩
  case managementRequest => fun_cases execManagementRequest s <;> exact ⟨_, rfl⟩
  case attestation => fun_cases execAttestation s <;> exact ⟨_, rfl⟩
  case histogramTick => fun_cases execHistogramTick s <;> exact ⟨_, rfl⟩
  case histogramSave => fun_cases execHistogramSave s <;> exact ⟨_, rfl⟩
  case scrub => fun_cases execScrub s <;> exact ⟨_, rfl⟩
  case registerEccError => fun_cases execRegisterEccError s <;> exact ⟨_, rfl⟩
  case peerLost => fun_cases execPeerLost s <;> exact ⟨_, rfl⟩
  case thermalTrip => exact thermalTrip_answers s
  case frameDeadline => fun_cases execFrameDeadline s <;> exact ⟨_, rfl⟩
  -- events that go on as another meaning
  case doorbellCqtail | doorbellTqhead | doorbellEqhead => exact doorbell_answers ..
  case hostRdmaWrite => exact hostRdmaWrite_answers s
  case thermalThrottle => exact thermalThrottle_answers s
  case sliceStateError => exact sliceStateError_answers s

/-- No instruction faults and none is refused (log entry 9): a lane instruction is an issue of its lanes, and every event answers. -/
theorem exec_answers (i : Instr) (s : State) : ∃ t, exec i s = .next t := by
  cases h : isLane i with
  | true =>
    obtain ⟨eff, he⟩ := exec_runs i h
    rw [he]
    exact runLanes_answers i s eff
  | false => exact event_answers i h s

theorem step_of_event {s n : State} {e : Instr} {o : Occ} (hi : s.issues = []) (hp : s.power = true) (hn : s.nextEvent = (n, some (e, o))) :
    step s = State.settle { s with ctr := n.ctr } (s.afterSpawns (exec e { n with occ := o, stall := none })) := by
  unfold step
  simp only [hi, hp, hn, if_true]

theorem step_of_no_event {s n : State} (hi : s.issues = []) (hp : s.power = true) (hn : s.nextEvent = (n, none)) : step s = .next n.tick := by
  unfold step
  simp only [hi, hp, hn, if_true]

theorem step_off_idle {s : State} (hi : s.issues = []) (hp : s.power = false) (h : s.inputs = []) : step s = .fault .noPower := by
  unfold step
  simp only [hi, hp, h, Bool.false_eq_true, if_false]

theorem step_off_coldReset {s : State} {o : Occ} {rest : List (Instr × Occ)} (hi : s.issues = []) (hp : s.power = false)
    (h : s.inputs = (.coldReset, o) :: rest) : step s = exec .coldReset { s with inputs := rest, occ := o } := by
  unfold step
  simp only [hi, hp, h, Bool.false_eq_true, if_false]

theorem step_off_other {s : State} {i : Instr} {o : Occ} {rest : List (Instr × Occ)} (hi : s.issues = []) (hp : s.power = false)
    (h : s.inputs = (i, o) :: rest) (hne : i ≠ .coldReset) : step s = .next { s with inputs := rest } := by
  unfold step
  simp only [hi, hp, h, Bool.false_eq_true, if_false]
  split
  case h_1 e => cases e; exact absurd rfl hne
  case h_2 e => cases e; rfl
  case h_3 e => cases e

/-- Settles O2: the branches of a step without an issue, and that every instruction answers. -/
theorem stepWithoutAnIssue : Obligations.StepWithoutAnIssue := by
  unfold Obligations.StepWithoutAnIssue
  exact ⟨fun _ _ _ _ => step_of_event, fun _ n hi hp hn => ⟨step_of_no_event hi hp hn, tick_gt n⟩,
    fun _ hi hp => ⟨step_off_idle hi hp, fun _ _ => step_off_coldReset hi hp, fun _ _ _ => step_off_other hi hp⟩, exec_answers⟩

end Sys2Proof.Machine
end

section
/-! Lane instructions of this family (R81, R85, R217, R227, R229 to R231, R236, R237, R246 to R251, R314 to R319): each is a shared
operation, whose law says what it completes with. -/
namespace Sys2Proof.Machine
open Sys2Proof Host

/-- An instruction of the function unit: one result a lane, and its flags (R85, R227). -/
theorem unit_result {i : Instr} {f : Instr → Wave → Lane → Nat × BitVec 7} (h : ∀ s, exec i s = laterOp i f s) :
    LaterResult i (fun w run => unitFill f i w run) := laterOp_result h

/-- Settles O27: every named instruction is one of the function unit. -/
theorem functionUnitCompletes : Obligations.FunctionUnitCompletes := by
  unfold Obligations.FunctionUnitCompletes
  and_intros <;> intros <;> exact unit_result fun _ => rfl

/-- Settles O28: the shuffles and the broadcast differ in their source lane alone; SCAN and REDUCE have laws of their own. -/
theorem exchangeCompletes : Obligations.ExchangeCompletes := by
  unfold Obligations.ExchangeCompletes
  exact ⟨fun _ _ _ => shuffleOp_result fun _ => rfl, fun _ _ => shuffleOp_result fun _ => rfl,
    fun _ _ _ => shuffleOp_result fun _ => rfl, fun _ _ => shuffleOp_result fun _ => rfl,
    fun _ _ _ => shuffleOp_result fun _ => rfl, fun _ _ => shuffleOp_result fun _ => rfl,
    fun _ _ _ => shuffleOp_result fun _ => rfl, fun _ _ => shuffleOp_result fun _ => rfl,
    fun _ _ => shuffleOp_result fun _ => rfl, fun _ _ _ => scanOp_result fun _ => rfl, reduce_result⟩

/-- Settles O29: each row operation by its law. -/
theorem rowOperationsComplete : Obligations.RowOperationsComplete :=
  ⟨band_result, ppopc_result, igath_result, cmpr_result, expd_result, topk_result⟩

/-- Settles O32: the three forms are LOOP with the count that their form gives. -/
theorem loopsComplete : Obligations.LoopsComplete :=
  ⟨fun _ _ _ => loopOp_result fun _ => rfl, fun _ _ => loopOp_result fun _ => rfl, fun _ _ => loopOp_result fun _ => rfl⟩

/-- Settles O34: the three forms are BAR, whether or not the arrival completes a barrier. -/
theorem barriersComplete : Obligations.BarriersComplete :=
  ⟨⟨barOp_result fun _ => rfl, barOp_course fun _ => rfl⟩, fun _ => ⟨barOp_result fun _ => rfl, barOp_course fun _ => rfl⟩,
    fun _ => ⟨barOp_result fun _ => rfl, barOp_course fun _ => rfl⟩⟩

end Sys2Proof.Machine
end

section
/-! The step of an issue (R68, R69, R73, R190, R261, R434): what the fetch gives it, and what becomes of its answer; and the issue
cycle and the solo fetch (R63 to R76). -/
namespace Sys2Proof.Machine
open Sys2Proof Host

theorem instrOf_of_decode {ws : List Word} {i : Instr} (hd : decode ws = .ok i) (hl : WellFormed i = true) : instrOf ws = i := by
  unfold instrOf
  simp only [hd, show legal i = true from hl, if_true]

theorem instrOf_of_ill {ws : List Word} (h : ∀ i, decode ws = .ok i → WellFormed i = false) : instrOf ws = .illegalInstruction := by
  unfold instrOf
  cases hd : decode ws with
  | error e => rfl
  | ok i => exact if_neg (by simp [show legal i = false from h i hd])

theorem afterSpawns_kept {s t : State} (h : s.lostSpawn t = none) : s.afterSpawns (.next t) = .next t := by
  unfold State.afterSpawns
  simp only [h]

theorem afterSpawns_lost {s t : State} {id : Nat} (h : s.lostSpawn t = some id) :
    s.afterSpawns (.next t) = exec .spawnDecision { s with occ := { id := id } } := by
  show _ = execSpawnDecision { s with occ := { id := id } }
  unfold State.afterSpawns
  simp only [h]

theorem lostSpawn_of_no_spawn {s t : State} (h : s.spawns = []) : s.lostSpawn t = none := by
  unfold State.lostSpawn
  simp only [h, List.findSome?_nil]

theorem settle_free {b t : State} (h : t.stall = none) : b.settle (.next t) = .next t := by
  unfold State.settle
  simp only [h]

theorem settle_transit {b t : State} {a : Nat} {x : Transit} (h : t.stall = some a) (hx : look t.transit a = some x) :
    b.settle (.next t) = .next { b with stall := some a, transit := put b.transit a x } := by
  unfold State.settle
  simp only [h, hx]

theorem settle_owned {b t : State} {a : Nat} (h : t.stall = some a) (hx : look t.transit a = none) :
    b.settle (.next t) = .next { b with stall := some a } := by
  unfold State.settle
  simp only [h, hx]

/-- A step whose issue gets an instruction executes it. -/
theorem step_of_fetched {s n : State} {c d : Issue} {rest : List Issue} {i : Instr} (hi : s.issues = c :: rest)
    (hf : ({ s with issues := rest, stall := none } : State).fetchIssue c = ⟨n, some (d, i)⟩) :
    step s = ({ s with issues := rest, stall := none } : State).settle (s.afterSpawns (exec i { n with cur := some d })) := by
  unfold step
  simp only [hi, hf]

/-- Lanes of an issue that are all at its program counter and can run are the lanes that fetch. -/
theorem filter_here_eq_lanes {w : Wave} {c : Issue} (h : ∀ k ∈ c.lanes, (w.lane k).live = true ∧ (w.lane k).pc = c.pc ∧ (w.lane k).wait = .run) :
    c.lanes.filter (fun k => (w.lane k).live && (w.lane k).pc == c.pc && (w.lane k).wait == .run) = c.lanes := by
  refine List.filter_eq_self.mpr fun k hk => ?_
  obtain ⟨hlive, hpc, hrun⟩ := h k hk
  simp [hlive, hpc, hrun]

theorem fetchAt_ok {s n : State} {c : Issue} {w : Wave} {level : BitVec 2} {ws : List Word} {i : Instr}
    (hf : s.fetchInstr w level c.pc.toNat = (n, .ok ws)) (hi : instrOf ws = i) :
    s.fetchAt c w level c.lanes = ⟨n.fillBuffers c i ws, some (c, i)⟩ := by
  subst hi
  unfold State.fetchAt
  simp only [hf]

/-- A group fetches through the user mapping for user lanes, and through the supervisor mapping when it has none (R178, R431). -/
theorem fetchIssue_group {s n : State} {c : Issue} {w : Wave} {level : BitVec 2} {ws : List Word} {i : Instr}
    (hs : c.solo = false) (hne : c.lanes ≠ []) (hw : s.wave? c.wid = some w)
    (hl : ∀ k ∈ c.lanes, (w.lane k).live = true ∧ (w.lane k).pc = c.pc ∧ (w.lane k).wait = .run)
    (hv : level = 0 ∧ (∀ k ∈ c.lanes, (w.lane k).level = 0) ∨ level = 1 ∧ (∀ k ∈ c.lanes, (w.lane k).level ≠ 0))
    (hf : s.fetchInstr w level c.pc.toNat = (n, .ok ws)) (hi : instrOf ws = i) :
    s.fetchIssue c = ⟨n.fillBuffers c i ws, some (c, i)⟩ := by
  have hat := fetchAt_ok hf hi
  unfold State.fetchIssue
  simp only [hw, filter_here_eq_lanes hl, hs, Bool.false_eq_true, if_false]
  obtain ⟨rfl, huser⟩ | ⟨rfl, hsuper⟩ := hv
  · have hu : c.lanes.filter (fun k => (w.lane k).level == 0) = c.lanes := List.filter_eq_self.mpr fun k hk => by simp [huser k hk]
    simp only [hu, List.isEmpty_iff, hne, if_false, hat]
  · have hu : c.lanes.filter (fun k => (w.lane k).level == 0) = [] := List.filter_eq_nil_iff.mpr fun k hk => by simpa using hsuper k hk
    simp only [hu, List.isEmpty_nil, if_true, hat]

/-- A solo lane takes the words that its loop buffer holds (R73). -/
theorem fetchIssue_solo {s : State} {c : Issue} {w : Wave} {k : Nat} {ws : List Word} {i : Instr}
    (hs : c.solo = true) (hk : c.lanes = [k]) (hw : s.wave? c.wid = some w)
    (hl : (w.lane k).live = true ∧ (w.lane k).pc = c.pc ∧ (w.lane k).wait = .run)
    (hb : (w.lane k).bufWords c.pc.toNat = some ws) (hi : instrOf ws = i) :
    s.fetchIssue c = ⟨s.fillBuffers c i ws, some (c, i)⟩ := by
  have hh := filter_here_eq_lanes (w := w) (c := c) fun j hj => by
    rw [hk, List.mem_singleton] at hj
    exact hj ▸ hl
  obtain ⟨wid, pc, lanes, solo, ws0, joins⟩ := c
  cases hi; cases hk; cases hs
  unfold State.fetchIssue
  simp only [hw, hh, if_true, List.headD_cons, hb]

/-- Settles O1: the issue's fetch gives its decoded instruction, which the step executes; the rest are the cases of what becomes of an
answer. -/
theorem stepRunsTheIssuedInstruction : Obligations.StepRunsTheIssuedInstruction := by
  unfold Obligations.StepRunsTheIssuedInstruction
  refine ⟨fun s n c rest w ws i level hi hs hne hw hl hv hf hd hwf => ?_, fun s c rest w k ws i hi hs hk hw hlive hpc hrun hb hd hwf => ?_,
    fun _ => instrOf_of_ill, fun _ _ => afterSpawns_kept, fun _ _ _ => afterSpawns_lost, fun _ _ => lostSpawn_of_no_spawn,
    fun _ _ => settle_free, fun _ _ _ _ => settle_transit, fun _ _ _ => settle_owned⟩
  · exact step_of_fetched hi (fetchIssue_group hs hne hw hl hv hf (instrOf_of_decode hd hwf))
  · exact step_of_fetched hi (fetchIssue_solo hs hk hw ⟨hlive, hpc, hrun⟩ hb (instrOf_of_decode hd hwf))

theorem soloIssues_solo {s : State} {core : Nat} {got : List (Cand × List Nat)} {i : Issue} (h : i ∈ s.soloIssues core got) : i.solo = true := by
  unfold State.soloIssues at h
  simp only [List.mem_flatMap, List.mem_map] at h
  obtain ⟨_, _, _, _, rfl⟩ := h
  rfl

/-- An issue of a cycle is a solo issue, or one of a wave that got a fetch port (R68, R69, R73). -/
theorem decideIssues_mem {s : State} {core : Nat} {i : Issue} (h : i ∈ (s.decideIssues core).2) :
    i.solo = true ∨ ∃ x ∈ ports ((s.startCycle core).cands core) 4 [], i ∈ x.1.issues x.2 := by
  unfold State.decideIssues at h
  simp only [List.mem_flatMap, List.mem_append, List.mem_filter] at h
  obtain ⟨_, _, ⟨x, ⟨hx, _⟩, hi⟩ | ⟨hsolo, _⟩⟩ := h
  · exact .inr ⟨x, hx, hi⟩
  · exact .inl (soloIssues_solo hsolo)

theorem exec_issueCycle (s : State) : exec .issueCycle s =
    .next { (s.decideIssues s.occ.core).1 with issues := (s.decideIssues s.occ.core).1.issues ++ (s.decideIssues s.occ.core).2 } := by
  show execIssueCycle s = _
  unfold execIssueCycle
  generalize s.decideIssues s.occ.core = r
  rfl

/-- A word that a solo fetch brings arrives at its lane (R75, R76). -/
theorem exec_soloFetch_ok {s m : State} {x : Word} (hd : s.soloDue s.occ.wid s.occ.lane = true)
    (hf : s.fetchWord (s.waveAt s.occ.wid) (s.laneAt s.occ.wid s.occ.lane).level
      ((s.laneAt s.occ.wid s.occ.lane).pc.toNat + 4 * (s.laneAt s.occ.wid s.occ.lane).soloGot) = (m, .ok x)) :
    exec .soloFetch s = .next (m.soloArrives s.occ.wid s.occ.lane (s.waveAt s.occ.wid) (s.laneAt s.occ.wid s.occ.lane)
      (s.laneAt s.occ.wid s.occ.lane).soloGot x) := by
  show execSoloFetch s = _
  unfold State.laneAt at hf ⊢
  unfold execSoloFetch
  simp only [hd, hf, Bool.true_eq_false, if_false]

/-- Settles O50: where the issues of a cycle come from, the bound of the four ports, and the arrival of a solo fetch. -/
theorem coresIssue : Obligations.CoresIssue := by
  unfold Obligations.CoresIssue
  refine ⟨fun s => ⟨exec_issueCycle s, fun _ => decideIssues_mem⟩, fun cs => ⟨?_, ports_apart cs 4 [] .nil⟩, fun _ _ _ => exec_soloFetch_ok⟩
  simpa using ports_sum cs 4 []

end Sys2Proof.Machine
end

section
/-! Results, stores, bank accesses and held writes land (R85, R131, R143, R160, R166, R268, R397): what each event answers when it is due. -/
namespace Sys2Proof.Machine
open Sys2Proof Host

theorem exec_destinationFill_of_fill {s : State} {f : Fill} (hf : look s.fills s.occ.id = some f) :
    exec .destinationFill s = .next ({ s with fills := del s.fills s.occ.id }.deliver s.occ.id f) := by
  show execDestinationFill s = _
  unfold execDestinationFill
  simp only [hf]

/-- A store of a group is performed at a level, if it is still in flight (R143). -/
def State.promoteAt (level : Nat) (m : State) (x : Nat × Op) : State :=
  match look m.ops x.1 with
  | some a => m.promote x.1 a level
  | none => m

/-- A D-page access of a batch is performed, if it is still in flight (R160). -/
def State.performDAt (m : State) (x : Nat × Op) : State :=
  match look m.ops x.1 with
  | some a => m.performD x.1 a
  | none => m

/-- A store at its home slice is performed with those of its issue to the same unit (R143, R268). -/
theorem exec_homeSliceStore_of_store {s : State} {o : Op} (ho : look s.ops s.occ.id = some o) (hd : s.storeDue s.occ.id o s.occ.n = true)
    (ha : o.act = .store) (hin : o.outside = false) :
    exec .homeSliceStore s = .next ((s.groupOf s.occ.id o).foldl (State.promoteAt s.occ.n) s).settleOps := by
  show execHomeSliceStore s = _
  unfold execHomeSliceStore
  simp only [ho, hd, ha, hin, Bool.not_true, Bool.false_eq_true, reduceCtorEq, if_false]
  rfl

/-- A D-page access is performed with those of its issue to the same unit (R160, R268). -/
theorem exec_dPageAccess_of_due {s : State} {o : Op} (ho : look s.ops s.occ.id = some o) (hd : s.dDue s.occ.id o = true) :
    exec .dPageAccess s = .next ((s.dBatch s.occ.id o).foldl State.performDAt s).settleOps := by
  show execDPageAccess s = _
  unfold execDPageAccess
  simp only [ho, hd, Bool.not_true, Bool.false_eq_true, if_false]
  rfl

theorem exec_heldWrite_of_due {s : State} {h : Held} (hh : look s.held s.occ.id = some h) (hd : s.heldDue s.occ.id h = true) :
    exec .heldWrite s = .next (({ s with held := del s.held s.occ.id } : State).serveOuter h).settleOps := by
  show execHeldWrite s = _
  unfold execHeldWrite
  simp only [hh, hd, if_true]

/-- Bank accesses that are due arrive, those of one issue to a word by rising lane (R131, R268). -/
theorem exec_remoteScratchpadAccess_of_due {s : State} {o : Op} (ho : look s.ops s.occ.id = some o) (hd : s.bankDue s.occ.id o = true) :
    exec .remoteScratchpadAccess s = .next ((s.bankGroup s.occ.id o).foldl (fun m x => m.arriveAt x.1 x.2) s).settleBanks := by
  show execRemoteScratchpadAccess s = _
  unfold execRemoteScratchpadAccess
  simp only [ho, hd, if_true]

/-- An access that waits at its bank is decided there (R131). -/
theorem exec_remoteScratchpadAccess_of_woken {s : State} {o : Op} (ho : look s.ops s.occ.id = some o) (hd : s.bankDue s.occ.id o = false)
    (hw : s.bankWoken s.occ.id o = true) : exec .remoteScratchpadAccess s = .next s.settleBanks := by
  show execRemoteScratchpadAccess s = _
  unfold execRemoteScratchpadAccess
  simp only [ho, hd, hw, Bool.false_eq_true, if_false, if_true]

/-- A home slice refuses a write with cause 2 (R397). -/
theorem exec_lateStoreFault_home {s : State} {o : Op} (ho : look s.ops s.occ.id = some o) (hw : o.writes = true) (hd : o.done = false)
    (hp : o.place = .line ∨ o.place = .dpage) (hn : s.occ.n = 2) : exec .lateStoreFault s = .next (s.refuse o 2).settleOps := by
  have hok : (o.place == .line || o.place == .dpage) = true := by simpa using hp
  show execLateStoreFault s = _
  unfold execLateStoreFault
  simp only [ho, hw, hd, hn, hok, Bool.not_false, Bool.and_self, if_true]

/-- A peer refuses a write with cause 1 or 3 (R397). -/
theorem exec_lateStoreFault_peer {s : State} {o : Op} {p : Nat} (ho : look s.ops s.occ.id = some o) (hw : o.writes = true)
    (hd : o.done = false) (hp : o.place = .peer p) (hn : s.occ.n = 1 ∨ s.occ.n = 3) :
    exec .lateStoreFault s = .next (s.refuse o s.occ.n).settleOps := by
  have h2 : s.occ.n ≠ 2 := by omega
  have hok : (s.occ.n == 1 || s.occ.n == 3) = true := by simpa using hn
  show execLateStoreFault s = _
  unfold execLateStoreFault
  simp only [ho, hw, hd, hp, h2, hok, Bool.not_false, Bool.and_self, if_true, if_false]

/-- Settles O46: each clause is an event's equation when it is due. -/
theorem accessesLand : Obligations.AccessesLand :=
  ⟨fun _ _ => exec_destinationFill_of_fill, fun _ _ => exec_homeSliceStore_of_store, fun _ _ => exec_dPageAccess_of_due,
    fun _ _ => exec_heldWrite_of_due, fun _ _ => exec_remoteScratchpadAccess_of_due, fun _ _ => exec_remoteScratchpadAccess_of_woken,
    fun _ _ => exec_lateStoreFault_home, fun _ _ _ => exec_lateStoreFault_peer⟩

end Sys2Proof.Machine
end

section
/-! Wakes and time-outs (R82, R252, R258, R264, R276, R291, R300, R307, R321, R346, R358, R359): what each event answers when its time
has come. -/
namespace Sys2Proof.Machine
open Sys2Proof Host

theorem exec_sleepWake_of_due {s : State} {d : Nat} (hw : (s.laneAt s.occ.wid s.occ.lane).wait = .sleep d) (hd : d ≤ s.gt) :
    exec .sleepWake s = .next (s.leave s.occ.wid s.occ.lane) := by
  show execSleepWake s = _
  unfold execSleepWake
  simp only [hw, hd, if_true]

/-- An expired barrier that is not full is void, and the lanes that wait in it trap, those of each wave together (R82). -/
theorem exec_barrierTimeout_of_expired {s : State} {b : Barrier} (hb : look s.barriers s.occ.id = some b) (he : s.barrierExpired b = true)
    (hf : s.barrierFull b = false) :
    exec .barrierTimeout s = .next (((b.arrived.map Prod.fst).eraseDups).foldl
      (fun m wid => m.raiseWaiting wid ((b.arrived.filter (fun a => a.1 == wid)).map Prod.snd) (s.barrierInfo s.occ.id b))
      { s with barriers := del s.barriers s.occ.id }) := by
  show execBarrierTimeout s = _
  unfold execBarrierTimeout
  simp only [hb, he, hf, Bool.not_true, Bool.or_self, Bool.false_eq_true, if_false]

theorem exec_commitWaitTimeout_of_expired {s : State} {due ticks : Nat} (hw : (s.laneAt s.occ.wid s.occ.lane).wait = .commit due ticks)
    (he : s.expired due = true) (ht : s.holdsToken (s.laneAt s.occ.wid s.occ.lane).item = false) :
    exec .commitWaitTimeout s = .next
      (s.takeTrap s.occ.wid [s.occ.lane] (s.laneAt s.occ.wid s.occ.lane).pc { kind := 0x15, i0 := dw ticks }) := by
  show execCommitWaitTimeout s = _
  unfold execCommitWaitTimeout
  simp only [hw, he, ht, Bool.not_false, Bool.and_self, if_true]

theorem exec_rowBarrierTimeout_of_expired {s : State} {a b addr due : Nat} {traps : Bool}
    (hw : (s.laneAt s.occ.wid s.occ.lane).wait = .rowBar a b addr due traps) (he : s.expired due = true) :
    exec .rowBarrierTimeout s = .next
      (s.takeTrap s.occ.wid [s.occ.lane] (s.laneAt s.occ.wid s.occ.lane).pc { kind := 0x16, i0 := dw addr }) := by
  show execRowBarrierTimeout s = _
  unfold execRowBarrierTimeout
  simp only [hw, he, Bool.not_true, Bool.false_eq_true, if_false]

theorem exec_signingTimeout_of_expired {s : State} {g due : Nat} {b : Bool} (hw : (s.laneAt s.occ.wid s.occ.lane).wait = .sign g due b)
    (he : s.expired due = true) :
    exec .signingTimeout s = .next (s.takeTrap s.occ.wid [s.occ.lane] (s.laneAt s.occ.wid s.occ.lane).pc (resTrap 0x0E g)) := by
  show execSigningTimeout s = _
  unfold execSigningTimeout
  simp only [hw, he, if_true]

/-- An arming that has waited too long for its sign register is given up, and its lanes trap (R307). -/
theorem exec_armingTimeout_of_found {s : State} {id : Nat} {a : Arming}
    (hf : (s.coreAt (s.waveAt s.occ.wid).core).armings.find? (fun x => x.2.wid == s.occ.wid && s.expired x.2.due) = some (id, a)) :
    exec .armingTimeout s = .next ((s.raiseTraps s.occ.wid (s.laneAt s.occ.wid (a.lanes.headD 0)).pc
      (a.lanes.map (fun k => (k, resTrap 0x0E a.g)))).settleMatrix (s.waveAt s.occ.wid).core) := by
  show execArmingTimeout s = _
  unfold execArmingTimeout
  simp only [hf]

/-- The lanes of an MWAIT whose claim has waited too long trap, and other claims are served (R300). -/
theorem exec_matrixClaimTimeout_of_over {s : State} {o r : Nat}
    (hf : (s.waveAt s.occ.wid).idx.findSome? (fun k => s.claimOver ((s.waveAt s.occ.wid).lane k)) = some (o, r)) :
    exec .matrixClaimTimeout s = .next ((s.raiseTraps s.occ.wid
      ((s.waveAt s.occ.wid).lane (((s.waveAt s.occ.wid).idx.filter (fun k => ((s.waveAt s.occ.wid).lane k).claims o)).headD 0)).pc
      (((s.waveAt s.occ.wid).idx.filter (fun k => ((s.waveAt s.occ.wid).lane k).claims o)).map (fun k => (k, resTrap 0x1A r)))).serveClaims
      (s.waveAt s.occ.wid).core) := by
  show execMatrixClaimTimeout s = _
  unfold execMatrixClaimTimeout
  simp only [hf]

theorem exec_engineQueueTimeout_of_expired {s : State} {id : Nat} {c : Cmd}
    (hf : s.cmds.find? (fun x => !x.2.queued && x.2.wid == s.occ.wid && x.2.lane == s.occ.lane) = some (id, c)) (he : s.expired c.due = true) :
    exec .engineQueueTimeout s = .next
      (s.takeTrap s.occ.wid [s.occ.lane] (s.laneAt s.occ.wid s.occ.lane).pc { kind := 0x1C, i0 := dw c.blkAddr }).settleOps := by
  show execEngineQueueTimeout s = _
  unfold execEngineQueueTimeout
  simp only [hf, he, if_true]

theorem exec_allowanceWaitTimeout_of_expired {s : State} {m : TillMsg} (hm : look s.tillMsgs s.occ.id = some m) (ha : m.act = .take)
    (he : s.expired m.due = true) :
    exec .allowanceWaitTimeout s = .next (s.takeTrap m.wid [m.lane] (s.laneAt m.wid m.lane).pc { kind := 0x14, i0 := m.va }) := by
  show execAllowanceWaitTimeout s = _
  unfold execAllowanceWaitTimeout
  simp only [hm, ha, he, ne_eq, not_true_eq_false, Bool.true_eq_false, or_self, if_false]

/-- A lane that has waited too long to enter its section traps with the lowest sequence number in its way (R359). -/
theorem exec_ordEntryTimeout_of_expired {s : State} {due : Nat} {o : Ord} (hw : ((s.waveAt s.occ.wid).lane s.occ.lane).wait = .ordEnter due)
    (ho : ((s.waveAt s.occ.wid).lane s.occ.lane).ord = some o) (he : s.expired due = true) :
    exec .ordEntryTimeout s = .next ((s.modLane s.occ.wid s.occ.lane (fun l => { l with wait := .ordEnter 0 })).raiseNow s.occ.wid s.occ.lane
      (orderedTrap ((s.waveAt s.occ.wid).lane s.occ.lane) 0xA2 7
        ((s.ordBlockers (s.waveAt s.occ.wid).pass o).foldl min ((s.ordBlockers (s.waveAt s.occ.wid).pass o).headD 0)))) := by
  show execOrdEntryTimeout s = _
  unfold execOrdEntryTimeout
  simp only [hw, ho, he, if_true]

/-- A lane that has been inside its section too long traps, once (R358, R359; log entry 75). -/
theorem exec_ordSectionTimeout_of_expired {s : State} {o : Ord} (ho : ((s.waveAt s.occ.wid).lane s.occ.lane).ord = some o)
    (hi : o.inside = true) (he : s.expired o.due = true) :
    exec .ordSectionTimeout s = .next
      ((s.modLane s.occ.wid s.occ.lane (fun l => { l with ord := some { o with due := 0 } })).raiseNow s.occ.wid s.occ.lane
        (orderedTrap ((s.waveAt s.occ.wid).lane s.occ.lane)
          (descOf (s.peek (s.waveAt s.occ.wid) ((s.waveAt s.occ.wid).lane s.occ.lane))).opc 6 0)) := by
  show execOrdSectionTimeout s = _
  unfold execOrdSectionTimeout
  simp only [ho, hi, he, Bool.and_self, if_true]

/-- Settles O48: each clause is an event's equation when its time has come. -/
theorem lanesWakeAndTimeOut : Obligations.LanesWakeAndTimeOut :=
  ⟨fun _ _ => exec_sleepWake_of_due, fun _ _ => exec_barrierTimeout_of_expired, fun _ _ _ => exec_commitWaitTimeout_of_expired,
    fun _ _ _ _ _ _ => exec_rowBarrierTimeout_of_expired, fun _ _ _ _ => exec_signingTimeout_of_expired,
    fun _ _ _ => exec_armingTimeout_of_found, fun _ _ _ => exec_matrixClaimTimeout_of_over,
    fun _ _ _ => exec_engineQueueTimeout_of_expired, fun _ _ => exec_allowanceWaitTimeout_of_expired,
    fun _ _ _ => exec_ordEntryTimeout_of_expired, fun _ _ => exec_ordSectionTimeout_of_expired, fun _ => rfl⟩

end Sys2Proof.Machine
end

section
/-! Peers, the fabric ports, 1588 time and the presentation clock (R112, R441 to R452): what each event answers, by its cases. -/
namespace Sys2Proof.Machine
open Sys2Proof Host

/-- The state once a flit of a peer has arrived (R448). -/
def State.heard (s : State) (p : Nat) : State := { s with peerHeard := put s.peerHeard p s.gt }

/-- A peer's access is performed where the peer is up and its window lets the access through, and is refused otherwise (R442, R448). -/
theorem exec_peerInbound_request {s : State} {req : PeerReq} (hl : s.linkDown = false) (hr : s.occ.req = some req) :
    exec .peerInbound s = .next
      (if s.sysBits 0x304 s.occ.peer 62 62 = 1 ∧ inboundOk (s.sysAt 0x305 s.occ.peer) s.occ.pa (reqSize req) (reqWrites req) = true then
        (s.heard s.occ.peer).takeOuter { pa := s.occ.pa, req := req, port := 1, dest := s.occ.peer }
      else (s.heard s.occ.peer).send
        { port := 1, dest := s.occ.peer, kind := 8, addr := s.occ.pa, cage := s.cageOf s.occ.peer s.occ.pa }) := by
  show execPeerInbound s = _
  unfold execPeerInbound
  simp only [hl, hr, Bool.false_eq_true, if_false, Bool.and_eq_true, beq_iff_eq]
  rw [apply_ite Outcome.next]
  rfl

/-- An access sent outside ends with its acknowledgement, which gives a read its value and an atomic its flags, or with its refusal
(R112, R279, R442, R446). -/
def State.endAccess (m : State) (e : Occ) (o : Op) : State :=
  if !e.ok then (m.refuse o 3).settleOps
  else if o.reads then
    let x := ofBytes e.data % 2 ^ (8 * o.size)
    ({ m with ops := put m.ops e.id { o with done := true, data := x, flags := (rmw o.act o.size x o.data o.cmp).2 } } : State).settleOps
  else ({ m with ops := del m.ops e.id } : State).settleOps

theorem endAccess_refused {m : State} {e : Occ} {o : Op} (h : e.ok = false) : m.endAccess e o = (m.refuse o 3).settleOps :=
  if_pos (by simp [h])

theorem endAccess_read {m : State} {e : Occ} {o : Op} (h : e.ok = true) (hr : o.reads = true) :
    m.endAccess e o = ({ m with ops := put m.ops e.id { o with
      done := true, data := ofBytes e.data % 2 ^ (8 * o.size),
      flags := (rmw o.act o.size (ofBytes e.data % 2 ^ (8 * o.size)) o.data o.cmp).2 } } : State).settleOps :=
  (if_neg (by simp [h])).trans (if_pos hr)

theorem endAccess_written {m : State} {e : Occ} {o : Op} (h : e.ok = true) (hr : o.reads = false) :
    m.endAccess e o = ({ m with ops := del m.ops e.id } : State).settleOps :=
  (if_neg (by simp [h])).trans (if_neg (by simp [hr]))

/-- A host window's access ends by its acknowledgement alone (R446). -/
theorem exec_peerAcknowledgement_host {s : State} {o : Op} (ho : look s.ops s.occ.id = some o) (ha : o.arrived = true)
    (hd : o.done = false) (hp : o.place = .host) : exec .peerAcknowledgement s = .next (s.endAccess s.occ o) := by
  show execPeerAcknowledgement s = _
  unfold execPeerAcknowledgement State.endAccess State.lineEnd Op.outside
  simp only [ho, ha, hd, hp, Bool.not_true, Bool.or_self, Bool.false_eq_true, if_false, apply_ite Outcome.next]

/-- The end of a peer's access frees its line's port and counts as a flit of the peer (R447, R448). -/
theorem exec_peerAcknowledgement_peer {s : State} {o : Op} {p : Nat} (ho : look s.ops s.occ.id = some o) (ha : o.arrived = true)
    (hd : o.done = false) (hp : o.place = .peer p) :
    exec .peerAcknowledgement s = .next (((s.lineUse p o.pa false).heard p).endAccess s.occ o) := by
  show execPeerAcknowledgement s = _
  unfold execPeerAcknowledgement State.endAccess State.lineEnd Op.outside State.heard
  simp only [ho, ha, hd, hp, lineUse_occ, Bool.not_true, Bool.or_self, Bool.false_eq_true, if_false, apply_ite Outcome.next]

/-- A port that goes down is listed once among those that are down (R447). -/
theorem exec_fabricPortDown (s : State) :
    exec .fabricPortDown s = .next
      (if s.fabricDown.contains s.occ.port then s else { s with fabricDown := s.occ.port :: s.fabricDown }) := by
  show execFabricPortDown s = _
  unfold execFabricPortDown
  split <;> rfl

/-- A peer in use that answers with its module's number is reached again (R441, R448). -/
theorem exec_peerHandshake_answered {s : State} (hl : s.linkDown = false) (hu : s.sysBits 0x304 s.occ.peer 63 63 = 1)
    (hm : s.sysBits 0x304 s.occ.peer 31 0 = s.occ.value.toNat) :
    exec .peerHandshake s = .next ((s.heard s.occ.peer).sysSetBits 0x304 s.occ.peer 62 62 1) :=
  if_pos ⟨hl, hu, hm⟩

/-- The offsets within 50 ns in a row, at most 16, once another offset has come (R449). -/
def State.ptpCount (s : State) : Nat :=
  if -50 ≤ signed 32 s.occ.value.toNat ∧ signed 32 s.occ.value.toNat ≤ 50 then min 16 (s.ptpRun + 1) else 0

theorem ptpCount_near {s : State} (h : -50 ≤ signed 32 s.occ.value.toNat ∧ signed 32 s.occ.value.toNat ≤ 50) :
    s.ptpCount = min 16 (s.ptpRun + 1) := if_pos h

theorem ptpCount_far {s : State} (h : signed 32 s.occ.value.toNat < -50 ∨ 50 < signed 32 s.occ.value.toNat) : s.ptpCount = 0 :=
  if_neg (by omega)

/-- A time message leaves its offset and whether the last 16 were within 50 ns; GT is the model's own clock (R449, log entry 108). -/
theorem exec_ptpMessage_up {s : State} (hl : s.linkDown = false) :
    exec .ptpMessage s = .next ((({ s with ptpRun := s.ptpCount } : State).sysSetBits 0x4C4 0xFF 31 0
      (bits s.occ.value.toNat 31 0)).sysSetBits 0x4C4 0xFF 63 63 (bCode (s.ptpCount == 16))) :=
  if_neg (by simp [hl])

/-- What a stream keeps of its next frame: the frame it sends, with the IMAGE and SPARE of its slot (R452, log entry 89). -/
def State.keepFrame (m : State) (i : Nat) (t : Stream) (last : Option Nat) (image spare : Nat) : State :=
  { m with streams := put m.streams i { t with frame := t.frame + 1, last := last, image := image, spare := spare } }

/-- The slot of the frame before the one a stream decides; the first frame has none before it (R452). -/
def State.slotBefore (m : State) (i : Nat) (t : Stream) : State × Option (List Nat) :=
  if t.frame = 0 then (m, none) else m.ringSlot i t (t.frame - 1)

theorem slotBefore_zero {m : State} {i : Nat} {t : Stream} (h : t.frame = 0) : m.slotBefore i t = (m, none) := if_pos h

theorem slotBefore_succ {m : State} {i n : Nat} {t : Stream} (h : t.frame = n + 1) : m.slotBefore i t = m.ringSlot i t n := by
  simp [State.slotBefore, h]

section
variable {s m u : State} {t : Stream} {a b : Option (List Nat)}

/-- A frame whose slot holds it at its deadline is sent (R452). -/
theorem exec_frameDeadline_ready {ws : List Nat} (hd : s.frameDue s.occ.index = true) (ht : look s.streams s.occ.index = some t)
    (hs : s.ringSlot s.occ.index t t.frame = (m, some (t.frame :: ws))) :
    exec .frameDeadline s = .next ((m.keepFrame s.occ.index t (some t.frame) (ws.getD 0 0) (ws.getD 1 0)).sendFrame s.occ.index t
      t.frame 0 t.frame (ws.getD 0 0)) := by
  show execFrameDeadline s = _
  unfold execFrameDeadline
  simp [hd, ht, hs, slotIs, State.keepFrame]

variable (hd : s.frameDue s.occ.index = true) (ht : look s.streams s.occ.index = some t)
  (hs : s.ringSlot s.occ.index t t.frame = (m, a)) (ha : slotIs a t.frame = false) (hb : m.slotBefore s.occ.index t = (u, b))
include hd ht hs ha hb

/-- For a frame that is not there the one before it is sent, from its SPARE image if it has one, where its slot holds it and
it is newer than the last frame sent (R452). -/
theorem exec_frameDeadline_before {n : Nat} {ws : List Nat} (hn : t.frame - 1 = n) (hw : b = some (n :: ws))
    (hl : t.last.all (fun k => decide (k < n)) = true) :
    exec .frameDeadline s = .next ((u.keepFrame s.occ.index t (some n) (ws.getD 0 0) (ws.getD 1 0)).sendFrame s.occ.index t t.frame 1 n
      (if ws.getD 1 0 = 0 then ws.getD 0 0 else ws.getD 1 0)) := by
  subst hn hw
  have hf : slotIs (some ((t.frame - 1) :: ws)) (t.frame - 1) = true := beq_self_eq_true _
  show execFrameDeadline s = _
  unfold execFrameDeadline State.keepFrame
  unfold State.slotBefore at hb
  simp only [hd, ht, hs, ha, hb, hf, hl, Bool.and_self, Bool.true_eq_false, Bool.false_eq_true, if_false, if_true]
  rfl

/-- Where neither the frame nor a newer one before it is there, the last frame sent is sent again (R452). -/
theorem exec_frameDeadline_again {k : Nat} (hf : (slotIs b (t.frame - 1) && t.last.all (fun l => decide (l < t.frame - 1))) = false)
    (hl : t.last = some k) :
    exec .frameDeadline s = .next ((u.keepFrame s.occ.index t (some k) t.image t.spare).sendFrame s.occ.index t t.frame 2 k
      (if t.spare = 0 then t.image else t.spare)) := by
  show execFrameDeadline s = _
  unfold execFrameDeadline State.keepFrame
  unfold State.slotBefore at hb
  rw [hl] at hf
  simp only [hd, ht, hs, ha, hb, hf, hl, Bool.true_eq_false, Bool.false_eq_true, if_false]
  rfl

/-- A stream that has sent no frame yet, and finds none, only records that, with a frame number that is free (R452). -/
theorem exec_frameDeadline_nothing (hf : slotIs b (t.frame - 1) = false) (hl : t.last = none) :
    exec .frameDeadline s = .next (({ u.keepFrame s.occ.index t none t.image t.spare with ctr := u.ctr + 1 } : State).partStore
      (u.streamVi s.occ.index) (u.sysBits 0x4C8 s.occ.index 56 6 * 64 + 0x30) (toBytes 8 (3 * 2 ^ 62 + Config.free u.ctr % 2 ^ 61))).1 := by
  show execFrameDeadline s = _
  unfold execFrameDeadline State.keepFrame
  unfold State.slotBefore at hb
  simp only [hd, ht, hs, ha, hb, hf, hl, Bool.false_and, Bool.true_eq_false, Bool.false_eq_true, if_false]
  rfl

end

/-- Settles O56: each clause is an event's equation in one of its cases. -/
theorem outsideRequestsAreServed : Obligations.OutsideRequestsAreServed := by
  unfold Obligations.OutsideRequestsAreServed
  refine ⟨fun s req hl hr hu hw => ?_, fun s req hl hr hx => ?_, fun s o ho ha hd hp hok hr => ?_, fun s o ho ha hd hp hok hr => ?_,
    fun s o ho ha hd hp hok => ?_, fun s o p ho ha hd hp hok hr => ?_, fun s o p ho ha hd hp hok hr => ?_,
    fun s o p ho ha hd hp hok => ?_, fun _ h => if_pos h, fun s hl => if_neg (by simp [hl]), fun s h => ?_, fun s h => ?_,
    fun s hl => if_neg (by simp [hl]), fun _ => exec_peerHandshake_answered, fun s hl h1 h2 => ?_, fun s hl h => ?_,
    fun s h => ⟨_, rfl, if_pos h⟩, fun _ _ _ _ => exec_frameDeadline_ready, fun s t m a hd ht hs ha hn hl => ?_,
    fun s t m u n a ws hd ht hs ha hn hb hl => ?_, fun s t m u n k a b hd ht hs ha hn hb hf hl => ?_,
    fun s t m u n a b hd ht hs ha hn hb hf hl => ?_⟩
  · exact (exec_peerInbound_request hl hr).trans (congrArg Outcome.next (if_pos ⟨hu, hw⟩))
  · exact (exec_peerInbound_request hl hr).trans (congrArg Outcome.next (if_neg fun ⟨hu, hw⟩ =>
      hx.elim (fun h => h hu) (fun h => ne_true_of_eq_false h hw)))
  · exact (exec_peerAcknowledgement_host ho ha hd hp).trans (congrArg Outcome.next (endAccess_read hok hr))
  · exact (exec_peerAcknowledgement_host ho ha hd hp).trans (congrArg Outcome.next (endAccess_written hok hr))
  · exact (exec_peerAcknowledgement_host ho ha hd hp).trans (congrArg Outcome.next (endAccess_refused hok))
  · exact (exec_peerAcknowledgement_peer ho ha hd hp).trans (congrArg Outcome.next (endAccess_read hok hr))
  · exact (exec_peerAcknowledgement_peer ho ha hd hp).trans (congrArg Outcome.next (endAccess_written hok hr))
  · exact (exec_peerAcknowledgement_peer ho ha hd hp).trans (congrArg Outcome.next (endAccess_refused hok))
  · rw [exec_fabricPortDown, if_neg (ne_true_of_eq_false h)]
  · rw [exec_fabricPortDown, if_pos h]
  · rw [exec_ptpMessage_up hl, ptpCount_near ⟨h1, h2⟩]
  · rw [exec_ptpMessage_up hl, ptpCount_far h]
  · exact ⟨Config.free m.ctr % 2 ^ 61, Nat.mod_lt _ (by decide), by
      simpa only [State.keepFrame, hn] using exec_frameDeadline_nothing hd ht hs ha (slotBefore_zero hn) rfl hl⟩
  · simpa only [State.keepFrame, hn] using
      exec_frameDeadline_before hd ht hs ha ((slotBefore_succ hn).trans hb) (by rw [hn]; rfl) rfl hl
  · simpa only [State.keepFrame, hn] using
      exec_frameDeadline_again hd ht hs ha ((slotBefore_succ hn).trans hb) (by rwa [hn, Nat.add_sub_cancel]) hl
  · exact ⟨Config.free u.ctr % 2 ^ 61, Nat.mod_lt _ (by decide), by
      simpa only [State.keepFrame, hn] using
        exec_frameDeadline_nothing hd ht hs ha ((slotBefore_succ hn).trans hb) (by rwa [hn, Nat.add_sub_cancel]) hl⟩

end Sys2Proof.Machine
end

section
/-! The memory hierarchy: row waits and bank requests (R276, R292), bank modes (R126 to R129), walks (R428 to R433), reclassification
(R434), and the refusals of the on-die network (R426). -/
namespace Sys2Proof.Machine
open Sys2Proof Host

/-- Settles O39: both forms of RBWAIT are its shared operation; BANKREQ has its outcome and its effect. -/
theorem rowWaitsAndBankRequestsComplete : Obligations.RowWaitsAndBankRequestsComplete :=
  ⟨fun _ _ => rbwaitOp_result fun _ => rfl, fun _ => rbwaitOp_result fun _ => rfl, fun x => ⟨bankreq_result x, bankreq_effect x⟩⟩

section
variable {s : State} {cluster i mode : Nat} {force : Bool}

theorem requestSwitch_same (h : mode = s.bankMode cluster i) : s.requestSwitch cluster i mode force = (s, false, false) := if_pos h

/-- Mode 3 is never entered, and a bank has one switch at a time (R126, R128). -/
theorem switchRefused_of_reserved_or_pending (h : mode = 3 ∨ has s.switches (24 * cluster + i) = true) :
    s.switchRefused cluster i mode force = true := by
  unfold State.switchRefused
  obtain h | h := h <;> simp [h]

theorem requestSwitch_refused (hm : mode ≠ s.bankMode cluster i) (h : s.switchRefused cluster i mode force = true) :
    s.requestSwitch cluster i mode force = (s.sysSetBits 0x31 cluster (24 + i) (24 + i) 1, false, true) :=
  (if_neg hm).trans (if_pos h)

/-- A switch that starts has no access to fault unless the bank leaves FIFO mode (R128, R129). -/
theorem requestSwitch_started (hm : mode ≠ s.bankMode cluster i) (h : s.switchRefused cluster i mode force = false)
    (hf : s.bankMode cluster i ≠ 2) :
    s.requestSwitch cluster i mode force =
      ({ (s.sysSetBits 0x31 cluster (24 + i) (24 + i) 0).sysSetBits 0x31 cluster i i 1 with
          switches := put s.switches (24 * cluster + i) mode }, true, false) := by
  unfold State.requestSwitch
  simp only [hm, h, hf, Bool.false_eq_true, if_false]
  rfl

end

section
variable {s : State}

theorem exec_bankSwitchComplete_due {mode : Nat} (hl : look s.switches (24 * s.occ.index + s.occ.n) = some mode)
    (hd : s.switchDue s.occ.index s.occ.n = true) : exec .bankSwitchComplete s = .next (s.switched s.occ.index s.occ.n mode) := by
  show execBankSwitchComplete s = _
  unfold execBankSwitchComplete
  simp only [hl, hd, Bool.not_true, Bool.false_eq_true, if_false]

/-- A walk leaves what the translation of its address leaves (R428). -/
theorem exec_translationWalk (s : State) :
    exec .translationWalk s = .next (s.translate s.occ.vi s.occ.core (if s.occ.ok then 1 else 0) s.occ.value.toNat s.occ.n
      (if s.occ.n = 2 then .atomic else .lane)).1 := rfl

/-- An interface without a valid root has no translation, and nothing is kept (R428). -/
theorem translate_no_root {vi core va acc : Nat} {level : BitVec 2} {ag : Agent} (ht : tlbHit s.tlb vi core va = none)
    (hr : bits (s.sysAt 0x300 vi) 63 63 = 0) : s.translate vi core level va acc ag = (s, .fault 0x08 0) := by
  unfold State.translate
  simp only [ht, hr, if_true]

theorem exec_ownerRecall_of_transit {t : Transit} (hl : look s.transit s.occ.pa = some t) (hr : t.recalled = false) :
    exec .ownerRecall s = .next { s with
      tlb := s.tlb.filter (fun e => e.leafPa != s.occ.pa)
      transit := put s.transit s.occ.pa { t with recalled := true, since := s.gt } } := by
  show execOwnerRecall s = _
  unfold execOwnerRecall
  simp only [hl, hr, Bool.false_eq_true, if_false]

end

section
variable {s : State} {a : Nat} {t : Transit} (hl : look s.transit a = some t)
include hl

/-- A reclassified page is not in transit any more (R434 step 4). -/
theorem reclassNow_transit : (s.reclassNow a).transit = del (s.reclassNow a).transit a := by
  unfold State.reclassNow
  simp only [hl, del_del]

/-- No translation of a reclassified page is kept (R434 step 4). -/
theorem reclassNow_tlb : ∀ e ∈ (s.reclassNow a).tlb, e.leafPa ≠ a := by
  unfold State.reclassNow
  simp only [hl, List.mem_filter, bne_iff_ne]
  exact fun _ he => he.2

end

section
variable {s : State}

theorem exec_reclassifyComplete_due {t : Transit} (hl : look s.transit s.occ.pa = some t) (hd : s.reclassDue t = true) :
    exec .reclassifyComplete s = .next (s.reclassNow s.occ.pa).settleOps := by
  show execReclassifyComplete s = _
  unfold execReclassifyComplete
  simp only [hl, hd, if_true]

/-- A window's back-off that is over: the replay is counted, and the next refusal is the first again (R426). -/
theorem exec_nocReplay_due {w : Window} (hl : look s.noc (windowKey s.occ) = some w) (hr : w.replayed = false)
    (hc : w.wait ≤ (s.coreAt s.occ.core).cycle) :
    exec .nocReplay s = .next (let t := s.countSlice s.occ.index s.occ.vi 0x108 1
      { t with noc := put t.noc (windowKey s.occ) { w with refused := 0, replayed := true } }) := by
  show execNocReplay s = _
  unfold execNocReplay
  simp only [hl, hr, Nat.not_lt.mpr hc, Bool.false_eq_true, or_self, if_false]

end

/-- Settles O47: the cases of a switch request, and the equation of each event when it is due. -/
theorem translationTrafficProceeds : Obligations.TranslationTrafficProceeds := by
  unfold Obligations.TranslationTrafficProceeds
  refine ⟨fun _ h => if_pos h, fun _ _ _ _ _ => requestSwitch_same, fun s cluster i mode force hm h => requestSwitch_refused hm ?_,
    fun _ _ _ _ _ => requestSwitch_started, fun _ _ => exec_bankSwitchComplete_due, fun s ht hr => ?_, fun s m r h => ?_,
    fun _ _ => exec_ownerRecall_of_transit,
    fun s t hl hd => ⟨_, reclassNow_transit hl, reclassNow_tlb hl, rfl, exec_reclassifyComplete_due hl hd⟩,
    fun _ => ⟨_, rfl, rfl, rfl, rfl⟩, fun _ _ => exec_nocReplay_due⟩
  · obtain h | h | h := h
    · exact switchRefused_of_reserved_or_pending (.inl h)
    · exact switchRefused_of_reserved_or_pending (.inr h)
    · exact h
  · rw [exec_translationWalk, translate_no_root ht hr]
  · rw [exec_translationWalk, h]

end Sys2Proof.Machine
end

section
/-! The encoding (R167 to R190): every instruction is read back from its words. -/
namespace Sys2Proof.Laws.Decodes
open Sys2Proof Sys2Proof.Machine

/-- Each constructor of Instr by its own law, in the order of the opcode table. -/
theorem statement (i : Instr) : Statement i :=
  Instr.rec (motive := Statement)
    iaddShort iadd isubShort isub imulShort imul iaddImmShort iaddImm imadShort imad idivShort idiv iremShort irem iminShort
    imin imaxShort imax iabsShort iabs inegShort ineg andShort and orShort or xorShort xor notShort not shlShort shl shrShort
    shr sarShort sar rotShort rot popcShort popc clzShort clz brevShort brev bfx bfi icmpShort icmp sel leaShort lea movShort
    mov movW movLo movHi movFws movTws faddShort fadd fsubShort fsub fmulShort fmul fmaShort fma fdivShort fdiv fsqrtShort fsqrt
    frcpShort frcp frsqShort frsq fminShort fmin fmaxShort fmax fabsShort fabs fnegShort fneg fcpsShort fcps fcmpShort fcmp
    fclsShort fcls frndShort frnd cvtf cvtfi cvtif cvtsc fexpShort fexp flogShort flog fsinShort fsin fcosShort fcos ftanShort
    ftan ftanhShort ftanh fatanShort fatan fpack shflShort shfl shflupShort shflup shfldnShort shfldn shflxShort shflx bcast
    vote kset kop kmov kpopc reduce scan braShort bra brc callShort call callInd retShort ret loopShort loop loopI barWvShort
    barWv barBlk sleepShort sleep sleepFor waitFullShort waitFull waitEmpty trapShort trap endShort endLane msignShort msign
    spawn yieldShort yieldNow cmtWaitShort cmtWait cmtPos ldShort ld stShort st ldsShort lds stsShort sts fillShort fill
    drainShort drain seteShort sete pushShort push popShort pop rbwaitShort rbwait rbrdShort rbrd rbaddShort rbadd atom atoms
    cas cass fatom fatoms fenceShort fence take takeTry give acinit stock bankreq prefShort pref ldw stw flushShort flush mlatb
    mma mmas mmai mcbt mzero mrd mst mmv mstat mstatClr mwait mrel band ppopc igath cmpr expd topk tcopy tgath tscat fconv sred
    embag draw rpassTile rpassImm ordEnter ordLeave fli flw rayq rayqApp sysrd syswr sysopIcinv sysopDcwb sysopXlinv
    sysopXlinvAll eret issueCycle soloFetch destinationFill barrierTimeout sleepWake signingTimeout armingTimeout waveComplete
    launch cancel cancelReach launchStart wavePlace spawnDecision packWave packWaitExpire commit dPageAccess versionShareAbort
    heldWrite homeSliceStore remoteScratchpadAccess bankmodeWrite bankSwitchComplete tileCopyRow lateDelivery engineQueueTimeout
    fconvTile sredElement embagBag matrixEntry tableSlotFill matrixClaimTimeout tillTake tillGive tillAcinit tillStock
    stocktakeRecall allowanceWaitTimeout rowBarrierTimeout commitWaitTimeout drawAccept rasterWaveForm ordEntryTimeout
    ordSectionTimeout fliPerform flwPerform rayTraversal graphicsTimeout resolvePhase passClose trapHandlerEntry trapRingTimeout
    lateRecordTimeout lateStoreFault eventRecordTimeout timeSliceEnd forcedSave saveComplete waveRestore vistop waitCycleScan
    nocRefusal nocReplay translationWalk ownerRecall reclassifyComplete hostRdmaWrite hostRdmaRead hostAtomic doorbellCqtail
    doorbellTqhead doorbellEqhead cqbaseWrite tqbaseWrite eqbaseWrite partWrite vshareWrite fatalClear registerWrite peerInbound
    keepalive fabricPortDown peerLost peerHandshake ptpMessage pstreamWrite frameDeadline coldReset warmReset interfaceReset
    thermalTrip thermalThrottle powerLimit bootRun measextWrite managementRequest attestation histogramTick histogramSave scrub
    registerEccError sliceStateError illegalInstruction peerAcknowledgement keepaliveReceived fabricPortUp queuePairConnected
    brokenConnection powerLoss hostSend i

end Sys2Proof.Laws.Decodes
end

section
/-! The encoding and the common course of an issue: words and their instructions (R167 to R190), a group without an active lane (R175, R201), a
group that is refused as a whole (R190), and the masks (R175). -/
namespace Sys2Proof.Machine
open Sys2Proof Host

/-- Settles O4: the law of the instruction's constructor. -/
theorem encodedInstructionsDecode : Obligations.EncodedInstructionsDecode := Laws.Decodes.statement

/-- Words that the encoder writes for a well-formed instruction are read as it. -/
theorem decode_of_encode {i : Instr} {ws : List Word} (he : encode i = ws) (h : (isLane i && WellFormed i) = true) : decode ws = .ok i := by
  rw [Bool.and_eq_true] at h
  exact he ▸ encodedInstructionsDecode i h.1 h.2

/-- Settles O5: the encoder writes each worked word for the instruction that the manual gives for it, which is well formed. -/
theorem workedWordsDecode : Obligations.WorkedWordsDecode := by
  unfold Obligations.WorkedWordsDecode
  refine ⟨?_, ?_, ?_, ?_, ?_, ?_, ?_, ?_, ?_, ?_, ?_, ?_, ?_, ?_, ?_⟩ <;> exact decode_of_encode (by decide) (by decide)

theorem earlyTraps_of_no_active {s : State} {c : Issue} {w : Wave} {i : Instr} (h : s.activeLanes c w i = []) :
    s.earlyTraps c w i = [] := by
  rw [State.earlyTraps, h, List.filterMap_nil]

/-- An issue none of whose lanes is active has no effect: its lanes go on (R175, R79). -/
theorem runLanes_masked {s : State} {c : Issue} {w : Wave} {i : Instr} (eff : Eff) (hi : s.Issues c w i) (h : s.activeLanes c w i = []) :
    ∃ t, runLanes i s eff = .next t ∧
      s.taken.GoesOn c.wid (s.noted c w i) (fun k => s.onward c w i k ((s.noted c w i).lane k)) t := by
  have he : s.earlyTraps c w i = [] := earlyTraps_of_no_active h
  obtain ⟨t, ht, hg⟩ := runLanes_goesOn eff hi he s.taken (s.noted c w i) (s.noted c w i) [] (.refl _) (by rw [h]; rfl)
  exact ⟨t, ht, GoesOn_congr hg fun k _ => by simp only [State.onward, List.not_mem_nil, not_false_eq_true, and_true]⟩

/-- Settles O6: every lane instruction runs in the common course, which has no effect without an active lane. -/
theorem maskedLanesGoOn : Obligations.MaskedLanesGoOn := by
  unfold Obligations.MaskedLanesGoOn
  intro i s c w hl hi ha
  obtain ⟨eff, he⟩ := exec_runs i hl
  rw [he]
  exact runLanes_masked eff hi ha

theorem issueLegal_eq_false {s : State} {w : Wave} {i : Instr} :
    s.issueLegal w i = false ↔ legal i = false ∨ declOk i w.regs = false ∨ s.issueOk w i = false := by
  simp only [State.issueLegal, Bool.and_eq_false_iff, or_assoc]

/-- A group is refused as a whole when its pattern may not be executed (R40, R190). -/
theorem runLanes_refused {s : State} {c : Issue} {w : Wave} {i : Instr} (eff : Eff) (hc : s.cur = some c) (hw : s.wave? c.wid = some w)
    (h : s.issueLegal w i = false) :
    runLanes i s eff = .next ((s.taken.noteIssue c.wid (s.group c.wid w c i)).raiseTraps c.wid c.pc
      ((s.group c.wid w c i).map (fun k => (k, illegalTrap c.pc)))) := by
  unfold runLanes
  simp only [hc, hw, h, Bool.not_false, if_true]
  rfl

/-- Settles O7: every lane instruction runs in the common course, which refuses what is not legal at issue. -/
theorem illegalPatternsTrap : Obligations.IllegalPatternsTrap := by
  unfold Obligations.IllegalPatternsTrap
  intro i s c w hl hc hw h
  obtain ⟨eff, he⟩ := exec_runs i hl
  rw [he]
  exact runLanes_refused eff hc hw (issueLegal_eq_false.mpr h)

theorem bit_ones_eq (w : Wave) {k : Nat} (h : k < 64) : bit w.ones.toNat k = decide (k < w.width) := by
  by_cases hk : k < w.width
  · rw [bit_ones w k hk h, decide_eq_true hk]
  · rw [bit_ones_high w k (Nat.not_lt.mp hk), decide_eq_false hk]

/-- A mask read after it was written holds the bits below the width (R175). -/
theorem bit_rk_wk_eq (w : Wave) {r k : Nat} (x : DWord) (hr : r ≠ 0) (h : k < 64) :
    bit ((w.wk r x).rk r).toNat k = (decide (k < w.width) && bit x.toNat k) := by
  rw [rk_wk_same w x hr, bit_and, bit_ones_eq w h, Bool.and_comm]

theorem emptyK_put (w : Wave) {r : Nat} (id : Nat) (h : r ≠ 0) : ({ w with ke := put w.ke r id } : Wave).emptyK r = true := by
  simp [Wave.emptyK, has, h]

/-- An empty mask in KM blocks every lane of an instruction that no rule refuses (R175). -/
theorem ready_of_empty_mask {s : State} {wid : Nat} {w : Wave} {i : Instr} {k : Nat} (hl : s.issueLegal w i = true)
    (he : w.emptyK (fieldsOf i).km.toNat = true) : s.ready wid w i k = false := by
  simp [State.ready, hl, he]

theorem group_of_no_ready {s : State} {wid : Nat} {w : Wave} {c : Issue} {i : Instr} (h : ∀ k, s.ready wid w i k = false) :
    s.group wid w c i = [] := by
  simp [State.group, h]

/-- Settles O15: what a write keeps of a mask and leaves of the others, k0, and the block of an empty mask. -/
theorem masksAreWaveWide : Obligations.MasksAreWaveWide := by
  unfold Obligations.MasksAreWaveWide
  exact ⟨fun w _ _ x hr => bit_rk_wk_eq w x hr, bit_ones, fun _ _ => ⟨rfl, rfl⟩,
    fun w r x _ => ⟨emptyK_wk w r x, fun _ h => ⟨rk_wk_ne w x h, emptyK_wk_ne w x h⟩⟩, fun w _ => emptyK_put w,
    fun _ _ _ _ _ => ready_of_empty_mask, fun _ _ _ _ hl he => group_of_no_ready fun _ => ready_of_empty_mask hl he⟩

end Sys2Proof.Machine
end

section
/-! Lane arithmetic (R201, R203 to R228) and the wave-level instructions (R202, R215, R232 to R235): an instruction of this family is a
shared operation, whose law says what it completes with; what is left is the value that the instruction's function gives for its
operands. -/
namespace Sys2Proof.Machine
open Sys2Proof Host

/-- Settles O21: every named instruction has its value from its lane alone. -/
theorem integerArithmeticCompletes : Obligations.IntegerArithmeticCompletes := by
  unfold Obligations.IntegerArithmeticCompletes
  and_intros <;> intros <;> exact laneOp_result fun _ => rfl

/-- Settles O22: every named instruction has its value from its lane alone. -/
theorem logicAndShiftsComplete : Obligations.LogicAndShiftsComplete := by
  unfold Obligations.LogicAndShiftsComplete
  and_intros <;> intros <;> exact laneOp_result fun _ => rfl

/-- Settles O23: all but SEL have their value from their lane alone; SEL also uses the lane's place in the wave. -/
theorem movesComplete : Obligations.MovesComplete :=
  ⟨fun _ _ _ => laneOp_result fun _ => rfl, fun _ _ => laneOp_result fun _ => rfl, fun _ _ => laneOp_result fun _ => rfl,
    fun _ => laneOp_result fun _ => rfl, fun _ => laneOp_result fun _ => rfl, fun _ => laneOp_result fun _ => rfl, sel_result⟩

/-- Settles O24: each compare writes its lanes' bits of a mask that is not k0. -/
theorem compareCompletes : Obligations.CompareCompletes :=
  ⟨fun _ _ _ => bitOp_result (fun _ => rfl) rfl, fun _ _ _ => bitOp_result (fun _ => rfl) rfl,
    fun _ _ _ => bitOp_result (fun _ => rfl) rfl, fun _ _ _ => bitOp_result (fun _ => rfl) rfl,
    fun _ => bitOp_result (fun _ => rfl) rfl⟩

/-- Settles O25: every named instruction has its value from its lane alone. -/
theorem floatArithmeticCompletes : Obligations.FloatArithmeticCompletes := by
  unfold Obligations.FloatArithmeticCompletes
  and_intros <;> intros <;> exact laneOp_result fun _ => rfl

/-- Settles O26: every named instruction has its value from its lane alone. -/
theorem floatConversionCompletes : Obligations.FloatConversionCompletes := by
  unfold Obligations.FloatConversionCompletes
  and_intros <;> intros <;> exact laneOp_result fun _ => rfl

/-- Settles O30: each wave-level instruction by its law. -/
theorem waveLevelCompletes : Obligations.WaveLevelCompletes :=
  ⟨movW_result, movFws_result, movTws_result, kop_result, kmov_result, kpopc_result, vote_result, ksetW_result⟩

section
variable {i : Instr} {w : Wave} {l : Lane}

/-- A first source of one register (R96). -/
theorem opA_one (h : (descOf i).a = .v 1 1) : opA i w l = (l.rv (fieldsOf i).sa.toNat).toNat :=
  (opA_value rfl h w l).trans (read1 l _)

/-- A second source of one register, without a literal in its slot (R96, R173). -/
theorem opB_one (h : (descOf i).b = .v 1 1) (hf : hasLit (fieldsOf i).form = false) : opB i w l = (l.rv (fieldsOf i).sb.toNat).toNat :=
  (opB_reg rfl h hf w l).trans (read1 l _)

/-- The second source of a short form is one of the registers v0 to v63 (R169). -/
theorem opB_short {b : BitVec 6} (h : (descOf i).b = .v 1 1) (hf : hasLit (fieldsOf i).form = false)
    (hb : (fieldsOf i).sb = b.setWidth 8) : opB i w l = (l.rv b.toNat).toNat := by
  rw [opB_one h hf, hb, short_reg]

end

/-- `laneOp` by what its function gives, written out. -/
theorem laneOp_value {i : Instr} {f : Instr → Wave → Lane → Nat × BitVec 7} {val : Wave → Nat → Nat × BitVec 7}
    (e : ∀ w k, f i w (w.lane k) = val w k) (h : ∀ s, exec i s = laneOp i f s) : LaneResult i val :=
  laneResult_congr (laneOp_result h) fun w k => (e w k).symm

/-- A result without flags depends on the sources alone. -/
theorem of_sources {i : Instr} {w : Wave} {l : Lane} {m n : Nat} (f : Nat → Nat → Nat) (ha : opA i w l = m) (hb : opB i w l = n) :
    (f (opA i w l) (opB i w l), (0 : BitVec 7)) = (f m n, 0) := by
  rw [ha, hb]

theorem andShort_value (b : BitVec 6) (a d : BitVec 8) (w : Wave) (l : Lane) :
    valAnd (.andShort b a d) w l = ((l.rv a.toNat &&& l.rv b.toNat).toNat, 0) :=
  of_sources (fun m n => m &&& n) (opA_one rfl) (opB_short rfl rfl rfl)

theorem orShort_value (b : BitVec 6) (a d : BitVec 8) (w : Wave) (l : Lane) :
    valOr (.orShort b a d) w l = ((l.rv a.toNat ||| l.rv b.toNat).toNat, 0) :=
  of_sources (fun m n => m ||| n) (opA_one rfl) (opB_short rfl rfl rfl)

theorem xorShort_value (b : BitVec 6) (a d : BitVec 8) (w : Wave) (l : Lane) :
    valXor (.xorShort b a d) w l = ((l.rv a.toNat ^^^ l.rv b.toNat).toNat, 0) :=
  of_sources (fun m n => m ^^^ n) (opA_one rfl) (opB_short rfl rfl rfl)

theorem notShort_value (a d : BitVec 8) (w : Wave) (l : Lane) : valNot .b32 (.notShort a d) w l = ((~~~ l.rv a.toNat).toNat, 0) := by
  rw [not_value, valNot, opA_one (i := .notShort a d) rfl]
  rfl

theorem and_value (wd : Wd) (x : Fields) (w : Wave) (l : Lane) :
    valAnd (.and wd x) w l = (l.read x.sa.toNat (wdRegs wd) &&& l.bValue x (wdRegs wd), 0) :=
  of_sources (fun m n => m &&& n) (opA_value rfl rfl w l) (opB_value rfl rfl w l)

theorem or_value (wd : Wd) (x : Fields) (w : Wave) (l : Lane) :
    valOr (.or wd x) w l = (l.read x.sa.toNat (wdRegs wd) ||| l.bValue x (wdRegs wd), 0) :=
  of_sources (fun m n => m ||| n) (opA_value rfl rfl w l) (opB_value rfl rfl w l)

theorem xor_value (wd : Wd) (x : Fields) (w : Wave) (l : Lane) :
    valXor (.xor wd x) w l = (l.read x.sa.toNat (wdRegs wd) ^^^ l.bValue x (wdRegs wd), 0) :=
  of_sources (fun m n => m ^^^ n) (opA_value rfl rfl w l) (opB_value rfl rfl w l)

theorem valNot_eq (wd : Wd) (x : Fields) (w : Wave) (l : Lane) :
    valNot wd (.not wd x) w l = (2 ^ (32 * wdRegs wd) - 1 - l.read x.sa.toNat (wdRegs wd), 0) :=
  congrArg (fun m => (2 ^ (32 * wdRegs wd) - 1 - m, 0)) (opA_value rfl rfl w l)

theorem popc_value (wd : Wd) (x : Fields) (w : Wave) (l : Lane) :
    valPopc wd (.popc wd x) w l = (popcount (l.read x.sa.toNat (wdRegs wd)) (32 * wdRegs wd), 0) :=
  congrArg (fun m => (popcount m (32 * wdRegs wd), 0)) (opA_value rfl rfl w l)

theorem clz_value (wd : Wd) (x : Fields) (w : Wave) (l : Lane) :
    valClz wd (.clz wd x) w l = (leadingZeros (l.read x.sa.toNat (wdRegs wd)) (32 * wdRegs wd), 0) :=
  congrArg (fun m => (leadingZeros m (32 * wdRegs wd), 0)) (opA_value rfl rfl w l)

theorem brev_value (wd : Wd) (x : Fields) (w : Wave) (l : Lane) :
    valBrev wd (.brev wd x) w l = (reverseBits (l.read x.sa.toNat (wdRegs wd)) (32 * wdRegs wd), 0) :=
  congrArg (fun m => (reverseBits m (32 * wdRegs wd), 0)) (opA_value rfl rfl w l)

theorem popcShort_value (a d : BitVec 8) (w : Wave) (l : Lane) :
    valPopc .b32 (.popcShort a d) w l = (popcount (l.rv a.toNat).toNat 32, 0) :=
  congrArg (fun m => (popcount m 32, 0)) (opA_one rfl)

theorem clzShort_value (a d : BitVec 8) (w : Wave) (l : Lane) :
    valClz .b32 (.clzShort a d) w l = (leadingZeros (l.rv a.toNat).toNat 32, 0) :=
  congrArg (fun m => (leadingZeros m 32, 0)) (opA_one rfl)

theorem brevShort_value (a d : BitVec 8) (w : Wave) (l : Lane) :
    valBrev .b32 (.brevShort a d) w l = (reverseBits (l.rv a.toNat).toNat 32, 0) :=
  congrArg (fun m => (reverseBits m 32, 0)) (opA_one rfl)

theorem lea_value (xs : LeaScale) (x : Fields) (w : Wave) (l : Lane) :
    valLea xs (.lea xs x) w l = ((l.read x.sa.toNat 2 + l.bValue x 1 * leaBytes xs) % 2 ^ 64, 0) :=
  of_sources (fun m n => (m + n * leaBytes xs) % 2 ^ 64) (opA_value rfl rfl w l) (opB_value rfl rfl w l)

theorem leaShort_value (b : BitVec 6) (a d : BitVec 8) (w : Wave) (l : Lane) :
    valLea .x1 (.leaShort b a d) w l = ((l.read a.toNat 2 + (l.rv b.toNat).toNat) % 2 ^ 64, 0) := by
  rw [← Nat.mul_one (l.rv b.toNat).toNat]
  exact of_sources (fun m n => (m + n * 1) % 2 ^ 64) (opA_value rfl rfl w l) (opB_short rfl rfl rfl)

theorem sub_bitwise (wd : Wd) (x : Fields) :
    ∀ i ∈ [Instr.and wd x, .or wd x, .xor wd x, .not wd x], (descExt i).sub = wdCode wd := by
  simp [descExt]

/-- Settles O11: the value of each form, from its sources. -/
theorem bitwiseLogic : Obligations.BitwiseLogic := by
  unfold Obligations.BitwiseLogic
  exact ⟨fun wd x => ⟨rfl, rfl, rfl, rfl, fun i hi => (sub_bitwise wd x i hi).trans (by cases wd <;> rfl)⟩,
    fun _ _ => ⟨rfl, rfl, rfl, rfl⟩, fun _ _ => rfl,
    fun b a d => laneOp_value (fun w _ => andShort_value b a d w _) fun _ => rfl,
    fun b a d => laneOp_value (fun w _ => orShort_value b a d w _) fun _ => rfl,
    fun b a d => laneOp_value (fun w _ => xorShort_value b a d w _) fun _ => rfl,
    fun a d => laneOp_value (fun w _ => notShort_value a d w _) fun _ => rfl,
    fun wd x => laneOp_value (fun w _ => and_value wd x w _) fun _ => rfl,
    fun wd x => laneOp_value (fun w _ => or_value wd x w _) fun _ => rfl,
    fun wd x => laneOp_value (fun w _ => xor_value wd x w _) fun _ => rfl,
    fun wd x => laneOp_value (fun w _ => valNot_eq wd x w _) fun _ => rfl⟩

/-- Settles O12: the value of each form, from its source, and what the three counting functions count. -/
theorem bitCounts : Obligations.BitCounts := by
  unfold Obligations.BitCounts
  exact ⟨fun _ _ => ⟨rfl, rfl, rfl, rfl, rfl, rfl⟩, fun _ _ => ⟨rfl, rfl, rfl⟩,
    fun wd x => laneOp_value (fun w _ => popc_value wd x w _) fun _ => rfl,
    fun wd x => laneOp_value (fun w _ => clz_value wd x w _) fun _ => rfl,
    fun wd x => laneOp_value (fun w _ => brev_value wd x w _) fun _ => rfl,
    fun a d => laneOp_value (fun w _ => popcShort_value a d w _) fun _ => rfl,
    fun a d => laneOp_value (fun w _ => clzShort_value a d w _) fun _ => rfl,
    fun a d => laneOp_value (fun w _ => brevShort_value a d w _) fun _ => rfl,
    popcount_list, leadingZeros_spec, leadingZeros_zero, reverse_bit⟩

/-- Settles O13: the value of each form, from its sources. -/
theorem addressesAreScaled : Obligations.AddressesAreScaled := by
  unfold Obligations.AddressesAreScaled
  exact ⟨fun xs _ => ⟨rfl, by cases xs <;> rfl, rfl, rfl, rfl, rfl⟩,
    fun xs x => laneOp_value (fun w k => (lea_value xs x w (w.lane k)).trans (by cases xs <;> rfl)) fun _ => rfl,
    fun b a d => laneOp_value (fun w _ => leaShort_value b a d w _) fun _ => rfl⟩

/-- Settles O14: variant 0 wraps the exact result, and variant 1 differs from it at the most negative value alone. -/
theorem absoluteValueAndNegation : Obligations.AbsoluteValueAndNegation := by
  unfold Obligations.AbsoluteValueAndNegation
  exact ⟨fun v _ _ => ⟨rfl, rfl, by cases v <;> rfl, by cases v <;> rfl⟩, fun v _ x h => unsigned_illegal h v x,
    fun _ _ => ⟨rfl, rfl⟩,
    fun ty x h => ⟨laneOp_value (iabs_value .wrap ty x) fun _ => rfl, laneOp_value (ineg_value .wrap ty x) fun _ => rfl,
      laneOp_value (fun w k => (iabs_value .sat ty x w k).trans (sat_abs h _).1) fun _ => rfl,
      laneOp_value (fun w k => (ineg_value .sat ty x w k).trans (sat_abs h _).2) fun _ => rfl, wrap_min h⟩⟩

/-- A class of masks to write leaves out k0 (R174). -/
theorem illegal_of_k0 {i : Instr} (hd : (descForm i).dst = .kd) (h : (fieldsOf i).dst = 0) : legal i = false :=
  illegal_of_dst (by rw [hd, h]; rfl)

/-- A field that the instruction does not use is zero (R171). -/
theorem illegal_of_unused_b {i : Instr} (hd : (descForm i).b = .zero) (h : (fieldsOf i).sb ≠ 0) : legal i = false :=
  illegal_of_b (by rw [hd]; exact beq_false_of_ne h)

/-- A mask source read as a whole (R175). -/
theorem dw_opA_mask {i : Instr} (hd : (descOf i).a = .k) (w : Wave) (l : Lane) : dw (opA i w l) = w.rk (fieldsOf i).sa.toNat := by
  rw [kclass rfl hd, dw_toNat]

/-- KOP.NOT has no second source, and the others have a mask as theirs (R234). -/
theorem kopVal_of_masks (op : KopOp) {x : Fields} (hf : hasLit x.form = false) (w : Wave) (l : Lane) :
    dw (kopVal op (opA (.kop op x) w l) (opB (.kop op x) w l)) = (match op with
      | .and => w.rk x.sa.toNat &&& w.rk x.sb.toNat
      | .or => w.rk x.sa.toNat ||| w.rk x.sb.toNat
      | .xor => w.rk x.sa.toNat ^^^ w.rk x.sb.toNat
      | .andn => w.rk x.sa.toNat &&& ~~~ w.rk x.sb.toNat
      | .not => ~~~ w.rk x.sa.toNat) := by
  have hb : kopVal op (w.rk x.sa.toNat).toNat (opB (.kop op x) w l) = kopVal op (w.rk x.sa.toNat).toNat (w.rk x.sb.toNat).toNat := by
    cases op with
    | not => rfl
    | and | or | xor | andn => rw [kclassB (x := x) rfl rfl hf]
  rw [kclass (x := x) rfl rfl, hb]
  exact kop_value op _ _

/-- k0 has as many set bits as the wave has lanes (R235). -/
theorem count_k0 {u : Wave} (h : u.width ≤ 64) : ((List.range u.width).filter (fun k => bit (u.rk 0).toNat k)).length = u.width := by
  have ha : (List.range u.width).filter (fun k => bit (u.rk 0).toNat k) = List.range u.width :=
    List.filter_eq_self.mpr fun k hk =>
      have hk : k < u.width := List.mem_range.mp hk
      bit_ones u k hk (Nat.lt_of_lt_of_le hk h)
  rw [ha, List.length_range]

theorem bit_rk_wk_high (u : Wave) {r k : Nat} (x : DWord) (hr : r ≠ 0) (h : u.width ≤ k) : bit ((u.wk r x).rk r).toNat k = false := by
  rw [rk_wk_same u x hr, bit_and, bit_ones_high u k h, Bool.and_false]

/-- Settles O16: the laws of the three instructions, with the masks that their sources are. -/
theorem maskOperations : Obligations.MaskOperations := by
  unfold Obligations.MaskOperations
  exact ⟨fun op _ => ⟨rfl, by cases op <;> rfl, rfl⟩, fun _ => ⟨rfl, rfl, rfl, rfl, rfl, rfl, rfl, rfl, rfl⟩,
    fun op x => illegal_of_k0 (i := .kop op x) rfl, fun x => illegal_of_k0 (i := .kmov false x) rfl,
    fun x => illegal_of_unused_b (i := .kop .not x) rfl,
    fun op x hf => waveResult_congr (kop_result op x) fun _ u _ => congrArg (u.wk x.dst.toNat) (kopVal_of_masks op hf u _).symm,
    fun x => waveResult_congr (kmov_result false x) fun _ u _ =>
      congrArg (u.wk x.dst.toNat) (dw_opA_mask (i := .kmov false x) rfl u _).symm,
    fun x => waveResult_congr (kmov_result true x) fun _ u _ =>
      congrArg (u.ww _ x.dst.toNat) (dw_opA_mask (i := .kmov true x) rfl u _).symm,
    fun x => waveResult_congr (kpopc_result x) fun _ _ _ => by rw [kclass (x := x) rfl rfl, popcount_list],
    fun _ => count_k0, fun u _ _ x => bit_rk_wk_high u x⟩

end Sys2Proof.Machine
end

section
/-! Control and work (R240 to R264), and the matrix state instructions (R299 to R301, R310, R312): the forms of an instruction share one
operation, whose law gives each form's clause. -/
namespace Sys2Proof.Machine
open Sys2Proof Host

/-- Settles O31: a branch jumps, which may end hardware loops of its lane (R80); a call or a return leaves them as they are. -/
theorem branchesComplete : Obligations.BranchesComplete :=
  ⟨fun _ => branchOp_result fun _ => rfl, fun _ => branchOp_result fun _ => rfl, fun _ _ _ => branchOp_result fun _ => rfl,
    fun _ => callOp_result fun _ => rfl, fun _ => callOp_result fun _ => rfl, fun _ => callOp_result fun _ => rfl,
    retOp_result fun _ => rfl, fun _ => retOp_result fun _ => rfl⟩

/-- Settles O33: the time that a SLEEP waits for does not change as its issue is taken; a WAIT.FULL here has the blocking policy. -/
theorem waitsComplete : Obligations.WaitsComplete :=
  ⟨fun _ => sleepOp_result (fun _ => rfl) fun _ _ _ _ _ => rfl, fun _ => sleepOp_result (fun _ => rfl) fun _ _ _ _ _ => rfl,
    fun _ => sleepOp_result (fun _ => rfl) fun _ _ _ _ _ => rfl,
    fun _ hblock => waitFull_result (fun _ => rfl) hblock, fun _ hblock => waitFull_result (fun _ => rfl) hblock,
    fun _ => waitEmpty_result fun _ => rfl, cmtWaitOp_result fun _ => rfl, fun _ => cmtWaitOp_result fun _ => rfl⟩

/-- Settles O35: each form by the law of its operation; both forms of END also have their whole effect, other waves with it. -/
theorem threadControlCompletes : Obligations.ThreadControlCompletes :=
  ⟨fun _ => trapOp_result fun _ => rfl, fun _ => trapOp_result fun _ => rfl,
    ⟨endOp_result fun _ => rfl, end_effect fun _ => rfl⟩, fun _ => ⟨endOp_result fun _ => rfl, end_effect fun _ => rfl⟩,
    fun _ _ => spawnOp_result fun _ => rfl, yieldOp_result fun _ => rfl, fun _ => yieldOp_result fun _ => rfl,
    fun _ => cmtPosOp_result fun _ => rfl⟩

/-- Settles O42: each form by the law of its operation; MREL also has its whole effect, the claims and armings of other waves with it. -/
theorem matrixStateCompletes : Obligations.MatrixStateCompletes :=
  ⟨mrd_result, fun _ => mstatOp_result fun _ => rfl, fun _ => mstatOp_result fun _ => rfl, mwait_result,
    fun x => ⟨mrel_result x, mrel_effect x⟩, fun _ => msignOp_result fun _ => rfl, fun _ => msignOp_result fun _ => rfl⟩

end Sys2Proof.Machine
end

section
/-! Accesses of lanes to memory, the scratchpad and counters (R131, R148, R266 to R289): each instruction is one shared operation, whose
law says what it completes with. -/
namespace Sys2Proof.Machine
open Sys2Proof Host

section
variable {i : Instr}

/-- A load or an atomic of the global space: the lane registers at DST are empty until it returns (R268, R277). -/
theorem returningAccess_result (h : ∀ s, exec i s = globalOp i s) (hd : ∀ u l, (wantOf i u l).dst = some (.v (fieldsOf i).dst.toNat)) :
    TurnResult i (fun s => s.fresh.2) (accessTurn i) := globalOp_result h fun u l => .inl (hd u l)

/-- A store to the global space returns nothing (R270). -/
theorem store_result (h : ∀ s, exec i s = globalOp i s) (hd : ∀ u l, (wantOf i u l).dst = none) :
    TurnResult i (fun s => s.fresh.2) (accessTurn i) := globalOp_result h fun u l => .inr (hd u l)

end

/-- Settles O36: a load or an atomic returns to the lane registers at DST, and a store returns nothing. -/
theorem globalAccessesComplete : Obligations.GlobalAccessesComplete :=
  ⟨fun _ _ _ => returningAccess_result (fun _ => rfl) fun _ _ => rfl, fun _ _ => returningAccess_result (fun _ => rfl) fun _ _ => rfl,
    fun _ _ _ => store_result (fun _ => rfl) fun _ _ => rfl, fun _ _ => store_result (fun _ => rfl) fun _ _ => rfl,
    fun _ _ _ => returningAccess_result (fun _ => rfl) fun _ _ => rfl, fun _ _ => returningAccess_result (fun _ => rfl) fun _ _ => rfl,
    fun _ _ _ => returningAccess_result (fun _ => rfl) fun _ _ => rfl⟩

/-- LDW returns to a wave register (R271). -/
theorem ldw_result (ms : MS) (x : Fields) : WaveAccessResult (.ldw ms x) := waveAccess_result (fun _ => rfl) fun _ _ => .inl ⟨_, rfl⟩

/-- STW returns nothing (R271). -/
theorem stw_result (ms : MS) (x : Fields) : WaveAccessResult (.stw ms x) := waveAccess_result (fun _ => rfl) fun _ _ => .inr rfl

/-- Settles O37: each form by the law of its operation; the short FENCE is the full fence at device scope. -/
theorem waveAccessesAndHintsComplete : Obligations.WaveAccessesAndHintsComplete :=
  ⟨ldw_result, stw_result, fenceOp_result fun _ => rfl, fun _ _ => fenceOp_result fun _ => rfl, fun _ _ => prefOp_result fun _ => rfl,
    fun _ => prefOp_result fun _ => rfl, fun _ _ => flushOp_result fun _ => rfl, fun _ => flushOp_result fun _ => rfl⟩

/-- Settles O38: every instruction named is the shared scratchpad operation. -/
theorem scratchpadAccessesComplete : Obligations.ScratchpadAccessesComplete := by
  unfold Obligations.ScratchpadAccessesComplete
  and_intros <;> intros <;> exact spad_result fun _ => rfl

/-- Settles O40: the five are one operation on an allowance, whose action `tillAct` names. -/
theorem allowancesComplete : Obligations.AllowancesComplete :=
  ⟨fun _ => tillOp_result fun _ => rfl, fun _ => tillOp_result fun _ => rfl, fun _ => tillOp_result fun _ => rfl,
    fun _ => tillOp_result fun _ => rfl, fun _ => tillOp_result fun _ => rfl⟩

end Sys2Proof.Machine
end

section
/-! Rows and the matrix engine (R295 to R309, R315, R316): each instruction is a shared operation, whose law says what it completes
with. -/
namespace Sys2Proof.Machine
open Sys2Proof Host

section
variable {x : Fields}

/-- What each lane of a row makes of its sources, without its position (R314). -/
theorem rowOf_map_lanes {β : Type} (i : Instr) (u : Wave) (run : List Nat) (f : Nat → Nat → Nat → β) :
    (rowOf i u run).map (fun p => f p.2.1 p.2.2.1 p.2.2.2) = run.map (fun k => f k (opA i u (u.lane k)) (opB i u (u.lane k))) :=
  (rowOf_map i u run fun _ => f).trans
    (zip_map_snd _ run List.length_range fun k => f k (opA i u (u.lane k)) (opB i u (u.lane k)))

/-- BAND gives each lane the common bits of its sources, and counts those of the row (R315). -/
theorem rowBand_eq (u : Wave) (l : Lane) (row : List (Nat × Nat × Nat × Nat)) :
    rowBand u l row = (row.map (fun p => (p.2.1, p.2.2.1 &&& p.2.2.2)),
      some ((row.map (fun p => popcount (p.2.2.1 &&& p.2.2.2) 32)).foldl (· + ·) 0)) := by
  refine Prod.ext rfl (congrArg some ?_)
  exact (sum_fold (fun y : Nat × Nat => popcount y.2 32) _ 0).trans (by rw [List.map_map]; rfl)

/-- The row of BAND: each lane's sources are its registers (R315). -/
theorem rowFill_band (hf : hasLit x.form = false) (u : Wave) (run : List Nat) :
    rowFill (.band x) rowBand u run =
      { wid := 0, team := run
        lanes := run.map (fun k => (k, [(x.dst.toNat, (u.lane k).rv x.sa.toNat &&& (u.lane k).rv x.sb.toNat)]))
        wave := [(wKey (u.lane (run.headD 0)).level x.sc.toNat,
          dw ((run.map (fun k => popcount ((u.lane k).rv x.sa.toNat &&& (u.lane k).rv x.sb.toNat).toNat 32)).foldl (· + ·) 0))] } := by
  have hsrc (k : Nat) : opA (.band x) u (u.lane k) &&& opB (.band x) u (u.lane k) =
      ((u.lane k).rv x.sa.toNat &&& (u.lane k).rv x.sb.toNat).toNat := by
    rw [opA_one (i := .band x) rfl, opB_one (i := .band x) rfl hf, BitVec.toNat_and]
    rfl
  have hlanes := rowOf_map_lanes (.band x) u run fun k a b => (k, a &&& b)
  have hcount := rowOf_map_lanes (.band x) u run fun _ a b => popcount (a &&& b) 32
  simp only [hsrc] at hlanes hcount
  unfold rowFill
  simp only [rowBand_eq, hlanes, hcount, List.map_map]
  congr 1
  exact List.map_congr_left fun k _ => congrArg (fun y => (k, [(x.dst.toNat, y)])) ((BitVec.ofNat_toNat ..).trans (BitVec.setWidth_eq _))

/-- The row of PPOPC: the base is a wave register, and the positions before a lane's are counted (R316). -/
theorem rowFill_ppopc (hf : hasLit x.form = false) (u : Wave) (run : List Nat) :
    rowFill (.ppopc x) (rowPpopc (.ppopc x)) u run =
      { wid := 0, team := run
        lanes := ((List.range run.length).zip run).map (fun p => (p.2, [(x.dst.toNat, BitVec.ofNat 32
          (((u.rw (u.lane (run.headD 0)).level x.sb.toNat).toNat % 2 ^ 32 +
            ((run.take p.1).map (fun k => popcount ((u.lane k).rv x.sa.toNat).toNat 32)).foldl (· + ·) 0) % 2 ^ 32))])) } := by
  have hbase := opB_wreg (i := .ppopc x) (x := x) rfl rfl hf u (u.lane (run.headD 0))
  have hbefore (j : Nat) : ((rowOf (.ppopc x) u run).take j).foldl (fun n y => n + popcount y.2.2.1 32) 0 =
      ((run.take j).map (fun k => popcount ((u.lane k).rv x.sa.toNat).toNat 32)).foldl (· + ·) 0 := by
    rw [sum_fold, row_take]
    simp only [opA_one (i := .ppopc x) rfl]
    rfl
  unfold rowFill rowPpopc
  simp only [hbase, hbefore, List.map_map]
  congr 1
  exact rowOf_map (.ppopc x) u run fun j k _ _ => (k, [(x.dst.toNat, BitVec.ofNat 32
    (((u.rw (u.lane (run.headD 0)).level x.sb.toNat).toNat % 2 ^ 32 +
      ((run.take j).map (fun k => popcount ((u.lane k).rv x.sa.toNat).toNat 32)).foldl (· + ·) 0) % 2 ^ 32))])

end

/-- Settles O17: the encodings, and the fill that each law gives with the sources read. -/
theorem bitmapRows : Obligations.BitmapRows :=
  ⟨fun _ => ⟨rfl, rfl, rfl, rfl, rfl, rfl, rfl, rfl, rfl, rfl⟩,
    fun x hf => laterResult_congr (band_result x) fun u run => (rowFill_band hf u run).symm,
    fun x hf => laterResult_congr (ppopc_result x) fun u run => (rowFill_ppopc hf u run).symm⟩

/-- Settles O41: each matrix instruction by its law. -/
theorem matrixOperationsComplete : Obligations.MatrixOperationsComplete :=
  ⟨mlatb_result, mcbt_result, mzero_result, mst_result, mmv_result, mma_result, mmas_result, mmai_result⟩

end Sys2Proof.Machine
end

section
/-! The engines (R304, R308, R325 to R341): what each event answers when its next part can be performed. -/
namespace Sys2Proof.Machine
open Sys2Proof Host

/-- What an event of an engine's command comes to: the next step of a command of its kind that runs, when there is one. -/
def State.cmdEvent (s : State) (ok : Cmd → Bool) (step : Cmd → Option State) : Out :=
  match look s.cmds s.occ.id with
  | none => .next s
  | some c => if ok c && s.running c then .next ((step c).getD s) else .next s

section
variable {s m : State} {c : Cmd} (hc : look s.cmds s.occ.id = some c) (hr : s.running c = true)
include hc hr

theorem cmdEvent_of_step {ok : Cmd → Bool} {step : Cmd → Option State} (hk : ok c = true) (hm : step c = some m) :
    s.cmdEvent ok step = .next m := by
  unfold State.cmdEvent
  simp only [hc, hk, hr, hm, Bool.and_self, if_true, Option.getD_some]

theorem exec_tileCopyRow_of_step (hk : c.kind.copies = true) (hm : s.copyRow s.occ.id c s.occ.n = some m) :
    exec .tileCopyRow s = .next m :=
  cmdEvent_of_step (ok := fun c => c.kind.copies) (step := fun c => s.copyRow s.occ.id c s.occ.n) hc hr hk hm

theorem exec_fconvTile_of_step (hk : c.kind = .fconv) (hm : s.convStep s.occ.id c = some m) : exec .fconvTile s = .next m :=
  cmdEvent_of_step (ok := fun c => c.kind == .fconv) (step := s.convStep s.occ.id) hc hr (beq_iff_eq.mpr hk) hm

theorem exec_sredElement_of_step (hk : c.kind = .sred) (hm : s.redStep s.occ.id c = some m) : exec .sredElement s = .next m :=
  cmdEvent_of_step (ok := fun c => c.kind == .sred) (step := s.redStep s.occ.id) hc hr (beq_iff_eq.mpr hk) hm

theorem exec_embagBag_of_step (hk : c.kind = .embag) (hm : s.bagStep s.occ.id c = some m) : exec .embagBag s = .next m :=
  cmdEvent_of_step (ok := fun c => c.kind == .embag) (step := s.bagStep s.occ.id) hc hr (beq_iff_eq.mpr hk) hm

end

section
variable {s m : State} {id : Nat} {c : Cmd}

/-- A command goes on where its next scratchpad word may be touched (R128, R326). -/
theorem atWord_of_got {a x : Nat} {next : Option State} (h : s.wordSpan c a = .got x) : s.atWord id c a next = next := by
  unfold State.atWord
  simp only [h]

/-- A row that is neither counted nor landed takes its next word, in the direction of its command (R332). -/
theorem copyRow_of_open {j : Nat} (hj : j < c.rows) (hd : c.done ≤ j) (hl : c.landed.contains j = false)
    (he : (c.ending && c.at? j == 0) = false) :
    s.copyRow id c j = if c.toGlobal then s.copyOut id c j else s.copyIn id c j := by
  unfold State.copyRow
  have h : (decide (c.rows ≤ j) || decide (j < c.done) || c.landed.contains j || (c.ending && c.at? j == 0)) = false := by
    simp only [hl, he, Bool.or_false, Bool.or_eq_false_iff, decide_eq_false_iff_not]
    omega
  rw [h]
  rfl

/-- A word that is read of global memory lands in its row (R330, R332). -/
theorem copyIn_of_read {j a x : Nat} (ha : c.globalRow j = some a) (hx : s.engRead id c ((a + 4 * c.at? j) % 2 ^ 64) 4 = (m, .got x))
    (hw : m.wordSpan c (c.wordVa j (c.at? j)) = .got 0) :
    s.copyIn id c j = some ((m.landWord c (c.wordAt j (c.at? j)) x).stepRow id c j c.width) := by
  unfold State.copyIn
  simp only [ha, hx, atWord_of_got hw]

/-- A full word of the row that is next is written to global memory (R326, R332). -/
theorem copyOut_of_full {a : Nat} (ha : c.globalRow c.done = some a) (hfar : c.rowFar a = false)
    (hfull : s.wordsFull [c.wordAt c.done (c.at? c.done)] = true)
    (hseg : s.segsReady id c (c.segAt c.done (4 * c.at? c.done) 4) = true)
    (hw : s.wordSpan c (c.wordVa c.done (c.at? c.done)) = .got 0) :
    s.copyOut id c c.done =
      some ((s.writeSegs c (c.segAt c.done (4 * c.at? c.done) 4)
        (toBytes 4 (s.spadAt (c.wordAt c.done (c.at? c.done))).val.toNat)).stepRow id c c.done c.width) := by
  unfold State.copyOut
  simp only [ha, hfar, hfull, hseg, atWord_of_got hw, ne_eq, not_true_eq_false, Bool.false_eq_true, Bool.true_eq_false, or_self, if_false]

/-- A conversion reads the next full word of its dense tile (R334). -/
theorem convStep_of_source (hk : c.at? c.done < 64 * c.elt) (hfull : s.wordsFull [c.wordAt c.done (c.at? c.done)] = true)
    (hw : s.wordSpan c (c.wordVa c.done (c.at? c.done)) = .got 0) :
    s.convStep id c = some (s.keepWord id c (s.spadAt (c.wordAt c.done (c.at? c.done))).val.toNat) := by
  unfold State.convStep
  simp only [hk, hfull, atWord_of_got hw, if_true]

/-- A conversion that has read its tile writes the next word of the slot (R334). -/
theorem convStep_of_slot {off x : Nat} (hk : 64 * c.elt ≤ c.at? c.done) (hx : c.slot?[c.at? c.done - 64 * c.elt]? = some (off, x))
    (hseg : s.segsReady id c (c.segAt c.done off 4) = true) :
    s.convStep id c =
      some ((s.writeSegs c (c.segAt c.done off 4) (toBytes 4 x)).stepRow id c c.done (64 * c.elt + c.slot?.length)) := by
  unfold State.convStep
  simp only [Nat.not_lt.mpr hk, hx, hseg, if_true, if_false]

/-- A reduction reads the next word of its element's inputs (R338). -/
theorem redStep_of_input {x : Nat} (hp : c.phase = 0) (hk : c.at? c.done < c.idx.length * c.redWords)
    (hx : s.engRead id c ((c.idx.getD (c.at? c.done / c.redWords) 0 + c.done * c.redBytes + 4 * (c.at? c.done % c.redWords)) % 2 ^ 64) 4 =
      (m, .got x)) : s.redStep id c = some (m.keepWord id c x) := by
  unfold State.redStep
  simp only [hp, Nat.reduceLeDiff, hk, hx, if_true, if_false]

/-- A reduction that has read its element's inputs writes the next word of the sum (R338). -/
theorem redStep_of_sum (hp : c.phase = 0) (hk : c.idx.length * c.redWords ≤ c.at? c.done) :
    s.redStep id c = s.sumWord id c (c.at? c.done - c.idx.length * c.redWords) := by
  unfold State.redStep
  simp only [hp, Nat.reduceLeDiff, Nat.not_lt.mpr hk, if_false]

/-- A reduction past its last element writes its status and its flag (R338, R339). -/
theorem redStep_of_end (hp : 1 ≤ c.phase) : s.redStep id c = if 3 ≤ c.phase then s.flagStep id c else s.statusStep id c := by
  unfold State.redStep
  rw [if_pos hp]

/-- A bag reads what its index position needs next (R341). -/
theorem bagStep_of_read {x : Nat} (hk : c.at? c.done < c.bagPlaces.length * c.bagStride)
    (hx : s.bagWord id c (c.bagPlaces.getD (c.at? c.done / c.bagStride) 0) (c.at? c.done % c.bagStride)
      (c.acc.getD (c.at? c.done / c.bagStride * c.bagStride) 0) = (m, .got x)) : s.bagStep id c = some (m.keepWord id c x) := by
  unfold State.bagStep
  simp only [hk, hx, if_true]

/-- A bag that has read its rows writes the next word of its result (R341). -/
theorem bagStep_of_result (hk : c.bagPlaces.length * c.bagStride ≤ c.at? c.done)
    (hw : s.wordSpan c (c.wordVa c.done (c.at? c.done - c.bagPlaces.length * c.bagStride)) = .got 0) :
    s.bagStep id c = some (s.poolWord id c (c.at? c.done - c.bagPlaces.length * c.bagStride) (c.bagPlaces.length * c.bagStride)) := by
  unfold State.bagStep
  simp only [Nat.not_lt.mpr hk, atWord_of_got hw, if_false]

end

/-- A command past its promise gives its posting lane the late-delivery trap (R325, R327). -/
theorem exec_lateDelivery_of_due {s : State} {c : Cmd} (hc : look s.cmds s.occ.id = some c) (hd : s.lateDue c = true) :
    exec .lateDelivery s =
      .next (({ s with cmds := put s.cmds s.occ.id { c with late := true } } : State).engineTrap s.occ.id c (c.info 0x1D 0 0)) := by
  show execLateDelivery s = _
  unfold execLateDelivery
  simp only [hc, hd, if_true]

/-- The head of a core's matrix queue is performed when it is due (R295, R298, R308). -/
theorem exec_matrixEntry_of_due {s : State} {e : MatEntry} {rest : List MatEntry} (hq : (s.coreAt s.occ.core).mq = e :: rest)
    (hd : s.entryDue s.occ.core e = true) : exec .matrixEntry s = .next (s.performHead s.occ.core e rest) := by
  show execMatrixEntry s = _
  unfold execMatrixEntry
  simp only [hq, hd, Bool.not_true, Bool.false_eq_true, if_false]

/-- The table loader fills the next slot of its oldest load from full words (R304). -/
theorem exec_tableSlotFill_of_full {s : State} {x : TableLoad} {rest : List TableLoad} (hl : (s.coreAt s.occ.core).loader = x :: rest)
    (hd : s.slotDue s.occ.core = true) (hr : s.checkRuns x.vi s.occ.core true 0 [(x.addr, 16)] = .full) :
    exec .tableSlotFill s = .next (s.fillSlot s.occ.core x rest) := by
  show execTableSlotFill s = _
  unfold execTableSlotFill
  simp only [hl, hd, hr, Bool.not_true, Bool.false_eq_true, if_false]

/-- Settles O53: each event of a command performs its next step, which is the one that the clause's conditions pick; the other three
events are performed when they are due. -/
theorem enginesPerform : Obligations.EnginesPerform := by
  unfold Obligations.EnginesPerform
  refine ⟨fun s c m a x hc hk hr hj hd hl hg ha hx he hw => ?copyIn, fun s c a hc hk hr hj hd hl hg hn ha hfar hfull hseg he hw => ?copyOut,
    fun s c hc hk hr hlt hfull hw => exec_fconvTile_of_step hc hr hk (convStep_of_source hlt hfull hw),
    fun s c off x hc hk hr hle hx hseg => exec_fconvTile_of_step hc hr hk (convStep_of_slot hle hx hseg),
    fun s c m x hc hk hr hp hlt hx => exec_sredElement_of_step hc hr hk (redStep_of_input hp hlt hx),
    fun s c m hc hk hr hp hle hm => exec_sredElement_of_step hc hr hk ((redStep_of_sum hp hle).trans hm),
    fun s c m hc hk hr hp hm => exec_sredElement_of_step hc hr hk ((redStep_of_end hp).trans hm),
    fun s c m x hc hk hr hlt hx => exec_embagBag_of_step hc hr hk (bagStep_of_read hlt hx),
    fun s c hc hk hr hle hw => exec_embagBag_of_step hc hr hk (bagStep_of_result hle hw),
    fun _ _ => exec_lateDelivery_of_due, fun _ _ _ => exec_matrixEntry_of_due, fun _ _ _ => exec_tableSlotFill_of_full⟩
  case copyIn =>
    refine exec_tileCopyRow_of_step hc hr hk ((copyRow_of_open hj hd hl he).trans ?_)
    rw [hg, if_neg Bool.false_ne_true]
    exact copyIn_of_read ha hx hw
  case copyOut =>
    refine exec_tileCopyRow_of_step hc hr hk ((copyRow_of_open hj hd hl he).trans ?_)
    rw [hg, if_pos rfl]
    simp only [hn] at ha hfull hseg hw ⊢
    exact copyOut_of_full ha hfar hfull hseg hw

end Sys2Proof.Machine
end

section
/-! Engine and graphics instructions (R320 to R322, R343 to R370), and what the graphics units' events answer. -/
namespace Sys2Proof.Machine
open Sys2Proof Host

/-- Settles O43: the six share the operation that posts a command. -/
theorem enginePostingsComplete : Obligations.EnginePostingsComplete :=
  ⟨fun _ => post_result fun _ => rfl, fun _ => post_result fun _ => rfl, fun _ => post_result fun _ => rfl,
    fun _ => post_result fun _ => rfl, fun _ => post_result fun _ => rfl, fun _ => post_result fun _ => rfl⟩

/-- Settles O44: each instruction by its law; both forms of RPASS are one operation. -/
theorem graphicsInstructionsComplete : Obligations.GraphicsInstructionsComplete :=
  ⟨draw_result, fun _ => pass_result fun _ => rfl, fun _ => pass_result fun _ => rfl, ordEnter_result, ordLeave_result, fli_result,
    flw_result, rayq_result, rayqApp_result⟩

section
variable {s m : State} {p : Pass}

/-- A list insertion of a lane inside its section that the unit can perform answers its lane (R362, R363). -/
theorem exec_fliPerform_inside {q : GfxReq} {o : FliOut} (hq : look s.gfx s.occ.id = some q) (hop : q.opc = 0xA3)
    (hi : q.inside = true) (hr : s.gfxReady s.occ.id q = true) (hp : look s.passes q.pass = some p)
    (ho : s.fliStep q.pass p q.rt q.pixel.toNat q.depth.toNat q.payload.toNat = (m, .ok o)) :
    exec .fliPerform s = .next (m.fillGfx s.occ.id q
      (o.status + (o.ret.map LNode.depth).getD 0 * 2 ^ 32 + (o.ret.map LNode.payload).getD 0 * 2 ^ 64) o.flags) := by
  show execFliPerform s = _
  unfold execFliPerform
  simp only [hq, hop, hi, hr, hp, ho, ne_eq, not_true_eq_false, Bool.true_eq_false, Bool.not_true, Bool.false_eq_true, or_self, if_false]
  cases o.ret <;> rfl

/-- A walk from a cursor that names an allocated node reads that node (R364). -/
theorem exec_flwPerform_node {q : GfxReq} {v : Nat} (hq : look s.gfx s.occ.id = some q) (hop : q.opc = 0xA4)
    (hr : s.gfxReady s.occ.id q = true) (hp : look s.passes q.pass = some p) (hhead : q.cursor ≠ 0xFFFFFFFE)
    (hend : q.cursor ≠ 0xFFFFFFFF)
    (ha : p.allocated (p.clusterOfTile (p.tileOf (bits q.pixel.toNat 13 0) (bits q.pixel.toNat 27 14))) q.cursor.toNat = true)
    (hv : s.readLoc p (coreOfCluster (p.clusterOfTile (p.tileOf (bits q.pixel.toNat 13 0) (bits q.pixel.toNat 27 14))) 0) 16
      (p.nodeLoc (p.clusterOfTile (p.tileOf (bits q.pixel.toNat 13 0) (bits q.pixel.toNat 27 14))) q.cursor.toNat) = (m, .ok v)) :
    exec .flwPerform s = .next (m.fillGfx s.occ.id q (bits v 63 32 + bits v 31 0 * 2 ^ 32 + bits v 127 64 * 2 ^ 64) 0) := by
  have hlast : q.cursor.toNat ≠ 0xFFFFFFFF := fun h => hend (BitVec.eq_of_toNat_eq h)
  show execFlwPerform s = _
  unfold execFlwPerform
  simp only [hq, hop, hr, hp, hhead, hlast, ha, hv, ne_eq, not_true_eq_false, Bool.true_eq_false, Bool.not_true, Bool.false_eq_true,
    or_self, if_false]

/-- A ray that meets the scene and appends nothing answers its nearest hit (R367, R368). -/
theorem exec_rayTraversal_hits {q : GfxReq} {hs : List Hit} (hq : look s.gfx s.occ.id = some q) (hop : q.opc = 0xA5)
    (hr : s.rayReady s.occ.id q = true) (hg : q.gone = false) (ha : q.app = false) (hm : (rayOf (q.ray.map BitVec.toNat)).meets = true)
    (ht : s.traverse q (s.waveAt q.wid) (rayOf (q.ray.map BitVec.toNat)) 1048576 [(false, 0)] [] = (m, .hits hs)) :
    exec .rayTraversal s = .next (m.endRay s.occ.id q (rayResult hs).1 (rayResult hs).2) := by
  show execRayTraversal s = _
  unfold execRayTraversal
  simp only [hq, hop, hr, hg, ha, hm, ht, ne_eq, not_true_eq_false, Bool.true_eq_false, Bool.not_false, Bool.false_eq_true, or_self,
    if_false, if_true]

/-- The raster accepts the next draw of a pass whose records it can read (R351, R352). -/
theorem exec_drawAccept_read {id : Nat} {a : GfxAsk} {prims : List (List Nat)} (hd : s.drawDue s.occ.pass = true)
    (hp : look s.passes s.occ.pass = some p) (hn : s.nextDraw s.occ.pass = some (id, a)) (ht : p.drawTrap a = none)
    (hr : s.readRecords a (s.waveAt a.wid) = (m, .ok prims)) : exec .drawAccept s = .next (m.acceptDraw id a p prims) := by
  show execDrawAccept s = _
  unfold execDrawAccept
  simp only [hd, hp, hn, ht, hr, Bool.true_eq_false, if_false]

theorem exec_rasterWaveForm_next {n : Nat} {d : Draw} {qs : List Quad} (hp : look s.passes s.occ.pass = some p)
    (hn : p.nextFragWave s.occ.n = some (n, d, qs)) (hs : p.stored = none) :
    exec .rasterWaveForm s = .next (s.formFragments s.occ.pass s.occ.n p n d qs) := by
  show execRasterWaveForm s = _
  unfold execRasterWaveForm
  simp only [hp, hn, hs, Option.isSome_none, Bool.false_eq_true, if_false]

/-- A pass whose fragments are done forms the next wave of its resolve (R366, R370). -/
theorem exec_resolvePhase_next {q : Pass} {cl : Nat} (hp : look s.passes s.occ.pass = some p)
    (hd : p.resolving = true ∨ s.fragmentsDone s.occ.pass p = true) (hs : p.stored = none) (hq : s.resolveAt p = (q, m))
    (hn : q.nextResolve = some cl) (hh : m.resolveHeld cl q = none) : exec .resolvePhase s = .next (m.formResolve s.occ.pass cl q) := by
  have hgo : (!p.resolving && !s.fragmentsDone s.occ.pass p || p.stored.isSome) = false := by
    obtain h | h := hd <;> simp [h, hs]
  show execResolvePhase s = _
  unfold execResolvePhase
  simp only [hp, hgo, hq, hn, hh, Bool.false_eq_true, if_false]

theorem exec_passClose_done (hp : look s.passes s.occ.pass = some p) (hd : s.resolvesDone s.occ.pass p = true) :
    exec .passClose s = .next (s.closePass s.occ.pass p) := by
  show execPassClose s = _
  unfold execPassClose
  simp only [hp, hd, Bool.true_eq_false, if_false]

end

/-- Settles O54: each clause is an event's equation when its unit can perform it. -/
theorem graphicsUnitsPerform : Obligations.GraphicsUnitsPerform :=
  ⟨fun _ _ _ _ _ => exec_fliPerform_inside, fun _ _ _ _ _ => exec_flwPerform_node, fun _ _ _ _ => exec_rayTraversal_hits,
    fun _ _ _ _ _ _ => exec_drawAccept_read, fun _ _ _ _ _ => exec_rasterWaveForm_next, fun _ _ _ _ _ => exec_resolvePhase_next,
    fun _ _ => exec_passClose_done⟩

end Sys2Proof.Machine
end

section
/-! System instructions (R384 to R391): the privilege trap, what a handler entry saves and ERET restores, and what each instruction does at
a level that may execute it. -/
namespace Sys2Proof.Machine
open Sys2Proof Host

section
variable {s : State} {c : Issue} {w : Wave} {i : Instr} {t : Trap}

/-- A user lane has no privilege for a system opcode, and privilege is checked first (R178, R384). -/
theorem earlyTrap_user {k : Nat} (hlo : 0xB0 ≤ (descOf i).opc) (hhi : (descOf i).opc ≤ 0xB3) (hl : (w.lane k).level = 0) :
    s.earlyTrap c.wid w c i k = some (privilegeTrap c.pc) :=
  if_pos (by simp [State.noPrivilege, hlo, hhi, hl])

variable (h : ∀ k ∈ s.activeLanes c w i, s.earlyTrap c.wid w c i k = some t)
include h

theorem earlyTraps_all : s.earlyTraps c w i = (s.activeLanes c w i).map (fun k => (k, t)) :=
  filterMap_all fun k hk => by rw [h k hk]; rfl

theorem runSet_all_trapped : s.runSet c w i = [] := by
  unfold State.runSet
  rw [earlyTraps_all h, List.filter_eq_nil_iff]
  intro k hk
  simpa using hk

/-- An issue whose active lanes all trap early has no other effect (R178). -/
theorem runLanes_all_trapped (eff : Eff) (hi : s.Issues c w i) :
    runLanes i s eff = .next ((⟨s.issued c w i, (s.activeLanes c w i).map (fun k => (k, t)), []⟩ : Done).close
      c.wid (wordsOf i) c.pc (s.group c.wid w c i)) := by
  unfold runLanes
  simp only [hi.cur, hi.wave, hi.legal, Bool.not_true, Bool.false_eq_true, if_false, runSet_all_trapped h, earlyTraps_all h,
    List.isEmpty_nil, if_true, List.append_nil]

end

/-- Settles O8: every system instruction runs in the common course, in which all its active lanes trap early. -/
theorem userLanesTrapOnSystemOpcodes : Obligations.UserLanesTrapOnSystemOpcodes := by
  unfold Obligations.UserLanesTrapOnSystemOpcodes
  intro i s c w hl hlo hhi hi huser
  obtain ⟨eff, he⟩ := exec_runs i hl
  rw [he]
  exact runLanes_all_trapped (fun k hk => earlyTrap_user hlo hhi (huser k hk)) eff hi

/-- Changes of single lanes leave the rest of the wave. -/
theorem modLane_fold_frame (F : Nat → Lane → Lane) (ks : List Nat) (u : Wave) :
    ks.foldl (fun v k => v.modLane k (F k)) u = { u with lanes := (ks.foldl (fun v k => v.modLane k (F k)) u).lanes } := by
  induction ks generalizing u with
  | nil => rfl
  | cons a t ih => exact (ih _).trans rfl

theorem wKey_user (r : Nat) : wKey 0 r = r := if_neg fun h => h.2 rfl

theorem rw_ww_same (w : Wave) (b : BitVec 2) (r : Nat) (x : DWord) : (w.ww b r x).rw b r = x := by
  simp [Wave.rw, Wave.ww, lookD_put]

theorem emptyW_ww_same (w : Wave) (b : BitVec 2) (r : Nat) (x : DWord) : (w.ww b r x).emptyW b r = false := by
  simp [Wave.emptyW, Wave.ww, has]

/-- The supervisor w63 is not a register of user lanes (R36). -/
theorem rw_ww_super63 (w : Wave) {r : Nat} (x : DWord) (h : r < 64) : (w.ww 1 63 x).rw 0 r = w.rw 0 r := by
  have hne : wKey 0 r ≠ wKey 1 63 := by
    rw [wKey_user]
    exact Nat.ne_of_lt h
  exact (lookD_put ..).trans (if_neg hne)

/-- The wave after lanes of it enter their handler (R395). -/
def Wave.entered (w : Wave) (lanes : List Nat) (slot kind : Nat) (disc : Bool) (ring entry : DWord) : Wave :=
  lanes.foldl (fun v k => v.modLane k (fun l => l.enter l.pc slot kind disc entry)) (w.ww 1 63 ring)

/-- A handler entry changes the wave of its lanes alone (R395). -/
theorem enterHandler_entered {s : State} {wid : Nat} {w : Wave} (lanes : List Nat) (slot : Nat) (disc : Bool) (word0 : Nat)
    (pc key : DWord) (tr : Trap) (hw : s.wave? wid = some w) (he : s.sysBits 0x12 w.vi 56 2 * 4 ≠ 0) :
    s.enterHandler wid lanes slot disc word0 pc key tr = s.setWave wid
      (w.entered lanes slot tr.kind disc (dw (ringBase (s.sysAt 0x18 w.vi))) (dw (s.sysBits 0x12 w.vi 56 2 * 4))) := by
  have hat : s.waveAt wid = w := lookD_some _ hw
  unfold State.enterHandler Wave.entered
  simp only [hat, he, if_false, modWave_some _ hw]
  exact fold_setWave _ _ _ _ (fun _ _ => modLane_setWave ..) _ _

theorem lane_entered (w : Wave) {lanes : List Nat} (slot kind : Nat) (disc : Bool) (ring entry : DWord) (hn : lanes.Nodup) {k : Nat}
    (hk : k < w.lanes.length) :
    (w.entered lanes slot kind disc ring entry).lane k =
      if k ∈ lanes then (w.lane k).enter (w.lane k).pc slot kind disc entry else w.lane k := by
  refine (modLane_fold_lane (fun _ l => l.enter l.pc slot kind disc entry) lanes _ hn k).trans ?_
  simp only [show k < (w.ww 1 63 ring).lanes.length from hk, and_true]
  rfl

section
variable (w : Wave) (lanes : List Nat) (slot kind : Nat) (disc : Bool) (ring entry : DWord)

theorem entered_frame : w.entered lanes slot kind disc ring entry =
    { w.ww 1 63 ring with lanes := (w.entered lanes slot kind disc ring entry).lanes } :=
  modLane_fold_frame (fun _ l => l.enter l.pc slot kind disc entry) lanes _

theorem length_entered : (w.entered lanes slot kind disc ring entry).lanes.length = w.lanes.length :=
  (modLane_fold_lanesOf (fun _ l => l.enter l.pc slot kind disc entry) lanes _).2

theorem rw_entered (b : BitVec 2) (r : Nat) : (w.entered lanes slot kind disc ring entry).rw b r = (w.ww 1 63 ring).rw b r := by
  rw [entered_frame]
  rfl

theorem emptyW_entered (b : BitVec 2) (r : Nat) :
    (w.entered lanes slot kind disc ring entry).emptyW b r = (w.ww 1 63 ring).emptyW b r := by
  rw [entered_frame]
  rfl

end

section
variable (l : Lane) (pc entry : DWord) (slot kind : Nat) (disc : Bool)

theorem enter_rv_12 : (l.enter pc slot kind disc entry).rv 12 = BitVec.ofNat 32 (64 * slot) := by simp [enter_rv]

theorem enter_rv_13 : (l.enter pc slot kind disc entry).rv 13 = BitVec.ofNat 32 kind := by simp [enter_rv]

/-- The two registers that the handler finds written are full (R395). -/
theorem enter_full : (l.enter pc slot kind disc entry).emptyV 12 2 = false := by
  simp [Lane.emptyV, List.range_succ, has_eq, enter_ve]

theorem enter_other {r : Nat} (h12 : r ≠ 12) (h13 : r ≠ 13) :
    (l.enter pc slot kind disc entry).rv r = l.rv r ∧ (l.enter pc slot kind disc entry).emptyV r 1 = l.emptyV r 1 := by
  simp [enter_rv, emptyV_one, has_eq, enter_ve, h12, h13]

end

/-- v12 and v13 stand in TSV, the first in its low half (R395). -/
theorem tsv_halves (l : Lane) :
    (dw (l.read 12 2)).setWidth 32 = l.rv 12 ∧ (dw (l.read 12 2) >>> 32).setWidth 32 = l.rv 13 := by
  have h12 := (l.rv 12).isLt
  have h13 := (l.rv 13).isLt
  rw [read2]
  constructor
  · apply BitVec.eq_of_toNat_eq
    simp only [dw, BitVec.toNat_setWidth, BitVec.toNat_ofNat]
    omega
  · apply BitVec.eq_of_toNat_eq
    simp only [dw, BitVec.toNat_setWidth, BitVec.toNat_ushiftRight, BitVec.toNat_ofNat, Nat.shiftRight_eq_div_pow,
      Nat.reduceAdd]
    omega

/-- A return puts TSV back into v12 and v13, whether or not the entry discarded versions (R391). -/
theorem eret_rv (l : Lane) (r : Nat) :
    l.eret.rv r = if r = 13 then (l.tsv >>> 32).setWidth 32 else if r = 12 then l.tsv.setWidth 32 else l.rv r := by
  have h : l.eret.rv r = ((l.wv 12 (l.tsv.setWidth 32)).wv 13 ((l.tsv >>> 32).setWidth 32)).rv r :=
    (apply_ite (fun m : Lane => m.rv r) ..).trans (ite_self _)
  rw [h, rv_wv, rv_wv]

/-- A return from the entry of a lane restores all its registers (R391, R395). -/
theorem eret_enter_rv (l : Lane) (pc entry : DWord) (slot kind : Nat) (disc : Bool) (r : Nat) :
    (l.enter pc slot kind disc entry).eret.rv r = l.rv r := by
  obtain ⟨hlow, hhigh⟩ := tsv_halves l
  rw [eret_rv]
  by_cases h13 : r = 13
  · rw [if_pos h13, h13]
    exact hhigh
  · rw [if_neg h13]
    by_cases h12 : r = 12
    · rw [if_pos h12, h12]
      exact hlow
    · rw [if_neg h12]
      exact (enter_other l pc entry slot kind disc h12 h13).1

theorem prv_level {b : BitVec 2} (h : b = 0 ∨ b = 1) : (if b = 0 then 0 else 1 : BitVec 2) = b := by
  obtain rfl | rfl := h <;> rfl

/-- Settles O9: an entry is a change of its wave, which each lane's entry gives; a return undoes it. -/
theorem handlerEntryAndReturn : Obligations.HandlerEntryAndReturn := by
  unfold Obligations.HandlerEntryAndReturn
  refine ⟨fun s wid w lanes slot disc word0 at0 key tr hw hn he => ?_, fun l pc entry slot kind disc => ?_,
    fun l pc entry slot kind h4 h57 hl => ?_⟩
  · refine ⟨_, enterHandler_entered lanes slot disc word0 at0 key tr hw he, ?_, ?_, fun r hr => ?_, ?_, length_entered ..,
      fun k hk => ?_⟩
    · rw [rw_entered, rw_ww_same]
    · rw [emptyW_entered, emptyW_ww_same]
    · rw [rw_entered, rw_ww_super63 _ _ hr]
    · rw [entered_frame]
      rfl
    · exact lane_entered w slot tr.kind disc _ _ hn hk
  · exact ⟨rfl, rfl, rfl, rfl, rfl, rfl, rfl, rfl, enter_rv_12 .., enter_rv_13 .., enter_full ..,
      fun _ h12 h13 => enter_other l pc entry slot kind disc h12 h13, rfl⟩
  · exact ⟨mask_word_address h4 h57, prv_level hl, rfl, rfl, eret_enter_rv l pc entry slot kind false⟩

/-- No service instruction traps, nor holds its lanes, once it has its effect (R390). -/
theorem sysop_laws {i : Instr} {wait : State → Issue → Wave → List Nat → Bool} {eff : Eff} (h : ∀ s, exec i s = sysOp i wait eff s)
    (ht : ∀ n c u run, (eff n c u run).traps = []) (hs : ∀ n c u run, (eff n c u run).stay = []) :
    OutcomeResult i (sysOut i wait (sysopDone eff)) ∧
      EffectResult i (fun n c u run => n.sysReady c.wid run && !wait n c u run)
        (fun n c u run => ((eff (n.sysFence c run) c u run).s, (eff (n.sysFence c run) c u run).stay)) :=
  ⟨sysop_result h fun n c u run => ⟨ht n c u run, hs n c u run⟩, sysop_effect h ht⟩

/-- Settles O45: each instruction by its laws; the service instructions share theirs. -/
theorem systemInstructionsComplete : Obligations.SystemInstructionsComplete :=
  ⟨sysrd_result, fun x => ⟨syswr_result x, syswr_effect x⟩,
    fun _ => sysop_laws (fun _ => rfl) (fun _ _ _ _ => rfl) (fun _ _ _ _ => rfl),
    fun _ => sysop_laws (fun _ => rfl) (fun _ _ _ _ => rfl) (fun _ _ _ _ => rfl),
    fun _ => sysop_laws (fun _ => rfl) (fun _ _ _ _ => rfl) (fun _ _ _ _ => rfl),
    fun _ => sysop_laws (fun _ => rfl) (fun _ _ _ _ => rfl) (fun _ _ _ _ => rfl),
    fun x => ⟨eret_result x, eret_effect x⟩⟩

end Sys2Proof.Machine
end

section
/-! Records and wait cycles (R392 to R399, R422, R425), and time slices, saves and restores (R411 to R419): what each event answers. -/
namespace Sys2Proof.Machine
open Sys2Proof Host

section
variable {s : State}

/-- A record that stands in its ring enters the handler of its lanes (R395). -/
theorem exec_trapHandlerEntry_written {r : TrapReq} (hr : look s.trapReqs s.occ.id = some r) (hd : s.recordDue s.occ.id r = true)
    (hw : r.written = true) :
    exec .trapHandlerEntry s = .next (({ s with trapReqs := del s.trapReqs s.occ.id } : State).enterHandler r.wid r.lanes r.slot
      (bits r.word0.toNat 53 53 == 1) r.word0.toNat r.pc r.key r.info) := by
  show execTrapHandlerEntry s = _
  unfold execTrapHandlerEntry
  simp only [hr, hd, hw, Bool.true_eq_false, if_false, if_true]

theorem exec_trapRingTimeout_stalled {r : TrapReq} (hr : look s.trapReqs s.occ.id = some r) (hs : s.ringStalled r = true) :
    exec .trapRingTimeout s = .next ((({ s with trapReqs := del s.trapReqs s.occ.id } : State).stallRecord r).killWave r.wid 2) := by
  show execTrapRingTimeout s = _
  unfold execTrapRingTimeout
  simp only [hr, hs, if_true]

/-- A late record that finds no room ends the command of its issuer (R397, R399). -/
theorem exec_lateRecordTimeout_stalled {r : TrapReq} {i : Issuer} (hr : look s.trapReqs s.occ.id = some r)
    (hs : s.lateStalled s.occ.id r = true) (hi : s.issuer? r.item = some i) :
    exec .lateRecordTimeout s = .next
      ((({ s with trapReqs := del s.trapReqs s.occ.id } : State).stallRecord r).modJob i.lid (fun j => { j with failed := 3 })) := by
  show execLateRecordTimeout s = _
  unfold execLateRecordTimeout
  simp only [hr, hs, hi, Bool.true_eq_false, if_false]

/-- The part with an event record given up as a fatal one (R422). -/
def State.eventLost (s : State) (e : EventReq) : State :=
  ({ s with eventReqs := del s.eventReqs s.occ.id } : State).fatalRecord e.vi (recordWord0 0x3E 0 0 0 0 0 0) 0 0 0 { kind := 0x3E, i1 := 1 }

theorem exec_eventRecordTimeout_stalled {e : EventReq} (he : look s.eventReqs s.occ.id = some e)
    (hs : s.eventStalled s.occ.id e = true) :
    exec .eventRecordTimeout s = .next ((s.eventLost e).drainEvents (s.eventLost e).eventReqs.length e.vi) := by
  show execEventRecordTimeout s = _
  unfold execEventRecordTimeout State.eventLost
  simp only [he, hs, Bool.true_eq_false, if_false]

/-- A scan that is due reports the wait cycles that it finds, one after another (R425). -/
theorem exec_waitCycleScan_due {ws : List (List Nat)} (hd : s.scanDue s.occ.part = true)
    (hw : s.waitCycles s.occ.part s.wcdPeriod = ws) :
    exec .waitCycleScan s = .next
      (ws.foldl State.reportCycle { s with scanAt := put s.scanAt s.occ.part (s.gt + s.wcdPeriod) }) := by
  show execWaitCycleScan s = _
  unfold execWaitCycleScan
  simp only [hd, hw, Bool.true_eq_false, if_false]

/-- The lanes of an issue at an illegal word trap together (R190). -/
theorem exec_illegalInstruction_wave {c : Issue} {w : Wave} (hc : s.cur = some c) (hw : s.wave? c.wid = some w) :
    exec .illegalInstruction s = .next ((s.taken.noteIssue c.wid (c.lanes.filter (fun k =>
        (w.lane k).live && (w.lane k).wait == .run && (w.lane k).pc == c.pc && (w.lane k).trapNow.isNone))).raiseTraps c.wid c.pc
      ((c.lanes.filter (fun k => (w.lane k).live && (w.lane k).wait == .run && (w.lane k).pc == c.pc && (w.lane k).trapNow.isNone)).map
        (fun k => (k, illegalTrap c.pc)))) := by
  show execIllegalInstruction s = _
  unfold execIllegalInstruction
  simp only [hc, hw]
  rfl

end

/-- Settles O49: each clause is an event's equation when it is due; the two scans find no cycle and one. -/
theorem recordsReachTheirRings : Obligations.RecordsReachTheirRings :=
  ⟨fun _ _ => exec_trapHandlerEntry_written, fun _ _ => exec_trapRingTimeout_stalled, fun _ _ _ => exec_lateRecordTimeout_stalled,
    fun _ _ he hs => ⟨_, rfl, exec_eventRecordTimeout_stalled he hs⟩, fun _ => exec_waitCycleScan_due,
    fun _ _ hd hw _ => exec_waitCycleScan_due hd hw, fun _ _ _ => exec_illegalInstruction_wave⟩

section
variable {s : State}

/-- A partition without a holder starts the slice of its first candidate (R412). -/
theorem exec_timeSliceEnd_free {v : Nat} {vs : List Nat} (hd : s.sliceDue s.occ.part = true) (hh : look s.holders s.occ.part = none)
    (hc : s.candidates s.occ.part 63 = v :: vs) : exec .timeSliceEnd s = .next (s.startSlice s.occ.part v) := by
  show execTimeSliceEnd s = _
  unfold execTimeSliceEnd
  simp only [hd, hh, hc, Bool.true_eq_false, if_false, List.head?_cons]

theorem exec_timeSliceEnd_ending {h : Holder} (hd : s.sliceDue s.occ.part = true) (hh : look s.holders s.occ.part = some h)
    (he : h.ending = true) : exec .timeSliceEnd s = .next (s.handOver s.occ.part h) := by
  show execTimeSliceEnd s = _
  unfold execTimeSliceEnd
  simp only [hd, hh, he, Bool.true_eq_false, if_false, if_true]

/-- A slice ends when another interface of the partition has work and no pass of the holder has stores to restore (R412, R413). -/
theorem exec_timeSliceEnd_contended {h : Holder} (hd : s.sliceDue s.occ.part = true) (hh : look s.holders s.occ.part = some h)
    (he : h.ending = false) (hr : s.restorable s.occ.part = [])
    (hc : (s.candidates s.occ.part h.vi).all (fun v => v == h.vi) = false) :
    exec .timeSliceEnd s = .next (s.endSlice s.occ.part) := by
  show execTimeSliceEnd s = _
  unfold execTimeSliceEnd
  simp only [hd, hh, he, hr, hc, Bool.true_eq_false, Bool.false_eq_true, if_false, List.head?_nil]

theorem exec_vistop_holder {p : Nat} (hp : s.partOf s.occ.vi = some p) (hh : s.holds s.occ.vi = true) :
    exec .vistop s = .next (s.endSlice p) := by
  show execVistop s = _
  unfold execVistop State.viStop
  simp only [hp, hh, if_true]

theorem exec_forcedSave_due {w : Wave} (hw : s.wave? s.occ.wid = some w) (hd : s.forceDue w = true) :
    exec .forcedSave s = .next
      ((s.countCore w.core w.vi false 0x009 1).modWave s.occ.wid (fun w => { w with forced := true })) := by
  show execForcedSave s = _
  unfold execForcedSave
  simp only [hw, hd, if_true]

/-- A save that is due takes the image slot that is free (R416, R417). -/
theorem exec_saveComplete_slot {w : Wave} {slot : Nat} {a : State} (hw : s.wave? s.occ.wid = some w)
    (hd : s.saveDue s.occ.wid w = true) (hs : s.freeImage w.vi = (a, some (some slot))) :
    exec .saveComplete s = .next (a.saveIn s.occ.wid slot w) := by
  show execSaveComplete s = _
  unfold execSaveComplete
  simp only [hw, hd, hs, Bool.true_eq_false, if_false]

variable {x : Saved} (hx : look s.saved s.occ.wid = some x) (hd : s.restoreDue s.occ.wid x = true)
  (hl : x.wave.lanes.all (fun l => !l.live) = false)
include hx hd hl

/-- A saved wave whose claims are free comes back where it fits (R418). -/
theorem exec_waveRestore_spot (slot pos : Nat) (hc : s.claimsFree x = true) (hs : s.restoreSpot x = some (slot, pos)) :
    exec .waveRestore s = .next (s.bringBack s.occ.wid x slot pos) := by
  show execWaveRestore s = _
  unfold execWaveRestore
  simp only [hx, hd, hl, hc, hs, Bool.true_eq_false, Bool.false_eq_true, if_false]

/-- A saved wave whose matrix claims are taken asks for them (R418, log entry 85). -/
theorem exec_waveRestore_asks (hc : s.claimsFree x = false) :
    exec .waveRestore s = .next { s with nid := s.nid + 1, saved := put s.saved s.occ.wid { x with asked := some s.nid } } := by
  show execWaveRestore s = _
  unfold execWaveRestore
  simp only [hx, hd, hl, hc, Bool.true_eq_false, Bool.false_eq_true, if_false, if_true]

end

/-- Settles O60: each clause is an event's equation when it is due. -/
theorem slicesTurnAndWavesMove : Obligations.SlicesTurnAndWavesMove :=
  ⟨fun _ _ _ => exec_timeSliceEnd_free, fun _ _ => exec_timeSliceEnd_ending, fun _ _ => exec_timeSliceEnd_contended,
    fun _ _ => exec_vistop_holder, fun _ _ => exec_forcedSave_due, fun _ _ _ _ => exec_saveComplete_slot,
    fun _ _ slot pos hx hd hl => exec_waveRestore_spot hx hd hl slot pos, fun _ _ => exec_waveRestore_asks⟩

end Sys2Proof.Machine
end

section
/-! Requests of the host (R443 to R447), doorbells and the management port (R387 to R458): what each event answers, by its cases. -/
namespace Sys2Proof.Machine
open Sys2Proof Host

section
variable {s : State}

/-- A doorbell of an interface whose register is not held writes it, and is acknowledged (R444). -/
theorem doorbell_rings {i : Instr} {num value : Nat} (hup : s.roceUp s.occ.port = true) (hh : s.hostHeld s.occ.vi = false) :
    s.doorbell i num value = .next ((s.sysWrite num s.occ.vi value 2 s.occ.vi).1.send
      { port := (rocePort s.occ.port).1, dest := s.occ.vi, kind := 10, cage := (rocePort s.occ.port).2 }) := by
  unfold State.doorbell
  simp only [hup, hh, Bool.not_true, Bool.false_eq_true, if_false]

theorem doorbell_down {i : Instr} {num value : Nat} (hdown : s.roceUp s.occ.port = false) : s.doorbell i num value = .next s :=
  if_pos (by simp [hdown])

/-- A request of the host is performed inside its interface's window and refused outside it (R443). -/
theorem hostRequest_up {vi pa : Nat} {req : PeerReq} (hup : s.roceUp s.occ.port = true) :
    s.hostRequest vi pa req = if inboundOk (s.sysAt 0x4C2 vi) pa (reqSize req) (reqWrites req) = true then
        s.takeOuter { pa := pa, req := req, port := (rocePort s.occ.port).1, dest := vi, cage := (rocePort s.occ.port).2 }
      else s.send { port := (rocePort s.occ.port).1, dest := vi, kind := 8, addr := pa, cage := (rocePort s.occ.port).2 } :=
  if_neg (by simp [hup])

theorem hostRequest_down {vi pa : Nat} {req : PeerReq} (hdown : s.roceUp s.occ.port = false) : s.hostRequest vi pa req = s :=
  if_pos (by simp [hdown])

theorem exec_hostRdmaWrite_memory (h : s.occ.ok = false) :
    exec .hostRdmaWrite s = .next (s.hostRequest s.occ.vi s.occ.pa (.store s.occ.data)) :=
  if_neg (by simp [h])

theorem exec_hostRdmaWrite_doorbell {num : Nat} (h : s.occ.ok = true) (hn : doorbellReg s.occ.pa = some num)
    (hl : s.occ.data.length = 8) :
    exec .hostRdmaWrite s =
      s.doorbell .hostRdmaWrite num (if num = 0x19 then ofBytes s.occ.data else ofBytes s.occ.data % 2 ^ 32) := by
  show execHostRdmaWrite s = _
  unfold execHostRdmaWrite
  simp only [h, hn, hl, if_true]

/-- A write of the doorbell page that is no doorbell's, or not of 8 bytes, does nothing (R444). -/
theorem exec_hostRdmaWrite_none (h : s.occ.ok = true) (hn : doorbellReg s.occ.pa = none ∨ s.occ.data.length ≠ 8) :
    exec .hostRdmaWrite s = .next s := by
  show execHostRdmaWrite s = _
  unfold execHostRdmaWrite
  simp only [h, if_true]
  split
  next num hnum hlen => exact absurd hn (by simp [hnum, hlen])
  next => rfl

theorem exec_hostRdmaWrite_down (hdown : s.roceUp s.occ.port = false) : exec .hostRdmaWrite s = .next s := by
  show execHostRdmaWrite s = _
  fun_cases execHostRdmaWrite s
  case case1 => exact doorbell_down hdown
  case case2 => rfl
  case case3 => rw [hostRequest_down hdown]

theorem exec_hostRdmaRead_memory (h : s.occ.ok = false) :
    exec .hostRdmaRead s = .next (s.hostRequest s.occ.vi s.occ.pa (.load s.occ.len)) :=
  if_neg (by simp [h])

/-- A byte of the doorbell page as it is read: of a doorbell's register, or zero (R444). -/
def State.doorbellByte (s : State) (a : Nat) : Byte :=
  match doorbellReg (a / 8 * 8) with
  | some num => BitVec.ofNat 8 (s.sysRead num s.occ.vi / 2 ^ (8 * (a % 8)))
  | none => 0

theorem exec_hostRdmaRead_page (hup : s.roceUp s.occ.port = true) (h : s.occ.ok = true) :
    exec .hostRdmaRead s = .next (s.send
      { port := (rocePort s.occ.port).1, dest := s.occ.vi, kind := 9, addr := s.occ.pa, cage := (rocePort s.occ.port).2,
        data := (List.range s.occ.len).map (fun k => s.doorbellByte (s.occ.pa + k)) }) :=
  (if_pos h).trans (if_neg (by simp [hup]))

theorem exec_hostRdmaRead_down (hdown : s.roceUp s.occ.port = false) : exec .hostRdmaRead s = .next s := by
  cases h : s.occ.ok with
  | true => exact (if_pos h).trans (if_pos (by simp [hdown]))
  | false => rw [exec_hostRdmaRead_memory h, hostRequest_down hdown]

/-- An atomic at a multiple of 8 is a request of the host (R445). -/
theorem exec_hostAtomic_aligned (h : s.occ.pa % 8 = 0) :
    exec .hostAtomic s = .next (s.hostRequest s.occ.vi s.occ.pa
      (if s.occ.ok then .cas .z64 s.occ.cmp s.occ.value else .atomic .add .z64 s.occ.value)) :=
  if_neg (by simp [h])

theorem exec_hostAtomic_misaligned (h : s.occ.pa % 8 ≠ 0) :
    exec .hostAtomic s = .next (if s.roceUp s.occ.port then s.send
      { port := (rocePort s.occ.port).1, dest := s.occ.vi, kind := 8, addr := s.occ.pa, cage := (rocePort s.occ.port).2 } else s) :=
  if_pos h

theorem exec_hostAtomic_down (hdown : s.roceUp s.occ.port = false) : exec .hostAtomic s = .next s := by
  by_cases h : s.occ.pa % 8 = 0
  · rw [exec_hostAtomic_aligned h, hostRequest_down hdown]
  · rw [exec_hostAtomic_misaligned h, if_neg (by simp [hdown])]

theorem exec_hostSend (s : State) :
    exec .hostSend s = .next (if s.roceUp s.occ.port then s.send
      { port := (rocePort s.occ.port).1, dest := s.occ.vi, kind := 8, addr := 0, cage := (rocePort s.occ.port).2 } else s) := rfl

end

/-- Settles O55: each request by its equation, inside the window and outside it, on a port that is up and on one that is down. -/
theorem hostRequestsAreServed : Obligations.HostRequestsAreServed := by
  unfold Obligations.HostRequestsAreServed
  refine ⟨fun s hup hok hin => ?_, fun s hup hok hout => ?_, fun s num hup hok hn hl hh => ?_, fun _ => exec_hostRdmaWrite_none,
    fun s hup hok hin => ?_, fun s hup hok hout => ?_, fun _ => exec_hostRdmaRead_page, fun s hup ha hin => ?_, fun s hup ha hout => ?_,
    fun s hup ha => ?_, fun s hup => ?_, fun s hdown => ⟨?_, exec_hostRdmaRead_down hdown, exec_hostAtomic_down hdown,
    exec_hostRdmaWrite_down hdown⟩, fun s hl => if_neg (by simp [hl]), fun _ => ⟨_, rfl, rfl⟩⟩
  · rw [exec_hostRdmaWrite_memory hok, hostRequest_up hup, if_pos hin]
  · rw [exec_hostRdmaWrite_memory hok, hostRequest_up hup, if_neg (ne_true_of_eq_false hout)]
  · rw [exec_hostRdmaWrite_doorbell hok hn hl, doorbell_rings hup hh]
  · rw [exec_hostRdmaRead_memory hok, hostRequest_up hup, if_pos hin]
  · rw [exec_hostRdmaRead_memory hok, hostRequest_up hup, if_neg (ne_true_of_eq_false hout)]
  · rw [exec_hostAtomic_aligned ha, hostRequest_up hup, if_pos hin]
  · rw [exec_hostAtomic_aligned ha, hostRequest_up hup, if_neg (ne_true_of_eq_false hout)]
  · rw [exec_hostAtomic_misaligned ha, if_pos hup]
  · rw [exec_hostSend, if_pos hup]
  · rw [exec_hostSend, if_neg (ne_true_of_eq_false hdown)]

section
variable {s m : State}

theorem exec_measextWrite_done (h : s.sysWrite 0x409 s.occ.index s.occ.value.toNat 2 64 = (m, true)) : exec .measextWrite s = .next m := by
  show execMeasextWrite s = _
  unfold execMeasextWrite
  simp only [h]

/-- The service writes the register of a management request, and answers it (R457). -/
theorem exec_managementRequest_done (hl : s.linkDown = false) (hb : s.boot = .service) (hr : regInstance s.occ.num s.occ.index = true)
    (hw : s.sysWrite s.occ.num s.occ.index s.occ.value.toNat 2 64 = (m, true)) :
    exec .managementRequest s = .next (m.send { port := 2, dest := 0, kind := 10 }) := by
  show execManagementRequest s = _
  unfold execManagementRequest
  simp only [hl, hb, hr, hw, ne_eq, not_true_eq_false, Bool.false_eq_true, if_false, if_true]

end

/-- Settles O57: the three doorbells ring alike, and each other event is the write of its register. -/
theorem registersAreWrittenFromOutside : Obligations.RegistersAreWrittenFromOutside :=
  ⟨fun _ => doorbell_rings, fun _ => doorbell_rings, fun _ => doorbell_rings, fun _ => rfl, fun _ => rfl, fun _ => rfl, fun _ => rfl,
    fun _ => rfl, fun _ => rfl, fun _ => rfl, fun _ h => if_pos h, fun _ _ => exec_measextWrite_done,
    fun _ _ => exec_managementRequest_done⟩

end Sys2Proof.Machine
end

section
/-! Resets and power (R453, R456, R463, R464): the state after a reset, and what each reset keeps. -/
namespace Sys2Proof.Machine
open Sys2Proof Host

theorem sysKey_inj {n m i j : Nat} (hi : i < 256) (hj : j < 256) : sysKey n i = sysKey m j ↔ n = m ∧ i = j := by
  unfold sysKey
  omega

theorem sysAt_sysPut_same (s : State) (n i v : Nat) : (s.sysPut n i v).sysAt n i = v % 2 ^ 64 := by
  simp [State.sysAt, State.sysPut, dw]

theorem sysAt_sysPut_ne (s : State) {n m i j : Nat} (v : Nat) (hi : i < 256) (hj : j < 256) (h : m ≠ n ∨ j ≠ i) :
    (s.sysPut n i v).sysAt m j = s.sysAt m j := by
  have hk : sysKey m j ≠ sysKey n i := fun e => by
    have := (sysKey_inj hj hi).mp e
    omega
  unfold State.sysAt State.sysPut
  rw [look_put_ne _ _ hk]

/-- A register holds 64 bits (R385). -/
theorem sysAt_lt (s : State) (n i : Nat) : s.sysAt n i < 2 ^ 64 := by
  unfold State.sysAt
  split
  · exact BitVec.isLt _
  · exact Nat.mod_lt _ (by decide)

/-- After a cold reset every register has its reset value, but for SYS.BOOTSTAT, which reports the reset (R453, R456). -/
theorem reset_sysAt (n : Nat) {i : Nat} (hi : i < 256) :
    State.reset.sysAt n i = if n = 0x400 ∧ i = 0xFF then 1 else sysReset n i % 2 ^ 64 := by
  have hk := sysKey_inj (n := 0x400) (m := n) (i := 0xFF) (by decide) hi
  by_cases h : n = 0x400 ∧ i = 0xFF
  · obtain ⟨rfl, rfl⟩ := h
    rfl
  · have hne : sysKey 0x400 0xFF ≠ sysKey n i := fun e => h (by obtain ⟨rfl, rfl⟩ := hk.mp e; exact ⟨rfl, rfl⟩)
    unfold State.sysAt State.reset
    simp only [look, hne, if_false, h]

/-- A lane of the boot wave: at firmware level, with its index in v0 (R44, R456). -/
theorem bootWave_lane {k : Nat} (h : k < 8) :
    bootWave.lane k = { level := 2, v := if k = 0 then [] else [(0, BitVec.ofNat 32 k)] } :=
  (by decide : ∀ k < 8, bootWave.lane k = { level := 2, v := if k = 0 then [] else [(0, BitVec.ofNat 32 k)] }) k h

theorem bootWave_rv {k : Nat} (h : k < 8) (r : Nat) : (bootWave.lane k).rv r = if r = 0 then BitVec.ofNat 32 k else 0 := by
  rw [bootWave_lane h]
  by_cases hk : k = 0
  · simp [Lane.rv, lookD, look, hk]
  · by_cases hr : r = 0
    · simp [Lane.rv, lookD, look, hk, hr]
    · simp [Lane.rv, lookD, look, hk, hr, Ne.symm hr]

/-- Settles O3: the fields and the tables by computation, the registers by their reset values, and the lanes by their index. -/
theorem resetValues : Obligations.ResetValues := by
  unfold Obligations.ResetValues
  refine ⟨rfl, rfl, rfl, rfl, fun _ => rfl, rfl, rfl, rfl, rfl, rfl, rfl, rfl, rfl, rfl, rfl, rfl, rfl, fun n _ => reset_sysAt n,
    fun _ => ⟨rfl, rfl, rfl, rfl, rfl, rfl, rfl, rfl, rfl⟩, rfl, rfl, rfl, rfl, rfl, rfl, fun k hk => ?_, fun _ _ => ⟨rfl, rfl⟩,
    fun r hr => ⟨if_neg hr, Bool.and_false _⟩⟩
  · have hl : State.reset.waveAt 0 = bootWave := rfl
    rw [hl]
    refine ⟨?_, ?_, ?_, ?_, fun r => ⟨bootWave_rv hk r, ?_⟩⟩ <;> rw [bootWave_lane hk] <;> rfl

section
variable (s : State)

/-- A warm reset keeps the time offsets of 1588 and reports itself; every other register reads as after a cold reset (R449, R453). -/
theorem warmStart_sysAt_other {n i : Nat} (h400 : n ≠ 0x400) (h4C4 : n ≠ 0x4C4 ∨ i ≠ 0xFF) (hi : i < 256) :
    s.warmStart.sysAt n i = State.reset.sysAt n i :=
  (sysAt_sysPut_ne _ _ (by decide) hi h4C4).trans (sysAt_sysPut_ne _ _ (by decide) hi (.inl h400))

theorem warmStart_sysAt_ptp : s.warmStart.sysAt 0x4C4 0xFF = s.sysAt 0x4C4 0xFF :=
  (sysAt_sysPut_same ..).trans (Nat.mod_eq_of_lt (sysAt_lt ..))

theorem warmStart_sysAt_bootstat : s.warmStart.sysAt 0x400 0xFF = 0 :=
  (sysAt_sysPut_ne _ _ (by decide) (by decide) (.inl (by decide))).trans (sysAt_sysPut_same ..)

/-- An interface's registers read as after a cold reset once it is reset (R453). -/
theorem resetVi_sysAt {vi num : Nat} {r : SysReg} (hr : sysReg? num = some r) (hv : r.inst = .vi) (h : vi < 64) :
    (s.resetVi vi).sysAt num vi = sysReset num vi % 2 ^ 64 :=
  resetRegs_sysAt _ vi num r hr hv (by omega)

end

theorem ne_of_mem_filter {α : Type} {f : α → Nat} {v : Nat} {l : List α} {x : α} (h : x ∈ l.filter (fun y => f y != v)) : f x ≠ v :=
  bne_iff_ne.mp (List.mem_filter.mp h).2

/-- Settles O59: what a warm reset keeps, register by register; an interface reset keeps of each of its tables what is of other interfaces. -/
theorem resetsAndPower : Obligations.ResetsAndPower := by
  unfold Obligations.ResetsAndPower
  refine ⟨fun _ => rfl, fun s => ⟨s.warmStart, rfl, rfl, fun _ _ => warmStart_sysAt_other s, warmStart_sysAt_ptp s,
    warmStart_sysAt_bootstat s⟩, fun s => ⟨_, rfl, rfl, fun _ _ => resetVi_sysAt s, ?_⟩,
    fun s h => ⟨_, rfl, if_neg (Nat.not_lt.mpr h)⟩, fun _ => rfl⟩
  exact ⟨fun _ => ne_of_mem_filter (f := fun x : Nat × Saved => x.2.wave.vi),
    fun _ => ne_of_mem_filter (f := fun x : Nat × Formed => x.2.vi),
    fun _ => ne_of_mem_filter (f := fun x : Nat × Issuer => x.2.vi), fun _ => ne_of_mem_filter (f := fun x : Nat × Job => x.2.vi),
    fun _ => ne_of_mem_filter (f := fun x : Nat × Pass => x.2.vi), fun _ => ne_of_mem_filter (f := fun x : Nat × TrapReq => x.2.vi),
    fun _ => ne_of_mem_filter (f := fun x : Nat × EventReq => x.2.vi)⟩

end Sys2Proof.Machine
end

section
/-! A store that becomes visible at its home slice (R137, R143), and the check of the declared lane registers (R40). -/
namespace Sys2Proof.Machine
open Sys2Proof Host

/-- A byte after a write of n bytes from pa on, each given by its address. -/
theorem memory_read_writes_map (m : List Host.Cell) (pa n : Nat) (f : Nat → Byte) (a : Nat) :
    Memory.read (Memory.writes m pa ((List.range n).map (fun k => f (pa + k)))) a =
      if pa ≤ a ∧ a < pa + n then f a else Memory.read m a := by
  have hlen : ((List.range n).map (fun k => f (pa + k))).length = n := by simp
  split
  case isTrue h =>
    obtain ⟨k, rfl⟩ := Nat.exists_eq_add_of_le h.1
    rw [memory_read_writes_in _ _ _ k (by omega), List.getElem_map, List.getElem_range]
  case isFalse h => exact memory_read_writes_out _ _ _ _ (by omega)

/-- A store that is performed at its home slice, alone of its issue, is stored. -/
theorem exec_homeSliceStore_alone {s : State} {o : Op} (ho : look s.ops s.occ.id = some o) (hd : s.storeDue s.occ.id o 4 = true)
    (hn : s.occ.n = 4) (ha : o.act = .store) (hin : o.outside = false) (hg : s.groupOf s.occ.id o = [(s.occ.id, o)]) :
    exec .homeSliceStore s = .next (s.performStore s.occ.id o).settleOps := by
  rw [exec_homeSliceStore_of_store ho (hn.symm ▸ hd) ha hin, hg, hn]
  simp only [List.foldl_cons, List.foldl_nil, State.promoteAt, ho]
  rfl

/-- Settles O10: what the store performs is written to memory, and its bytes are read back. -/
theorem performedStoreChangesItsBytes : Obligations.PerformedStoreChangesItsBytes := by
  unfold Obligations.PerformedStoreChangesItsBytes
  intro s o ho hd hn ha hin hg hm ht hp
  refine ⟨_, exec_homeSliceStore_alone ho hd hn ha hin hg, fun a => ?_⟩
  rw [State.byteAt, settleOps_mem, performStore_mem s _ o hm ht hp]
  exact memory_read_writes_map s.mem o.pa o.size o.byte a

/-- An instruction that names a lane register at or above the declared count is not legal at issue (R40). -/
theorem illegal_of_undeclared {s : State} {w : Wave} {i : Instr} (h : ∃ r ∈ laneRegsNamed i, w.regs ≤ r) :
    legal i = false ∨ declOk i w.regs = false ∨ s.issueOk w i = false := by
  obtain ⟨r, hr, hle⟩ := h
  cases hl : legal i with
  | false => exact .inl rfl
  | true => exact .inr (.inl (Bool.eq_false_iff.mpr fun hd => absurd ((declOk_iff hl _).mp hd r hr) (Nat.not_lt.mpr hle)))

/-- An instruction that names no lane register passes the check whatever is declared (R40). -/
theorem declOk_of_no_lane_register {i : Instr} (hl : legal i = true) (h : laneRegsNamed i = []) (n : Nat) : declOk i n = true :=
  (declOk_iff hl n).mpr fun _ hr => absurd (h ▸ hr) List.not_mem_nil

/-- Settles O18: the check compares the lane registers that the instruction names, and a group that fails it is refused. -/
theorem declaredLaneRegisters : Obligations.DeclaredLaneRegisters := by
  unfold Obligations.DeclaredLaneRegisters
  refine ⟨fun i s c w hl hc hw h => illegalPatternsTrap i s c w hl hc hw (illegal_of_undeclared h),
    fun _ n hl => (declOk_iff hl n).mpr,
    fun _ n m hl h => (declOk_of_no_lane_register hl h n).trans (declOk_of_no_lane_register hl h m).symm, fun o f h => ?_⟩
  obtain rfl | rfl | rfl | rfl := h <;> rfl

end Sys2Proof.Machine
end

section
/-! The scheduler (R46 to R60, R406 to R410, R420): what each event answers when what it asks for can be done. -/
namespace Sys2Proof.Machine
open Sys2Proof Host

section
variable {s m n : State} {num : Nat} {x : List Nat} (hr : s.canRead s.occ.vi = true) (ht : s.takeEntry s.occ.vi = (m, some (num, x)))
  (he : m.entryError s.occ.vi x = none)
include hr ht he

/-- A launch whose entry and descriptor are in order is accepted (R406, R408). -/
theorem exec_launch_of_job {j : Job} (ho : s.nextOp s.occ.vi ≠ 2) (hj : m.launchJob s.occ.vi num x = (n, some j)) :
    exec .launch s = .next { n with nid := n.nid + 1, jobs := put n.jobs n.nid j } := by
  show execLaunch s = _
  unfold execLaunch
  simp only [hr, ho, ht, he, hj, Bool.true_eq_false, or_self, if_false]
  rfl

/-- A CANCEL fixes the cancel point of a launch that has started (R420). -/
theorem exec_cancel_of_started {lid : Nat} {j : Job} (ho : s.nextOp s.occ.vi = 2)
    (hf : m.jobs.find? (fun y => y.2.vi == s.occ.vi && y.2.num == entryField x 8 31 0 && !y.2.isCancel) = some (lid, j))
    (hs : j.started = true) :
    exec .cancel s = .next { m with
      nid := m.nid + 1
      jobs := put (put m.jobs m.nid { vi := s.occ.vi, num := num, isCancel := true, target := lid, tag := entryField x 0 31 0, accepted := m.gt })
        lid { j with cancelAt := some (j.cancelAt.getD m.gt) } } := by
  show execCancel s = _
  unfold execCancel
  simp only [hr, ho, ht, he, hf, hs, ne_eq, not_true_eq_false, Bool.true_eq_false, or_self, if_false, if_true]
  rfl

end

section
variable {s : State} {j : Job} (hj : s.job? s.occ.id = some j) (hd : s.startDue s.occ.id j = true)
include hj hd

/-- A launch without spawn room starts as soon as it is due (R409). -/
theorem exec_launchStart_of_no_room (hr : j.sroom = 0) : exec .launchStart s = .next (s.startJob s.occ.id j) := by
  show execLaunchStart s = _
  unfold execLaunchStart
  simp only [hj, hd, hr, Bool.true_eq_false, if_false, if_true]

/-- A launch with spawn room makes the counter that it names, and starts (R57, R409). -/
theorem exec_launchStart_of_counter {m : State} {pa : Nat} (hr : j.sroom ≠ 0)
    (hx : s.engNow (gfxAgent j.vi partCore j.level) j.sctr.toNat 1 = (m, .ok (pa, false))) (hm : isMemory pa = true)
    (ht : m.till? pa = none) (hf : m.tillFree pa = true) :
    exec .launchStart s = .next ((m.createCounter pa (j.sroom * j.cores.length) j.vi).startJob s.occ.id { j with sctrPa := pa }) := by
  show execLaunchStart s = _
  unfold execLaunchStart
  simp only [hj, hd, hr, hx, hm, ht, hf, Bool.true_eq_false, Bool.false_or, Bool.not_true, Option.isSome_none, Bool.false_eq_true, if_false]

end

section
variable {s : State} {id : Nat} {p : Spot}

theorem exec_wavePlace_of_launched {i : Issuer} {j : Job} (h : s.placeFor s.occ.core = some (.launched id i j, p)) :
    exec .wavePlace s = .next (({ s with ctr := s.ctr + 1 } : State).placeLaunched id i j p) := by
  show execWavePlace s = _
  unfold execWavePlace
  simp only [h]

theorem exec_wavePlace_of_graphics {f : Formed} (h : s.placeFor s.occ.core = some (.formed id f, p)) (hk : isPassKind f.kind = true) :
    exec .wavePlace s = .next (({ s with ctr := s.ctr + 1 } : State).placeGraphics id f s.occ.core p) := by
  show execWavePlace s = _
  unfold execWavePlace
  simp only [h, hk, if_true]

/-- A packed wave of a launch that is not complete is placed while one of its items still waits for it (R59, R410). -/
theorem exec_wavePlace_of_spawned {f : Formed} {j : Job} (h : s.placeFor s.occ.core = some (.formed id f, p))
    (hk : isPassKind f.kind = false) (hj : s.job? f.lid = some j)
    (hi : f.items.all (fun k => ((s.issuer? k).filter (fun i => i.stage == .unplaced)).isNone) = false) :
    exec .wavePlace s = .next (({ s with ctr := s.ctr + 1 } : State).placeSpawned id f j p) := by
  have hj' : ({ s with ctr := s.ctr + 1 } : State).job? f.lid = some j := hj
  have hi' : f.items.all (fun k => ((({ s with ctr := s.ctr + 1 } : State).issuer? k).filter (fun i => i.stage == .unplaced)).isNone) = false := hi
  show execWavePlace s = _
  unfold execWavePlace
  simp only [h, hk, hj', hi', Bool.false_eq_true, if_false]

end

/-- A SPAWN with nothing wrong, of a launch without a cancel point, is enqueued once its units are taken (R54 to R56, R261). -/
theorem exec_spawnDecision_of_units {s m n : State} {r : SpawnReq} {j : Job} {cs : List (SpawnAsk × Option Nat × Option Prog)}
    (hr : look s.spawns s.occ.id = some r) (hj : s.job? (s.waveAt r.wid).lid = some j) (hc : s.spawnCauses r j = (m, cs))
    (ha : cs.any (fun x => x.2.1.isSome) = false) (hn : j.cancelAt = none) (hu : m.tryNow j.sctrPa r.core cs.length = (n, true)) :
    exec .spawnDecision s = .next (n.spawnItems s.occ.id (s.waveAt r.wid).lid r j cs) := by
  show execSpawnDecision s = _
  unfold execSpawnDecision
  simp only [hr, hj, hc, ha, hn, hu, Bool.false_eq_true, if_false]

section
variable {s : State} {es : List (Nat × Issuer)} (h : s.nextGroup s.occ.core = some es)
include h

theorem exec_packWave_of_full (hf : s.groupFull s.occ.core es = true) : exec .packWave s = .next (s.packGroup s.occ.core es) := by
  show execPackWave s = _
  unfold execPackWave
  simp only [h, hf, if_true]

theorem exec_packWaitExpire_of_old (hf : s.groupFull s.occ.core es = false) :
    exec .packWaitExpire s = .next (s.packGroup s.occ.core es) := by
  show execPackWaitExpire s = _
  unfold execPackWaitExpire
  simp only [h, hf, Bool.false_eq_true, if_false]

end

theorem exec_waveComplete_of_due {s : State} {i : Issuer} (hi : s.issuer? s.occ.id = some i) (hd : s.completeDue s.occ.id i = true) :
    exec .waveComplete s = .next (((s.countDown i).completeIssuer s.occ.id).settleBarriers.drainJobs) := by
  show execWaveComplete s = _
  unfold execWaveComplete
  simp only [hi, hd, if_true]

/-- A cancel reaches each core of its interface once (R420). -/
theorem exec_cancelReach_of_unreached {s : State} {j : Job} (hj : s.job? s.occ.id = some j) (hc : j.cancelAt.isSome = true)
    (hr : j.reached.contains s.occ.core = false) (hv : s.coreOfVi j.vi s.occ.core = true) :
    exec .cancelReach s = .next (s.cancelOn s.occ.id s.occ.core) := by
  have hn : ¬ j.cancelAt.isNone = true := by rw [Option.isNone_iff_eq_none]; exact Option.isSome_iff_ne_none.mp hc
  show execCancelReach s = _
  unfold execCancelReach
  simp only [hj, hn, hr, hv, Bool.true_eq_false, Bool.false_eq_true, or_self, if_false]

/-- Settles O51: each clause is an event's equation in one of its cases. -/
theorem schedulerWorks : Obligations.SchedulerWorks := by
  unfold Obligations.SchedulerWorks
  exact ⟨fun _ _ _ _ _ _ hr ho ht he => exec_launch_of_job hr ht he ho, fun _ _ => exec_launchStart_of_no_room,
    fun _ _ _ _ hj hd => exec_launchStart_of_counter hj hd, fun _ _ _ _ _ => exec_wavePlace_of_launched, fun _ _ _ _ => exec_wavePlace_of_graphics,
    fun _ _ _ _ _ => exec_wavePlace_of_spawned, fun _ _ _ _ _ _ => exec_spawnDecision_of_units, fun _ _ => exec_packWave_of_full,
    fun _ _ => exec_packWaitExpire_of_old, fun _ _ => exec_waveComplete_of_due,
    fun _ _ _ _ _ _ hr ho ht he => exec_cancel_of_started hr ht he ho, fun _ _ => exec_cancelReach_of_unreached⟩

end Sys2Proof.Machine
end

section
/-! Commits (R160 to R165) and tills (R284 to R289): what each event answers when its request can be decided. -/
namespace Sys2Proof.Machine
open Sys2Proof Host

theorem exec_commit_of_due {s : State} {id : Nat} (hd : s.commitDue s.occ.vi = true) (hh : s.tokenHolder s.occ.vi = some id) :
    exec .commit s = .next (s.commitIssuer s.occ.vi id) := by
  show execCommit s = _
  unfold execCommit
  simp only [hd, hh, Bool.not_true, Bool.false_eq_true, if_false]

theorem exec_versionShareAbort_of_victim {s : State} {id : Nat} (h : s.shareVictim s.occ.vi s.occ.n = some id) :
    exec .versionShareAbort s =
      .next ((s.countSlice s.occ.n s.occ.vi 0x104 (s.spreadAll s.issuers.length [id]).length).abortAll [id]).settleOps := by
  show execVersionShareAbort s = _
  unfold execVersionShareAbort
  simp only [h]

section
variable {s : State} {m : TillMsg} {t : Till} (hm : look s.tillMsgs s.occ.id = some m) (ho : s.tillOpen s.occ.id m = true)
include hm ho

section
variable (ht : s.till? m.line = some t)
include ht

/-- A TAKE.TRY that its till covers is granted (R284, R285). -/
theorem exec_tillTake_of_try (ha : m.act = .tryTake) (hn : m.n ≤ t.till) :
    exec .tillTake s = .next ((((s.grant m.line m.core m.n (t.queue.length + 1)).tillLinks m.wid m.core m.lane m.line).endTill s.occ.id m
      (some 0)).modTill m.line (fun t => { t with examine := !t.queue.isEmpty })) := by
  show execTillTake s = _
  unfold execTillTake
  simp only [hm, ho, ht, ha, Nat.not_lt.mpr hn, Bool.not_true, Bool.false_eq_true, if_false]

/-- A TAKE within its counter's limit joins the queue (R284, R285). -/
theorem exec_tillTake_of_new (ha : m.act = .take) (hq : m.queued = false) (hn : m.n ≤ t.limit) :
    exec .tillTake s = .next (s.queueTake s.occ.id m) := by
  show execTillTake s = _
  unfold execTillTake
  simp only [hm, ho, ht, ha, hq, Nat.not_lt.mpr hn, Bool.not_true, Bool.false_eq_true, if_false]

/-- The till looks at the head of its queue when a look is due (R285). -/
theorem exec_tillTake_of_queued (ha : m.act = .take) (hq : m.queued = true) (he : t.examine = true) :
    exec .tillTake s = .next ((s.modTill m.line (fun t => { t with examine := false })).examine m.line) := by
  show execTillTake s = _
  unfold execTillTake
  simp only [hm, ho, ht, ha, hq, he, Bool.not_true, Bool.false_eq_true, if_false, if_true]

/-- A GIVE of units that the limit covers puts them in the till (R287). -/
theorem exec_tillGive_of_room (ha : m.act = .give) (hn : m.n ≠ 0) (hl : t.till + m.n + (vals t.grants).foldl (· + ·) 0 ≤ t.limit) :
    exec .tillGive s = .next (((s.modTill m.line (fun t => { t with till := t.till + m.n, examine := !t.queue.isEmpty })).markTill m).endTill
      s.occ.id m none) := by
  show execTillGive s = _
  unfold execTillGive
  simp only [hm, ho, ht, ha, hn, Nat.not_lt.mpr hl, ne_eq, not_true_eq_false, Bool.true_eq_false, or_self, if_false]

/-- A GIVE of nothing has the queue looked at (R285, R287). -/
theorem exec_tillGive_of_zero (ha : m.act = .give) (hn : m.n = 0) :
    exec .tillGive s = .next (((s.modTill m.line (fun t => { t with examine := !t.queue.isEmpty })).markTill m).endTill s.occ.id m none) := by
  show execTillGive s = _
  unfold execTillGive
  simp only [hm, ho, ht, ha, hn, ne_eq, not_true_eq_false, Bool.true_eq_false, or_self, if_false, if_true]

theorem exec_tillStock_of_till (ha : m.act = .stock) : exec .tillStock s = .next (s.startStock m.line s.occ.id) := by
  show execTillStock s = _
  unfold execTillStock
  simp only [hm, ho, ht, ha, ne_eq, not_true_eq_false, Bool.true_eq_false, or_self, if_false]

end

/-- An ACINIT of a line that is no counter makes it one, when a till is free and the numbers are in order (R282, R288). -/
theorem exec_tillAcinit_of_free (ha : m.act = .acinit) (hc : s.lineClear m = true) (ht : s.till? m.line = none)
    (hf : s.tillFree m.line = true) (hn : m.n ≤ m.lim) (hl : 0 < m.lim) :
    exec .tillAcinit s = .next (((({ s.recallLine m.line with
      tills := put (s.recallLine m.line).tills m.line { till := m.n, limit := m.lim, vi := m.vi } } : State).writeImage m.line m.n m.lim 0).markTill
        m).endTill s.occ.id m none) := by
  show execTillAcinit s = _
  unfold execTillAcinit
  simp only [hm, ho, ht, ha, hc, hf, hl, Nat.not_lt.mpr hn, Nat.pos_iff_ne_zero.mp hl, ne_eq, not_true_eq_false, Bool.true_eq_false, or_self,
    and_false, if_false]

end

section
variable {s : State} {t : Till} {c : Nat} (ht : s.till? s.occ.pa = some t)
include ht

/-- The last holder's return ends the stocktake (R286). -/
theorem exec_stocktakeRecall_of_last (hs : t.stock = some [c]) :
    exec .stocktakeRecall s = .next ((s.returnAllowance c s.occ.pa).finishStock s.occ.pa) := by
  show execStocktakeRecall s = _
  unfold execStocktakeRecall
  simp only [ht, hs]

/-- A holder returns its allowance, and the stocktake goes on with the next (R286). -/
theorem exec_stocktakeRecall_of_more {d : Nat} {rest : List Nat} (hs : t.stock = some (c :: d :: rest)) :
    exec .stocktakeRecall s =
      .next ((s.returnAllowance c s.occ.pa).modTill s.occ.pa (fun t => { t with stock := some (d :: rest) })) := by
  show execStocktakeRecall s = _
  unfold execStocktakeRecall
  simp only [ht, hs]

end

/-- Settles O52: each clause is an event's equation in one of its cases. -/
theorem commitsAndTillsProceed : Obligations.CommitsAndTillsProceed := by
  unfold Obligations.CommitsAndTillsProceed
  exact ⟨fun _ _ => exec_commit_of_due, fun _ _ => exec_versionShareAbort_of_victim, fun _ _ _ => exec_tillTake_of_try,
    fun _ _ _ => exec_tillTake_of_new, fun _ _ _ => exec_tillTake_of_queued, fun _ _ _ => exec_tillGive_of_room,
    fun _ _ _ => exec_tillGive_of_zero, fun _ _ hm ha ho => exec_tillAcinit_of_free hm ho ha,
    fun _ _ _ => exec_tillStock_of_till, fun _ _ _ => exec_stocktakeRecall_of_last, fun _ _ _ _ _ ht => exec_stocktakeRecall_of_more ht⟩

end Sys2Proof.Machine
end

section
/-! What every step keeps (R142, R453; log entry 2): memory and the sparse tables in their canonical form. The claim about memory and
the one about the tables are proved together, each under a premise of its own: `State.Canon`. One lemma for each function of the model
that answers a state, in the model's order, says that it keeps the state canonical; it bears the function's name. -/
namespace Sys2Proof.Machine
open Sys2Proof Host

/-- A table is in its canonical form if P holds. -/
def RisingIf {α : Type} (P : Prop) (m : FMap α) : Prop := P → rising m = true

section
variable {α β : Type} {P : Prop} {m n : FMap α}

theorem RisingIf.nil : RisingIf P ([] : FMap α) := fun _ => rfl

theorem RisingIf.put {k v} (h : RisingIf P m) : RisingIf P (put m k v) := fun p => rising_put m k v (h p)

theorem RisingIf.del {k} (h : RisingIf P m) : RisingIf P (del m k) := fun p => rising_del m k (h p)

theorem RisingIf.modKey {k f} (h : RisingIf P m) : RisingIf P (modKey m k f) := fun p => rising_modKey m k f (h p)

theorem RisingIf.filter {f} (h : RisingIf P m) : RisingIf P (m.filter f) := fun p => rising_filter m f (h p)

theorem RisingIf.map {f : Nat × α → Nat × β} (h : RisingIf P m) (hf : ∀ x, (f x).1 = x.1) : RisingIf P (m.map f) :=
  fun p => rising_map m f hf (h p)

theorem RisingIf.filterMap {f : Nat × α → Option (Nat × β)} (h : RisingIf P m) (hf : ∀ x y, f x = some y → y.1 = x.1) :
    RisingIf P (m.filterMap f) := fun p => rising_filterMap m f hf (h p)

theorem RisingIf.ite {c : Prop} [Decidable c] (h : RisingIf P m) (k : RisingIf P n) : RisingIf P (if c then m else n) := by
  split <;> assumption

theorem RisingIf.foldl {l : List β} {f : FMap α → β → FMap α} (h : RisingIf P m) (hf : ∀ n x, RisingIf P n → RisingIf P (f n x)) :
    RisingIf P (l.foldl f m) := by
  induction l generalizing m with
  | nil => exact h
  | cons x l ih => exact ih (hf _ _ h)

end

theorem RisingIf.writes {P : Prop} {m : List Cell} {pa bs} (h : RisingIf P m) : RisingIf P (Memory.writes m pa bs) :=
  fun p => memory_writes_wf m pa bs (h p)

/-- The state is in its canonical form: memory if M holds, and every table that `State.tablesOk` names if T holds. -/
structure State.Canon (s : State) (M T : Prop) : Prop where
  mem : RisingIf M s.mem
  poison : RisingIf T s.poison
  sys : RisingIf T s.sys
  measExt : RisingIf T s.measExt
  histSaved : RisingIf T s.histSaved
  hist : RisingIf T s.hist
  streams : RisingIf T s.streams
  portSent : RisingIf T s.portSent
  clocks : RisingIf T s.clocks
  peerHeard : RisingIf T s.peerHeard
  lineport : RisingIf T s.lineport
  noc : RisingIf T s.noc
  cores : RisingIf T s.cores
  waves : RisingIf T s.waves
  spad : RisingIf T s.spad
  fifo : RisingIf T s.fifo
  switches : RisingIf T s.switches
  ops : RisingIf T s.ops
  relAt : RisingIf T s.relAt
  fills : RisingIf T s.fills
  barriers : RisingIf T s.barriers
  jobs : RisingIf T s.jobs
  issuers : RisingIf T s.issuers
  formed : RisingIf T s.formed
  spawns : RisingIf T s.spawns
  held : RisingIf T s.held
  tills : RisingIf T s.tills
  tillMsgs : RisingIf T s.tillMsgs
  cmds : RisingIf T s.cmds
  postings : RisingIf T s.postings
  promises : RisingIf T s.promises
  passes : RisingIf T s.passes
  opens : RisingIf T s.opens
  gfxAsks : RisingIf T s.gfxAsks
  gfx : RisingIf T s.gfx
  trapReqs : RisingIf T s.trapReqs
  eventReqs : RisingIf T s.eventReqs
  holders : RisingIf T s.holders
  saved : RisingIf T s.saved
  transit : RisingIf T s.transit
  scanAt : RisingIf T s.scanAt

/-- An optional state is in its canonical form if there is one. -/
def CanonIn (o : Option State) (M T : Prop) : Prop := ∀ m, o = some m → m.Canon M T

/-- An answer's next state is in its canonical form if there is one. -/
def CanonOut (o : Out) (M T : Prop) : Prop := ∀ m, o = .next m → m.Canon M T

section
variable {s t : State} {M T : Prop} {α β : Type} {c : Prop} [Decidable c] {l : List α}

theorem State.Canon.update (h : s.Canon M T) (k : s.Canon M T → t.Canon M T) : t.Canon M T := k h

theorem State.Canon.ite (h : s.Canon M T) (k : t.Canon M T) : (if c then s else t).Canon M T := by
  split <;> assumption

theorem State.Canon.foldl {f : State → α → State} (h : s.Canon M T) (hf : ∀ m x, m.Canon M T → (f m x).Canon M T) :
    (l.foldl f s).Canon M T := by
  induction l generalizing s with
  | nil => exact h
  | cons x l ih => exact ih (hf _ _ h)

/-- A fold over a state and something more keeps the state canonical when each of its steps does. -/
theorem State.Canon.foldlFst {f : State × β → α → State × β} {a : State × β} (h : a.1.Canon M T)
    (hf : ∀ m x, m.1.Canon M T → (f m x).1.Canon M T) : (l.foldl f a).1.Canon M T := by
  induction l generalizing a with
  | nil => exact h
  | cons x l ih => exact ih (hf _ _ h)

theorem State.Canon.foldlDone {f : Done → α → Done} {d : Done} (h : d.s.Canon M T)
    (hf : ∀ m x, m.s.Canon M T → (f m x).s.Canon M T) : (l.foldl f d).s.Canon M T := by
  induction l generalizing d with
  | nil => exact h
  | cons x l ih => exact ih (hf _ _ h)

theorem State.Canon.foldN {f : State → Nat → State} {n : Nat} (h : s.Canon M T) (hf : ∀ m x, m.Canon M T → (f m x).Canon M T) :
    (foldN n f s).Canon M T := by
  induction n with
  | zero => exact h
  | succ n ih => exact hf _ _ ih

theorem State.Canon.fst {e : State × α} {a : α} (h : e.1.Canon M T) (he : e = (s, a)) : s.Canon M T := by subst he; exact h

theorem State.Canon.snd {e : α × State} {a : α} (h : e.2.Canon M T) (he : e = (a, s)) : s.Canon M T := by subst he; exact h

theorem CanonIn.none : CanonIn none M T := fun _ h => nomatch h

theorem CanonIn.some (h : s.Canon M T) : CanonIn (some s) M T := by rintro _ ⟨⟩; exact h

theorem CanonIn.ite {o p : Option State} (h : CanonIn o M T) (k : CanonIn p M T) : CanonIn (if c then o else p) M T := by
  split <;> assumption

theorem CanonIn.getD {o : Option State} (h : CanonIn o M T) (k : s.Canon M T) : (o.getD s).Canon M T := by
  cases o with
  | none => exact k
  | some m => exact h m rfl

theorem CanonIn.map {o : Option State} {f : State → State} (h : CanonIn o M T) (hf : ∀ m, m.Canon M T → (f m).Canon M T) :
    CanonIn (o.map f) M T := by
  cases o with
  | none => exact .none
  | some m => exact .some (hf _ (h m rfl))

theorem CanonOut.next (h : s.Canon M T) : CanonOut (.next s) M T := by rintro _ ⟨⟩; exact h

theorem CanonOut.ite {o p : Out} (h : CanonOut o M T) (k : CanonOut p M T) : CanonOut (if c then o else p) M T := by
  split <;> assumption

end

end Sys2Proof.Machine
end

/-! System registers, translation and memory -/
section
namespace Sys2Proof.Machine
open Sys2Proof Host

section
variable {s : State} {d : Done} {M T : Prop}

theorem State.Canon.fresh (h : s.Canon M T) : (s.fresh).2.Canon M T := { h with }

theorem State.Canon.freeBits (h : s.Canon M T) : ({ s with ctr := s.ctr + 1 } : State).Canon M T := { h with }

theorem State.Canon.choose (h : s.Canon M T) : ({ s with ctr := s.ctr + 1 } : State).Canon M T := { h with }

theorem State.Canon.setCore {c k} (h : s.Canon M T) : (s.setCore c k).Canon M T := { h with cores := h.cores.put }

theorem State.Canon.modCore {c f} (h : s.Canon M T) : (s.modCore c f).Canon M T := h.setCore

theorem State.Canon.setWave {wid w} (h : s.Canon M T) : (s.setWave wid w).Canon M T := { h with waves := h.waves.put }

theorem State.Canon.modWave {wid f} (h : s.Canon M T) : (s.modWave wid f).Canon M T := { h with waves := h.waves.modKey }

theorem State.Canon.modLane {wid i f} (h : s.Canon M T) : (s.modLane wid i f).Canon M T := h.modWave

theorem State.Canon.modLaneAny {wid lane f} (h : s.Canon M T) : (s.modLaneAny wid lane f).Canon M T := by
  unfold State.modLaneAny
  split
  · exact h.modLane
  · exact { h with saved := h.saved.modKey }

theorem State.Canon.sysPut {num index v} (h : s.Canon M T) : (s.sysPut num index v).Canon M T := { h with sys := h.sys.put }

theorem State.Canon.sysSetBits {num index hi lo v} (h : s.Canon M T) : (s.sysSetBits num index hi lo v).Canon M T := h.sysPut

theorem State.Canon.addCount {num index n} (h : s.Canon M T) : (s.addCount num index n).Canon M T := h.sysPut

theorem State.Canon.countWhere {core code f} (h : s.Canon M T) : (s.countWhere core code f).Canon M T := h.ite h.modCore

theorem State.Canon.countCore {core vi user code n} (h : s.Canon M T) : (s.countCore core vi user code n).Canon M T := h.countWhere

theorem State.Canon.turnCounters {core} (h : s.Canon M T) : (s.turnCounters core).Canon M T := by
  unfold State.turnCounters
  exact .modCore (h.foldl fun _ _ h => h.addCount)

theorem State.Canon.countSlice {slice vi code n} (h : s.Canon M T) : (s.countSlice slice vi code n).Canon M T :=
  h.foldl fun _ _ h => h.addCount.ite h

theorem State.Canon.countShared {slice vis code n} (h : s.Canon M T) : (s.countShared slice vis code n).Canon M T :=
  h.foldl fun _ _ h => h.addCount.ite h

theorem State.Canon.markLeaf {t pa} (h : s.Canon M T) : (State.markLeaf t s pa).Canon M T :=
  .ite (h.ite { h with }) (.ite (.ite { h with } h) h)

theorem State.Canon.markLeaves {t pa n} (h : s.Canon M T) : (State.markLeaves t pa n s).Canon M T := h.foldl fun _ _ h => h.markLeaf

theorem State.Canon.storeBytes {pa bs} (h : s.Canon M T) : (s.storeBytes pa bs).Canon M T :=
  .markLeaves { h with mem := h.mem.writes, poison := h.poison.filterMap (by grind) }

theorem State.Canon.walkStart {vi core va root} (h : s.Canon M T) : (s.walkStart vi core va root).2.Canon M T := by
  unfold State.walkStart
  split
  · exact h
  · split
    · exact h
    · exact { h with }

theorem State.Canon.keepPtrs {vi core va xs} (h : s.Canon M T) : (s.keepPtrs vi core va xs).Canon M T := .ite { h with } h

theorem State.Canon.startTransit {leafPa leaf bits_ vi va} (h : s.Canon M T) : (s.startTransit leafPa leaf bits_ vi va).Canon M T :=
  h.ite { h with transit := h.transit.put }

theorem State.Canon.writeLeaf {leafPa leaf} (h : s.Canon M T) : (s.writeLeaf leafPa leaf).Canon M T := by
  unfold State.writeLeaf
  exact { h with mem := h.mem.writes }

theorem State.Canon.keepLeaf {vi core va leafPa leaf leaf' pbits} (h : s.Canon M T) :
    (s.keepLeaf vi core va leafPa leaf leaf' pbits).Canon M T :=
  .update (h.ite h.writeLeaf) fun h => { h with }

theorem State.Canon.useLeaf {vi core level va acc ag cached leafPa leaf pbits} (h : s.Canon M T) :
    (s.useLeaf vi core level va acc ag cached leafPa leaf pbits).1.Canon M T :=
  by
  unfold State.useLeaf
  split
  · exact h
  · split
    · exact h
    · dsimp only
      split
      · exact h
      · split
        · exact h.startTransit
        · exact h.keepLeaf

theorem State.Canon.translate {vi core level va acc ag} (h : s.Canon M T) : (s.translate vi core level va acc ag).1.Canon M T := by
  unfold State.translate
  split
  · exact h.useLeaf
  · dsimp only
    split
    · exact h
    · split
      · exact h.walkStart
      · split
        · exact h.walkStart.countCore
        · split
          · exact h.walkStart.countCore.useLeaf.fst ‹_›
          · exact (h.walkStart.countCore.useLeaf.fst ‹_›).keepPtrs

theorem State.Canon.translateFor {w level va acc ag} (h : s.Canon M T) : (s.translateFor w level va acc ag).1.Canon M T := by
  unfold State.translateFor
  split
  · exact h
  · exact h.translate

theorem State.Canon.fetchWord {w level va} (h : s.Canon M T) : (s.fetchWord w level va).1.Canon M T := by
  unfold State.fetchWord
  split
  · exact h
  · split
    · exact h.translateFor.fst ‹_›
    · exact h.translateFor.fst ‹_›
    · exact h.translateFor.fst ‹_›
    · rename_i m _ _ _ heq
      have h : m.Canon M T := h.translateFor.fst heq
      dsimp only
      split
      · exact h
      · split
        · split
          · exact h
          · exact h.choose
        · split
          · exact h
          · split
            · exact h
            · dsimp only
              exact h.modCore

theorem State.Canon.fetchWords {w level va n} (h : s.Canon M T) : (s.fetchWords w level va n).1.Canon M T := by
  induction n generalizing s va with
  | zero => exact h
  | succ n ih =>
    unfold State.fetchWords
    split
    · split <;> exact (ih (h.fetchWord.fst ‹_›)).fst ‹_›
    · exact h.fetchWord.fst ‹_›

theorem State.Canon.fetchInstr {w level va} (h : s.Canon M T) : (s.fetchInstr w level va).1.Canon M T := by
  unfold State.fetchInstr
  split
  · split <;> exact ((h.fetchWord.fst ‹_›).fetchWords).fst ‹_›
  · exact h.fetchWord.fst ‹_›

theorem State.Canon.setSpad {key w} (h : s.Canon M T) : (s.setSpad key w).Canon M T := { h with spad := h.spad.put }

theorem State.Canon.fillWords {last ks x} (h : s.Canon M T) : (s.fillWords last ks x).Canon M T := by
  induction ks generalizing s x with
  | nil => exact h
  | cons k ks ih => exact ih h.setSpad

theorem State.Canon.emptyWords {last ks} (h : s.Canon M T) : (s.emptyWords last ks).Canon M T := h.foldl fun _ _ h => h.setSpad

theorem State.Canon.endStore {id o} (h : s.Canon M T) : (s.endStore id o).Canon M T :=
  .ite { h with ops := h.ops.put } { h with ops := h.ops.del }

theorem State.Canon.forget {o} (h : s.Canon M T) : (s.forget o).Canon M T := { h with ops := h.ops.filter }

end

end Sys2Proof.Machine
end

/-! Waves and issuers: ends, traps and records -/
section
namespace Sys2Proof.Machine
open Sys2Proof Host

section
variable {s : State} {d : Done} {M T : Prop}

theorem State.Canon.modIssuer {id f} (h : s.Canon M T) : (s.modIssuer id f).Canon M T := { h with issuers := h.issuers.modKey }

theorem State.Canon.modJob {lid f} (h : s.Canon M T) : (s.modJob lid f).Canon M T := { h with jobs := h.jobs.modKey }

theorem State.Canon.settlePromises (h : s.Canon M T) : (s.settlePromises).Canon M T := by
  unfold State.settlePromises
  refine h.foldl fun _ _ h => ?_
  split
  split
  · dsimp only
    split
    · exact .modWave { h with promises := h.promises.del }
    · exact .modWave { h with promises := h.promises.del }
    · exact { h with promises := h.promises.del }
  · exact h

theorem State.Canon.leavePosting {wid p} (h : s.Canon M T) : (s.leavePosting wid p).Canon M T :=
  .settlePromises { h with cmds := h.cmds.filter, postings := h.postings.filter, promises := h.promises.map fun _ => rfl }

theorem State.Canon.withdraw {wid p} (h : s.Canon M T) : (s.withdraw wid p).Canon M T :=
  have h := h.leavePosting
  { h with
    cores := h.cores.map fun _ => rfl
    barriers := .filter (h.barriers.map fun _ => rfl)
    tills := h.tills.map fun _ => rfl
    tillMsgs := h.tillMsgs.filter
    gfxAsks := .filter (h.gfxAsks.map fun _ => rfl) }

theorem State.Canon.dropFlight {wid p} (h : s.Canon M T) : (s.dropFlight wid p).Canon M T :=
  { h with
    cores := h.cores.map fun _ => rfl
    ops := h.ops.filterMap (by grind)
    fills := h.fills.filterMap (by grind)
    spawns := h.spawns.map fun _ => rfl
    tillMsgs := h.tillMsgs.map fun _ => rfl
    gfx := h.gfx.map fun _ => by dsimp only; split <;> rfl }

theorem State.Canon.withOp {o} (h : s.Canon M T) : (s.withOp o).Canon M T := { h with ops := h.ops.put }

theorem State.Canon.addFence {wid lane k scope before mode} (h : s.Canon M T) : (s.addFence wid lane k scope before mode).Canon M T :=
  h.modLaneAny.ite h.modLaneAny.withOp

theorem State.Canon.leave {wid lane} (h : s.Canon M T) : (s.leave wid lane).Canon M T := by
  unfold State.leave
  dsimp only
  split
  · exact h.modLane.modWave.ite h.modLane
  · exact { h with saved := h.saved.modKey }

theorem State.Canon.releaseBarrier {bid b} (h : s.Canon M T) : (s.releaseBarrier bid b).Canon M T := by
  unfold State.releaseBarrier
  dsimp only
  split
  · exact .foldl { h with barriers := h.barriers.del } fun _ _ h => h.leave.addFence.modLaneAny
  · refine .foldl (.foldl { h with barriers := h.barriers.del } fun _ _ h => h.leave.addFence.modLaneAny) fun _ _ h => ?_
    split
    · exact h.modWave
    · exact { h with saved := h.saved.modKey }

theorem State.Canon.settleBarriers (h : s.Canon M T) : (s.settleBarriers).Canon M T := h.foldl fun _ _ h => h.releaseBarrier.ite h

theorem State.Canon.giveUnits {lid core n} (h : s.Canon M T) : (s.giveUnits lid core n).Canon M T := by
  unfold State.giveUnits
  split
  · exact h.ite { h with tillMsgs := h.tillMsgs.put }
  · exact h

theorem State.Canon.reportRecord {w res r} (h : s.Canon M T) : (s.reportRecord w res r).Canon M T := { h with trapReqs :=
  h.trapReqs.put }

theorem State.Canon.freeMatrix {wid w res} (h : s.Canon M T) : (s.freeMatrix wid w res).Canon M T := by
  unfold State.freeMatrix
  dsimp only
  split
  · refine .modCore ?_
    split
    · refine .reportRecord ?_
      refine h.foldl fun _ _ h => ?_
      split
      · refine .modCore ?_
        split
        · exact h.reportRecord
        · exact h
      · exact h
    · refine h.foldl fun _ _ h => ?_
      split
      · refine .modCore ?_
        split
        · exact h.reportRecord
        · exact h
      · exact h
  · refine h.foldl fun _ _ h => ?_
    split
    · refine .modCore ?_
      split
      · exact h.reportRecord
      · exact h
    · exact h

theorem State.Canon.disarmItem {id} (h : s.Canon M T) : (s.disarmItem id).Canon M T := { h with cores := h.cores.map fun _ => rfl }

theorem State.Canon.disarm {core wid} (h : s.Canon M T) : (s.disarm core wid).Canon M T := h.modCore

theorem State.Canon.detachMatrix {wid w} (h : s.Canon M T) : (s.detachMatrix wid w).Canon M T := h.freeMatrix.ite (.modCore { h with })

theorem State.Canon.dueRecords {wid lane retired} (h : s.Canon M T) : (s.dueRecords wid lane retired).Canon M T :=
  .modLaneAny (h.foldl fun _ _ h => { h with trapReqs := h.trapReqs.put })

theorem State.Canon.stopCmds {p} (h : s.Canon M T) : (s.stopCmds p).Canon M T := { h with cmds := h.cmds.filter }

theorem State.Canon.mapCmds {f : Nat × Cmd → Nat × Cmd} (h : s.Canon M T) (hf : ∀ x, (f x).1 = x.1) :
    ({ s with cmds := s.cmds.map f } : State).Canon M T := { h with cmds := h.cmds.map hf }

theorem State.Canon.enterSection {wid lane} (h : s.Canon M T) : (s.enterSection wid lane).Canon M T := h.modLane.addFence

theorem State.Canon.settleOrd (h : s.Canon M T) : (s.settleOrd).Canon M T := by
  unfold State.settleOrd
  refine h.foldl fun _ _ h => ?_
  split
  split
  · refine h.foldl fun _ _ h => ?_
    split
    · exact h.enterSection.leave.ite h
    · exact h
  · exact h

theorem State.Canon.dropFragment {wid lane} (h : s.Canon M T) : (s.dropFragment wid lane).Canon M T :=
  .ite (.settleOrd { h with passes := h.passes.map fun _ => rfl }) h

theorem State.Canon.shadowOps {wid w} (h : s.Canon M T) : (s.shadowOps wid w).Canon M T := by
  unfold State.shadowOps
  exact have h := h.modCore; { h with ops := h.ops.map fun _ => rfl }

theorem State.Canon.settleShadow (h : s.Canon M T) : (s.settleShadow).Canon M T := { h with cores := h.cores.map fun _ => rfl }

theorem State.Canon.markRetired {wid} (h : s.Canon M T) : (s.markRetired wid).Canon M T :=
  { h with trapReqs := h.trapReqs.map fun _ => rfl }

theorem State.Canon.retireWave {wid} (h : s.Canon M T) : (s.retireWave wid).Canon M T := by
  unfold State.retireWave
  split
  · exact h
  · refine .settleBarriers (.update (.ite (.modIssuer ?h) ?h) fun h => { h with waves := h.waves.del })
    exact .detachMatrix (.shadowOps (.markRetired
      (.foldl (.dropFlight (.leavePosting (.mapCmds h.stopCmds fun _ => rfl))) fun _ _ h => h.dueRecords)))

theorem State.Canon.afterEnd {wid lane} (h : s.Canon M T) : (s.afterEnd wid lane).Canon M T :=
  .ite (.retireWave (.dropFragment (h.modIssuer.ite h))) (.settleBarriers (.dropFragment (h.modIssuer.ite h)))

theorem State.Canon.dropFills {wid lane} (h : s.Canon M T) : (s.dropFills wid lane).Canon M T :=
  { h with
    cores := h.cores.map fun _ => rfl
    ops := h.ops.filterMap (by grind)
    fills := h.fills.map fun _ => rfl
    tillMsgs := h.tillMsgs.map fun _ => rfl
    gfx := h.gfx.map fun _ => rfl }

theorem State.Canon.endLane {wid lane} (h : s.Canon M T) : (s.endLane wid lane).Canon M T := h.dropFills.dueRecords.modLane.afterEnd

theorem State.Canon.dropVersions {id} (h : s.Canon M T) : (s.dropVersions id).Canon M T := { h with ops := h.ops.filter }

theorem State.Canon.stopSaved {id} (h : s.Canon M T) : (s.stopSaved id).Canon M T := h.foldl fun _ _ h => h.withdraw.dropFlight.ite h

theorem State.Canon.dropRecords {wid p} (h : s.Canon M T) : (s.dropRecords wid p).Canon M T :=
  { h with trapReqs := h.trapReqs.filterMap (by grind) }

theorem State.Canon.stopIssuer {id i} (h : s.Canon M T) : (s.stopIssuer id i).Canon M T := by
  unfold State.stopIssuer
  dsimp only
  split
  · refine .modWave (.ite ?stopped (.disarm ?stopped))
    exact .dropRecords (.dropFlight (.withdraw (h.stopCmds.dropVersions.disarmItem.ite h.stopCmds.dropVersions)))
  · exact .stopSaved (h.stopCmds.dropVersions.disarmItem.ite h.stopCmds.dropVersions)

theorem State.Canon.countDown {i} (h : s.Canon M T) : (s.countDown i).Canon M T := h.modJob

theorem State.Canon.endIssuer {id} (h : s.Canon M T) : (s.endIssuer id).Canon M T := h.modIssuer

theorem State.Canon.discardIssuer {id} (h : s.Canon M T) : (s.discardIssuer id).Canon M T := by
  unfold State.discardIssuer
  split
  · exact h
  · refine .ite (have h := h.stopIssuer; { h with issuers := h.issuers.del }) ?_
    split
    · exact have k := h.stopIssuer.countDown.giveUnits; { k with issuers := h.stopIssuer.issuers.del }
    · exact h.stopIssuer.endLane.endIssuer.ite h.stopIssuer.modWave.retireWave.endIssuer
    · exact .endIssuer (have h := h.stopIssuer; { h with saved := h.saved.map fun _ => rfl })
    · exact .endIssuer (have h := h.stopIssuer; { h with formed := h.formed.filter })
    · exact .endIssuer (have h := h.stopIssuer; { h with formed := h.formed.filter })

theorem State.Canon.rerunLane {id i level wid lane} (h : s.Canon M T) : (s.rerunLane id i level wid lane).Canon M T := h.modLane

theorem State.Canon.restartIssuer {id} (h : s.Canon M T) : (s.restartIssuer id).Canon M T := by
  have keep {m : State} {f : Nat × Saved → Nat × Saved} (h : m.Canon M T) (hf : ∀ x, (f x).1 = x.1) :
      ({ m with saved := m.saved.map f } : State).Canon M T := { h with saved := h.saved.map hf }
  have form {m : State} {id f} (h : m.Canon M T) : ({ m with formed := put m.formed id f } : State).Canon M T :=
    { h with formed := h.formed.put }
  unfold State.restartIssuer
  split
  · exact h
  · dsimp only
    split
    · exact h
    · split
      · exact h.endIssuer
      · split
        · exact .ite (.modIssuer (keep h fun _ => rfl)) (.modIssuer (keep (h.foldl fun _ _ h => h.disarm.ite h) fun _ => rfl))
        · split
          · exact h.modIssuer.rerunLane.ite h.modIssuer.disarm.detachMatrix.modWave
          · split
            · split
              · exact h.modIssuer.rerunLane
              · exact .modIssuer (form h.fresh)
            · exact h.modIssuer
          · exact h
          · exact h
          · exact h

theorem State.Canon.pruneDone (h : s.Canon M T) : s.pruneDone.Canon M T := by
  unfold State.pruneDone
  rw [List.foldr_eq_foldl_reverse]
  exact h.foldl fun _ _ h => .ite { h with issuers := h.issuers.del } h

theorem State.Canon.abortAll {ids} (h : s.Canon M T) : (s.abortAll ids).Canon M T := by
  unfold State.abortAll
  dsimp only
  refine .foldl (h.foldl fun _ _ h => h.discardIssuer) fun _ _ h => ?_
  split
  · exact h.stopIssuer.restartIssuer
  · exact h

theorem State.Canon.discardVersions {id} (h : s.Canon M T) : (s.discardVersions id).Canon M T := by
  unfold State.discardVersions
  dsimp only
  refine .foldl (h.dropVersions.stopCmds.foldl fun _ _ h => h.discardIssuer) fun _ _ h => ?_
  split
  · exact h.stopIssuer.restartIssuer
  · exact h

theorem State.Canon.killWave {wid detail} (h : s.Canon M T) : (s.killWave wid detail).Canon M T := by
  have drop {m : State} {f} (h : m.Canon M T) : ({ m with trapReqs := m.trapReqs.filter f } : State).Canon M T :=
    { h with trapReqs := h.trapReqs.filter }
  unfold State.killWave
  split
  · exact h
  · refine .retireWave (drop (.modWave (.modJob (.foldl (.foldl (.foldl ?stopped fun _ _ h => h.discardVersions)
      fun _ _ h => h.endIssuer)
      fun _ _ h => h.dropFragment))))
    exact h.withdraw.dropFlight.stopCmds.disarm

theorem State.Canon.savedReports {x} (h : s.Canon M T) : (s.savedReports x).Canon M T := h.foldl fun _ _ h => h.reportRecord

theorem State.Canon.killSaved {wid x detail} (h : s.Canon M T) : (s.killSaved wid x detail).Canon M T := by
  have drop {m : State} {ds} (h : m.Canon M T) : ({ m with saved := del m.saved wid, dropped := ds } : State).Canon M T :=
    { h with saved := h.saved.del }
  refine .settleBarriers (drop (.modJob (.foldl (.foldl ?stopped fun _ _ h => h.discardVersions.endIssuer)
      fun _ _ h => h.dropFragment)))
  exact .disarm (.stopCmds (.dropFlight (.withdraw (h.savedReports.foldl fun _ _ h => h.dueRecords))))

theorem State.Canon.dropFormed {fid f} (h : s.Canon M T) : (s.dropFormed fid f).Canon M T :=
  .update (.foldl (h.foldl fun _ _ h => h.discardIssuer) fun _ _ h => h.dropFragment) fun h => { h with formed := h.formed.del }

theorem State.Canon.recallPage {lo hi} (h : s.Canon M T) : (s.recallPage lo hi).Canon M T :=
  .update (h.foldl fun _ _ h => h.storeBytes.forget.endStore) fun h => { h with ops := h.ops.map fun _ => rfl }

theorem State.Canon.reclassNow {leafPa} (h : s.Canon M T) : (s.reclassNow leafPa).Canon M T := by
  unfold State.reclassNow
  split
  · exact h
  · exact have h := h.recallPage.writeLeaf.countSlice; { h with waves := h.waves.map fun _ => rfl, transit := h.transit.del }

theorem State.Canon.partXlat {vi va acc level} (h : s.Canon M T) : (s.partXlat vi va acc level).1.Canon M T := by
  unfold State.partXlat
  split
  · exact h
  · split
    · exact h.translate.fst ‹_›
    · exact h.translate.fst ‹_›
    · rename_i heq
      exact { h.translate.fst heq with }

theorem State.Canon.send {m} (h : s.Canon M T) : (s.send m).Canon M T := { h with portSent := h.portSent.put.ite h.portSent }

theorem State.Canon.lineUse {peer pa start} (h : s.Canon M T) : (s.lineUse peer pa start).Canon M T := by
  unfold State.lineUse
  dsimp only
  split
  · exact .ite { h with lineport := h.lineport.put } (.ite { h with lineport := h.lineport.del } { h with lineport := h.lineport.put })
  · exact .ite { h with lineport := h.lineport.put } h

theorem State.Canon.sendHost {vi id kind off data} (h : s.Canon M T) : (s.sendHost vi id kind off data).Canon M T := h.send

theorem State.Canon.sendPeer {vi va pa bs} (h : s.Canon M T) : (s.sendPeer vi va pa bs).Canon M T :=
  .send (.lineUse { h with ops := h.ops.put })

theorem State.Canon.holdStore {pa bs} (h : s.Canon M T) : (s.holdStore pa bs).Canon M T := { h with held := h.held.put }

theorem State.Canon.partStore {vi va bs} (h : s.Canon M T) : (s.partStore vi va bs).1.Canon M T := by
  unfold State.partStore
  split
  · exact h.partXlat.fst ‹_›
  · split
    · exact h.partXlat.fst ‹_›
    · split
      · exact (h.partXlat.fst ‹_›).sendHost
      · split
        · exact (h.partXlat.fst ‹_›).foldl fun _ _ h => h.sendPeer
        · split
          · exact (h.partXlat.fst ‹_›).holdStore
          · exact (h.partXlat.fst ‹_›).storeBytes

theorem State.Canon.readOutside {vi pa n} (h : s.Canon M T) : (s.readOutside vi pa n).1.Canon M T := by
  unfold State.readOutside
  dsimp only
  split
  · split
    · exact h.sendHost.choose.freeBits
    · exact h.sendHost.choose
  · split
    · exact h.send.choose.freeBits
    · exact h.send.choose

theorem State.Canon.partNum {vi va n level} (h : s.Canon M T) : (s.partNum vi va n level).1.Canon M T := by
  unfold State.partNum
  split
  · exact h.partXlat.fst ‹_›
  · rename_i heq
    have h := h.partXlat.fst heq
    split
    · exact h
    · split
      · exact h.readOutside
      · split
        · exact { h with }
        · split <;> exact h

theorem State.Canon.interrupt {vi value} (h : s.Canon M T) : (s.interrupt vi value).Canon M T := h.ite (h.sendHost.ite h.countSlice)

theorem State.Canon.discardRetired {id} (h : s.Canon M T) : (s.discardRetired id).Canon M T := by
  unfold State.discardRetired
  split
  · exact h.discardVersions.modIssuer.ite h
  · exact h

theorem State.Canon.stopVi {vi} (h : s.Canon M T) : (s.stopVi vi).Canon M T :=
  .foldl (.foldl (.foldl (.foldl (h.sysSetBits.foldl fun _ _ h => h.killWave) fun _ _ h => h.killSaved) fun _ _ h => h.dropFormed)
    fun _ _ h => h.discardRetired) fun _ _ h => h.discardIssuer.ite h.endIssuer.modJob

theorem State.Canon.fatalInterrupt (h : s.Canon M T) : (s.fatalInterrupt).Canon M T := h.interrupt.ite h

theorem State.Canon.latch {vi kind} (h : s.Canon M T) : (s.latch vi kind).Canon M T := h.ite h.sysPut.fatalInterrupt

theorem State.Canon.fatal {vi kind} (h : s.Canon M T) : (s.fatal vi kind).Canon M T := h.latch.stopVi

theorem State.Canon.fatalRecord {vi word0 pc key lanes a} (h : s.Canon M T) : (s.fatalRecord vi word0 pc key lanes a).Canon M T := by
  unfold State.fatalRecord
  dsimp only
  split
  · exact h.fatal
  · split
    · exact (h.partStore.fst ‹_›).fatal
    · exact (((h.partStore.fst ‹_›).sysSetBits).interrupt).ite ((h.partStore.fst ‹_›).sysSetBits)

theorem State.Canon.ringRecord {vi word0 pc key lanes a} (h : s.Canon M T) : (s.ringRecord vi word0 pc key lanes a).1.Canon M T := by
  unfold State.ringRecord
  dsimp only
  split
  · exact h
  · split
    · exact h
    · split
      · exact h.partStore.fst ‹_›
      · exact (((h.partStore.fst ‹_›).sysSetBits).interrupt).ite ((h.partStore.fst ‹_›).sysSetBits)

theorem State.Canon.tryEvent {e} (h : s.Canon M T) : (s.tryEvent e).1.Canon M T := by
  unfold State.tryEvent
  dsimp only
  split
  · exact h.sysSetBits.interrupt.ite h.sysSetBits
  · split
    · exact h
    · split
      · exact (h.partStore.fst ‹_›).sysSetBits.interrupt.ite (h.partStore.fst ‹_›).sysSetBits
      · dsimp only
        exact (h.partStore.fst ‹_›).fatal

theorem State.Canon.postEvent {e} (h : s.Canon M T) : (s.postEvent e).Canon M T := by
  unfold State.postEvent
  dsimp only
  split
  · exact have h := h.fresh; { h with eventReqs := h.eventReqs.put }
  · split
    · exact h.tryEvent.fst ‹_›
    · rename_i heq
      exact have h := (h.tryEvent.fst heq).fresh; { h with eventReqs := h.eventReqs.put }

theorem State.Canon.drainEvents {n vi} (h : s.Canon M T) : (State.drainEvents n s vi).Canon M T := by
  induction n generalizing s with
  | zero => exact h
  | succ n ih =>
    unfold State.drainEvents
    split
    · exact h
    · split
      · rename_i heq
        exact ih (have h := h.tryEvent.fst heq; { h with eventReqs := h.eventReqs.del })
      · exact h.tryEvent.fst ‹_›

theorem State.Canon.event {vi kind level by_ bx tag cmd detail intr} (h : s.Canon M T) :
    (s.event vi kind level by_ bx tag cmd detail intr).Canon M T :=
  h.postEvent

theorem State.Canon.postLaneless {r} (h : s.Canon M T) : (s.postLaneless r).Canon M T := by
  have wait {s : State} (h : s.Canon M T) : ({ s.fresh.2 with trapReqs := put s.trapReqs s.nid r } : State).Canon M T :=
    { h with trapReqs := h.trapReqs.put }
  unfold State.postLaneless
  refine .ite ?_ (h.fatalRecord.ite (wait h))
  split
  · exact h.ringRecord.fst ‹_›
  · exact wait (h.ringRecord.fst ‹_›)
  · exact (h.ringRecord.fst ‹_›).fatal

theorem State.Canon.raise {wid f} (h : s.Canon M T) : (s.raise wid f).Canon M T := h.ite h.modWave

end

end Sys2Proof.Machine
end

/-! Results, fetches and the start of an access -/
section
namespace Sys2Proof.Machine
open Sys2Proof Host

section
variable {s : State} {d : Done} {M T : Prop}

theorem State.Canon.safePoint {wid lane} (h : s.Canon M T) : (s.safePoint wid lane).Canon M T := h.modWave

theorem State.Canon.advanceLane {wid len lane} (h : s.Canon M T) : (s.advanceLane wid len lane).Canon M T :=
  h.modLane.safePoint.ite h.modLane

theorem State.Canon.jumpLane {wid lane target} (h : s.Canon M T) : (s.jumpLane wid lane target).Canon M T :=
  h.modLane.safePoint.ite h.modLane

theorem State.Canon.waitLane {wid len lane w} (h : s.Canon M T) : (s.waitLane wid len lane w).Canon M T := h.modLane

theorem State.Canon.putV {wid lane r n x} (h : s.Canon M T) : (s.putV wid lane r n x).Canon M T := h.modLane

theorem State.Canon.putW {wid level r x} (h : s.Canon M T) : (s.putW wid level r x).Canon M T := h.modWave

theorem State.Canon.putK {wid r x} (h : s.Canon M T) : (s.putK wid r x).Canon M T := h.modWave

theorem State.Canon.putKBit {wid r lane b} (h : s.Canon M T) : (s.putKBit wid r lane b).Canon M T := h.modWave

theorem State.Canon.withFill {f} (h : s.Canon M T) : (s.withFill f).Canon M T := { h with fills := h.fills.put }

theorem State.Canon.later {wid r n vals flags} (h : s.Canon M T) : (s.later wid r n vals flags).Canon M T :=
  h.ite (h.withFill.foldl fun _ _ h => h.modLane)

theorem State.Canon.laterW {wid level team r x} (h : s.Canon M T) : (s.laterW wid level team r x).Canon M T := h.withFill.modWave

theorem State.Canon.deliver {id f} (h : s.Canon M T) : (s.deliver id f).Canon M T := .raise (.modWave (h.foldl fun _ _ h => h.modLane))

theorem State.Canon.dropHeld {wid lane id} (h : s.Canon M T) : (s.dropHeld wid lane id).Canon M T :=
  .modWave (.modLane { h with ops := h.ops.filter, gfx := h.gfx.filter })

theorem State.Canon.endWait {wid lane} (h : s.Canon M T) : (s.endWait wid lane).Canon M T := by
  unfold State.endWait
  dsimp only
  refine .modLane ?_
  split
  · exact h
  · exact h.withdraw.dropHeld
  · exact h.withdraw

theorem State.Canon.enterHandler {wid lanes slot disc word0 pc key a} (h : s.Canon M T) :
    (s.enterHandler wid lanes slot disc word0 pc key a).Canon M T :=
  h.fatalRecord.killWave.ite (h.modWave.foldl fun _ _ h => h.modLane)

theorem State.Canon.record {wid lanes pc key item disc t} (h : s.Canon M T) : (s.record wid lanes pc key item disc t).Canon M T := by
  have hold {s : State} {r : TrapReq} {f : Lane → Lane} (h : s.Canon M T) :
      (lanes.foldl (fun (s : State) k => s.modLane wid k f)
        { s.fresh.2 with trapReqs := put s.fresh.2.trapReqs s.fresh.1 r }).Canon M T :=
    .foldl { h.fresh with trapReqs := h.fresh.trapReqs.put } fun _ _ h => h.modLane
  unfold State.record
  refine .ite (hold h) ?_
  split
  · exact hold (h.ringRecord.fst ‹_›)
  · exact (h.ringRecord.fst ‹_›).fatal
  · exact .ite (hold (h.ringRecord.fst ‹_›)) (h.ringRecord.fst ‹_›).enterHandler

theorem State.Canon.firmwareTrap {wid} (h : s.Canon M T) : (s.firmwareTrap wid).Canon M T :=
  .modWave (.update (h.latch.ite h.latch.sysSetBits) fun h => { h with })

theorem State.Canon.discardAtTrap {wid lanes item} (h : s.Canon M T) : (s.discardAtTrap wid lanes item).Canon M T :=
  .modIssuer (.discardVersions (h.withdraw.dropFlight.dropRecords.foldl fun _ _ h => h.modLane.ite h))

theorem State.Canon.doubleFault {wid w lanes pc a} (h : s.Canon M T) : (s.doubleFault wid w lanes pc a).Canon M T :=
  h.fatalRecord.killWave

theorem State.Canon.takeTrap {wid lanes pc t} (h : s.Canon M T) : (s.takeTrap wid lanes pc t).Canon M T := by
  unfold State.takeTrap
  split
  · exact h
  · refine .ite h.firmwareTrap (.ite h.doubleFault (.record (.ite (.discardAtTrap ?ended) ?ended)))
    exact h.foldl fun _ _ h => h.endWait

theorem State.Canon.discardFor {wid ts} (h : s.Canon M T) : (s.discardFor wid ts).Canon M T :=
  h.ite (h.foldl fun _ _ h => .ite (.discardAtTrap (h.foldl fun _ _ h => h.endWait)) h)

theorem State.Canon.raiseTraps {wid pc ts} (h : s.Canon M T) : (s.raiseTraps wid pc ts).Canon M T := by
  unfold State.raiseTraps
  refine h.discardFor.foldl fun _ _ h => ?_
  split
  · exact h
  · exact h.takeTrap

theorem State.Canon.settleDisc {item lane wid returned} (h : s.Canon M T) : (s.settleDisc item lane wid returned).Canon M T := by
  unfold State.settleDisc
  split
  · exact h
  · exact .ite (.ite (h.modIssuer.abortAll.ite (h.modIssuer.discardVersions.modIssuer.ite h.modIssuer.killWave)) h.modIssuer) h

theorem State.Canon.eretLane {wid lane} (h : s.Canon M T) : (s.eretLane wid lane).Canon M T := h.modLane.settleDisc.ite h.modLane

theorem State.Canon.close {wid len pc group} (h : d.s.Canon M T) : (Done.close d wid len pc group).Canon M T :=
  .raiseTraps (h.foldl fun _ _ h => h.advanceLane)

theorem State.Canon.noteIssue {wid g} (h : s.Canon M T) : (s.noteIssue wid g).Canon M T := h.modWave

theorem State.Canon.issued {c w i} (h : s.Canon M T) : (s.issued c w i).Canon M T := .noteIssue { h with }

/-- What an instruction does on its active lanes keeps the state canonical. -/
def CanonEff (eff : Eff) (M T : Prop) : Prop := ∀ s c w run, s.Canon M T → (eff s c w run).s.Canon M T

theorem State.Canon.runLanes {i eff} (h : s.Canon M T) (he : CanonEff eff M T) : CanonOut (runLanes i s eff) M T := by
  unfold Machine.runLanes
  split
  · exact .next h
  · split
    · exact .next { h with }
    · refine .ite (.next (.raiseTraps (.noteIssue { h with }))) (.next (.close ?_))
      dsimp only
      split
      · exact h.issued
      · exact he _ _ _ _ h.issued

theorem State.Canon.eachLane {desc f dst c w run} (h : s.Canon M T) : (eachLane desc f dst s c w run).s.Canon M T :=
  .raise (h.foldl fun _ _ h => h.putV)

theorem State.Canon.eachLater {desc f dst c w run} (h : s.Canon M T) : (eachLater desc f dst s c w run).s.Canon M T := h.later

theorem State.Canon.eachBit {f dst c w run} (h : s.Canon M T) : (eachBit f dst s c w run).s.Canon M T :=
  .raise (h.foldl fun _ _ h => h.putKBit)

theorem CanonEff.onceLane {f : State → Issue → Wave → Nat → State} (hf : ∀ s c w k, s.Canon M T → (f s c w k).Canon M T) :
    CanonEff (onceLane f) M T := by
  intro s c w run h
  cases run with
  | nil => exact h
  | cons k run => exact hf _ _ _ _ h

theorem State.Canon.fillBuffers {c i ws} (h : s.Canon M T) : (s.fillBuffers c i ws).Canon M T := .ite (h.foldl fun _ _ h => h.modLane) h

theorem State.Canon.fetchAt {c w level lanes} (h : s.Canon M T) : (s.fetchAt c w level lanes).s.Canon M T := by
  unfold State.fetchAt
  split
  · exact (h.fetchInstr.fst ‹_›).fillBuffers
  · exact (h.fetchInstr.fst ‹_›).raiseTraps
  · exact (h.fetchInstr.fst ‹_›).foldl fun _ _ h => h.waitLane
  · exact h.fetchInstr.fst ‹_›

theorem State.Canon.fetchIssue {c} (h : s.Canon M T) : (s.fetchIssue c).s.Canon M T := by
  unfold State.fetchIssue
  split
  · exact h
  · dsimp only
    split
    · exact h
    · exact h.fillBuffers
    · split
      · exact h.fetchAt
      · split
        · exact h.fetchAt
        · split
          · exact h.fetchAt
          · exact h.fetchAt.fetchAt

theorem State.Canon.carry {id wid lane js} (h : s.Canon M T) : (s.carry id wid lane js).Canon M T :=
  h.ite (.modLaneAny { h with ops := h.ops.map fun _ => rfl, tillMsgs := h.tillMsgs.map fun _ => rfl, cmds := h.cmds.map fun _ => rfl })

theorem State.Canon.observe {id o from_} (h : s.Canon M T) : (s.observe id o from_).Canon M T := by
  unfold State.observe
  dsimp only
  refine h.foldl fun _ _ h => ?_
  split
  · exact h
  · exact h.ite h.modLaneAny.carry

theorem State.Canon.reportMixed {o a} (h : s.Canon M T) : (s.reportMixed o a).Canon M T := h.postLaneless.ite h

theorem State.Canon.tear {id o} (h : s.Canon M T) : (s.tear id o).1.Canon M T := by
  unfold State.tear
  refine h.foldlFst fun m x h => ?_
  have k : (match look m.1.ops x.1 with | some t => m.1.reportMixed m.2 t | none => m.1).Canon M T := by
    split
    · exact h.reportMixed
    · exact h
  exact { k with ops := k.ops.modKey }

theorem State.Canon.tornBytes {o f} (h : s.Canon M T) : (s.tornBytes o f).1.Canon M T := by
  unfold State.tornBytes
  refine h.foldlFst fun _ _ h => ?_
  split
  split
  · exact { h with }
  · exact h

theorem State.Canon.keepAtomic {o} (h : s.Canon M T) : (s.keepAtomic o).Canon M T := h.withOp.ite h

theorem State.Canon.dropAccess {o} (h : s.Canon M T) : (s.dropAccess o).Canon M T := { h with ops := h.ops.filter }

theorem State.Canon.lateFault {o cause} (h : s.Canon M T) : (s.lateFault o cause).Canon M T :=
  h.dropAccess.modLaneAny.modLaneAny.ite h.dropAccess.modLaneAny.postLaneless

theorem State.Canon.trapHeld {o a} (h : s.Canon M T) : (s.trapHeld o a).Canon M T :=
  h.dropAccess.ite (.raiseTraps (h.dropAccess.foldl fun _ _ h => h.modLane))

theorem State.Canon.failHeld {o} (h : s.Canon M T) : (s.failHeld o).Canon M T := h.modLaneAny.modWave.trapHeld

theorem State.Canon.partFault {o cause} (h : s.Canon M T) : (s.partFault o cause).Canon M T := h.dropAccess.postLaneless

theorem State.Canon.refuse {o cause} (h : s.Canon M T) : (s.refuse o cause).Canon M T := h.partFault.ite (h.failHeld.ite h.lateFault)

theorem State.Canon.pageValue {o x} (h : s.Canon M T) : (s.pageValue o x).1.Canon M T := by
  unfold State.pageValue
  split
  · exact h.freeBits
  · exact h

theorem State.Canon.performRead {id o} (h : s.Canon M T) : (s.performRead id o).Canon M T := by
  have answer {m : State} {o} (h : m.Canon M T) : ({ m with ops := put m.ops id o } : State).Canon M T := { h with ops := h.ops.put }
  unfold State.performRead
  refine .ite (.ite h.tear.lateFault (answer ?_)) (answer h.tear.tornBytes.observe.pageValue)
  split
  · exact h.tear.tornBytes.observe.storeBytes.keepAtomic
  · exact h.tear.tornBytes.observe

theorem State.Canon.spoilPool {o} (h : s.Canon M T) : (s.spoilPool o).Canon M T := by
  unfold State.spoilPool
  refine h.foldl fun _ _ h => ?_
  split
  split
  · split
    · exact .storeBytes { h with }
    · exact h
  · exact h

theorem State.Canon.performStore {id o} (h : s.Canon M T) : (s.performStore id o).Canon M T :=
  h.tear.tornBytes.storeBytes.spoilPool.forget.endStore

theorem State.Canon.promote {id o level} (h : s.Canon M T) : (s.promote id o level).Canon M T :=
  h.performStore.ite { h with ops := h.ops.put }

theorem State.Canon.settleOps (h : s.Canon M T) : s.settleOps.Canon M T := by
  have k {f g} : ({ s with ops := s.ops.filter f, relAt := s.relAt.filter g } : State).Canon M T :=
    { h with ops := h.ops.filter, relAt := h.relAt.filter }
  exact .update (.settleShadow k) fun h => { h with waves := h.waves.map fun _ => rfl }

theorem State.Canon.fillRead {o} (h : s.Canon M T) : (s.fillRead o).Canon M T := by
  unfold State.fillRead
  dsimp only
  refine .settleOps ?_
  refine .foldl ?_ fun _ _ h => h.leave
  split
  · split
    · exact h.dropAccess.modLaneAny
    · exact h.dropAccess.modWave
    · exact h.dropAccess
    · exact h.dropAccess
  · refine .raise ?_
    split
    · exact h.dropAccess.modLaneAny
    · exact h.dropAccess.modWave
    · exact h.dropAccess
    · exact h.dropAccess

theorem State.Canon.sendAccess {id o} (h : s.Canon M T) : (s.sendAccess id o).Canon M T := by
  unfold State.sendAccess
  dsimp only
  split
  · exact .send (.lineUse { h with ops := h.ops.put })
  · exact .sendHost { h with ops := h.ops.put }
  · exact { h with ops := h.ops.put }
  · exact { h with ops := h.ops.put }
  · exact { h with ops := h.ops.put }

theorem State.Canon.sendAll {id o} (h : s.Canon M T) : (s.sendAll id o).Canon M T := h.foldl fun _ _ h => h.sendAccess

theorem State.Canon.writeBack {core line} (h : s.Canon M T) : (s.writeBack core line).Canon M T := by
  unfold State.writeBack
  dsimp only
  refine h.foldl fun _ _ h => ?_
  split
  · exact h.performStore
  · exact h

theorem State.Canon.laneOp {i f} (h : s.Canon M T) : CanonOut (laneOp i f s) M T := h.runLanes fun _ _ _ _ h => h.eachLane

theorem State.Canon.bitOp {i f} (h : s.Canon M T) : CanonOut (bitOp i f s) M T := h.runLanes fun _ _ _ _ h => h.eachBit

theorem State.Canon.waveOp {i f} (h : s.Canon M T) (hf : ∀ s c w k, s.Canon M T → (f i s c w k).Canon M T) :
    CanonOut (waveOp i f s) M T := h.runLanes (CanonEff.onceLane hf)

theorem State.Canon.selDone {i c w run} (h : s.Canon M T) : (selDone i s c w run).s.Canon M T := h.foldl fun _ _ h => h.putV

theorem State.Canon.fxMovW {i c w k} (h : s.Canon M T) : (fxMovW i s c w k).Canon M T := h.putW

theorem State.Canon.fxMovFws {i c w k} (h : s.Canon M T) : (fxMovFws i s c w k).Canon M T := h.putW

theorem State.Canon.fxMovTws {i c w k} (h : s.Canon M T) : (fxMovTws i s c w k).Canon M T := h.modWave

end

end Sys2Proof.Machine
end

/-! Global and scratchpad accesses -/
section
namespace Sys2Proof.Machine
open Sys2Proof Host

section
variable {s : State} {d : Done} {M T : Prop}

theorem State.Canon.checkPiece {w level n acc own va m} (h : s.Canon M T) : (s.checkPiece w level n acc own va m).1.Canon M T := by
  unfold State.checkPiece
  split
  · exact h
  · split
    · exact h.translateFor.fst ‹_›
    · exact h.translateFor.fst ‹_›
    · exact h.translateFor.fst ‹_›
    · dsimp only
      split <;> exact h.translateFor.fst ‹_›

theorem State.Canon.checkAll {w level n acc own xs} (h : s.Canon M T) : (s.checkAll w level n acc own xs).1.Canon M T := by
  induction xs generalizing s with
  | nil => exact h
  | cons x xs ih => exact ih h.checkPiece

theorem State.Canon.checkPieces {w level n acc ps} (h : s.Canon M T) : (s.checkPieces w level n acc ps).1.Canon M T := h.checkAll

theorem State.Canon.checkAccess {w level want va} (h : s.Canon M T) : (s.checkAccess w level want va).1.Canon M T := by
  unfold State.checkAccess
  split
  · exact h
  · exact h.checkAll

theorem State.Canon.awaitDst {o} (h : s.Canon M T) : (s.awaitDst o).Canon M T := by
  unfold State.awaitDst
  split
  · exact h.modLane
  · exact h.modWave
  · exact h
  · exact h

theorem State.Canon.withPieces {o want va ps} (h : s.Canon M T) : (s.withPieces o want va ps).Canon M T := h.foldl fun _ _ h => h.withOp

theorem State.Canon.startAccess {c w k instr want va len team ps} (h : s.Canon M T) :
    (s.startAccess c w k instr want va len team ps).1.Canon M T :=
  by
  unfold State.startAccess
  dsimp only
  split
  · exact h.withPieces.awaitDst.foldl fun _ _ h => h.waitLane
  · exact h.withPieces.awaitDst

theorem State.Canon.globalLane {i full instr c w k} (h : d.s.Canon M T) : (globalLane i full instr c w d k).s.Canon M T := by
  unfold Machine.globalLane
  dsimp only
  split
  · exact h.waitLane
  · split
    · exact h.checkAccess.fst ‹_›
    · exact (h.checkAccess.fst ‹_›).waitLane
    · exact (h.checkAccess.fst ‹_›).startAccess

theorem State.Canon.globalEff {i c w run} (h : s.Canon M T) : (globalEff i s c w run).s.Canon M T :=
  h.fresh.foldlDone fun _ _ h => h.globalLane

theorem State.Canon.globalOp {i} (h : s.Canon M T) : CanonOut (globalOp i s) M T := h.runLanes fun _ _ _ _ h => h.globalEff

theorem State.Canon.waveAccessEff {i c w run} (h : s.Canon M T) : (waveAccessEff i s c w run).s.Canon M T := by
  unfold Machine.waveAccessEff
  split
  · exact h
  · dsimp only
    split
    · exact h.foldl fun _ _ h => h.waitLane
    · split
      · exact h.fresh.checkAccess.fst ‹_›
      · exact (h.fresh.checkAccess.fst ‹_›).foldl fun _ _ h => h.waitLane
      · exact (h.fresh.checkAccess.fst ‹_›).startAccess

theorem State.Canon.waveAccessOp {i} (h : s.Canon M T) : CanonOut (waveAccessOp i s) M T := h.runLanes fun _ _ _ _ h => h.waveAccessEff

theorem State.Canon.fenceEff {kind scope c w run} (h : s.Canon M T) : (fenceEff kind scope s c w run).s.Canon M T :=
  h.ite (h.foldl fun _ _ h => h.addFence)

theorem State.Canon.fenceOp {i kind scope} (h : s.Canon M T) : CanonOut (fenceOp i kind scope s) M T :=
  h.runLanes fun _ _ _ _ h => h.fenceEff

theorem State.Canon.prefEff {i c w run} (h : s.Canon M T) : (prefEff i s c w run).s.Canon M T :=
  h.foldl fun _ _ h => h.ite h.translateFor

theorem State.Canon.prefOp {i} (h : s.Canon M T) : CanonOut (prefOp i s) M T := h.runLanes fun _ _ _ _ h => h.prefEff

theorem State.Canon.flushLane {i instr c w k} (h : d.s.Canon M T) : (flushLane i instr c w d k).s.Canon M T := by
  unfold Machine.flushLane
  dsimp only
  split
  · exact h.checkAccess.fst ‹_›
  · exact (h.checkAccess.fst ‹_›).waitLane
  · split
    · split
      · exact h.checkAccess.fst ‹_›
      · exact (h.checkAccess.fst ‹_›).withOp
    · exact h.checkAccess.fst ‹_›

theorem State.Canon.flushEff {i c w run} (h : s.Canon M T) : (flushEff i s c w run).s.Canon M T :=
  h.fresh.foldlDone fun _ _ h => h.flushLane

theorem State.Canon.flushOp {i} (h : s.Canon M T) : CanonOut (flushOp i s) M T := h.runLanes fun _ _ _ _ h => h.flushEff

theorem State.Canon.markRel {chain ms ks} (h : s.Canon M T) : (s.markRel chain ms ks).Canon M T :=
  { h with relAt := h.relAt.foldl fun _ _ h => h.del.ite h.put }

theorem State.Canon.takeRel {id o ks} (h : s.Canon M T) : (s.takeRel id o ks).Canon M T := h.modLaneAny.carry

theorem State.Canon.bankValue {id o x fl} (h : s.Canon M T) : (s.bankValue id o x fl).Canon M T :=
  .foldl { h with ops := h.ops.put } fun _ _ h => h.leave

theorem State.Canon.bankDone {id o} (h : s.Canon M T) : (s.bankDone id o).Canon M T :=
  .foldl { h with ops := h.ops.del } fun _ _ h => h.leave

theorem State.Canon.bankTear {id o} (h : s.Canon M T) : (s.bankTear id o).1.Canon M T :=
  h.foldlFst fun _ _ h => { h with ops := h.ops.modKey }

theorem State.Canon.fray {o x} (h : s.Canon M T) : (s.fray o x).1.Canon M T := h.foldlFst fun _ _ h => { h with }

theorem State.Canon.performBank {id o} (h : s.Canon M T) : (s.performBank id o).Canon M T := by
  have push {m : State} {b x} (h : m.Canon M T) : ({ m with fifo := put m.fifo b x } : State).Canon M T := { h with fifo := h.fifo.put }
  have pop {m : State} {b x k} (h : m.Canon M T) :
      ({ m with fifo := put m.fifo b x, relAt := del m.relAt k } : State).Canon M T := { h with
          fifo := h.fifo.put, relAt := h.relAt.del }
  unfold State.performBank
  have h := h.bankTear (id := id) (o := o)
  generalize s.bankTear id o = r at h ⊢
  obtain ⟨s, p⟩ := r
  have h := h.fray (o := p) (x := s.wordsNum o.keys)
  dsimp only at h ⊢
  generalize s.fray p (s.wordsNum o.keys) = r at h ⊢
  obtain ⟨s, old⟩ := r
  dsimp only at h ⊢
  split
  · exact h.takeRel.bankValue
  · exact h.takeRel.bankValue
  · exact h.takeRel.emptyWords.bankValue
  · exact h.fray.markRel.fillWords.bankDone
  · exact h.markRel.fillWords.bankDone
  · exact h.emptyWords.bankDone
  · exact h.markRel.fillWords.bankDone
  iterate 3
    · refine .bankValue ?_
      split
      · exact h.takeRel.fray.markRel.fillWords
      · exact h.takeRel
  · exact (push h.fresh).markRel.bankDone
  · split
    · exact (pop h.takeRel).bankValue
    · exact h
  · exact h
  · exact h

theorem State.Canon.serveIssue {id o} (h : s.Canon M T) : (s.serveIssue id o).Canon M T := by
  unfold State.serveIssue
  refine h.performBank.foldl fun _ _ h => ?_
  split
  split
  · exact h.performBank.ite h
  · exact h

theorem State.Canon.serveBanks {n} (h : s.Canon M T) : (State.serveBanks n s).Canon M T := by
  induction n generalizing s with
  | zero => exact h
  | succ n ih =>
    unfold State.serveBanks
    split
    · exact h
    · exact .ite (ih h.serveIssue) (ih h.trapHeld)

theorem State.Canon.passRow {wid lane key} (h : s.Canon M T) : (s.passRow wid lane key).Canon M T := h.modLane

theorem State.Canon.wakeRows (h : s.Canon M T) : (s.wakeRows).Canon M T := by
  unfold State.wakeRows
  refine h.foldl fun _ _ h => ?_
  split
  split
  · refine h.foldl fun _ _ h => ?_
    split
    · split
      · exact h.passRow.leave
      · split
        · exact h.takeTrap
        · exact h
    · exact h
  · exact h

theorem State.Canon.settleBanks (h : s.Canon M T) : (s.settleBanks).Canon M T := h.serveBanks.wakeRows.settleOps

theorem State.Canon.returned {id o} (h : s.Canon M T) : (s.returned id o).Canon M T := by
  unfold State.returned
  split
  · exact { h with ops := h.ops.put }
  · exact h.foldl fun _ _ h => h.dropHeld.modLane

theorem State.Canon.arriveAt {id o} (h : s.Canon M T) : (s.arriveAt id o).Canon M T :=
  h.returned.ite (.foldl { h with ops := h.ops.put } fun _ _ h => h.leave)

theorem State.Canon.startSpad {i c w k instr q a core off} (h : s.Canon M T) : (s.startSpad i c w k instr q a core off).1.Canon M T :=
  by
  unfold State.startSpad
  dsimp only
  split
  · exact h.withOp.awaitDst.waitLane
  · exact h.withOp.awaitDst

theorem State.Canon.spadLane {i instr c w k} (h : d.s.Canon M T) : (spadLane i instr c w d k).s.Canon M T := by
  unfold Machine.spadLane
  dsimp only
  split
  · exact h
  · exact h.waitLane
  · split
    · exact h.waitLane
    · exact h.startSpad

theorem State.Canon.spadEff {i c w run} (h : s.Canon M T) : (spadEff i s c w run).s.Canon M T :=
  h.fresh.foldlDone fun _ _ h => h.spadLane

theorem State.Canon.spadOp {i} (h : s.Canon M T) : CanonOut (spadOp i s) M T := h.runLanes fun _ _ _ _ h => h.spadEff

theorem State.Canon.rbwaitLane {i c w k} (h : d.s.Canon M T) : (rbwaitLane i c w d k).s.Canon M T := by
  unfold Machine.rbwaitLane
  dsimp only
  split
  · exact h
  · exact h.waitLane
  · split
    · exact h.waitLane
    · split
      · exact h.passRow
      · split
        · exact h
        · exact h.waitLane

theorem State.Canon.rbwaitEff {i c w run} (h : s.Canon M T) : (rbwaitEff i s c w run).s.Canon M T :=
  h.foldlDone fun _ _ h => h.rbwaitLane

theorem State.Canon.rbwaitOp {i} (h : s.Canon M T) : CanonOut (rbwaitOp i s) M T := h.runLanes fun _ _ _ _ h => h.rbwaitEff

end

end Sys2Proof.Machine
end

/-! Allowances and tills -/
section
namespace Sys2Proof.Machine
open Sys2Proof Host

section
variable {s : State} {d : Done} {M T : Prop}

theorem State.Canon.modTill {line f} (h : s.Canon M T) : (s.modTill line f).Canon M T := { h with tills := h.tills.modKey }

theorem State.Canon.returnAllowance {core line} (h : s.Canon M T) : (s.returnAllowance core line).Canon M T := h.modCore.modTill

theorem State.Canon.setAllowance {core line n} (h : s.Canon M T) : (s.setAllowance core line n).Canon M T := by
  unfold State.setAllowance
  dsimp only
  refine .modCore ?_
  refine .fresh ?_
  split
  · exact h
  · split
    · exact h.returnAllowance
    · exact h

theorem State.Canon.writeImage {line total limit stks} (h : s.Canon M T) : (s.writeImage line total limit stks).Canon M T :=
  h.storeBytes

theorem State.Canon.recallLine {line} (h : s.Canon M T) : (s.recallLine line).Canon M T := by
  unfold State.recallLine
  dsimp only
  refine h.foldl fun _ _ h => ?_
  split
  · exact h.performStore
  · exact h

theorem State.Canon.grant {line core n q} (h : s.Canon M T) : (s.grant line core n q).Canon M T := by
  unfold State.grant
  split
  · exact h
  · exact h.modTill.setAllowance

theorem State.Canon.tillLinks {wid core lane line} (h : s.Canon M T) : (s.tillLinks wid core lane line).Canon M T := h.modLaneAny

theorem State.Canon.markTill {m} (h : s.Canon M T) : (s.markTill m).Canon M T := h.modTill

theorem State.Canon.endTill {id m status} (h : s.Canon M T) : (s.endTill id m status).Canon M T := by
  unfold State.endTill
  dsimp only
  split
  · refine .leave ?_
    split
    · exact .putV { h with tillMsgs := h.tillMsgs.del }
    · exact { h with tillMsgs := h.tillMsgs.del }
  · exact { h with tillMsgs := h.tillMsgs.del }

theorem State.Canon.trapTill {id m kind} (h : s.Canon M T) : (s.trapTill id m kind).Canon M T :=
  .ite (.takeTrap { h with tillMsgs := h.tillMsgs.del }) { h with tillMsgs := h.tillMsgs.del }

theorem State.Canon.serveQueue {n line} (h : s.Canon M T) : (State.serveQueue n s line).Canon M T := by
  induction n generalizing s with
  | zero => exact h
  | succ n ih =>
    unfold State.serveQueue
    split
    · exact h
    · split
      · exact h
      · refine h.ite (ih ?_)
        split
        · exact h.grant.modTill.tillLinks.endTill
        · exact h.grant.modTill

theorem State.Canon.serveAll {line} (h : s.Canon M T) : (s.serveAll line).Canon M T := by
  unfold State.serveAll
  split
  · exact h.serveQueue
  · exact h

theorem State.Canon.fillStock {id m total} (h : s.Canon M T) : (s.fillStock id m total).Canon M T :=
  { h with fills := h.fills.ite h.fills.put, tillMsgs := h.tillMsgs.del }

theorem State.Canon.afterStock {line} (h : s.Canon M T) : (s.afterStock line).Canon M T := by
  have drop {m : State} (h : m.Canon M T) : ({ m with tills := del m.tills line } : State).Canon M T := { h with tills := h.tills.del }
  unfold State.afterStock
  split
  · exact h
  · dsimp only
    split
    · exact h.serveAll
    · split
      · exact h.serveAll
      · exact h.grant.tillLinks.endTill.modTill.ite h.endTill.modTill
      · exact h.trapTill.modTill.ite h.modTill.markTill.endTill.modTill
      · exact h.tillLinks.fillStock
      · refine .ite (.endTill (.writeImage (drop ?served))) (.endTill (.markTill (.writeImage (.modTill ?served))))
        refine h.foldl fun _ _ h => ?_
        split
        · exact h.endTill
        · exact h

theorem State.Canon.finishStock {line} (h : s.Canon M T) : (s.finishStock line).Canon M T := by
  unfold State.finishStock
  split
  · exact h
  · exact h.modTill.writeImage.afterStock

theorem State.Canon.startStock {line cause} (h : s.Canon M T) : (s.startStock line cause).Canon M T := by
  unfold State.startStock
  split
  · exact h.modTill.finishStock
  · exact h.modTill

theorem State.Canon.completeStock {line} (h : s.Canon M T) : (s.completeStock line).Canon M T := by
  unfold State.completeStock
  split
  · split
    · exact .finishStock (h.foldl fun _ _ h => h.returnAllowance)
    · exact h
  · exact h

theorem State.Canon.stockNow {line} (h : s.Canon M T) : (s.stockNow line).Canon M T :=
  .finishStock (h.completeStock.modTill.foldl fun _ _ h => h.returnAllowance)

theorem State.Canon.tryNow {line core n} (h : s.Canon M T) : (s.tryNow line core n).1.Canon M T := by
  unfold State.tryNow
  split
  · exact h
  · split
    · exact h
    · split
      · exact h.setAllowance
      · dsimp only
        split
        · split
          · exact .grant (.modTill (h.completeStock.returnAllowance.stockNow.ite h.completeStock.returnAllowance))
          · exact .modTill (h.completeStock.returnAllowance.stockNow.ite h.completeStock.returnAllowance)
        · exact h.completeStock.returnAllowance.stockNow.ite h.completeStock.returnAllowance

theorem State.Canon.createCounter {line total vi} (h : s.Canon M T) : (s.createCounter line total vi).Canon M T :=
  .writeImage (have h := h.recallLine; { h with tills := h.tills.put })

theorem State.Canon.endCounter {line} (h : s.Canon M T) : (s.endCounter line).Canon M T := by
  have serve {f} : ({ s with tillMsgs := s.tillMsgs.filter f } : State).Canon M T := { h with tillMsgs := h.tillMsgs.filter }
  have drop {m : State} (h : m.Canon M T) : ({ m with tills := del m.tills line } : State).Canon M T := { h with tills := h.tills.del }
  unfold State.endCounter
  split
  · exact h
  · dsimp only
    split
    · exact (drop serve.modTill.stockNow).writeImage
    · exact serve.modTill.stockNow

theorem State.Canon.spend {m} (h : s.Canon M T) : (s.spend m).Canon M T := h.ite h.setAllowance

theorem State.Canon.sendTill {m} (h : s.Canon M T) : (s.sendTill m).Canon M T := by
  unfold State.sendTill
  cases m.act with
  | take | tryTake => exact have h := h.returnAllowance; { h with tillMsgs := h.tillMsgs.put }
  | give | acinit | stock => exact { h with tillMsgs := h.tillMsgs.put }

theorem State.Canon.tillLane {i instr c w k va line d1} (h : s.Canon M T) : (s.tillLane i instr c w k va line d1).s.Canon M T := by
  unfold State.tillLane
  dsimp only
  split
  · exact h
  · split
    · exact h.waitLane
    · exact .modLane (h.sendTill.ite h.spend)

theorem State.Canon.tillStep {i instr c w k} (h : d.s.Canon M T) : (tillStep i instr c w d k).s.Canon M T := by
  unfold Machine.tillStep
  dsimp only
  split
  · exact h
  · split
    · exact h.checkPieces.fst ‹_›
    · exact (h.checkPieces.fst ‹_›).waitLane
    · split
      · split
        · exact h.checkPieces.fst ‹_›
        · exact (h.checkPieces.fst ‹_›).tillLane
      · exact h.checkPieces.fst ‹_›

theorem State.Canon.tillEff {i c w run} (h : s.Canon M T) : (tillEff i s c w run).s.Canon M T :=
  h.fresh.foldlDone fun _ _ h => h.tillStep

theorem State.Canon.tillOp {i} (h : s.Canon M T) : CanonOut (tillOp i s) M T := h.runLanes fun _ _ _ _ h => h.tillEff

theorem State.Canon.examine {line} (h : s.Canon M T) : (s.examine line).Canon M T := by
  unfold State.examine
  split
  · split
    · exact h.startStock.ite h.serveAll
    · exact h
  · exact h

theorem State.Canon.queueTake {id m} (h : s.Canon M T) : (s.queueTake id m).Canon M T := .modTill { h with tillMsgs := h.tillMsgs.put }

end

end Sys2Proof.Machine
end

/-! Exchange between lanes, control and barriers -/
section
namespace Sys2Proof.Machine
open Sys2Proof Host

section
variable {s : State} {d : Done} {M T : Prop}

theorem State.Canon.laterOp {i f} (h : s.Canon M T) : CanonOut (laterOp i f s) M T := h.runLanes fun _ _ _ _ h => h.eachLater

theorem State.Canon.shuffleEff {i c w run} (h : s.Canon M T) : (shuffleEff i s c w run).s.Canon M T := h.later

theorem State.Canon.shuffleOp {i} (h : s.Canon M T) : CanonOut (shuffleOp i s) M T := h.runLanes fun _ _ _ _ h => h.shuffleEff

theorem State.Canon.gatherEff {i f late c w run} (h : s.Canon M T) : (gatherEff i f late s c w run).s.Canon M T := h.laterW.ite h.putW

theorem State.Canon.gatherOp {i f late} (h : s.Canon M T) : CanonOut (gatherOp i f late s) M T :=
  h.runLanes fun _ _ _ _ h => h.gatherEff

theorem State.Canon.fxKsetW {i c w k} (h : s.Canon M T) : (fxKsetW i s c w k).Canon M T := h.putK

theorem State.Canon.fxKop {op i c w k} (h : s.Canon M T) : (fxKop op i s c w k).Canon M T := h.putK

theorem State.Canon.fxKmov {toW i c w k} (h : s.Canon M T) : (fxKmov toW i s c w k).Canon M T := h.putW.ite h.putK

theorem State.Canon.fxKpopc {i c w k} (h : s.Canon M T) : (fxKpopc i s c w k).Canon M T := h.putW

theorem State.Canon.scanEff {op ty i c w run} (h : s.Canon M T) : (scanEff op ty i s c w run).s.Canon M T := h.later

theorem State.Canon.scanOp {op ty i} (h : s.Canon M T) : CanonOut (scanOp op ty i s) M T := h.runLanes fun _ _ _ _ h => h.scanEff

theorem State.Canon.branchLane {go f w k} (h : d.s.Canon M T) (hf : ∀ {s k t}, s.Canon M T → (f s k t).Canon M T) :
    (branchLane go f w d k).s.Canon M T := by
  unfold Machine.branchLane
  split
  · exact h
  · split
    · exact h
    · exact hf h

theorem State.Canon.branchDone {go f c w run} (h : s.Canon M T) (hf : ∀ {s k t}, s.Canon M T → (f s k t).Canon M T) :
    (branchDone go f s c w run).s.Canon M T := .foldlDone (d := ⟨s, [], []⟩) h fun _ _ h => h.branchLane hf

theorem State.Canon.branchEff {go c w run} (h : s.Canon M T) : (branchEff go s c w run).s.Canon M T := h.branchDone (·.jumpLane)

theorem State.Canon.branchOp {i go} (h : s.Canon M T) : CanonOut (branchOp i go s) M T := h.runLanes fun _ _ _ _ h => h.branchEff

theorem State.Canon.goLane {wid k a} (h : s.Canon M T) : (s.goLane wid k a).Canon M T := h.modLane

theorem State.Canon.callEff {i go c w run} (h : s.Canon M T) : (callEff i go s c w run).s.Canon M T := h.branchDone (c :=
  c) (·.putV.goLane)

theorem State.Canon.callOp {i go} (h : s.Canon M T) : CanonOut (callOp i go s) M T := h.runLanes fun _ _ _ _ h => h.callEff

theorem State.Canon.retEff {c w run} (h : s.Canon M T) : (retEff s c w run).s.Canon M T := h.branchDone (c := c) (·.goLane)

theorem State.Canon.retOp {i} (h : s.Canon M T) : CanonOut (retOp i s) M T := h.runLanes fun _ _ _ _ h => h.retEff

theorem State.Canon.loopLane {c w len e level k count} (h : d.s.Canon M T) : (loopLane c w len e level d k count).s.Canon M T := by
  unfold Machine.loopLane
  dsimp only
  split
  · split
    · exact h.fetchWord.fst ‹_›
    · exact (h.fetchWord.fst ‹_›).waitLane
    · split
      · exact h.fetchWord.fst ‹_›
      · exact ((h.fetchWord.fst ‹_›).modLane).jumpLane
  · exact h.modLane

theorem State.Canon.loopEff {i count c w run} (h : s.Canon M T) : (loopEff i count s c w run).s.Canon M T :=
  h.foldlDone fun _ _ h => h.loopLane

theorem State.Canon.loopOp {i count} (h : s.Canon M T) : CanonOut (loopOp i count s) M T := h.runLanes fun _ _ _ _ h => h.loopEff

theorem State.Canon.arrive {wid len b k} (h : s.Canon M T) : (s.arrive wid len b k).Canon M T := by
  unfold State.arrive
  split <;> exact .waitLane { h with barriers := h.barriers.put }

theorem State.Canon.barEff {i c w run} (h : s.Canon M T) : (barEff i s c w run).s.Canon M T :=
  .settleBarriers (h.foldl fun _ _ h => h.modLane.ite h.arrive)

theorem State.Canon.barOp {i} (h : s.Canon M T) : CanonOut (barOp i s) M T := h.runLanes fun _ _ _ _ h => h.barEff

theorem State.Canon.sleepEff {i target c w run} (h : s.Canon M T) : (sleepEff i target s c w run).s.Canon M T :=
  h.foldl fun _ _ h => h.waitLane

theorem State.Canon.sleepOp {i target} (h : s.Canon M T) : CanonOut (sleepOp i target s) M T := h.runLanes fun _ _ _ _ h => h.sleepEff

theorem State.Canon.waitFullLane {i c w k} (h : d.s.Canon M T) : (waitFullLane i c w d k).s.Canon M T := by
  unfold Machine.waitFullLane
  dsimp only
  split
  · exact h
  · split
    · exact h
    · split
      · exact h
      · exact h.waitLane

theorem State.Canon.waitEmptyLane {i c w k} (h : d.s.Canon M T) : (waitEmptyLane i c w d k).s.Canon M T := by
  unfold Machine.waitEmptyLane
  dsimp only
  split
  · exact h
  · split
    · exact h
    · exact h.waitLane

theorem State.Canon.waitEff {i f c w run} (h : s.Canon M T) (hf : ∀ {d k}, d.s.Canon M T → (f i c w d k).s.Canon M T) :
    (waitEff i f s c w run).s.Canon M T := .foldlDone (d := ⟨s, [], []⟩) h fun _ _ h => hf h

theorem State.Canon.waitOp {i f} (h : s.Canon M T) (hf : ∀ {c w d k}, d.s.Canon M T → (f i c w d k).s.Canon M T) :
    CanonOut (waitOp i f s) M T := h.runLanes fun _ _ _ _ h => h.waitEff hf

theorem State.Canon.trapEff {i c w run} (h : s.Canon M T) : (trapEff i s c w run).s.Canon M T := h

theorem State.Canon.trapOp {i} (h : s.Canon M T) : CanonOut (trapOp i s) M T := h.runLanes fun _ _ _ _ h => h.trapEff

theorem State.Canon.endEff {i c w run} (h : s.Canon M T) : (endEff i s c w run).s.Canon M T := h.foldl fun _ _ h => h.settleDisc.endLane

theorem State.Canon.endOp {i} (h : s.Canon M T) : CanonOut (endOp i s) M T := h.runLanes fun _ _ _ _ h => h.endEff

theorem State.Canon.yieldEff {c w run} (h : s.Canon M T) : (yieldEff s c w run).s.Canon M T := h.foldl fun _ _ h => h.safePoint

theorem State.Canon.yieldOp {i} (h : s.Canon M T) : CanonOut (yieldOp i s) M T := h.runLanes fun _ _ _ _ h => h.yieldEff

theorem State.Canon.cmtWaitEff {i c w run} (h : s.Canon M T) : (cmtWaitEff i s c w run).s.Canon M T := h.foldl fun _ _ h => h.waitLane

theorem State.Canon.cmtWaitOp {i} (h : s.Canon M T) : CanonOut (cmtWaitOp i s) M T := h.runLanes fun _ _ _ _ h => h.cmtWaitEff

theorem State.Canon.tokenCopy {core vi} (h : s.Canon M T) : (s.tokenCopy core vi).Canon M T := by
  unfold State.tokenCopy
  split
  split
  · exact (h.choose.snd ‹_›).ite ((h.choose.snd ‹_›).modCore)
  · exact h.choose.snd ‹_›

theorem State.Canon.cmtPosEff {i c w run} (h : s.Canon M T) : (cmtPosEff i s c w run).s.Canon M T :=
  h.tokenCopy.foldl fun _ _ h => h.putV

theorem State.Canon.cmtPosOp {i} (h : s.Canon M T) : CanonOut (cmtPosOp i s) M T := h.runLanes fun _ _ _ _ h => h.cmtPosEff

theorem State.Canon.askSpawn {c w len asks} (h : s.Canon M T) : (s.askSpawn c w len asks).Canon M T := by
  unfold State.askSpawn
  refine .foldl ?_ fun _ _ h => h.waitLane
  split <;> exact { h with spawns := h.spawns.put }

theorem State.Canon.spawnEff {i c w run} (h : s.Canon M T) : (spawnEff i s c w run).s.Canon M T := by
  unfold Machine.spawnEff
  dsimp only
  split
  · split
    · exact h
    · exact h.askSpawn
  · exact h.foldl fun _ _ h => h.putV

theorem State.Canon.spawnOp {i} (h : s.Canon M T) : CanonOut (spawnOp i s) M T := h.runLanes fun _ _ _ _ h => h.spawnEff

end

end Sys2Proof.Machine
end

/-! D pages and the copy engine -/
section
namespace Sys2Proof.Machine
open Sys2Proof Host

section
variable {s : State} {d : Done} {M T : Prop}

theorem State.Canon.noteRead {id pa n} (h : s.Canon M T) : (s.noteRead id pa n).Canon M T := .ite { h with } h

theorem State.Canon.dWrite {id pa bs} (h : s.Canon M T) : (s.dWrite id pa bs).Canon M T :=
  .ite (.ite { h with } (.abortAll (.countSlice { h with }))) h.storeBytes

theorem State.Canon.performD {id o} (h : s.Canon M T) : (s.performD id o).Canon M T := by
  unfold State.performD
  have h := h.tear (id := id) (o := o)
  generalize s.tear id o = r at h ⊢
  obtain ⟨s, o⟩ := r
  have observe {f src} (h : s.Canon M T) : (((s.tornBytes o f).1.noteRead o.item o.pa o.size).observe id o src).Canon M T :=
    h.tornBytes.noteRead.observe
  have answer {t : State} {o} (h : t.Canon M T) : ({ t with ops := put t.ops id o } : State).Canon M T :=
    { h with ops := h.ops.put }
  dsimp only at h ⊢
  split
  · exact h.tornBytes.forget.endStore.dWrite
  · exact answer (observe h).pageValue
  · split
    · exact (answer (observe h)).keepAtomic.dWrite
    · exact answer (observe h)
  · split
    · exact (answer (observe h)).keepAtomic.dWrite
    · exact answer (observe h)
  · split
    · exact (answer (observe h)).keepAtomic.dWrite
    · exact answer (observe h)
  all_goals exact h

theorem State.Canon.wakeCommit (h : s.Canon M T) : (s.wakeCommit).Canon M T := by
  unfold State.wakeCommit
  refine h.foldl fun _ _ h => ?_
  refine h.foldl fun _ _ h => ?_
  split
  · exact h.leave.ite h
  · exact h

theorem State.Canon.commitVersions {id} (h : s.Canon M T) : (s.commitVersions id).Canon M T :=
  .dropVersions (h.foldl fun _ _ h => h.foldl fun _ _ h => h.storeBytes)

theorem State.Canon.commitIssuer {vi id} (h : s.Canon M T) : (s.commitIssuer vi id).Canon M T :=
  .settleOps (.wakeCommit (.pruneDone (.modIssuer (h.commitVersions.foldl fun _ _ h => h.countSlice))))

theorem State.Canon.outerNum {pa n} (h : s.Canon M T) : (s.outerNum pa n).1.Canon M T := by
  unfold State.outerNum
  split
  · exact h
  · exact { h with }

theorem State.Canon.outerWrite {pa bs} (h : s.Canon M T) : (s.outerWrite pa bs).Canon M T :=
  h.storeBytes.ite (.ite (.storeBytes { h with }) (.storeBytes (.foldl { h with } fun _ _ h => h.performStore)))

theorem State.Canon.serveOuter {h1} (h : s.Canon M T) : (s.serveOuter h1).Canon M T := by
  unfold State.serveOuter
  dsimp only
  split
  · split
    · exact h.ite (h.ite h.send)
    · split
      · exact h.outerNum.ite h.outerNum.send
      · exact h.outerWrite.ite h.outerWrite.send
      · exact h.outerNum.outerWrite.ite h.outerNum.outerWrite.send
      · split
        · split
          · exact h.outerNum.outerWrite
          · exact h.outerNum
        · refine .send ?_
          split
          · exact h.outerNum.outerWrite
          · exact h.outerNum
      · split
        · split
          · exact h.outerNum.outerWrite
          · exact h.outerNum
        · refine .send ?_
          split
          · exact h.outerNum.outerWrite
          · exact h.outerNum
  · split
    · exact h.ite (h.ite h.send)
    · split
      · exact h.outerNum.ite h.outerNum.send
      · exact h.outerWrite.ite h.outerWrite.send
      · exact h.outerNum.outerWrite.ite h.outerNum.outerWrite.send
      · split
        · split
          · exact h.outerNum.outerWrite
          · exact h.outerNum
        · refine .send ?_
          split
          · exact h.outerNum.outerWrite
          · exact h.outerNum
      · split
        · split
          · exact h.outerNum.outerWrite
          · exact h.outerNum
        · refine .send ?_
          split
          · exact h.outerNum.outerWrite
          · exact h.outerNum

theorem State.Canon.takeOuter {h1} (h : s.Canon M T) : (s.takeOuter h1).Canon M T :=
  .ite (.settleOps (.serveOuter { h with })) { h with held := h.held.put }

theorem State.Canon.engXlat {c va acc} (h : s.Canon M T) : (s.engXlat c va acc).1.Canon M T := by
  unfold State.engXlat
  split
  · exact h
  · split
    · exact h
    · split
      · exact h.translate.fst ‹_›
      · exact h.translate

theorem State.Canon.unitBytes {vi pa n own} (h : s.Canon M T) : (s.unitBytes vi pa n own).1.Canon M T := by
  unfold State.unitBytes
  split
  · exact h.sendHost.freeBits
  · exact h

theorem State.Canon.unitWrite {vi pa bs} (h : s.Canon M T) : (s.unitWrite vi pa bs).Canon M T := h.sendHost.ite h.storeBytes

theorem State.Canon.segBytes {c own gs} (h : s.Canon M T) : (s.segBytes c own gs).1.Canon M T := by
  unfold State.segBytes
  refine h.foldlFst fun _ _ h => ?_
  dsimp only
  split
  · exact h.noteRead
  · exact h.unitBytes

theorem State.Canon.heldBy {t : State} (h : s.Canon M T) (k : t.Canon M T) : (s.heldBy t).Canon M T := { h with transit := k.transit }

theorem State.Canon.engNow {c va acc} (h : s.Canon M T) : (s.engNow c va acc).1.Canon M T := by
  unfold State.engNow
  split <;> exact h.engXlat.fst ‹_›

theorem State.Canon.segsOf {c acc xs} (h : s.Canon M T) : (s.segsOf c acc xs).1.Canon M T := by
  induction xs generalizing s with
  | nil => exact h
  | cons x xs ih =>
    unfold State.segsOf
    split
    · exact h.engXlat.fst ‹_›
    · exact h.engXlat.fst ‹_›
    · split
      · exact (ih (h.engXlat.fst ‹_›)).fst ‹_›
      · exact ih (h.engXlat.fst ‹_›)

theorem State.Canon.segsNow {c acc xs} (h : s.Canon M T) : (s.segsNow c acc xs).1.Canon M T := by
  induction xs generalizing s with
  | nil => exact h
  | cons x xs ih =>
    unfold State.segsNow
    split
    · exact h.engNow.fst ‹_›
    · split
      · exact (ih (h.engNow.fst ‹_›)).fst ‹_›
      · exact ih (h.engNow.fst ‹_›)

theorem State.Canon.checkIndex {c} (h : s.Canon M T) : (s.checkIndex c).1.Canon M T := by
  unfold State.checkIndex
  split
  · split
    · exact h
    · split <;> exact h.engXlat.fst ‹_›
  · exact h
  · exact h
  · exact h
  · exact h
  · exact h

theorem State.Canon.ownRows {c frag xs} (h : s.Canon M T) : (s.ownRows c frag xs).1.Canon M T := by
  induction xs generalizing s with
  | nil => exact h
  | cons x xs ih =>
    unfold State.ownRows
    split
    · exact h.segsOf.fst ‹_›
    · exact h.segsOf.fst ‹_›
    · split
      · exact h.segsOf.fst ‹_›
      · split
        · exact (ih (h.segsOf.fst ‹_›)).fst ‹_›
        · exact ih (h.segsOf.fst ‹_›)

theorem State.Canon.checkPlain {c frag va} (h : s.Canon M T) : (s.checkPlain c frag va).1.Canon M T := by
  unfold State.checkPlain
  split <;> exact h.engXlat.fst ‹_›

theorem State.Canon.checkFlag {c frag} (h : s.Canon M T) : (s.checkFlag c frag).1.Canon M T := by
  unfold State.checkFlag
  split
  · exact (h.checkPlain.fst ‹_›).checkPlain
  · exact h.checkPlain

theorem State.Canon.recallOwned {c} (h : s.Canon M T) : (s.recallOwned c).Canon M T := by
  unfold State.recallOwned
  dsimp only
  refine h.foldl fun _ _ h => ?_
  split
  · exact h.performStore
  · exact h

theorem State.Canon.postedOf {x} (h : s.Canon M T) : (postedOf s x).1.Canon M T := by
  unfold Machine.postedOf
  split <;> exact h

theorem State.Canon.postOwned {c frag} (h : s.Canon M T) : (s.postOwned c frag).1.Canon M T := by
  unfold State.postOwned
  split
  · exact (h.ownRows.fst ‹_›).postedOf
  · dsimp only
    split
    · split
      · exact (((h.ownRows.fst ‹_›).checkFlag).fst ‹_›).postedOf
      · exact ((h.ownRows.fst ‹_›).checkFlag).fst ‹_›
    · exact h.ownRows.fst ‹_›

theorem State.Canon.postBlock {c frag} (h : s.Canon M T) : (s.postBlock c frag).1.Canon M T := by
  unfold State.postBlock
  split
  · exact h
  · split
    · exact h.postedOf
    · dsimp only
      split
      · exact h
      · split
        · exact (h.checkIndex.fst ‹_›).postedOf
        · exact (h.checkIndex.fst ‹_›).postOwned

theorem State.Canon.readList {c} (h : s.Canon M T) : (s.readList c).1.Canon M T := by
  unfold State.readList
  dsimp only
  split
  · exact h.segsOf.fst ‹_›
  · exact h.segsOf.fst ‹_›
  · split
    · exact h.segsOf.fst ‹_›
    · split
      · exact h.segsOf.fst ‹_›
      · split <;> exact (h.segsOf.fst ‹_›).segBytes

theorem State.Canon.postGlobal {p c frag} (h : s.Canon M T) : (s.postGlobal p c frag).1.Canon M T := by
  unfold State.postGlobal
  split
  · exact h.engXlat.fst ‹_›
  · exact h.engXlat.fst ‹_›
  · split
    · exact h.engXlat.fst ‹_›
    · split
      · exact h.engXlat.fst ‹_›
      · split
        dsimp only
        split
        · exact ((h.engXlat.fst ‹_›).unitBytes).fst ‹_›
        · split
          · exact ((h.engXlat.fst ‹_›).unitBytes).fst ‹_›
          · split
            · exact (((((h.engXlat.fst ‹_›).unitBytes).fst ‹_›).readList).fst ‹_›).postedOf
            · exact (((((h.engXlat.fst ‹_›).unitBytes).fst ‹_›).readList).fst ‹_›).postBlock

theorem State.Canon.postLocal {p c frag} (h : s.Canon M T) : (s.postLocal p c frag).1.Canon M T := by
  unfold State.postLocal
  dsimp only
  split
  · exact h.postedOf
  · split
    · exact h
    · split
      · exact h
      · exact h.postBlock

theorem State.Canon.tryPost {p w} (h : s.Canon M T) : (s.tryPost p w).1.Canon M T := by
  unfold State.tryPost
  dsimp only
  split
  · exact h
  · split
    · exact h.postGlobal
    · exact h.postLocal

theorem State.Canon.enqueue {id c} (h : s.Canon M T) : (s.enqueue id c).Canon M T :=
  h.ite (.settlePromises (.leave { h with cmds := h.cmds.put, promises := h.promises.modKey }))

theorem State.Canon.takeCommand {c} (h : s.Canon M T) : (s.takeCommand c).Canon M T := by
  refine .enqueue (.modLane (.ite ?fenced (.foldl ?fenced fun _ _ h => h.emptyWords)))
  refine .ite (.addFence ?recalled) ?recalled
  exact .recallOwned { h with cmds := h.cmds.put, postings := h.postings.filter }

theorem State.Canon.attempt {p} (h : s.Canon M T) : (s.attempt p).1.Canon M T := by
  unfold State.attempt
  split
  · exact h
  · dsimp only
    split
    · exact h
    · split
      · exact h.tryPost.fst ‹_›
      · exact h.tryPost.fst ‹_›
      · exact (h.tryPost.fst ‹_›).takeCommand

theorem State.Canon.retryPostings {core} (h : s.Canon M T) : (s.retryPostings core).Canon M T := by
  unfold State.retryPostings
  dsimp only
  refine .foldl ?_ fun _ _ h => ?_
  · refine h.foldl fun _ _ h => ?_
    split
    · exact h.enqueue.ite h
    · exact h
  · split
    · exact h
    · split
      · exact h
      · split
        · exact h.attempt.fst ‹_›
        · exact (h.attempt.fst ‹_›).raiseTraps

theorem State.Canon.openGroup {i c w run} (h : s.Canon M T) : (s.openGroup i c w run).Canon M T := by
  unfold State.openGroup
  refine .foldl ?_ fun _ _ h => h.waitLane
  split
  · exact .modWave { h with promises := h.promises.put }
  · exact { h with promises := h.promises.put }

theorem State.Canon.withPosting {p} (h : s.Canon M T) : (s.withPosting p).Canon M T := { h with postings := h.postings.put }

theorem State.Canon.postLane {i c w group k} (h : d.s.Canon M T) : (postLane i c w group d k).s.Canon M T := by
  unfold Machine.postLane
  dsimp only
  split <;> exact h.withPosting.attempt.fst ‹_›

theorem State.Canon.postEff {i c w run} (h : s.Canon M T) : (postEff i s c w run).s.Canon M T :=
  h.openGroup.foldlDone fun _ _ h => h.postLane

theorem State.Canon.postOp {i} (h : s.Canon M T) : CanonOut (postOp i s) M T := h.runLanes fun _ _ _ _ h => h.postEff

theorem State.Canon.engineTrap {id c a} (h : s.Canon M T) : (s.engineTrap id c a).Canon M T := h.modLaneAny.ite h.postLaneless

theorem State.Canon.engineFault {id c cause faddr} (h : s.Canon M T) : (s.engineFault id c cause faddr).Canon M T :=
  .ite (.settleOps { h with cmds := h.cmds.del }) (.settleOps (.engineTrap (.modLaneAny { h with cmds := h.cmds.del })))

theorem State.Canon.writeSegs {c gs bs} (h : s.Canon M T) : (s.writeSegs c gs bs).Canon M T :=
  h.foldl fun _ _ h => h.dWrite.ite h.unitWrite.forget

theorem State.Canon.engRead {id c va n} (h : s.Canon M T) : (s.engRead id c va n).1.Canon M T := by
  unfold State.engRead
  split
  · exact h.engXlat.fst ‹_›
  · exact h.engXlat.fst ‹_›
  · rename_i heq
    have h := h.engXlat.fst heq
    split
    · exact h
    · split
      · exact h
      · split
        · exact h.noteRead
        · exact h.unitBytes

theorem State.Canon.bumpRow {c n} (h : s.Canon M T) : (s.bumpRow c n).Canon M T := by
  unfold State.bumpRow
  split
  · exact h.setSpad
  · exact h

theorem State.Canon.landRow {id c j} (h : s.Canon M T) : (s.landRow id c j).Canon M T :=
  .settleBanks (have h := h.bumpRow; { h with cmds := h.cmds.del.ite h.cmds.put })

theorem State.Canon.stepRow {id c j n} (h : s.Canon M T) : (s.stepRow id c j n).Canon M T :=
  h.landRow.ite (.settleBanks { h with cmds := h.cmds.put })

theorem State.Canon.keepWord {id c x} (h : s.Canon M T) : (s.keepWord id c x).Canon M T := { h with cmds := h.cmds.put }

theorem State.Canon.landWord {c key x} (h : s.Canon M T) : (s.landWord c key x).Canon M T := h.fillWords

theorem State.Canon.atWord {id c a next} (h : s.Canon M T) (hn : CanonIn next M T) : CanonIn (s.atWord id c a next) M T := by
  unfold State.atWord
  split
  · exact hn
  · exact .some h.engineFault
  · exact .none
  · exact .none

theorem State.Canon.copyOut {id c j} (h : s.Canon M T) : CanonIn (s.copyOut id c j) M T := by
  unfold State.copyOut
  refine .ite .none ?_
  split
  · exact .some h.landRow
  · exact .ite (.some h.engineFault) (h.atWord (.ite .none (.some h.writeSegs.stepRow)))

theorem State.Canon.copyIn {id c j} (h : s.Canon M T) : CanonIn (s.copyIn id c j) M T := by
  unfold State.copyIn
  dsimp only
  split
  · exact h.atWord (.some h.landWord.stepRow)
  · split
    · exact (h.engRead.fst ‹_›).atWord (.some (h.engRead.fst ‹_›).landWord.stepRow)
    · exact .some (h.engRead.fst ‹_›)
    · exact .none
    · exact .ite (.some (h.engRead.fst ‹_›).engineFault) .none

theorem State.Canon.copyRow {id c j} (h : s.Canon M T) : CanonIn (s.copyRow id c j) M T := .ite .none (.ite h.copyOut h.copyIn)

theorem State.Canon.convStep {id c} (h : s.Canon M T) : CanonIn (s.convStep id c) M T := by
  unfold State.convStep
  refine .ite (h.atWord (.ite (.some h.keepWord) .none)) ?_
  split
  · exact .none
  · exact .ite (.some h.writeSegs.stepRow) .none

theorem State.Canon.endWord {id c g x} (h : s.Canon M T) : CanonIn (s.endWord id c g x) M T := .ite (.some h.writeSegs) .none

theorem State.Canon.redPhase {id c n} (h : s.Canon M T) : (s.redPhase id c n).Canon M T := { h with cmds := h.cmds.put }

theorem State.Canon.statusStep {id c} (h : s.Canon M T) : CanonIn (s.statusStep id c) M T := by
  refine .map h.endWord fun _ h => .ite h.redPhase ?_
  split
  · exact h.engineFault
  · exact h.redPhase

theorem State.Canon.flagStep {id c} (h : s.Canon M T) : CanonIn (s.flagStep id c) M T := by
  unfold State.flagStep
  dsimp only
  split
  · exact .map h.endWord fun _ h => .settleOps { h with cmds := h.cmds.del }
  · split
    · exact .ite .none (.some (h.engXlat.fst ‹_›))
    · rename_i heq
      exact .some (have h := h.engXlat.fst heq; { h with cmds := h.cmds.put })
    · exact .map (h.engXlat.fst ‹_›).endWord fun _ h => { h with cmds := h.cmds.put }

theorem State.Canon.sumWord {id c k} (h : s.Canon M T) : CanonIn (s.sumWord id c k) M T := by
  unfold State.sumWord
  refine .ite .none (.some (.settleOps ?_))
  refine .update (.writeSegs (s := (if c.redTorn c.done then _ else _ : Nat × State).2) ?_) fun h => { h with cmds := h.cmds.put }
  split
  · exact h.freeBits
  · exact h

theorem State.Canon.redStep {id c} (h : s.Canon M T) : CanonIn (s.redStep id c) M T := by
  unfold State.redStep
  refine .ite h.flagStep (.ite h.statusStep (.ite ?_ h.sumWord))
  split
  · exact .some (h.engRead.fst ‹_›).keepWord
  · exact .some (h.engRead.fst ‹_›)
  · exact .none
  · rename_i heq
    exact .some (have h := h.engRead.fst heq; { h with cmds := h.cmds.put })

theorem State.Canon.bagTier {c va} (h : s.Canon M T) : (s.bagTier c va).1.Canon M T := by
  unfold State.bagTier
  split <;> exact h.segsOf.fst ‹_›

theorem State.Canon.bagWord {id c q r x} (h : s.Canon M T) : (s.bagWord id c q r x).1.Canon M T := by
  have k {b : Prop} [Decidable b] {va : Nat} : (if b then s.bagTier c va else (s, none)).1.Canon M T := by
    split
    · exact h.bagTier
    · exact h
  unfold State.bagWord
  dsimp only
  split
  · split <;> exact h
  · split <;> exact h.bagTier.fst ‹_›
  · split
    · exact k.fst ‹_›
    · exact (k.fst ‹_›).engRead

theorem State.Canon.poolWord {id c k n} (h : s.Canon M T) : (s.poolWord id c k n).Canon M T :=
  .stepRow (h.landWord.ite h.landWord.raise)

theorem State.Canon.bagStep {id c} (h : s.Canon M T) : CanonIn (s.bagStep id c) M T := by
  unfold State.bagStep
  refine .ite ?_ (h.atWord (.some h.poolWord))
  split
  · exact .some (h.bagWord.fst ‹_›).keepWord
  · exact .some (h.bagWord.fst ‹_›)
  · exact .none
  · exact .some (h.bagWord.fst ‹_›).engineFault

end

end Sys2Proof.Machine
end

/-! The matrix unit -/
section
namespace Sys2Proof.Machine
open Sys2Proof Host

section
variable {s : State} {d : Done} {M T : Prop}

theorem State.Canon.modTile {core a f} (h : s.Canon M T) : (s.modTile core a f).Canon M T := h.modCore

theorem State.Canon.modLatch {core f} (h : s.Canon M T) : (s.modLatch core f).Canon M T := h.modCore

theorem State.Canon.setReport {core r x} (h : s.Canon M T) : (s.setReport core r x).Canon M T := h.modLatch.ite h.modTile

theorem State.Canon.deferred {core res t m} (h : s.Canon M T) (e : s.deferred core res = some (t, m)) : m.Canon M T := by
  unfold State.deferred at e
  split at e
  · cases e
  · split at e
    · cases e
    · cases e
      exact h.setReport

theorem State.Canon.matCheck {wid w u} (h : s.Canon M T) : (s.matCheck wid w u).1.Canon M T := by
  unfold State.matCheck
  split
  · exact h
  · split
    · exact h
    · split
      · exact h
      · split
        · exact h
        · split
          · exact h.deferred ‹_›
          · exact h

theorem State.Canon.enterQueue {core e} (h : s.Canon M T) : (s.enterQueue core e).Canon M T := h.modCore.foldl fun _ _ h => h.modTile

theorem State.Canon.ownEntry (h : s.Canon M T) : ({ s with nid := s.nid + 1 } : State).Canon M T := { h with }

theorem State.Canon.matHold {i c w run x} (h : s.Canon M T) : (s.matHold i c w run x).s.Canon M T := h.foldl fun _ _ h => h.waitLane

theorem State.Canon.waveHold {i c w run x} (h : s.Canon M T) : (s.waveHold i c w run x).s.Canon M T := by
  unfold State.waveHold
  split
  · exact h
  · exact h.foldl fun _ _ h => h.waitLane

theorem CanonEff.matEff {i mk go} (hg : ∀ s c w run u, s.Canon M T → (go s c w run u).s.Canon M T) : CanonEff (matEff i mk go) M T := by
  intro s c w run h
  unfold Machine.matEff
  dsimp only
  split
  · exact .foldl h fun _ _ h => h.waitLane
  · split
    · exact h.matCheck.fst ‹_›
    · split
      · exact hg _ _ _ _ _ (h.matCheck.fst ‹_›)
      · exact (h.matCheck.fst ‹_›).waveHold

theorem State.Canon.matOp {i mk go} (h : s.Canon M T) (hg : ∀ s c w run u, s.Canon M T → (go s c w run u).s.Canon M T) :
    CanonOut (matOp i mk go s) M T := h.runLanes (.matEff hg)

theorem State.Canon.matEnter {c w x u} (h : s.Canon M T) : (matEnter s c w x u).s.Canon M T := .enterQueue { h with }

theorem State.Canon.enterMlatb {mf c w run u} (h : s.Canon M T) : (enterMlatb mf s c w run u).s.Canon M T := h.modLatch.matEnter

theorem State.Canon.enterMcbt {i c w x u} (h : s.Canon M T) : (enterMcbt i s c w x u).s.Canon M T := by
  unfold Machine.enterMcbt
  dsimp only
  exact .modCore { h with }

theorem State.Canon.addSignature {core wid g k x} (h : s.Canon M T) : (s.addSignature core wid g k x).Canon M T := by
  unfold State.addSignature
  exact h.modCore

theorem State.Canon.signLane {core wid g k} (h : s.Canon M T) : (s.signLane core wid g k).Canon M T := by
  unfold State.signLane
  split
  · exact h
  · exact h.addSignature.modLane.ite h.takeTrap

theorem State.Canon.armSign {core wid slot g set e} (h : s.Canon M T) : (s.armSign core wid slot g set e).Canon M T :=
  h.modCore.foldl fun _ _ h => h.signLane.ite h

theorem State.Canon.settleArmings {core} (h : s.Canon M T) : (s.settleArmings core).Canon M T :=
  h.foldl fun _ _ h => .ite (h.modCore.armSign.foldl fun _ _ h => h.leave) h

theorem State.Canon.enterMma {i c w run u} (h : s.Canon M T) : (enterMma i s c w run u).s.Canon M T := by
  unfold Machine.enterMma
  dsimp only
  split
  · exact h.matEnter
  · split
    · exact h.ownEntry.armSign
    · split
      · exact h.ownEntry
      · exact h.ownEntry.modCore.foldl fun _ _ h => h.waitLane

theorem State.Canon.issueSigned {core} (h : s.Canon M T) : (s.issueSigned core).Canon M T := by
  unfold State.issueSigned
  dsimp only
  refine .settleArmings ?_
  refine h.foldl fun _ _ h => ?_
  split
  · refine .foldl ?_ fun _ _ h => ?_
    · split
      · exact h.modCore.enterQueue
      · exact h.modCore
    · split
      · exact h.leave.ite h
      · exact h
  · exact h

theorem State.Canon.claim {core wid want} (h : s.Canon M T) : (s.claim core wid want).Canon M T :=
  h.foldl fun _ _ h => h.modCore.ite h.modTile

theorem State.Canon.serveClaims {core} (h : s.Canon M T) : (s.serveClaims core).Canon M T := by
  unfold State.serveClaims
  refine h.foldlFst fun _ _ h => ?_
  split
  split
  dsimp only
  split
  · refine h.claim.foldl fun _ _ h => ?_
    split
    · exact h.leave.ite h
    · exact h
  · exact h

theorem State.Canon.settleMatrix {core} (h : s.Canon M T) : (s.settleMatrix core).Canon M T :=
  .serveClaims (.settleArmings (.update (h.foldl fun _ _ h => h.ite h.freeMatrix.modCore) fun h =>
    { h with waves := h.waves.map fun _ => rfl }))

theorem State.Canon.setKind {core kind ts} (h : s.Canon M T) : (s.setKind core kind ts).Canon M T := h.foldl fun _ _ h => h.modTile

theorem State.Canon.enterMzero {c w run u} (h : s.Canon M T) : (enterMzero s c w run u).s.Canon M T := by
  unfold Machine.enterMzero
  split
  · exact h.setKind.matEnter
  · exact h
  · exact h
  · exact h
  · exact h
  · exact h
  · exact h

theorem State.Canon.enterMmv {c w run u} (h : s.Canon M T) : (enterMmv s c w run u).s.Canon M T := by
  unfold Machine.enterMmv
  split
  · exact h.setKind.matEnter
  · exact h
  · exact h
  · exact h
  · exact h
  · exact h
  · exact h

theorem State.Canon.mrdEff {i c w run} (h : s.Canon M T) : (mrdEff i s c w run).s.Canon M T := by
  unfold Machine.mrdEff
  dsimp only
  split
  · exact h.foldl fun _ _ h => .ite (h.foldl fun _ _ h => h.setReport) h
  · split
    · exact .matHold (h.foldl fun _ _ h => .ite (h.foldl fun _ _ h => h.setReport) h)
    · exact .enterQueue (.foldl (.ownEntry (h.foldl fun _ _ h => .ite (h.foldl fun _ _ h => h.setReport) h)) fun _ _ h => h.modLane)

theorem State.Canon.mrdOp {i} (h : s.Canon M T) : CanonOut (mrdOp i s) M T := h.runLanes fun _ _ _ _ h => h.mrdEff

theorem State.Canon.clearOvf {wid core clr} (h : s.Canon M T) : (s.clearOvf wid core clr).Canon M T :=
  h.foldl fun _ _ h => h.modTile.ite h

theorem State.Canon.ownDeferred {wid core res t m} (h : s.Canon M T) (e : s.ownDeferred wid core res = some (t, m)) : m.Canon M T :=
  h.deferred e

theorem State.Canon.mstatEff {i clr c w run} (h : s.Canon M T) : (mstatEff i clr s c w run).s.Canon M T := by
  unfold Machine.mstatEff
  split
  · exact h.ownDeferred ‹_›
  · exact h.putW.clearOvf

theorem State.Canon.mstatOp {i clr} (h : s.Canon M T) : CanonOut (mstatOp i clr s) M T := h.runLanes fun _ _ _ _ h => h.mstatEff

theorem State.Canon.mwaitEff {i c w run} (h : s.Canon M T) : (mwaitEff i s c w run).s.Canon M T := by
  unfold Machine.mwaitEff
  dsimp only
  split
  · exact h.ownDeferred ‹_›
  · split
    · exact h.claim
    · exact h.fresh.waveHold

theorem State.Canon.mwaitOp {i} (h : s.Canon M T) : CanonOut (mwaitOp i s) M T := h.runLanes fun _ _ _ _ h => h.mwaitEff

theorem State.Canon.mrelEff {i c w run} (h : s.Canon M T) : (mrelEff i s c w run).s.Canon M T := by
  unfold Machine.mrelEff
  dsimp only
  split
  · exact h.waveHold
  · dsimp only
    exact h.freeMatrix.settleMatrix

theorem State.Canon.mrelOp {i} (h : s.Canon M T) : CanonOut (mrelOp i s) M T := h.runLanes fun _ _ _ _ h => h.mrelEff

theorem State.Canon.msignEff {i c w run} (h : s.Canon M T) : (msignEff i s c w run).s.Canon M T :=
  h.foldl fun _ _ h => h.waitLane.signLane.ite h.waitLane

theorem State.Canon.msignOp {i} (h : s.Canon M T) : CanonOut (msignOp i s) M T := h.runLanes fun _ _ _ _ h => h.msignEff

theorem State.Canon.writeRows {core a kind row0 tiles rows} (h : s.Canon M T) : (s.writeRows core a kind row0 tiles rows).Canon M T :=
  h.foldl fun _ _ h => h.modTile

theorem State.Canon.freeCells {core a kind tiles} (h : s.Canon M T) : (s.freeCells core a kind tiles).Canon M T := { h.writeRows with }

theorem State.Canon.fillTiles {core e} (h : s.Canon M T) : (s.fillTiles core e).Canon M T := h.foldl fun _ _ h => h.modTile

theorem State.Canon.doLatb {core mf e} (h : s.Canon M T) : (s.doLatb core mf e).Canon M T := by
  unfold State.doLatb
  exact h.modLatch

theorem State.Canon.laneRows {e size areg} (h : s.Canon M T) : (s.laneRows e size areg).1.Canon M T := by
  unfold State.laneRows
  split
  · exact h
  · exact { h with }

theorem State.Canon.rowsOfA {core e mf areg} (h : s.Canon M T) : (s.rowsOfA core e mf areg).1.Canon M T := by
  unfold State.rowsOfA
  split
  · exact h.laneRows
  · exact h

theorem State.Canon.doMma {core e mf mb areg scales} (h : s.Canon M T) : (s.doMma core e mf mb areg scales).Canon M T := by
  unfold State.doMma
  refine .raise ?_
  refine .writeRows ?_
  split
  · exact h.laneRows
  · exact h

theorem State.Canon.doMmai {core e ma mb wrap ovt areg} (h : s.Canon M T) : (s.doMmai core e ma mb wrap ovt areg).Canon M T := by
  unfold State.doMmai
  split
  refine .ite (.setReport ?marked) ?marked
  exact (h.rowsOfA.fst ‹_›).writeRows.foldl fun _ _ h => h.modTile

theorem State.Canon.doZero {core e} (h : s.Canon M T) : (s.doZero core e).Canon M T := h.foldl fun _ _ h => h.modTile

theorem State.Canon.doRd {core e cells row0 dst} (h : s.Canon M T) : (s.doRd core e cells row0 dst).Canon M T := h.deliver

theorem State.Canon.engineFill {core wid a n x} (h : s.Canon M T) : (s.engineFill core wid a n x).Canon M T :=
  .update h.fillWords fun k => { k with relAt := h.relAt.foldl fun _ _ h => h.del }

theorem State.Canon.doSt {core e kind row0 rows words} (h : s.Canon M T) : (s.doSt core e kind row0 rows words).Canon M T :=
  h.foldl fun _ _ h => h.ite h.engineFill

theorem State.Canon.doMv {core e kind row0 rows wipe} (h : s.Canon M T) : (s.doMv core e kind row0 rows wipe).Canon M T :=
  .writeRows (h.foldl fun _ _ h => h.modTile)

theorem State.Canon.doMul {core e opc mf} (h : s.Canon M T) : (s.doMul core e opc mf).Canon M T := by
  unfold State.doMul
  dsimp only
  split
  · exact h.setReport
  · split
    · exact h.freeCells.setReport
    · split
      · exact h.freeCells
      · split
        · exact h.doMma
        · exact h.doMmai
        · exact h
        · exact h
        · exact h
        · exact h
        · exact h
    · split
      · exact h.freeCells
      · split
        · exact h.doMma
        · exact h.doMmai
        · exact h
        · exact h
        · exact h
        · exact h
        · exact h

theorem State.Canon.performEntry {core e} (h : s.Canon M T) : (s.performEntry core e).Canon M T := by
  unfold State.performEntry
  split
  · exact h.doMul
  · split
    · exact h.modLatch.setReport
    · exact h.doLatb
    · exact h.doSt.setReport
    · exact h.doSt
    · exact h.freeCells.setReport
    · exact h.doMv
    · exact h.doZero
    · exact h.doRd
    · exact h
    · exact h

theorem State.Canon.performHead {core e rest} (h : s.Canon M T) : (s.performHead core e rest).Canon M T :=
  h.performEntry.fillTiles.modCore.settleMatrix.settleBanks

theorem State.Canon.fillSlot {core x rest} (h : s.Canon M T) : (s.fillSlot core x rest).Canon M T := h.modCore.settleMatrix

end

end Sys2Proof.Machine
end

/-! Banks, rows and groups of work -/
section
namespace Sys2Proof.Machine
open Sys2Proof Host

section
variable {s : State} {d : Done} {M T : Prop}

theorem State.Canon.bankTrap {o a} (h : s.Canon M T) : (s.bankTrap o a).Canon M T := h.trapHeld.ite h.dropAccess.modLaneAny.modLaneAny

theorem State.Canon.faultBank {cluster i} (h : s.Canon M T) : (s.faultBank cluster i).Canon M T := h.foldl fun _ _ h => h.bankTrap

theorem State.Canon.remode {bank mode} (h : s.Canon M T) : (s.remode bank mode).Canon M T := by
  unfold State.remode
  refine h.foldl fun _ _ h => ?_
  split
  split
  · exact { h with ops := h.ops.put }
  · exact h.bankTrap

theorem State.Canon.requestSwitch {cluster i mode force} (h : s.Canon M T) : (s.requestSwitch cluster i mode force).1.Canon M T := by
  have start {m : State} {k x} (h : m.Canon M T) : ({ m with switches := put m.switches k x } : State).Canon M T :=
    { h with switches := h.switches.put }
  unfold State.requestSwitch
  split
  · exact h
  · split
    · exact h.sysSetBits
    · exact start (h.faultBank.ite h).sysSetBits.sysSetBits

theorem State.Canon.writeBankMode {cluster value force} (h : s.Canon M T) : (s.writeBankMode cluster value force).Canon M T :=
  h.foldl fun _ _ h => h.requestSwitch

theorem State.Canon.wakeBanks (h : s.Canon M T) : (s.wakeBanks).Canon M T := by
  unfold State.wakeBanks
  refine h.foldl fun _ _ h => ?_
  refine h.foldl fun _ _ h => ?_
  split
  · exact h.ite h.modWave.leave
  · exact h

theorem State.Canon.emptyClusterCache {cluster} (h : s.Canon M T) : (s.emptyClusterCache cluster).Canon M T := by
  unfold State.emptyClusterCache
  split
  · exact h
  · dsimp only
    refine h.foldl fun _ _ h => ?_
    split
    · exact h.performStore
    · exact h

theorem State.Canon.switched {cluster i mode} (h : s.Canon M T) : (s.switched cluster i mode).Canon M T :=
  .settleOps (.wakeBanks (.emptyClusterCache (.sysSetBits (.sysSetBits
    (.remode { h with spad := h.spad.filter, fifo := h.fifo.del, switches := h.switches.del, relAt := h.relAt.filter })))))

theorem State.Canon.askBanks {cluster base m} (h : s.Canon M T) : (s.askBanks cluster base m).1.Canon M T :=
  .foldlFst h fun _ _ h => h.requestSwitch

theorem State.Canon.bankreqEff {x c w run} (h : s.Canon M T) : (bankreqEff x s c w run).s.Canon M T := by
  unfold Machine.bankreqEff
  split
  · exact h
  · dsimp only
    split
    · exact h.askBanks.modWave
    · exact h.askBanks.foldl fun _ _ h => h.waitLane

theorem State.Canon.laterRow {wid team r n vals wave} (h : s.Canon M T) : (s.laterRow wid team r n vals wave).Canon M T :=
  h.withFill.modWave.foldl fun _ _ h => h.modLane

theorem State.Canon.rowEff {i f c w run} (h : s.Canon M T) : (rowEff i f s c w run).s.Canon M T := h.laterRow

theorem State.Canon.rowOp {i f} (h : s.Canon M T) : CanonOut (rowOp i f s) M T := h.runLanes fun _ _ _ _ h => h.rowEff

theorem State.Canon.readProg {vi va level} (h : s.Canon M T) : (s.readProg vi va level).1.Canon M T := by
  unfold State.readProg
  split
  · exact h
  · split <;> exact h.partNum.fst ‹_›

end

end Sys2Proof.Machine
end

/-! Graphics: lists, passes, ordered sections and rays -/
section
namespace Sys2Proof.Machine
open Sys2Proof Host

section
variable {s : State} {d : Done} {M T : Prop}

theorem State.Canon.readLoc {p core n g} (h : s.Canon M T) : (s.readLoc p core n g).1.Canon M T := by
  unfold State.readLoc
  split
  · exact h
  · split
    · split
      · exact h.engNow.fst ‹_›
      · exact (h.engNow.fst ‹_›).unitBytes
    · exact h.engNow.fst ‹_›

theorem State.Canon.checkLoc {p core acc g} (h : s.Canon M T) : (s.checkLoc p core acc g).1.Canon M T := by
  unfold State.checkLoc
  split
  · exact h
  · split <;> exact h.engNow.fst ‹_›

theorem State.Canon.writeLoc {p core n x g} (h : s.Canon M T) : (s.writeLoc p core n x g).Canon M T := by
  unfold State.writeLoc
  split
  · exact h.fillWords
  · split
    · exact (h.engNow.fst ‹_›).unitWrite
    · exact h.engNow.fst ‹_›

theorem State.Canon.nodesFrom {p cluster core n i} (h : s.Canon M T) : (s.nodesFrom p cluster core n i).1.Canon M T := by
  induction n generalizing s i with
  | zero => exact h
  | succ n ih =>
    unfold State.nodesFrom
    split
    · exact h
    · split
      · exact h.readLoc.fst ‹_›
      · split
        · exact (ih (h.readLoc.fst ‹_›)).fst ‹_›
        · exact ih (h.readLoc.fst ‹_›)

theorem State.Canon.listOf {p cluster core x y} (h : s.Canon M T) : (s.listOf p cluster core x y).1.Canon M T := by
  unfold State.listOf
  split
  · exact h.readLoc.fst ‹_›
  · exact (h.readLoc.fst ‹_›).nodesFrom

theorem State.Canon.writeList {p cluster core x y l} (h : s.Canon M T) : (s.writeList p cluster core x y l).Canon M T :=
  .writeLoc (h.foldl fun _ _ h => h.writeLoc)

theorem State.Canon.allocNode {key p cluster} (h : s.Canon M T) : (s.allocNode key p cluster).1.Canon M T := by
  unfold State.allocNode
  dsimp only
  split
  · split
    · exact { h with passes := h.passes.put }
    · exact h
  · split
    · split
      · rename_i heq
        have h := h.tryNow.fst heq
        split
        · exact { h with passes := h.passes.put }
        · exact h
      · exact h.tryNow.fst ‹_›
    · split
      · split
        · exact { h with passes := h.passes.put }
        · exact h
      · exact h

theorem State.Canon.fliStep {key p rt pixel depth payload} (h : s.Canon M T) : (s.fliStep key p rt pixel depth payload).1.Canon M T :=
  by
  unfold State.fliStep
  dsimp only
  split
  · exact h.listOf.fst ‹_›
  · rename_i heq
    have h := h.listOf.fst heq
    split
    · exact h.checkLoc.fst ‹_›
    · rename_i heq
      have h := h.checkLoc.fst heq
      split
      · exact h
      · split
        · split
          · exact h.allocNode.fst ‹_›
          · rename_i heq
            have h := h.allocNode.fst heq
            split
            · rename_i heq
              have h := h.checkLoc.fst heq
              exact { h with passes := h.passes.modKey }
            · exact (h.checkLoc.fst ‹_›).writeList
        · split
          · exact h.writeList
          · exact h

theorem State.Canon.trapGfx {id g a} (h : s.Canon M T) : (s.trapGfx id g a).Canon M T := .takeTrap { h with gfx := h.gfx.del }

theorem State.Canon.failGfx {id g a} (h : s.Canon M T) : (s.failGfx id g a).Canon M T := .ite { h with gfx := h.gfx.del } h.trapGfx

theorem State.Canon.fillGfx {id g x flags} (h : s.Canon M T) : (s.fillGfx id g x flags).Canon M T :=
  .ite { h with gfx := h.gfx.del } (.ite (.leave (.deliver { h with gfx := h.gfx.del })) (.deliver { h with gfx := h.gfx.del }))

theorem State.Canon.barGfx {id g p} (h : s.Canon M T) : (s.barGfx id g p).Canon M T := by
  unfold State.barGfx
  dsimp only
  split
  · exact .ite (h.heldBy (h.listOf.fst ‹_›)) (h.listOf.fst ‹_›).failGfx
  · exact (h.listOf.fst ‹_›).failGfx

theorem State.Canon.startGfx {len g} (h : s.Canon M T) : (s.startGfx len g).Canon M T := .modLane { h with gfx := h.gfx.put }

theorem State.Canon.fliLane {i instr c w k} (h : d.s.Canon M T) : (fliLane i instr c w d k).s.Canon M T := by
  unfold Machine.fliLane
  dsimp only
  split
  · exact h
  · split
    · exact h
    · split
      · exact h
      · split
        · exact h
        · exact h.startGfx

theorem State.Canon.flwLane {i instr c w k} (h : d.s.Canon M T) : (flwLane i instr c w d k).s.Canon M T := by
  unfold Machine.flwLane
  dsimp only
  split
  · exact h
  · split
    · exact h
    · exact h.startGfx

theorem State.Canon.fliEff {x c w run} (h : s.Canon M T) : (fliEff x s c w run).s.Canon M T :=
  .foldlDone { h with } fun _ _ h => h.fliLane

theorem State.Canon.flwEff {x c w run} (h : s.Canon M T) : (flwEff x s c w run).s.Canon M T :=
  .foldlDone { h with } fun _ _ h => h.flwLane

theorem State.Canon.readAsLane {wid k w va n} (h : s.Canon M T) : (s.readAsLane wid k w va n).1.Canon M T := by
  unfold State.readAsLane
  split
  · exact h.checkAccess.fst ‹_›
  · exact h.checkAccess.fst ‹_›
  · dsimp only
    split
    · exact h.checkAccess.fst ‹_›
    · split
      · exact h.checkAccess.fst ‹_›
      · exact (h.checkAccess.fst ‹_›).foldl fun _ _ h => h.noteRead.ite h

theorem State.Canon.checkStore {p core} (h : s.Canon M T) : (s.checkStore p core).1.Canon M T := by
  unfold State.checkStore
  split
  · exact h
  · split
    · exact h
    · split
      · exact h.engNow.fst ‹_›
      · split <;> exact h.engNow.fst ‹_›

theorem State.Canon.checkDesc {x p core va flagD} (h : s.Canon M T) : (s.checkDesc x p core va flagD).1.Canon M T := by
  unfold State.checkDesc
  split
  · exact h
  · split
    split
    · exact h.readProg.fst ‹_›
    · split
      · exact ((h.readProg.fst ‹_›).readProg).fst ‹_›
      · dsimp only
        split
        · exact ((h.readProg.fst ‹_›).readProg).fst ‹_›
        · exact (((h.readProg.fst ‹_›).readProg).fst ‹_›).checkStore

theorem State.Canon.checkPass {a w} (h : s.Canon M T) : (s.checkPass a w).1.Canon M T := by
  unfold State.checkPass
  dsimp only
  split
  · exact h
  · split
    · exact h.readAsLane.fst ‹_›
    · exact h.readAsLane.fst ‹_›
    · split
      · exact ((h.readAsLane.fst ‹_›).checkPieces).fst ‹_›
      · exact ((h.readAsLane.fst ‹_›).checkPieces).fst ‹_›
      · exact (((h.readAsLane.fst ‹_›).checkPieces).fst ‹_›).checkDesc

theorem State.Canon.emptyHeads {p core} (h : s.Canon M T) : (s.emptyHeads p core).1.Canon M T := by
  unfold State.emptyHeads
  split
  · split
    · exact h.segsNow.fst ‹_›
    · split
      · exact h.segsNow.fst ‹_›
      · exact (h.segsNow.fst ‹_›).foldl fun _ _ h => h.unitWrite
  · dsimp only
    refine h.foldl fun _ _ h => ?_
    refine h.foldl fun _ _ h => ?_
    split
    · exact h.fillWords
    · exact h

theorem State.Canon.openPass {id a w p slot} (h : s.Canon M T) : (s.openPass id a w p slot).1.Canon M T := by
  unfold State.openPass
  split
  · exact h.emptyHeads.fst ‹_›
  · rename_i heq
    have h := h.emptyHeads.fst heq
    exact .foldl (.modWave { h with passes := h.passes.put, opens := h.opens.put, gfxAsks := h.gfxAsks.del }) fun _ _ h => h.leave

theorem State.Canon.tryAsk {id} (h : s.Canon M T) : (s.tryAsk id).1.Canon M T := by
  unfold State.tryAsk
  split
  · exact h
  · split
    · exact { h with gfxAsks := h.gfxAsks.del }
    · split
      · exact h
      · split
        · exact h.checkPass.fst ‹_›
        · exact h.checkPass.fst ‹_›
        · rename_i heq
          have h := h.checkPass.fst heq
          split
          · split
            · split
              · exact h.heldBy (h.openPass.fst ‹_›)
              · exact h.openPass.fst ‹_›
            · exact h.openPass.fst ‹_›
          · exact .foldl { h with gfxAsks := h.gfxAsks.put } fun _ _ h => h.modLane

theorem State.Canon.settleAsks {p} (h : s.Canon M T) : (s.settleAsks p).Canon M T := by
  unfold State.settleAsks
  refine h.foldl fun _ _ h => ?_
  split
  split
  · dsimp only
    exact h.tryAsk.ite h.tryAsk.raiseTraps
  · exact h

theorem State.Canon.askPass {i c w run} (h : s.Canon M T) : (s.askPass i c w run).Canon M T :=
  .update (h.foldl fun _ _ h => h.waitLane) fun h => { h with gfxAsks := h.gfxAsks.put }

theorem State.Canon.rpassEff {i c w run} (h : s.Canon M T) : (rpassEff i s c w run).s.Canon M T := by
  unfold Machine.rpassEff
  split
  exact h.askPass.tryAsk.fst ‹_›

theorem State.Canon.rpassOp {i} (h : s.Canon M T) : CanonOut (rpassOp i s) M T := h.runLanes fun _ _ _ _ h => h.rpassEff

theorem State.Canon.drawEff {x c w run} (h : s.Canon M T) : (drawEff x s c w run).s.Canon M T := by
  unfold Machine.drawEff
  dsimp only
  split
  · exact h
  · split
    · exact h
    · split
      · exact h
      · exact .update (h.foldl fun _ _ h => h.waitLane) fun h => { h with gfxAsks := h.gfxAsks.put }

theorem State.Canon.recordSegs {c vas} (h : s.Canon M T) : (s.recordSegs c vas).1.Canon M T := by
  induction vas generalizing s with
  | nil => exact h
  | cons va t ih =>
    unfold State.recordSegs
    split
    · exact h.segsNow.fst ‹_›
    · split
      · exact h.segsNow.fst ‹_›
      · split
        · exact h.segsNow.fst ‹_›
        · split
          · exact (ih (h.segsNow.fst ‹_›)).fst ‹_›
          · exact ih (h.segsNow.fst ‹_›)

theorem State.Canon.recordWords {c gs} (h : s.Canon M T) : (s.recordWords c gs).1.Canon M T := h.segBytes

theorem State.Canon.readRecords {a w} (h : s.Canon M T) : (s.readRecords a w).1.Canon M T := by
  unfold State.readRecords
  dsimp only
  split
  · exact h.recordSegs.fst ‹_›
  · split
    · exact h.recordSegs.fst ‹_›
    · split <;> exact (h.recordSegs.fst ‹_›).foldlFst fun _ _ h => h.recordWords

theorem State.Canon.acceptDraw {id a p prims} (h : s.Canon M T) : (s.acceptDraw id a p prims).Canon M T :=
  .foldl { h with passes := h.passes.put, gfxAsks := h.gfxAsks.del } fun _ _ h => h.leave

theorem State.Canon.trapAsk {wid id a} (h : s.Canon M T) : (s.trapAsk wid id a).Canon M T := h.raiseTraps.ite h

theorem State.Canon.formFragments {key cl p n d1 qs} (h : s.Canon M T) : (s.formFragments key cl p n d1 qs).Canon M T :=
  { h with formed := h.formed.put, passes := h.passes.put }

theorem State.Canon.resolveLane {p tile pix} (h : s.Canon M T) : (s.resolveLane p tile pix).1.Canon M T := by
  unfold State.resolveLane
  dsimp only
  split
  · exact h
  · split
    · exact h.readLoc.fst ‹_›
    · exact (h.readLoc.fst ‹_›).freeBits

theorem State.Canon.resolveAt {p} (h : s.Canon M T) : (s.resolveAt p).2.Canon M T := by
  unfold State.resolveAt
  split
  · exact h
  · exact { h with }

theorem State.Canon.formResolve {key cl p} (h : s.Canon M T) : (s.formResolve key cl p).Canon M T := by
  have k {t : State} {id f q} (h : t.Canon M T) :
      ({ t with formed := put t.formed id f, passes := put t.passes key q } : State).Canon M T :=
    { h with formed := h.formed.put, passes := h.passes.put }
  exact k (.foldlFst h.fresh fun _ _ h => h.resolveLane)

theorem State.Canon.resolveHeld {cl p} (h : s.Canon M T) : CanonIn (s.resolveHeld cl p) M T := by
  intro m e
  obtain ⟨k, -, e⟩ := List.exists_of_findSome?_eq_some e
  dsimp only at e
  split at e
  · cases e
  · split at e
    · split at e
      · cases e
        exact h.checkLoc.fst ‹_›
      · cases e
    · cases e

theorem State.Canon.givePages {p} (h : s.Canon M T) : (s.givePages p).Canon M T := h.modTill.ite h

theorem State.Canon.closePass {key p} (h : s.Canon M T) : (s.closePass key p).Canon M T := by
  have h : ({ s.givePages p with passes := del (s.givePages p).passes key } : State).Canon M T :=
    .update h.givePages fun h => { h with passes := h.passes.del }
  unfold State.closePass
  dsimp only
  refine .settleAsks ?_
  split
  · exact h.partStore.fst ‹_›
  · exact (h.partStore.fst ‹_›).postLaneless

theorem State.Canon.ordEnterLane {i c w k} (h : d.s.Canon M T) : (ordEnterLane i c w d k).s.Canon M T := by
  unfold Machine.ordEnterLane
  dsimp only
  split
  · split
    · exact h
    · split
      · exact h
      · split
        · exact h.enterSection
        · exact h.waitLane
  · exact h

theorem State.Canon.ordEnterEff {i c w run} (h : s.Canon M T) : (ordEnterEff i s c w run).s.Canon M T :=
  h.foldlDone fun _ _ h => h.ordEnterLane

theorem State.Canon.leaveSection {wid k} (h : s.Canon M T) : (s.leaveSection wid k).Canon M T := h.modLane.addFence.dropFragment

theorem State.Canon.ordLeaveLane {i c w k} (h : d.s.Canon M T) : (ordLeaveLane i c w d k).s.Canon M T := by
  unfold Machine.ordLeaveLane
  dsimp only
  split
  · exact h
  · split
    · exact h
    · split
      · exact h.leaveSection
      · exact h.waitLane

theorem State.Canon.ordLeaveEff {i c w run} (h : s.Canon M T) : (ordLeaveEff i s c w run).s.Canon M T :=
  h.foldlDone fun _ _ h => h.ordLeaveLane

theorem State.Canon.settleLeaves {core} (h : s.Canon M T) : (s.settleLeaves core).Canon M T :=
  h.foldl fun _ _ h => .ite (h.foldl fun _ _ h => h.leaveSection.leave.ite h) h

theorem State.Canon.raiseNow {wid k a} (h : s.Canon M T) : (s.raiseNow wid k a).Canon M T := h.modLane.ite h.takeTrap

theorem State.Canon.traverse {g w r n refs hs} (h : s.Canon M T) : (s.traverse g w r n refs hs).1.Canon M T := by
  induction n generalizing s refs hs with
  | zero => cases refs <;> exact h
  | succ n ih =>
    cases refs with
    | nil => exact h
    | cons x rest =>
      obtain ⟨leaf, i⟩ := x
      unfold State.traverse
      dsimp only
      split
      · exact h.readAsLane.fst ‹_›
      · exact h.readAsLane.fst ‹_›
      · split
        · exact h.readAsLane.fst ‹_›
        · split
          · exact ih (h.readAsLane.fst ‹_›)
          · exact ih (h.readAsLane.fst ‹_›)

theorem State.Canon.appendHits {g hs cs fl} (h : s.Canon M T) : (s.appendHits g hs cs fl).1.Canon M T := by
  induction hs generalizing s cs fl with
  | nil => exact h
  | cons x t ih =>
    unfold State.appendHits
    split
    · exact h
    · dsimp only
      split
      · exact h.fliStep.fst ‹_›
      · exact ih (h.fliStep.fst ‹_›)
      · exact ih (h.fliStep.fst ‹_›)

theorem State.Canon.endRay {id g x fl} (h : s.Canon M T) : (s.endRay id g x fl).Canon M T :=
  .leave (.raise (.putV { h with gfx := h.gfx.del }))

theorem State.Canon.startRay {c len g} (h : s.Canon M T) : (s.startRay c len g).Canon M T := .waitLane { h with gfx := h.gfx.put }

theorem State.Canon.rayLane {i app instr c w k} (h : d.s.Canon M T) : (rayLane i app instr c w d k).s.Canon M T := by
  unfold Machine.rayLane
  dsimp only
  split
  · exact h
  · split
    · exact h.startRay
    · split
      · exact h
      · split
        · exact h
        · split
          · exact h
          · exact h.startRay

theorem State.Canon.rayqEff {x c w run} (h : s.Canon M T) : (rayqEff x s c w run).s.Canon M T :=
  .foldlDone { h with } fun _ _ h => h.rayLane

theorem State.Canon.rayqAppEff {x c w run} (h : s.Canon M T) : (rayqAppEff x s c w run).s.Canon M T :=
  .foldlDone { h with } fun _ _ h => h.rayLane

end

end Sys2Proof.Machine
end

/-! Slices, resets and frames -/
section
namespace Sys2Proof.Machine
open Sys2Proof Host

section
variable {s : State} {d : Done} {M T : Prop}

theorem State.Canon.requestSave {wid w} (h : s.Canon M T) : (s.requestSave wid w).Canon M T := h.modWave

theorem State.Canon.endSlice {p} (h : s.Canon M T) : (s.endSlice p).Canon M T := by
  unfold State.endSlice
  split
  · exact h
  · exact h.ite (.foldl (have h := h.sysSetBits; { h with holders := h.holders.put }) fun _ _ h => h.requestSave)

theorem State.Canon.startSlice {p vi} (h : s.Canon M T) : (s.startSlice p vi).Canon M T := { h with holders := h.holders.put }

theorem State.Canon.saveStores {vi} (h : s.Canon M T) : (s.saveStores vi).Canon M T := { h with passes := h.passes.map fun _ => rfl }

theorem State.Canon.restoreStores {key p} (h : s.Canon M T) : (s.restoreStores key p).Canon M T := by
  unfold State.restoreStores
  split
  · exact h
  · exact { h with spad := h.spad.filter.foldl fun _ _ h => h.put, passes := h.passes.put }

theorem State.Canon.giveUpClaims {vi} (h : s.Canon M T) : (s.giveUpClaims vi).Canon M T := { h with saved := h.saved.map fun _ => rfl }

theorem State.Canon.handOver {p h1} (h : s.Canon M T) : (s.handOver p h1).Canon M T := by
  unfold State.handOver
  dsimp only
  split
  · exact have h := h.sysSetBits; { h with holders := h.holders.put }
  · exact h.sysSetBits.startSlice.ite h.sysSetBits.saveStores.giveUpClaims.startSlice

theorem State.Canon.viStop {vi} (h : s.Canon M T) : (s.viStop vi).Canon M T := by
  unfold State.viStop
  split
  · exact h.endSlice.ite h
  · exact h

theorem State.Canon.poolFault {vi} (h : s.Canon M T) : (s.poolFault vi).Canon M T := .fatal { h with }

theorem State.Canon.poolBits {vi} (h : s.Canon M T) : (s.poolBits vi).1.Canon M T := h.partNum

theorem State.Canon.markSlot {vi slot used} (h : s.Canon M T) : (s.markSlot vi slot used).1.Canon M T := by
  generalize hf : @State.markSlot = f
  unfold State.markSlot at hf
  dsimp only at hf
  generalize hr : f s vi slot used = r
  rw [← hf] at hr
  dsimp only at hr
  have h := h.partNum (vi := vi) (va := s.poolVa vi + slot / 8) (n := 1) (level := 1)
  generalize s.partNum vi (s.poolVa vi + slot / 8) 1 1 = q at h hr
  obtain ⟨m, _ | b⟩ := q
  · subst hr
    exact h
  · subst hr
    exact h.partStore

theorem State.Canon.reset : State.reset.Canon M T where
  mem := .nil
  poison := .nil
  sys := fun _ => by rfl
  measExt := .nil
  histSaved := .nil
  hist := .nil
  streams := .nil
  portSent := .nil
  clocks := .nil
  peerHeard := .nil
  lineport := .nil
  noc := .nil
  cores := .nil
  waves := fun _ => by rfl
  spad := .nil
  fifo := .nil
  switches := .nil
  ops := .nil
  relAt := .nil
  fills := .nil
  barriers := .nil
  jobs := .nil
  issuers := .nil
  formed := .nil
  spawns := .nil
  held := .nil
  tills := .nil
  tillMsgs := .nil
  cmds := .nil
  postings := .nil
  promises := .nil
  passes := .nil
  opens := .nil
  gfxAsks := .nil
  gfx := .nil
  trapReqs := .nil
  eventReqs := .nil
  holders := .nil
  saved := .nil
  transit := .nil
  scanAt := .nil

theorem State.Canon.afterReset (h : s.Canon M T) : s.afterReset.Canon M T :=
  { State.Canon.reset with hist := h.hist, histSaved := h.histSaved }

theorem State.Canon.coldStart {trip} (h : s.Canon M T) : (s.coldStart trip).Canon M T := h.afterReset.sysPut.ite h.afterReset

theorem State.Canon.warmStart (h : s.Canon M T) : s.warmStart.Canon M T :=
  .sysPut (.sysPut (.update h.afterReset fun k => { k with mem := h.mem, poison := h.poison }))

theorem State.Canon.resetRegs {vi} (h : s.Canon M T) : (s.resetRegs vi).Canon M T := { h with sys := h.sys.filter }

theorem State.Canon.dropVi {f₁ f₂ f₃ f₄ f₅ f₆ f₇ f₈ f₉ ds cq} (h : s.Canon M T) :
    ({ s with
        saved := s.saved.filter f₁, dropped := ds, formed := s.formed.filter f₂, issuers := s.issuers.filter f₃,
          jobs := s.jobs.filter f₄,
        gfx := s.gfx.filter f₅, passes := s.passes.filter f₆, holders := s.holders.filter f₇, trapReqs := s.trapReqs.filter f₈,
        eventReqs := s.eventReqs.filter f₉, cqHeld := cq } : State).Canon M T :=
  { h with
    saved := h.saved.filter, formed := h.formed.filter, issuers := h.issuers.filter, jobs := h.jobs.filter, gfx := h.gfx.filter,
    passes := h.passes.filter, holders := h.holders.filter, trapReqs := h.trapReqs.filter, eventReqs := h.eventReqs.filter }

theorem State.Canon.resetVi {vi} (h : s.Canon M T) : (s.resetVi vi).Canon M T := by
  unfold State.resetVi
  refine .resetRegs (.dropVi (.foldl (.foldl (.foldl h fun _ _ h => h.killWave) fun m n h => ?_) fun _ _ h => h.endCounter))
  have h := h.markSlot (vi := vi) (slot := n) (used := false)
  generalize m.markSlot vi n false = r at h ⊢
  obtain ⟨m, _ | _⟩ := r
  · exact h.poolFault
  · exact h

theorem State.Canon.losePeer {p} (h : s.Canon M T) : (s.losePeer p).Canon M T :=
  .settleOps (.update (h.sysSetBits.foldl fun _ _ h => h.refuse.ite h) fun h =>
    { h with lineport := h.lineport.filter, ops := h.ops.filter })

theorem State.Canon.partWords {vi va n} (h : s.Canon M T) : (s.partWords vi va n).1.Canon M T := by
  induction n generalizing s va with
  | zero => exact h
  | succ n ih =>
    unfold State.partWords
    split
    · exact h.partNum.fst ‹_›
    · split
      · exact (ih (h.partNum.fst ‹_›)).fst ‹_›
      · exact ih (h.partNum.fst ‹_›)

theorem State.Canon.startStream {i} (h : s.Canon M T) : (s.startStream i).Canon M T := by
  unfold State.startStream
  split
  · rename_i heq
    have h := h.partWords.fst heq
    exact { h with streams := h.streams.put }
  · rename_i heq
    have h := h.partWords.fst heq
    exact .update h.freeBits fun h => .ite { h with streams := h.streams.put } { h with streams := h.streams.put }

theorem State.Canon.ringSlot {i a n} (h : s.Canon M T) : (s.ringSlot i a n).1.Canon M T := by
  unfold State.ringSlot
  split
  · exact h.partWords.fst ‹_›
  · exact h.partWords

theorem State.Canon.imageRows {vi t va n acc} (h : s.Canon M T) : (s.imageRows vi t va n acc).1.Canon M T := by
  induction n generalizing s va acc with
  | zero => exact h
  | succ n ih =>
    unfold State.imageRows
    have k {l : List (Nat × Nat × Nat)} := State.Canon.foldlFst (l := l) (a := (s, some ([] : List Byte))) h
      (f := fun (r : State × Option (List Byte)) (_, a, m) =>
        match r with
        | (s, none) => (s, none)
        | (s, some bs) =>
          match s.partNum vi a m 1 with
          | (s, some x) => (s, some (bs ++ toBytes m x))
          | (s, none) => (s, none)) fun m _ h => by
        obtain ⟨m, _ | _⟩ := m
        · exact h
        · dsimp only
          split <;> exact State.Canon.fst (State.Canon.partNum h) ‹_›
    split
    · exact k.fst ‹_›
    · exact ih (k.fst ‹_›)

theorem State.Canon.sendPackets {i a n whole bs} (h : s.Canon M T) : (s.sendPackets i a n whole bs).Canon M T := by
  have count {m : State} {f} (h : m.Canon M T) : ({ m with streams := modKey m.streams i f } : State).Canon M T :=
    { h with streams := h.streams.modKey }
  exact count (h.foldl fun _ _ h => h.send)

theorem State.Canon.sendFrame {i a n kind src va} (h : s.Canon M T) : (s.sendFrame i a n kind src va).Canon M T := by
  unfold State.sendFrame
  dsimp only
  exact h.imageRows.sendPackets.partStore

end

end Sys2Proof.Machine
end

/-! System writes and the scheduler -/
section
namespace Sys2Proof.Machine
open Sys2Proof Host

section
variable {s : State} {d : Done} {M T : Prop}

theorem State.Canon.plainWrite {num i v} (h : s.Canon M T) : (s.plainWrite num i v).Canon M T := h.sysPut

theorem State.Canon.clearFatal {v} (h : s.Canon M T) : (s.clearFatal v).Canon M T :=
  .ite (h.plainWrite.foldl fun _ _ h => h.sysSetBits.ite h) h

theorem State.Canon.writeBase {num i v} (h : s.Canon M T) : (s.writeBase num i v).Canon M T := h.plainWrite.sysPut.sysPut

theorem State.Canon.wakeQueue {vi} (h : s.Canon M T) : (s.wakeQueue vi).Canon M T := { h with }

theorem State.Canon.extendMeas {m d1} (h : s.Canon M T) : (s.extendMeas m d1).Canon M T := h.foldl fun _ _ h => h.sysPut

theorem State.Canon.writeMeas {i v} (h : s.Canon M T) : (s.writeMeas i v).1.Canon M T := by
  unfold State.writeMeas
  split
  · exact h
  · dsimp only
    split
    · exact .extendMeas { h with measExt := h.measExt.put.filter }
    · exact { h with measExt := h.measExt.put }

theorem State.Canon.writeReset {v} (h : s.Canon M T) : (s.writeReset v).Canon M T := .ite h.warmStart (.ite h.resetVi h)

theorem State.Canon.writeRun {v} (h : s.Canon M T) : (s.writeRun v).Canon M T := .ite (h.plainWrite.ite { h.plainWrite with }) h

theorem State.Canon.writeStream {i v} (h : s.Canon M T) : (s.writeStream i v).Canon M T :=
  h.plainWrite.startStream.ite (have h := h.plainWrite; { h with streams := h.streams.del })

theorem State.Canon.writePeer {p v} (h : s.Canon M T) : (s.writePeer p v).Canon M T := h.plainWrite.losePeer.ite h.plainWrite

theorem State.Canon.sysWrite {num i v level vi} (h : s.Canon M T) : (s.sysWrite num i v level vi).1.Canon M T := by
  unfold State.sysWrite
  split
  · exact h.clearFatal
  · exact h.writeBase
  · exact h.writeBase.drainEvents
  · exact h.plainWrite.drainEvents
  · exact h.writeBase.wakeQueue
  · exact h.plainWrite.wakeQueue
  · exact h.writeBankMode
  · exact h.ite h.plainWrite
  · exact h.viStop.ite h
  · exact h.ite h.plainWrite
  · exact h.writePeer
  · exact h.writeRun
  · exact h.writeReset
  · exact h.writeMeas
  · exact h.writeStream
  · split
    · split
      · exact h
      · exact h.plainWrite
    · exact h.plainWrite

theorem CanonEff.sysEff {i wait eff} (he : ∀ s c w run, s.Canon M T → (eff s c w run).s.Canon M T) :
    CanonEff (sysEff i wait eff) M T := by
  intro s c w run h
  unfold Machine.sysEff
  split
  · exact .foldl h fun _ _ h => h.waitLane.modLane
  · exact he _ _ _ _ (.foldl h fun _ _ h => h.addFence)

theorem State.Canon.sysOp {i wait eff} (h : s.Canon M T) (he : ∀ s c w run, s.Canon M T → (eff s c w run).s.Canon M T) :
    CanonOut (sysOp i wait eff s) M T := h.runLanes (.sysEff he)

theorem State.Canon.sysrdEff {x c w run} (h : s.Canon M T) : (sysrdEff x s c w run).s.Canon M T := by
  unfold Machine.sysrdEff
  refine h.foldlDone fun _ _ h => ?_
  dsimp only
  split
  · exact h
  · exact h.putV

theorem State.Canon.syswrEff {x c w run} (h : s.Canon M T) : (syswrEff x s c w run).s.Canon M T := by
  unfold Machine.syswrEff
  dsimp only
  split
  · exact h.foldl fun _ _ h => h.modLane
  · split
    · exact h
    · split <;> exact h.sysWrite.fst ‹_›

theorem State.Canon.icinvEff {c w run} (h : s.Canon M T) : (icinvEff s c w run).s.Canon M T :=
  { h with cores := h.cores.map fun _ => rfl, waves := h.waves.map fun _ => rfl }

theorem State.Canon.dcwbEff {c w run} (h : s.Canon M T) : (dcwbEff s c w run).s.Canon M T :=
  .settleOps (h.foldl fun _ _ h => h.writeBack)

theorem State.Canon.xlinv {es} (h : s.Canon M T) : (s.xlinv es).Canon M T :=
  .update (h.foldl fun _ _ h => h.recallPage.ite h) fun h => { h with }

theorem State.Canon.xlinvWalks {vi va} (h : s.Canon M T) : (s.xlinvWalks vi va).Canon M T := { h with }

theorem State.Canon.xlinvAt {vi va} (h : s.Canon M T) : (s.xlinvAt vi va).Canon M T := h.xlinv.xlinvWalks.settleOps

theorem State.Canon.xlinvEff {x c w run} (h : s.Canon M T) : (xlinvEff x s c w run).s.Canon M T := h.foldl fun _ _ h => h.xlinvAt

theorem State.Canon.xlinvAllEff {c w run} (h : s.Canon M T) : (xlinvAllEff s c w run).s.Canon M T := h.xlinvAt

theorem State.Canon.eretEff {c w run} (h : s.Canon M T) : (eretEff s c w run).s.Canon M T := by
  unfold Machine.eretEff
  dsimp only
  split
  · exact h.foldl fun _ _ h => h.eretLane
  · split
    · exact .firmwareTrap (h.foldl fun _ _ h => h.eretLane)
    · exact .doubleFault (h.foldl fun _ _ h => h.eretLane)

theorem State.Canon.launchJob {vi num x} (h : s.Canon M T) : (s.launchJob vi num x).1.Canon M T := by
  unfold State.launchJob
  dsimp only
  split
  · exact h
  · split
    · exact h.readProg.fst ‹_›
    · split <;> exact h.readProg.fst ‹_›

theorem State.Canon.cmdError {vi num tag detail} (h : s.Canon M T) : (s.cmdError vi num tag detail).Canon M T := h.event

theorem State.Canon.takeEntry {vi} (h : s.Canon M T) : (s.takeEntry vi).1.Canon M T := by
  unfold State.takeEntry
  dsimp only
  split
  · rename_i heq
    have h := h.partWords.fst heq
    exact .cmdError { h with }
  · exact (h.partWords.fst ‹_›).sysSetBits

theorem State.Canon.finishJob {lid j} (h : s.Canon M T) : (s.finishJob lid j).Canon M T :=
  .foldl (.update (.event (h.endCounter.ite h)) fun h => { h with jobs := h.jobs.filter }) fun _ _ h => h.event

theorem State.Canon.drainLevel {lid l} (h : s.Canon M T) : (s.drainLevel lid l).Canon M T := by
  unfold State.drainLevel
  split
  · exact h
  · exact h.foldl fun _ _ h => h.modJob.finishJob.ite (h.modJob.event.ite h.modJob)

theorem State.Canon.drainJobs (h : s.Canon M T) : (s.drainJobs).Canon M T := h.foldl fun _ _ h => h.foldl fun _ _ h => h.drainLevel

theorem State.Canon.startJob {lid j} (h : s.Canon M T) : (s.startJob lid j).Canon M T :=
  .foldl { h with jobs := h.jobs.put } fun _ _ h => h.foldl fun _ _ h => { h with issuers := h.issuers.put }

theorem State.Canon.clearArea {core a n} (h : s.Canon M T) : (s.clearArea core a n).Canon M T := { h with spad := h.spad.filter }

theorem State.Canon.placeLaunched {id i j p} (h : s.Canon M T) : (s.placeLaunched id i j p).Canon M T :=
  .modIssuer (.setWave (.clearArea { h with }))

theorem State.Canon.placeSpawned {fid f j p} (h : s.Canon M T) : (s.placeSpawned fid f j p).Canon M T :=
  .foldl (.setWave (.clearArea { h with formed := h.formed.del })) fun _ _ h => h.modIssuer.ite h

theorem State.Canon.placeGraphics {fid f core p} (h : s.Canon M T) : (s.placeGraphics fid f core p).Canon M T :=
  .setWave (.clearArea { h with formed := h.formed.del })

theorem State.Canon.spawnCause {r j a} (h : s.Canon M T) : (s.spawnCause r j a).1.Canon M T := by
  unfold State.spawnCause
  dsimp only
  split
  · exact h.readProg.fst ‹_›
  · split
    · exact h.readProg.fst ‹_›
    · split
      · split
        · exact h.readProg.fst ‹_›
        · split <;> exact h.readProg.fst ‹_›
      · split
        · exact h.readProg.fst ‹_›
        · split <;> exact h.readProg.fst ‹_›

theorem State.Canon.createChild {r lid j a p} (h : s.Canon M T) : (s.createChild r lid j a p).Canon M T :=
  .ite (.discardIssuer (.modJob { h with issuers := h.issuers.put })) (.modJob { h with issuers := h.issuers.put })

theorem State.Canon.answerSpawn {id r st} (h : s.Canon M T) : (s.answerSpawn id r st).Canon M T :=
  .foldl { h with spawns := h.spawns.del } fun _ _ h => h.ite h.putV.leave

theorem State.Canon.refuseSpawn {id r cs} (h : s.Canon M T) : (s.refuseSpawn id r cs).Canon M T :=
  .foldl (.foldl { h with spawns := h.spawns.del } fun _ _ h => h.modLane) fun _ _ h => h.raiseTraps

theorem State.Canon.spawnCauses {r j} (h : s.Canon M T) : (s.spawnCauses r j).1.Canon M T := by
  unfold State.spawnCauses
  refine h.foldlFst fun _ _ h => ?_
  split
  split
  exact h.spawnCause.fst ‹_›

theorem State.Canon.spawnItems {id lid r j cs} (h : s.Canon M T) : (s.spawnItems id lid r j cs).Canon M T := by
  unfold State.spawnItems
  dsimp only
  refine .answerSpawn ?_
  refine h.giveUnits.foldl fun _ _ h => ?_
  split
  · exact h.ite h.createChild
  · exact h

theorem State.Canon.packGroup {core g} (h : s.Canon M T) : (s.packGroup core g).Canon M T := by
  have form {m : State} {id f} (h : m.Canon M T) : ({ m with formed := put m.formed id f } : State).Canon M T :=
    { h with formed := h.formed.put }
  unfold State.packGroup
  split
  · exact h
  · exact .modCore (form (.giveUnits (.foldl h.fresh fun _ _ h => h.modIssuer)))

theorem State.Canon.completeIssuer {id} (h : s.Canon M T) : (s.completeIssuer id).Canon M T :=
  h.modIssuer.ite (.pruneDone { h with issuers := h.issuers.del })

theorem State.Canon.freeSlot {x} (h : s.Canon M T) : (s.freeSlot x).Canon M T := by
  generalize hf : @State.freeSlot = f
  unfold State.freeSlot at hf
  subst hf
  have h := h.markSlot (vi := x.wave.vi) (slot := x.slot) (used := false)
  dsimp only
  generalize s.markSlot x.wave.vi x.slot false = r at h ⊢
  obtain ⟨m, b⟩ := r
  cases b with
  | false => exact h.poolFault
  | true => exact h

theorem State.Canon.dropSaved {wid x} (h : s.Canon M T) : (s.dropSaved wid x).Canon M T := h.killSaved.freeSlot

theorem State.Canon.forgetSaved {wid x} (h : s.Canon M T) : (s.forgetSaved wid x).Canon M T := by
  have drop {m : State} (h : m.Canon M T) : ({ m with saved := del m.saved wid } : State).Canon M T := { h with saved := h.saved.del }
  exact (drop (State.Canon.foldl h.savedReports fun _ _ h => h.dueRecords).dropFlight.disarm).settleBarriers.freeSlot

theorem State.Canon.cancelOn {lid core} (h : s.Canon M T) : (s.cancelOn lid core).Canon M T := by
  have drop {m : State} {f} (h : m.Canon M T) : ({ m with formed := m.formed.filter f } : State).Canon M T :=
    { h with formed := h.formed.filter }
  refine .drainJobs (.stopCmds (drop (.foldl (.foldl ?killed fun _ _ h => h.dropSaved) fun _ _ h => h.discardVersions.discardIssuer)))
  exact h.modJob.foldl fun _ _ h => h.killWave

end

end Sys2Proof.Machine
end

/-! Saved waves -/
section
namespace Sys2Proof.Machine
open Sys2Proof Host

section
variable {s : State} {d : Done} {M T : Prop}

theorem State.Canon.freeBytes {n} (h : s.Canon M T) : (s.freeBytes n).1.Canon M T := by
  induction n generalizing s with
  | zero => exact h
  | succ n ih => exact ih h.freeBits

theorem State.Canon.storeLong {vi f va bs} (h : s.Canon M T) : (s.storeLong vi f va bs).1.Canon M T := by
  induction f generalizing s va bs with
  | zero => exact h
  | succ f ih =>
    unfold State.storeLong
    dsimp only
    split
    · exact h
    · split
      · exact h.partStore.fst ‹_›
      · exact ih (h.partStore.fst ‹_›)

theorem State.Canon.saveImage {wid w slot} (h : s.Canon M T) : (s.saveImage wid w slot).1.Canon M T := by
  unfold State.saveImage
  refine .foldlFst h.freeBytes fun m x h => ?_
  split
  · exact h.storeLong
  · exact h

theorem State.Canon.imageWords {vi va n} (h : s.Canon M T) : (s.imageWords vi va n).1.Canon M T := by
  induction n generalizing s va with
  | zero => exact h
  | succ n ih =>
    unfold State.imageWords
    split
    · exact h.partNum.fst ‹_›
    · split
      · exact (ih (h.partNum.fst ‹_›)).fst ‹_›
      · exact (ih (h.partNum.fst ‹_›)).fst ‹_›

theorem State.Canon.freeImage {vi} (h : s.Canon M T) : (s.freeImage vi).1.Canon M T := by
  unfold State.freeImage
  dsimp only
  split
  · exact h
  · split <;> exact h.poolBits.fst ‹_›

theorem State.Canon.takeMatrix {wid w} (h : s.Canon M T) : (s.takeMatrix wid w).2.2.2.Canon M T := by
  unfold State.takeMatrix
  dsimp only
  exact h.modCore

theorem State.Canon.withdrawForSave {wid w} (h : s.Canon M T) : (s.withdrawForSave wid w).Canon M T := by
  have park {m : State} {f : Nat × Op → Nat × Op} (h : m.Canon M T) (hf : ∀ x, (f x).1 = x.1) :
      ({ m with ops := m.ops.map f } : State).Canon M T := { h with ops := h.ops.map hf }
  exact park h.withdraw.modWave fun _ => rfl

theorem State.Canon.storeAway {wid w slot} (h : s.Canon M T) : (s.storeAway wid w slot).Canon M T := by
  have move {m : State} {x} (h : m.Canon M T) :
      ({ m with waves := del m.waves wid, saved := put m.saved wid x } : State).Canon M T := { h with
          waves := h.waves.del, saved := h.saved.put }
  unfold State.storeAway
  exact .settleMatrix (.shadowOps (move (.foldl h.takeMatrix.fresh fun _ _ h => h.modIssuer)))

theorem State.Canon.saveWave {wid slot w} (h : s.Canon M T) : (s.saveWave wid slot w).Canon M T := by
  unfold State.saveWave
  split
  · exact (h.saveImage.fst ‹_›).poolFault
  · exact (h.saveImage.fst ‹_›).storeAway

theorem State.Canon.saveIn {wid slot w} (h : s.Canon M T) : (s.saveIn wid slot w).Canon M T := by
  generalize hf : @State.saveIn = f
  unfold State.saveIn at hf
  subst hf
  have h := h.markSlot (vi := w.vi) (slot := slot) (used := true)
  dsimp only
  generalize s.markSlot w.vi slot true = r at h ⊢
  obtain ⟨m, b⟩ := r
  cases b with
  | false => exact h.poolFault
  | true => exact h.withdrawForSave.saveWave

theorem State.Canon.imageWord {x} (h : s.Canon M T) : (s.imageWord x).1.Canon M T := h.partNum

theorem State.Canon.repost {wid ws at_} (h : s.Canon M T) : (s.repost wid ws at_).Canon M T :=
  h.foldl fun _ _ h => { h with ops := h.ops.put }

theorem State.Canon.putBack {wid x ws slot pos} (h : s.Canon M T) : (s.putBack wid x ws slot pos).Canon M T :=
  .repost (.foldl (.setWave (.modCore (have h := h.clearArea;
    { h with spad := h.spad.foldl fun _ _ h => h.put, saved := h.saved.del }))) fun _ _ h => h.modIssuer.ite h)

theorem State.Canon.killRestored {wid x} (h : s.Canon M T) : (s.killRestored wid x).Canon M T := h.killWave.event

theorem State.Canon.cameBack {wid x h1} (h : s.Canon M T) : (s.cameBack wid x h1).Canon M T :=
  h.killRestored.freeSlot.ite h.settleBanks.settleOrd.settleBarriers.freeSlot

theorem State.Canon.bringBack {wid x slot pos} (h : s.Canon M T) : (s.bringBack wid x slot pos).Canon M T := by
  generalize hf : @State.bringBack = f
  unfold State.bringBack at hf
  subst hf
  have h := h.imageWord (x := x)
  dsimp only
  generalize s.imageWord x = r at h ⊢
  obtain ⟨m, _ | n⟩ := r
  · exact h.poolFault
  · have h := State.Canon.imageWords h (vi := x.wave.vi) (va := m.imageVa x.wave.vi x.slot + 0x40) (n := (m.savedSize x + 3) / 4)
    dsimp only
    generalize m.imageWords x.wave.vi (m.imageVa x.wave.vi x.slot + 0x40) ((m.savedSize x + 3) / 4) = r at h ⊢
    obtain ⟨m, _ | ws⟩ := r
    · exact h.poolFault
    · exact h.putBack.cameBack

end

end Sys2Proof.Machine
end

/-! Links and health -/
section
namespace Sys2Proof.Machine
open Sys2Proof Host

section
variable {s : State} {d : Done} {M T : Prop}

theorem State.Canon.raiseWaiting {wid ks a} (h : s.Canon M T) : (s.raiseWaiting wid ks a).Canon M T := by
  unfold State.raiseWaiting
  split
  · exact h.foldl fun _ _ h => h.takeTrap
  · exact h.foldl fun _ _ h => h.modLaneAny

theorem State.Canon.stallRecord {r} (h : s.Canon M T) : (s.stallRecord r).Canon M T := by
  unfold State.stallRecord
  exact h.fatalRecord

theorem State.Canon.reportCycle {c} (h : s.Canon M T) : (s.reportCycle c).Canon M T := h.ite (.event { h with })

theorem State.Canon.refuseOuter {port cage dest pa} (h : s.Canon M T) : (s.refuseOuter port cage dest pa).Canon M T := h.send

theorem State.Canon.hostRequest {vi pa req} (h : s.Canon M T) : (s.hostRequest vi pa req).Canon M T :=
  h.ite (h.takeOuter.ite h.refuseOuter)

theorem State.Canon.doorbell {i num value} (h : s.Canon M T) : CanonOut (s.doorbell i num value) M T :=
  .ite (.next h) (.ite (.next { h with }) (.next h.sysWrite.send))

theorem State.Canon.lineEnd {o} (h : s.Canon M T) : (s.lineEnd o).Canon M T := by
  unfold State.lineEnd
  split
  · exact h.lineUse
  · exact h
  · exact h
  · exact h
  · exact h

theorem State.Canon.regWrite {num i} (h : s.Canon M T) : CanonOut (s.regWrite num i) M T := .next h.sysWrite

theorem State.Canon.loseHost {vi} (h : s.Canon M T) : (s.loseHost vi).Canon M T :=
  .settleOps (.update (h.sysSetBits.foldl fun _ _ h => h.refuse.ite h) fun h => { h with ops := h.ops.filter })

theorem State.Canon.loadImage {slot img} (h : s.Canon M T) : (s.loadImage slot img).Canon M T := by
  have k {t : State} (h : t.Canon M T) : ({ t with boot := .firmware } : State).Canon M T := { h with }
  unfold State.loadImage
  exact .modWave (k (.sysSetBits (.sysSetBits (.extendMeas (.storeBytes h)))))

theorem State.Canon.bootFails {a b} (h : s.Canon M T) : (s.bootFails a b).Canon M T :=
  .update (.sysSetBits { h with }) fun h => { h with }

theorem State.Canon.addBin {h1 b n} (h : s.Canon M T) : (s.addBin h1 b n).Canon M T := { h with hist := h.hist.put }

theorem State.Canon.addSecond {o} (h : s.Canon M T) : (s.addSecond o).Canon M T :=
  .foldl (h.sysSetBits.addBin.foldl fun _ _ h => h.addBin) fun _ _ h => h.addBin

theorem State.Canon.errorRecord {x} (h : s.Canon M T) : (s.errorRecord x).Canon M T := h.postLaneless.ite { h with }

theorem State.Canon.loseWord {core off} (h : s.Canon M T) : (s.loseWord core off).Canon M T := h.setSpad.errorRecord.settleBanks

theorem State.Canon.poisonLine {vi line} (h : s.Canon M T) : (s.poisonLine vi line).Canon M T :=
  .errorRecord (have h := h.countSlice; { h with poison := h.poison.put })

theorem State.Canon.hiddenError {vi line} (h : s.Canon M T) : (s.hiddenError vi line).Canon M T := by
  have k {m : State} (h : m.Canon M T) : ({ m with poison := put m.poison line [] } : State).Canon M T := { h with
      poison := h.poison.put }
  exact k h.countSlice

theorem State.Canon.loseSlice {n vi} (h : s.Canon M T) : (s.loseSlice n vi).Canon M T := h.stopVi.ite h.stopVi.fatalRecord

theorem State.Canon.hitAt {n} (h : s.Canon M T) : (s.hitAt n).1.Canon M T := by
  unfold State.hitAt
  refine h.foldlFst fun _ _ h => ?_
  split
  split
  · exact h
  · split
    · exact { h with }
    · exact h

theorem State.Canon.setClock {row mhz} (h : s.Canon M T) : (s.setClock row mhz).Canon M T :=
  .sysSetBits (.sysSetBits { h with clocks := h.clocks.del.ite h.clocks.put })

end

end Sys2Proof.Machine
end

/-! Issue, time and the next event -/
section
namespace Sys2Proof.Machine
open Sys2Proof Host

section
variable {s : State} {d : Done} {M T : Prop}

theorem State.Canon.wakeWaits {wid w} (h : s.Canon M T) : (s.wakeWaits wid w).Canon M T := by
  unfold State.wakeWaits
  refine h.foldl fun _ _ h => ?_
  dsimp only
  split
  · exact h.ite h.leave
  · exact h.leave.ite h
  · exact h

theorem State.Canon.deliverTrap {wid k} (h : s.Canon M T) : (s.deliverTrap wid k).Canon M T := by
  unfold State.deliverTrap
  dsimp only
  split
  · exact h
  · exact h.ite (.ite (.raiseWaiting (h.foldl fun _ _ h => h.modLane)) h.modLane.takeTrap)

theorem State.Canon.startCycle {core} (h : s.Canon M T) : (s.startCycle core).Canon M T := by
  have opened {m : State} {f : Nat × Wave → Nat × Wave} (h : m.Canon M T) (hf : ∀ x, (f x).1 = x.1) :
      ({ m with waves := m.waves.map f } : State).Canon M T := { h with waves := h.waves.map hf }
  refine .foldl (.settleAsks (.retryPostings (.wakeCommit (.settleLeaves (.settleMatrix (.issueSigned ?cycle)))))) fun _ _ h =>
    h.wakeWaits.foldl fun _ _ h => h.deliverTrap
  exact opened h.turnCounters.modCore fun _ => rfl

theorem State.Canon.countCycle {core got solos} (h : s.Canon M T) : (s.countCycle core got solos).Canon M T := by
  refine .ite h (.foldl (.countWhere (.ite (.countWhere ?counted) ?counted)) fun _ _ h => .countCore { h with })
  exact .foldl (.foldl (h.foldl fun _ _ h => h.countCore) fun _ _ h => h.countCore) fun _ _ h => h.countCore

theorem State.Canon.decideIssues {core} (h : s.Canon M T) : (s.decideIssues core).1.Canon M T := by
  have k {t : State} {f : Nat × Wave → Nat × Wave} (h : t.Canon M T) (hf : ∀ x, (f x).1 = x.1) :
      ({ t with waves := t.waves.map f } : State).Canon M T := { h with waves := h.waves.map hf }
  unfold State.decideIssues
  dsimp only
  refine .countCycle (k h.startCycle fun x => ?_)
  split
  · split <;> rfl
  · rfl

theorem State.Canon.soloArrives {wid k w l got x} (h : s.Canon M T) : (s.soloArrives wid k w l got x).Canon M T :=
  h.modLane.modCore.countCore

theorem State.Canon.tick (h : s.Canon M T) : s.tick.Canon M T := by
  unfold State.tick
  exact .update (.foldl (.foldl h fun _ _ h => h.countShared) fun _ _ h => .foldl h fun _ _ h => h.freeBits.choose.countSlice)
    fun h => { h with }

theorem State.Canon.nextEvent (h : s.Canon M T) : (s.nextEvent).1.Canon M T := by
  unfold State.nextEvent
  dsimp only
  split
  · exact h
  · split
    · exact { h with }
    · split <;> exact { h with }

end

end Sys2Proof.Machine
end

/-! The events: one lemma for each, in the order of the model -/
section
namespace Sys2Proof.Machine
open Sys2Proof Host

section
variable {s : State} {d : Done} {M T : Prop}

theorem State.Canon.execIllegalInstruction (h : s.Canon M T) : CanonOut (execIllegalInstruction s) M T := by
  unfold Machine.execIllegalInstruction
  split
  · exact .next h
  · split
    · exact .next { h with }
    · exact .next (.raiseTraps (.noteIssue { h with }))

theorem State.Canon.execDestinationFill (h : s.Canon M T) : CanonOut (execDestinationFill s) M T := by
  unfold Machine.execDestinationFill
  dsimp only
  split
  · exact .next (.deliver { h with fills := h.fills.del })
  · split
    · exact .next h
    · split
      · exact .next h
      · split
        · exact .next h.sendAll
        · split
          · refine .ite (.next (.fillRead ?read)) (.next (.settleOps ?read))
            exact h.ite (h.foldl fun _ _ h => h.performRead)
          · exact .next (.settleOps (h.ite (h.foldl fun _ _ h => h.performRead)))

theorem State.Canon.execHomeSliceStore (h : s.Canon M T) : CanonOut (execHomeSliceStore s) M T := by
  unfold Machine.execHomeSliceStore
  dsimp only
  split
  · exact .next h
  · split
    · exact .next h
    · split
      · exact .next (.settleOps (have h := h.writeBack; { h with ops := h.ops.del }))
      · split
        · exact .next h.sendAll
        · refine .next ?_
          refine .settleOps ?_
          refine h.foldl fun _ _ h => ?_
          split
          · exact h.promote
          · exact h

theorem State.Canon.execRemoteScratchpadAccess (h : s.Canon M T) : CanonOut (execRemoteScratchpadAccess s) M T := by
  unfold Machine.execRemoteScratchpadAccess
  dsimp only
  split
  · exact .next h
  · exact .ite (.next (.settleBanks (h.foldl fun _ _ h => h.arriveAt))) (.ite (.next h.settleBanks) (.next h))

theorem State.Canon.execRowBarrierTimeout (h : s.Canon M T) : CanonOut (execRowBarrierTimeout s) M T := by
  unfold Machine.execRowBarrierTimeout
  dsimp only
  split
  · exact .ite (.next h) (.next h.takeTrap)
  · exact .next h

theorem State.Canon.execTillTake (h : s.Canon M T) : CanonOut (execTillTake s) M T := by
  unfold Machine.execTillTake
  dsimp only
  split
  · exact .next h
  · split
    · exact .next h
    · split
      · exact .next h.trapTill
      · split
        · exact .ite (.next h.startStock) (.next h.grant.tillLinks.endTill.modTill)
        · exact .ite (.ite (.next h.modTill.examine) (.next h)) (.ite (.next h.endTill) (.next h.queueTake))
        · exact .next h
        · exact .next h
        · exact .next h

theorem State.Canon.execTillGive (h : s.Canon M T) : CanonOut (execTillGive s) M T := by
  unfold Machine.execTillGive
  dsimp only
  split
  · exact .next h
  · split
    · exact .next h
    · split
      · exact .next h.trapTill
      · exact .ite (.next h.modTill.markTill.endTill) (.ite (.next h.startStock) (.next h.modTill.markTill.endTill))

theorem State.Canon.execTillAcinit (h : s.Canon M T) : CanonOut (execTillAcinit s) M T := by
  unfold Machine.execTillAcinit
  dsimp only
  split
  · exact .next h
  · split
    · exact .next h
    · split
      · exact .ite (.next h.trapTill) (.ite (.next h.trapTill) (.next h.startStock))
      · exact .ite (.next h.trapTill) (.ite (.next h.trapTill) (.ite (.next h.endTill)
          (.next (.endTill (.markTill (.writeImage (have h := h.recallLine; { h with tills := h.tills.put })))))))

theorem State.Canon.execTillStock (h : s.Canon M T) : CanonOut (execTillStock s) M T := by
  unfold Machine.execTillStock
  dsimp only
  split
  · exact .next h
  · split
    · exact .next h
    · split
      · exact .next h.startStock
      · exact .next h.fillStock

theorem State.Canon.execStocktakeRecall (h : s.Canon M T) : CanonOut (execStocktakeRecall s) M T := by
  unfold Machine.execStocktakeRecall
  dsimp only
  split
  · exact .next h
  · split
    · exact .next h
    · exact .next h.finishStock
    · exact .next h.returnAllowance.finishStock
    · exact .next h.returnAllowance.modTill

theorem State.Canon.execAllowanceWaitTimeout (h : s.Canon M T) : CanonOut (execAllowanceWaitTimeout s) M T := by
  unfold Machine.execAllowanceWaitTimeout
  dsimp only
  split
  · exact .next h
  · exact .ite (.next h) (.next h.takeTrap)

theorem State.Canon.execKset {w x} (h : s.Canon M T) : CanonOut (execKset w x s) M T :=
  .ite (h.waveOp fun _ _ _ _ h => h.fxKsetW) h.bitOp

theorem State.Canon.execDPageAccess (h : s.Canon M T) : CanonOut (execDPageAccess s) M T := by
  unfold Machine.execDPageAccess
  dsimp only
  split
  · exact .next h
  · split
    · exact .next h
    · refine .next ?_
      refine .settleOps ?_
      refine h.foldl fun _ _ h => ?_
      split
      · exact h.performD
      · exact h

theorem State.Canon.execVersionShareAbort (h : s.Canon M T) : CanonOut (execVersionShareAbort s) M T := by
  unfold Machine.execVersionShareAbort
  split
  · exact .next h.countSlice.abortAll.settleOps
  · exact .next h

theorem State.Canon.execCommit (h : s.Canon M T) : CanonOut (execCommit s) M T := by
  unfold Machine.execCommit
  dsimp only
  split
  · exact .next h
  · split
    · exact .next h
    · exact .next h.commitIssuer

theorem State.Canon.execHeldWrite (h : s.Canon M T) : CanonOut (execHeldWrite s) M T := by
  unfold Machine.execHeldWrite
  dsimp only
  split
  · exact .next h
  · exact .ite (.next (.settleOps (.serveOuter { h with held := h.held.del }))) (.next h)

theorem State.Canon.execCommitWaitTimeout (h : s.Canon M T) : CanonOut (execCommitWaitTimeout s) M T := by
  unfold Machine.execCommitWaitTimeout
  dsimp only
  split
  · exact .ite (.next h.takeTrap) (.next h)
  · exact .next h

theorem State.Canon.execEngineQueueTimeout (h : s.Canon M T) : CanonOut (execEngineQueueTimeout s) M T := by
  unfold Machine.execEngineQueueTimeout
  dsimp only
  split
  · exact .next h
  · exact .ite (.next h.takeTrap.settleOps) (.next h)

theorem State.Canon.execTileCopyRow (h : s.Canon M T) : CanonOut (execTileCopyRow s) M T := by
  unfold Machine.execTileCopyRow
  split
  · exact .next h
  · exact .ite (.next (h.copyRow.getD h)) (.next h)

theorem State.Canon.execFconvTile (h : s.Canon M T) : CanonOut (execFconvTile s) M T := by
  unfold Machine.execFconvTile
  split
  · exact .next h
  · exact .ite (.next (h.convStep.getD h)) (.next h)

theorem State.Canon.execSredElement (h : s.Canon M T) : CanonOut (execSredElement s) M T := by
  unfold Machine.execSredElement
  split
  · exact .next h
  · exact .ite (.next (h.redStep.getD h)) (.next h)

theorem State.Canon.execEmbagBag (h : s.Canon M T) : CanonOut (execEmbagBag s) M T := by
  unfold Machine.execEmbagBag
  split
  · exact .next h
  · exact .ite (.next (h.bagStep.getD h)) (.next h)

theorem State.Canon.execLateDelivery (h : s.Canon M T) : CanonOut (execLateDelivery s) M T := by
  unfold Machine.execLateDelivery
  dsimp only
  split
  · exact .next h
  · exact .ite (.next (.engineTrap { h with cmds := h.cmds.put })) (.next h)

theorem State.Canon.execSigningTimeout (h : s.Canon M T) : CanonOut (execSigningTimeout s) M T := by
  unfold Machine.execSigningTimeout
  dsimp only
  split
  · exact .ite (.next h.takeTrap) (.next h)
  · exact .next h

theorem State.Canon.execArmingTimeout (h : s.Canon M T) : CanonOut (execArmingTimeout s) M T := by
  unfold Machine.execArmingTimeout
  dsimp only
  split
  · exact .next h
  · exact .next h.raiseTraps.settleMatrix

theorem State.Canon.execMatrixClaimTimeout (h : s.Canon M T) : CanonOut (execMatrixClaimTimeout s) M T := by
  unfold Machine.execMatrixClaimTimeout
  dsimp only
  split
  · exact .next h
  · exact .next h.raiseTraps.serveClaims

theorem State.Canon.execMatrixEntry (h : s.Canon M T) : CanonOut (execMatrixEntry s) M T := by
  unfold Machine.execMatrixEntry
  dsimp only
  split
  · exact .next h
  · exact .ite (.next h) (.next h.performHead)

theorem State.Canon.execTableSlotFill (h : s.Canon M T) : CanonOut (execTableSlotFill s) M T := by
  unfold Machine.execTableSlotFill
  dsimp only
  split
  · exact .next h
  · split
    · exact .next h
    · split
      · exact .next h.modCore.setReport.settleMatrix
      · exact .next h.fillSlot
      · exact .next h.fillSlot

theorem State.Canon.execBankSwitchComplete (h : s.Canon M T) : CanonOut (execBankSwitchComplete s) M T := by
  unfold Machine.execBankSwitchComplete
  dsimp only
  split
  · exact .next h
  · exact .ite (.next h) (.next h.switched)

theorem State.Canon.execBankmodeWrite (h : s.Canon M T) : CanonOut (execBankmodeWrite s) M T := .ite (.next h.writeBankMode) (.next h)

theorem State.Canon.execFliPerform (h : s.Canon M T) : CanonOut (execFliPerform s) M T := by
  unfold Machine.execFliPerform
  dsimp only
  split
  · exact .next h
  · split
    · exact .next h
    · split
      · exact .next { h with gfx := h.gfx.del }
      · split
        · exact .next h.barGfx
        · split
          · exact .next (.ite (h.heldBy (h.fliStep.fst ‹_›)) (h.fliStep.fst ‹_›).failGfx)
          · exact .next (h.fliStep.fst ‹_›).failGfx
          · exact .next (h.fliStep.fst ‹_›).fillGfx

theorem State.Canon.execFlwPerform (h : s.Canon M T) : CanonOut (execFlwPerform s) M T := by
  have start {c : Prop} [Decidable c] {p core x n} : (if c then
        match s.readLoc p core 8 x with
        | (s, .ok h) => (s, .ok (bits h 31 0))
        | (s, .error e) => (s, .error e)
      else (s, Except.ok (ε := Nat × Nat) n)).1.Canon M T := by
    split
    · split <;> exact h.readLoc.fst ‹_›
    · exact h
  unfold Machine.execFlwPerform
  dsimp only
  split
  · exact .next h
  · split
    · exact .next h
    · split
      · exact .next { h with gfx := h.gfx.del }
      · split
        · exact .next (.ite (h.heldBy (start.fst ‹_›)) (start.fst ‹_›).failGfx)
        · rename_i heq
          have k := start.fst heq
          split
          · exact .next k.fillGfx
          · split
            · exact .next k.failGfx
            · split
              · exact .next (.ite (k.heldBy (k.readLoc.fst ‹_›)) (k.readLoc.fst ‹_›).failGfx)
              · exact .next (k.readLoc.fst ‹_›).fillGfx

theorem State.Canon.execDrawAccept (h : s.Canon M T) : CanonOut (execDrawAccept s) M T := by
  unfold Machine.execDrawAccept
  dsimp only
  split
  · exact .next h
  · split
    · split
      · exact .next h.raiseTraps
      · split
        · exact .ite (.next (h.heldBy (h.readRecords.fst ‹_›))) (.next (h.readRecords.fst ‹_›).raiseTraps)
        · exact .next (h.readRecords.fst ‹_›).acceptDraw
    · exact .next h

theorem State.Canon.execGraphicsTimeout (h : s.Canon M T) : CanonOut (execGraphicsTimeout s) M T :=
  .next (h.foldl fun _ _ h => h.trapAsk)

theorem State.Canon.execRasterWaveForm (h : s.Canon M T) : CanonOut (execRasterWaveForm s) M T := by
  unfold Machine.execRasterWaveForm
  dsimp only
  split
  · exact .next h
  · split
    · exact .next h
    · exact .ite (.next h) (.next h.formFragments)

theorem State.Canon.execResolvePhase (h : s.Canon M T) : CanonOut (execResolvePhase s) M T := by
  unfold Machine.execResolvePhase
  dsimp only
  split
  · exact .next h
  · split
    · exact .next h
    · split
      · exact .next (have h := h.resolveAt; { h with passes := h.passes.put })
      · refine .next ?_
        split
        · exact h.heldBy (h.resolveAt.resolveHeld _ ‹_›)
        · exact h.resolveAt.formResolve

theorem State.Canon.execPassClose (h : s.Canon M T) : CanonOut (execPassClose s) M T := by
  unfold Machine.execPassClose
  dsimp only
  split
  · exact .next h
  · exact .ite (.next h) (.next h.closePass)

theorem State.Canon.execOrdEntryTimeout (h : s.Canon M T) : CanonOut (execOrdEntryTimeout s) M T := by
  unfold Machine.execOrdEntryTimeout
  dsimp only
  split
  · exact .ite (.next h.modLane.raiseNow) (.next h)
  · exact .next h

theorem State.Canon.execOrdSectionTimeout (h : s.Canon M T) : CanonOut (execOrdSectionTimeout s) M T := by
  unfold Machine.execOrdSectionTimeout
  dsimp only
  split
  · exact .ite (.next h.modLane.raiseNow) (.next h)
  · exact .next h

theorem State.Canon.execRayTraversal (h : s.Canon M T) : CanonOut (execRayTraversal s) M T := by
  have found {c : Bool} {g w r n l} : (if c then s.traverse g w r n l [] else (s, .hits [])).1.Canon M T := by
    split
    · exact h.traverse
    · exact h
  unfold Machine.execRayTraversal
  dsimp only
  split
  · exact .next h
  · split
    · exact .next h
    · split
      · exact .next { h with gfx := h.gfx.del }
      · split
        · exact .next (found.fst ‹_›)
        · exact .next (found.fst ‹_›).trapGfx
        · rename_i heq
          have k := found.fst heq
          split
          · exact .next k.endRay
          · split
            · exact .next (.ite (k.heldBy (k.appendHits.fst ‹_›)) (k.appendHits.fst ‹_›).trapGfx)
            · exact .next (k.appendHits.fst ‹_›).endRay

theorem State.Canon.execTimeSliceEnd (h : s.Canon M T) : CanonOut (execTimeSliceEnd s) M T := by
  unfold Machine.execTimeSliceEnd
  dsimp only
  split
  · exact .next h
  · split
    · split
      · exact .next h.startSlice
      · exact .next h
    · split
      · exact .next h.handOver
      · split
        · exact .next h.restoreStores
        · exact .ite (.next (h.sysSetBits.startSlice.ite h.sysSetBits)) (.next h.endSlice)

theorem State.Canon.execVistop (h : s.Canon M T) : CanonOut (execVistop s) M T := .next h.viStop

theorem State.Canon.execColdReset (h : s.Canon M T) : CanonOut (execColdReset s) M T := .next h.coldStart

theorem State.Canon.execWarmReset (h : s.Canon M T) : CanonOut (execWarmReset s) M T := .next h.warmStart

theorem State.Canon.execThermalTrip (h : s.Canon M T) : CanonOut (execThermalTrip s) M T :=
  .ite (.next h) (.next (.coldStart (.fatalInterrupt (h.foldl fun _ _ h => h.stopVi))))

theorem State.Canon.execPowerLoss (h : s.Canon M T) : CanonOut (execPowerLoss s) M T := .next { h with hist := h.histSaved }

theorem State.Canon.execInterfaceReset (h : s.Canon M T) : CanonOut (execInterfaceReset s) M T := .next h.resetVi

theorem State.Canon.execPeerLost (h : s.Canon M T) : CanonOut (execPeerLost s) M T := .ite (.next h.losePeer) (.next h)

theorem State.Canon.execFrameDeadline (h : s.Canon M T) : CanonOut (execFrameDeadline s) M T := by
  have keep {m : State} {i t} (h : m.Canon M T) : ({ m with streams := put m.streams i t } : State).Canon M T :=
    { h with streams := h.streams.put }
  have last {m : State} {c : Prop} [Decidable c] {i t n} (h : m.Canon M T) :
      (if c then (m, none) else m.ringSlot i t n).1.Canon M T := by
    split
    · exact h
    · exact h.ringSlot
  unfold Machine.execFrameDeadline
  dsimp only
  split
  · exact .next h
  · split
    · exact .next h
    · split
      · exact .next (keep h.ringSlot).sendFrame
      · split
        · exact .next (keep (last h.ringSlot).freeBits).partStore
        · exact .next (keep (last h.ringSlot)).sendFrame

theorem State.Canon.execLaunch (h : s.Canon M T) : CanonOut (execLaunch s) M T := by
  unfold Machine.execLaunch
  dsimp only
  split
  · exact .next h
  · split
    · exact .next (h.takeEntry.fst ‹_›)
    · rename_i heq
      have h := h.takeEntry.fst heq
      split
      · exact .next h.cmdError
      · split
        · exact .next (h.launchJob.fst ‹_›).cmdError
        · rename_i heq
          have h := h.launchJob.fst heq
          exact .next (.update h.fresh fun h => { h with jobs := h.jobs.put })

theorem State.Canon.execCancel (h : s.Canon M T) : CanonOut (execCancel s) M T := by
  have put {m : State} {a b x y} (h : m.Canon M T) : ({ m with jobs := put (put m.jobs a x) b y } : State).Canon M T :=
    { h with jobs := h.jobs.put.put }
  unfold Machine.execCancel
  dsimp only
  split
  · exact .next h
  · split
    · exact .next (h.takeEntry.fst ‹_›)
    · split
      · exact .next (h.takeEntry.fst ‹_›).cmdError
      · split
        · exact .next (h.takeEntry.fst ‹_›).event
        · exact .next (.ite (put (h.takeEntry.fst ‹_›).fresh) (put (h.takeEntry.fst ‹_›).fresh).finishJob)

theorem State.Canon.execLaunchStart (h : s.Canon M T) : CanonOut (execLaunchStart s) M T := by
  have drop {m : State} {lid} (h : m.Canon M T) : ({ m with jobs := del m.jobs lid } : State).Canon M T :=
    { h with jobs := h.jobs.del }
  unfold Machine.execLaunchStart
  dsimp only
  split
  · exact .next h
  · split
    · exact .next h
    · split
      · exact .next h.startJob
      · split
        · exact .ite (.next (h.heldBy (h.engNow.fst ‹_›))) (.next (drop (h.engNow.fst ‹_›)).cmdError)
        · exact .ite (.next (drop (h.engNow.fst ‹_›)).cmdError)
            (.ite (.next (h.engNow.fst ‹_›)) (.next (h.engNow.fst ‹_›).createCounter.startJob))

theorem State.Canon.execWavePlace (h : s.Canon M T) : CanonOut (execWavePlace s) M T := by
  unfold Machine.execWavePlace
  dsimp only
  split
  · exact .next h
  · split
    · exact .next (.placeLaunched { h with })
    · split
      · exact .next (.placeGraphics { h with })
      · split
        · exact .next { h with formed := h.formed.del }
        · exact .ite (.next { h with formed := h.formed.del }) (.next (.placeSpawned { h with }))

theorem State.Canon.execSpawnDecision (h : s.Canon M T) : CanonOut (execSpawnDecision s) M T := by
  unfold Machine.execSpawnDecision
  dsimp only
  split
  · exact .next h
  · split
    · exact .next h.answerSpawn
    · split
      · exact .next h.spawnCauses.refuseSpawn
      · split
        · split
          · exact .next h.spawnCauses.answerSpawn
          · split
            · exact .next ((h.spawnCauses.tryNow.fst ‹_›).answerSpawn)
            · exact .next ((h.spawnCauses.tryNow.fst ‹_›).spawnItems)
        · split
          · exact .next h.spawnCauses.answerSpawn
          · split
            · exact .next ((h.spawnCauses.tryNow.fst ‹_›).answerSpawn)
            · exact .next ((h.spawnCauses.tryNow.fst ‹_›).spawnItems)

theorem State.Canon.execPackWave (h : s.Canon M T) : CanonOut (execPackWave s) M T := by
  unfold Machine.execPackWave
  split
  · exact .ite (.next h.packGroup) (.next h)
  · exact .next h

theorem State.Canon.execPackWaitExpire (h : s.Canon M T) : CanonOut (execPackWaitExpire s) M T := by
  unfold Machine.execPackWaitExpire
  split
  · exact .ite (.next h) (.next h.packGroup)
  · exact .next h

theorem State.Canon.execWaveComplete (h : s.Canon M T) : CanonOut (execWaveComplete s) M T := by
  unfold Machine.execWaveComplete
  dsimp only
  split
  · exact .ite (.next h.countDown.completeIssuer.settleBarriers.drainJobs) (.next h.drainJobs)
  · exact .next h.drainJobs

theorem State.Canon.execCancelReach (h : s.Canon M T) : CanonOut (execCancelReach s) M T := by
  unfold Machine.execCancelReach
  dsimp only
  split
  · exact .next h
  · exact .ite (.next h) (.next h.cancelOn)

theorem State.Canon.execForcedSave (h : s.Canon M T) : CanonOut (execForcedSave s) M T := by
  unfold Machine.execForcedSave
  split
  · exact .next h
  · exact .ite (.next h.countCore.modWave) (.next h)

theorem State.Canon.execSaveComplete (h : s.Canon M T) : CanonOut (execSaveComplete s) M T := by
  unfold Machine.execSaveComplete
  split
  · exact .next h
  · split
    · exact .next h
    · split
      · exact .next ((h.freeImage.fst ‹_›).poolFault)
      · exact .next (h.freeImage.fst ‹_›)
      · exact .next ((h.freeImage.fst ‹_›).saveIn)

theorem State.Canon.execWaveRestore (h : s.Canon M T) : CanonOut (execWaveRestore s) M T := by
  unfold Machine.execWaveRestore
  split
  · exact .next h
  · split
    · exact .next h
    · split
      · exact .next h.forgetSaved.drainJobs
      · split
        · exact .next { h with saved := h.saved.put }
        · split
          · exact .next h
          · exact .next h.bringBack

theorem State.Canon.execBarrierTimeout (h : s.Canon M T) : CanonOut (execBarrierTimeout s) M T := by
  unfold Machine.execBarrierTimeout
  dsimp only
  split
  · exact .next h
  · exact .ite (.next h) (.next (.foldl { h with barriers := h.barriers.del } fun _ _ h => h.raiseWaiting))

theorem State.Canon.execSleepWake (h : s.Canon M T) : CanonOut (execSleepWake s) M T := by
  unfold Machine.execSleepWake
  split
  · exact .ite (.next h.leave) (.next h)
  · exact .next h

theorem State.Canon.execTrapHandlerEntry (h : s.Canon M T) : CanonOut (execTrapHandlerEntry s) M T := by
  have drop {m : State} {id} (h : m.Canon M T) : ({ m with trapReqs := del m.trapReqs id } : State).Canon M T :=
    { h with trapReqs := h.trapReqs.del }
  have hold {m : State} {id r} (h : m.Canon M T) : ({ m with trapReqs := put m.trapReqs id r } : State).Canon M T :=
    { h with trapReqs := h.trapReqs.put }
  unfold Machine.execTrapHandlerEntry
  dsimp only
  split
  · exact .next h
  · split
    · exact .next h
    · split
      · exact .next (drop h).enterHandler
      · split
        · exact .next (h.ringRecord.fst ‹_›)
        · exact .next (drop (h.ringRecord.fst ‹_›)).fatal
        · exact .ite (.next (drop (h.ringRecord.fst ‹_›)))
            (.ite (.next (hold (h.ringRecord.fst ‹_›))) (.next (drop (h.ringRecord.fst ‹_›)).enterHandler))

theorem State.Canon.execTrapRingTimeout (h : s.Canon M T) : CanonOut (execTrapRingTimeout s) M T := by
  unfold Machine.execTrapRingTimeout
  dsimp only
  split
  · exact .next h
  · exact .ite (.next (.killWave (.stallRecord { h with trapReqs := h.trapReqs.del }))) (.next h)

theorem State.Canon.execLateRecordTimeout (h : s.Canon M T) : CanonOut (execLateRecordTimeout s) M T := by
  unfold Machine.execLateRecordTimeout
  dsimp only
  split
  · exact .next h
  · exact .ite (.next h) (.next (.modJob (.stallRecord { h with trapReqs := h.trapReqs.del })))

theorem State.Canon.execLateStoreFault (h : s.Canon M T) : CanonOut (execLateStoreFault s) M T := by
  unfold Machine.execLateStoreFault
  split
  · exact .next h
  · exact .ite (.next h.refuse.settleOps) (.next h)

theorem State.Canon.execEventRecordTimeout (h : s.Canon M T) : CanonOut (execEventRecordTimeout s) M T := by
  unfold Machine.execEventRecordTimeout
  dsimp only
  split
  · exact .next h
  · exact .ite (.next h) (.next (.drainEvents (.fatalRecord { h with eventReqs := h.eventReqs.del })))

theorem State.Canon.execWaitCycleScan (h : s.Canon M T) : CanonOut (execWaitCycleScan s) M T :=
  .ite (.next h) (.next (.foldl { h with scanAt := h.scanAt.put } fun _ _ h => h.reportCycle))

theorem State.Canon.execTranslationWalk (h : s.Canon M T) : CanonOut (execTranslationWalk s) M T := .next h.translate

theorem State.Canon.execOwnerRecall (h : s.Canon M T) : CanonOut (execOwnerRecall s) M T := by
  unfold Machine.execOwnerRecall
  split
  · exact .next h
  · exact .ite (.next h) (.next { h with transit := h.transit.put })

theorem State.Canon.execReclassifyComplete (h : s.Canon M T) : CanonOut (execReclassifyComplete s) M T := by
  unfold Machine.execReclassifyComplete
  dsimp only
  split
  · exact .next h
  · exact .ite (.next h.reclassNow.settleOps) (.next h)

theorem State.Canon.execNocRefusal (h : s.Canon M T) : CanonOut (execNocRefusal s) M T := .next (.countSlice { h with noc :=
  h.noc.put })

theorem State.Canon.execNocReplay (h : s.Canon M T) : CanonOut (execNocReplay s) M T := by
  unfold Machine.execNocReplay
  dsimp only
  split
  · exact .next h
  · exact .ite (.next h) (.next (have h := h.countSlice; { h with noc := h.noc.put }))

theorem State.Canon.execDoorbellCqtail (h : s.Canon M T) : CanonOut (execDoorbellCqtail s) M T := h.doorbell

theorem State.Canon.execDoorbellTqhead (h : s.Canon M T) : CanonOut (execDoorbellTqhead s) M T := h.doorbell

theorem State.Canon.execDoorbellEqhead (h : s.Canon M T) : CanonOut (execDoorbellEqhead s) M T := h.doorbell

theorem State.Canon.execHostRdmaWrite (h : s.Canon M T) : CanonOut (execHostRdmaWrite s) M T := by
  unfold Machine.execHostRdmaWrite
  split
  · split
    · exact h.doorbell
    · exact .next h
  · exact .next h.hostRequest

theorem State.Canon.execHostRdmaRead (h : s.Canon M T) : CanonOut (execHostRdmaRead s) M T :=
  .ite (.ite (.next h) (.next h.send)) (.next h.hostRequest)

theorem State.Canon.execHostAtomic (h : s.Canon M T) : CanonOut (execHostAtomic s) M T :=
  .ite (.next (h.refuseOuter.ite h)) (.next h.hostRequest)

theorem State.Canon.execHostSend (h : s.Canon M T) : CanonOut (execHostSend s) M T := .next (h.refuseOuter.ite h)

theorem State.Canon.execPeerInbound (h : s.Canon M T) : CanonOut (execPeerInbound s) M T := by
  unfold Machine.execPeerInbound
  split
  · exact .next h
  · dsimp only
    split
    · exact .next { h with peerHeard := h.peerHeard.put }
    · exact .ite (.next (.takeOuter { h with peerHeard := h.peerHeard.put }))
        (.next (.refuseOuter { h with peerHeard := h.peerHeard.put }))

theorem State.Canon.acknowledged {id o x} {c b : Prop} [Decidable c] [Decidable b] (h : s.Canon M T) :
    CanonOut (if c then .next (s.refuse o 3).settleOps
      else if b then .next ({ s with ops := put s.ops id x } : State).settleOps
      else .next ({ s with ops := del s.ops id } : State).settleOps) M T :=
  .ite (.next h.refuse.settleOps) (.ite (.next (.settleOps { h with ops := h.ops.put }))
    (.next (.settleOps { h with ops := h.ops.del })))

theorem State.Canon.execPeerAcknowledgement (h : s.Canon M T) : CanonOut (execPeerAcknowledgement s) M T := by
  unfold Machine.execPeerAcknowledgement
  dsimp only
  split
  · exact .next h
  · split
    · exact .next h
    · split
      · exact .acknowledged (.update h.lineEnd fun h => { h with peerHeard := h.peerHeard.put })
      all_goals exact .acknowledged h.lineEnd

theorem State.Canon.execCqbaseWrite (h : s.Canon M T) : CanonOut (execCqbaseWrite s) M T := h.regWrite

theorem State.Canon.execTqbaseWrite (h : s.Canon M T) : CanonOut (execTqbaseWrite s) M T := h.regWrite

theorem State.Canon.execEqbaseWrite (h : s.Canon M T) : CanonOut (execEqbaseWrite s) M T := h.regWrite

theorem State.Canon.execPartWrite (h : s.Canon M T) : CanonOut (execPartWrite s) M T := h.regWrite

theorem State.Canon.execVshareWrite (h : s.Canon M T) : CanonOut (execVshareWrite s) M T := h.regWrite

theorem State.Canon.execFatalClear (h : s.Canon M T) : CanonOut (execFatalClear s) M T := h.regWrite

theorem State.Canon.execPstreamWrite (h : s.Canon M T) : CanonOut (execPstreamWrite s) M T := h.regWrite

theorem State.Canon.execRegisterWrite (h : s.Canon M T) : CanonOut (execRegisterWrite s) M T := .ite h.regWrite (.next h)

theorem State.Canon.execKeepalive (h : s.Canon M T) : CanonOut (execKeepalive s) M T := .ite (.next h.send) (.next h)

theorem State.Canon.execKeepaliveReceived (h : s.Canon M T) : CanonOut (execKeepaliveReceived s) M T :=
  .ite (.next h) (.next { h with peerHeard := h.peerHeard.put })

theorem State.Canon.execFabricPortDown (h : s.Canon M T) : CanonOut (execFabricPortDown s) M T := .next { h with }

theorem State.Canon.execFabricPortUp (h : s.Canon M T) : CanonOut (execFabricPortUp s) M T := .ite (.next h) (.next { h with })

theorem State.Canon.execPeerHandshake (h : s.Canon M T) : CanonOut (execPeerHandshake s) M T :=
  .ite (.next (.sysSetBits { h with peerHeard := h.peerHeard.put })) (.next h)

theorem State.Canon.execPtpMessage (h : s.Canon M T) : CanonOut (execPtpMessage s) M T :=
  .ite (.next h) (.next (.sysSetBits (.sysSetBits { h with })))

theorem State.Canon.execQueuePairConnected (h : s.Canon M T) : CanonOut (execQueuePairConnected s) M T :=
  .ite (.next h) (.next h.sysSetBits)

theorem State.Canon.execBrokenConnection (h : s.Canon M T) : CanonOut (execBrokenConnection s) M T := .next h.loseHost

theorem State.Canon.execBootRun (h : s.Canon M T) : CanonOut (execBootRun s) M T := by
  unfold Machine.execBootRun
  split
  · dsimp only
    split
    · exact .next (.loadImage { h with })
    · exact .next (.loadImage { h with })
    · exact .next (.bootFails { h with })
  · exact .next h.writeRun
  · exact .next h
  · exact .next h

theorem State.Canon.execMeasextWrite (h : s.Canon M T) : CanonOut (execMeasextWrite s) M T := by
  unfold Machine.execMeasextWrite
  split
  · exact .next (h.sysWrite.fst ‹_›)
  · exact .next ((h.sysWrite.fst ‹_›).firmwareTrap)

theorem State.Canon.execManagementRequest (h : s.Canon M T) : CanonOut (execManagementRequest s) M T := by
  unfold Machine.execManagementRequest
  split
  · exact .next h
  · split
    · exact .next h.refuseOuter
    · split
      · split
        · exact .next ((h.sysWrite.fst ‹_›).send)
        · exact .next (((h.sysWrite.fst ‹_›).firmwareTrap).refuseOuter)
      · exact .next h.refuseOuter

theorem State.Canon.execAttestation (h : s.Canon M T) : CanonOut (execAttestation s) M T :=
  .ite (.next h) (.ite (.next h.refuseOuter) (.next h.send))

theorem State.Canon.execHistogramTick (h : s.Canon M T) : CanonOut (execHistogramTick s) M T := by
  have count {m : State} {a b c} (h : m.Canon M T) :
    ({ m with second := a, seconds := b, corrected := c } : State).Canon M T := { h with }
  have restart {m : State} (h : m.Canon M T) : ({ m with corrected := 0 } : State).Canon M T := { h with }
  exact .ite (.next h) (.ite (.next (restart (count h.addSecond.countSlice).addBin)) (.next (count h.addSecond.countSlice)))

theorem State.Canon.execHistogramSave (h : s.Canon M T) : CanonOut (execHistogramSave s) M T :=
  .ite (.next { h with histSaved := h.hist }) (.next h)

theorem State.Canon.execScrub (h : s.Canon M T) : CanonOut (execScrub s) M T :=
  .ite (.next h.loseWord) (.ite (.next h.hiddenError) (.next h.poisonLine))

theorem State.Canon.execRegisterEccError (h : s.Canon M T) : CanonOut (execRegisterEccError s) M T := by
  unfold Machine.execRegisterEccError
  split
  · exact .next h
  · exact .ite (.next h.firmwareTrap) (.next h.killWave.settleOps)

theorem State.Canon.execSliceStateError (h : s.Canon M T) : CanonOut (execSliceStateError s) M T := by
  have h := h.hitAt (n := s.occ.n)
  unfold Machine.execSliceStateError
  dsimp only
  generalize s.hitAt s.occ.n = r at h ⊢
  exact .next (.settleOps (.foldl h.choose.latch.countSlice fun _ _ h => h.loseSlice))

theorem State.Canon.execThermalThrottle (h : s.Canon M T) : CanonOut (execThermalThrottle s) M T :=
  .ite h.execThermalTrip (.next (.setClock { h.sysSetBits with }))

theorem State.Canon.execPowerLimit (h : s.Canon M T) : CanonOut (execPowerLimit s) M T :=
  .next (.sysSetBits (h.foldl fun _ _ h => h.setClock.ite h))

theorem State.Canon.execIssueCycle (h : s.Canon M T) : CanonOut (execIssueCycle s) M T := by
  have h := h.decideIssues (core := s.occ.core)
  unfold Machine.execIssueCycle
  dsimp only
  generalize s.decideIssues s.occ.core = r at h ⊢
  exact .next { h with }

theorem State.Canon.execSoloFetch (h : s.Canon M T) : CanonOut (execSoloFetch s) M T := by
  unfold Machine.execSoloFetch
  dsimp only
  split
  · exact .next h
  · split
    · exact .next ((h.fetchWord.fst ‹_›).soloArrives)
    · exact .next (h.fetchWord.fst ‹_›)

end

end Sys2Proof.Machine
end

/-! Every instruction and event, and the step -/
section
namespace Sys2Proof.Machine
open Sys2Proof Host

section
variable {s : State} {d : Done} {M T : Prop}

/-- What every instruction and event does keeps the state canonical: one lemma for each shared operation and for each event. -/
theorem State.Canon.exec {i} (h : s.Canon M T) : CanonOut (exec i s) M T :=
  match i with
  | .iaddShort .. | .iadd .. | .isubShort .. | .isub .. | .imulShort .. | .imul .. | .iaddImmShort .. | .iaddImm .. | .imadShort ..
  | .imad .. | .idivShort .. | .idiv .. | .iremShort .. | .irem .. | .iminShort .. | .imin .. | .imaxShort .. | .imax ..
  | .iabsShort .. | .iabs .. | .inegShort .. | .ineg .. | .andShort .. | .and .. | .orShort .. | .or .. | .xorShort .. | .xor ..
  | .notShort .. | .not .. | .shlShort .. | .shl .. | .shrShort .. | .shr .. | .sarShort .. | .sar .. | .rotShort .. | .rot ..
  | .popcShort .. | .popc .. | .clzShort .. | .clz .. | .brevShort .. | .brev .. | .bfx .. | .bfi .. | .leaShort .. | .lea ..
  | .movShort .. | .mov .. | .movLo .. | .movHi .. | .faddShort .. | .fadd .. | .fsubShort .. | .fsub .. | .fmulShort .. | .fmul ..
  | .fmaShort .. | .fma .. | .fminShort .. | .fmin .. | .fmaxShort .. | .fmax .. | .fabsShort .. | .fabs .. | .fnegShort .. | .fneg ..
  | .fcpsShort .. | .fcps .. | .fclsShort .. | .fcls .. | .frndShort .. | .frnd .. | .cvtf .. | .cvtfi .. | .cvtif .. | .cvtsc ..
  | .fpack .. => h.laneOp
  | .icmpShort .. | .icmp .. | .fcmpShort .. | .fcmp .. => h.bitOp
  | .sel .. => h.runLanes fun _ _ _ _ h => h.selDone
  | .bankreq .. => h.runLanes fun _ _ _ _ h => h.bankreqEff
  | .draw .. => h.runLanes fun _ _ _ _ h => h.drawEff
  | .ordEnter .. => h.runLanes fun _ _ _ _ h => h.ordEnterEff
  | .ordLeave .. => h.runLanes fun _ _ _ _ h => h.ordLeaveEff
  | .fli .. => h.runLanes fun _ _ _ _ h => h.fliEff
  | .flw .. => h.runLanes fun _ _ _ _ h => h.flwEff
  | .rayq .. => h.runLanes fun _ _ _ _ h => h.rayqEff
  | .rayqApp .. => h.runLanes fun _ _ _ _ h => h.rayqAppEff
  | .eret .. => h.runLanes fun _ _ _ _ h => h.eretEff
  | .movW .. => h.waveOp fun _ _ _ _ h => h.fxMovW
  | .movFws .. => h.waveOp fun _ _ _ _ h => h.fxMovFws
  | .movTws .. => h.waveOp fun _ _ _ _ h => h.fxMovTws
  | .kop .. => h.waveOp fun _ _ _ _ h => h.fxKop
  | .kmov .. => h.waveOp fun _ _ _ _ h => h.fxKmov
  | .kpopc .. => h.waveOp fun _ _ _ _ h => h.fxKpopc
  | .fdivShort .. | .fdiv .. | .fsqrtShort .. | .fsqrt .. | .frcpShort .. | .frcp .. | .frsqShort .. | .frsq .. | .fexpShort ..
  | .fexp .. | .flogShort .. | .flog .. | .fsinShort .. | .fsin .. | .fcosShort .. | .fcos .. | .ftanShort .. | .ftan ..
  | .ftanhShort .. | .ftanh .. | .fatanShort .. | .fatan .. => h.laterOp
  | .shflShort .. | .shfl .. | .shflupShort .. | .shflup .. | .shfldnShort .. | .shfldn .. | .shflxShort .. | .shflx .. | .bcast .. => h.shuffleOp
  | .vote .. | .reduce .. => h.gatherOp
  | .scan .. => h.scanOp
  | .braShort .. | .bra .. | .brc .. => h.branchOp
  | .callShort .. | .call .. | .callInd .. => h.callOp
  | .retShort .. | .ret .. => h.retOp
  | .loopShort .. | .loop .. | .loopI .. => h.loopOp
  | .barWvShort .. | .barWv .. | .barBlk .. => h.barOp
  | .sleepShort .. | .sleep .. | .sleepFor .. => h.sleepOp
  | .waitFullShort .. | .waitFull .. => h.waitOp fun h => h.waitFullLane
  | .waitEmpty .. => h.waitOp fun h => h.waitEmptyLane
  | .trapShort .. | .trap .. => h.trapOp
  | .endShort .. | .endLane .. => h.endOp
  | .msignShort .. | .msign .. => h.msignOp
  | .spawn .. => h.spawnOp
  | .yieldShort .. | .yieldNow .. => h.yieldOp
  | .cmtWaitShort .. | .cmtWait .. => h.cmtWaitOp
  | .cmtPos .. => h.cmtPosOp
  | .ldShort .. | .ld .. | .stShort .. | .st .. | .atom .. | .cas .. | .fatom .. => h.globalOp
  | .ldsShort .. | .lds .. | .stsShort .. | .sts .. | .fillShort .. | .fill .. | .drainShort .. | .drain .. | .seteShort .. | .sete ..
  | .pushShort .. | .push .. | .popShort .. | .pop .. | .rbrdShort .. | .rbrd .. | .rbaddShort .. | .rbadd .. | .atoms .. | .cass ..
  | .fatoms .. => h.spadOp
  | .rbwaitShort .. | .rbwait .. => h.rbwaitOp
  | .fenceShort .. | .fence .. => h.fenceOp
  | .take .. | .takeTry .. | .give .. | .acinit .. | .stock .. => h.tillOp
  | .prefShort .. | .pref .. => h.prefOp
  | .ldw .. | .stw .. => h.waveAccessOp
  | .flushShort .. | .flush .. => h.flushOp
  | .mlatb .. => h.matOp fun _ _ _ _ _ h => h.enterMlatb
  | .mma .. | .mmas .. | .mmai .. => h.matOp fun _ _ _ _ _ h => h.enterMma
  | .mcbt .. => h.matOp fun _ _ _ _ _ h => h.enterMcbt
  | .mzero .. => h.matOp fun _ _ _ _ _ h => h.enterMzero
  | .mst .. => h.matOp fun _ _ _ _ _ h => h.matEnter
  | .mmv .. => h.matOp fun _ _ _ _ _ h => h.enterMmv
  | .mrd .. => h.mrdOp
  | .mstat .. | .mstatClr .. => h.mstatOp
  | .mwait .. => h.mwaitOp
  | .mrel .. => h.mrelOp
  | .band .. | .ppopc .. | .igath .. | .cmpr .. | .expd .. | .topk .. => h.rowOp
  | .tcopy .. | .tgath .. | .tscat .. | .fconv .. | .sred .. | .embag .. => h.postOp
  | .rpassTile .. | .rpassImm .. => h.rpassOp
  | .sysrd .. => h.sysOp fun _ _ _ _ h => h.sysrdEff
  | .syswr .. => h.sysOp fun _ _ _ _ h => h.syswrEff
  | .sysopIcinv .. => h.sysOp fun _ _ _ _ h => h.icinvEff
  | .sysopDcwb .. => h.sysOp fun _ _ _ _ h => h.dcwbEff
  | .sysopXlinv .. => h.sysOp fun _ _ _ _ h => h.xlinvEff
  | .sysopXlinvAll .. => h.sysOp fun _ _ _ _ h => h.xlinvAllEff
  | .kset .. => h.execKset
  | .issueCycle .. => h.execIssueCycle
  | .soloFetch .. => h.execSoloFetch
  | .destinationFill .. => h.execDestinationFill
  | .barrierTimeout .. => h.execBarrierTimeout
  | .sleepWake .. => h.execSleepWake
  | .signingTimeout .. => h.execSigningTimeout
  | .armingTimeout .. => h.execArmingTimeout
  | .waveComplete .. => h.execWaveComplete
  | .launch .. => h.execLaunch
  | .cancel .. => h.execCancel
  | .cancelReach .. => h.execCancelReach
  | .launchStart .. => h.execLaunchStart
  | .wavePlace .. => h.execWavePlace
  | .spawnDecision .. => h.execSpawnDecision
  | .packWave .. => h.execPackWave
  | .packWaitExpire .. => h.execPackWaitExpire
  | .commit .. => h.execCommit
  | .dPageAccess .. => h.execDPageAccess
  | .versionShareAbort .. => h.execVersionShareAbort
  | .heldWrite .. => h.execHeldWrite
  | .homeSliceStore .. => h.execHomeSliceStore
  | .remoteScratchpadAccess .. => h.execRemoteScratchpadAccess
  | .bankmodeWrite .. => h.execBankmodeWrite
  | .bankSwitchComplete .. => h.execBankSwitchComplete
  | .tileCopyRow .. => h.execTileCopyRow
  | .lateDelivery .. => h.execLateDelivery
  | .engineQueueTimeout .. => h.execEngineQueueTimeout
  | .fconvTile .. => h.execFconvTile
  | .sredElement .. => h.execSredElement
  | .embagBag .. => h.execEmbagBag
  | .matrixEntry .. => h.execMatrixEntry
  | .tableSlotFill .. => h.execTableSlotFill
  | .matrixClaimTimeout .. => h.execMatrixClaimTimeout
  | .tillTake .. => h.execTillTake
  | .tillGive .. => h.execTillGive
  | .tillAcinit .. => h.execTillAcinit
  | .tillStock .. => h.execTillStock
  | .stocktakeRecall .. => h.execStocktakeRecall
  | .allowanceWaitTimeout .. => h.execAllowanceWaitTimeout
  | .rowBarrierTimeout .. => h.execRowBarrierTimeout
  | .commitWaitTimeout .. => h.execCommitWaitTimeout
  | .drawAccept .. => h.execDrawAccept
  | .rasterWaveForm .. => h.execRasterWaveForm
  | .ordEntryTimeout .. => h.execOrdEntryTimeout
  | .ordSectionTimeout .. => h.execOrdSectionTimeout
  | .fliPerform .. => h.execFliPerform
  | .flwPerform .. => h.execFlwPerform
  | .rayTraversal .. => h.execRayTraversal
  | .graphicsTimeout .. => h.execGraphicsTimeout
  | .resolvePhase .. => h.execResolvePhase
  | .passClose .. => h.execPassClose
  | .trapHandlerEntry .. => h.execTrapHandlerEntry
  | .trapRingTimeout .. => h.execTrapRingTimeout
  | .lateRecordTimeout .. => h.execLateRecordTimeout
  | .lateStoreFault .. => h.execLateStoreFault
  | .eventRecordTimeout .. => h.execEventRecordTimeout
  | .timeSliceEnd .. => h.execTimeSliceEnd
  | .forcedSave .. => h.execForcedSave
  | .saveComplete .. => h.execSaveComplete
  | .waveRestore .. => h.execWaveRestore
  | .vistop .. => h.execVistop
  | .waitCycleScan .. => h.execWaitCycleScan
  | .nocRefusal .. => h.execNocRefusal
  | .nocReplay .. => h.execNocReplay
  | .translationWalk .. => h.execTranslationWalk
  | .ownerRecall .. => h.execOwnerRecall
  | .reclassifyComplete .. => h.execReclassifyComplete
  | .hostRdmaWrite .. => h.execHostRdmaWrite
  | .hostRdmaRead .. => h.execHostRdmaRead
  | .hostAtomic .. => h.execHostAtomic
  | .doorbellCqtail .. => h.execDoorbellCqtail
  | .doorbellTqhead .. => h.execDoorbellTqhead
  | .doorbellEqhead .. => h.execDoorbellEqhead
  | .cqbaseWrite .. => h.execCqbaseWrite
  | .tqbaseWrite .. => h.execTqbaseWrite
  | .eqbaseWrite .. => h.execEqbaseWrite
  | .partWrite .. => h.execPartWrite
  | .vshareWrite .. => h.execVshareWrite
  | .fatalClear .. => h.execFatalClear
  | .registerWrite .. => h.execRegisterWrite
  | .peerInbound .. => h.execPeerInbound
  | .keepalive .. => h.execKeepalive
  | .fabricPortDown .. => h.execFabricPortDown
  | .peerLost .. => h.execPeerLost
  | .peerHandshake .. => h.execPeerHandshake
  | .ptpMessage .. => h.execPtpMessage
  | .pstreamWrite .. => h.execPstreamWrite
  | .frameDeadline .. => h.execFrameDeadline
  | .coldReset .. => h.execColdReset
  | .warmReset .. => h.execWarmReset
  | .interfaceReset .. => h.execInterfaceReset
  | .thermalTrip .. => h.execThermalTrip
  | .thermalThrottle .. => h.execThermalThrottle
  | .powerLimit .. => h.execPowerLimit
  | .bootRun .. => h.execBootRun
  | .measextWrite .. => h.execMeasextWrite
  | .managementRequest .. => h.execManagementRequest
  | .attestation .. => h.execAttestation
  | .histogramTick .. => h.execHistogramTick
  | .histogramSave .. => h.execHistogramSave
  | .scrub .. => h.execScrub
  | .registerEccError .. => h.execRegisterEccError
  | .sliceStateError .. => h.execSliceStateError
  | .illegalInstruction .. => h.execIllegalInstruction
  | .peerAcknowledgement .. => h.execPeerAcknowledgement
  | .keepaliveReceived .. => h.execKeepaliveReceived
  | .fabricPortUp .. => h.execFabricPortUp
  | .queuePairConnected .. => h.execQueuePairConnected
  | .brokenConnection .. => h.execBrokenConnection
  | .powerLoss .. => h.execPowerLoss
  | .hostSend .. => h.execHostSend

theorem State.Canon.afterSpawns {o} (h : s.Canon M T) (ho : CanonOut o M T) : CanonOut (s.afterSpawns o) M T := by
  unfold State.afterSpawns
  split
  · split
    · exact State.Canon.execSpawnDecision { h with }
    · exact ho
  · exact ho

theorem State.Canon.settle {o} (h : s.Canon M T) (ho : CanonOut o M T) : CanonOut (s.settle o) M T := by
  unfold State.settle
  split
  · split
    · exact ho
    · refine .next { h with transit := ?_ }
      split
      · exact h.transit.put
      · exact h.transit
  · exact ho

/-- Every step keeps the state canonical. -/
theorem State.Canon.step (h : s.Canon M T) : CanonOut (step s) M T := by
  unfold Machine.step
  split
  · rename_i rest _
    have hb : ({ s with issues := rest, stall := none } : State).Canon M T := { h with }
    dsimp only
    split
    · exact hb.settle (h.afterSpawns (State.Canon.exec (.update hb.fetchIssue fun h => { h with })))
    · exact hb.settle (h.afterSpawns (.next hb.fetchIssue))
  · split
    · split
      · refine State.Canon.settle { h with } (h.afterSpawns (State.Canon.exec ?_))
        rename_i heq
        have h := h.nextEvent.fst heq
        exact { h with }
      · exact .next (h.nextEvent.fst ‹_›).tick
    · split
      · exact State.Canon.execColdReset { h with }
      · exact .next { h with }
      · intro m hm
        cases hm

/-- A state whose memory is canonical is canonical, whatever its tables are. -/
theorem State.Canon.of_memOk (h : s.memOk = true) : s.Canon True False := by
  constructor
  · exact fun _ => h
  all_goals exact False.elim

theorem State.Canon.memOk (h : s.Canon True T) : s.memOk = true := h.mem trivial

theorem State.Canon.of_tablesOk (h : s.tablesOk = true) : s.Canon False True := by
  simp only [State.tablesOk, Bool.and_eq_true, and_assoc] at h
  obtain ⟨poison, sys, measExt, histSaved, hist, streams, portSent, clocks, peerHeard, lineport, noc, cores, waves, spad, fifo,
    switches, ops, relAt, fills, barriers, jobs, issuers, formed, spawns, held, tills, tillMsgs, cmds, postings, promises,
    passes, opens, gfxAsks, gfx, trapReqs, eventReqs, holders, saved, transit, scanAt⟩ := h
  constructor
  · exact False.elim
  all_goals exact fun _ => ‹_›

theorem State.Canon.tablesOk (h : s.Canon M True) : s.tablesOk = true := by
  simp only [State.tablesOk, Bool.and_eq_true, and_assoc]
  exact ⟨h.poison trivial, h.sys trivial, h.measExt trivial, h.histSaved trivial, h.hist trivial, h.streams trivial, h.portSent
    trivial, h.clocks trivial, h.peerHeard trivial, h.lineport trivial, h.noc trivial, h.cores trivial, h.waves trivial, h.spad
    trivial, h.fifo trivial, h.switches trivial, h.ops trivial, h.relAt trivial, h.fills trivial, h.barriers trivial, h.jobs
    trivial, h.issuers trivial, h.formed trivial, h.spawns trivial, h.held trivial, h.tills trivial, h.tillMsgs trivial, h.cmds
    trivial, h.postings trivial, h.promises trivial, h.passes trivial, h.opens trivial, h.gfxAsks trivial, h.gfx trivial,
    h.trapReqs trivial, h.eventReqs trivial, h.holders trivial, h.saved trivial, h.transit trivial, h.scanAt trivial⟩

/-- Settles O19: every step keeps the whole state canonical (`State.Canon.step`), here with the claim about memory alone. -/
theorem memoryStaysCanonical : Obligations.MemoryStaysCanonical := by
  unfold Obligations.MemoryStaysCanonical
  intro s t h e
  exact ((State.Canon.of_memOk h).step t e).memOk

/-- Settles O20: every step keeps the whole state canonical (`State.Canon.step`), here with the claim about the tables alone. -/
theorem tablesStayCanonical : Obligations.TablesStayCanonical := by
  unfold Obligations.TablesStayCanonical
  intro s t h e
  exact ((State.Canon.of_tablesOk h).step t e).tablesOk

end

end Sys2Proof.Machine
end
